-- ==== Sys2Proof/Word.lean ====
section
/-! DEFINITION. The word types of the machine and the plainest arithmetic on them. -/
namespace Sys2Proof

/-- A general register or a memory word of eight bytes (R94). -/
abbrev Word := BitVec 64
/-- One lane of a vector register (R94). -/
abbrev Lane := BitVec 32
/-- One byte of memory (R5). -/
abbrev Byte := BitVec 8

/-- A signed integer cut to `n` bits. -/
def wrapInt (n : Nat) (i : Int) : BitVec n := BitVec.ofInt n i

/-- Bits `hi..lo` of a number. -/
def natBits (x hi lo : Nat) : Nat := (x / 2 ^ lo) % 2 ^ (hi + 1 - lo)

/-- Bit `i` of a number. -/
def natBit (x i : Nat) : Bool := x.testBit i

/-- Bits `hi..lo` of a word as a number. -/
def bits {n : Nat} (x : BitVec n) (hi lo : Nat) : Nat := natBits x.toNat hi lo

/-- A Boolean as 0 or 1. -/
def b2n (b : Bool) : Nat := if b then 1 else 0

/-- The number as a 64-bit word. -/
abbrev w64 (x : Nat) : Word := BitVec.ofNat 64 x

end Sys2Proof
end

