-- ==== Sys2Proof/Config.lean ====
section
/-! DEFINITION. What the spec leaves to the implementation, as constants without a body: nothing in Lean can evaluate
them, so a statement holds whatever they are. -/
namespace Sys2Proof.Config

/-- A value the spec leaves open, one for each value of the state's counter `free`. Log entry 7. -/
opaque freeValue : Nat → BitVec 512

/-- What a line of DRAM that was stored with some plain bytes under one key reads as under another: the two keys by
partition number and count, none for no encryption, the line, the plain bytes (R366, R367). Log entry 31. -/
opaque keyView : Option (Nat × Nat) → Option (Nat × Nat) → Nat → BitVec 512 → BitVec 512

/-- The SM3 digest of a byte string, given as its length and its little-endian number (R371, R431). -/
opaque sm3 : Nat → Nat → BitVec 256

/-- SM2 verification of a signature over a digest under a public key (R374, R464). -/
opaque sm2Verify : BitVec 512 → BitVec 256 → BitVec 512 → Bool

/-- The fused digest of the firmware key, and the fused minimum security version (R464). -/
opaque fusedKeyDigest : BitVec 256
opaque fusedMinVersion : Nat

/-- The digest of the boot ROM (R371). -/
opaque bootRom : BitVec 256

/-- The digest of the fuse configuration with the spare-cluster map, given as a number with bit 64 d + c for cluster c of
die d (R371). -/
opaque fuseDigest : Nat → BitVec 256

/-- The device identity certificate, as 64-bit words, and the SM2 signature that its key gives over a digest (R370). -/
opaque certificate : List (BitVec 64)
opaque deviceSign : BitVec 256 → BitVec 512

/-- The translator version and the microcode revision of a firmware image, by its digest (R371, R431). -/
opaque translatorVersion : BitVec 256 → BitVec 32
opaque microcodeRevision : BitVec 256 → BitVec 32

/-- The address window of a function: what a host DMA address reaches (physical address, KEY of its page), for each
function, address and state of the partition's table (R65, R367). -/
opaque dmaWindow : Nat → Nat → Nat × Nat

/-- Where in a translated graph the scalar replay kernel of a frond begins: cache key, frond index (R343, R429, R432). Its
code is part of `cacheByte`. -/
opaque replayOffset : BitVec 256 → Nat → Nat

/-- Whether the granule at a virtual address of a CELLS section was emitted by a `.cell` directive, by the cache key of its
container: the container's layout does not say (R291, R355, R423). -/
opaque cellGranule : BitVec 256 → Nat → Bool

/-- The bytes a translated graph takes in the cache window, by its cache key (R432). -/
opaque cacheSize : BitVec 256 → Nat

/-- The bytes of a translated graph in the cache window before its trailer: cache key, byte number (R429, R432). -/
opaque cacheByte : BitVec 256 → Nat → BitVec 8

/-- The trailer of a cache entry, an SM3 HMAC over its bytes and its key, by what the HMAC key is derived from beside the
device secret: the value that firmware drew at boot, the partition, its key-generation count (R432). -/
opaque cacheMac : BitVec 256 → BitVec 256 → Nat → BitVec 64 → BitVec 256

/-- The bytes that an image takes in a spore store: cache key of its container, frond index (R434). -/
opaque imageSize : BitVec 256 → Nat → Nat

/-- Whether the edges of a container's image can be routed within the pools at their depths (R197, R217, R427), and the
SW frames that the translator writes from the routes: frame address and frame (R239, R429). -/
opaque routable : BitVec 256 → Nat → Bool
opaque swFrames : BitVec 256 → Nat → List (BitVec 32 × BitVec 256)

/-- The numbers of the modules of this module's load-store domain (R2). -/
opaque domain : List Nat

/-- A module number lies in the load-store domain, which has at most 384 modules: beyond it only circuits reach (R2, R442). -/
def inDomain (m : Nat) : Bool := (domain.take 384).contains m

/-- The line by which the UALink port of a circuit's token is chosen: partition, circuit, sequence number (R443, R444, R463). -/
opaque circuitLine : Nat → Nat → Nat → Nat

/-- Which of the 4 Ultra Ethernet ports (mod 4) carries a circuit's token or credit: partition, circuit, sequence number (R2, R443;
log entry 135). -/
opaque ethernetPort : Nat → Nat → Nat → Nat

/-- The hash of a physical line address that chooses the UALink port of a request (R440). -/
opaque linkHash : Nat → Nat

/-- The correctly rounded result where the interval computation of `Sfu` leaves it undecided: function 0 rcp to 4 tnh,
rounding mode, operand. Log entry 12. -/
opaque sfuUndecided : Nat → Nat → BitVec 32 → BitVec 32

end Sys2Proof.Config
end

