-- ==== Sys2Proof/Syntax.lean ====
section
/-! DEFINITION. The abstract syntax: one constructor per row of spec/opcode_table.json. The first 215 are the
instructions of a strand (R101 to R112), whose fields are those of the encoding, register fields already in the
range of their file (R94). The others are the steps of the other agents; each names the unit that takes it. -/
namespace Sys2Proof

inductive Instr where
  /-- ADD (R124). Adds two general registers, with optional 32-bit width and saturation chosen by the modifier. -/
  | add (d : BitVec 6) (a : BitVec 6) (b : BitVec 6) (m : BitVec 2)
  /-- ADD_N (R124). Unsigned-form add, which differs from ADD only under saturation or 32-bit zero-extension. -/
  | addN (d : BitVec 6) (a : BitVec 6) (b : BitVec 6) (m : BitVec 2)
  /-- SUB (R124). Subtracts g[b] from g[a], with optional width and saturation. -/
  | sub (d : BitVec 6) (a : BitVec 6) (b : BitVec 6) (m : BitVec 2)
  /-- SUB_N (R124). Unsigned-form subtract, which clamps at 0 under saturation. -/
  | subN (d : BitVec 6) (a : BitVec 6) (b : BitVec 6) (m : BitVec 2)
  /-- MUL (R124). Multiplies two registers, keeping the low bits or clamping the exact product. -/
  | mul (d : BitVec 6) (a : BitVec 6) (b : BitVec 6) (m : BitVec 2)
  /-- MUL_N (R124). Unsigned-form multiply. -/
  | mulN (d : BitVec 6) (a : BitVec 6) (b : BitVec 6) (m : BitVec 2)
  /-- MULH (R124). Writes the high half of the exact signed product. -/
  | mulh (d : BitVec 6) (a : BitVec 6) (b : BitVec 6) (m : BitVec 1)
  /-- MULH_N (R124). Writes the high half of the exact unsigned product. -/
  | mulhN (d : BitVec 6) (a : BitVec 6) (b : BitVec 6) (m : BitVec 1)
  /-- DIV (R124). Signed division truncating toward zero, with defined results for division by zero and overflow. -/
  | div (d : BitVec 6) (a : BitVec 6) (b : BitVec 6) (m : BitVec 1)
  /-- DIV_N (R124). Unsigned division, which never traps. -/
  | divN (d : BitVec 6) (a : BitVec 6) (b : BitVec 6) (m : BitVec 1)
  /-- REM (R124). Signed remainder, whose sign follows the dividend. -/
  | rem (d : BitVec 6) (a : BitVec 6) (b : BitVec 6) (m : BitVec 1)
  /-- REM_N (R124). Unsigned remainder. -/
  | remN (d : BitVec 6) (a : BitVec 6) (b : BitVec 6) (m : BitVec 1)
  /-- AND (R124). Bitwise AND of two 64-bit registers. -/
  | and (d : BitVec 6) (a : BitVec 6) (b : BitVec 6)
  /-- OR (R124). Bitwise OR of two 64-bit registers. -/
  | or (d : BitVec 6) (a : BitVec 6) (b : BitVec 6)
  /-- XOR (R124). Bitwise XOR of two 64-bit registers. -/
  | xor (d : BitVec 6) (a : BitVec 6) (b : BitVec 6)
  /-- ANDN (R124). Bitwise a AND NOT b. -/
  | andn (d : BitVec 6) (a : BitVec 6) (b : BitVec 6)
  /-- SHL (R124). Shifts left by a count held in a register, optionally saturating. -/
  | shl (d : BitVec 6) (a : BitVec 6) (b : BitVec 6) (m : BitVec 2)
  /-- SHR (R124). Logical right shift by a count held in a register. -/
  | shr (d : BitVec 6) (a : BitVec 6) (b : BitVec 6) (m : BitVec 1)
  /-- SHA (R124). Arithmetic right shift by a count held in a register. -/
  | sha (d : BitVec 6) (a : BitVec 6) (b : BitVec 6) (m : BitVec 1)
  /-- ROR (R124). Rotate right by a count held in a register. -/
  | ror (d : BitVec 6) (a : BitVec 6) (b : BitVec 6) (m : BitVec 1)
  /-- SHL_IMM (R124). Shifts left by an amount given in the b field. -/
  | shlImm (d : BitVec 6) (a : BitVec 6) (n : BitVec 6) (m : BitVec 2)
  /-- SHR_IMM (R124). Logical right shift by an amount given in the b field. -/
  | shrImm (d : BitVec 6) (a : BitVec 6) (n : BitVec 6) (m : BitVec 1)
  /-- SHA_IMM (R124). Arithmetic right shift by an amount given in the b field. -/
  | shaImm (d : BitVec 6) (a : BitVec 6) (n : BitVec 6) (m : BitVec 1)
  /-- ROR_IMM (R124). Rotate right by an amount given in the b field. -/
  | rorImm (d : BitVec 6) (a : BitVec 6) (n : BitVec 6) (m : BitVec 1)
  /-- CLZ (R124). Counts leading zero bits. -/
  | clz (d : BitVec 6) (a : BitVec 6) (m : BitVec 1)
  /-- CTZ (R124). Counts trailing zero bits. -/
  | ctz (d : BitVec 6) (a : BitVec 6) (m : BitVec 1)
  /-- POPC (R124). Counts the one bits. -/
  | popc (d : BitVec 6) (a : BitVec 6) (m : BitVec 1)
  /-- BREV (R124). Reverses the order of the bits. -/
  | brev (d : BitVec 6) (a : BitVec 6) (m : BitVec 1)
  /-- BSWP (R124). Reverses the order of the bytes. -/
  | bswp (d : BitVec 6) (a : BitVec 6) (m : BitVec 1)
  /-- MIN (R124). Signed minimum. -/
  | min (d : BitVec 6) (a : BitVec 6) (b : BitVec 6) (m : BitVec 1)
  /-- MIN_N (R124). Unsigned minimum. -/
  | minN (d : BitVec 6) (a : BitVec 6) (b : BitVec 6) (m : BitVec 1)
  /-- MAX (R124). Signed maximum. -/
  | max (d : BitVec 6) (a : BitVec 6) (b : BitVec 6) (m : BitVec 1)
  /-- MAX_N (R124). Unsigned maximum. -/
  | maxN (d : BitVec 6) (a : BitVec 6) (b : BitVec 6) (m : BitVec 1)
  /-- SEL (R102). Selects g[a] when g[d] is non-zero and g[b] otherwise. -/
  | sel (d : BitVec 6) (a : BitVec 6) (b : BitVec 6)
  /-- SHADD_1 (R124). Shifts g[a] left by 1 and adds g[b]. -/
  | shadd1 (d : BitVec 6) (a : BitVec 6) (b : BitVec 6) (m : BitVec 1)
  /-- SHADD_2 (R124). Shifts g[a] left by 2 and adds g[b]. -/
  | shadd2 (d : BitVec 6) (a : BitVec 6) (b : BitVec 6) (m : BitVec 1)
  /-- SHADD_3 (R124). Shifts g[a] left by 3 and adds g[b]. -/
  | shadd3 (d : BitVec 6) (a : BitVec 6) (b : BitVec 6) (m : BitVec 1)
  /-- SHADD_4 (R124). Shifts g[a] left by 4 and adds g[b]. -/
  | shadd4 (d : BitVec 6) (a : BitVec 6) (b : BitVec 6) (m : BitVec 1)
  /-- CMP_EQ (R124). Writes 1 when the operands are equal, and 0 otherwise. -/
  | cmpEq (d : BitVec 6) (a : BitVec 6) (b : BitVec 6) (m : BitVec 1)
  /-- CMP_NE (R124). Writes 1 when the operands differ, and 0 otherwise. -/
  | cmpNe (d : BitVec 6) (a : BitVec 6) (b : BitVec 6) (m : BitVec 1)
  /-- CMP_LT (R124). Writes 1 for a signed less-than, and 0 otherwise. -/
  | cmpLt (d : BitVec 6) (a : BitVec 6) (b : BitVec 6) (m : BitVec 1)
  /-- CMP_GE (R124). Writes 1 for a signed greater-or-equal, and 0 otherwise. -/
  | cmpGe (d : BitVec 6) (a : BitVec 6) (b : BitVec 6) (m : BitVec 1)
  /-- CMP_LTN (R124). Writes 1 for an unsigned less-than, and 0 otherwise. -/
  | cmpLtn (d : BitVec 6) (a : BitVec 6) (b : BitVec 6) (m : BitVec 1)
  /-- CMP_GEN (R124). Writes 1 for an unsigned greater-or-equal, and 0 otherwise. -/
  | cmpGen (d : BitVec 6) (a : BitVec 6) (b : BitVec 6) (m : BitVec 1)
  /-- ADD_IMM (R125). Adds a sign-extended 14-bit immediate. -/
  | addImm (d : BitVec 6) (a : BitVec 6) (i : BitVec 14)
  /-- ADD_W_IMM (R125). Adds an immediate to bits 31..0 and sign-extends the 32-bit sum. -/
  | addWImm (d : BitVec 6) (a : BitVec 6) (i : BitVec 14)
  /-- MUL_IMM (R125). Multiplies by a sign-extended immediate. -/
  | mulImm (d : BitVec 6) (a : BitVec 6) (i : BitVec 14)
  /-- AND_IMM (R125). Bitwise AND with a sign-extended immediate. -/
  | andImm (d : BitVec 6) (a : BitVec 6) (i : BitVec 14)
  /-- OR_IMM (R125). Bitwise OR with a sign-extended immediate. -/
  | orImm (d : BitVec 6) (a : BitVec 6) (i : BitVec 14)
  /-- XOR_IMM (R125). Bitwise XOR with a sign-extended immediate. -/
  | xorImm (d : BitVec 6) (a : BitVec 6) (i : BitVec 14)
  /-- BFX (R126). Extracts a bit field and sign-extends it. -/
  | bfx (d : BitVec 6) (a : BitVec 6) (l : BitVec 6) (p : BitVec 6)
  /-- BFX_N (R126). Extracts a bit field and zero-extends it. -/
  | bfxN (d : BitVec 6) (a : BitVec 6) (l : BitVec 6) (p : BitVec 6)
  /-- BFI (R126). Inserts the low bits of g[a] into a field of g[d]. -/
  | bfi (d : BitVec 6) (a : BitVec 6) (l : BitVec 6) (p : BitVec 6)
  /-- HMIX (R127). Computes one xor-shift-multiply hashing step. -/
  | hmix (d : BitVec 6) (a : BitVec 6) (b : BitVec 6) (s : BitVec 6)
  /-- MOVI (R101). Writes a sign-extended 20-bit immediate. -/
  | movi (d : BitVec 6) (i : BitVec 20)
  /-- MOVHI (R101). Writes an immediate into bits 63..32 and keeps bits 31..0. -/
  | movhi (d : BitVec 6) (i : BitVec 20)
  /-- ADDPC (R101). Writes the instruction's own address plus a byte offset. -/
  | addpc (d : BitVec 6) (i : BitVec 20)
  /-- LIMM (R101). Two-word instruction that writes a sign-extended 32-bit immediate. -/
  | limm (d : BitVec 6) (i : BitVec 32)
  /-- LIMM_N (R101). Two-word instruction that writes a zero-extended 32-bit immediate. -/
  | limmN (d : BitVec 6) (i : BitVec 32)
  /-- B_COND (R129). Branches to a PC-relative target when the condition holds on two registers. -/
  | bCond (c : BitVec 3) (a : BitVec 6) (b : BitVec 6) (o : BitVec 11)
  /-- JMP (R129). Jumps to a PC-relative target. -/
  | jmp (i : BitVec 26)
  /-- CALL (R129). Writes the return address to g63 and jumps to a PC-relative target. -/
  | call (i : BitVec 26)
  /-- JR (R129). Jumps to the address held in g[a]. -/
  | jr (a : BitVec 6)
  /-- CALLR (R129). Writes g63 and jumps to the address held in g[a]. -/
  | callr (a : BitVec 6)
  /-- FADD (R130). Scalar floating-point add in F32 or F64. -/
  | fadd (d : BitVec 6) (a : BitVec 6) (b : BitVec 6) (r : BitVec 3) (p : BitVec 1)
  /-- FSUB (R130). Scalar floating-point subtract. -/
  | fsub (d : BitVec 6) (a : BitVec 6) (b : BitVec 6) (r : BitVec 3) (p : BitVec 1)
  /-- FMUL (R130). Scalar floating-point multiply. -/
  | fmul (d : BitVec 6) (a : BitVec 6) (b : BitVec 6) (r : BitVec 3) (p : BitVec 1)
  /-- FDIV (R130). Scalar floating-point divide, executed in the divider pipe. -/
  | fdiv (d : BitVec 6) (a : BitVec 6) (b : BitVec 6) (r : BitVec 3) (p : BitVec 1)
  /-- FSQRT (R130). Scalar floating-point square root. -/
  | fsqrt (d : BitVec 6) (a : BitVec 6) (r : BitVec 3) (p : BitVec 1)
  /-- FMA_FMA (R130). Fused multiply-add that uses g[d] as the addend. -/
  | fmaFma (d : BitVec 6) (a : BitVec 6) (b : BitVec 6) (r : BitVec 3) (p : BitVec 1)
  /-- FMA_FMS (R130). Fused multiply-subtract. -/
  | fmaFms (d : BitVec 6) (a : BitVec 6) (b : BitVec 6) (r : BitVec 3) (p : BitVec 1)
  /-- FMA_FNMA (R130). Fused negated multiply-add. -/
  | fmaFnma (d : BitVec 6) (a : BitVec 6) (b : BitVec 6) (r : BitVec 3) (p : BitVec 1)
  /-- FMIN (R131). Floating-point minimum by the NaN and zero rules. -/
  | fmin (d : BitVec 6) (a : BitVec 6) (b : BitVec 6) (p : BitVec 1)
  /-- FMAX (R131). Floating-point maximum by the NaN and zero rules. -/
  | fmax (d : BitVec 6) (a : BitVec 6) (b : BitVec 6) (p : BitVec 1)
  /-- FCMP (R131). Floating-point compare that writes 0 or 1. -/
  | fcmp (d : BitVec 6) (a : BitVec 6) (b : BitVec 6) (c : BitVec 3) (p : BitVec 1)
  /-- FCLS (R132). Writes a one-hot class mask of the operand. -/
  | fcls (d : BitVec 6) (a : BitVec 6) (p : BitVec 1)
  /-- FMV_CP (R132). Copies the floating-point bits of the operand. -/
  | fmvCp (d : BitVec 6) (a : BitVec 6) (p : BitVec 1)
  /-- FMV_NEG (R132). Flips the sign bit. -/
  | fmvNeg (d : BitVec 6) (a : BitVec 6) (p : BitVec 1)
  /-- FMV_ABS (R132). Clears the sign bit. -/
  | fmvAbs (d : BitVec 6) (a : BitVec 6) (p : BitVec 1)
  /-- FMV_SGN (R132). Gives the magnitude of g[a] with the sign of g[b]. -/
  | fmvSgn (d : BitVec 6) (a : BitVec 6) (b : BitVec 6) (p : BitVec 1)
  /-- FCVT (R133). Converts a scalar between integer and floating formats. -/
  | fcvt (d : BitVec 6) (a : BitVec 6) (s : BitVec 4) (r : BitVec 3) (u : BitVec 1) (t : BitVec 4)
  /-- VADD (R135). Lane-wise 32-bit integer add. -/
  | vadd (d : BitVec 4) (a : BitVec 4) (b : BitVec 4) (k : BitVec 3)
  /-- VSUB (R135). Lane-wise integer subtract. -/
  | vsub (d : BitVec 4) (a : BitVec 4) (b : BitVec 4) (k : BitVec 3)
  /-- VMUL (R135). Lane-wise low 32 bits of the product. -/
  | vmul (d : BitVec 4) (a : BitVec 4) (b : BitVec 4) (k : BitVec 3)
  /-- VMIN (R135). Lane-wise signed minimum. -/
  | vmin (d : BitVec 4) (a : BitVec 4) (b : BitVec 4) (k : BitVec 3)
  /-- VMIN_N (R135). Lane-wise unsigned minimum. -/
  | vminN (d : BitVec 4) (a : BitVec 4) (b : BitVec 4) (k : BitVec 3)
  /-- VMAX (R135). Lane-wise signed maximum. -/
  | vmax (d : BitVec 4) (a : BitVec 4) (b : BitVec 4) (k : BitVec 3)
  /-- VMAX_N (R135). Lane-wise unsigned maximum. -/
  | vmaxN (d : BitVec 4) (a : BitVec 4) (b : BitVec 4) (k : BitVec 3)
  /-- VLOG_AND (R135). Lane-wise bitwise AND. -/
  | vlogAnd (d : BitVec 4) (a : BitVec 4) (b : BitVec 4) (k : BitVec 3)
  /-- VLOG_OR (R135). Lane-wise bitwise OR. -/
  | vlogOr (d : BitVec 4) (a : BitVec 4) (b : BitVec 4) (k : BitVec 3)
  /-- VLOG_XOR (R135). Lane-wise bitwise XOR. -/
  | vlogXor (d : BitVec 4) (a : BitVec 4) (b : BitVec 4) (k : BitVec 3)
  /-- VSH_SHL (R135). Lane-wise left shift. -/
  | vshShl (d : BitVec 4) (a : BitVec 4) (b : BitVec 4) (k : BitVec 3)
  /-- VSH_SHR (R135). Lane-wise logical right shift. -/
  | vshShr (d : BitVec 4) (a : BitVec 4) (b : BitVec 4) (k : BitVec 3)
  /-- VSH_SHA (R135). Lane-wise arithmetic right shift. -/
  | vshSha (d : BitVec 4) (a : BitVec 4) (b : BitVec 4) (k : BitVec 3)
  /-- VADD_SAT (R135). Lane-wise add clamped to I32. -/
  | vaddSat (d : BitVec 4) (a : BitVec 4) (b : BitVec 4) (k : BitVec 3)
  /-- VADD_N_SAT (R135). Lane-wise add clamped to N32. -/
  | vaddNSat (d : BitVec 4) (a : BitVec 4) (b : BitVec 4) (k : BitVec 3)
  /-- VSUB_SAT (R135). Lane-wise subtract clamped to I32. -/
  | vsubSat (d : BitVec 4) (a : BitVec 4) (b : BitVec 4) (k : BitVec 3)
  /-- VSUB_N_SAT (R135). Lane-wise subtract clamped to N32. -/
  | vsubNSat (d : BitVec 4) (a : BitVec 4) (b : BitVec 4) (k : BitVec 3)
  /-- VRED_SUM (R137). Exact signed sum of the active lanes, written to a general register. -/
  | vredSum (d : BitVec 6) (a : BitVec 4) (k : BitVec 3)
  /-- VRED_MAX (R137). Signed maximum of the active lanes. -/
  | vredMax (d : BitVec 6) (a : BitVec 4) (k : BitVec 3)
  /-- VRED_MIN (R137). Signed minimum of the active lanes. -/
  | vredMin (d : BitVec 6) (a : BitVec 4) (k : BitVec 3)
  /-- VSCAN (R137). Inclusive prefix sum of the active lanes. -/
  | vscan (d : BitVec 4) (a : BitVec 4) (k : BitVec 3)
  /-- VDOT (R137). Integer dot product of the active lanes, written to a general register. -/
  | vdot (d : BitVec 6) (a : BitVec 4) (b : BitVec 4) (k : BitVec 3)
  /-- VSEL (R135). Takes v[a] in lanes whose mask bit is set and v[b] elsewhere. -/
  | vsel (d : BitVec 4) (a : BitVec 4) (b : BitVec 4) (k : BitVec 3)
  /-- VCMP (R135). Lane-wise integer compare into a mask register. -/
  | vcmp (d : BitVec 3) (a : BitVec 4) (b : BitVec 4) (k : BitVec 3) (c : BitVec 3)
  /-- VADD_S (R136). Lane-wise F32 add. -/
  | vaddS (d : BitVec 4) (a : BitVec 4) (b : BitVec 4) (k : BitVec 3)
  /-- VSUB_S (R136). Lane-wise F32 subtract. -/
  | vsubS (d : BitVec 4) (a : BitVec 4) (b : BitVec 4) (k : BitVec 3)
  /-- VMUL_S (R136). Lane-wise F32 multiply. -/
  | vmulS (d : BitVec 4) (a : BitVec 4) (b : BitVec 4) (k : BitVec 3)
  /-- VFMA_S (R136). Lane-wise fused multiply-add that uses v[d] as the addend. -/
  | vfmaS (d : BitVec 4) (a : BitVec 4) (b : BitVec 4) (k : BitVec 3)
  /-- VMIN_S (R136). Lane-wise F32 minimum. -/
  | vminS (d : BitVec 4) (a : BitVec 4) (b : BitVec 4) (k : BitVec 3)
  /-- VMAX_S (R136). Lane-wise F32 maximum. -/
  | vmaxS (d : BitVec 4) (a : BitVec 4) (b : BitVec 4) (k : BitVec 3)
  /-- VRED_SUM_S (R137). Pairwise-tree F32 sum of the active lanes. -/
  | vredSumS (d : BitVec 6) (a : BitVec 4) (k : BitVec 3)
  /-- VRED_MAX_S (R137). Tree maximum of the active F32 lanes. -/
  | vredMaxS (d : BitVec 6) (a : BitVec 4) (k : BitVec 3)
  /-- VRED_MIN_S (R137). Tree minimum of the active F32 lanes. -/
  | vredMinS (d : BitVec 6) (a : BitVec 4) (k : BitVec 3)
  /-- VSCAN_S (R137). Running F32 sum over the active lanes. -/
  | vscanS (d : BitVec 4) (a : BitVec 4) (k : BitVec 3)
  /-- VDOT_S (R137). F32 dot product by the pairwise tree. -/
  | vdotS (d : BitVec 6) (a : BitVec 4) (b : BitVec 4) (k : BitVec 3)
  /-- VSFU_RCP (R89). Lane-wise reciprocal in the special-function pipe. -/
  | vsfuRcp (d : BitVec 4) (a : BitVec 4) (k : BitVec 3)
  /-- VSFU_RSQ (R89). Lane-wise reciprocal square root. -/
  | vsfuRsq (d : BitVec 4) (a : BitVec 4) (k : BitVec 3)
  /-- VSFU_EX2 (R89). Lane-wise base-2 exponential. -/
  | vsfuEx2 (d : BitVec 4) (a : BitVec 4) (k : BitVec 3)
  /-- VSFU_LG2 (R89). Lane-wise base-2 logarithm. -/
  | vsfuLg2 (d : BitVec 4) (a : BitVec 4) (k : BitVec 3)
  /-- VSFU_TNH (R89). Lane-wise hyperbolic tangent. -/
  | vsfuTnh (d : BitVec 4) (a : BitVec 4) (k : BitVec 3)
  /-- VCMP_S (R136). Lane-wise F32 compare into a mask register. -/
  | vcmpS (d : BitVec 3) (a : BitVec 4) (b : BitVec 4) (k : BitVec 3) (c : BitVec 3)
  /-- VPERM (R138). Permutes lanes by the indices held in v[b]. -/
  | vperm (d : BitVec 4) (a : BitVec 4) (b : BitVec 4) (k : BitVec 3)
  /-- VSPLAT (R138). Writes g[a] bits 31..0 into the active lanes. -/
  | vsplat (d : BitVec 4) (a : BitVec 6) (k : BitVec 3)
  /-- VGET (R138). Reads one lane into a general register. -/
  | vget (d : BitVec 6) (a : BitVec 4) (b : BitVec 6)
  /-- VINS (R138). Inserts a general register into one lane. -/
  | vins (d : BitVec 4) (a : BitVec 6) (b : BitVec 6)
  /-- VCMPR (R138). Compresses the active lanes toward lane 0. -/
  | vcmpr (d : BitVec 4) (a : BitVec 4) (k : BitVec 3)
  /-- VEXPD (R138). Expands the low lanes into the active lanes. -/
  | vexpd (d : BitVec 4) (a : BitVec 4) (k : BitVec 3)
  /-- VDEC (R140). Decodes K8 byte j of each lane through the core's table. -/
  | vdec (d : BitVec 4) (a : BitVec 4) (j : BitVec 2) (k : BitVec 3)
  /-- VENC (R140). Encodes F32 lanes to K8 into byte j. -/
  | venc (d : BitVec 4) (a : BitVec 4) (j : BitVec 2) (k : BitVec 3)
  /-- TBLW (R141). Writes one entry of the core's K8 table, or loads a whole predefined table. -/
  | tblw (a : BitVec 6) (b : BitVec 6)
  /-- TBLR (R141). Reads one entry of the core's K8 table. -/
  | tblr (d : BitVec 6) (a : BitVec 6)
  /-- KOP_AND (R142). AND of two mask registers. -/
  | kopAnd (d : BitVec 3) (a : BitVec 3) (b : BitVec 3)
  /-- KOP_OR (R142). OR of two mask registers. -/
  | kopOr (d : BitVec 3) (a : BitVec 3) (b : BitVec 3)
  /-- KOP_XOR (R142). XOR of two mask registers. -/
  | kopXor (d : BitVec 3) (a : BitVec 3) (b : BitVec 3)
  /-- KOP_ANDN (R142). k[a] AND NOT k[b]. -/
  | kopAndn (d : BitVec 3) (a : BitVec 3) (b : BitVec 3)
  /-- KOP_SET (R142). Sets a mask register from a general register. -/
  | kopSet (d : BitVec 3) (a : BitVec 6)
  /-- KOP_GET (R142). Reads a mask register into a general register. -/
  | kopGet (d : BitVec 6) (a : BitVec 3)
  /-- KCNT (R142). Counts the one bits of a mask register. -/
  | kcnt (d : BitVec 6) (a : BitVec 3)
  /-- GANG (R31). Joins slots 2k and 2k+1 into a gang, parking the first strand to arrive until its partner arrives. -/
  | gang
  /-- SPLIT (R33). Ends the gang; the follower resumes after its GANG. -/
  | split
  /-- VCVT (R139). Converts the active lanes between lane formats. -/
  | vcvt (d : BitVec 4) (a : BitVec 4) (s : BitVec 3) (t : BitVec 3) (k : BitVec 3) (u : BitVec 1) (r : BitVec 3)
  /-- LD (R148). Scalar load of 1, 2, 4 or 8 bytes. -/
  | ld (d : BitVec 6) (a : BitVec 6) (w : BitVec 2) (n : BitVec 1) (o : BitVec 11)
  /-- ST (R148). Scalar store of 1, 2, 4 or 8 bytes. -/
  | st (s : BitVec 6) (a : BitVec 6) (w : BitVec 2) (o : BitVec 11)
  /-- VLD (R151). Contiguous vector load with every lane active. -/
  | vld (d : BitVec 4) (a : BitVec 6) (w : BitVec 2) (n : BitVec 1) (o : BitVec 11)
  /-- VST (R151). Contiguous vector store. -/
  | vst (s : BitVec 4) (a : BitVec 6) (w : BitVec 2) (o : BitVec 11)
  /-- LDX (R148). Indexed scalar load. -/
  | ldx (d : BitVec 6) (a : BitVec 6) (b : BitVec 6) (n : BitVec 1) (w : BitVec 2)
  /-- STX (R148). Indexed scalar store. -/
  | stx (s : BitVec 6) (a : BitVec 6) (b : BitVec 6) (w : BitVec 2)
  /-- LD_ACQ (R148). Load that is an acquire at the named scope. -/
  | ldAcq (d : BitVec 6) (a : BitVec 6) (s : BitVec 3) (n : BitVec 1) (w : BitVec 2)
  /-- ST_REL (R148). Store that is a release at the named scope. -/
  | stRel (s : BitVec 6) (a : BitVec 6) (scope : BitVec 3) (w : BitVec 2)
  /-- VLDS (R151). Strided masked vector load. -/
  | vlds (d : BitVec 4) (a : BitVec 6) (b : BitVec 6) (k : BitVec 3) (n : BitVec 1) (w : BitVec 2)
  /-- VSTS (R151). Strided masked vector store. -/
  | vsts (s : BitVec 4) (a : BitVec 6) (b : BitVec 6) (k : BitVec 3) (w : BitVec 2)
  /-- VGTH (R151). Gathers lanes by per-lane offsets. -/
  | vgth (d : BitVec 4) (a : BitVec 6) (b : BitVec 4) (k : BitVec 3) (n : BitVec 1) (w : BitVec 2)
  /-- VSCT (R151). Scatters lanes by per-lane offsets. -/
  | vsct (s : BitVec 4) (a : BitVec 6) (b : BitVec 4) (k : BitVec 3) (w : BitVec 2)
  /-- PREF (R160). Hint that fetches a global line into the cluster cache. -/
  | pref (a : BitVec 6)
  /-- FENCE (R160). Orders the selected kinds of access at a scope. -/
  | fence (s : BitVec 3) (m : BitVec 4)
  /-- CWB (R160). Writes a dirty line back to its home slice and keeps it cached. -/
  | cwb (a : BitVec 6)
  /-- CINV (R160). Writes a dirty line back and drops it from the cluster cache. -/
  | cinv (a : BitVec 6)
  /-- AMO_ADD (R154). Atomic add that returns the old value. -/
  | amoAdd (d : BitVec 6) (a : BitVec 6) (b : BitVec 6) (s : BitVec 3) (w : BitVec 1)
  /-- AMO_AND (R154). Atomic AND. -/
  | amoAnd (d : BitVec 6) (a : BitVec 6) (b : BitVec 6) (s : BitVec 3) (w : BitVec 1)
  /-- AMO_OR (R154). Atomic OR. -/
  | amoOr (d : BitVec 6) (a : BitVec 6) (b : BitVec 6) (s : BitVec 3) (w : BitVec 1)
  /-- AMO_XOR (R154). Atomic XOR. -/
  | amoXor (d : BitVec 6) (a : BitVec 6) (b : BitVec 6) (s : BitVec 3) (w : BitVec 1)
  /-- AMO_MIN (R154). Atomic signed minimum. -/
  | amoMin (d : BitVec 6) (a : BitVec 6) (b : BitVec 6) (s : BitVec 3) (w : BitVec 1)
  /-- AMO_MAX (R154). Atomic signed maximum. -/
  | amoMax (d : BitVec 6) (a : BitVec 6) (b : BitVec 6) (s : BitVec 3) (w : BitVec 1)
  /-- AMO_MINN (R154). Atomic unsigned minimum. -/
  | amoMinn (d : BitVec 6) (a : BitVec 6) (b : BitVec 6) (s : BitVec 3) (w : BitVec 1)
  /-- AMO_MAXN (R154). Atomic unsigned maximum. -/
  | amoMaxn (d : BitVec 6) (a : BitVec 6) (b : BitVec 6) (s : BitVec 3) (w : BitVec 1)
  /-- AMO_SWP (R154). Atomic swap. -/
  | amoSwp (d : BitVec 6) (a : BitVec 6) (b : BitVec 6) (s : BitVec 3) (w : BitVec 1)
  /-- AMO_FADD (R154). Atomic floating-point add, rounded RNE. -/
  | amoFadd (d : BitVec 6) (a : BitVec 6) (b : BitVec 6) (s : BitVec 3) (w : BitVec 1)
  /-- ACAS (R155). Atomic compare-and-swap that returns the old value. -/
  | acas (d : BitVec 6) (a : BitVec 6) (b : BitVec 6) (s : BitVec 3) (w : BitVec 1)
  /-- LDFE (R157). Waits for FULL, reads the word and leaves it EMPTY. -/
  | ldfe (d : BitVec 6) (a : BitVec 6) (o : BitVec 11)
  /-- LDFF (R157). Waits for FULL, reads the word and leaves it FULL. -/
  | ldff (d : BitVec 6) (a : BitVec 6) (o : BitVec 11)
  /-- STEF (R157). Waits for EMPTY, writes the word and leaves it FULL. -/
  | stef (s : BitVec 6) (a : BitVec 6) (o : BitVec 11)
  /-- STFF (R157). Writes the word and leaves it FULL without waiting. -/
  | stff (s : BitVec 6) (a : BitVec 6) (o : BitVec 11)
  /-- FEGET (R157). Returns a word's full/empty bit. -/
  | feget (d : BitVec 6) (a : BitVec 6)
  /-- FESET_EMPTY (R157). Sets a word EMPTY and wakes its STEF waiters. -/
  | fesetEmpty (a : BitVec 6)
  /-- FESET_FULL (R157). Sets a word FULL and wakes its LDFE and LDFF waiters. -/
  | fesetFull (a : BitVec 6)
  /-- SEND (R162). Sends an 8-byte message to a strand's q0, parking until the recipient's cluster answers. -/
  | send (a : BitVec 6) (b : BitVec 6)
  /-- SENDV (R162). Sends a 64-byte vector message. -/
  | sendv (a : BitVec 6) (b : BitVec 4)
  /-- RECV_G (R163). Takes the next q0 message or ring word into a general register. -/
  | recvG (d : BitVec 6) (q : BitVec 2) (b : BitVec 6)
  /-- RECV_V (R163). Takes the next message or eight ring words into a vector register. -/
  | recvV (d : BitVec 4) (q : BitVec 2) (b : BitVec 6)
  /-- QPOLL (R164). Reports without parking whether a stream register has data. -/
  | qpoll (d : BitVec 6) (q : BitVec 2)
  /-- QBIND (R165). Binds a stream register to a ring of 2^n words. -/
  | qbind (q : BitVec 2) (a : BitVec 6) (n : BitVec 6)
  /-- QFREE (R165). Unbinds a stream register. -/
  | qfree (q : BitVec 2)
  /-- CPY (R167). Starts a copy-engine copy with an optional byte barrier. -/
  | cpy (d : BitVec 6) (a : BitVec 6) (b : BitVec 6) (x : BitVec 6)
  /-- CPY2 (R167). Starts a two-dimensional strided copy. -/
  | cpy2 (d : BitVec 6) (a : BitVec 6) (b : BitVec 6) (x : BitVec 6)
  /-- BWAIT (R170). Parks until a byte barrier holds zero or less. -/
  | bwait (a : BitVec 6)
  /-- SERVE (R171). Calls a served configuration through a handle and parks until its result arrives. -/
  | serve (d : BitVec 6) (a : BitVec 6) (h : BitVec 4) (n : BitVec 8)
  /-- FRLD (R175). Creates a LOADED residency and returns its handle. -/
  | frld (d : BitVec 6) (a : BitVec 6) (b : BitVec 6)
  /-- FRBIND (R176). Sets or pends a stream binding of a residency. -/
  | frbind (d : BitVec 6) (a : BitVec 6) (b : BitVec 6)
  /-- FRGO (R177). Starts a LOADED residency as a DIE-scope release. -/
  | frgo (a : BitVec 6)
  /-- FRBAR (R178). Parks until the plane counter advances, or resumes a FAULTED residency. -/
  | frbar (a : BitVec 6)
  /-- FRWAIT (R179). Parks until the residency is DRAINED or FAULTED, then frees it. -/
  | frwait (a : BitVec 6)
  /-- ARGW (R176). Writes a CE constant of a residency, or pends it for the next round. -/
  | argw (d : BitVec 6) (a : BitVec 6) (b : BitVec 6)
  /-- SPAWN_CORE (R181). Creates a core-bound strand on the creator's core. -/
  | spawnCore (a : BitVec 6) (b : BitVec 6)
  /-- SPAWN_CLUSTER (R181). Creates a strand in the creator's cluster. -/
  | spawnCluster (a : BitVec 6) (b : BitVec 6)
  /-- SPAWN_NAMED (R181). Creates a strand in the named cluster of the die. -/
  | spawnNamed (d : BitVec 6) (a : BitVec 6) (b : BitVec 6)
  /-- SPAWN_DIE (R181). Creates a strand in the die's cluster with the most free slots. -/
  | spawnDie (a : BitVec 6) (b : BitVec 6)
  /-- EXIT (R30). Retires the strand, releasing its slot and SID. -/
  | exit
  /-- YIELD (R183). Gives up issue until the other ready slots have issued once. -/
  | yield
  /-- TWAIT (R184). Parks until TIME reaches a deadline. -/
  | twait (a : BitVec 6)
  /-- CSUS (R186). Writes a suspension record and makes the cell CHRYSALIS. -/
  | csus (a : BitVec 6) (b : BitVec 6)
  /-- CFRC (R187). Launches eclosion of a CHRYSALIS cell without waiting. -/
  | cfrc (a : BitVec 6)
  /-- CFIL (R188). Evaluator fills its cell, makes it VALUE and wakes the waiters. -/
  | cfil (n : BitVec 6) (a : BitVec 6) (b : BitVec 6)
  /-- CCAN (R188). Evaluator returns its cell to CHRYSALIS and wakes the waiters. -/
  | ccan (a : BitVec 6)
  /-- CCAN_P (R188). Evaluator poisons its cell and wakes the waiters. -/
  | ccanP (a : BitVec 6)
  /-- CTAG (R189). Reads a cell's tag code. -/
  | ctag (d : BitVec 6) (a : BitVec 6)
  /-- TRAP (R190). Takes the TRAP cause with code n. -/
  | trap (c : BitVec 6)
  /-- ERET (R191). Returns from a trap to TPC in the previous mode. -/
  | eret
  /-- BRK (R190). Takes the BRK trap. -/
  | brk
  /-- HALT (R191). Stops the strand PARKED with reason 0 and reports it to the supervisor. -/
  | halt
  /-- CTLR (R192). Reads a control register by index. -/
  | ctlr (d : BitVec 6) (i : BitVec 12)
  /-- CTLW (R192). Writes a control register by index, with the checks of R96. -/
  | ctlw (a : BitVec 6) (i : BitVec 12)
  /-- TLBI_PAGE (R193). Invalidates the translation of one page in a scope. -/
  | tlbiPage (a : BitVec 6) (s : BitVec 3)
  /-- TLBI_ASID (R193). Invalidates all translations of an ASID in a scope. -/
  | tlbiAsid (a : BitVec 6) (s : BitVec 3)
  /-- TLBI_PART (R193). Invalidates all translations of the partition in a scope. -/
  | tlbiPart (s : BitVec 3)
  /-- RESULT_LANDS (R122). The result of a load, atomic or other non-fixed-latency instruction arrives and writes its register. -/
  | resultLands (uid : Nat)
  /-- STRAND_WAKE (R39). A parked strand's condition becomes true, and it becomes ACTIVE and replays. -/
  | strandWake (uid : Nat)
  /-- FEWAIT_EXPIRY (R17). A park exceeds FELIM cycles and ends in a precise FEWAIT trap. -/
  | fewaitExpiry (uid : Nat)
  /-- TWAIT_DEADLINE (R184). TIME reaches a parked TWAIT deadline. -/
  | twaitDeadline (uid : Nat)
  /-- CELLTMO_EXPIRY (R303). A strand's cell wait exceeds the cell-wait limit and takes CELLTMO. -/
  | celltmoExpiry (uid : Nat)
  /-- MP_CELL_WAIT_EXPIRY (R304). An MP access's cell wait exceeds the limit and raises the fabric fault CELLTMO. -/
  | mpCellWaitExpiry (rid row idx : Nat)
  /-- DEFERRED_TRAP (R333). A pending deferred trap is taken at an instruction boundary while ITR is clear. -/
  | deferredTrap (uid : Nat)
  /-- STRAND_PLACEMENT (R24). The cluster strand scheduler fills a free slot from the spawn queue. -/
  | strandPlacement (die cluster : Nat)
  /-- VICTIM_PREEMPT (R385). A spawn-queue entry that has waited 2^17 cycles makes the scheduler choose a victim or vacate a core. -/
  | victimPreempt (uid : Nat)
  /-- STRAND_SAVE (R394). A strand is pre-empted, its copies are quiesced and its save record is written. -/
  | strandSave (uid : Nat)
  /-- COPY_BURST (R168). A copy engine delivers a burst of at most 512 bytes and subtracts it from the barrier. -/
  | copyBurst (cid : Nat)
  /-- COPY_RING_WORD_WRITE (R166). A ring copy writes a ring word once it is EMPTY and makes it FULL. -/
  | copyRingWordWrite (cid : Nat)
  /-- MESSAGE_DELIVERY (R162). The recipient's cluster appends, refuses with QOVF, or drops a SEND, and the sender's SEND completes. -/
  | messageDelivery (uid : Nat)
  /-- SERVE_INJECT (R210). A waiting packet is injected at the served entry, in SERVE issue order. -/
  | serveInject (pid : Nat)
  /-- SERVED_EXIT (R210). All result tokens of one tag reach the exit heads, and the MPs release the tag's stores. -/
  | servedExit (rid : Nat)
  /-- SERVE_RESULT_ARRIVAL (R171). The result words reach the caller, merge flags and wake it, or deliver SERVEP. -/
  | serveResultArrival (pid : Nat)
  /-- FROND_DECISION (R388). The frond scheduler chooses a waiting served configuration to place. -/
  | frondDecision (die cluster : Nat)
  /-- RESIDENCY_PLACEMENT (R389). A waiting streamed residency is placed in a region of its reservation. -/
  | residencyPlacement (die cluster : Nat)
  /-- RESIDENCY_MIGRATION (R391). After MIGR×1024 cycles a residency is placed in a neighbouring cluster. -/
  | residencyMigration (die cluster entry target : Nat)
  /-- PLANE_PREFETCH (R206). The prefetcher finishes filling a plane from the spore store. -/
  | planePrefetch (rid : Nat)
  /-- PLANE_ENTRY (R208). Elements enter the next loaded plane, and the plane counter advances. -/
  | planeEntry (rid : Nat)
  /-- ARGW_DELIVERY (R228). An ARGW value arrives at the element's pending register. -/
  | argwDelivery (rid : Nat)
  /-- CREDIT_RETURN (R197). A freed slot's credit reaches the producer. -/
  | creditReturn (rid arc : Nat)
  /-- CE_FIRE (R231). A CE runs its micro-operations on its input heads and emits at most one token. -/
  | ceFire (rid row col : Nat)
  /-- CE_GENERATOR_FIRE (R230). A generator CE fires when its outputs can accept. -/
  | ceGeneratorFire (rid row col : Nat)
  /-- CE_STOP_STEP (R234). A CE consumes matching STOP tokens, or applies its TRIM policy at a boundary. -/
  | ceStopStep (rid row col : Nat)
  /-- ROUND_BOUNDARY (R207). An element consumes EOR on every enabled input, emits EOR and flips its parity. -/
  | roundBoundary (rid row col : Nat)
  /-- ELEMENT_DONE (R213). An element that has consumed DONE on every input emits DONE and stops. -/
  | elementDone (rid row col : Nat)
  /-- AG_AFF_FIRE (R244). An affine AG emits the next REF, or EOR at an outer iteration. -/
  | agAffFire (rid row : Nat)
  /-- AG_IND_FIRE (R245). An indirect AG turns an index token into a REF. -/
  | agIndFire (rid row : Nat)
  /-- MP_LDS_FIRE (R248). An MP performs a load and emits the value. -/
  | mpLdsFire (rid row : Nat)
  /-- MP_STS_FIRE (R248). An MP places a store in its commit window, or forwards a circuit token. -/
  | mpStsFire (rid row : Nat)
  /-- MP_AMS_FIRE (R248). An MP performs an atomic and emits the old value. -/
  | mpAmsFire (rid row : Nat)
  /-- MP_SPILL_COMPLETE (R216). A spilled MP access completes and its token leaves late. -/
  | mpSpillComplete (rid row idx : Nat)
  /-- WINDOW_COMMIT (R214). All MPs release a round's stores once every MP has consumed its EOR. -/
  | windowCommit (rid : Nat)
  /-- RESIDENCY_DRAINED (R213). Every sink has consumed DONE and every arc is empty, so the residency is DRAINED. -/
  | residencyDrained (die cluster entry : Nat)
  /-- FE_SCAN_FIRE (R263). A SCAN expands a parent into the fibre of its children. -/
  | feScanFire (rid row col : Nat)
  /-- FE_ISECT_FIRE (R264). An ISECT advances two sorted fibres and emits the matches. -/
  | feIsectFire (rid row col : Nat)
  /-- FE_UNION_FIRE (R264). A UNION advances two sorted fibres and emits every coordinate. -/
  | feUnionFire (rid row col : Nat)
  /-- FE_REPT_FIRE (R265). A REPT replaces each entry with REF(C0). -/
  | feReptFire (rid row col : Nat)
  /-- FE_REDU_FIRE (R266). A REDU reduces each group of a level to one value. -/
  | feReduFire (rid row col : Nat)
  /-- FE_FILT_FIRE (R268). A FILT passes the values whose predicate is non-zero. -/
  | feFiltFire (rid row col : Nat)
  /-- FE_EXPD_FIRE (R269). An EXPD restores compacted values to their template places. -/
  | feExpdFire (rid row col : Nat)
  /-- FE_JOIN_FIRE (R270). A JOIN merges two streams by alternating groups. -/
  | feJoinFire (rid row col : Nat)
  /-- FE_LVLW_FIRE (R271). An LVLW writes a compressed level from its CRD stream. -/
  | feLvlwFire (rid row col : Nat)
  /-- FE_CDROP_FIRE (R272). A CDROP drops the coordinates whose value is NIL. -/
  | feCdropFire (rid row col : Nat)
  /-- ME_BUF_WRITE (R276). A BUF writes a token to the slot at its write pointer once the slot is EMPTY. -/
  | meBufWrite (rid row col : Nat)
  /-- ME_BUF_PASS (R276). A BUF trigger emits the FULL slots of a buffer and then releases or keeps it. -/
  | meBufPass (rid row col : Nat)
  /-- ME_FIFO_FIRE (R277). A FIFO stores the head token and/or emits its oldest token. -/
  | meFifoFire (rid row col : Nat)
  /-- ME_RMW_FIRE (R278). An RMW ME takes a key and a value into its update pipeline. -/
  | meRmwFire (rid row col : Nat)
  /-- ME_RMW_UPDATE_WRITE (R279). An update leaves stage 3 and writes its slot. -/
  | meRmwUpdateWrite (rid row col : Nat)
  /-- ME_LUT_FIRE (R280). A LUT emits the slot that an index names once it is FULL. -/
  | meLutFire (rid row col : Nat)
  /-- ME_STASH_APPEND (R281). A STASH appends a token to its area. -/
  | meStashAppend (rid row col : Nat)
  /-- ME_STASH_REPLAY (R281). A STASH emits its kept tokens as a source. -/
  | meStashReplay (rid row col : Nat)
  /-- XE_MMB_FIRE (R285). A broad XE multiplies an A row by its B tile. -/
  | xeMmbFire (rid row : Nat)
  /-- XE_MMN_FIRE (R286). A narrow XE multiplies N4 rows by its tile, applying the row scale. -/
  | xeMmnFire (rid row : Nat)
  /-- XE_BLD_FIRE (R287). An XE loads a B token into a stationary buffer. -/
  | xeBldFire (rid row : Nat)
  /-- XE_DRN_FIRE (R287). An XE emits its stationary B buffer as a source. -/
  | xeDrnFire (rid row : Nat)
  /-- FABRIC_FAULT_FREEZE (R215). A streamed element fault freezes the region, discards uncommitted windows and traps the owner. -/
  | fabricFaultFreeze (rid row col : Nat)
  /-- RSTALL (R342). No token moves for 4,096 cycles, so the stall detector faults the residency. -/
  | rstall (rid : Nat)
  /-- RESIDENCY_SAVE_REQUEST (R397). A save of a streamed residency is requested, trying a boundary save first. -/
  | residencySaveRequest (die cluster entry : Nat)
  /-- BOUNDARY_SAVE (R398). The drained region's state is written to the residency save record. -/
  | boundarySave (die cluster entry : Nat)
  /-- BOUNDARY_SAVE_TIMEOUT (R397). A boundary save not done within 65,536 cycles becomes a freeze save. -/
  | boundarySaveTimeout (die cluster entry : Nat)
  /-- FREEZE_SAVE (R399). The region stops and all tokens, buffers and state are saved. -/
  | freezeSave (die cluster entry : Nat)
  /-- EVAL_REQUEST_RELEASE (R297). The EVAL budget releases an evaluator request into a cluster's spawn queue. -/
  | evalRequestRelease (die part : Nat)
  /-- EVAL_PACKET_RESULT (R299). An evaluation packet's result reaches the home slice, which performs CFIL or poisons the cell. -/
  | evalPacketResult (pid : Nat)
  /-- WALK_COMPLETE (R407). A translation walk ends found, absent or malformed. -/
  | walkComplete (uid : Nat) (va : Word)
  /-- TLBI_COMPLETE (R408). Every TLB of the scope has dropped the entries and the TLBI completes. -/
  | tlbiComplete (uid : Nat)
  /-- PAGE_FAULT_MESSAGE (R411). A fault arrives at a rhizoid router, merges or goes up, and at the root is delivered to the pager. -/
  | pageFaultMessage (idx : Nat)
  /-- PAGER_REPLY_DESCENT (R415). A reply passes down a router, waking or failing the waiters, and frees the entry. -/
  | pagerReplyDescent (idx : Nat)
  /-- REMOTE_ACCESS_ARRIVAL (R53). A remote module's access is performed at this module's home slice. `op` is the operation,
  the kind of agent that asks, and whether its page has C. -/
  | remoteAccessArrival (rq remModule remPart : Nat) (op : Nat × Nat × Bool) (width pa : Nat) (va : Word) (data : BitVec 512) (expected : Word)
  /-- REMOTE_RESPONSE (R441). The response to a remote load or atomic arrives. -/
  | remoteResponse (rq : Nat) (data : BitVec 512) (status : Nat)
  /-- REMOTE_STORE_ACK (R441). A remote plain store is acknowledged. -/
  | remoteStoreAck (rq : Nat)
  /-- REQUEST_TIMEOUT (R439). A UALink request gets no response in 1 ms and fails. -/
  | requestTimeout (rq : Nat)
  /-- LANE_FAILURE (R439). A UALink lane fails, and the port runs on three lanes or is mapped out. -/
  | laneFailure (port : Nat)
  /-- CIRCUIT_OPEN (R444). Matching send and receive ports are both running, so the circuit opens. -/
  | circuitOpen (rid row : Nat)
  /-- CIRCUIT_TOKEN_ARRIVAL (R444). A circuit token enters the re-sequencing queue and in-order tokens are emitted. -/
  | circuitTokenArrival (rid row seqNo kind : Nat) (par : Bool) (payload : BitVec 512)
  /-- LAUNCH_MESSAGE (R376). A whole 64-byte write to the launch window queues a launch message, or it is discarded. -/
  | launchMessage (fn : Nat) (msg : BitVec 512) (whole : Bool)
  /-- LAUNCH_ADMISSION (R381). The head message is admitted, reserving resources and creating root strands, or refused. -/
  | launchAdmission (fn : Nat)
  /-- LAUNCH_COMPLETE (R30). All strands, copies and orphaned residencies of a launch are done, so KIND 3 is posted. -/
  | launchComplete (die lid : Nat)
  /-- STATUS_READ (R379). A 16-byte read of the status register pops one status record. -/
  | statusRead (fn : Nat)
  /-- EQHEAD_WRITE (R436). The host advances EQHEAD, freeing event-queue space. -/
  | eqheadWrite (fn : Nat) (value : Word)
  /-- EVENT_QUEUE_APPEND (R372). A waiting supervisor report is appended to the event queue and signals vector 0. -/
  | eventQueueAppend (fn : Nat)
  /-- MSIX_TABLE_WRITE (R368). A host write to the MSI-X table, which moves a locked partition to ERROR. -/
  | msixTableWrite (fn idx : Nat) (value : BitVec 128)
  /-- REGISTER_WRITE (R436). A write to a BAR offset or register with no behaviour of its own. -/
  | registerWrite (fn offset : Nat) (value : Word)
  /-- HOST_DMA_READ (R367). A host DMA read request of a function. -/
  | hostDmaRead (fn : Nat) (trusted : Bool) (addr len : Nat)
  /-- HOST_DMA_WRITE (R367). A host DMA write request of a function. -/
  | hostDmaWrite (fn : Nat) (trusted : Bool) (addr : Nat) (data : List (BitVec 8))
  /-- UNSUPPORTED_REQUEST (R435). An ATS, PRI or peer-to-peer request is completed with Unsupported Request. -/
  | unsupportedRequest (fn : Nat)
  /-- FUNCTION_LEVEL_RESET (R369). An FLR moves the function's partition to ERROR. -/
  | functionLevelReset (fn : Nat)
  /-- IDE_STREAM_LOSS (R369). Loss of a partition's IDE stream moves it to ERROR. -/
  | ideStreamLoss (fn : Nat)
  /-- LOCK_INTERFACE_REQUEST (R369). TDISP lock of a VF's interface to CONFIG_LOCKED. -/
  | lockInterfaceRequest (session part : Nat)
  /-- START_INTERFACE_REQUEST (R369). TDISP start of a locked interface into RUN. -/
  | startInterfaceRequest (session part : Nat)
  /-- STOP_INTERFACE_REQUEST (R369). TDISP stop, which tears the partition down to CONFIG_UNLOCKED. -/
  | stopInterfaceRequest (session part : Nat)
  /-- GET_VERSION (R370). SPDM version request. -/
  | getVersion
  /-- GET_CAPABILITIES (R370). SPDM capabilities request. -/
  | getCapabilities
  /-- NEGOTIATE_ALGORITHMS (R370). SPDM algorithm negotiation, offering only the SM algorithms. -/
  | negotiateAlgorithms
  /-- GET_DIGESTS (R370). SPDM certificate-digest request. -/
  | getDigests
  /-- GET_CERTIFICATE (R370). SPDM certificate request for slot 0. -/
  | getCertificate (slot : Nat)
  /-- CHALLENGE (R370). SPDM challenge, signed with the device identity key. -/
  | challenge (slot : Nat) (nonce : BitVec 256)
  /-- GET_MEASUREMENTS (R371). Returns measurement blocks 1 to 8. -/
  | getMeasurements (session index : Nat)
  /-- KEY_EXCHANGE (R370). SPDM session key exchange. -/
  | keyExchange (part : Option Nat)
  /-- FINISH (R370). SPDM session handshake finish. -/
  | finish (session : Nat)
  /-- KEY_UPDATE (R370). SPDM session key update. -/
  | keyUpdate (session : Nat)
  /-- HEARTBEAT (R370). SPDM session heartbeat. -/
  | heartbeat (session : Nat)
  /-- END_SESSION (R370). Ends an SPDM session. -/
  | endSession (session : Nat)
  /-- PART_SET (R361). PF command that writes a partition table entry. -/
  | partSet (fn : Nat)
  /-- PART_CLEAR (R361). PF command that tears a partition down and resets its entry. -/
  | partClear (fn : Nat)
  /-- DEBUG_INSTALL (R374). Verifies a debug policy record and sets DEBUG. -/
  | debugInstall (fn : Nat)
  /-- DEBUG_CMD (R375). A permitted debug request by the PF. -/
  | debugCmd (fn : Nat)
  /-- BUDGET_SET (R392). Sets a partition's budgets. -/
  | budgetSet (fn : Nat)
  /-- BUDGET_GET (R392). Returns a partition's budgets and consumption. -/
  | budgetGet (fn : Nat)
  /-- PEER_SET (R418). Requests a peer binding with a partition on another module. -/
  | peerSet (fn : Nat)
  /-- STRAND_RESUME (R373). Resumes a strand stopped by HALT or a double trap. -/
  | strandResume (fn : Nat)
  /-- STRAND_KILL (R373). Retires a stopped strand. -/
  | strandKill (fn : Nat)
  /-- PAGER_SET (R414). Names the partition's pager entry and context. -/
  | pagerSet (fn : Nat)
  /-- GRAPH_LOAD (R427). Checks, translates and loads a DVG container, returning a graph handle. -/
  | graphLoad (fn : Nat)
  /-- GRAPH_UNLOAD (R428). Frees a loaded graph's slot and drops its images. -/
  | graphUnload (fn : Nat)
  /-- FEATURES (R425). Returns the feature vector and the bring-up state. -/
  | features (fn : Nat)
  /-- SUBSCRIBE (R452). Sets or cancels a subscription slot with a notify word. -/
  | subscribe (fn : Nat)
  /-- PERIOD_BOUNDARY (R393). Every 64 µs budgets are refilled and subscription sources are sampled. -/
  | periodBoundary
  /-- ARBITER_INTERVAL (R451). Every 10 µs the power arbiter compares P with PLIM and takes one throttling step. -/
  | arbiterInterval (power broadDraw narrowDraw : Nat)
  /-- SLACK_WINDOW (R455). At each 1 ms window end the slack controller adjusts its notch request. -/
  | slackWindow (busy : Nat)
  /-- SLACK_PEER_REPORT (R455). A peer's throttled flag and busy time arrive. -/
  | slackPeerReport (peer : Nat) (throttled : Bool) (busy : Nat)
  /-- DROOP_DETECTION (R448). A supply drop below threshold starts or restarts a cluster freeze. -/
  | droopDetection (die cluster drop : Nat)
  /-- DROOP_FREEZE_END (R448). A droop freeze's count expires and vector and XE issue resumes. -/
  | droopFreezeEnd (die cluster : Nat)
  /-- ROW_TEMP_SAMPLE (R449). Every 10 µs a row sensor read sets or clears the row's hot credit delay. -/
  | rowTempSample (die cluster frond row temp : Nat)
  /-- DRAM_SCRUB (R459). Firmware scrubs DRAM lines and spares rows with repeated corrections. -/
  | dramScrub (die line : Nat) (uncorrectable : Bool)
  /-- REGISTER_PARITY_ERROR (R460). A register-file parity error stops the strand as a double trap does. -/
  | registerParityError (uid : Nat)
  /-- CLUSTER_MAP_OUT (R461). A cluster with too many corrected errors is moved to the spare. -/
  | clusterMapOut (die cluster : Nat)
  /-- CLUSTER_HARD_FAILURE (R462). A failed cluster leaves service and its partitions move to ERROR. -/
  | clusterHardFailure (die cluster : Nat)
  /-- COLD_RESET (R464). Reset starts the boot ROM on each die's management core. -/
  | coldReset
  /-- FIRMWARE_VERIFY (R464). The firmware image is checked, leading to TRAIN or RECOVERY. -/
  | firmwareVerify (digest : BitVec 256) (key : BitVec 512) (sig : BitVec 512) (version : Nat)
  /-- DIE_TRAINING (R464). A die finishes DRAM training and cluster tests. -/
  | dieTraining (die : Nat) (passed : Bool) (spareFor : Option Nat)
  /-- FULL_SERVICE (R466). All dies trained and the narrow XEs and FEs tested begin full service. -/
  | fullService
  /-- FULL_SERVICE_NOTCH_STEP (R466). After full service begins, the notch falls one step per millisecond. -/
  | fullServiceNotchStep
  /-- ILLEGAL_INSTRUCTION (R100). Issue of a word that decodes to no assigned encoding, such as opcode 0x00, an unassigned fn, or a non-zero reserved field, raises a precise ILL. -/
  | illegalInstruction (word : BitVec 32) (word2 : BitVec 32)
  /-- INSTRUCTION_FETCH (R14). An instruction fetch that missed completes, making the strand ready, or it fails by parking with reason PAGE or raising PROT at the target. -/
  | instructionFetch (uid : Nat)
  /-- MANAGEMENT_COMMAND_OPCODE (R437). A write of the management command word with an OP that is not listed, or that the function may not issue, completes with CODE 12. -/
  | managementCommandOpcode (fn : Nat)
  /-- IDE_KEY_MANAGEMENT (R435). IDE key-management messages establish a function's selective IDE stream, which START_INTERFACE_REQUEST and the T bit of DMA requests depend on. -/
  | ideKeyManagement (fn : Nat)
  /-- PEER_BINDING_REQUEST (R418). The matching PEER_SET request made on the other module arrives over the links, and the peer binding comes into force. -/
  | peerBindingRequest (remModule remPart part : Nat) (granules : List (Nat × Nat))
  /-- PEER_BINDING_END (R419). The tear-down of the bound partition on another module is notified, so this module drops the surviving partition's TLB entries, fails its remote loads and atomics, and discards its plain stores in flight. -/
  | peerBindingEnd (remModule remPart part : Nat)
  /-- CIRCUIT_OTHER_END_LOST (R444). Notice arrives that the other end of an open circuit on another die or module is FAULTED or freed before DONE, and this port raises the fabric fault PROT. -/
  | circuitOtherEndLost (rid row : Nat)
deriving DecidableEq, Repr

end Sys2Proof
end

