-- ==== Sys2Proof/WellFormed.lean ====
section
/-! DEFINITION. Which terms of the syntax the encoding (for a strand instruction) or the module (for a step of another
agent) admits. Every check cites its rule; a term that fails one is refused by the decoder or by the step. -/
namespace Sys2Proof

/-- A rounding field holding 5 or 6 raises ILL (R100). -/
def roundOk (r : BitVec 3) : Bool := r != 5#3 && r != 6#3

/-- A shift amount of a .w form is 0 to 31 (R102); bit 0 of the modifier is .w. -/
def amountOk (m : BitVec 2) (n : BitVec 6) : Bool := !m.getLsbD 0 || decide (n.toNat < 32)

/-- The pairs of FCVT: every pair of distinct formats of codes 0 to 12 (R86, R104). -/
def fcvtOk (s t : Nat) : Bool := decide (s ≤ 12) && decide (t ≤ 12) && s != t

/-- The pairs of VCVT: every pair of distinct lane formats of codes 0 to 5 (R86, R104). -/
def vcvtOk (s t : Nat) : Bool := decide (s < 6) && decide (t < 6) && s != t

/-- The control-register indices of R95. -/
def ctlListed (i : Nat) : Bool := decide (i ≤ 0x008) || (decide (0x100 ≤ i) && decide (i ≤ 0x10D))

/-- Not a register that R95 marks RO in both modes: SID, TIME, CYC, PART (R96). -/
def ctlWritable (i : Nat) : Bool := i != 1 && i != 2 && i != 3 && i != 8

/-- Well-formedness: the value checks of R94 to R112 on a strand instruction, and that the units an event names
exist (R2, R8, R9, R358). -/
def Instr.wellFormed : Instr → Bool
  | .add _ _ _ _ => true
  | .addN _ _ _ _ => true
  | .sub _ _ _ _ => true
  | .subN _ _ _ _ => true
  | .mul _ _ _ _ => true
  | .mulN _ _ _ _ => true
  | .mulh _ _ _ _ => true
  | .mulhN _ _ _ _ => true
  | .div _ _ _ _ => true
  | .divN _ _ _ _ => true
  | .rem _ _ _ _ => true
  | .remN _ _ _ _ => true
  | .and _ _ _ => true
  | .or _ _ _ => true
  | .xor _ _ _ => true
  | .andn _ _ _ => true
  | .shl _ _ _ _ => true
  | .shr _ _ _ _ => true
  | .sha _ _ _ _ => true
  | .ror _ _ _ _ => true
  | .shlImm _ _ n m => amountOk m n
  | .shrImm _ _ n m => amountOk (m.zeroExtend 2) n
  | .shaImm _ _ n m => amountOk (m.zeroExtend 2) n
  | .rorImm _ _ n m => amountOk (m.zeroExtend 2) n
  | .clz _ _ _ => true
  | .ctz _ _ _ => true
  | .popc _ _ _ => true
  | .brev _ _ _ => true
  | .bswp _ _ _ => true
  | .min _ _ _ _ => true
  | .minN _ _ _ _ => true
  | .max _ _ _ _ => true
  | .maxN _ _ _ _ => true
  | .sel _ _ _ => true
  | .shadd1 _ _ _ _ => true
  | .shadd2 _ _ _ _ => true
  | .shadd3 _ _ _ _ => true
  | .shadd4 _ _ _ _ => true
  | .cmpEq _ _ _ _ => true
  | .cmpNe _ _ _ _ => true
  | .cmpLt _ _ _ _ => true
  | .cmpGe _ _ _ _ => true
  | .cmpLtn _ _ _ _ => true
  | .cmpGen _ _ _ _ => true
  | .addImm _ _ _ => true
  | .addWImm _ _ _ => true
  | .mulImm _ _ _ => true
  | .andImm _ _ _ => true
  | .orImm _ _ _ => true
  | .xorImm _ _ _ => true
  | .bfx _ _ l p => decide (p.toNat + l.toNat + 1 ≤ 64)
  | .bfxN _ _ l p => decide (p.toNat + l.toNat + 1 ≤ 64)
  | .bfi _ _ l p => decide (p.toNat + l.toNat + 1 ≤ 64)
  | .hmix _ _ _ _ => true
  | .movi _ _ => true
  | .movhi _ _ => true
  | .addpc _ _ => true
  | .limm _ _ => true
  | .limmN _ _ => true
  | .bCond c _ _ _ => decide (c.toNat < 6)
  | .jmp _ => true
  | .call _ => true
  | .jr _ => true
  | .callr _ => true
  | .fadd _ _ _ r _ => roundOk r
  | .fsub _ _ _ r _ => roundOk r
  | .fmul _ _ _ r _ => roundOk r
  | .fdiv _ _ _ r _ => roundOk r
  | .fsqrt _ _ r _ => roundOk r
  | .fmaFma _ _ _ r _ => roundOk r
  | .fmaFms _ _ _ r _ => roundOk r
  | .fmaFnma _ _ _ r _ => roundOk r
  | .fmin _ _ _ _ => true
  | .fmax _ _ _ _ => true
  | .fcmp _ _ _ c _ => decide (c.toNat < 6)
  | .fcls _ _ _ => true
  | .fmvCp _ _ _ => true
  | .fmvNeg _ _ _ => true
  | .fmvAbs _ _ _ => true
  | .fmvSgn _ _ _ _ => true
  | .fcvt _ _ s r u t => roundOk r && fcvtOk s.toNat t.toNat && (u == 0#1 || (decide (s.toNat < 8) && decide (t.toNat < 8)))
  | .vadd _ _ _ _ => true
  | .vsub _ _ _ _ => true
  | .vmul _ _ _ _ => true
  | .vmin _ _ _ _ => true
  | .vminN _ _ _ _ => true
  | .vmax _ _ _ _ => true
  | .vmaxN _ _ _ _ => true
  | .vlogAnd _ _ _ _ => true
  | .vlogOr _ _ _ _ => true
  | .vlogXor _ _ _ _ => true
  | .vshShl _ _ _ _ => true
  | .vshShr _ _ _ _ => true
  | .vshSha _ _ _ _ => true
  | .vaddSat _ _ _ _ => true
  | .vaddNSat _ _ _ _ => true
  | .vsubSat _ _ _ _ => true
  | .vsubNSat _ _ _ _ => true
  | .vredSum _ _ _ => true
  | .vredMax _ _ _ => true
  | .vredMin _ _ _ => true
  | .vscan _ _ _ => true
  | .vdot _ _ _ _ => true
  | .vsel _ _ _ _ => true
  | .vcmp d _ _ _ c => decide (c.toNat < 6) && d != 0#3
  | .vaddS _ _ _ _ => true
  | .vsubS _ _ _ _ => true
  | .vmulS _ _ _ _ => true
  | .vfmaS _ _ _ _ => true
  | .vminS _ _ _ _ => true
  | .vmaxS _ _ _ _ => true
  | .vredSumS _ _ _ => true
  | .vredMaxS _ _ _ => true
  | .vredMinS _ _ _ => true
  | .vscanS _ _ _ => true
  | .vdotS _ _ _ _ => true
  | .vsfuRcp _ _ _ => true
  | .vsfuRsq _ _ _ => true
  | .vsfuEx2 _ _ _ => true
  | .vsfuLg2 _ _ _ => true
  | .vsfuTnh _ _ _ => true
  | .vcmpS d _ _ _ c => decide (c.toNat < 6) && d != 0#3
  | .vperm _ _ _ _ => true
  | .vsplat _ _ _ => true
  | .vget _ _ _ => true
  | .vins _ _ _ => true
  | .vcmpr _ _ _ => true
  | .vexpd _ _ _ => true
  | .vdec _ _ _ _ => true
  | .venc _ _ _ _ => true
  | .tblw _ _ => true
  | .tblr _ _ => true
  | .kopAnd d _ _ => d != 0#3
  | .kopOr d _ _ => d != 0#3
  | .kopXor d _ _ => d != 0#3
  | .kopAndn d _ _ => d != 0#3
  | .kopSet d _ => d != 0#3
  | .kopGet _ _ => true
  | .kcnt _ _ => true
  | .gang => true
  | .split => true
  | .vcvt _ _ s t _ u r => roundOk r && vcvtOk s.toNat t.toNat && (u == 0#1 || (decide (s.toNat < 2) && decide (t.toNat < 2)))
  | .ld _ _ w n _ => !(w == 3#2 && n == 1#1)
  | .st _ _ _ _ => true
  | .vld _ _ w n _ => w != 3#2 && !(w == 2#2 && n == 1#1)
  | .vst _ _ w _ => w != 3#2
  | .ldx _ _ _ n w => !(w == 3#2 && n == 1#1)
  | .stx _ _ _ _ => true
  | .ldAcq _ _ s n w => !(w == 3#2 && n == 1#1) && decide (s.toNat < 6)
  | .stRel _ _ scope _ => decide (scope.toNat < 6)
  | .vlds _ _ _ _ _ w => w != 3#2
  | .vsts _ _ _ _ w => w != 3#2
  | .vgth _ _ _ _ _ w => w != 3#2
  | .vsct _ _ _ _ w => w != 3#2
  | .pref _ => true
  | .fence s m => m != 0#4 && decide (s.toNat < 6)
  | .cwb _ => true
  | .cinv _ => true
  | .amoAdd _ _ _ s _ => decide (s.toNat < 6)
  | .amoAnd _ _ _ s _ => decide (s.toNat < 6)
  | .amoOr _ _ _ s _ => decide (s.toNat < 6)
  | .amoXor _ _ _ s _ => decide (s.toNat < 6)
  | .amoMin _ _ _ s _ => decide (s.toNat < 6)
  | .amoMax _ _ _ s _ => decide (s.toNat < 6)
  | .amoMinn _ _ _ s _ => decide (s.toNat < 6)
  | .amoMaxn _ _ _ s _ => decide (s.toNat < 6)
  | .amoSwp _ _ _ s _ => decide (s.toNat < 6)
  | .amoFadd _ _ _ s _ => decide (s.toNat < 6)
  | .acas _ _ _ s _ => decide (s.toNat < 6)
  | .ldfe _ _ _ => true
  | .ldff _ _ _ => true
  | .stef _ _ _ => true
  | .stff _ _ _ => true
  | .feget _ _ => true
  | .fesetEmpty _ => true
  | .fesetFull _ => true
  | .send _ _ => true
  | .sendv _ _ => true
  | .recvG _ _ _ => true
  | .recvV _ _ _ => true
  | .qpoll _ _ => true
  | .qbind q _ n => q != 0#2 && decide (3 ≤ n.toNat) && decide (n.toNat ≤ 12)
  | .qfree q => q != 0#2
  | .cpy _ _ _ _ => true
  | .cpy2 _ _ b _ => decide (b.toNat ≤ 60)
  | .bwait _ => true
  | .serve _ a _ n => decide (1 ≤ n.toNat) && decide (n.toNat ≤ 8) && decide (a.toNat + n.toNat ≤ 64)
  | .frld _ _ _ => true
  | .frbind _ _ _ => true
  | .frgo _ => true
  | .frbar _ => true
  | .frwait _ => true
  | .argw _ _ _ => true
  | .spawnCore _ _ => true
  | .spawnCluster _ _ => true
  | .spawnNamed _ _ _ => true
  | .spawnDie _ _ => true
  | .exit => true
  | .yield => true
  | .twait _ => true
  | .csus _ b => decide (b.toNat ≤ 60)
  | .cfrc _ => true
  | .cfil n _ _ => decide (1 ≤ n.toNat) && decide (n.toNat ≤ 4)
  | .ccan _ => true
  | .ccanP _ => true
  | .ctag _ _ => true
  | .trap _ => true
  | .eret => true
  | .brk => true
  | .halt => true
  | .ctlr _ i => ctlListed i.toNat
  | .ctlw _ i => ctlListed i.toNat && ctlWritable i.toNat
  | .tlbiPage _ s => decide (s.toNat < 6)
  | .tlbiAsid _ s => decide (s.toNat < 6)
  | .tlbiPart s => decide (s.toNat < 6)
  | .resultLands _ => true
  | .strandWake _ => true
  | .fewaitExpiry _ => true
  | .twaitDeadline _ => true
  | .celltmoExpiry _ => true
  | .mpCellWaitExpiry _ row _ => decide (row < 8)
  | .deferredTrap _ => true
  | .strandPlacement die cluster => decide (die < 8) && decide (cluster < 64)
  | .victimPreempt _ => true
  | .strandSave _ => true
  | .copyBurst _ => true
  | .copyRingWordWrite _ => true
  | .messageDelivery _ => true
  | .serveInject _ => true
  | .servedExit _ => true
  | .serveResultArrival _ => true
  | .frondDecision die cluster => decide (die < 8) && decide (cluster < 64)
  | .residencyPlacement die cluster => decide (die < 8) && decide (cluster < 64)
  | .residencyMigration die cluster entry target => decide (die < 8) && decide (cluster < 64) && decide (entry < 16) && decide (target < 64)
  | .planePrefetch _ => true
  | .planeEntry _ => true
  | .argwDelivery _ => true
  | .creditReturn _ _ => true
  | .ceFire _ row col => decide (row < 8) && decide (col < 16)
  | .ceGeneratorFire _ row col => decide (row < 8) && decide (col < 16)
  | .ceStopStep _ row col => decide (row < 8) && decide (col < 16)
  | .roundBoundary _ row col => decide (row < 8) && decide (col < 16)
  | .elementDone _ row col => decide (row < 8) && decide (col < 16)
  | .agAffFire _ row => decide (row < 8)
  | .agIndFire _ row => decide (row < 8)
  | .mpLdsFire _ row => decide (row < 8)
  | .mpStsFire _ row => decide (row < 8)
  | .mpAmsFire _ row => decide (row < 8)
  | .mpSpillComplete _ row _ => decide (row < 8)
  | .windowCommit _ => true
  | .residencyDrained die cluster entry => decide (die < 8) && decide (cluster < 64) && decide (entry < 16)
  | .feScanFire _ row col => decide (row < 8) && decide (col < 16)
  | .feIsectFire _ row col => decide (row < 8) && decide (col < 16)
  | .feUnionFire _ row col => decide (row < 8) && decide (col < 16)
  | .feReptFire _ row col => decide (row < 8) && decide (col < 16)
  | .feReduFire _ row col => decide (row < 8) && decide (col < 16)
  | .feFiltFire _ row col => decide (row < 8) && decide (col < 16)
  | .feExpdFire _ row col => decide (row < 8) && decide (col < 16)
  | .feJoinFire _ row col => decide (row < 8) && decide (col < 16)
  | .feLvlwFire _ row col => decide (row < 8) && decide (col < 16)
  | .feCdropFire _ row col => decide (row < 8) && decide (col < 16)
  | .meBufWrite _ row col => decide (row < 8) && decide (col < 16)
  | .meBufPass _ row col => decide (row < 8) && decide (col < 16)
  | .meFifoFire _ row col => decide (row < 8) && decide (col < 16)
  | .meRmwFire _ row col => decide (row < 8) && decide (col < 16)
  | .meRmwUpdateWrite _ row col => decide (row < 8) && decide (col < 16)
  | .meLutFire _ row col => decide (row < 8) && decide (col < 16)
  | .meStashAppend _ row col => decide (row < 8) && decide (col < 16)
  | .meStashReplay _ row col => decide (row < 8) && decide (col < 16)
  | .xeMmbFire _ row => decide (row < 8)
  | .xeMmnFire _ row => decide (row < 8)
  | .xeBldFire _ row => decide (row < 8)
  | .xeDrnFire _ row => decide (row < 8)
  | .fabricFaultFreeze _ row col => decide (row < 8) && decide (col < 16)
  | .rstall _ => true
  | .residencySaveRequest die cluster entry => decide (die < 8) && decide (cluster < 64) && decide (entry < 16)
  | .boundarySave die cluster entry => decide (die < 8) && decide (cluster < 64) && decide (entry < 16)
  | .boundarySaveTimeout die cluster entry => decide (die < 8) && decide (cluster < 64) && decide (entry < 16)
  | .freezeSave die cluster entry => decide (die < 8) && decide (cluster < 64) && decide (entry < 16)
  | .evalRequestRelease die part => decide (die < 8) && decide (part < 64)
  | .evalPacketResult _ => true
  | .walkComplete _ _ => true
  | .tlbiComplete _ => true
  | .pageFaultMessage _ => true
  | .pagerReplyDescent _ => true
  | .remoteAccessArrival _ remModule remPart op width pa _ _ _ => decide (op.2.1 < 4) && decide (remModule < 512) && decide (remPart < 64) && decide (op.1 < 23) && (width == 1 || width == 2 || width == 4 || width == 8 || width == 32 || width == 64) && decide (pa < 2 ^ 52)
  | .remoteResponse _ _ status => decide (status < 10)
  | .remoteStoreAck _ => true
  | .requestTimeout _ => true
  | .laneFailure port => decide (port < 36)
  | .circuitOpen _ row => decide (row < 8)
  | .circuitTokenArrival _ row seqNo kind _ _ => decide (row < 8) && decide (seqNo < 65536) && decide (kind < 16)
  | .launchMessage fn _ _ => decide (fn < 64)
  | .launchAdmission fn => decide (fn < 64)
  | .launchComplete die lid => decide (die < 8) && decide (lid < 256)
  | .statusRead fn => decide (fn < 64)
  | .eqheadWrite fn _ => decide (fn < 64)
  | .eventQueueAppend fn => decide (fn < 64)
  | .msixTableWrite fn idx _ => decide (fn < 64) && decide (idx < 64)
  | .registerWrite fn offset _ => decide (fn < 64) && decide (offset < 65536)
  | .hostDmaRead fn _ _ len => decide (fn < 64) && decide (len ≤ 512)
  | .hostDmaWrite fn _ _ data => decide (fn < 64) && decide (data.length ≤ 512)
  | .unsupportedRequest fn => decide (fn < 64)
  | .functionLevelReset fn => decide (fn < 64)
  | .ideStreamLoss fn => decide (fn < 64)
  | .lockInterfaceRequest _ part => decide (part < 64)
  | .startInterfaceRequest _ part => decide (part < 64)
  | .stopInterfaceRequest _ part => decide (part < 64)
  | .getVersion => true
  | .getCapabilities => true
  | .negotiateAlgorithms => true
  | .getDigests => true
  | .getCertificate slot => decide (slot < 8)
  | .challenge slot _ => decide (slot < 8)
  | .getMeasurements _ _ => true
  | .keyExchange part => (part.all (fun p => decide (p < 64)))
  | .finish _ => true
  | .keyUpdate _ => true
  | .heartbeat _ => true
  | .endSession _ => true
  | .partSet fn => decide (fn < 64)
  | .partClear fn => decide (fn < 64)
  | .debugInstall fn => decide (fn < 64)
  | .debugCmd fn => decide (fn < 64)
  | .budgetSet fn => decide (fn < 64)
  | .budgetGet fn => decide (fn < 64)
  | .peerSet fn => decide (fn < 64)
  | .strandResume fn => decide (fn < 64)
  | .strandKill fn => decide (fn < 64)
  | .pagerSet fn => decide (fn < 64)
  | .graphLoad fn => decide (fn < 64)
  | .graphUnload fn => decide (fn < 64)
  | .features fn => decide (fn < 64)
  | .subscribe fn => decide (fn < 64)
  | .periodBoundary => true
  | .arbiterInterval _ _ _ => true
  | .slackWindow _ => true
  | .slackPeerReport _ _ _ => true
  | .droopDetection die cluster _ => decide (die < 8) && decide (cluster < 64)
  | .droopFreezeEnd die cluster => decide (die < 8) && decide (cluster < 64)
  | .rowTempSample die cluster frond row _ => decide (die < 8) && decide (cluster < 64) && decide (frond < 4) && decide (row < 8)
  | .dramScrub die line _ => decide (die < 8) && decide (line < 48 * 2 ^ 24)
  | .registerParityError _ => true
  | .clusterMapOut die cluster => decide (die < 8) && decide (cluster < 64)
  | .clusterHardFailure die cluster => decide (die < 8) && decide (cluster < 64)
  | .coldReset => true
  | .firmwareVerify _ _ _ _ => true
  | .dieTraining die _ _ => decide (die < 8)
  | .fullService => true
  | .fullServiceNotchStep => true
  | .illegalInstruction _ _ => true
  | .instructionFetch _ => true
  | .managementCommandOpcode fn => decide (fn < 64)
  | .ideKeyManagement fn => decide (fn < 64)
  | .peerBindingRequest remModule remPart part _ => decide (remModule < 512) && decide (remPart < 64) && decide (part < 64)
  | .peerBindingEnd remModule remPart part => decide (remModule < 512) && decide (remPart < 64) && decide (part < 64)
  | .circuitOtherEndLost _ row => decide (row < 8)

/-- Whether the term is an instruction of a strand, which has an encoding. -/
def Instr.isStrand : Instr → Bool
  | .add _ _ _ _ => true
  | .addN _ _ _ _ => true
  | .sub _ _ _ _ => true
  | .subN _ _ _ _ => true
  | .mul _ _ _ _ => true
  | .mulN _ _ _ _ => true
  | .mulh _ _ _ _ => true
  | .mulhN _ _ _ _ => true
  | .div _ _ _ _ => true
  | .divN _ _ _ _ => true
  | .rem _ _ _ _ => true
  | .remN _ _ _ _ => true
  | .and _ _ _ => true
  | .or _ _ _ => true
  | .xor _ _ _ => true
  | .andn _ _ _ => true
  | .shl _ _ _ _ => true
  | .shr _ _ _ _ => true
  | .sha _ _ _ _ => true
  | .ror _ _ _ _ => true
  | .shlImm _ _ _ _ => true
  | .shrImm _ _ _ _ => true
  | .shaImm _ _ _ _ => true
  | .rorImm _ _ _ _ => true
  | .clz _ _ _ => true
  | .ctz _ _ _ => true
  | .popc _ _ _ => true
  | .brev _ _ _ => true
  | .bswp _ _ _ => true
  | .min _ _ _ _ => true
  | .minN _ _ _ _ => true
  | .max _ _ _ _ => true
  | .maxN _ _ _ _ => true
  | .sel _ _ _ => true
  | .shadd1 _ _ _ _ => true
  | .shadd2 _ _ _ _ => true
  | .shadd3 _ _ _ _ => true
  | .shadd4 _ _ _ _ => true
  | .cmpEq _ _ _ _ => true
  | .cmpNe _ _ _ _ => true
  | .cmpLt _ _ _ _ => true
  | .cmpGe _ _ _ _ => true
  | .cmpLtn _ _ _ _ => true
  | .cmpGen _ _ _ _ => true
  | .addImm _ _ _ => true
  | .addWImm _ _ _ => true
  | .mulImm _ _ _ => true
  | .andImm _ _ _ => true
  | .orImm _ _ _ => true
  | .xorImm _ _ _ => true
  | .bfx _ _ _ _ => true
  | .bfxN _ _ _ _ => true
  | .bfi _ _ _ _ => true
  | .hmix _ _ _ _ => true
  | .movi _ _ => true
  | .movhi _ _ => true
  | .addpc _ _ => true
  | .limm _ _ => true
  | .limmN _ _ => true
  | .bCond _ _ _ _ => true
  | .jmp _ => true
  | .call _ => true
  | .jr _ => true
  | .callr _ => true
  | .fadd _ _ _ _ _ => true
  | .fsub _ _ _ _ _ => true
  | .fmul _ _ _ _ _ => true
  | .fdiv _ _ _ _ _ => true
  | .fsqrt _ _ _ _ => true
  | .fmaFma _ _ _ _ _ => true
  | .fmaFms _ _ _ _ _ => true
  | .fmaFnma _ _ _ _ _ => true
  | .fmin _ _ _ _ => true
  | .fmax _ _ _ _ => true
  | .fcmp _ _ _ _ _ => true
  | .fcls _ _ _ => true
  | .fmvCp _ _ _ => true
  | .fmvNeg _ _ _ => true
  | .fmvAbs _ _ _ => true
  | .fmvSgn _ _ _ _ => true
  | .fcvt _ _ _ _ _ _ => true
  | .vadd _ _ _ _ => true
  | .vsub _ _ _ _ => true
  | .vmul _ _ _ _ => true
  | .vmin _ _ _ _ => true
  | .vminN _ _ _ _ => true
  | .vmax _ _ _ _ => true
  | .vmaxN _ _ _ _ => true
  | .vlogAnd _ _ _ _ => true
  | .vlogOr _ _ _ _ => true
  | .vlogXor _ _ _ _ => true
  | .vshShl _ _ _ _ => true
  | .vshShr _ _ _ _ => true
  | .vshSha _ _ _ _ => true
  | .vaddSat _ _ _ _ => true
  | .vaddNSat _ _ _ _ => true
  | .vsubSat _ _ _ _ => true
  | .vsubNSat _ _ _ _ => true
  | .vredSum _ _ _ => true
  | .vredMax _ _ _ => true
  | .vredMin _ _ _ => true
  | .vscan _ _ _ => true
  | .vdot _ _ _ _ => true
  | .vsel _ _ _ _ => true
  | .vcmp _ _ _ _ _ => true
  | .vaddS _ _ _ _ => true
  | .vsubS _ _ _ _ => true
  | .vmulS _ _ _ _ => true
  | .vfmaS _ _ _ _ => true
  | .vminS _ _ _ _ => true
  | .vmaxS _ _ _ _ => true
  | .vredSumS _ _ _ => true
  | .vredMaxS _ _ _ => true
  | .vredMinS _ _ _ => true
  | .vscanS _ _ _ => true
  | .vdotS _ _ _ _ => true
  | .vsfuRcp _ _ _ => true
  | .vsfuRsq _ _ _ => true
  | .vsfuEx2 _ _ _ => true
  | .vsfuLg2 _ _ _ => true
  | .vsfuTnh _ _ _ => true
  | .vcmpS _ _ _ _ _ => true
  | .vperm _ _ _ _ => true
  | .vsplat _ _ _ => true
  | .vget _ _ _ => true
  | .vins _ _ _ => true
  | .vcmpr _ _ _ => true
  | .vexpd _ _ _ => true
  | .vdec _ _ _ _ => true
  | .venc _ _ _ _ => true
  | .tblw _ _ => true
  | .tblr _ _ => true
  | .kopAnd _ _ _ => true
  | .kopOr _ _ _ => true
  | .kopXor _ _ _ => true
  | .kopAndn _ _ _ => true
  | .kopSet _ _ => true
  | .kopGet _ _ => true
  | .kcnt _ _ => true
  | .gang => true
  | .split => true
  | .vcvt _ _ _ _ _ _ _ => true
  | .ld _ _ _ _ _ => true
  | .st _ _ _ _ => true
  | .vld _ _ _ _ _ => true
  | .vst _ _ _ _ => true
  | .ldx _ _ _ _ _ => true
  | .stx _ _ _ _ => true
  | .ldAcq _ _ _ _ _ => true
  | .stRel _ _ _ _ => true
  | .vlds _ _ _ _ _ _ => true
  | .vsts _ _ _ _ _ => true
  | .vgth _ _ _ _ _ _ => true
  | .vsct _ _ _ _ _ => true
  | .pref _ => true
  | .fence _ _ => true
  | .cwb _ => true
  | .cinv _ => true
  | .amoAdd _ _ _ _ _ => true
  | .amoAnd _ _ _ _ _ => true
  | .amoOr _ _ _ _ _ => true
  | .amoXor _ _ _ _ _ => true
  | .amoMin _ _ _ _ _ => true
  | .amoMax _ _ _ _ _ => true
  | .amoMinn _ _ _ _ _ => true
  | .amoMaxn _ _ _ _ _ => true
  | .amoSwp _ _ _ _ _ => true
  | .amoFadd _ _ _ _ _ => true
  | .acas _ _ _ _ _ => true
  | .ldfe _ _ _ => true
  | .ldff _ _ _ => true
  | .stef _ _ _ => true
  | .stff _ _ _ => true
  | .feget _ _ => true
  | .fesetEmpty _ => true
  | .fesetFull _ => true
  | .send _ _ => true
  | .sendv _ _ => true
  | .recvG _ _ _ => true
  | .recvV _ _ _ => true
  | .qpoll _ _ => true
  | .qbind _ _ _ => true
  | .qfree _ => true
  | .cpy _ _ _ _ => true
  | .cpy2 _ _ _ _ => true
  | .bwait _ => true
  | .serve _ _ _ _ => true
  | .frld _ _ _ => true
  | .frbind _ _ _ => true
  | .frgo _ => true
  | .frbar _ => true
  | .frwait _ => true
  | .argw _ _ _ => true
  | .spawnCore _ _ => true
  | .spawnCluster _ _ => true
  | .spawnNamed _ _ _ => true
  | .spawnDie _ _ => true
  | .exit => true
  | .yield => true
  | .twait _ => true
  | .csus _ _ => true
  | .cfrc _ => true
  | .cfil _ _ _ => true
  | .ccan _ => true
  | .ccanP _ => true
  | .ctag _ _ => true
  | .trap _ => true
  | .eret => true
  | .brk => true
  | .halt => true
  | .ctlr _ _ => true
  | .ctlw _ _ => true
  | .tlbiPage _ _ => true
  | .tlbiAsid _ _ => true
  | .tlbiPart _ => true
  | .resultLands _ => false
  | .strandWake _ => false
  | .fewaitExpiry _ => false
  | .twaitDeadline _ => false
  | .celltmoExpiry _ => false
  | .mpCellWaitExpiry _ _ _ => false
  | .deferredTrap _ => false
  | .strandPlacement _ _ => false
  | .victimPreempt _ => false
  | .strandSave _ => false
  | .copyBurst _ => false
  | .copyRingWordWrite _ => false
  | .messageDelivery _ => false
  | .serveInject _ => false
  | .servedExit _ => false
  | .serveResultArrival _ => false
  | .frondDecision _ _ => false
  | .residencyPlacement _ _ => false
  | .residencyMigration _ _ _ _ => false
  | .planePrefetch _ => false
  | .planeEntry _ => false
  | .argwDelivery _ => false
  | .creditReturn _ _ => false
  | .ceFire _ _ _ => false
  | .ceGeneratorFire _ _ _ => false
  | .ceStopStep _ _ _ => false
  | .roundBoundary _ _ _ => false
  | .elementDone _ _ _ => false
  | .agAffFire _ _ => false
  | .agIndFire _ _ => false
  | .mpLdsFire _ _ => false
  | .mpStsFire _ _ => false
  | .mpAmsFire _ _ => false
  | .mpSpillComplete _ _ _ => false
  | .windowCommit _ => false
  | .residencyDrained _ _ _ => false
  | .feScanFire _ _ _ => false
  | .feIsectFire _ _ _ => false
  | .feUnionFire _ _ _ => false
  | .feReptFire _ _ _ => false
  | .feReduFire _ _ _ => false
  | .feFiltFire _ _ _ => false
  | .feExpdFire _ _ _ => false
  | .feJoinFire _ _ _ => false
  | .feLvlwFire _ _ _ => false
  | .feCdropFire _ _ _ => false
  | .meBufWrite _ _ _ => false
  | .meBufPass _ _ _ => false
  | .meFifoFire _ _ _ => false
  | .meRmwFire _ _ _ => false
  | .meRmwUpdateWrite _ _ _ => false
  | .meLutFire _ _ _ => false
  | .meStashAppend _ _ _ => false
  | .meStashReplay _ _ _ => false
  | .xeMmbFire _ _ => false
  | .xeMmnFire _ _ => false
  | .xeBldFire _ _ => false
  | .xeDrnFire _ _ => false
  | .fabricFaultFreeze _ _ _ => false
  | .rstall _ => false
  | .residencySaveRequest _ _ _ => false
  | .boundarySave _ _ _ => false
  | .boundarySaveTimeout _ _ _ => false
  | .freezeSave _ _ _ => false
  | .evalRequestRelease _ _ => false
  | .evalPacketResult _ => false
  | .walkComplete _ _ => false
  | .tlbiComplete _ => false
  | .pageFaultMessage _ => false
  | .pagerReplyDescent _ => false
  | .remoteAccessArrival _ _ _ _ _ _ _ _ _ => false
  | .remoteResponse _ _ _ => false
  | .remoteStoreAck _ => false
  | .requestTimeout _ => false
  | .laneFailure _ => false
  | .circuitOpen _ _ => false
  | .circuitTokenArrival _ _ _ _ _ _ => false
  | .launchMessage _ _ _ => false
  | .launchAdmission _ => false
  | .launchComplete _ _ => false
  | .statusRead _ => false
  | .eqheadWrite _ _ => false
  | .eventQueueAppend _ => false
  | .msixTableWrite _ _ _ => false
  | .registerWrite _ _ _ => false
  | .hostDmaRead _ _ _ _ => false
  | .hostDmaWrite _ _ _ _ => false
  | .unsupportedRequest _ => false
  | .functionLevelReset _ => false
  | .ideStreamLoss _ => false
  | .lockInterfaceRequest _ _ => false
  | .startInterfaceRequest _ _ => false
  | .stopInterfaceRequest _ _ => false
  | .getVersion => false
  | .getCapabilities => false
  | .negotiateAlgorithms => false
  | .getDigests => false
  | .getCertificate _ => false
  | .challenge _ _ => false
  | .getMeasurements _ _ => false
  | .keyExchange _ => false
  | .finish _ => false
  | .keyUpdate _ => false
  | .heartbeat _ => false
  | .endSession _ => false
  | .partSet _ => false
  | .partClear _ => false
  | .debugInstall _ => false
  | .debugCmd _ => false
  | .budgetSet _ => false
  | .budgetGet _ => false
  | .peerSet _ => false
  | .strandResume _ => false
  | .strandKill _ => false
  | .pagerSet _ => false
  | .graphLoad _ => false
  | .graphUnload _ => false
  | .features _ => false
  | .subscribe _ => false
  | .periodBoundary => false
  | .arbiterInterval _ _ _ => false
  | .slackWindow _ => false
  | .slackPeerReport _ _ _ => false
  | .droopDetection _ _ _ => false
  | .droopFreezeEnd _ _ => false
  | .rowTempSample _ _ _ _ _ => false
  | .dramScrub _ _ _ => false
  | .registerParityError _ => false
  | .clusterMapOut _ _ => false
  | .clusterHardFailure _ _ => false
  | .coldReset => false
  | .firmwareVerify _ _ _ _ => false
  | .dieTraining _ _ _ => false
  | .fullService => false
  | .fullServiceNotchStep => false
  | .illegalInstruction _ _ => false
  | .instructionFetch _ => false
  | .managementCommandOpcode _ => false
  | .ideKeyManagement _ => false
  | .peerBindingRequest _ _ _ _ => false
  | .peerBindingEnd _ _ _ => false
  | .circuitOtherEndLost _ _ => false

end Sys2Proof
end

