-- ==== Sys2Proof/Decode.lean ====
section
/-! DEFINITION. Decoding of instruction words (R97 to R112), total and rejecting by name, and the encoder. -/
namespace Sys2Proof

/-- Why a word is no instruction (R100). -/
inductive DecodeError where
  | unassignedOpcode | unassignedFn | reservedField | registerRange | badValue
deriving DecidableEq, Repr

/-- Continue when bits `lo` upward of `w` hold `v`. -/
def need {n : Nat} (w : BitVec 32) (lo : Nat) (v : BitVec n) (e : DecodeError)
    (k : Except DecodeError Instr) : Except DecodeError Instr :=
  if w.extractLsb' lo n = v then k else .error e

/-- Opcode 0x01. -/
def decodeOp01 (w : BitVec 32) : Except DecodeError Instr :=
  match (w.extractLsb' 0 6).toNat with
  | 0 => .ok (.add (w.extractLsb' 20 6) (w.extractLsb' 14 6) (w.extractLsb' 8 6) (w.extractLsb' 6 2))
  | 1 => .ok (.addN (w.extractLsb' 20 6) (w.extractLsb' 14 6) (w.extractLsb' 8 6) (w.extractLsb' 6 2))
  | 2 => .ok (.sub (w.extractLsb' 20 6) (w.extractLsb' 14 6) (w.extractLsb' 8 6) (w.extractLsb' 6 2))
  | 3 => .ok (.subN (w.extractLsb' 20 6) (w.extractLsb' 14 6) (w.extractLsb' 8 6) (w.extractLsb' 6 2))
  | 4 => .ok (.mul (w.extractLsb' 20 6) (w.extractLsb' 14 6) (w.extractLsb' 8 6) (w.extractLsb' 6 2))
  | 5 => .ok (.mulN (w.extractLsb' 20 6) (w.extractLsb' 14 6) (w.extractLsb' 8 6) (w.extractLsb' 6 2))
  | 6 => need w 7 0#1 .reservedField <| .ok (.mulh (w.extractLsb' 20 6) (w.extractLsb' 14 6) (w.extractLsb' 8 6) (w.extractLsb' 6 1))
  | 7 => need w 7 0#1 .reservedField <| .ok (.mulhN (w.extractLsb' 20 6) (w.extractLsb' 14 6) (w.extractLsb' 8 6) (w.extractLsb' 6 1))
  | 8 => need w 7 0#1 .reservedField <| .ok (.div (w.extractLsb' 20 6) (w.extractLsb' 14 6) (w.extractLsb' 8 6) (w.extractLsb' 6 1))
  | 9 => need w 7 0#1 .reservedField <| .ok (.divN (w.extractLsb' 20 6) (w.extractLsb' 14 6) (w.extractLsb' 8 6) (w.extractLsb' 6 1))
  | 10 => need w 7 0#1 .reservedField <| .ok (.rem (w.extractLsb' 20 6) (w.extractLsb' 14 6) (w.extractLsb' 8 6) (w.extractLsb' 6 1))
  | 11 => need w 7 0#1 .reservedField <| .ok (.remN (w.extractLsb' 20 6) (w.extractLsb' 14 6) (w.extractLsb' 8 6) (w.extractLsb' 6 1))
  | 12 => need w 6 0#2 .reservedField <| .ok (.and (w.extractLsb' 20 6) (w.extractLsb' 14 6) (w.extractLsb' 8 6))
  | 13 => need w 6 0#2 .reservedField <| .ok (.or (w.extractLsb' 20 6) (w.extractLsb' 14 6) (w.extractLsb' 8 6))
  | 14 => need w 6 0#2 .reservedField <| .ok (.xor (w.extractLsb' 20 6) (w.extractLsb' 14 6) (w.extractLsb' 8 6))
  | 15 => need w 6 0#2 .reservedField <| .ok (.andn (w.extractLsb' 20 6) (w.extractLsb' 14 6) (w.extractLsb' 8 6))
  | 16 => .ok (.shl (w.extractLsb' 20 6) (w.extractLsb' 14 6) (w.extractLsb' 8 6) (w.extractLsb' 6 2))
  | 17 => need w 7 0#1 .reservedField <| .ok (.shr (w.extractLsb' 20 6) (w.extractLsb' 14 6) (w.extractLsb' 8 6) (w.extractLsb' 6 1))
  | 18 => need w 7 0#1 .reservedField <| .ok (.sha (w.extractLsb' 20 6) (w.extractLsb' 14 6) (w.extractLsb' 8 6) (w.extractLsb' 6 1))
  | 19 => need w 7 0#1 .reservedField <| .ok (.ror (w.extractLsb' 20 6) (w.extractLsb' 14 6) (w.extractLsb' 8 6) (w.extractLsb' 6 1))
  | 20 => .ok (.shlImm (w.extractLsb' 20 6) (w.extractLsb' 14 6) (w.extractLsb' 8 6) (w.extractLsb' 6 2))
  | 21 => need w 7 0#1 .reservedField <| .ok (.shrImm (w.extractLsb' 20 6) (w.extractLsb' 14 6) (w.extractLsb' 8 6) (w.extractLsb' 6 1))
  | 22 => need w 7 0#1 .reservedField <| .ok (.shaImm (w.extractLsb' 20 6) (w.extractLsb' 14 6) (w.extractLsb' 8 6) (w.extractLsb' 6 1))
  | 23 => need w 7 0#1 .reservedField <| .ok (.rorImm (w.extractLsb' 20 6) (w.extractLsb' 14 6) (w.extractLsb' 8 6) (w.extractLsb' 6 1))
  | 24 => need w 8 0#6 .reservedField <| need w 7 0#1 .reservedField <| .ok (.clz (w.extractLsb' 20 6) (w.extractLsb' 14 6) (w.extractLsb' 6 1))
  | 25 => need w 8 0#6 .reservedField <| need w 7 0#1 .reservedField <| .ok (.ctz (w.extractLsb' 20 6) (w.extractLsb' 14 6) (w.extractLsb' 6 1))
  | 26 => need w 8 0#6 .reservedField <| need w 7 0#1 .reservedField <| .ok (.popc (w.extractLsb' 20 6) (w.extractLsb' 14 6) (w.extractLsb' 6 1))
  | 27 => need w 8 0#6 .reservedField <| need w 7 0#1 .reservedField <| .ok (.brev (w.extractLsb' 20 6) (w.extractLsb' 14 6) (w.extractLsb' 6 1))
  | 28 => need w 8 0#6 .reservedField <| need w 7 0#1 .reservedField <| .ok (.bswp (w.extractLsb' 20 6) (w.extractLsb' 14 6) (w.extractLsb' 6 1))
  | 29 => need w 7 0#1 .reservedField <| .ok (.min (w.extractLsb' 20 6) (w.extractLsb' 14 6) (w.extractLsb' 8 6) (w.extractLsb' 6 1))
  | 30 => need w 7 0#1 .reservedField <| .ok (.minN (w.extractLsb' 20 6) (w.extractLsb' 14 6) (w.extractLsb' 8 6) (w.extractLsb' 6 1))
  | 31 => need w 7 0#1 .reservedField <| .ok (.max (w.extractLsb' 20 6) (w.extractLsb' 14 6) (w.extractLsb' 8 6) (w.extractLsb' 6 1))
  | 32 => need w 7 0#1 .reservedField <| .ok (.maxN (w.extractLsb' 20 6) (w.extractLsb' 14 6) (w.extractLsb' 8 6) (w.extractLsb' 6 1))
  | 33 => need w 6 0#2 .reservedField <| .ok (.sel (w.extractLsb' 20 6) (w.extractLsb' 14 6) (w.extractLsb' 8 6))
  | 34 => need w 7 0#1 .reservedField <| .ok (.shadd1 (w.extractLsb' 20 6) (w.extractLsb' 14 6) (w.extractLsb' 8 6) (w.extractLsb' 6 1))
  | 35 => need w 7 0#1 .reservedField <| .ok (.shadd2 (w.extractLsb' 20 6) (w.extractLsb' 14 6) (w.extractLsb' 8 6) (w.extractLsb' 6 1))
  | 36 => need w 7 0#1 .reservedField <| .ok (.shadd3 (w.extractLsb' 20 6) (w.extractLsb' 14 6) (w.extractLsb' 8 6) (w.extractLsb' 6 1))
  | 37 => need w 7 0#1 .reservedField <| .ok (.shadd4 (w.extractLsb' 20 6) (w.extractLsb' 14 6) (w.extractLsb' 8 6) (w.extractLsb' 6 1))
  | 38 => need w 7 0#1 .reservedField <| .ok (.cmpEq (w.extractLsb' 20 6) (w.extractLsb' 14 6) (w.extractLsb' 8 6) (w.extractLsb' 6 1))
  | 39 => need w 7 0#1 .reservedField <| .ok (.cmpNe (w.extractLsb' 20 6) (w.extractLsb' 14 6) (w.extractLsb' 8 6) (w.extractLsb' 6 1))
  | 40 => need w 7 0#1 .reservedField <| .ok (.cmpLt (w.extractLsb' 20 6) (w.extractLsb' 14 6) (w.extractLsb' 8 6) (w.extractLsb' 6 1))
  | 41 => need w 7 0#1 .reservedField <| .ok (.cmpGe (w.extractLsb' 20 6) (w.extractLsb' 14 6) (w.extractLsb' 8 6) (w.extractLsb' 6 1))
  | 42 => need w 7 0#1 .reservedField <| .ok (.cmpLtn (w.extractLsb' 20 6) (w.extractLsb' 14 6) (w.extractLsb' 8 6) (w.extractLsb' 6 1))
  | 43 => need w 7 0#1 .reservedField <| .ok (.cmpGen (w.extractLsb' 20 6) (w.extractLsb' 14 6) (w.extractLsb' 8 6) (w.extractLsb' 6 1))
  | _ => .error .unassignedFn

/-- Opcode 0x02. -/
def decodeOp02 (w : BitVec 32) : Except DecodeError Instr :=
  .ok (.addImm (w.extractLsb' 20 6) (w.extractLsb' 14 6) (w.extractLsb' 0 14))

/-- Opcode 0x03. -/
def decodeOp03 (w : BitVec 32) : Except DecodeError Instr :=
  .ok (.addWImm (w.extractLsb' 20 6) (w.extractLsb' 14 6) (w.extractLsb' 0 14))

/-- Opcode 0x04. -/
def decodeOp04 (w : BitVec 32) : Except DecodeError Instr :=
  .ok (.mulImm (w.extractLsb' 20 6) (w.extractLsb' 14 6) (w.extractLsb' 0 14))

/-- Opcode 0x05. -/
def decodeOp05 (w : BitVec 32) : Except DecodeError Instr :=
  .ok (.andImm (w.extractLsb' 20 6) (w.extractLsb' 14 6) (w.extractLsb' 0 14))

/-- Opcode 0x06. -/
def decodeOp06 (w : BitVec 32) : Except DecodeError Instr :=
  .ok (.orImm (w.extractLsb' 20 6) (w.extractLsb' 14 6) (w.extractLsb' 0 14))

/-- Opcode 0x07. -/
def decodeOp07 (w : BitVec 32) : Except DecodeError Instr :=
  .ok (.xorImm (w.extractLsb' 20 6) (w.extractLsb' 14 6) (w.extractLsb' 0 14))

/-- Opcode 0x08. -/
def decodeOp08 (w : BitVec 32) : Except DecodeError Instr :=
  match (w.extractLsb' 12 2).toNat with
  | 0 => .ok (.bfxN (w.extractLsb' 20 6) (w.extractLsb' 14 6) (w.extractLsb' 6 6) (w.extractLsb' 0 6))
  | 1 => .ok (.bfx (w.extractLsb' 20 6) (w.extractLsb' 14 6) (w.extractLsb' 6 6) (w.extractLsb' 0 6))
  | _ => .error .unassignedFn

/-- Opcode 0x09. -/
def decodeOp09 (w : BitVec 32) : Except DecodeError Instr :=
  need w 12 0#2 .reservedField <| .ok (.bfi (w.extractLsb' 20 6) (w.extractLsb' 14 6) (w.extractLsb' 6 6) (w.extractLsb' 0 6))

/-- Opcode 0x0A. -/
def decodeOp0A (w : BitVec 32) : Except DecodeError Instr :=
  need w 6 0#2 .reservedField <| .ok (.hmix (w.extractLsb' 20 6) (w.extractLsb' 14 6) (w.extractLsb' 8 6) (w.extractLsb' 0 6))

/-- Opcode 0x0B. -/
def decodeOp0B (w : BitVec 32) : Except DecodeError Instr :=
  .ok (.movi (w.extractLsb' 20 6) (w.extractLsb' 0 20))

/-- Opcode 0x0C. -/
def decodeOp0C (w : BitVec 32) : Except DecodeError Instr :=
  .ok (.movhi (w.extractLsb' 20 6) (w.extractLsb' 0 20))

/-- Opcode 0x0D. -/
def decodeOp0D (w : BitVec 32) : Except DecodeError Instr :=
  .ok (.addpc (w.extractLsb' 20 6) (w.extractLsb' 0 20))

/-- Opcode 0x0E. -/
def decodeOp0E (w w2 : BitVec 32) : Except DecodeError Instr :=
  match (w.extractLsb' 0 8).toNat with
  | 0 => need w 8 0#12 .reservedField <| .ok (.limm (w.extractLsb' 20 6) w2)
  | 1 => need w 8 0#12 .reservedField <| .ok (.limmN (w.extractLsb' 20 6) w2)
  | _ => .error .unassignedFn

/-- Opcode 0x0F. -/
def decodeOp0F (w : BitVec 32) : Except DecodeError Instr :=
  .ok (.bCond (w.extractLsb' 23 3) (w.extractLsb' 17 6) (w.extractLsb' 11 6) (w.extractLsb' 0 11))

/-- Opcode 0x10. -/
def decodeOp10 (w : BitVec 32) : Except DecodeError Instr :=
  .ok (.jmp (w.extractLsb' 0 26))

/-- Opcode 0x11. -/
def decodeOp11 (w : BitVec 32) : Except DecodeError Instr :=
  .ok (.call (w.extractLsb' 0 26))

/-- Opcode 0x12. -/
def decodeOp12 (w : BitVec 32) : Except DecodeError Instr :=
  match (w.extractLsb' 0 8).toNat with
  | 0 => need w 20 0#6 .reservedField <| need w 8 0#6 .reservedField <| .ok (.jr (w.extractLsb' 14 6))
  | 1 => need w 20 0#6 .reservedField <| need w 8 0#6 .reservedField <| .ok (.callr (w.extractLsb' 14 6))
  | _ => .error .unassignedFn

/-- Opcode 0x13. -/
def decodeOp13 (w : BitVec 32) : Except DecodeError Instr :=
  match (w.extractLsb' 0 4).toNat with
  | 0 => .ok (.fadd (w.extractLsb' 20 6) (w.extractLsb' 14 6) (w.extractLsb' 8 6) (w.extractLsb' 5 3) (w.extractLsb' 4 1))
  | 1 => .ok (.fsub (w.extractLsb' 20 6) (w.extractLsb' 14 6) (w.extractLsb' 8 6) (w.extractLsb' 5 3) (w.extractLsb' 4 1))
  | 2 => .ok (.fmul (w.extractLsb' 20 6) (w.extractLsb' 14 6) (w.extractLsb' 8 6) (w.extractLsb' 5 3) (w.extractLsb' 4 1))
  | 3 => .ok (.fdiv (w.extractLsb' 20 6) (w.extractLsb' 14 6) (w.extractLsb' 8 6) (w.extractLsb' 5 3) (w.extractLsb' 4 1))
  | 4 => need w 8 0#6 .reservedField <| .ok (.fsqrt (w.extractLsb' 20 6) (w.extractLsb' 14 6) (w.extractLsb' 5 3) (w.extractLsb' 4 1))
  | 5 => .ok (.fmaFma (w.extractLsb' 20 6) (w.extractLsb' 14 6) (w.extractLsb' 8 6) (w.extractLsb' 5 3) (w.extractLsb' 4 1))
  | 6 => .ok (.fmaFms (w.extractLsb' 20 6) (w.extractLsb' 14 6) (w.extractLsb' 8 6) (w.extractLsb' 5 3) (w.extractLsb' 4 1))
  | 7 => .ok (.fmaFnma (w.extractLsb' 20 6) (w.extractLsb' 14 6) (w.extractLsb' 8 6) (w.extractLsb' 5 3) (w.extractLsb' 4 1))
  | 8 => need w 5 0#3 .reservedField <| .ok (.fmin (w.extractLsb' 20 6) (w.extractLsb' 14 6) (w.extractLsb' 8 6) (w.extractLsb' 4 1))
  | 9 => need w 5 0#3 .reservedField <| .ok (.fmax (w.extractLsb' 20 6) (w.extractLsb' 14 6) (w.extractLsb' 8 6) (w.extractLsb' 4 1))
  | 10 => .ok (.fcmp (w.extractLsb' 20 6) (w.extractLsb' 14 6) (w.extractLsb' 8 6) (w.extractLsb' 5 3) (w.extractLsb' 4 1))
  | 11 => need w 8 0#6 .reservedField <| need w 5 0#3 .reservedField <| .ok (.fcls (w.extractLsb' 20 6) (w.extractLsb' 14 6) (w.extractLsb' 4 1))
  | 12 =>
    match (w.extractLsb' 5 3).toNat with
    | 0 => need w 8 0#6 .reservedField <| .ok (.fmvCp (w.extractLsb' 20 6) (w.extractLsb' 14 6) (w.extractLsb' 4 1))
    | 1 => need w 8 0#6 .reservedField <| .ok (.fmvNeg (w.extractLsb' 20 6) (w.extractLsb' 14 6) (w.extractLsb' 4 1))
    | 2 => need w 8 0#6 .reservedField <| .ok (.fmvAbs (w.extractLsb' 20 6) (w.extractLsb' 14 6) (w.extractLsb' 4 1))
    | 3 => .ok (.fmvSgn (w.extractLsb' 20 6) (w.extractLsb' 14 6) (w.extractLsb' 8 6) (w.extractLsb' 4 1))
    | _ => .error .unassignedFn
  | _ => .error .unassignedFn

/-- Opcode 0x14. -/
def decodeOp14 (w : BitVec 32) : Except DecodeError Instr :=
  need w 12 0#2 .reservedField <| .ok (.fcvt (w.extractLsb' 20 6) (w.extractLsb' 14 6) (w.extractLsb' 8 4) (w.extractLsb' 5 3) (w.extractLsb' 4 1) (w.extractLsb' 0 4))

/-- Opcode 0x15. -/
def decodeOp15 (w : BitVec 32) : Except DecodeError Instr :=
  match (w.extractLsb' 0 5).toNat with
  | 0 => need w 24 0#2 .registerRange <| need w 18 0#2 .registerRange <| need w 12 0#2 .registerRange <| .ok (.vadd (w.extractLsb' 20 4) (w.extractLsb' 14 4) (w.extractLsb' 8 4) (w.extractLsb' 5 3))
  | 1 => need w 24 0#2 .registerRange <| need w 18 0#2 .registerRange <| need w 12 0#2 .registerRange <| .ok (.vsub (w.extractLsb' 20 4) (w.extractLsb' 14 4) (w.extractLsb' 8 4) (w.extractLsb' 5 3))
  | 2 => need w 24 0#2 .registerRange <| need w 18 0#2 .registerRange <| need w 12 0#2 .registerRange <| .ok (.vmul (w.extractLsb' 20 4) (w.extractLsb' 14 4) (w.extractLsb' 8 4) (w.extractLsb' 5 3))
  | 3 => need w 24 0#2 .registerRange <| need w 18 0#2 .registerRange <| need w 12 0#2 .registerRange <| .ok (.vmin (w.extractLsb' 20 4) (w.extractLsb' 14 4) (w.extractLsb' 8 4) (w.extractLsb' 5 3))
  | 4 => need w 24 0#2 .registerRange <| need w 18 0#2 .registerRange <| need w 12 0#2 .registerRange <| .ok (.vminN (w.extractLsb' 20 4) (w.extractLsb' 14 4) (w.extractLsb' 8 4) (w.extractLsb' 5 3))
  | 5 => need w 24 0#2 .registerRange <| need w 18 0#2 .registerRange <| need w 12 0#2 .registerRange <| .ok (.vmax (w.extractLsb' 20 4) (w.extractLsb' 14 4) (w.extractLsb' 8 4) (w.extractLsb' 5 3))
  | 6 => need w 24 0#2 .registerRange <| need w 18 0#2 .registerRange <| need w 12 0#2 .registerRange <| .ok (.vmaxN (w.extractLsb' 20 4) (w.extractLsb' 14 4) (w.extractLsb' 8 4) (w.extractLsb' 5 3))
  | 7 => need w 24 0#2 .registerRange <| need w 18 0#2 .registerRange <| need w 12 0#2 .registerRange <| .ok (.vlogAnd (w.extractLsb' 20 4) (w.extractLsb' 14 4) (w.extractLsb' 8 4) (w.extractLsb' 5 3))
  | 8 => need w 24 0#2 .registerRange <| need w 18 0#2 .registerRange <| need w 12 0#2 .registerRange <| .ok (.vlogOr (w.extractLsb' 20 4) (w.extractLsb' 14 4) (w.extractLsb' 8 4) (w.extractLsb' 5 3))
  | 9 => need w 24 0#2 .registerRange <| need w 18 0#2 .registerRange <| need w 12 0#2 .registerRange <| .ok (.vlogXor (w.extractLsb' 20 4) (w.extractLsb' 14 4) (w.extractLsb' 8 4) (w.extractLsb' 5 3))
  | 10 => need w 24 0#2 .registerRange <| need w 18 0#2 .registerRange <| need w 12 0#2 .registerRange <| .ok (.vshShl (w.extractLsb' 20 4) (w.extractLsb' 14 4) (w.extractLsb' 8 4) (w.extractLsb' 5 3))
  | 11 => need w 24 0#2 .registerRange <| need w 18 0#2 .registerRange <| need w 12 0#2 .registerRange <| .ok (.vshShr (w.extractLsb' 20 4) (w.extractLsb' 14 4) (w.extractLsb' 8 4) (w.extractLsb' 5 3))
  | 12 => need w 24 0#2 .registerRange <| need w 18 0#2 .registerRange <| need w 12 0#2 .registerRange <| .ok (.vshSha (w.extractLsb' 20 4) (w.extractLsb' 14 4) (w.extractLsb' 8 4) (w.extractLsb' 5 3))
  | 13 => need w 24 0#2 .registerRange <| need w 18 0#2 .registerRange <| need w 12 0#2 .registerRange <| .ok (.vaddSat (w.extractLsb' 20 4) (w.extractLsb' 14 4) (w.extractLsb' 8 4) (w.extractLsb' 5 3))
  | 14 => need w 24 0#2 .registerRange <| need w 18 0#2 .registerRange <| need w 12 0#2 .registerRange <| .ok (.vaddNSat (w.extractLsb' 20 4) (w.extractLsb' 14 4) (w.extractLsb' 8 4) (w.extractLsb' 5 3))
  | 15 => need w 24 0#2 .registerRange <| need w 18 0#2 .registerRange <| need w 12 0#2 .registerRange <| .ok (.vsubSat (w.extractLsb' 20 4) (w.extractLsb' 14 4) (w.extractLsb' 8 4) (w.extractLsb' 5 3))
  | 16 => need w 24 0#2 .registerRange <| need w 18 0#2 .registerRange <| need w 12 0#2 .registerRange <| .ok (.vsubNSat (w.extractLsb' 20 4) (w.extractLsb' 14 4) (w.extractLsb' 8 4) (w.extractLsb' 5 3))
  | 17 => need w 18 0#2 .registerRange <| need w 8 0#6 .reservedField <| .ok (.vredSum (w.extractLsb' 20 6) (w.extractLsb' 14 4) (w.extractLsb' 5 3))
  | 18 => need w 18 0#2 .registerRange <| need w 8 0#6 .reservedField <| .ok (.vredMax (w.extractLsb' 20 6) (w.extractLsb' 14 4) (w.extractLsb' 5 3))
  | 19 => need w 18 0#2 .registerRange <| need w 8 0#6 .reservedField <| .ok (.vredMin (w.extractLsb' 20 6) (w.extractLsb' 14 4) (w.extractLsb' 5 3))
  | 20 => need w 24 0#2 .registerRange <| need w 18 0#2 .registerRange <| need w 8 0#6 .reservedField <| .ok (.vscan (w.extractLsb' 20 4) (w.extractLsb' 14 4) (w.extractLsb' 5 3))
  | 21 => need w 18 0#2 .registerRange <| need w 12 0#2 .registerRange <| .ok (.vdot (w.extractLsb' 20 6) (w.extractLsb' 14 4) (w.extractLsb' 8 4) (w.extractLsb' 5 3))
  | 22 => need w 24 0#2 .registerRange <| need w 18 0#2 .registerRange <| need w 12 0#2 .registerRange <| .ok (.vsel (w.extractLsb' 20 4) (w.extractLsb' 14 4) (w.extractLsb' 8 4) (w.extractLsb' 5 3))
  | 24 | 25 | 26 | 27 | 28 | 29 | 30 | 31 => need w 23 0#3 .registerRange <| need w 18 0#2 .registerRange <| need w 12 0#2 .registerRange <| .ok (.vcmp (w.extractLsb' 20 3) (w.extractLsb' 14 4) (w.extractLsb' 8 4) (w.extractLsb' 5 3) (w.extractLsb' 0 3))
  | _ => .error .unassignedFn

/-- Opcode 0x16. -/
def decodeOp16 (w : BitVec 32) : Except DecodeError Instr :=
  match (w.extractLsb' 0 5).toNat with
  | 0 => need w 24 0#2 .registerRange <| need w 18 0#2 .registerRange <| need w 12 0#2 .registerRange <| .ok (.vaddS (w.extractLsb' 20 4) (w.extractLsb' 14 4) (w.extractLsb' 8 4) (w.extractLsb' 5 3))
  | 1 => need w 24 0#2 .registerRange <| need w 18 0#2 .registerRange <| need w 12 0#2 .registerRange <| .ok (.vsubS (w.extractLsb' 20 4) (w.extractLsb' 14 4) (w.extractLsb' 8 4) (w.extractLsb' 5 3))
  | 2 => need w 24 0#2 .registerRange <| need w 18 0#2 .registerRange <| need w 12 0#2 .registerRange <| .ok (.vmulS (w.extractLsb' 20 4) (w.extractLsb' 14 4) (w.extractLsb' 8 4) (w.extractLsb' 5 3))
  | 3 => need w 24 0#2 .registerRange <| need w 18 0#2 .registerRange <| need w 12 0#2 .registerRange <| .ok (.vfmaS (w.extractLsb' 20 4) (w.extractLsb' 14 4) (w.extractLsb' 8 4) (w.extractLsb' 5 3))
  | 4 => need w 24 0#2 .registerRange <| need w 18 0#2 .registerRange <| need w 12 0#2 .registerRange <| .ok (.vminS (w.extractLsb' 20 4) (w.extractLsb' 14 4) (w.extractLsb' 8 4) (w.extractLsb' 5 3))
  | 5 => need w 24 0#2 .registerRange <| need w 18 0#2 .registerRange <| need w 12 0#2 .registerRange <| .ok (.vmaxS (w.extractLsb' 20 4) (w.extractLsb' 14 4) (w.extractLsb' 8 4) (w.extractLsb' 5 3))
  | 6 => need w 18 0#2 .registerRange <| need w 8 0#6 .reservedField <| .ok (.vredSumS (w.extractLsb' 20 6) (w.extractLsb' 14 4) (w.extractLsb' 5 3))
  | 7 => need w 18 0#2 .registerRange <| need w 8 0#6 .reservedField <| .ok (.vredMaxS (w.extractLsb' 20 6) (w.extractLsb' 14 4) (w.extractLsb' 5 3))
  | 8 => need w 18 0#2 .registerRange <| need w 8 0#6 .reservedField <| .ok (.vredMinS (w.extractLsb' 20 6) (w.extractLsb' 14 4) (w.extractLsb' 5 3))
  | 9 => need w 24 0#2 .registerRange <| need w 18 0#2 .registerRange <| need w 8 0#6 .reservedField <| .ok (.vscanS (w.extractLsb' 20 4) (w.extractLsb' 14 4) (w.extractLsb' 5 3))
  | 10 => need w 18 0#2 .registerRange <| need w 12 0#2 .registerRange <| .ok (.vdotS (w.extractLsb' 20 6) (w.extractLsb' 14 4) (w.extractLsb' 8 4) (w.extractLsb' 5 3))
  | 11 => need w 24 0#2 .registerRange <| need w 18 0#2 .registerRange <| need w 8 0#6 .reservedField <| .ok (.vsfuRcp (w.extractLsb' 20 4) (w.extractLsb' 14 4) (w.extractLsb' 5 3))
  | 12 => need w 24 0#2 .registerRange <| need w 18 0#2 .registerRange <| need w 8 0#6 .reservedField <| .ok (.vsfuRsq (w.extractLsb' 20 4) (w.extractLsb' 14 4) (w.extractLsb' 5 3))
  | 13 => need w 24 0#2 .registerRange <| need w 18 0#2 .registerRange <| need w 8 0#6 .reservedField <| .ok (.vsfuEx2 (w.extractLsb' 20 4) (w.extractLsb' 14 4) (w.extractLsb' 5 3))
  | 14 => need w 24 0#2 .registerRange <| need w 18 0#2 .registerRange <| need w 8 0#6 .reservedField <| .ok (.vsfuLg2 (w.extractLsb' 20 4) (w.extractLsb' 14 4) (w.extractLsb' 5 3))
  | 15 => need w 24 0#2 .registerRange <| need w 18 0#2 .registerRange <| need w 8 0#6 .reservedField <| .ok (.vsfuTnh (w.extractLsb' 20 4) (w.extractLsb' 14 4) (w.extractLsb' 5 3))
  | 16 | 17 | 18 | 19 | 20 | 21 | 22 | 23 => need w 23 0#3 .registerRange <| need w 18 0#2 .registerRange <| need w 12 0#2 .registerRange <| .ok (.vcmpS (w.extractLsb' 20 3) (w.extractLsb' 14 4) (w.extractLsb' 8 4) (w.extractLsb' 5 3) (w.extractLsb' 0 3))
  | _ => .error .unassignedFn

/-- Opcode 0x17. -/
def decodeOp17 (w : BitVec 32) : Except DecodeError Instr :=
  match (w.extractLsb' 0 5).toNat with
  | 0 => need w 24 0#2 .registerRange <| need w 18 0#2 .registerRange <| need w 12 0#2 .registerRange <| .ok (.vperm (w.extractLsb' 20 4) (w.extractLsb' 14 4) (w.extractLsb' 8 4) (w.extractLsb' 5 3))
  | 1 => need w 24 0#2 .registerRange <| need w 8 0#6 .reservedField <| .ok (.vsplat (w.extractLsb' 20 4) (w.extractLsb' 14 6) (w.extractLsb' 5 3))
  | 2 => need w 18 0#2 .registerRange <| need w 5 0#3 .reservedField <| .ok (.vget (w.extractLsb' 20 6) (w.extractLsb' 14 4) (w.extractLsb' 8 6))
  | 3 => need w 24 0#2 .registerRange <| need w 5 0#3 .reservedField <| .ok (.vins (w.extractLsb' 20 4) (w.extractLsb' 14 6) (w.extractLsb' 8 6))
  | 4 => need w 24 0#2 .registerRange <| need w 18 0#2 .registerRange <| need w 8 0#6 .reservedField <| .ok (.vcmpr (w.extractLsb' 20 4) (w.extractLsb' 14 4) (w.extractLsb' 5 3))
  | 5 => need w 24 0#2 .registerRange <| need w 18 0#2 .registerRange <| need w 8 0#6 .reservedField <| .ok (.vexpd (w.extractLsb' 20 4) (w.extractLsb' 14 4) (w.extractLsb' 5 3))
  | 6 => need w 24 0#2 .registerRange <| need w 18 0#2 .registerRange <| need w 10 0#4 .registerRange <| .ok (.vdec (w.extractLsb' 20 4) (w.extractLsb' 14 4) (w.extractLsb' 8 2) (w.extractLsb' 5 3))
  | 7 => need w 24 0#2 .registerRange <| need w 18 0#2 .registerRange <| need w 10 0#4 .registerRange <| .ok (.venc (w.extractLsb' 20 4) (w.extractLsb' 14 4) (w.extractLsb' 8 2) (w.extractLsb' 5 3))
  | 8 => need w 20 0#6 .reservedField <| need w 5 0#3 .reservedField <| .ok (.tblw (w.extractLsb' 14 6) (w.extractLsb' 8 6))
  | 9 => need w 8 0#6 .reservedField <| need w 5 0#3 .reservedField <| .ok (.tblr (w.extractLsb' 20 6) (w.extractLsb' 14 6))
  | 10 => need w 23 0#3 .registerRange <| need w 17 0#3 .registerRange <| need w 11 0#3 .registerRange <| need w 5 0#3 .reservedField <| .ok (.kopAnd (w.extractLsb' 20 3) (w.extractLsb' 14 3) (w.extractLsb' 8 3))
  | 11 => need w 23 0#3 .registerRange <| need w 17 0#3 .registerRange <| need w 11 0#3 .registerRange <| need w 5 0#3 .reservedField <| .ok (.kopOr (w.extractLsb' 20 3) (w.extractLsb' 14 3) (w.extractLsb' 8 3))
  | 12 => need w 23 0#3 .registerRange <| need w 17 0#3 .registerRange <| need w 11 0#3 .registerRange <| need w 5 0#3 .reservedField <| .ok (.kopXor (w.extractLsb' 20 3) (w.extractLsb' 14 3) (w.extractLsb' 8 3))
  | 13 => need w 23 0#3 .registerRange <| need w 17 0#3 .registerRange <| need w 11 0#3 .registerRange <| need w 5 0#3 .reservedField <| .ok (.kopAndn (w.extractLsb' 20 3) (w.extractLsb' 14 3) (w.extractLsb' 8 3))
  | 14 => need w 23 0#3 .registerRange <| need w 8 0#6 .reservedField <| need w 5 0#3 .reservedField <| .ok (.kopSet (w.extractLsb' 20 3) (w.extractLsb' 14 6))
  | 15 => need w 17 0#3 .registerRange <| need w 8 0#6 .reservedField <| need w 5 0#3 .reservedField <| .ok (.kopGet (w.extractLsb' 20 6) (w.extractLsb' 14 3))
  | 16 => need w 17 0#3 .registerRange <| need w 8 0#6 .reservedField <| need w 5 0#3 .reservedField <| .ok (.kcnt (w.extractLsb' 20 6) (w.extractLsb' 14 3))
  | 17 => need w 20 0#6 .reservedField <| need w 14 0#6 .reservedField <| need w 8 0#6 .reservedField <| need w 5 0#3 .reservedField <| .ok (.gang)
  | 18 => need w 20 0#6 .reservedField <| need w 14 0#6 .reservedField <| need w 8 0#6 .reservedField <| need w 5 0#3 .reservedField <| .ok (.split)
  | _ => .error .unassignedFn

/-- Opcode 0x18. -/
def decodeOp18 (w : BitVec 32) : Except DecodeError Instr :=
  need w 24 0#2 .registerRange <| need w 18 0#2 .registerRange <| need w 4 0#1 .reservedField <| .ok (.vcvt (w.extractLsb' 20 4) (w.extractLsb' 14 4) (w.extractLsb' 11 3) (w.extractLsb' 8 3) (w.extractLsb' 5 3) (w.extractLsb' 3 1) (w.extractLsb' 0 3))

/-- Opcode 0x19. -/
def decodeOp19 (w : BitVec 32) : Except DecodeError Instr :=
  .ok (.ld (w.extractLsb' 20 6) (w.extractLsb' 14 6) (w.extractLsb' 12 2) (w.extractLsb' 11 1) (w.extractLsb' 0 11))

/-- Opcode 0x1A. -/
def decodeOp1A (w : BitVec 32) : Except DecodeError Instr :=
  need w 11 0#1 .reservedField <| .ok (.st (w.extractLsb' 20 6) (w.extractLsb' 14 6) (w.extractLsb' 12 2) (w.extractLsb' 0 11))

/-- Opcode 0x1B. -/
def decodeOp1B (w : BitVec 32) : Except DecodeError Instr :=
  need w 24 0#2 .registerRange <| .ok (.vld (w.extractLsb' 20 4) (w.extractLsb' 14 6) (w.extractLsb' 12 2) (w.extractLsb' 11 1) (w.extractLsb' 0 11))

/-- Opcode 0x1C. -/
def decodeOp1C (w : BitVec 32) : Except DecodeError Instr :=
  need w 24 0#2 .registerRange <| need w 11 0#1 .reservedField <| .ok (.vst (w.extractLsb' 20 4) (w.extractLsb' 14 6) (w.extractLsb' 12 2) (w.extractLsb' 0 11))

/-- Opcode 0x1D. -/
def decodeOp1D (w : BitVec 32) : Except DecodeError Instr :=
  match (w.extractLsb' 6 2).toNat with
  | 0 => need w 3 0#3 .reservedField <| .ok (.ldx (w.extractLsb' 20 6) (w.extractLsb' 14 6) (w.extractLsb' 8 6) (w.extractLsb' 2 1) (w.extractLsb' 0 2))
  | 1 => need w 2 0#4 .reservedField <| .ok (.stx (w.extractLsb' 20 6) (w.extractLsb' 14 6) (w.extractLsb' 8 6) (w.extractLsb' 0 2))
  | 2 => need w 8 0#6 .reservedField <| .ok (.ldAcq (w.extractLsb' 20 6) (w.extractLsb' 14 6) (w.extractLsb' 3 3) (w.extractLsb' 2 1) (w.extractLsb' 0 2))
  | 3 => need w 8 0#6 .reservedField <| need w 2 0#1 .reservedField <| .ok (.stRel (w.extractLsb' 20 6) (w.extractLsb' 14 6) (w.extractLsb' 3 3) (w.extractLsb' 0 2))
  | _ => .error .unassignedFn

/-- Opcode 0x1E. -/
def decodeOp1E (w : BitVec 32) : Except DecodeError Instr :=
  match (w.extractLsb' 3 2).toNat with
  | 0 => need w 24 0#2 .registerRange <| .ok (.vlds (w.extractLsb' 20 4) (w.extractLsb' 14 6) (w.extractLsb' 8 6) (w.extractLsb' 5 3) (w.extractLsb' 2 1) (w.extractLsb' 0 2))
  | 1 => need w 24 0#2 .registerRange <| need w 2 0#1 .reservedField <| .ok (.vsts (w.extractLsb' 20 4) (w.extractLsb' 14 6) (w.extractLsb' 8 6) (w.extractLsb' 5 3) (w.extractLsb' 0 2))
  | 2 => need w 24 0#2 .registerRange <| need w 12 0#2 .registerRange <| .ok (.vgth (w.extractLsb' 20 4) (w.extractLsb' 14 6) (w.extractLsb' 8 4) (w.extractLsb' 5 3) (w.extractLsb' 2 1) (w.extractLsb' 0 2))
  | 3 => need w 24 0#2 .registerRange <| need w 12 0#2 .registerRange <| need w 2 0#1 .reservedField <| .ok (.vsct (w.extractLsb' 20 4) (w.extractLsb' 14 6) (w.extractLsb' 8 4) (w.extractLsb' 5 3) (w.extractLsb' 0 2))
  | _ => .error .unassignedFn

/-- Opcode 0x1F. -/
def decodeOp1F (w : BitVec 32) : Except DecodeError Instr :=
  match (w.extractLsb' 0 4).toNat with
  | 0 => need w 20 0#6 .reservedField <| need w 8 0#6 .reservedField <| need w 4 0#4 .reservedField <| .ok (.pref (w.extractLsb' 14 6))
  | 1 => need w 20 0#6 .reservedField <| need w 14 0#6 .reservedField <| need w 11 0#3 .reservedField <| .ok (.fence (w.extractLsb' 8 3) (w.extractLsb' 4 4))
  | 2 => need w 20 0#6 .reservedField <| need w 8 0#6 .reservedField <| need w 4 0#4 .reservedField <| .ok (.cwb (w.extractLsb' 14 6))
  | 3 => need w 20 0#6 .reservedField <| need w 8 0#6 .reservedField <| need w 4 0#4 .reservedField <| .ok (.cinv (w.extractLsb' 14 6))
  | _ => .error .unassignedFn

/-- Opcode 0x20. -/
def decodeOp20 (w : BitVec 32) : Except DecodeError Instr :=
  match (w.extractLsb' 0 4).toNat with
  | 0 => .ok (.amoAdd (w.extractLsb' 20 6) (w.extractLsb' 14 6) (w.extractLsb' 8 6) (w.extractLsb' 5 3) (w.extractLsb' 4 1))
  | 1 => .ok (.amoAnd (w.extractLsb' 20 6) (w.extractLsb' 14 6) (w.extractLsb' 8 6) (w.extractLsb' 5 3) (w.extractLsb' 4 1))
  | 2 => .ok (.amoOr (w.extractLsb' 20 6) (w.extractLsb' 14 6) (w.extractLsb' 8 6) (w.extractLsb' 5 3) (w.extractLsb' 4 1))
  | 3 => .ok (.amoXor (w.extractLsb' 20 6) (w.extractLsb' 14 6) (w.extractLsb' 8 6) (w.extractLsb' 5 3) (w.extractLsb' 4 1))
  | 4 => .ok (.amoMin (w.extractLsb' 20 6) (w.extractLsb' 14 6) (w.extractLsb' 8 6) (w.extractLsb' 5 3) (w.extractLsb' 4 1))
  | 5 => .ok (.amoMax (w.extractLsb' 20 6) (w.extractLsb' 14 6) (w.extractLsb' 8 6) (w.extractLsb' 5 3) (w.extractLsb' 4 1))
  | 6 => .ok (.amoMinn (w.extractLsb' 20 6) (w.extractLsb' 14 6) (w.extractLsb' 8 6) (w.extractLsb' 5 3) (w.extractLsb' 4 1))
  | 7 => .ok (.amoMaxn (w.extractLsb' 20 6) (w.extractLsb' 14 6) (w.extractLsb' 8 6) (w.extractLsb' 5 3) (w.extractLsb' 4 1))
  | 8 => .ok (.amoSwp (w.extractLsb' 20 6) (w.extractLsb' 14 6) (w.extractLsb' 8 6) (w.extractLsb' 5 3) (w.extractLsb' 4 1))
  | 9 => .ok (.amoFadd (w.extractLsb' 20 6) (w.extractLsb' 14 6) (w.extractLsb' 8 6) (w.extractLsb' 5 3) (w.extractLsb' 4 1))
  | _ => .error .unassignedFn

/-- Opcode 0x21. -/
def decodeOp21 (w : BitVec 32) : Except DecodeError Instr :=
  match (w.extractLsb' 0 4).toNat with
  | 0 => .ok (.acas (w.extractLsb' 20 6) (w.extractLsb' 14 6) (w.extractLsb' 8 6) (w.extractLsb' 5 3) (w.extractLsb' 4 1))
  | _ => .error .unassignedFn

/-- Opcode 0x22. -/
def decodeOp22 (w : BitVec 32) : Except DecodeError Instr :=
  match (w.extractLsb' 12 2).toNat with
  | 0 => need w 11 0#1 .reservedField <| .ok (.ldfe (w.extractLsb' 20 6) (w.extractLsb' 14 6) (w.extractLsb' 0 11))
  | 1 => need w 11 0#1 .reservedField <| .ok (.ldff (w.extractLsb' 20 6) (w.extractLsb' 14 6) (w.extractLsb' 0 11))
  | 2 => need w 11 0#1 .reservedField <| .ok (.stef (w.extractLsb' 20 6) (w.extractLsb' 14 6) (w.extractLsb' 0 11))
  | 3 => need w 11 0#1 .reservedField <| .ok (.stff (w.extractLsb' 20 6) (w.extractLsb' 14 6) (w.extractLsb' 0 11))
  | _ => .error .unassignedFn

/-- Opcode 0x23. -/
def decodeOp23 (w : BitVec 32) : Except DecodeError Instr :=
  match (w.extractLsb' 0 8).toNat with
  | 0 => need w 8 0#6 .reservedField <| .ok (.feget (w.extractLsb' 20 6) (w.extractLsb' 14 6))
  | 1 => need w 20 0#6 .reservedField <| need w 8 0#6 .reservedField <| .ok (.fesetEmpty (w.extractLsb' 14 6))
  | 2 => need w 20 0#6 .reservedField <| need w 8 0#6 .reservedField <| .ok (.fesetFull (w.extractLsb' 14 6))
  | _ => .error .unassignedFn

/-- Opcode 0x24. -/
def decodeOp24 (w : BitVec 32) : Except DecodeError Instr :=
  match (w.extractLsb' 0 8).toNat with
  | 0 => need w 20 0#6 .reservedField <| .ok (.send (w.extractLsb' 14 6) (w.extractLsb' 8 6))
  | 1 => need w 20 0#6 .reservedField <| need w 12 0#2 .registerRange <| .ok (.sendv (w.extractLsb' 14 6) (w.extractLsb' 8 4))
  | 2 => need w 16 0#4 .registerRange <| .ok (.recvG (w.extractLsb' 20 6) (w.extractLsb' 14 2) (w.extractLsb' 8 6))
  | 3 => need w 24 0#2 .registerRange <| need w 16 0#4 .registerRange <| .ok (.recvV (w.extractLsb' 20 4) (w.extractLsb' 14 2) (w.extractLsb' 8 6))
  | 4 => need w 16 0#4 .registerRange <| need w 8 0#6 .reservedField <| .ok (.qpoll (w.extractLsb' 20 6) (w.extractLsb' 14 2))
  | 5 => need w 22 0#4 .registerRange <| .ok (.qbind (w.extractLsb' 20 2) (w.extractLsb' 14 6) (w.extractLsb' 8 6))
  | 6 => need w 22 0#4 .registerRange <| need w 14 0#6 .reservedField <| need w 8 0#6 .reservedField <| .ok (.qfree (w.extractLsb' 20 2))
  | _ => .error .unassignedFn

/-- Opcode 0x25. -/
def decodeOp25 (w : BitVec 32) : Except DecodeError Instr :=
  match (w.extractLsb' 6 2).toNat with
  | 0 => .ok (.cpy (w.extractLsb' 20 6) (w.extractLsb' 14 6) (w.extractLsb' 8 6) (w.extractLsb' 0 6))
  | 1 => .ok (.cpy2 (w.extractLsb' 20 6) (w.extractLsb' 14 6) (w.extractLsb' 8 6) (w.extractLsb' 0 6))
  | 2 => need w 20 0#6 .reservedField <| need w 8 0#6 .reservedField <| need w 0 0#6 .reservedField <| .ok (.bwait (w.extractLsb' 14 6))
  | _ => .error .unassignedFn

/-- Opcode 0x26. -/
def decodeOp26 (w : BitVec 32) : Except DecodeError Instr :=
  need w 12 0#2 .registerRange <| .ok (.serve (w.extractLsb' 20 6) (w.extractLsb' 14 6) (w.extractLsb' 8 4) (w.extractLsb' 0 8))

/-- Opcode 0x27. -/
def decodeOp27 (w : BitVec 32) : Except DecodeError Instr :=
  match (w.extractLsb' 0 8).toNat with
  | 0 => .ok (.frld (w.extractLsb' 20 6) (w.extractLsb' 14 6) (w.extractLsb' 8 6))
  | 1 => .ok (.frbind (w.extractLsb' 20 6) (w.extractLsb' 14 6) (w.extractLsb' 8 6))
  | 2 => need w 20 0#6 .reservedField <| need w 8 0#6 .reservedField <| .ok (.frgo (w.extractLsb' 14 6))
  | 3 => need w 20 0#6 .reservedField <| need w 8 0#6 .reservedField <| .ok (.frbar (w.extractLsb' 14 6))
  | 4 => need w 20 0#6 .reservedField <| need w 8 0#6 .reservedField <| .ok (.frwait (w.extractLsb' 14 6))
  | 5 => .ok (.argw (w.extractLsb' 20 6) (w.extractLsb' 14 6) (w.extractLsb' 8 6))
  | _ => .error .unassignedFn

/-- Opcode 0x28. -/
def decodeOp28 (w : BitVec 32) : Except DecodeError Instr :=
  match (w.extractLsb' 0 8).toNat with
  | 0 => need w 20 0#6 .reservedField <| .ok (.spawnCore (w.extractLsb' 14 6) (w.extractLsb' 8 6))
  | 1 => need w 20 0#6 .reservedField <| .ok (.spawnCluster (w.extractLsb' 14 6) (w.extractLsb' 8 6))
  | 2 => .ok (.spawnNamed (w.extractLsb' 20 6) (w.extractLsb' 14 6) (w.extractLsb' 8 6))
  | 3 => need w 20 0#6 .reservedField <| .ok (.spawnDie (w.extractLsb' 14 6) (w.extractLsb' 8 6))
  | 16 => need w 20 0#6 .reservedField <| need w 14 0#6 .reservedField <| need w 8 0#6 .reservedField <| .ok (.exit)
  | 32 => need w 20 0#6 .reservedField <| need w 14 0#6 .reservedField <| need w 8 0#6 .reservedField <| .ok (.yield)
  | 48 => need w 20 0#6 .reservedField <| need w 8 0#6 .reservedField <| .ok (.twait (w.extractLsb' 14 6))
  | _ => .error .unassignedFn

/-- Opcode 0x29. -/
def decodeOp29 (w : BitVec 32) : Except DecodeError Instr :=
  match (w.extractLsb' 0 8).toNat with
  | 0 => need w 20 0#6 .reservedField <| .ok (.csus (w.extractLsb' 14 6) (w.extractLsb' 8 6))
  | 1 => need w 20 0#6 .reservedField <| need w 8 0#6 .reservedField <| .ok (.cfrc (w.extractLsb' 14 6))
  | 2 => .ok (.cfil (w.extractLsb' 20 6) (w.extractLsb' 14 6) (w.extractLsb' 8 6))
  | 3 => need w 20 0#6 .reservedField <| need w 8 0#6 .reservedField <| .ok (.ccan (w.extractLsb' 14 6))
  | 4 => need w 20 0#6 .reservedField <| need w 8 0#6 .reservedField <| .ok (.ccanP (w.extractLsb' 14 6))
  | 5 => need w 8 0#6 .reservedField <| .ok (.ctag (w.extractLsb' 20 6) (w.extractLsb' 14 6))
  | _ => .error .unassignedFn

/-- Opcode 0x2A. -/
def decodeOp2A (w : BitVec 32) : Except DecodeError Instr :=
  match (w.extractLsb' 0 8).toNat with
  | 0 => need w 20 0#6 .reservedField <| need w 14 0#6 .reservedField <| .ok (.trap (w.extractLsb' 8 6))
  | 1 => need w 20 0#6 .reservedField <| need w 14 0#6 .reservedField <| need w 8 0#6 .reservedField <| .ok (.eret)
  | 2 => need w 20 0#6 .reservedField <| need w 14 0#6 .reservedField <| need w 8 0#6 .reservedField <| .ok (.brk)
  | 3 => need w 20 0#6 .reservedField <| need w 14 0#6 .reservedField <| need w 8 0#6 .reservedField <| .ok (.halt)
  | _ => .error .unassignedFn

/-- Opcode 0x2B. -/
def decodeOp2B (w : BitVec 32) : Except DecodeError Instr :=
  need w 14 0#6 .reservedField <| need w 12 0#2 .reservedField <| .ok (.ctlr (w.extractLsb' 20 6) (w.extractLsb' 0 12))

/-- Opcode 0x2C. -/
def decodeOp2C (w : BitVec 32) : Except DecodeError Instr :=
  need w 20 0#6 .reservedField <| need w 12 0#2 .reservedField <| .ok (.ctlw (w.extractLsb' 14 6) (w.extractLsb' 0 12))

/-- Opcode 0x2D. -/
def decodeOp2D (w : BitVec 32) : Except DecodeError Instr :=
  match (w.extractLsb' 0 8).toNat with
  | 0 => need w 20 0#6 .reservedField <| need w 11 0#3 .reservedField <| .ok (.tlbiPage (w.extractLsb' 14 6) (w.extractLsb' 8 3))
  | 1 => need w 20 0#6 .reservedField <| need w 11 0#3 .reservedField <| .ok (.tlbiAsid (w.extractLsb' 14 6) (w.extractLsb' 8 3))
  | 2 => need w 20 0#6 .reservedField <| need w 14 0#6 .reservedField <| need w 11 0#3 .reservedField <| .ok (.tlbiPart (w.extractLsb' 8 3))
  | _ => .error .unassignedFn


/-- The instruction of a word, before the checks on field values; `w2` is the word after it, used by LIMM only
(R97, R101). -/
def decodeFields (w w2 : BitVec 32) : Except DecodeError Instr :=
  match (w.extractLsb' 26 6).toNat with
  | 1 => decodeOp01 w
  | 2 => decodeOp02 w
  | 3 => decodeOp03 w
  | 4 => decodeOp04 w
  | 5 => decodeOp05 w
  | 6 => decodeOp06 w
  | 7 => decodeOp07 w
  | 8 => decodeOp08 w
  | 9 => decodeOp09 w
  | 10 => decodeOp0A w
  | 11 => decodeOp0B w
  | 12 => decodeOp0C w
  | 13 => decodeOp0D w
  | 14 => decodeOp0E w w2
  | 15 => decodeOp0F w
  | 16 => decodeOp10 w
  | 17 => decodeOp11 w
  | 18 => decodeOp12 w
  | 19 => decodeOp13 w
  | 20 => decodeOp14 w
  | 21 => decodeOp15 w
  | 22 => decodeOp16 w
  | 23 => decodeOp17 w
  | 24 => decodeOp18 w
  | 25 => decodeOp19 w
  | 26 => decodeOp1A w
  | 27 => decodeOp1B w
  | 28 => decodeOp1C w
  | 29 => decodeOp1D w
  | 30 => decodeOp1E w
  | 31 => decodeOp1F w
  | 32 => decodeOp20 w
  | 33 => decodeOp21 w
  | 34 => decodeOp22 w
  | 35 => decodeOp23 w
  | 36 => decodeOp24 w
  | 37 => decodeOp25 w
  | 38 => decodeOp26 w
  | 39 => decodeOp27 w
  | 40 => decodeOp28 w
  | 41 => decodeOp29 w
  | 42 => decodeOp2A w
  | 43 => decodeOp2B w
  | 44 => decodeOp2C w
  | 45 => decodeOp2D w
  | _ => .error .unassignedOpcode

/-- The instruction of a word (R100, R101). -/
def decode (w w2 : BitVec 32) : Except DecodeError Instr :=
  match decodeFields w w2 with
  | .error e => .error e
  | .ok i => if i.wellFormed then .ok i else .error .badValue

/-- Whether the word is the prefix of an L-format pair, of 8 bytes (R97). -/
def isPair (w : BitVec 32) : Bool := w.extractLsb' 26 6 == 0x0E#6

/-- A word assembled from its fields, highest first. -/
abbrev word (w : BitVec 32) : BitVec 32 := w

/-- The words of an instruction, from the formats of R98 and the maps of R101 to R112. An event has no words. -/
def encode : Instr → List (BitVec 32)
  | .add d a b m => [word (1#6 ++ d ++ a ++ b ++ m ++ 0#6)]
  | .addN d a b m => [word (1#6 ++ d ++ a ++ b ++ m ++ 1#6)]
  | .sub d a b m => [word (1#6 ++ d ++ a ++ b ++ m ++ 2#6)]
  | .subN d a b m => [word (1#6 ++ d ++ a ++ b ++ m ++ 3#6)]
  | .mul d a b m => [word (1#6 ++ d ++ a ++ b ++ m ++ 4#6)]
  | .mulN d a b m => [word (1#6 ++ d ++ a ++ b ++ m ++ 5#6)]
  | .mulh d a b m => [word (1#6 ++ d ++ a ++ b ++ 0#1 ++ m ++ 6#6)]
  | .mulhN d a b m => [word (1#6 ++ d ++ a ++ b ++ 0#1 ++ m ++ 7#6)]
  | .div d a b m => [word (1#6 ++ d ++ a ++ b ++ 0#1 ++ m ++ 8#6)]
  | .divN d a b m => [word (1#6 ++ d ++ a ++ b ++ 0#1 ++ m ++ 9#6)]
  | .rem d a b m => [word (1#6 ++ d ++ a ++ b ++ 0#1 ++ m ++ 10#6)]
  | .remN d a b m => [word (1#6 ++ d ++ a ++ b ++ 0#1 ++ m ++ 11#6)]
  | .and d a b => [word (1#6 ++ d ++ a ++ b ++ 12#8)]
  | .or d a b => [word (1#6 ++ d ++ a ++ b ++ 13#8)]
  | .xor d a b => [word (1#6 ++ d ++ a ++ b ++ 14#8)]
  | .andn d a b => [word (1#6 ++ d ++ a ++ b ++ 15#8)]
  | .shl d a b m => [word (1#6 ++ d ++ a ++ b ++ m ++ 16#6)]
  | .shr d a b m => [word (1#6 ++ d ++ a ++ b ++ 0#1 ++ m ++ 17#6)]
  | .sha d a b m => [word (1#6 ++ d ++ a ++ b ++ 0#1 ++ m ++ 18#6)]
  | .ror d a b m => [word (1#6 ++ d ++ a ++ b ++ 0#1 ++ m ++ 19#6)]
  | .shlImm d a n m => [word (1#6 ++ d ++ a ++ n ++ m ++ 20#6)]
  | .shrImm d a n m => [word (1#6 ++ d ++ a ++ n ++ 0#1 ++ m ++ 21#6)]
  | .shaImm d a n m => [word (1#6 ++ d ++ a ++ n ++ 0#1 ++ m ++ 22#6)]
  | .rorImm d a n m => [word (1#6 ++ d ++ a ++ n ++ 0#1 ++ m ++ 23#6)]
  | .clz d a m => [word (1#6 ++ d ++ a ++ 0#6 ++ 0#1 ++ m ++ 24#6)]
  | .ctz d a m => [word (1#6 ++ d ++ a ++ 0#6 ++ 0#1 ++ m ++ 25#6)]
  | .popc d a m => [word (1#6 ++ d ++ a ++ 0#6 ++ 0#1 ++ m ++ 26#6)]
  | .brev d a m => [word (1#6 ++ d ++ a ++ 0#6 ++ 0#1 ++ m ++ 27#6)]
  | .bswp d a m => [word (1#6 ++ d ++ a ++ 0#6 ++ 0#1 ++ m ++ 28#6)]
  | .min d a b m => [word (1#6 ++ d ++ a ++ b ++ 0#1 ++ m ++ 29#6)]
  | .minN d a b m => [word (1#6 ++ d ++ a ++ b ++ 0#1 ++ m ++ 30#6)]
  | .max d a b m => [word (1#6 ++ d ++ a ++ b ++ 0#1 ++ m ++ 31#6)]
  | .maxN d a b m => [word (1#6 ++ d ++ a ++ b ++ 0#1 ++ m ++ 32#6)]
  | .sel d a b => [word (1#6 ++ d ++ a ++ b ++ 33#8)]
  | .shadd1 d a b m => [word (1#6 ++ d ++ a ++ b ++ 0#1 ++ m ++ 34#6)]
  | .shadd2 d a b m => [word (1#6 ++ d ++ a ++ b ++ 0#1 ++ m ++ 35#6)]
  | .shadd3 d a b m => [word (1#6 ++ d ++ a ++ b ++ 0#1 ++ m ++ 36#6)]
  | .shadd4 d a b m => [word (1#6 ++ d ++ a ++ b ++ 0#1 ++ m ++ 37#6)]
  | .cmpEq d a b m => [word (1#6 ++ d ++ a ++ b ++ 0#1 ++ m ++ 38#6)]
  | .cmpNe d a b m => [word (1#6 ++ d ++ a ++ b ++ 0#1 ++ m ++ 39#6)]
  | .cmpLt d a b m => [word (1#6 ++ d ++ a ++ b ++ 0#1 ++ m ++ 40#6)]
  | .cmpGe d a b m => [word (1#6 ++ d ++ a ++ b ++ 0#1 ++ m ++ 41#6)]
  | .cmpLtn d a b m => [word (1#6 ++ d ++ a ++ b ++ 0#1 ++ m ++ 42#6)]
  | .cmpGen d a b m => [word (1#6 ++ d ++ a ++ b ++ 0#1 ++ m ++ 43#6)]
  | .addImm d a i => [word (2#6 ++ d ++ a ++ i)]
  | .addWImm d a i => [word (3#6 ++ d ++ a ++ i)]
  | .mulImm d a i => [word (4#6 ++ d ++ a ++ i)]
  | .andImm d a i => [word (5#6 ++ d ++ a ++ i)]
  | .orImm d a i => [word (6#6 ++ d ++ a ++ i)]
  | .xorImm d a i => [word (7#6 ++ d ++ a ++ i)]
  | .bfx d a l p => [word (8#6 ++ d ++ a ++ 1#2 ++ l ++ p)]
  | .bfxN d a l p => [word (8#6 ++ d ++ a ++ 0#2 ++ l ++ p)]
  | .bfi d a l p => [word (9#6 ++ d ++ a ++ 0#2 ++ l ++ p)]
  | .hmix d a b s => [word (10#6 ++ d ++ a ++ b ++ 0#2 ++ s)]
  | .movi d i => [word (11#6 ++ d ++ i)]
  | .movhi d i => [word (12#6 ++ d ++ i)]
  | .addpc d i => [word (13#6 ++ d ++ i)]
  | .limm d i => [word (14#6 ++ d ++ 0#12 ++ 0#8), i]
  | .limmN d i => [word (14#6 ++ d ++ 0#12 ++ 1#8), i]
  | .bCond c a b o => [word (15#6 ++ c ++ a ++ b ++ o)]
  | .jmp i => [word (16#6 ++ i)]
  | .call i => [word (17#6 ++ i)]
  | .jr a => [word (18#6 ++ 0#6 ++ a ++ 0#6 ++ 0#8)]
  | .callr a => [word (18#6 ++ 0#6 ++ a ++ 0#6 ++ 1#8)]
  | .fadd d a b r p => [word (19#6 ++ d ++ a ++ b ++ r ++ p ++ 0#4)]
  | .fsub d a b r p => [word (19#6 ++ d ++ a ++ b ++ r ++ p ++ 1#4)]
  | .fmul d a b r p => [word (19#6 ++ d ++ a ++ b ++ r ++ p ++ 2#4)]
  | .fdiv d a b r p => [word (19#6 ++ d ++ a ++ b ++ r ++ p ++ 3#4)]
  | .fsqrt d a r p => [word (19#6 ++ d ++ a ++ 0#6 ++ r ++ p ++ 4#4)]
  | .fmaFma d a b r p => [word (19#6 ++ d ++ a ++ b ++ r ++ p ++ 5#4)]
  | .fmaFms d a b r p => [word (19#6 ++ d ++ a ++ b ++ r ++ p ++ 6#4)]
  | .fmaFnma d a b r p => [word (19#6 ++ d ++ a ++ b ++ r ++ p ++ 7#4)]
  | .fmin d a b p => [word (19#6 ++ d ++ a ++ b ++ 0#3 ++ p ++ 8#4)]
  | .fmax d a b p => [word (19#6 ++ d ++ a ++ b ++ 0#3 ++ p ++ 9#4)]
  | .fcmp d a b c p => [word (19#6 ++ d ++ a ++ b ++ c ++ p ++ 10#4)]
  | .fcls d a p => [word (19#6 ++ d ++ a ++ 0#6 ++ 0#3 ++ p ++ 11#4)]
  | .fmvCp d a p => [word (19#6 ++ d ++ a ++ 0#6 ++ 0#3 ++ p ++ 12#4)]
  | .fmvNeg d a p => [word (19#6 ++ d ++ a ++ 0#6 ++ 1#3 ++ p ++ 12#4)]
  | .fmvAbs d a p => [word (19#6 ++ d ++ a ++ 0#6 ++ 2#3 ++ p ++ 12#4)]
  | .fmvSgn d a b p => [word (19#6 ++ d ++ a ++ b ++ 3#3 ++ p ++ 12#4)]
  | .fcvt d a s r u t => [word (20#6 ++ d ++ a ++ 0#2 ++ s ++ r ++ u ++ t)]
  | .vadd d a b k => [word (21#6 ++ 0#2 ++ d ++ 0#2 ++ a ++ 0#2 ++ b ++ k ++ 0#5)]
  | .vsub d a b k => [word (21#6 ++ 0#2 ++ d ++ 0#2 ++ a ++ 0#2 ++ b ++ k ++ 1#5)]
  | .vmul d a b k => [word (21#6 ++ 0#2 ++ d ++ 0#2 ++ a ++ 0#2 ++ b ++ k ++ 2#5)]
  | .vmin d a b k => [word (21#6 ++ 0#2 ++ d ++ 0#2 ++ a ++ 0#2 ++ b ++ k ++ 3#5)]
  | .vminN d a b k => [word (21#6 ++ 0#2 ++ d ++ 0#2 ++ a ++ 0#2 ++ b ++ k ++ 4#5)]
  | .vmax d a b k => [word (21#6 ++ 0#2 ++ d ++ 0#2 ++ a ++ 0#2 ++ b ++ k ++ 5#5)]
  | .vmaxN d a b k => [word (21#6 ++ 0#2 ++ d ++ 0#2 ++ a ++ 0#2 ++ b ++ k ++ 6#5)]
  | .vlogAnd d a b k => [word (21#6 ++ 0#2 ++ d ++ 0#2 ++ a ++ 0#2 ++ b ++ k ++ 7#5)]
  | .vlogOr d a b k => [word (21#6 ++ 0#2 ++ d ++ 0#2 ++ a ++ 0#2 ++ b ++ k ++ 8#5)]
  | .vlogXor d a b k => [word (21#6 ++ 0#2 ++ d ++ 0#2 ++ a ++ 0#2 ++ b ++ k ++ 9#5)]
  | .vshShl d a b k => [word (21#6 ++ 0#2 ++ d ++ 0#2 ++ a ++ 0#2 ++ b ++ k ++ 10#5)]
  | .vshShr d a b k => [word (21#6 ++ 0#2 ++ d ++ 0#2 ++ a ++ 0#2 ++ b ++ k ++ 11#5)]
  | .vshSha d a b k => [word (21#6 ++ 0#2 ++ d ++ 0#2 ++ a ++ 0#2 ++ b ++ k ++ 12#5)]
  | .vaddSat d a b k => [word (21#6 ++ 0#2 ++ d ++ 0#2 ++ a ++ 0#2 ++ b ++ k ++ 13#5)]
  | .vaddNSat d a b k => [word (21#6 ++ 0#2 ++ d ++ 0#2 ++ a ++ 0#2 ++ b ++ k ++ 14#5)]
  | .vsubSat d a b k => [word (21#6 ++ 0#2 ++ d ++ 0#2 ++ a ++ 0#2 ++ b ++ k ++ 15#5)]
  | .vsubNSat d a b k => [word (21#6 ++ 0#2 ++ d ++ 0#2 ++ a ++ 0#2 ++ b ++ k ++ 16#5)]
  | .vredSum d a k => [word (21#6 ++ d ++ 0#2 ++ a ++ 0#6 ++ k ++ 17#5)]
  | .vredMax d a k => [word (21#6 ++ d ++ 0#2 ++ a ++ 0#6 ++ k ++ 18#5)]
  | .vredMin d a k => [word (21#6 ++ d ++ 0#2 ++ a ++ 0#6 ++ k ++ 19#5)]
  | .vscan d a k => [word (21#6 ++ 0#2 ++ d ++ 0#2 ++ a ++ 0#6 ++ k ++ 20#5)]
  | .vdot d a b k => [word (21#6 ++ d ++ 0#2 ++ a ++ 0#2 ++ b ++ k ++ 21#5)]
  | .vsel d a b k => [word (21#6 ++ 0#2 ++ d ++ 0#2 ++ a ++ 0#2 ++ b ++ k ++ 22#5)]
  | .vcmp d a b k c => [word (21#6 ++ 0#3 ++ d ++ 0#2 ++ a ++ 0#2 ++ b ++ k ++ 3#2 ++ c)]
  | .vaddS d a b k => [word (22#6 ++ 0#2 ++ d ++ 0#2 ++ a ++ 0#2 ++ b ++ k ++ 0#5)]
  | .vsubS d a b k => [word (22#6 ++ 0#2 ++ d ++ 0#2 ++ a ++ 0#2 ++ b ++ k ++ 1#5)]
  | .vmulS d a b k => [word (22#6 ++ 0#2 ++ d ++ 0#2 ++ a ++ 0#2 ++ b ++ k ++ 2#5)]
  | .vfmaS d a b k => [word (22#6 ++ 0#2 ++ d ++ 0#2 ++ a ++ 0#2 ++ b ++ k ++ 3#5)]
  | .vminS d a b k => [word (22#6 ++ 0#2 ++ d ++ 0#2 ++ a ++ 0#2 ++ b ++ k ++ 4#5)]
  | .vmaxS d a b k => [word (22#6 ++ 0#2 ++ d ++ 0#2 ++ a ++ 0#2 ++ b ++ k ++ 5#5)]
  | .vredSumS d a k => [word (22#6 ++ d ++ 0#2 ++ a ++ 0#6 ++ k ++ 6#5)]
  | .vredMaxS d a k => [word (22#6 ++ d ++ 0#2 ++ a ++ 0#6 ++ k ++ 7#5)]
  | .vredMinS d a k => [word (22#6 ++ d ++ 0#2 ++ a ++ 0#6 ++ k ++ 8#5)]
  | .vscanS d a k => [word (22#6 ++ 0#2 ++ d ++ 0#2 ++ a ++ 0#6 ++ k ++ 9#5)]
  | .vdotS d a b k => [word (22#6 ++ d ++ 0#2 ++ a ++ 0#2 ++ b ++ k ++ 10#5)]
  | .vsfuRcp d a k => [word (22#6 ++ 0#2 ++ d ++ 0#2 ++ a ++ 0#6 ++ k ++ 11#5)]
  | .vsfuRsq d a k => [word (22#6 ++ 0#2 ++ d ++ 0#2 ++ a ++ 0#6 ++ k ++ 12#5)]
  | .vsfuEx2 d a k => [word (22#6 ++ 0#2 ++ d ++ 0#2 ++ a ++ 0#6 ++ k ++ 13#5)]
  | .vsfuLg2 d a k => [word (22#6 ++ 0#2 ++ d ++ 0#2 ++ a ++ 0#6 ++ k ++ 14#5)]
  | .vsfuTnh d a k => [word (22#6 ++ 0#2 ++ d ++ 0#2 ++ a ++ 0#6 ++ k ++ 15#5)]
  | .vcmpS d a b k c => [word (22#6 ++ 0#3 ++ d ++ 0#2 ++ a ++ 0#2 ++ b ++ k ++ 2#2 ++ c)]
  | .vperm d a b k => [word (23#6 ++ 0#2 ++ d ++ 0#2 ++ a ++ 0#2 ++ b ++ k ++ 0#5)]
  | .vsplat d a k => [word (23#6 ++ 0#2 ++ d ++ a ++ 0#6 ++ k ++ 1#5)]
  | .vget d a b => [word (23#6 ++ d ++ 0#2 ++ a ++ b ++ 2#8)]
  | .vins d a b => [word (23#6 ++ 0#2 ++ d ++ a ++ b ++ 3#8)]
  | .vcmpr d a k => [word (23#6 ++ 0#2 ++ d ++ 0#2 ++ a ++ 0#6 ++ k ++ 4#5)]
  | .vexpd d a k => [word (23#6 ++ 0#2 ++ d ++ 0#2 ++ a ++ 0#6 ++ k ++ 5#5)]
  | .vdec d a j k => [word (23#6 ++ 0#2 ++ d ++ 0#2 ++ a ++ 0#4 ++ j ++ k ++ 6#5)]
  | .venc d a j k => [word (23#6 ++ 0#2 ++ d ++ 0#2 ++ a ++ 0#4 ++ j ++ k ++ 7#5)]
  | .tblw a b => [word (23#6 ++ 0#6 ++ a ++ b ++ 8#8)]
  | .tblr d a => [word (23#6 ++ d ++ a ++ 0#6 ++ 9#8)]
  | .kopAnd d a b => [word (23#6 ++ 0#3 ++ d ++ 0#3 ++ a ++ 0#3 ++ b ++ 10#8)]
  | .kopOr d a b => [word (23#6 ++ 0#3 ++ d ++ 0#3 ++ a ++ 0#3 ++ b ++ 11#8)]
  | .kopXor d a b => [word (23#6 ++ 0#3 ++ d ++ 0#3 ++ a ++ 0#3 ++ b ++ 12#8)]
  | .kopAndn d a b => [word (23#6 ++ 0#3 ++ d ++ 0#3 ++ a ++ 0#3 ++ b ++ 13#8)]
  | .kopSet d a => [word (23#6 ++ 0#3 ++ d ++ a ++ 0#6 ++ 14#8)]
  | .kopGet d a => [word (23#6 ++ d ++ 0#3 ++ a ++ 0#6 ++ 15#8)]
  | .kcnt d a => [word (23#6 ++ d ++ 0#3 ++ a ++ 0#6 ++ 16#8)]
  | .gang => [word (23#6 ++ 0#6 ++ 0#6 ++ 0#6 ++ 17#8)]
  | .split => [word (23#6 ++ 0#6 ++ 0#6 ++ 0#6 ++ 18#8)]
  | .vcvt d a s t k u r => [word (24#6 ++ 0#2 ++ d ++ 0#2 ++ a ++ s ++ t ++ k ++ 0#1 ++ u ++ r)]
  | .ld d a w n o => [word (25#6 ++ d ++ a ++ w ++ n ++ o)]
  | .st s a w o => [word (26#6 ++ s ++ a ++ w ++ 0#1 ++ o)]
  | .vld d a w n o => [word (27#6 ++ 0#2 ++ d ++ a ++ w ++ n ++ o)]
  | .vst s a w o => [word (28#6 ++ 0#2 ++ s ++ a ++ w ++ 0#1 ++ o)]
  | .ldx d a b n w => [word (29#6 ++ d ++ a ++ b ++ 0#5 ++ n ++ w)]
  | .stx s a b w => [word (29#6 ++ s ++ a ++ b ++ 16#6 ++ w)]
  | .ldAcq d a s n w => [word (29#6 ++ d ++ a ++ 0#6 ++ 2#2 ++ s ++ n ++ w)]
  | .stRel s a scope w => [word (29#6 ++ s ++ a ++ 0#6 ++ 3#2 ++ scope ++ 0#1 ++ w)]
  | .vlds d a b k n w => [word (30#6 ++ 0#2 ++ d ++ a ++ b ++ k ++ 0#2 ++ n ++ w)]
  | .vsts s a b k w => [word (30#6 ++ 0#2 ++ s ++ a ++ b ++ k ++ 2#3 ++ w)]
  | .vgth d a b k n w => [word (30#6 ++ 0#2 ++ d ++ a ++ 0#2 ++ b ++ k ++ 2#2 ++ n ++ w)]
  | .vsct s a b k w => [word (30#6 ++ 0#2 ++ s ++ a ++ 0#2 ++ b ++ k ++ 6#3 ++ w)]
  | .pref a => [word (31#6 ++ 0#6 ++ a ++ 0#6 ++ 0#8)]
  | .fence s m => [word (31#6 ++ 0#6 ++ 0#6 ++ 0#3 ++ s ++ m ++ 1#4)]
  | .cwb a => [word (31#6 ++ 0#6 ++ a ++ 0#6 ++ 2#8)]
  | .cinv a => [word (31#6 ++ 0#6 ++ a ++ 0#6 ++ 3#8)]
  | .amoAdd d a b s w => [word (32#6 ++ d ++ a ++ b ++ s ++ w ++ 0#4)]
  | .amoAnd d a b s w => [word (32#6 ++ d ++ a ++ b ++ s ++ w ++ 1#4)]
  | .amoOr d a b s w => [word (32#6 ++ d ++ a ++ b ++ s ++ w ++ 2#4)]
  | .amoXor d a b s w => [word (32#6 ++ d ++ a ++ b ++ s ++ w ++ 3#4)]
  | .amoMin d a b s w => [word (32#6 ++ d ++ a ++ b ++ s ++ w ++ 4#4)]
  | .amoMax d a b s w => [word (32#6 ++ d ++ a ++ b ++ s ++ w ++ 5#4)]
  | .amoMinn d a b s w => [word (32#6 ++ d ++ a ++ b ++ s ++ w ++ 6#4)]
  | .amoMaxn d a b s w => [word (32#6 ++ d ++ a ++ b ++ s ++ w ++ 7#4)]
  | .amoSwp d a b s w => [word (32#6 ++ d ++ a ++ b ++ s ++ w ++ 8#4)]
  | .amoFadd d a b s w => [word (32#6 ++ d ++ a ++ b ++ s ++ w ++ 9#4)]
  | .acas d a b s w => [word (33#6 ++ d ++ a ++ b ++ s ++ w ++ 0#4)]
  | .ldfe d a o => [word (34#6 ++ d ++ a ++ 0#3 ++ o)]
  | .ldff d a o => [word (34#6 ++ d ++ a ++ 2#3 ++ o)]
  | .stef s a o => [word (34#6 ++ s ++ a ++ 4#3 ++ o)]
  | .stff s a o => [word (34#6 ++ s ++ a ++ 6#3 ++ o)]
  | .feget d a => [word (35#6 ++ d ++ a ++ 0#6 ++ 0#8)]
  | .fesetEmpty a => [word (35#6 ++ 0#6 ++ a ++ 0#6 ++ 1#8)]
  | .fesetFull a => [word (35#6 ++ 0#6 ++ a ++ 0#6 ++ 2#8)]
  | .send a b => [word (36#6 ++ 0#6 ++ a ++ b ++ 0#8)]
  | .sendv a b => [word (36#6 ++ 0#6 ++ a ++ 0#2 ++ b ++ 1#8)]
  | .recvG d q b => [word (36#6 ++ d ++ 0#4 ++ q ++ b ++ 2#8)]
  | .recvV d q b => [word (36#6 ++ 0#2 ++ d ++ 0#4 ++ q ++ b ++ 3#8)]
  | .qpoll d q => [word (36#6 ++ d ++ 0#4 ++ q ++ 0#6 ++ 4#8)]
  | .qbind q a n => [word (36#6 ++ 0#4 ++ q ++ a ++ n ++ 5#8)]
  | .qfree q => [word (36#6 ++ 0#4 ++ q ++ 0#6 ++ 0#6 ++ 6#8)]
  | .cpy d a b x => [word (37#6 ++ d ++ a ++ b ++ 0#2 ++ x)]
  | .cpy2 d a b x => [word (37#6 ++ d ++ a ++ b ++ 1#2 ++ x)]
  | .bwait a => [word (37#6 ++ 0#6 ++ a ++ 0#6 ++ 128#8)]
  | .serve d a h n => [word (38#6 ++ d ++ a ++ 0#2 ++ h ++ n)]
  | .frld d a b => [word (39#6 ++ d ++ a ++ b ++ 0#8)]
  | .frbind d a b => [word (39#6 ++ d ++ a ++ b ++ 1#8)]
  | .frgo a => [word (39#6 ++ 0#6 ++ a ++ 0#6 ++ 2#8)]
  | .frbar a => [word (39#6 ++ 0#6 ++ a ++ 0#6 ++ 3#8)]
  | .frwait a => [word (39#6 ++ 0#6 ++ a ++ 0#6 ++ 4#8)]
  | .argw d a b => [word (39#6 ++ d ++ a ++ b ++ 5#8)]
  | .spawnCore a b => [word (40#6 ++ 0#6 ++ a ++ b ++ 0#8)]
  | .spawnCluster a b => [word (40#6 ++ 0#6 ++ a ++ b ++ 1#8)]
  | .spawnNamed d a b => [word (40#6 ++ d ++ a ++ b ++ 2#8)]
  | .spawnDie a b => [word (40#6 ++ 0#6 ++ a ++ b ++ 3#8)]
  | .exit => [word (40#6 ++ 0#6 ++ 0#6 ++ 0#6 ++ 16#8)]
  | .yield => [word (40#6 ++ 0#6 ++ 0#6 ++ 0#6 ++ 32#8)]
  | .twait a => [word (40#6 ++ 0#6 ++ a ++ 0#6 ++ 48#8)]
  | .csus a b => [word (41#6 ++ 0#6 ++ a ++ b ++ 0#8)]
  | .cfrc a => [word (41#6 ++ 0#6 ++ a ++ 0#6 ++ 1#8)]
  | .cfil n a b => [word (41#6 ++ n ++ a ++ b ++ 2#8)]
  | .ccan a => [word (41#6 ++ 0#6 ++ a ++ 0#6 ++ 3#8)]
  | .ccanP a => [word (41#6 ++ 0#6 ++ a ++ 0#6 ++ 4#8)]
  | .ctag d a => [word (41#6 ++ d ++ a ++ 0#6 ++ 5#8)]
  | .trap c => [word (42#6 ++ 0#6 ++ 0#6 ++ c ++ 0#8)]
  | .eret => [word (42#6 ++ 0#6 ++ 0#6 ++ 0#6 ++ 1#8)]
  | .brk => [word (42#6 ++ 0#6 ++ 0#6 ++ 0#6 ++ 2#8)]
  | .halt => [word (42#6 ++ 0#6 ++ 0#6 ++ 0#6 ++ 3#8)]
  | .ctlr d i => [word (43#6 ++ d ++ 0#6 ++ 0#2 ++ i)]
  | .ctlw a i => [word (44#6 ++ 0#6 ++ a ++ 0#2 ++ i)]
  | .tlbiPage a s => [word (45#6 ++ 0#6 ++ a ++ 0#3 ++ s ++ 0#8)]
  | .tlbiAsid a s => [word (45#6 ++ 0#6 ++ a ++ 0#3 ++ s ++ 1#8)]
  | .tlbiPart s => [word (45#6 ++ 0#6 ++ 0#6 ++ 0#3 ++ s ++ 2#8)]
  | .resultLands _ => []
  | .strandWake _ => []
  | .fewaitExpiry _ => []
  | .twaitDeadline _ => []
  | .celltmoExpiry _ => []
  | .mpCellWaitExpiry _ _ _ => []
  | .deferredTrap _ => []
  | .strandPlacement _ _ => []
  | .victimPreempt _ => []
  | .strandSave _ => []
  | .copyBurst _ => []
  | .copyRingWordWrite _ => []
  | .messageDelivery _ => []
  | .serveInject _ => []
  | .servedExit _ => []
  | .serveResultArrival _ => []
  | .frondDecision _ _ => []
  | .residencyPlacement _ _ => []
  | .residencyMigration _ _ _ _ => []
  | .planePrefetch _ => []
  | .planeEntry _ => []
  | .argwDelivery _ => []
  | .creditReturn _ _ => []
  | .ceFire _ _ _ => []
  | .ceGeneratorFire _ _ _ => []
  | .ceStopStep _ _ _ => []
  | .roundBoundary _ _ _ => []
  | .elementDone _ _ _ => []
  | .agAffFire _ _ => []
  | .agIndFire _ _ => []
  | .mpLdsFire _ _ => []
  | .mpStsFire _ _ => []
  | .mpAmsFire _ _ => []
  | .mpSpillComplete _ _ _ => []
  | .windowCommit _ => []
  | .residencyDrained _ _ _ => []
  | .feScanFire _ _ _ => []
  | .feIsectFire _ _ _ => []
  | .feUnionFire _ _ _ => []
  | .feReptFire _ _ _ => []
  | .feReduFire _ _ _ => []
  | .feFiltFire _ _ _ => []
  | .feExpdFire _ _ _ => []
  | .feJoinFire _ _ _ => []
  | .feLvlwFire _ _ _ => []
  | .feCdropFire _ _ _ => []
  | .meBufWrite _ _ _ => []
  | .meBufPass _ _ _ => []
  | .meFifoFire _ _ _ => []
  | .meRmwFire _ _ _ => []
  | .meRmwUpdateWrite _ _ _ => []
  | .meLutFire _ _ _ => []
  | .meStashAppend _ _ _ => []
  | .meStashReplay _ _ _ => []
  | .xeMmbFire _ _ => []
  | .xeMmnFire _ _ => []
  | .xeBldFire _ _ => []
  | .xeDrnFire _ _ => []
  | .fabricFaultFreeze _ _ _ => []
  | .rstall _ => []
  | .residencySaveRequest _ _ _ => []
  | .boundarySave _ _ _ => []
  | .boundarySaveTimeout _ _ _ => []
  | .freezeSave _ _ _ => []
  | .evalRequestRelease _ _ => []
  | .evalPacketResult _ => []
  | .walkComplete _ _ => []
  | .tlbiComplete _ => []
  | .pageFaultMessage _ => []
  | .pagerReplyDescent _ => []
  | .remoteAccessArrival _ _ _ _ _ _ _ _ _ => []
  | .remoteResponse _ _ _ => []
  | .remoteStoreAck _ => []
  | .requestTimeout _ => []
  | .laneFailure _ => []
  | .circuitOpen _ _ => []
  | .circuitTokenArrival _ _ _ _ _ _ => []
  | .launchMessage _ _ _ => []
  | .launchAdmission _ => []
  | .launchComplete _ _ => []
  | .statusRead _ => []
  | .eqheadWrite _ _ => []
  | .eventQueueAppend _ => []
  | .msixTableWrite _ _ _ => []
  | .registerWrite _ _ _ => []
  | .hostDmaRead _ _ _ _ => []
  | .hostDmaWrite _ _ _ _ => []
  | .unsupportedRequest _ => []
  | .functionLevelReset _ => []
  | .ideStreamLoss _ => []
  | .lockInterfaceRequest _ _ => []
  | .startInterfaceRequest _ _ => []
  | .stopInterfaceRequest _ _ => []
  | .getVersion => []
  | .getCapabilities => []
  | .negotiateAlgorithms => []
  | .getDigests => []
  | .getCertificate _ => []
  | .challenge _ _ => []
  | .getMeasurements _ _ => []
  | .keyExchange _ => []
  | .finish _ => []
  | .keyUpdate _ => []
  | .heartbeat _ => []
  | .endSession _ => []
  | .partSet _ => []
  | .partClear _ => []
  | .debugInstall _ => []
  | .debugCmd _ => []
  | .budgetSet _ => []
  | .budgetGet _ => []
  | .peerSet _ => []
  | .strandResume _ => []
  | .strandKill _ => []
  | .pagerSet _ => []
  | .graphLoad _ => []
  | .graphUnload _ => []
  | .features _ => []
  | .subscribe _ => []
  | .periodBoundary => []
  | .arbiterInterval _ _ _ => []
  | .slackWindow _ => []
  | .slackPeerReport _ _ _ => []
  | .droopDetection _ _ _ => []
  | .droopFreezeEnd _ _ => []
  | .rowTempSample _ _ _ _ _ => []
  | .dramScrub _ _ _ => []
  | .registerParityError _ => []
  | .clusterMapOut _ _ => []
  | .clusterHardFailure _ _ => []
  | .coldReset => []
  | .firmwareVerify _ _ _ _ => []
  | .dieTraining _ _ _ => []
  | .fullService => []
  | .fullServiceNotchStep => []
  | .illegalInstruction _ _ => []
  | .instructionFetch _ => []
  | .managementCommandOpcode _ => []
  | .ideKeyManagement _ => []
  | .peerBindingRequest _ _ _ _ => []
  | .peerBindingEnd _ _ _ => []
  | .circuitOtherEndLost _ _ => []

/-- The four bytes of a word, little-endian (R5, R97). -/
def wordBytes (w : BitVec 32) : List Byte :=
  [w.extractLsb' 0 8, w.extractLsb' 8 8, w.extractLsb' 16 8, w.extractLsb' 24 8]

/-- The word of four bytes, little-endian. -/
def bytesWord : List Byte → BitVec 32
  | b0 :: b1 :: b2 :: b3 :: _ => word (b3 ++ b2 ++ b1 ++ b0)
  | _ => 0#32

/-- Decoding from bytes as they stand in memory: the first word, and the word after it. -/
def decodeBytes (bs : List Byte) : Except DecodeError Instr :=
  decode (bytesWord (bs.take 4)) (bytesWord ((bs.drop 4).take 4))

/-- The bytes of an instruction of which the opcode table gives `nbits` bits of value `w`; eight bytes, the
bits above `nbits` zero. -/
def tableBytes (nbits w : Nat) : List Byte :=
  let x := w % 2 ^ nbits
  wordBytes (BitVec.ofNat 32 x) ++ wordBytes (BitVec.ofNat 32 (x / 2 ^ 32))

/-- What the decoder reads from an opcode-table word. -/
def decodeTableWord (nbits w : Nat) : Option Instr :=
  match decodeBytes (tableBytes nbits w) with
  | .ok i => some i
  | .error _ => none

end Sys2Proof
end

