-- ==== Sys2Proof/Machine/State.lean ====
section
/-! DEFINITION. The state of the module as plain data, the reasons a step can stop, and the state after reset. -/
namespace Sys2Proof.Machine

/-! ## Strands -/

/-- The states of a strand (R13); `absent` is the model's name for "no strand". -/
inductive StrandState where
  | absent | queued | active | parked | frozen | saved | retired
deriving DecidableEq, Repr, Inhabited

/-- Park reasons (R16). `stopped` is reason 0, after a double trap or HALT. -/
inductive Reason where
  | stopped | serve | fe | qrecv | qsend | cell | page | bwait | frwait | time | gang
deriving DecidableEq, Repr, Inhabited

/-- To what a strand belongs (R22): a launch (die and launch number), its partition's
eclosion context, or its partition's paging context. -/
inductive Context where
  | launch (die lid : Nat) | evaluator | pager
deriving DecidableEq, Repr, Inhabited

/-- The control registers of a strand that it carries with it (R37, R95), STAT by its fields. -/
structure Ctl where
  /-- STAT.MODE is S. -/
  sMode    : Bool := false
  itr      : Bool := false
  pmode    : Bool := false
  ganged   : Bool := false
  glead    : Bool := false
  split    : Bool := false
  parkCode : BitVec 4 := 0#4
  frm      : BitVec 3 := 0#3
  fflags   : BitVec 5 := 0#5
  tblnan   : BitVec 15 := 0x7E7F#15
  felim    : Word := 0x01000000#64
  tvec     : Word := 0#64
  tpc      : Word := 0#64
  tcause   : Word := 0#64
  tinfo0   : Word := 0#64
  tinfo1   : Word := 0#64
  tinfo2   : Word := 0#64
  tinfo3   : Word := 0#64
  asid     : BitVec 9 := 0#9
  ptb      : Word := 0#64
  spbase   : Word := 0#64
  splim    : Word := 0#64
  swbase   : Word := 0#64
  swlim    : Word := 0#64
deriving DecidableEq, Repr, Inhabited

/-- Where a strand is and what it belongs to. `uid` is the model's own name for the strand. -/
structure StrandId where
  uid       : Nat := 0
  ctx       : Context := .launch 0 0
  part      : Nat := 0
  sid       : Option (BitVec 16) := none
  die       : Nat := 0
  cluster   : Nat := 0
  core      : Nat := 0
  slot      : Nat := 0
  /-- Core-bound by placement 0 (R23). -/
  coreBound : Bool := false
  /-- Core-bound by an outstanding copy that uses TCM (R394). -/
  copyBound : Bool := false
  /-- Core cycle at which the strand joined its spawn queue, and the one at which it entered its slot. -/
  queuedAt  : Nat := 0
  enteredAt : Nat := 0
  /-- Order of joining the spawn queue (R24, R384), and of entering the slot (R46). -/
  order     : Nat := 0
  entryNo   : Nat := 0
deriving DecidableEq, Repr, Inhabited

/-- A message of q0 (R62): sender, width (64 bytes when `wide`), payload, sequence. -/
structure Msg where
  sender  : BitVec 16
  wide    : Bool
  payload : BitVec 512
  seqNo   : Nat := 0
deriving DecidableEq, Repr

/-- A stream ring (R61, R165): base address, physical location of word 0, `2^n` words, head, copy tail. -/
structure Ring where
  base : Word
  loc  : Nat
  n    : Nat
  head : Nat
  tail : Nat
deriving DecidableEq, Repr

/-- q0 to q3 of a strand (R61, R62), with the declared q0 occupancy (R118). -/
structure Queues where
  q0    : List Msg := []
  q0max : Nat := 0
  /-- Sequence of the next message. -/
  q0seq : Nat := 0
  q1    : Option Ring := none
  q2    : Option Ring := none
  q3    : Option Ring := none
deriving DecidableEq, Repr, Inhabited

/-- The check of R305 while it waits for another module to read a link: the request, the cell of the link, the links found so far
(cell and CHAIN, in order), and in *Verify* (R306) how many links are still to be read again before that one. -/
structure Chase where
  rq   : Nat
  pa   : Nat
  path : List (Nat × Nat)
  back : Option Nat
deriving DecidableEq, Repr

/-- A park (R16): reason, operand, core cycle of its start, whether its served packet was injected,
and whether the condition has become true (the wake of R39 is on its way). -/
structure Park where
  reason   : Reason := .stopped
  operand  : Word := 0#64
  since    : Nat := 0
  injected : Bool := false
  woken    : Bool := false
  /-- The word for which the strand is registered (R158): its location and whether it waits for FULL. -/
  loc      : Nat := 0
  wantFull : Bool := true
  /-- The lane of the access that waits (R146). -/
  lane     : Nat := 0
  /-- The request by which it waits at a cell of another module (R294), with CHAIN of that cell's record. -/
  far      : Option (Nat × Nat) := none
  /-- The check for self-dependence that is under way (R305). -/
  chase    : Option Chase := none
  /-- Reason code and operand of the park in force when a SAVED strand was stopped by the PF (R375, R396). -/
  under    : Option (Nat × Word) := none
deriving DecidableEq, Repr, Inhabited

/-- A register that awaits the result of an earlier instruction (R14, R122). -/
inductive BusyMark where
  | g (r : BitVec 6) | v (r : BitVec 4) | k (r : BitVec 3) | flags
deriving DecidableEq, Repr

/-- A deferred trap (R333, R334): a bounced copy with the record of R336, or a residency's fault with
the record of R339. `who` is the copy's number or the residency entry. -/
structure Deferred where
  isCopy : Bool
  who    : Nat
  tcause : Word
  tinfo0 : Word
  tinfo1 : Word
  tinfo2 : Word
  tinfo3 : Word
deriving DecidableEq, Repr

/-- An answer that another module has given to the strand's access: operation code, lane, physical address, data. -/
structure Answer where
  op   : Nat
  lane : Nat
  pa   : Nat
  data : Word
deriving DecidableEq, Repr

/-- Why the access at a strand's pc does not enter its home slice yet (R14): the partition's DRAM budget on a die (R393),
the link budget or a held line of another module's physical address (R393, R463), bytes in the outbound buffer that it
meets (R313, R318), or remote stores requested before a number that its release covers (R318, R441). -/
inductive Hold where
  | slice (die : Nat) | link (pa : Nat) | buffer (pa n : Nat) | acks (before : Nat)
deriving DecidableEq, Repr

/-- Everything a strand waits for without being parked (R14), and what it has in flight. -/
structure Waits where
  /-- Registers awaiting results, oldest first, one list per instruction in flight. -/
  busy      : List (List BusyMark) := []
  /-- Its instruction fetch has missed. -/
  fetchMiss : Bool := false
  /-- It has issued a TLBI that has not completed: scope, form (0 page, 1 ASID, 2 partition), operand. -/
  tlbi      : Option (Nat × Nat × Word) := none
  /-- The request number of a remote access it waits for. -/
  remote    : Option Nat := none
  /-- Answers that its access has had from other modules so far. -/
  answers   : List Answer := []
  /-- Words of the instruction at its pc fetched from another module: physical address and word (R53). -/
  fetched   : List (Nat × Word) := []
  /-- What its access waits for before it enters a home slice. -/
  holds     : List Hold := []
  /-- A save of the strand has been requested and is made at its next boundary (R29, R385). -/
  saving    : Bool := false
  /-- A SEND that waits for the recipient's cluster: recipient and message (R162). -/
  sending   : Option (BitVec 16 × Msg) := none
  /-- Pending deferred traps, oldest first (R334). -/
  deferred  : List Deferred := []
deriving DecidableEq, Repr, Inhabited

/-- A strand (R13, R94, R95). -/
structure Strand where
  id    : StrandId := {}
  st    : StrandState := .absent
  pc    : Word := 0#64
  g     : Vector Word 64 := Vector.replicate 64 0#64
  v     : Vector (Vector Lane 16) 16 := Vector.replicate 16 (Vector.replicate 16 0#32)
  k     : Vector (BitVec 16) 8 := Vector.replicate 8 0#16
  ctl   : Ctl := {}
  q     : Queues := {}
  park  : Park := {}
  waits : Waits := {}
deriving DecidableEq, Repr, Inhabited

/-! ## Cores -/

/-- A K8 decode table: 256 W19 patterns (R78, R83). -/
abbrev Table := Vector (BitVec 32) 256

/-- A core (R10, R19): the slot that issued last and the cycle in which it did, the follower slot whose reserved cycle
is next, its K8 table (none: E4M3, R83), and the partition that last held it (R11). -/
structure Core where
  die        : Nat
  cluster    : Nat
  core       : Nat
  last       : Nat := 7
  lastAt     : Option Nat := none
  second     : Option Nat := none
  table      : Option Table := none
  lastPart   : Option Nat := none
  /-- Slots that a victim has left for the entry for which it was saved: slot and strand (R385). -/
  kept       : List (Nat × Nat) := []
deriving DecidableEq, Repr

/-! ## Memory, tags and translation -/

/-- Cell tags (R60). -/
inductive Tag where
  | value | chrysalis | eclosing | poison
deriving DecidableEq, Repr, Inhabited

/-- A TLB (R406). -/
inductive TlbHolder where
  | l1 (die cluster core : Nat) | l2 (die cluster : Nat) | engine (die k : Nat)
deriving DecidableEq, Repr

/-- A TLB entry (R406, R410). `asid` is none when G was set. `pin` names the region and row of the MP
that pinned it. -/
structure TlbEntry where
  holder : TlbHolder
  part   : Nat
  asid   : Option Nat
  vbase  : Nat
  size   : Nat
  pbase  : Nat
  r      : Bool
  w      : Bool
  x      : Bool
  u      : Bool
  c      : Bool
  key    : Nat
  pin    : Option (Nat × Nat) := none
  stale  : Bool := false
deriving DecidableEq, Repr

/-- Under whose identity and from where an access is made (R65, R66). -/
structure Site where
  part    : Nat := 0
  ctx     : Context := .launch 0 0
  die     : Nat := 0
  cluster : Nat := 0
  core    : Nat := 0
  sMode   : Bool := false
  asid    : Nat := 0
  ptb     : Word := 0#64
  tvec    : Word := 0#64
  spbase  : Nat := 0
  splim   : Nat := 0
  swbase  : Nat := 0
  swlim   : Nat := 0
deriving DecidableEq, Repr, Inhabited

/-! ## Copies -/

/-- A copy in progress (R167 to R169). For a CPY, `rowLen` is the length, `rows` is 1 and the strides are 0. -/
structure Copy where
  cid     : Nat
  uid     : Nat
  /-- The die's copy engine that performs it, 0 to 7 (R2, R168). -/
  engine  : Nat := 0
  site    : Site
  is2     : Bool
  /-- Start of the current row at the source and the destination. -/
  src     : Word
  dst     : Word
  rowLen  : Nat
  /-- Bytes of the current row that have been delivered. -/
  off     : Nat
  /-- Rows that remain, the current one included. -/
  rows    : Nat
  sstride : Word
  dstride : Word
  /-- Barrier: its address as named, and its location. -/
  bar     : Option (Word × Nat)
  /-- Ring copy: register, location of word 0, `n`, whether it still waits for EMPTY words, and its tail once it does not. -/
  ring    : Option (Nat × Nat × Nat × Bool × Nat)
  /-- Bytes after which the next burst ends, since a cell that another module has refused lies there (R169, R309); 0 for none. -/
  cut     : Nat := 0
  /-- Bytes of the burst whose writes to another module have not all been acknowledged (R441). -/
  sent    : Nat := 0
  /-- Lines of a source on another module that have arrived for the next burst. -/
  answers : List (Nat × BitVec 512) := []
  /-- Bytes of the burst that have been read and not been written yet. -/
  bytes   : List Byte := []
  /-- Quiesced by a save of its strand (R394). -/
  quiesced : Bool := false
  /-- Bounced (R169), and whether its destination's side was at fault (R396). -/
  bounced : Bool := false
  dstSide : Bool := false
deriving DecidableEq, Repr

/-! ## Graphs, kernels and images -/

/-- Region shapes (R194). -/
inductive Shape where
  | whole | half | quarter
deriving DecidableEq, Repr, Inhabited

/-- Kinds of an image (R467). -/
inductive ImageKind where
  | broad | narrow | either
deriving DecidableEq, Repr, Inhabited

/-- A bound server of a kernel (R422): frond index, arguments, results. -/
structure Server where
  frond : Nat
  args  : Nat
  res   : Nat
deriving DecidableEq, Repr

/-- A kernel record (R422). -/
structure Kernel where
  entry   : Word
  roots   : Nat
  max     : Nat
  onDie   : Bool
  cluster : Nat
  q0      : Nat
  cells   : Nat
  whole   : Nat
  half    : Nat
  quarter : Nat
  servers : List (Option Server)
deriving DecidableEq, Repr

/-- A frame of an image (R219, R421): address, may-alias class, 256 bits. -/
structure Frame where
  addr   : BitVec 32
  aclass : Nat
  bits   : BitVec 256
deriving DecidableEq, Repr

/-- An edge record of an image (R421). -/
structure Edge where
  plane : Nat
  prow  : Nat
  pcol  : Nat
  pport : Nat
  crow  : Nat
  ccol  : Nat
  cport : Nat
  depth : Nat
  cls1  : Bool
deriving DecidableEq, Repr

/-- A loaded frond image (R421, R429, R467). -/
structure Image where
  served  : Bool
  shape   : Shape
  nplanes : Nat
  args    : Nat
  res     : Nat
  frames  : List Frame
  edges   : List Edge
  kind    : ImageKind
  indep   : Bool
  replay  : Word
  /-- The SW frames that route its arcs (R239). -/
  switches : List Frame := []
deriving DecidableEq, Repr

/-- An entry of a partition's graph table (R427, R428), with the cache key of its container (R431) and the virtual
base and length of the cache window (R432). -/
structure Graph where
  part    : Nat
  slot    : Nat
  gen     : Nat
  loaded  : Bool
  key     : BitVec 256
  window  : Word
  wlen    : Nat
  images  : List Image
  kernels : List Kernel
deriving DecidableEq, Repr

/-- A live launch (R378, R380). -/
structure Launch where
  die     : Nat
  lid     : Nat
  part    : Nat
  tag     : Nat
  vec     : Nat
  graph   : Nat
  kernel  : Kernel
  asid    : Nat
  ptb     : Word
  tvec    : Word
  drops   : Nat
  lost    : Nat
deriving DecidableEq, Repr

/-! ## The fabric -/

/-- A token (R200, R201): kind 0 to 15, payload, parity, tag. Scalar payloads stand in bits 63..0. -/
structure Token where
  kind    : Nat
  payload : BitVec 512
  par     : Bool
  tag     : Nat
deriving DecidableEq, Repr

/-- An arc of a region (R197): the image's edge, its tokens oldest first, the slots whose credit is on
its way back. A row-lane arc that several CEs of one row share stands once for each of them, with the same tokens; `share`
is then the column of the CE that the image names, and `taken` says that this CE has consumed its slice of the head, which
leaves its slot when every one of them has (R196). -/
structure Arc where
  edge     : Edge
  queue    : List Token
  inReturn : Nat
  share    : Option Nat := none
  taken    : Bool := false
deriving DecidableEq, Repr

/-- A token that an element still has to place: output mask (n, e, s, w, north row, south row) and token. -/
structure Emit where
  mask : Nat
  tok  : Token
deriving DecidableEq, Repr

/-- State of a CE (R225 to R229). Constants are `none` while the frame's own value holds. -/
structure CEState where
  f0    : Word := 0#64
  f1    : Word := 0#64
  f2    : Word := 0#64
  c0    : Option (BitVec 32) := none
  c1    : Option (BitVec 32) := none
  pend0 : Option (BitVec 32) := none
  pend1 : Option (BitVec 32) := none
  /-- Next sub-element of the lane input (R224). -/
  sub   : Nat := 0
deriving DecidableEq, Repr, Inhabited

/-- State of an FE (R263 to R272). -/
structure FEState where
  /-- SCAN: the held closing stop. -/
  held    : Bool := false
  /-- SCAN: next and end child position of the fibre being emitted, and its parent's first child. -/
  scan    : Option (Nat × Nat × Nat) := none
  started : Bool := false
  /-- Last coordinate of the current fibre on inputs A and B (R254). -/
  lastA   : Option Nat := none
  lastB   : Option Nat := none
  /-- A CRD consumed on A and B whose REF has not been consumed (ISECT, UNION). -/
  crdA    : Option Nat := none
  crdB    : Option Nat := none
  /-- Whether a fibre is open on A, B, C (R255). -/
  openA   : Bool := false
  openB   : Bool := false
  openC   : Bool := false
  /-- REDU: partial value and number of data tokens. -/
  acc     : Option Word := none
  count   : Nat := 0
  /-- FILT and EXPD: index in the fibre, number passed. -/
  idx     : Nat := 0
  passed  : Nat := 0
  /-- JOIN: the next group comes from B. -/
  fromB   : Bool := false
  /-- LVLW: n, f, and whether pos[0] has been written. -/
  lvlN    : Nat := 0
  lvlF    : Nat := 0
  lvlInit : Bool := false
deriving DecidableEq, Repr, Inhabited

/-- State of an ME (R276 to R281); its words are in memory. -/
structure MEState where
  wbuf    : Nat := 0
  wslot   : Nat := 0
  rbuf    : Nat := 0
  /-- BUF: the pass in progress: next slot, and whether the trigger keeps the buffer. -/
  pass    : Option (Nat × Bool) := none
  /-- FIFO: slot index of the oldest entry, and the kinds and parities held, oldest first. -/
  fifoHd  : Nat := 0
  fifo    : List (Nat × Bool) := []
  /-- RMW: updates in the pipeline, oldest first: slot, value to write, tag. -/
  pipe    : List (Nat × Word × Nat) := []
  /-- STASH: kinds of the kept tokens, oldest first, and the next to replay. -/
  stash   : List Nat := []
  replay  : Nat := 0
deriving DecidableEq, Repr, Inhabited

/-- State of an XE (R284, R241, R242). -/
structure XEState where
  b0    : Vector (BitVec 512) 32 := Vector.replicate 32 0#512
  b1    : Vector (BitVec 512) 32 := Vector.replicate 32 0#512
  /-- BLD: next token of the tile; DRN: next token to emit. -/
  pos   : Nat := 0
  /-- MMN with CFMT F32: columns 0 to 15 of the row have been placed (R286), and the flags of that half, which are raised
  when the firing ends (R203). -/
  half  : Bool := false
  halfFlags : BitVec 5 := 0#5
  /-- Decode table (none: E4M3), TOP and NCODE. -/
  table : Option Table := none
  top   : BitVec 7 := 0x7E#7
  ncode : BitVec 8 := 0x7F#8
deriving DecidableEq, Repr, Inhabited

/-- A buffered store of an MP (R212, R214): address, where it goes (R349), bytes, packet tag. -/
structure BufStore where
  addr   : Word
  loc    : Nat
  glob   : Bool
  remote : Bool
  bytes  : List (BitVec 8)
  tag    : Nat
  /-- The key selector of its page (R367), and the row of its port. -/
  key    : Nat := 0
  row    : Nat := 0
deriving DecidableEq, Repr

/-- An entry of an MP's spill queue (R216): the access that waits, or a token held behind a late one. -/
structure Spill where
  /-- The model's own name for the entry. -/
  key   : Nat := 0
  /-- 0 load, 1 store, 2 atomic, 3 an FE read, 4 an FE write, 5 a completed token held in order. -/
  op    : Nat
  /-- The plane of the FE whose access it is (R260). -/
  plane : Nat := 0
  addr  : Word
  data  : BitVec 512
  tag   : Nat
  par   : Bool
  /-- The result token of a completed access. -/
  res   : Option Token := none
  /-- The line that has come back from another module; of an FE's write, that it stands in the window. -/
  answer : Option (BitVec 512) := none
  /-- The request that it waits for. -/
  asked : Option Nat := none
  /-- What it waits for: a page, a cell (start cycle), nothing. -/
  onPage : Bool := false
  onCell : Option Nat := none
  /-- The physical address of the cell. -/
  loc    : Nat := 0
deriving DecidableEq, Repr

/-- State of an MP (R212, R214, R216, R443). -/
structure MPState where
  /-- Stores of the oldest window not committed, then of the next. -/
  win0   : List BufStore := []
  win1   : List BufStore := []
  /-- Rounds whose EOR this MP has consumed since the last commit, 0 to 2. -/
  rounds : Nat := 0
  spill  : List Spill := []
  /-- Circuit port: next sequence number, credits, re-sequencing queue. -/
  seqNo  : Nat := 0
  credits : Nat := 64
  expect : Nat := 0
  reseq  : List (Nat × Token) := []
  isOpen : Bool := false
deriving DecidableEq, Repr, Inhabited

/-- An element of a region; `row` counts from the region's north row. The state of the kinds it is not
stays at its default. -/
structure Elem where
  row   : Nat
  col   : Nat
  /-- Fabric loads entered (R208); the plane is this number. -/
  plane : Nat := 0
  /-- Running parity (R207). -/
  par   : Bool := false
  /-- Counters of a CE or AG (R226, R244). -/
  ctr   : List Nat := [0, 0, 0, 0]
  /-- Rounds begun since FRGO, and since the plane's entry (R207, R208). -/
  round   : Nat := 0
  roundIn : Nat := 0
  /-- It has placed DONE and stopped (R213). -/
  done  : Bool := false
  /-- A source that has emitted the LAST EOR of its plane. -/
  atEnd : Bool := false
  /-- Tokens still to be placed by its current operation. -/
  todo  : List Emit := []
  ce    : CEState := {}
  fe    : FEState := {}
  me    : MEState := {}
  xe    : XEState := {}
  mp    : MPState := {}
deriving DecidableEq, Repr

/-- Who holds a region (R195): a served configuration (its id, launch or partition's evaluation packets),
or a residency (die and cluster of its owner, entry). -/
inductive Holder where
  | served (cfg part : Nat) (launch : Option (Nat × Nat))
  | stream (die cluster entry : Nat)
deriving DecidableEq, Repr

/-- What stops a region (R215, R398, R399, R401): running, frozen by a fault, halting for a freeze save (what has begun
ends, nothing begins), draining for a boundary save, or waiting to be saved behind a plane change that had begun when the
save was requested. -/
inductive RegionPhase where
  | running | frozen | halting | draining | crossing
deriving DecidableEq, Repr, Inhabited

/-- A fault that an element has met and that has not yet frozen the region (R215, R341): where, the cause and
code, the frame word in use, the record's DETAIL, HEADS, FIN, SIN and PAYLOAD. -/
structure PendFault where
  row     : Nat
  col     : Nat
  plane   : Nat
  roundIn : Nat
  cause   : Nat
  fcode   : Nat
  fword   : Nat
  frame   : BitVec 32
  detail  : Word
  heads   : Nat
  fin     : Nat
  sin     : Nat
  payload : Word
  spilled : Bool
  /-- Core cycle in which it was met. -/
  met     : Nat
deriving DecidableEq, Repr

/-- A region and what it holds. -/
structure Region where
  rid      : Nat
  die      : Nat
  cluster  : Nat
  frond    : Nat
  row0     : Nat
  shape    : Shape
  holder   : Holder
  image    : Image
  /-- Accesses of a streamed region are made as (R247). -/
  site     : Site
  arcs     : List Arc
  elems    : List Elem
  /-- Planes loaded region-wide so far (R206). -/
  loaded   : Nat
  phase    : RegionPhase
  /-- Core cycle of the last token movement (R342). -/
  lastMove : Nat
  /-- A movement's cycle, and the cycles after it that do not count for the stall detector (R304, R450). -/
  excused  : Nat × Nat := (0, 0)
  /-- Windows committed since FRGO (R214). -/
  commits  : Nat
  /-- Sticky flags (R77). -/
  flags    : BitVec 5
  /-- Each element at the round boundaries since the start of the oldest window not committed (R344). -/
  marks     : List Elem
  /-- The binding values in force for each fabric load entered (R176, R244, R247). -/
  binds     : List (Nat × List (Nat × Word))
  /-- Faults met, oldest first; the first decides the record. -/
  faults    : List PendFault
  /-- Last injection (R388). -/
  lastInj  : Nat
  /-- PSN payloads recorded at the exit by tag (R211). -/
  psn      : List (Nat × BitVec 64)
  /-- Flags of the packets in flight, by tag (R77). -/
  pflags   : List (Nat × BitVec 5)
  /-- ARGW values on the argument network: row, column, c1 selected, value (R228). -/
  argNet   : List (Nat × Nat × Bool × BitVec 32)
deriving DecidableEq, Repr

/-! ## Residencies and serving -/

/-- States of a residency (R174). -/
inductive ResState where
  | loaded | running | drained | faulted
deriving DecidableEq, Repr, Inhabited

/-- A save in progress or done (R397 to R399). -/
inductive SaveKind where
  | noSave | requested (since : Nat) | boundary | freeze
deriving DecidableEq, Repr, Inhabited

/-- A residency entry of a cluster (R174 to R180). -/
structure Residency where
  die      : Nat
  cluster  : Nat
  entry    : Nat
  gen      : Nat
  owner    : Nat
  orphan   : Bool
  part     : Nat
  launch   : Nat × Nat
  cfg      : Nat
  shape    : Shape
  prio     : Nat
  migr     : Nat
  state    : ResState
  site     : Site
  binds    : List (Nat × Word)
  /-- Values that FRBIND left pending, with whether an FRBAR has completed for them (R176). -/
  pends    : List (Nat × Word × Bool)
  /-- An FRBAR of the owner has completed since the plane counter last advanced (R176). -/
  frbar    : Bool
  /-- The plane counter at which the owner's waiting FRBAR began. -/
  barAt    : Option Nat
  /-- Since when, and in which order, it waits to be placed. -/
  waiting  : Option (Nat × Nat)
  /-- The order of its FRGO (R389). -/
  goNo     : Nat := 0
  /-- It has been placed in a neighbouring cluster, and its region in its owner's cluster stays counted (R387, R391). -/
  migrated : Bool := false
  region   : Option Nat
  /-- The plane counter (R12, R208). -/
  planes   : Nat
  flags    : BitVec 5
  save     : SaveKind
  /-- The region as saved, and the saved ME areas: row, column, bytes that are not zero, words that are EMPTY. -/
  saved    : Option Region
  areas    : List (Nat × Nat × List Host.Cell × List Nat)
  /-- The image as FRLD found it, constants written by ARGW before FRGO, values kept pending while it has no region. -/
  image    : Image
  consts   : List (Nat × Nat × Bool × BitVec 32)
  argPend  : List (Nat × Nat × Bool × BitVec 32)
  /-- Words 0 to 7 of the fault record, for a FAULTED residency. -/
  record   : List Word
deriving DecidableEq, Repr

/-- Who gets a packet's result (R171, R299): a caller strand, or a cell-packet entry of the cluster. -/
inductive Caller where
  | strand (uid : Nat) | cell (idx : Nat)
deriving DecidableEq, Repr

/-- A served packet from SERVE, or from an eclosion, until its result is delivered. -/
structure Packet where
  pid      : Nat
  die      : Nat
  cluster  : Nat
  caller   : Caller
  tag      : Nat
  handle   : Nat
  cfg      : Nat
  launch   : Option (Nat × Nat)
  site     : Site
  args     : List Word
  /-- Core cycle in which its SERVE issued, or its request was released. -/
  since    : Nat
  /-- Destination register of the first result, and number of results. -/
  dst      : Nat
  res      : Nat
  /-- The region into which it has been injected. -/
  region   : Option Nat
  /-- Result words with the packet's flags, or the PSN payload of a poisoned packet. -/
  result   : Option (List Word × BitVec 5)
  poison   : Option (BitVec 64)
  /-- Requests of its stores to other modules for whose acknowledgement the exit holds the result (R212, R441). -/
  acks     : List Nat := []
deriving DecidableEq, Repr

/-- An entry of a cluster's waiting table (R388). `inTable` is false for a request that finds it full. -/
structure Waiting where
  die     : Nat
  cluster : Nat
  cfg     : Nat
  part    : Nat
  launch  : Option (Nat × Nat)
  order   : Nat
  age     : Nat
  inTable : Bool
deriving DecidableEq, Repr

/-! ## Cells -/

/-- The evaluator of an eclosion (R296): requested, a strand that has not entered a slot, a strand, a packet. -/
inductive Evaluator where
  | pending | queued (uid : Nat) | strand (uid : Nat) | packet (die cluster idx : Nat)
deriving DecidableEq, Repr

/-- A waiter of an eclosion (R301): a strand, an MP spill-queue entry (region, row, entry), or a request of another module
(R294). -/
inductive Waiter where
  | strand (uid : Nat) | mp (rid row key : Nat) | remote (mod rq : Nat)
deriving DecidableEq, Repr

/-- An entry of an eclosion table or of the overflow area (R296). -/
structure Eclosion where
  eid       : Nat
  cell      : Nat
  va        : Word
  /-- The launching access's identity and place. -/
  site      : Site
  word0     : Word
  word1     : Word
  word2     : Word
  word3     : Word
  evaluator : Evaluator
  waiters   : List Waiter
  overflow  : Bool
  /-- The request has been released by the EVAL budget (R297). -/
  released  : Bool
  /-- Where a released packet waits for an entry of the cell-packet table, and in which order (R299): die, cluster, number. -/
  queuedAt  : Option (Nat × Nat × Nat) := none
  remote    : Bool
deriving DecidableEq, Repr

/-! ## The rhizoid tree -/

/-- A router of a die's tree (R411). -/
inductive Router where
  | cluster (die c : Nat) | row (die r : Nat) | root (die : Nat)
deriving DecidableEq, Repr

/-- A page fault on its way into a router, at a child port. -/
structure FaultMsg where
  router : Router
  port   : Nat
  part   : Nat
  asid   : Nat
  page   : Nat
  kinds  : Nat
  mp     : Bool
deriving DecidableEq, Repr

/-- A router's table entry (R411); at the root also the FID and whether it has been delivered. -/
structure RouterEntry where
  router    : Router
  part      : Nat
  asid      : Nat
  page      : Nat
  ports     : List Nat
  kinds     : Nat
  mp        : Bool
  fid       : Nat
  delivered : Bool
deriving DecidableEq, Repr

/-- A pager reply on its way down into a router (R415). -/
structure ReplyMsg where
  router : Router
  part   : Nat
  asid   : Nat
  page   : Nat
  fatal  : Bool
  ret    : BitVec 32
deriving DecidableEq, Repr

/-! ## Partitions -/

/-- TDISP states (R359, R369). -/
inductive TState where
  | unlocked | locked | run | error
deriving DecidableEq, Repr, Inhabited

/-- A partition's storage on one die (R360). -/
structure DieShare where
  dbase : Nat := 0
  dcnt  : Nat := 0
  spb   : Nat := 0
  spl   : Nat := 0
  swb   : Nat := 0
  swl   : Nat := 0
deriving DecidableEq, Repr, Inhabited

/-- What one die has left of each budget in the period (R393), and has consumed in this and in the last period. Budgets
are numbered 0 FROND, 1 EVAL, 2 DRAM, 3 LINK, 4 COPY. -/
structure Avail where
  left  : Vector Int 5 := Vector.replicate 5 0
  used  : Vector Nat 5 := Vector.replicate 5 0
  prev  : Vector Nat 5 := Vector.replicate 5 0
  /-- Budgets whose exhaustion has been reported in the period (R453). -/
  told  : Vector Bool 5 := Vector.replicate 5 false
deriving DecidableEq, Repr, Inhabited

/-- The pager named by PAGER_SET (R414): entry, ASIDX, PTB, TVEC. -/
structure PagerSet where
  entry : Word
  asidx : Nat
  ptb   : Word
  tvec  : Word
deriving DecidableEq, Repr

/-- A subscription slot (R452), with whether the previous sample lay beyond THRESH. -/
structure Subscription where
  slot    : Nat
  source  : Nat
  die     : Nat
  falling : Bool
  vec     : Nat
  cluster : Nat
  thresh  : Nat
  notify  : Word
  beyond  : Bool
deriving DecidableEq, Repr

/-- A partition's table entry and what firmware keeps beside it (R359, R360, R366, R374, R392, R414). -/
structure Partition where
  tstate   : TState := .unlocked
  valid    : Bool := false
  asidBase : Nat := 0
  asidCnt  : Nat := 0
  cellWait : Nat := 0x10000000
  eovf     : Nat := 1024
  debugBits : BitVec 8 := 0#8
  /-- The 64-bit key-generation count; KEYGEN is its low 8 bits. -/
  keyGen   : BitVec 64 := 0#64
  dies     : Vector DieShare 8 := Vector.replicate 8 {}
  /-- The installed debug policy record, as a number (R374). -/
  policy   : Option (BitVec 1344) := none
  /-- Budgets of each die in the order of `Avail` (R392); `none` means unlimited. -/
  budget   : Vector (Option Nat) 5 := Vector.replicate 5 none
  avail    : Vector Avail 8 := Vector.replicate 8 {}
  pager    : Option PagerSet := none
  subs     : List Subscription := []
  /-- A LOCK_INTERFACE_REQUEST came in the step of a PF write to the entry or debug policy (R369). -/
  raced    : Bool := false
deriving DecidableEq, Repr, Inhabited

/-- A peer binding (R418): what each side has asked for, and the other side's granules on its eight dies. -/
structure Peer where
  part      : Nat
  remModule : Nat
  remPart   : Nat
  asidx     : Nat
  ptb       : Word
  tvec      : Word
  mine      : Bool
  theirs    : Bool
  granules  : List (Nat × Nat)
deriving DecidableEq, Repr

/-! ## The host side -/

/-- A status record (R379): word 0 and word 1. -/
structure StatusRec where
  word0 : Word
  word1 : Word
deriving DecidableEq, Repr

/-- A supervisor report (R372). -/
structure Report where
  word0 : Word
  pc    : Word
  info  : Word
  time  : Word
deriving DecidableEq, Repr

/-- A function's BAR and mailbox state (R368, R376, R379, R436, R437). -/
structure HostFn where
  /-- Launch messages, each with whether TSTATE was RUN when it reached the mailbox (R369). -/
  mailbox   : List (BitVec 512 × Bool) := []
  fifo      : List StatusRec := []
  fullCount : Nat := 0
  eqHead    : BitVec 8 := 0#8
  eqTail    : BitVec 8 := 0#8
  events    : Vector Report 256 := Vector.replicate 256 ⟨0#64, 0#64, 0#64, 0#64⟩
  /-- Reports that wait for room in the event queue. -/
  reports   : List Report := []
  request   : Vector Word 31 := Vector.replicate 31 0#64
  /-- The command word being carried out. -/
  running   : Option Word := none
  done      : Bool := true
  code      : BitVec 8 := 0#8
  response  : Vector Word 31 := Vector.replicate 31 0#64
  msix      : Vector (BitVec 128) 64 := Vector.replicate 64 (1#128 <<< 96)
  pba       : BitVec 64 := 0#64
  /-- The function's IDE stream is established. -/
  ide       : Bool := false
deriving DecidableEq, Repr, Inhabited

/-- What carries a circuit to another module (R443): one of the 36 UALink ports or of the 4 Ultra Ethernet
ports (R2). -/
inductive Carrier where
  | ualink (port : Nat) | ethernet (port : Nat)
deriving DecidableEq, Repr

/-- What the module has sent to the outside: MSI-X messages (function, address, data), completions of host
reads (function, data, code: 0 success, 1 Completer Abort, 2 Unsupported Request, 3 poisoned), SPDM answers,
UALink requests and answers, circuit tokens and credits. -/
inductive OutMsg where
  | msix (fn : Nat) (addr : Word) (data : BitVec 32)
  | completion (fn : Nat) (data : List Byte) (status : Nat)
  | spdm (code : Nat) (data : List Word)
  | request (rq op width pa : Nat) (va : Word) (data : BitVec 512) (expected : Word) (agent : Nat) (cpage : Bool)
  | response (mod rq : Nat) (data : BitVec 512) (status : Nat)
  | wake (mod rq : Nat)
  | circuit (part circ die mod : Nat) (via : Carrier) (seq : Nat) (tok : Token)
  | credit (part circ die mod : Nat) (via : Carrier)
  | slack (throttled : Bool) (busy : Nat)
  | peer (part remModule remPart : Nat) (ended : Bool)
deriving DecidableEq, Repr

/-- An SPDM session (R370): number, partition it has named, established. -/
structure Session where
  num  : Nat
  part : Option Nat
  up   : Bool
deriving DecidableEq, Repr

/-- The SPDM responder (R370, R371): negotiation progress 0 to 3, sessions, the digest of the
firmware image. -/
structure Spdm where
  phase    : Nat := 0
  sessions : List Session := []
  nextNum  : Nat := 1
  measured : List (BitVec 256) := []
deriving DecidableEq, Repr, Inhabited

/-! ## Links -/

/-- An outstanding request to another module (R439 to R441). -/
structure Outstanding where
  rq      : Nat
  port    : Nat
  /-- Who waits: a strand, an MP (region, row), nobody (a plain store), a copy. -/
  waiter  : Option Waiter
  copy    : Option Nat
  part    : Nat
  uid     : Nat
  /-- 0 load, 1 store, 2 to 11 the AMO operations 0 to 9, 12 ACAS, 13 a release at DOMAIN
  scope, 14 CSUS, 15 CFRC, 16 CTAG; 17 tells the home slice that a waiter has left its cell, and has no answer; 18 an
  instruction fetch; 19 reads a link of the check of R305; 20 and 21 check a lane's place, 21 for a store at a C page, whose cell
  stays out of ECLOSING until the store has come or 22 gives it up (log entries 29, 65). -/
  op      : Nat
  width   : Nat
  pa      : Nat
  /-- A plain store that its home slice performs whatever it finds there, so that reads may take it from the buffer (R312). -/
  sure    : Bool := false
  /-- The virtual address and lane of the access. -/
  va      : Word
  lane    : Nat
  data    : BitVec 512
  since   : BitVec 64
  /-- It has gone out on its port; a port may hold it before (R393, R463). -/
  sent    : Bool := true
deriving DecidableEq, Repr

/-- A check of a store with several lanes that another module has let pass (log entry 65): the request that asked, the strand, its
partition and the cell. -/
structure Kept where
  rq   : Nat
  uid  : Nat
  part : Nat
  pa   : Nat
deriving DecidableEq, Repr

/-- A circuit token under way (R444): partition, circuit, where it goes, sequence number. -/
structure CircuitTok where
  part  : Nat
  circ  : Nat
  die   : Nat
  seqNo : Nat
  tok   : Token
deriving DecidableEq, Repr

/-- A UALink port (R439, R463): lanes in service, mapped out. -/
structure Port where
  lanes  : Nat := 4
  mapped : Bool := true
deriving DecidableEq, Repr, Inhabited

/-! ## Dies, power and bring-up -/

/-- Bring-up states (R464). -/
inductive BringUp where
  | rom | verify | train | spdm | reduced | full | recovery
deriving DecidableEq, Repr, Inhabited

/-- A cluster's run-time standing: the core cycle at which its droop freeze ends (R448), mapped out, failed (R461, R462). -/
structure ClusterSt where
  die     : Nat
  cluster : Nat
  freeze  : Nat := 0
  onSpare : Bool := false
  failed  : Bool := false
deriving DecidableEq, Repr

/-- A die: trained, failed training, spare used, DROOPCTL, CREDDLY and detections of the period. -/
structure Die where
  trained    : Bool := false
  failed     : Bool := false
  spareUsed  : Bool := false
  droopEn    : Bool := true
  droopLen   : Nat := 64
  droopMv    : Nat := 20
  droopCount : BitVec 32 := 0#32
  droopPrev  : Nat := 0
  droopNow   : Nat := 0
  /-- Rows whose sensor has been read, with the 10 µs interval of the last reading: cluster, frond, row, interval (R449). -/
  sampledAt  : List (Nat × Nat × Nat × Nat) := []
  credDelay  : Nat := 16
  credHot    : Nat := 95
  credHyst   : Nat := 5
  /-- The last reading of each row's sensor: cluster, frond, row, temperature. -/
  temps      : List (Nat × Nat × Nat × Nat) := []
  /-- Hot rows: cluster, frond, row. -/
  hotRows    : List (Nat × Nat × Nat) := []
  /-- Configuration ids held in the spore store with their partition, most recently used first (R434). -/
  spores     : List (Nat × Nat) := []
deriving DecidableEq, Repr, Inhabited

/-- The module power arbiter, the slack controller and the timebase (R445, R451, R455, R456). -/
structure Power where
  arbNotch   : Nat := 0
  slackNotch : Nat := 0
  notch      : Nat := 8
  broadFrac  : Nat := 16
  narrowFrac : Nat := 16
  plim       : Nat := 3600
  reading    : Nat := 0
  /-- The arbiter's steps, last first: 0 broad, 1 narrow, 2 notch. -/
  steps      : List Nat := []
  /-- Peers' reports of the window: module, throttled, busy time. -/
  peers      : List (Nat × Bool × Nat) := []
  /-- Issue counts of the last 16 cycles are the arbiter's own matter; the time of the last slack change. -/
  slackLast  : BitVec 64 := 0#64
  /-- Time of the last step of the notch's fall after full service began (R466). -/
  fallLast   : Option (BitVec 64) := none
  timeErr    : Nat := 0
  /-- Period boundaries, arbiter intervals and slack windows taken so far (R393, R451, R455). -/
  periods    : Nat := 0
  intervals  : Nat := 0
  windows    : Nat := 0
  /-- Nanoseconds of the slack window in which a receive port's residency waited on an empty queue (R455). -/
  waited     : Nat := 0
  throttled  : Bool := false
deriving DecidableEq, Repr, Inhabited

/-! ## What moves next -/

/-- What acts on the machine beside the events of the opcode table: firmware writes DROOPCTL or CREDDLY of a die or the
power limit (R447, R449, R451), the host reads a function's BAR (R436), a local word of eight bytes shows an uncorrectable
error (R460), the timebase takes a new rate, in ppm of the nominal one (R458). -/
inductive Outside where
  | droopctl (die : Nat) (v : Word)
  | creddly (die : Nat) (v : Word)
  | powerLimit (watts : Nat)
  | barRead (fn off len : Nat)
  | wordError (loc : Nat)
  | timeRate (ppm : Int)
deriving DecidableEq, Repr

/-- Who acts in the next step: a core takes its turn of the present core cycle, an event of the opcode table happens,
core cycles pass, or something outside the table acts. -/
inductive Activity where
  | turn (die cluster core : Nat)
  | event (i : Instr)
  | cycles (n : Nat)
  | outside (o : Outside)
deriving DecidableEq, Repr

/-- A key of R366 by the partition number and its key-generation count; none is no encryption (selector 1 of R367). A
number of 64 or above names a key that has been erased. -/
abbrev DramKey := Option (Nat × Nat)

/-- A line of DRAM that is not both stored and seen under the key that it has by default (R366, R367): the key under which
`mem` shows it, and the key and the plain bytes with which it was stored. -/
structure KeyedLine where
  line   : Nat
  seen   : DramKey
  stored : DramKey
  plain  : BitVec 512
deriving DecidableEq, Repr

/-- Memory and what travels with it: bytes in canonical form, lines under another key, words that are EMPTY, tags other than
VALUE, lines marked poisoned, TLBs. -/
structure MemSide where
  mem      : List Host.Cell := []
  keyed    : List KeyedLine := []
  /-- Granules (address / 2^30) whose lines were stored under a key that is no longer in force, with that key. -/
  fills    : List (Nat × DramKey) := []
  empties  : List Nat := []
  tags     : List (Nat × Tag) := []
  poisoned : List Nat := []
  tlb      : List TlbEntry := []
deriving DecidableEq, Repr, Inhabited

/-- Graphs, launches, copies, residencies, served packets. -/
structure WorkSide where
  graphs      : List Graph := []
  launches    : List Launch := []
  copies      : List Copy := []
  residencies : List Residency := []
  resGens     : List (Nat × Nat × Nat × Nat) := []
  packets     : List Packet := []
  waitings    : List Waiting := []
  /-- Occasions at which the frond scheduler of a cluster has still to take a decision (R388): die and cluster. -/
  decisions   : List (Nat × Nat) := []
  regions     : List Region := []
deriving DecidableEq, Repr, Inhabited

/-- Cells and paging. -/
structure CellSide where
  eclosions : List Eclosion := []
  faults    : List FaultMsg := []
  routers   : List RouterEntry := []
  replies   : List ReplyMsg := []
  /-- Cell-packet entries in use: die, cluster, index, eclosion. -/
  cellPkts  : List (Nat × Nat × Nat × Nat) := []
  /-- Cells that a checked store of another module is about to write: module, request, cell, stores still to come (log entry
  65). -/
  awaited   : List (Nat × Nat × Nat × Nat) := []
deriving DecidableEq, Repr, Inhabited

/-- Hosts, links and the security side. -/
structure HostSide where
  parts       : Vector Partition 64 := Vector.replicate 64 {}
  fns         : Vector HostFn 64 := Vector.replicate 64 {}
  peers       : List Peer := []
  spdm        : Spdm := {}
  outbox      : List OutMsg := []
  outstanding : List Outstanding := []
  kept        : List Kept := []
  /-- Messages that a port does not send yet (R393, R463): partition, die, line address if it goes to one, message. -/
  linkQueue   : List (Nat × Nat × Option Nat × OutMsg) := []
  /-- Circuit tokens on their way between dies of the module. -/
  circuits    : List CircuitTok := []
  ports       : Vector Port 36 := Vector.replicate 36 { lanes := 4, mapped := false }
deriving DecidableEq, Repr, Inhabited

/-- Clocks, power, dies, bring-up. -/
structure PlantSide where
  /-- Core cycles since reset. -/
  cycle    : Nat := 0
  /-- TIME, and the fraction of its next nanosecond in units of 1/2162160000000 ns (R445, R456, R458). -/
  time     : BitVec 64 := 0#64
  frac     : Nat := 0
  /-- The rate of the timebase, in ppm of the nominal one, from -200 to 200 (R458). -/
  ppm      : Int := 0
  power    : Power := {}
  dies     : Vector Die 8 := Vector.replicate 8 {}
  clusters : List ClusterSt := []
  bring    : BringUp := .rom
  /-- The value that firmware draws at each boot in state VERIFY (R432). -/
  bootRandom : BitVec 256 := 0#256
  modNum   : Nat := 0
deriving DecidableEq, Repr, Inhabited

/-- The machine. `self` is the strand that issues now, `others` every other strand that is not retired. -/
structure State where
  self   : Strand := {}
  others : List Strand := []
  cores  : List Core := []
  m      : MemSide := {}
  work   : WorkSide := {}
  cells  : CellSide := {}
  host   : HostSide := {}
  plant  : PlantSide := {}
  /-- Counter from which fresh numbers (uid, cid, rid, pid, eid, orders) are taken. -/
  fresh  : Nat := 1
  /-- Counter of free values used (the model's own). -/
  free   : Nat := 0
  /-- What moves next, in order (the model's own). -/
  agenda : List Activity := []
deriving DecidableEq, Repr, Inhabited

/-- Reasons a step stops with a fault. -/
inductive Fault where
  /-- Raised by `step` when the agenda names an event that is not well formed: a unit number outside the
  module (no such cluster, core, die, partition, function or port). Safe: the hardware has no such unit, so no
  behaviour of it is left out. -/
  | noSuchUnit
deriving DecidableEq, Repr

/-- Reasons a step is refused. -/
inductive Refusal where
  /-- The instruction of this mnemonic has no meaning yet. Safe: nothing can be proved of what it does. -/
  | notModelled (mnemonic : String)
deriving DecidableEq, Repr

/-- The machine right after reset (R464): the boot ROMs run, no strand exists, memory lists nothing, no
partition is valid, the notch is 8 (R465). -/
def State.reset : State := {}

end Sys2Proof.Machine
end

