-- ==== Sys2Proof/Machine/Mem.lean ====
section
/-! DEFINITION. Memory as one list of bytes in canonical form, byte order, and the locations of every storage. -/
namespace Sys2Proof.Machine

/-- What a byte that nothing has written reads as: zero. Local storage: R59; DRAM: log entry 3. -/
def unlisted : Byte := 0#8

/-- One byte of memory. -/
def memGet : List Host.Cell → Nat → Byte
  | [], _ => unlisted
  | (k, b) :: t, a => if k = a then b else memGet t a

/-- Writing one byte, keeping addresses rising and no entry equal to what an unlisted address reads as. -/
def memSet : List Host.Cell → Nat → Byte → List Host.Cell
  | [], a, b => if b = unlisted then [] else [(a, b)]
  | (k, c) :: t, a, b =>
    if a < k then (if b = unlisted then (k, c) :: t else (a, b) :: (k, c) :: t)
    else if a = k then (if b = unlisted then t else (a, b) :: t)
    else (k, c) :: memSet t a b

/-- The canonical form: addresses strictly rising, no listed byte equal to what an unlisted address reads as. -/
def memWf : List Host.Cell → Bool
  | [] => true
  | [(_, b)] => b != unlisted
  | (k, b) :: (k', b') :: t => b != unlisted && decide (k < k') && memWf ((k', b') :: t)

/-- `n` bytes from `a` upward. -/
def memBytes (m : List Host.Cell) (a : Nat) : Nat → List Byte
  | 0 => []
  | n + 1 => memGet m a :: memBytes m (a + 1) n

/-- Writing bytes from `a` upward. -/
def memWrite : List Host.Cell → Nat → List Byte → List Host.Cell
  | m, _, [] => m
  | m, a, b :: bs => memWrite (memSet m a b) (a + 1) bs

/-- The number of a little-endian byte string (R5). -/
def leNat : List Byte → Nat
  | [] => 0
  | b :: t => b.toNat + 256 * leNat t

/-- The `n` low bytes of a number, little-endian. -/
def leBytes : Nat → Nat → List Byte
  | 0, _ => []
  | n + 1, x => BitVec.ofNat 8 x :: leBytes n (x / 256)

/-- A word of `n` bytes at a location. -/
def memNat (m : List Host.Cell) (a n : Nat) : Nat := leNat (memBytes m a n)

/-! ## Locations

Every storage of the module has its own range of locations: bonded DRAM at its physical address below 2^52, the
others above 2^56 (R44, R49, R52). -/

/-- TCM byte `off` of a core. -/
def tcmLoc (die cluster core off : Nat) : Nat :=
  0xC * 2 ^ 56 + (die * 2 ^ 26 + cluster * 2 ^ 20 + core * 2 ^ 16 + off)
/-- Physical scratchpad byte of a cluster. -/
def spLoc (die cluster off : Nat) : Nat := 0xD * 2 ^ 56 + (die * 2 ^ 27 + cluster * 2 ^ 21 + off)
/-- ME byte: column 10 or 11 of a row of a frond. -/
def meLoc (die cluster frond row col off : Nat) : Nat :=
  0xE * 2 ^ 56 + ((die * 64 + cluster) * 2 ^ 21 + frond * 2 ^ 19 + row * 2 ^ 16 + (col - 10) * 2 ^ 15 + off)
/-- Die SRAM window byte. -/
def swLoc (die off : Nat) : Nat := 0xF * 2 ^ 56 + (die * 2 ^ 26 + off)

/-- Whether the location is bonded DRAM. -/
def isDram (l : Nat) : Bool := decide (l < 2 ^ 52)

/-- The module of a physical address (R52). -/
def paModule (pa : Nat) : Nat := pa / 2 ^ 43 % 512
/-- The die of a physical address. -/
def paDie (pa : Nat) : Nat := pa / 2 ^ 40 % 8
/-- The home slice of a physical address within its die (R52). -/
def paSlice (pa : Nat) : Nat := (natBits pa 14 6 ^^^ natBits pa 23 15) ^^^ natBits pa 32 24

/-! ## Reading and writing the state's memory -/

/-- The `n`-byte number at a location. -/
def State.rd (s : State) (l n : Nat) : Nat := memNat s.m.mem l n

/-- One byte at a location. -/
def State.byteAt (s : State) (l : Nat) : Byte := memGet s.m.mem l

/-- The bytes at a location. -/
def State.rdBytes (s : State) (l n : Nat) : List Byte := memBytes s.m.mem l n

/-- Bytes written at a location, and nothing else. -/
def State.wrBytes (s : State) (l : Nat) (bs : List Byte) : State :=
  { s with m := { s.m with mem := memWrite s.m.mem l bs } }

/-- The low `n` bytes of a number written at a location. -/
def State.wr (s : State) (l n x : Nat) : State := s.wrBytes l (leBytes n x)

/-- The full/empty bit of the 8-byte word at a location (R56, R59). -/
def State.isFull (s : State) (l : Nat) : Bool := !(s.m.empties.contains l)

/-- The word's bit made FULL or EMPTY, without waking anybody. -/
def State.setBit (s : State) (l : Nat) (full : Bool) : State :=
  { s with m := { s.m with empties :=
      if full then s.m.empties.erase l else if s.m.empties.contains l then s.m.empties else l :: s.m.empties } }

/-- The tag of a granule (R60), by the physical address of its first byte. -/
def State.tag (s : State) (pa : Nat) : Tag :=
  match s.m.tags.find? (fun p => p.1 == pa / 32 * 32) with
  | some p => p.2
  | none => .value

/-- A granule's tag replaced. -/
def State.setTag (s : State) (pa : Nat) (t : Tag) : State :=
  let g := pa / 32 * 32
  let rest := s.m.tags.filter (fun p => p.1 != g)
  { s with m := { s.m with tags := if t = .value then rest else (g, t) :: rest } }

/-- The code of a tag (R60). -/
def Tag.code : Tag → Nat
  | .value => 0 | .chrysalis => 1 | .eclosing => 2 | .poison => 3

/-- Two half-open ranges share an element. -/
def overlaps (a n b m : Nat) : Bool := decide (a < b + m) && decide (b < a + n) && n != 0 && m != 0

/-- What an error mark covers: a 64-byte line of DRAM (R459), an 8-byte word of other storage (R460). -/
def eccUnit (l : Nat) : Nat := if isDram l then 64 else 8

/-- Whether the line or word of a location carries the mark of an uncorrectable error (R459, R460). -/
def State.isPoisoned (s : State) (l : Nat) : Bool := s.m.poisoned.contains (l / eccUnit l * eccUnit l)

/-- The marks of the lines or words that a write covers whole are cleared (R459, R460). -/
def State.clearPoison (s : State) (l n : Nat) : State :=
  { s with m := { s.m with poisoned := s.m.poisoned.filter (fun p => !(decide (l ≤ p) && decide (p + eccUnit p ≤ l + n))) } }

end Sys2Proof.Machine
end

