-- ==== Sys2Proof/Machine/Ops.lean ====
section
/-! DEFINITION. The named operations on strands and registers: the seat, reading and writing registers, parks and
wakes, taking a trap and returning from one. -/
namespace Sys2Proof.Machine

/-- What a meaning answers. -/
abbrev Out := Host.Outcome State Fault Refusal

/-- An item put into a list that rises by a key, after those of the same key. -/
def insertBy {α : Type} (key : α → Nat) (x : α) : List α → List α
  | [] => [x]
  | y :: ys => if key x < key y then x :: y :: ys else y :: insertBy key x ys

/-- A list put in rising order of a key; items of one key keep their order. -/
def sortBy {α : Type} (key : α → Nat) (l : List α) : List α := l.foldl (fun acc x => insertBy key x acc) []

/-! ## Strands and the seat -/

/-- A strand that exists and has not retired (R13). -/
def Strand.live (t : Strand) : Bool := t.st != .absent && t.st != .retired

/-- A strand that holds a slot (R13). -/
def Strand.resident (t : Strand) : Bool := t.st == .active || t.st == .parked || t.st == .frozen

/-- The strand sits in that slot. -/
def Strand.inSlot (t : Strand) (die cluster core slot : Nat) : Bool :=
  t.resident && t.id.die == die && t.id.cluster == cluster && t.id.core == core && t.id.slot == slot

/-- The strand sits on that core. -/
def Strand.onCore (t : Strand) (die cluster core : Nat) : Bool :=
  t.resident && t.id.die == die && t.id.cluster == cluster && t.id.core == core

/-- Every strand. -/
def State.all (s : State) : List Strand := s.self :: s.others

/-- The live strand of that number. -/
def State.strand? (s : State) (uid : Nat) : Option Strand :=
  s.all.find? (fun t => t.live && t.id.uid == uid)

/-- A change to every strand. -/
def State.mapStrands (s : State) (f : Strand → Strand) : State :=
  { s with self := f s.self, others := s.others.map f }

/-- A change to the strand of that number. -/
def State.mapStrand (s : State) (uid : Nat) (f : Strand → Strand) : State :=
  s.mapStrands (fun t => if t.live && t.id.uid == uid then f t else t)

/-- The strand of that number takes the seat; the one that had it goes to the others unless it is gone. -/
def State.seat (s : State) (uid : Nat) : State :=
  if s.self.live && s.self.id.uid == uid then s
  else match s.others.find? (fun t => t.live && t.id.uid == uid) with
    | none => s
    | some t =>
      let rest := s.others.filter (fun x => x.id.uid != uid)
      { s with self := t, others := if s.self.live then s.self :: rest else rest }

/-- Something done by the strand of that number, when it exists and satisfies a condition; otherwise nothing. -/
def State.onStrand (s : State) (uid : Nat) (c : Strand → Bool) (f : State → State) : State :=
  match s.strand? uid with
  | some t => if c t then f (s.seat uid) else s
  | none => s

/-- The live strand that holds a SID (R26). -/
def State.bySid (s : State) (sid : BitVec 16) : Option Strand :=
  s.all.find? (fun t => t.live && t.id.sid == some sid)

/-- The core cycle count. -/
abbrev State.cycle (s : State) : Nat := s.plant.cycle

/-- The seat's control registers replaced. -/
def State.setCtl (s : State) (c : Ctl) : State := { s with self := { s.self with ctl := c } }

/-- The seat's pc replaced. -/
def State.setPc (s : State) (pc : Word) : State := { s with self := { s.self with pc := pc } }

/-- The next sequential instruction of a one-word instruction (R97). -/
def State.adv (s : State) : State := s.setPc (s.self.pc + 4#64)

/-- The next sequential instruction of an L-format pair (R97). -/
def State.adv8 (s : State) : State := s.setPc (s.self.pc + 8#64)

/-! ## Registers -/

/-- A general register; g0 reads zero (R94). -/
def Strand.getG (t : Strand) (r : BitVec 6) : Word := if r = 0#6 then 0#64 else t.g.get r.toFin

/-- A general register written; a write to g0 is discarded (R94). -/
def Strand.setG (t : Strand) (r : BitVec 6) (x : Word) : Strand :=
  if r = 0#6 then t else { t with g := t.g.set r.toNat x r.isLt }

/-- General register of the seat. -/
def State.getG (s : State) (r : BitVec 6) : Word := s.self.getG r

/-- General register of the seat written. -/
def State.setG (s : State) (r : BitVec 6) (x : Word) : State := { s with self := s.self.setG r x }

/-- General register by its number, from 0 to 63. -/
def State.getGn (s : State) (n : Nat) : Word := s.getG (BitVec.ofNat 6 n)

/-- Results written from a register onward (R171). -/
def State.setGs (s : State) (n : Nat) : List Word → State
  | [] => s
  | x :: xs => (s.setG (BitVec.ofNat 6 n) x).setGs (n + 1) xs

/-- A mask register; k0 reads all ones (R94). -/
def Strand.getK (t : Strand) (r : BitVec 3) : BitVec 16 := if r = 0#3 then 0xFFFF#16 else t.k.get r.toFin

/-- A mask register written. No instruction names k0 as its destination (R94); the operation discards such a write. -/
def Strand.setK (t : Strand) (r : BitVec 3) (x : BitVec 16) : Strand :=
  if r = 0#3 then t else { t with k := t.k.set r.toNat x r.isLt }

/-- The 16 lanes of a vector register. -/
def Strand.getV (t : Strand) (r : BitVec 4) : Vector Lane 16 := t.v.get r.toFin

/-- A vector register written. -/
def Strand.setV (t : Strand) (r : BitVec 4) (x : Vector Lane 16) : Strand :=
  { t with v := t.v.set r.toNat x r.isLt }

/-- Register stream qN (R61). -/
def Strand.ring (t : Strand) (n : Nat) : Option Ring :=
  if n = 1 then t.q.q1 else if n = 2 then t.q.q2 else if n = 3 then t.q.q3 else none

/-- Register stream qN rebound. -/
def Strand.setRing (t : Strand) (n : Nat) (r : Option Ring) : Strand :=
  { t with q := if n = 1 then { t.q with q1 := r } else if n = 2 then { t.q with q2 := r }
                else if n = 3 then { t.q with q3 := r } else t.q }

/-- STAT as software reads it (R37). -/
def Ctl.stat (c : Ctl) : Word :=
  w64 (b2n c.sMode + 4 * b2n c.itr + 8 * b2n c.pmode + 16 * b2n c.ganged + 32 * b2n c.glead
       + 64 * b2n c.split + 256 * c.parkCode.toNat)

/-- Sticky flags merged into FFLAGS (R76). -/
def State.mergeFlags (s : State) (f : BitVec 5) : State :=
  s.setCtl { s.self.ctl with fflags := s.self.ctl.fflags ||| f }

/-- The registers of an instruction in flight marked as awaiting its result (R14, R122). -/
def State.markBusy (s : State) (ms : List BusyMark) : State :=
  { s with self := { s.self with waits := { s.self.waits with busy := s.self.waits.busy ++ [ms] } } }

/-! ## Gangs -/

/-- `f` is the SAVED follower of the SAVED leader `l`: saved at the same moment, it stands next in the spawn queue (R34). -/
def Strand.savedPair (l f : Strand) : Bool :=
  l.st == .saved && l.ctl.glead && f.st == .saved && f.id.part == l.id.part && f.ctl.ganged && f.id.order == l.id.order + 1

/-- The follower of the seat's gang: the FROZEN strand in the next slot of its core (R31); of a SAVED leader, the strand
saved with it (R34). -/
def State.follower (s : State) : Option Strand :=
  if s.self.ctl.glead then
    if s.self.st = .saved then s.others.find? s.self.savedPair
    else s.others.find? (fun t => t.st == .frozen &&
      t.inSlot s.self.id.die s.self.id.cluster s.self.id.core (s.self.id.slot + 1))
  else none

/-- A change to the follower of the seat's gang. -/
def State.mapFollower (s : State) (f : Strand → Strand) : State :=
  match s.follower with
  | none => s
  | some t => { s with others := s.others.map (fun x => if x.id.uid = t.id.uid then f x else x) }

/-- A follower when its gang has ended (R33): it goes on at the instruction after its GANG, or stays SAVED there. -/
def Strand.splitOff (t : Strand) : Strand :=
  { t with st := if t.st = .saved then .saved else .active
           ctl := { t.ctl with ganged := false, glead := false, split := true } }

/-- The end of the seat's gang (R33): the follower leaves FROZEN at the instruction after its GANG with SPLIT set,
and GANGED and GLEAD clear in both. -/
def State.endGang (s : State) : State :=
  if s.self.ctl.glead then
    let s := s.mapFollower Strand.splitOff
    s.setCtl { s.self.ctl with ganged := false, glead := false }
  else s

/-! ## Parks -/

/-- The code of a park reason (R16). -/
def Reason.code : Reason → Nat
  | .stopped => 0 | .serve => 1 | .fe => 2 | .qrecv => 3 | .qsend => 4 | .cell => 5 | .page => 6
  | .bwait => 7 | .frwait => 8 | .time => 9 | .gang => 10

/-- The answer is to a read, which is made again when the access is (R147): a load, a tag, a
check. -/
def Answer.isRead (a : Answer) : Bool := a.op == 0 || a.op == 16 || a.op == 20 || a.op == 21

/-- The seat parks (R15, R16). What its access has read at other modules is dropped: it is replayed in full (R147). -/
def State.parkFor (s : State) (r : Reason) (op : Word) (loc : Nat := 0) (wantFull : Bool := true)
    (lane : Nat := 0) : State :=
  { s with self := { s.self with
      st := .parked
      ctl := { s.self.ctl with parkCode := BitVec.ofNat 4 r.code }
      waits := { s.self.waits with answers := s.self.waits.answers.filter (fun a => !a.isRead) }
      park := { reason := r, operand := op, since := s.cycle, loc := loc, wantFull := wantFull, lane := lane } } }

/-- The seat leaves its park (R15). -/
def State.unpark (s : State) : State := { s with self := { s.self with st := .active, park := {} } }

/-- A waiter's condition has become true: the wake is on its way (R39). -/
def Strand.wake (t : Strand) : Strand := { t with park := { t.park with woken := true } }

/-- A parked strand, or one saved while parked. -/
def Strand.parkedFor (t : Strand) (r : Reason) : Bool := t.st == .parked && t.park.reason == r

/-- Every waiter registered on a word whose wanted state the word has entered wakes (R57, R158). -/
def State.wakeWord (s : State) (l : Nat) (full : Bool) : State :=
  s.mapStrands (fun t =>
    if (t.parkedFor .fe || t.parkedFor .qrecv) && t.park.loc == l && t.park.wantFull == full then t.wake else t)

/-- The word's full/empty bit made FULL or EMPTY; waiters for that state wake (R158). -/
def State.setFull (s : State) (l : Nat) (full : Bool) : State := (s.setBit l full).wakeWord l full

/-- A barrier word holds zero or less (R63). -/
def State.barrierDone (s : State) (l : Nat) : Bool := decide ((BitVec.ofNat 64 (s.rd l 8)).toInt ≤ 0)

/-- A strand that waits for a barrier word among the `n` bytes at `l` is woken when the word holds zero or less (R18,
R170). -/
def State.wokenBy (s : State) (l n : Nat) (t : Strand) : Strand :=
  if t.parkedFor .bwait && decide (l < t.park.loc + 8) && decide (t.park.loc < l + n) && s.barrierDone t.park.loc then t.wake
  else t

/-- The BWAIT waiters of the words among `n` bytes that have been written. -/
def State.wakeBars (s : State) (l n : Nat) : State := s.mapStrands (s.wokenBy l n)

/-- Bytes written to storage by an agent that is no strand, and the BWAIT waiters of what they reach (R18, R64). -/
def State.wrWake (s : State) (l : Nat) (bs : List Byte) : State := (s.wrBytes l bs).wakeBars l bs.length

/-- What the seat's access waits for before it enters its home slice (R14). -/
def State.holdFor (s : State) (hs : List Hold) : State :=
  { s with self := { s.self with waits := { s.self.waits with holds := hs } } }

/-- The seat's access waits for nothing. -/
def State.clearHolds (s : State) : State := s.holdFor []

/-! ## Traps -/

/-- The record of a trap (R335, R336): `arg` is the field ARG, bits 63..18 of TCAUSE. -/
structure TrapRec where
  cause    : Nat
  fcode    : Nat := 0
  fabric   : Bool := false
  isDefer  : Bool := false
  arg      : Nat := 0
  info0    : Word := 0#64
  info1    : Word := 0#64
  info2    : Word := 0#64
  info3    : Word := 0#64
deriving DecidableEq, Repr, Inhabited

/-- TCAUSE of a record (R335). -/
def TrapRec.tcause (r : TrapRec) : Word :=
  w64 (r.cause + 2 ^ 8 * r.fcode + 2 ^ 16 * b2n r.fabric + 2 ^ 17 * b2n r.isDefer + 2 ^ 18 * r.arg)

/-- ILL at decode: the instruction word, and for an L pair its second word (R336). -/
def illDecode (w w2 : BitVec 32) : TrapRec := { cause := 1, info0 := w64 w.toNat, info1 := w64 w2.toNat }

/-- ILL at run time: the offending operand, zero where the check names none (R336). -/
def illRun (operand : Word) (w : BitVec 32) : TrapRec :=
  { cause := 1, arg := 1, info0 := operand, info1 := w64 w.toNat }

/-- PRIV (R336). -/
def privTrap (w : BitVec 32) (idx : Nat := 0) : TrapRec := { cause := 2, info0 := w64 w.toNat, info1 := w64 idx }

/-- ALIGN (R336). -/
def alignTrap (a : Word) (lane : Nat := 0) : TrapRec := { cause := 3, info0 := a, info1 := w64 lane }

/-- PROT with its reason (R336). -/
def protTrap (a : Word) (reason : Nat) (lane : Nat := 0) : TrapRec :=
  { cause := 5, info0 := a, info1 := w64 lane, info2 := w64 reason }

/-- QOVF: object and kind (R336). -/
def qovfTrap (obj : Nat) (kind : Nat) (cell : Word := 0#64) : TrapRec :=
  { cause := 7, info0 := w64 obj, info1 := w64 kind, info2 := cell }

/-- A supervisor report waits to be appended to the partition's event queue (R372). -/
def State.report (s : State) (part : Nat) (r : Report) : State :=
  let f := s.host.fns[part]?.getD {}
  { s with host := { s.host with fns := s.host.fns.setIfInBounds part { f with reports := f.reports ++ [r] } } }

/-- The SID of a strand as a number; a strand that never entered a slot has none. -/
def Strand.sidNat (t : Strand) : Nat := match t.id.sid with
  | some x => x.toNat
  | none => 0

/-- The seat stops: PARKED with reason 0, its slot held, and its supervisor is told (R36, R191, R372): kind 1 double
trap, 2 HALT, which the model keeps as the operand of the park. STAT.PARK keeps the code of the last park (log entry
16). -/
def State.stop (s : State) (kind cause : Nat) (pc info : Word) : State :=
  let s := { s with self := { s.self with st := .parked, park := { since := s.cycle, operand := w64 kind } } }
  s.report s.self.id.part
    { word0 := w64 (kind + 2 ^ 8 * cause + 2 ^ 16 * s.self.sidNat), pc := pc, info := info, time := s.plant.time }

/-- Taking a trap, by the seat (R35). A gang ends (R33). The instruction is over, and what its access had from other
modules with it. While STAT.ITR is set it is a double trap (R36), which writes
none of TPC, TCAUSE and TINFO. -/
def State.enterTrap (s : State) (tpc : Word) (r : TrapRec) : State :=
  let s := s.endGang
  if s.self.ctl.itr then s.stop 1 r.cause s.self.pc r.info0
  else
    { s with self := { s.self with
        st := .active
        park := {}
        waits := { s.self.waits with answers := [], holds := [] }
        pc := s.self.ctl.tvec
        ctl := { s.self.ctl with
          tpc := tpc, tcause := r.tcause
          tinfo0 := r.info0, tinfo1 := r.info1, tinfo2 := r.info2, tinfo3 := r.info3
          pmode := s.self.ctl.sMode, sMode := true, itr := true } } }

/-- A precise trap of the seat's instruction (R333). -/
def State.trap (s : State) (r : TrapRec) : State := s.enterTrap s.self.pc r

/-- Return from a trap (R35, R365): the pc becomes TPC, the mode PMODE, and ITR clears. A TPC with bit 1 or 0 set
raises ALIGN and nothing of it takes place. -/
def State.returnFromTrap (s : State) : State :=
  let c := s.self.ctl
  if bits c.tpc 1 0 ≠ 0 then s.trap (alignTrap c.tpc)
  else (s.setPc c.tpc).setCtl { c with sMode := c.pmode, itr := false }

/-- A control transfer (R97): to the target, or ALIGN when bit 1 or bit 0 of it is set. -/
def State.jumpTo (s : State) (target : Word) (also : State → State := id) : State :=
  if bits target 1 0 ≠ 0 then s.trap (alignTrap target) else (also s).setPc target

/-- PRIV in U mode, else the effect (R100). -/
def State.privileged (s : State) (w : BitVec 32) (f : State → State) : State :=
  if s.self.ctl.sMode then f s else s.trap (privTrap w)

/-! ## Partitions, launches, cores -/

/-- A partition. -/
def State.part (s : State) (p : Nat) : Partition := s.host.parts[p]?.getD {}

/-- A partition replaced. -/
def State.setPart (s : State) (p : Nat) (x : Partition) : State :=
  { s with host := { s.host with parts := s.host.parts.setIfInBounds p x } }

/-- A die. -/
def State.die (s : State) (d : Nat) : Die := s.plant.dies[d]?.getD {}

/-- A die replaced. -/
def State.setDie (s : State) (d : Nat) (x : Die) : State :=
  { s with plant := { s.plant with dies := s.plant.dies.setIfInBounds d x } }

/-- A function's host side. -/
def State.fn (s : State) (f : Nat) : HostFn := s.host.fns[f]?.getD {}

/-- A function's host side replaced. -/
def State.setFn (s : State) (f : Nat) (x : HostFn) : State :=
  { s with host := { s.host with fns := s.host.fns.setIfInBounds f x } }

/-- A launch. -/
def State.launch? (s : State) (die lid : Nat) : Option Launch :=
  s.work.launches.find? (fun l => l.die == die && l.lid == lid)

/-- The launch of a strand or access, if it belongs to one (R22). -/
def State.launchOf (s : State) : Context → Option Launch
  | .launch d l => s.launch? d l
  | _ => none

/-- A launch changed. -/
def State.mapLaunch (s : State) (die lid : Nat) (f : Launch → Launch) : State :=
  let ls := s.work.launches.map (fun l => if l.die == die && l.lid == lid then f l else l)
  { s with work := { s.work with launches := ls } }

/-- Something sent to the outside. -/
def State.send (s : State) (m : OutMsg) : State :=
  { s with host := { s.host with outbox := s.host.outbox ++ [m] } }

/-- A core, as it is when nothing has changed it. -/
def State.core (s : State) (die cluster core : Nat) : Core :=
  (s.cores.find? (fun c => c.die == die && c.cluster == cluster && c.core == core)).getD
    { die := die, cluster := cluster, core := core }

/-- A core replaced. -/
def State.setCore (s : State) (c : Core) : State :=
  let rest := s.cores.filter (fun x => !(x.die == c.die && x.cluster == c.cluster && x.core == c.core))
  { s with cores := c :: rest }

/-- Bytes of the spill area that a strand holds in its core's TCM (R46). -/
def Strand.spillSize (t : Strand) : Nat := (t.q.q0max - 8) * 80

/-- TCMLIM of a core (R46): 64 KiB less the spill areas of the strands that hold its slots. -/
def State.tcmLim (s : State) (die cluster core : Nat) : Nat :=
  65536 - (s.all.filter (fun t => t.onCore die cluster core)).foldl (fun n t => n + t.spillSize) 0

/-- Offset of a resident strand's spill area in its core's TCM: below those of the strands that entered before it (R46). -/
def State.spillBase (s : State) (t : Strand) : Nat :=
  let above := s.all.filter (fun x => x.onCore t.id.die t.id.cluster t.id.core && decide (x.id.entryNo ≤ t.id.entryNo))
  65536 - above.foldl (fun n x => n + x.spillSize) 0

/-- A message beyond the eighth as the spill area holds it (R62): 64 bytes of payload, 16 of sender, width and sequence. -/
def Msg.spillBytes (m : Msg) : List Byte :=
  leBytes 64 m.payload.toNat ++ leBytes 8 (m.sender.toNat + 2 ^ 16 * b2n m.wide) ++ leBytes 8 m.seqNo

/-- The place of a message in its strand's spill area. -/
def State.spillLoc (s : State) (t : Strand) (m : Msg) : Nat :=
  tcmLoc t.id.die t.id.cluster t.id.core (s.spillBase t + m.seqNo % (t.q.q0max - 8) * 80)

/-- The messages of a resident strand beyond the first eight written into its spill area (R46, R62). -/
def State.laySpill (s : State) (t : Strand) : State :=
  if t.resident then (t.q.q0.drop 8).foldl (fun s m => s.wrBytes (s.spillLoc t m) m.spillBytes) s else s

/-- A message beyond the eighth as its spill entry now holds it: S-mode code may have written there (R46). -/
def State.unspill (s : State) (t : Strand) (m : Msg) : Msg :=
  let l := s.spillLoc t m
  let h := s.rd (l + 64) 8
  { m with payload := BitVec.ofNat 512 (s.rd l 64), sender := BitVec.ofNat 16 h, wide := h / 2 ^ 16 % 2 == 1 }

/-- The messages of a strand, those beyond the first eight of a resident one read from its spill area. -/
def State.heldMsgs (s : State) (t : Strand) : List Msg :=
  if t.resident then t.q.q0.take 8 ++ (t.q.q0.drop 8).map (s.unspill t) else t.q.q0

/-- The messages of a core's strands taken up from its spill areas, before a strand leaves it. -/
def State.liftSpills (s : State) (die cluster core : Nat) : State :=
  s.mapStrands (fun t => if t.onCore die cluster core then { t with q := { t.q with q0 := s.heldMsgs t } } else t)

/-- The spill areas of a core after a strand has left it: those below have moved up with their entries (R46). -/
def State.laySpills (s : State) (die cluster core : Nat) : State :=
  (s.all.filter (fun t => t.onCore die cluster core)).foldl State.laySpill s

/-- The free value of the state's counter, and the state with the counter advanced. -/
def State.freeValue (s : State) : BitVec 512 × State :=
  (Config.freeValue s.free, { s with free := s.free + 1 })

/-- The identity and place under which a strand's accesses are made (R65, R66). -/
def Strand.site (t : Strand) : Site :=
  { part := t.id.part, ctx := t.id.ctx, die := t.id.die, cluster := t.id.cluster, core := t.id.core
    sMode := t.ctl.sMode, asid := t.ctl.asid.toNat, ptb := t.ctl.ptb, tvec := t.ctl.tvec
    spbase := t.ctl.spbase.toNat, splim := t.ctl.splim.toNat
    swbase := t.ctl.swbase.toNat, swlim := t.ctl.swlim.toNat }

/-- The word of an instruction, for the record of a trap (R336). -/
def insWord (i : Instr) : BitVec 32 := (encode i).headD 0#32

end Sys2Proof.Machine
end

