-- ==== Sys2Proof/Machine/Notify.lean ====
section
/-! DEFINITION. What partitions and hosts are told and charged: interrupt vectors, notify words, budgets. -/
namespace Sys2Proof.Machine

/-- A vector of a function signalled (R368): a masked one sets its Pending Bit, another sends its message. Table entries
have the layout of PCIe: address, data, and the mask in bit 96. -/
def State.signal (s : State) (f v : Nat) : State :=
  let x := s.fn f
  match x.msix[v]? with
  | none => s
  | some e =>
    if e.getLsbD 96 then s.setFn f { x with pba := x.pba ||| (1#64 <<< v) }
    else s.send (.msix f (e.truncate 64) (e.extractLsb' 64 32))

/-- The location of a notify word, and of any scratchpad or die SRAM address of a partition given as a window offset
(R45, R452); none when its 8 bytes leave the partition's bounds on the die. -/
def State.notifyLoc (s : State) (part die cluster : Nat) (a : Word) : Option Nat :=
  let x := (s.part part).dies[die]?.getD {}
  let off := a.toNat % 2 ^ 60
  if a.toNat / 2 ^ 60 = 0xD ∧ off + 8 ≤ x.spl * 2 ^ 16 ∧ off + 8 ≤ 2 ^ 21 then
    some (spLoc die cluster (x.spb * 2 ^ 16 + off))
  else if a.toNat / 2 ^ 60 = 0xF ∧ off + 8 ≤ x.swl * 2 ^ 20 ∧ off + 8 ≤ 2 ^ 26 then
    some (swLoc die (x.swb * 2 ^ 20 + off))
  else none

/-- The event write of a notify word (R454). -/
def State.writeNotify (s : State) (l source die value : Nat) : State :=
  let count := if s.isFull l then min (s.rd l 8 / 2 ^ 16 % 2 ^ 16 + 1) 65535 else 1
  (s.wrWake l (leBytes 8 (source + 2 ^ 8 * die + 2 ^ 16 * count + 2 ^ 32 * value))).setFull l true

/-- An event of a subscription (R452, R454). -/
def State.raise (s : State) (part : Nat) (b : Subscription) (value : Nat) : State :=
  let s := match s.notifyLoc part b.die b.cluster b.notify with
    | some l => s.writeNotify l b.source b.die value
    | none => s
  if b.vec = 0 then s else s.signal part b.vec

/-- The events of the partition's subscriptions to a source of a die. -/
def State.raiseAll (s : State) (part source die value : Nat) : State :=
  ((s.part part).subs.filter (fun b => b.source == source && b.die == die)).foldl
    (fun s b => s.raise part b value) s

/-- Whether a partition's budget admits an operation on a die (R393). -/
def State.admits (s : State) (part die which : Nat) : Bool :=
  match (s.part part).budget[which]?.getD none with
  | none => true
  | some _ => decide (0 < (((s.part part).avail[die]?.getD {}).left[which]?.getD 0))

/-- An operation charged to a partition's budget on a die; the first exhaustion of the period is reported (R393, R453). -/
def State.charge (s : State) (part die which n : Nat) : State :=
  let p := s.part part
  let a := p.avail[die]?.getD {}
  let used := a.used.setIfInBounds which ((a.used[which]?.getD 0) + n)
  match p.budget[which]?.getD none with
  | none => s.setPart part { p with avail := p.avail.setIfInBounds die { a with used := used } }
  | some _ =>
    let left := (a.left[which]?.getD 0) - n
    let first := decide (left ≤ 0) && !(a.told[which]?.getD true)
    let told := if first then a.told.setIfInBounds which true else a.told
    let a := { a with left := a.left.setIfInBounds which left, used := used, told := told }
    let s := s.setPart part { p with avail := p.avail.setIfInBounds die a }
    if first then s.raiseAll part (5 + which) die 0 else s

end Sys2Proof.Machine
end

