-- ==== Sys2Proof/Machine/Translate.lean ====
section
/-! DEFINITION. Address forms, local bounds, page tables, TLBs and the checks that every access makes. -/
namespace Sys2Proof.Machine

/-! ## A partition's reach (R360, R363, R380, R418) -/

/-- First byte of die `d` of this module in the physical address space (R52). -/
def State.dieBase (s : State) (d : Nat) : Nat := s.plant.modNum * 2 ^ 43 + d * 2 ^ 40

/-- The save area of a partition on a die: 256 MiB at the top of its first granule there, when SPL is not 0 (R380). -/
def State.saveArea (s : State) (p d : Nat) : Option (Nat × Nat) :=
  let x := (s.part p).dies[d]?.getD {}
  if x.spl ≠ 0 ∧ x.dcnt ≠ 0 then some (s.dieBase d + (x.dbase + 1) * 2 ^ 30 - 2 ^ 28, 2 ^ 28) else none

/-- The eclosion overflow area of a partition, in whole pages (R380). -/
def State.overflowArea (s : State) (p : Nat) : Option (Nat × Nat) :=
  let q := s.part p
  match (List.range 8).find? (fun d => (q.dies[d]?.getD {}).dcnt ≠ 0) with
  | none => none
  | some d =>
    let x := q.dies[d]?.getD {}
    let top := s.dieBase d + (x.dbase + 1) * 2 ^ 30 - (if x.spl ≠ 0 then 2 ^ 28 else 0)
    let len := ((q.eovf + 2 ^ 18) * 32 + 4095) / 4096 * 4096
    some (top - len, len)

/-- Two byte ranges meet. -/
def overlap (a n b m : Nat) : Bool := decide (a < b + m) && decide (b < a + n)

/-- Granules or error units of `u` bytes that a range meets. -/
def unitsOf (l n u : Nat) : List Nat := (List.range (n / u + 2)).filterMap (fun i =>
  let g := l / u * u + i * u
  if g < l + n then some g else none)

/-- The range lies in carved memory at some byte (R363). -/
def State.carved (s : State) (p pa len : Nat) : Bool :=
  ((s.overflowArea p).toList ++ (List.range 8).filterMap (s.saveArea p)).any (fun r => overlap pa len r.1 r.2)

/-- Every byte of the range lies in a DRAM granule of the partition on this module. -/
def State.inGranules (s : State) (p pa len : Nat) : Bool :=
  let x := (s.part p).dies[paDie pa]?.getD {}
  let off := pa % 2 ^ 40
  (s.part p).valid && paModule pa == s.plant.modNum && decide (pa < 2 ^ 52) &&
    decide (x.dbase * 2 ^ 30 ≤ off) && decide (off + len ≤ (x.dbase + x.dcnt) * 2 ^ 30)

/-- The binding in force between the partition and a module (R418). -/
def State.peerOf (s : State) (p m : Nat) : Option Peer :=
  s.host.peers.find? (fun b => b.part == p && b.remModule == m && b.mine && b.theirs)

/-- Every byte of the range lies in a granule of the bound partition of another module of the domain (R418, R442). -/
def State.inPeer (s : State) (p pa len : Nat) : Bool :=
  paModule pa != s.plant.modNum && decide (pa < 2 ^ 52) && Config.inDomain (paModule pa) &&
  match s.peerOf p (paModule pa) with
  | none => false
  | some b =>
    let g := b.granules.getD (paDie pa) (0, 0)
    let off := pa % 2 ^ 40
    decide (g.1 * 2 ^ 30 ≤ off) && decide (off + len ≤ (g.1 + g.2) * 2 ^ 30)

/-- Where a partition's translations may lead (R363, R404). -/
def State.reach (s : State) (p pa len : Nat) : Bool :=
  (s.inGranules p pa len && !(s.carved p pa len)) || s.inPeer p pa len

/-! ## Keys of lines (R366, R367) -/

/-- The key that a selector of a partition names now. -/
def State.keyOf (s : State) (part sel : Nat) : DramKey := if sel = 0 then some (part, (s.part part).keyGen.toNat) else none

/-- The key of a line that is not listed: that of its granule, or, where none is named, the partition's. -/
def State.fillKey (s : State) (part line : Nat) : DramKey :=
  match s.m.fills.find? (fun g => g.1 == line / 2 ^ 30) with
  | some g => g.2
  | none => s.keyOf part 0

/-- A line of DRAM as it is now: the bytes and the key under which they were stored. What has been written since the line
was shown under a key was stored under that one. -/
def State.storedAs (s : State) (part line : Nat) : DramKey × BitVec 512 :=
  let now := BitVec.ofNat 512 (s.rd line 64)
  match s.m.keyed.find? (fun k => k.line == line) with
  | none => (s.fillKey part line, now)
  | some k =>
    if k.seen = k.stored then (k.stored, now)
    else if now = Config.keyView k.stored k.seen line k.plain then (k.stored, k.plain)
    else (k.seen, now)

/-- The key under which a line is shown. -/
def State.seenUnder (s : State) (part line : Nat) : DramKey :=
  match s.m.keyed.find? (fun k => k.line == line) with
  | some k => k.seen
  | none => s.fillKey part line

/-- A line shown as other bytes. -/
def State.showLine (s : State) (line shown : Nat) (keyed : List KeyedLine) : State :=
  { s with m := { s.m with mem := memWrite s.m.mem line (leBytes 64 shown), keyed := keyed } }

/-- The bytes of a line as a key decrypts them. -/
def State.underKey (s : State) (part line : Nat) (key : DramKey) : BitVec 512 :=
  let q := s.storedAs part line
  if q.1 = key then q.2 else Config.keyView q.1 key line q.2

/-- The line of an address shown under a selector of the partition's keys: its bytes as they are decrypted so. Nothing that
is stored changes. -/
def State.useKey (s : State) (part sel pa : Nat) : State :=
  let line := pa / 64 * 64
  let key := s.keyOf part sel
  let q := s.storedAs part line
  let d := s.fillKey part line
  let rest := s.m.keyed.filter (fun k => k.line != line)
  let keyed := if key = d ∧ q.1 = d then rest else { line := line, seen := key, stored := q.1, plain := q.2 } :: rest
  if s.seenUnder part line = key then s else s.showLine line (s.underKey part line key).toNat keyed


/-- The lines of a range shown under a selector. -/
def State.useKeys (s : State) (part sel pa n : Nat) : State :=
  (unitsOf pa n 64).foldl (fun s l => s.useKey part sel l) s

/-- The lines of a range as plain text (R375): each under no encryption where it is stored so, else under the partition's
key. -/
def State.plainKeys (s : State) (part pa n : Nat) : State :=
  (unitsOf pa n 64).foldl (fun s l => s.useKey part (if (s.storedAs part l).1 = none then 1 else 0) l) s

/-- The `n`-byte number at an address of one line, read under a selector. -/
def State.rdKey (s : State) (part sel pa n : Nat) : Nat := (s.useKey part sel pa).rd pa n

/-! ## The walk (R402 to R404) -/

/-- How a walk ends. -/
inductive Walk where
  | absent | malformed | found (e : TlbEntry)
deriving DecidableEq, Repr

/-- The fields of a leaf that stay as the entry has them. -/
def leafEntry (part asid level va e : Nat) : TlbEntry :=
  let size := if level = 1 then 2 ^ 30 else if level = 2 then 2 ^ 21 else if natBit e 11 then 2 ^ 16 else 2 ^ 12
  { holder := .l2 0 0, part := part, asid := if natBit e 6 then none else some asid
    vbase := va / size * size, size := size, pbase := natBits e 51 12 * 4096
    r := natBit e 2, w := natBit e 3, x := natBit e 4, u := natBit e 5, c := natBit e 7, key := natBits e 9 8 }

/-- An entry of which a bit that must be zero is set, or which its level does not allow (R404). -/
def entryMalformed (level e : Nat) : Bool :=
  let leaf := natBit e 1
  natBit e 10 || natBits e 55 52 != 0
    || (leaf && level == 0) || (!leaf && level == 3) || (natBit e 11 && level != 3)
    || (!leaf && (natBit e 2 || natBit e 3 || natBit e 4 || natBit e 5 || natBit e 6 || natBit e 7
        || natBits e 9 8 != 0 || natBit e 11))
    || (leaf && natBit e 3 && !(natBit e 2))
    || (leaf && level == 1 && natBits e 29 12 != 0) || (leaf && level == 2 && natBits e 20 12 != 0)
    || (leaf && natBit e 11 && natBits e 15 12 != 0)
    || decide (2 ≤ natBits e 9 8)

/-- The walk from a level downward: the list gives each level's low bit and index width. A table of another module is
outside this module's memory; its walk fails (log entry 21). -/
def State.walkFrom (s : State) (part asid va : Nat) : List (Nat × Nat) → Nat → Nat → Nat → Walk
  | [], _, _, _ => .malformed
  | (lo, n) :: rest, level, table, tlen =>
    if !(s.reach part table tlen) || paModule table != s.plant.modNum then .malformed
    else
      let e := s.rdKey part 0 (table + (va / 2 ^ lo % 2 ^ n) * 8) 8
      if !(natBit e 0) then .absent
      else if entryMalformed level e then .malformed
      else if natBit e 1 then
        let t := leafEntry part asid level va e
        if s.reach part t.pbase t.size then .found t else .malformed
      else s.walkFrom part asid va rest (level + 1) (natBits e 51 12 * 4096) 4096

/-- The walk of a virtual address under a page-table base (R402). -/
def State.walk (s : State) (site : Site) (va : Nat) : Walk :=
  s.walkFrom site.part site.asid va [(39, 17), (30, 9), (21, 9), (12, 9)] 0 (bits site.ptb 51 12 * 4096) (2 ^ 20)

/-! ## TLBs (R406 to R410) -/

/-- The entry translates the address for the partition and ASID. -/
def TlbEntry.covers (e : TlbEntry) (part asid va : Nat) : Bool :=
  e.part == part && (e.asid == none || e.asid == some asid) && decide (e.vbase ≤ va) && decide (va < e.vbase + e.size)

/-- How many entries a TLB holds (R406). -/
def TlbHolder.cap : TlbHolder → Nat
  | .l1 .. => 1024 | .l2 .. => 16384 | .engine .. => 64

/-- An entry put into its TLB. A full TLB, with its pinned entries counted (R406, R410), gives up its oldest entry that is not
pinned (log entry 22). -/
def tlbInsert (l : List TlbEntry) (e : TlbEntry) : List TlbEntry :=
  let mine := l.filter (fun x => x.holder == e.holder)
  match (mine.filter (fun x => x.pin == none)).getLast? with
  | none => e :: l
  | some old => e :: (if mine.length < e.holder.cap then l else l.erase old)

/-- Entries put into their TLBs. -/
def State.tlbFill (s : State) (e : TlbEntry) (hs : List TlbHolder) : State :=
  { s with m := { s.m with tlb := hs.foldl (fun l h => tlbInsert l { e with holder := h }) s.m.tlb } }

/-- How the translation of an address ends. -/
inductive Trans where
  | hit (e : TlbEntry) | absent | bad
deriving DecidableEq, Repr

/-- Translation through the TLBs of a list, first to last, then by a walk that fills them. -/
def State.translate (s : State) (site : Site) (hs : List TlbHolder) (va : Nat) : Trans × State :=
  match hs.findSome? (fun h => s.m.tlb.find? (fun e =>
      e.holder == h && !e.stale && e.covers site.part site.asid va)) with
  | some e => (.hit e, if hs.head? == some e.holder then s else s.tlbFill { e with pin := none } (hs.take 1))
  | none => match s.walk site va with
    | .absent => (.absent, s)
    | .malformed => (.bad, s)
    | .found e => (.hit e, s.tlbFill e hs)

/-- The TLBs of a strand (R406). -/
def Site.tlbs (x : Site) : List TlbHolder := [.l1 x.die x.cluster x.core, .l2 x.die x.cluster]

/-- Kinds of access (R405). -/
inductive Acc where
  | load | store | atomic | fetch | csus | cellRead
deriving DecidableEq, Repr

/-- What the leaf permits (R405); U mode also needs U. -/
def TlbEntry.permits (e : TlbEntry) (a : Acc) (sMode : Bool) : Bool :=
  (sMode || e.u) &&
  match a with
  | .load => e.r | .store => e.w | .atomic => e.r && e.w | .fetch => e.x
  | .csus => e.c && e.w | .cellRead => e.c && e.r

/-- The access kind's bits in a page-fault message (R413). -/
def Acc.kinds : Acc → Nat
  | .load | .cellRead => 1 | .store | .csus => 2 | .atomic => 3 | .fetch => 4

/-! ## Spaces (R44 to R47) -/

/-- Rows of a shape. -/
def Shape.rows : Shape → Nat
  | .whole => 8 | .half => 4 | .quarter => 2

/-- The region that holds a row of a frond. -/
def State.regionAt (s : State) (die cluster frond row : Nat) : Option Region :=
  s.work.regions.find? (fun r => r.die == die && r.cluster == cluster && r.frond == frond &&
    decide (r.row0 ≤ row) && decide (row < r.row0 + r.shape.rows))

/-- A strand, or a copy of it, may reach the MEs of a region (R47, R66): the holder is of its own launch. An evaluator
strand reaches what any strand of its partition placed where it runs would, which is what a launch holds; a configuration that
evaluation packets hold is of no launch (R387), and a pager strand is of none. -/
def Region.heldFor (r : Region) (x : Site) : Bool :=
  r.site.part == x.part &&
  match x.ctx with
  | .launch d l => (match r.holder with
    | .served _ _ h => h == some (d, l)
    | .stream _ _ _ => r.site.ctx == .launch d l)
  | .evaluator => (match r.holder with
    | .served _ _ h => h.isSome
    | .stream _ _ _ => true)
  | .pager => false

/-- Which spaces a form may use: any, local only (full/empty forms, R58), TCM and scratchpad (barriers and rings,
R165, R167), global only (cells, R185). -/
inductive SpaceRule where
  | any | localOnly | barrier | globalOnly
deriving DecidableEq, Repr

/-- Check 1 of R146: the space, its must-be-zero bits and bounds. Answers the reason of a PROT, or the location of a
local address, or none for a global one. -/
def State.space (s : State) (x : Site) (rule : SpaceRule) (a : Word) (size : Nat) : Except Nat (Option Nat) :=
  let n := a.toNat
  let sp := n / 2 ^ 60
  let off := n % 2 ^ 60
  if sp = 0 then
    if off / 2 ^ 56 ≠ 0 ∨ rule = .localOnly ∨ rule = .barrier then .error 1
    else if off + size > 2 ^ 56 then .error 2 else .ok none
  else if sp < 0xC ∨ rule = .globalOnly then .error 1
  else if sp = 0xC then
    if off / 2 ^ 16 ≠ 0 then .error 1
    else if off + size > (if x.sMode then 2 ^ 16 else s.tcmLim x.die x.cluster x.core) then .error 2
    else .ok (some (tcmLoc x.die x.cluster x.core off))
  else if sp = 0xD then
    if off / 2 ^ 21 ≠ 0 then .error 1
    else if off + size > 2 ^ 21 ∨ off + size > x.splim then .error 2
    else .ok (some (spLoc x.die x.cluster (x.spbase + off)))
  else if rule = .barrier then .error 1
  else if sp = 0xE then
    if off % 2 ^ 54 / 2 ^ 15 ≠ 0 then .error 1
    else if off % 2 ^ 15 + size > 2 ^ 15 then .error 2
    else
      let frond := natBits n 59 58
      let row := natBits n 57 55
      match s.regionAt x.die x.cluster frond row with
      | some r => if r.heldFor x then .ok (some (meLoc x.die x.cluster frond row (10 + natBits n 54 54) (off % 2 ^ 15)))
                  else .error 4
      | none => .error 4
  else
    if off / 2 ^ 26 ≠ 0 then .error 1
    else if off + size > 2 ^ 26 ∨ off + size > x.swlim then .error 2
    else .ok (some (swLoc x.die (x.swbase + off)))

/-- Where an access goes: a location, whether it is global, on a cell page, of another module. -/
structure Place where
  loc    : Nat
  glob   : Bool
  cpage  : Bool
  remote : Bool
  /-- The key selector of its page (R367). -/
  key    : Nat := 0
deriving DecidableEq, Repr

/-- How the checks of an access end: places for every lane, a trap, an absent page (lane and address), or a wait for
the DRAM budget of a home slice (R14, R393). -/
inductive Checked where
  | ok (ps : List (Nat × Word × Place))
  | trap (r : TrapRec)
  | page (lane : Nat) (va : Word)
  | wait

/-- Check 1 for every lane. -/
def State.spaces (s : State) (x : Site) (rule : SpaceRule) (size : Nat) :
    List (Nat × Word) → Except TrapRec (List (Nat × Word × Option Nat))
  | [] => .ok []
  | (i, a) :: rest => match s.space x rule a size with
    | .error reason => .error (protTrap a reason i)
    | .ok l => match s.spaces x rule size rest with
      | .error r => .error r
      | .ok ls => .ok ((i, a, l) :: ls)

/-- Check 3 for every lane, from the first. -/
def State.places (s : State) (x : Site) (acc : Acc) : List (Nat × Word × Option Nat) → Checked × State
  | [] => (.ok [], s)
  | (i, a, l) :: rest =>
    match l with
    | some loc => match s.places x acc rest with
      | (.ok ps, s') => (.ok ((i, a, { loc := loc, glob := false, cpage := false, remote := false }) :: ps), s')
      | r => r
    | none => match s.translate x x.tlbs a.toNat with
      | (.absent, s') => (.page i a, s')
      | (.bad, s') => (.trap (protTrap a 3 i), s')
      | (.hit e, s') =>
        if !(e.permits acc x.sMode) then (.trap (protTrap a 3 i), s')
        else
          let pa := e.pbase + (a.toNat - e.vbase)
          match s'.places x acc rest with
          | (.ok ps, s'') =>
            (.ok ((i, a, { loc := pa, glob := true, cpage := e.c, remote := paModule pa != s.plant.modNum, key := e.key }) :: ps), s'')
          | r => r

/-- A UALink port is out of service (R439, R463). -/
def State.portOut (s : State) (i : Nat) : Bool := (s.host.ports[i]?.getD {}).mapped

/-- The ports in the order in which a line's hash tries them: all 36, from the one that the hash names (R440). -/
def linkOrder (pa : Nat) : List Nat := (List.range 36).map (fun i => (Config.linkHash (pa / 64) + i) % 36)

/-- The UALink port that carries a request: the first of its line's order that is in service (R440, R463). -/
def State.linkPort (s : State) (pa : Nat) : Nat := ((linkOrder pa).dropWhile s.portOut).headD 0

/-- The requests to a line are held (R463): a port that carried the line and is mapped out has a request outstanding. -/
def State.lineHeld (s : State) (pa : Nat) : Bool :=
  ((linkOrder pa).takeWhile s.portOut).any (fun i => s.host.outstanding.any (fun o => o.sent && o.port == i))

/-- A request to another module may be sent: the LINK budget admits it (R393) and its line is not held (R463). -/
def State.linkAdmits (s : State) (part die pa : Nat) : Bool := s.admits part die 3 && !(s.lineHeld pa)

/-- A request goes out on the port of its line, and its time without a response begins (R439, R463). -/
def State.onPort (s : State) : OutMsg → State
  | .request rq _ _ pa _ _ _ _ _ =>
    let fix (o : Outstanding) : Outstanding :=
      if o.rq = rq then { o with port := s.linkPort pa, sent := true, since := s.plant.time } else o
    { s with host := { s.host with outstanding := s.host.outstanding.map fix } }
  | _ => s

/-- A message put on a port for a partition: the port holds it while the LINK budget is spent (R393), while the requests to its
line are held (R463), and behind an earlier message that it holds for the partition. -/
def State.sendLink (s : State) (part die : Nat) (line : Option Nat) (m : OutMsg) : State :=
  let goes := s.admits part die 3 && !(line.any s.lineHeld) && !(s.host.linkQueue.any (fun q => q.1 == part && q.2.1 == die))
  if goes then (s.onPort m).send m else { s with host := { s.host with linkQueue := s.host.linkQueue ++ [(part, die, line, m)] } }

/-- What carries a circuit's token or credit to another module (R443), with the line by which a UALink port is chosen. A
credit is chosen for as the token after the last sequence number. -/
def State.carrier (s : State) (part circ seq mod : Nat) : Carrier × Option Nat :=
  let line := 64 * Config.circuitLine part circ seq
  if Config.inDomain mod then (.ualink (s.linkPort line), some line) else (.ethernet (Config.ethernetPort part circ seq % 4), none)

/-- A message on the port that carries it now (R463). -/
def State.reroute (s : State) : OutMsg → OutMsg
  | .credit part circ die mod _ => .credit part circ die mod (s.carrier part circ 65536 mod).1
  | m => m

/-- A check that other modules keep for a strand's store (log entry 65) is still its strand's. -/
def State.keepsOn (s : State) (k : Kept) : Bool :=
  s.all.any (fun t => t.live && t.id.uid == k.uid && t.waits.answers.any (fun a => a.op == 21 && a.pa == k.pa))

/-- The checks that no strand's store uses any more are given up at their home modules. -/
def State.giveUpKept (s : State) : State :=
  (s.host.kept.filter (fun k => !(s.keepsOn k))).foldl (fun s k =>
    s.sendLink k.part (((s.strand? k.uid).map (·.id.die)).getD 0) (some k.pa) (.request k.rq 22 32 k.pa 0#64 0#512 0#64 0 true))
    { s with host := { s.host with kept := s.host.kept.filter s.keepsOn } }

/-- What the ports hold is put on them again, oldest first; checks given up follow. -/
def State.flushLinks (s : State) : State :=
  State.giveUpKept <| s.host.linkQueue.foldl (fun s q => s.sendLink q.1 q.2.1 q.2.2.1 (s.reroute q.2.2.2)) { s with host := { s.host with linkQueue := [] } }

/-- A plain store or a release store to another module. -/
def Outstanding.isStore (o : Outstanding) : Bool := o.op == 1 || o.op == 13

/-- A store still in the outbound buffer that meets the bytes. A store that meets another waits for it, so that there is
at most one over each byte (R313). -/
def State.buffered (s : State) (pa n : Nat) : Option Outstanding :=
  s.host.outstanding.find? (fun o => o.isStore && overlap o.pa o.width pa n)

/-- The buffered store is a plain one that will be performed and holds all the bytes: a read of this module may take them from
it (R312, R319). -/
def Outstanding.forwards (o : Outstanding) (pa n : Nat) : Bool :=
  o.op == 1 && o.sure && decide (o.pa ≤ pa) && decide (pa + n ≤ o.pa + o.width)

/-- The answer is to a check of a place (R146). -/
def Answer.isCheck (a : Answer) : Bool := a.op == 20 || a.op == 21

/-- The answer that another module has given for a place of the seat's access: the lanes that read from one address share it
(R151). -/
def State.answerOf (s : State) (pa : Nat) : Option Answer :=
  s.self.waits.answers.find? (fun a => a.pa == pa && !a.isCheck)

/-- The tag of another module's granule as the check of a lane found it (R153), 4 for an error mark (R459). -/
def State.tagFound (s : State) (pa : Nat) : Option Nat :=
  (s.self.waits.answers.find? (fun a => a.pa == pa / 32 * 32 && a.isCheck)).map (fun a => a.data.toNat)

/-- What a place of an access waits for before it enters its home slice (R14): the DRAM budget of its die (R393); of another
module, a store in the outbound buffer (R313, R318), the LINK budget (R393) and a held line (R463). -/
def State.holdOf (s : State) (x : Site) (size : Nat) (fwd : Bool) (q : Nat × Word × Place) : Option Hold :=
  let pa := q.2.2.loc
  if q.2.2.remote then
    if (s.answerOf pa).isSome then none
    else match s.buffered pa size with
      | some o => if fwd && o.forwards pa size then none else some (.buffer pa size)
      | none => if s.linkAdmits x.part x.die pa then none else some (.link pa)
  else if q.2.2.glob && s.self.waits.answers.isEmpty && !(s.admits x.part (paDie pa) 2) then some (.slice (paDie pa))
  else none

/-- The accesses of a list of places enter their home slices together: they wait while one of them must, and are charged
in full otherwise (R393), once for an instruction that then waits for answers of other modules. -/
def State.enterSlices (s : State) (x : Site) (size : Nat) (fwd : Bool) (ps : List (Nat × Word × Place)) : Checked × State :=
  let here := ps.filter (fun q => q.2.2.glob && !q.2.2.remote && s.self.waits.answers.isEmpty)
  match ps.filterMap (s.holdOf x size fwd) with
  | [] => (.ok ps, here.foldl (fun s q => s.charge x.part (paDie q.2.2.loc) 2 size) s)
  | hs => (.wait, s.holdFor hs)

/-- A hold is over. -/
def State.holdOver (s : State) (x : Site) : Hold → Bool
  | .slice d => s.admits x.part d 2
  | .link pa => s.linkAdmits x.part x.die pa
  | .buffer pa n => (s.buffered pa n).isNone
  | .acks m => !(s.host.outstanding.any (fun o => o.isStore && o.part == x.part && decide (o.rq < m)))

/-- The checks 1 to 3 of R146 on the active lanes of an access, in order; `fwd` when the access may read a plain store of
the outbound buffer. -/
def State.check (s : State) (x : Site) (rule : SpaceRule) (acc : Acc) (size align : Nat)
    (lanes : List (Nat × Word)) (fwd : Bool := false) : Checked × State :=
  let s := s.clearHolds
  match s.spaces x rule size lanes with
  | .error r => (.trap r, s)
  | .ok ls => match lanes.find? (fun p => p.2.toNat % align != 0) with
    | some p => (.trap (alignTrap p.2 p.1), s)
    | none => match s.places x acc ls with
      | (.ok ps, s') => s'.enterSlices x size fwd ps
      | r => r

/-! ## Page faults (R411, R416) -/

/-- A page fault of the seat at an address: the strand parks and the fault enters its core's port of the cluster router;
the pager's own fault, and every fault before a PAGER_SET, is fatal at once (R416). -/
def State.pageFault (s : State) (va : Word) (lane kinds : Nat) : State :=
  let t := s.self
  if t.id.ctx = .pager ∨ (s.part t.id.part).pager = none then
    s.trap { cause := 4, info0 := va, info1 := w64 lane }
  else
    let s := s.parkFor .page va 0 true lane
    let m : FaultMsg := { router := .cluster t.id.die t.id.cluster, port := t.id.core, part := t.id.part
                          asid := t.ctl.asid.toNat, page := va.toNat / 4096 * 4096, kinds := kinds, mp := false }
    { s with cells := { s.cells with faults := s.cells.faults ++ [m] } }

/-- The lines of an access's places in this module's DRAM, each shown under the selector of its page. -/
def State.underKeys (s : State) (ps : List (Nat × Word × Place)) : State :=
  ps.foldl (fun s q => if q.2.2.glob && !q.2.2.remote then s.useKey s.self.id.part q.2.2.key q.2.2.loc else s) s

/-- What follows the checks: the trap, the park, or the access at its places. -/
def State.afterCheck (c : Checked × State) (acc : Acc) (f : List (Nat × Word × Place) → State → State) : State :=
  match c with
  | (.trap r, s) => s.trap r
  | (.page i va, s) => s.pageFault va i acc.kinds
  | (.wait, s) => s
  | (.ok ps, s) => f ps (s.underKeys ps)

end Sys2Proof.Machine
end

