-- ==== Sys2Proof/Machine/Cells.lean ====
section
/-! DEFINITION. Chrysalis cells at their home slice (R290 to R310): eclosion, waiting, waking, replacing. -/
namespace Sys2Proof.Machine

/-! ## Requests to other modules (R53, R439 to R441) -/

/-- A request sent over the links, its bytes charged to the partition on the sender's die (R393). `agent` is 0 for a
strand, 1 for a memory port, 2 for a copy engine, 3 for a strand's store whose places have been checked; `cpage` says whether the
access goes through a mapping with C. Only a checked store is sure to be performed (R292, R312, R459). -/
def State.ask (s : State) (op width pa : Nat) (va : Word) (data : BitVec 512) (expected : Word) (uid part die : Nat)
    (w : Option Waiter) (cid : Option Nat) (agent : Nat) (cpage : Bool) (lane : Nat := 0) : State :=
  let o : Outstanding := { rq := s.fresh, port := s.linkPort pa, waiter := w, copy := cid, part := part, uid := uid
                           op := op, width := width, pa := pa, va := va, lane := lane, data := data, since := s.plant.time
                           sure := op == 1 && agent == 3, sent := false }
  let s := { s with host := { s.host with outstanding := s.host.outstanding ++ [o] } }
  let s := s.sendLink part die (some pa) (.request o.rq op width pa va data expected agent cpage)
  { s with fresh := o.rq + 1 }.charge part die 3 width

/-! ## Configuration ids and image kinds (R428, R467) -/

/-- The loaded graph and frond index that a configuration id names for a partition (R427, R428). -/
def State.graphOfId (s : State) (part id : Nat) : Option (Graph × Nat) :=
  match s.work.graphs.find? (fun g => g.part == part && g.loaded && g.slot == id / 2 ^ 10 % 64
      && g.gen % 2 ^ 15 == id / 2 ^ 16) with
  | some g => some (g, id % 2 ^ 10)
  | none => none

/-- The image that a configuration id names for a partition. -/
def State.image? (s : State) (part id : Nat) : Option Image :=
  match s.graphOfId part id with
  | some (g, f) => g.images[f]?
  | none => none

/-- Whether an image of that kind runs in a cluster: 0 to 47 are broad, 48 to 63 narrow (R194, R467). -/
def ImageKind.runsIn (k : ImageKind) (cluster : Nat) : Bool :=
  match k with
  | .broad => decide (cluster < 48) | .narrow => decide (48 ≤ cluster) | .either => true

/-! ## The eclosion tables (R295, R296) -/

/-- The eclosion of a cell, by the physical address of the cell. -/
def State.eclosionOf (s : State) (pa : Nat) : Option Eclosion :=
  s.cells.eclosions.find? (fun e => e.cell == pa / 32 * 32)

/-- Eclosions changed. -/
def State.mapEclosion (s : State) (eid : Nat) (f : Eclosion → Eclosion) : State :=
  { s with cells := { s.cells with eclosions := s.cells.eclosions.map (fun e => if e.eid = eid then f e else e) } }

/-- Overflow entries that a partition holds: one for each cell entry beyond its slice's 64, one for each waiter beyond
four (R296). -/
def State.overflowUsed (s : State) (part : Nat) : Nat :=
  (s.cells.eclosions.filter (fun e => e.site.part == part)).foldl
    (fun n e => n + (b2n e.overflow) + (e.waiters.length - 4)) 0

/-- The overflow entries that a partition may hold (R296). -/
def State.overflowCap (s : State) (part : Nat) : Nat :=
  (s.part part).eovf + (s.work.launches.filter (fun l => l.part == part)).foldl (fun n l => n + l.kernel.cells) 0

/-- The slice's 64 entries are all in use. -/
def State.sliceFull (s : State) (pa : Nat) : Bool :=
  decide (64 ≤ (s.cells.eclosions.filter (fun e => !e.overflow && paDie e.cell == paDie pa
    && paSlice e.cell == paSlice pa)).length)

/-- The rule of a record names a cluster (R297): LOADER the launching access's, PINNED its own; HOME and ANY none. A
remote access's LOADER and ANY are HOME (R294). -/
def ruleCluster (word2 : Word) (x : Site) (remote : Bool) : Option Nat :=
  if bits word2 1 0 = 0 ∧ !remote then some x.cluster else if bits word2 1 0 = 2 then some (bits word2 7 2) else none

/-- Word 0 of a record names no evaluator (R300). -/
def State.entryInvalid (s : State) (x : Site) (remote : Bool) (word0 word2 : Word) : Bool :=
  if !(word0.getLsbD 0) then bits word0 2 1 != 0
  else match s.image? x.part (bits word0 63 1) with
    | none => true
    | some im => !im.served || im.args != 3 || decide (im.res = 0) || decide (4 < im.res) ||
      (match ruleCluster word2 x remote with
       | some c => !(im.kind.runsIn c)
       | none => false)

/-- The values under which an evaluator runs (R298): those of the access's launch, or those of the evaluator or pager
strand itself. They belong to no launch from then on: what an evaluator's own access launches runs under the same values. -/
def State.evalSite (s : State) (x : Site) : Site :=
  match s.launchOf x.ctx with
  | some l => { x with ctx := .evaluator, asid := l.asid, ptb := l.ptb, tvec := l.tvec, sMode := false }
  | none => { x with ctx := .evaluator, sMode := false }

/-- What an eclosion step gives. -/
inductive Eclosed where
  | poisoned | noEntry | started (eid : Nat)
deriving DecidableEq, Repr

/-- A CHRYSALIS cell that a checked store of another module is about to write ecloses only after it (log entry 65). -/
def State.cellHeld (s : State) (pa : Nat) : Bool :=
  s.tag pa == .chrysalis && s.cells.awaited.any (fun x => x.2.2.1 == pa / 32 * 32)

/-- The cells of a partition wait for no store of a module, or of any, whose binding has ended. -/
def State.awaitNone (s : State) (part : Nat) (m : Option Nat) : State :=
  let gone (x : Nat × Nat × Nat × Nat) : Bool := s.inGranules part x.2.2.1 32 && m.all (fun m => m == x.1)
  { s with cells := { s.cells with awaited := s.cells.awaited.filter (fun x => !(gone x)) } }

/-- The eclosion step of R295 on a CHRYSALIS cell; it is charged one unit of EVAL on the home slice's die. -/
def State.eclose (s : State) (x : Site) (remote : Bool) (pa : Nat) (va : Word) (w : Option Waiter) : Eclosed × State :=
  let c := pa / 32 * 32
  let word (i : Nat) : Word := w64 (s.rd (c + 8 * i) 8)
  if s.entryInvalid x remote (word 0) (word 2) then (.poisoned, s.setTag c .poison)
  else
    let beyond := s.sliceFull c
    if beyond ∧ s.overflowCap x.part ≤ s.overflowUsed x.part then (.noEntry, s)
    else
      let e : Eclosion :=
        { eid := s.fresh, cell := c, va := w64 (va.toNat / 32 * 32), site := s.evalSite x
          word0 := word 0, word1 := word 1, word2 := word 2, word3 := word 3
          evaluator := .pending, waiters := w.toList, overflow := beyond, released := false, remote := remote }
      let s := { s with fresh := s.fresh + 1, cells := { s.cells with eclosions := s.cells.eclosions ++ [e] } }
      (.started e.eid, (s.setTag c .eclosing).charge x.part (paDie c) 1 1)

/-- A waiter enqueued on an ECLOSING cell's entry, when the slice or the overflow area can hold it (R296). -/
def State.enqueue (s : State) (e : Eclosion) (w : Waiter) : Option State :=
  if e.waiters.contains w then some s
  else if 4 ≤ e.waiters.length ∧ s.overflowCap e.site.part ≤ s.overflowUsed e.site.part then none
  else some (s.mapEclosion e.eid (fun e => { e with waiters := e.waiters ++ [w] }))

/-- A waiter removed from the entry it waits on (R303, R306, R308). -/
def State.dequeue (s : State) (w : Waiter) : State :=
  let es := s.cells.eclosions.map (fun e => { e with waiters := e.waiters.filter (fun v => v != w) })
  { s with cells := { s.cells with eclosions := es } }

/-- A memory port's access that waits on a cell is ready to replay (R302). The wait was token movement to its end (R304). -/
def State.wakePort (s : State) (rid row key : Nat) : State :=
  let free (p : Spill) : Spill := if p.key = key then { p with onCell := none, asked := none } else p
  let fix (e : Elem) : Elem := if e.col = 0 ∧ e.row = row then
      { e with mp := { e.mp with spill := e.mp.spill.map free } } else e
  { s with work := { s.work with regions := s.work.regions.map (fun r =>
      if r.rid = rid then { r with elems := r.elems.map fix, lastMove := s.plant.cycle } else r) } }

/-- A wake reaches a waiter of a cell (R302). -/
def State.wakeWaiter (part pa : Nat) (s : State) : Waiter → State
  | .strand uid => s.mapStrand uid (fun t => if t.parkedFor .cell then t.wake else t)
  | .mp rid row key => s.wakePort rid row key
  | .remote m rq => s.sendLink part (paDie pa) (some pa) (.wake m rq)

/-- The end of an eclosion (R307): its entry is freed and its waiters wake. -/
def State.endEclosion (s : State) (e : Eclosion) : State :=
  let es := s.cells.eclosions.filter (fun x => x.eid != e.eid)
  e.waiters.foldl (State.wakeWaiter e.site.part e.cell) { s with cells := { s.cells with eclosions := es } }

/-! ## Self-dependence (R305, R306) -/

/-- The cell on which a strand waits, parked or saved. -/
def State.cellWaited (s : State) (uid : Nat) : Option Nat :=
  match s.strand? uid with
  | some t => if (t.st == .parked || t.st == .saved) && t.park.reason == .cell then some t.park.loc else none
  | none => none

/-- What a link of R305 says: the cell's evaluator is the strand itself, it waits on a further cell, or the walk stops. -/
inductive Link where
  | stop | me | next (pa : Nat)
deriving DecidableEq, Repr

/-- The link of a cell of this module; `me` is the strand that is checked, none when it is another module's. -/
def State.linkOf (s : State) (me : Option Nat) (pa : Nat) : Link :=
  match s.eclosionOf pa with
  | none => .stop
  | some e => match e.evaluator with
    | .strand u =>
      if me = some u then .me
      else match s.cellWaited u with
        | some pa' => .next pa'
        | none => .stop
    | _ => .stop

/-- CHAIN of a cell's record (R290). -/
def State.chainOf (s : State) (pa : Nat) : Nat :=
  match s.eclosionOf pa with
  | some e => bits e.word2 63 32
  | none => s.rd (pa / 32 * 32 + 20) 4

/-- How far the check has come: no cycle, a link that another module has to read (with the links found so far and, in *Verify*,
how many are to be read after it), or a cycle that holds. A link is a cell with its CHAIN. -/
inductive Chased where
  | stop | ask (pa : Nat) (path : List (Nat × Nat)) (back : Option Nat) | cycle (path : List (Nat × Nat))
deriving DecidableEq, Repr

/-- *Verify* (R306): the links of a path read again, from the last of the first `i` to the first. -/
def State.verify (s : State) (uid : Nat) (path : List (Nat × Nat)) : Nat → Chased
  | 0 => .cycle path
  | i + 1 => match path[i]? with
    | none => .stop
    | some (pa, _) =>
      let want : Link := match path[i + 1]? with
        | some q => .next q.1
        | none => .me
      if paModule pa ≠ s.plant.modNum then .ask pa path (some i)
      else if s.linkOf (some uid) pa == want then s.verify uid path i else .stop

/-- The hops of R305 from a cell: each link read at its cell's home slice. The number is the hops left. -/
def State.follow (s : State) (uid : Nat) : Nat → List (Nat × Nat) → Nat → Chased
  | 0, _, _ => .stop
  | n + 1, path, pa =>
    if paModule pa ≠ s.plant.modNum then .ask pa path none
    else
      let path' := path ++ [(pa, s.chainOf pa)]
      match s.linkOf (some uid) pa with
      | .stop => .stop
      | .me => s.verify uid path' path'.length
      | .next pa' => s.follow uid n path' pa'

/-- The SELFDEP record (R306, R336). -/
def selfDep (va : Word) (path : List (Nat × Nat)) : TrapRec :=
  let ch (i : Nat) : Nat := (path.getD i (0, 0)).2
  { cause := 10, info0 := va, info1 := w64 path.length
    info2 := w64 (ch 0 + 2 ^ 32 * ch 1), info3 := w64 (ch 2 + 2 ^ 32 * ch 3) }

/-- A strand gives up its wait on a cell: its entry at this module, or the one at the cell's home (R303, R306, R308). -/
def State.leaveCell (s : State) (t : Strand) : State :=
  match t.park.far with
  | some (rq, _) => s.sendLink t.id.part t.id.die (some t.park.loc) (.request rq 17 32 t.park.loc 0#64 0#512 0#64 0 true)
  | none => s.dequeue (.strand t.id.uid)

/-- The check of the seat, which waits on a cell, goes on: SELFDEP, a link of another module asked for, or the wait. -/
def State.chaseOn (s : State) : Chased → State
  | .cycle path => (s.leaveCell s.self).trap (selfDep s.self.park.operand path)
  | .ask pa path back =>
    let c : Chase := { rq := s.fresh, pa := pa, path := path, back := back }
    let s := { s with self := { s.self with park := { s.self.park with chase := some c } } }
    s.ask 19 32 pa s.self.park.operand 0#512 0#64 s.self.id.uid s.self.id.part s.self.id.die
      (some (.strand s.self.id.uid)) none 0 true
  | .stop => { s with self := { s.self with park := { s.self.park with chase := none } } }

/-! ## A strand's loads and atomics at cells (R153, R292) -/

/-- POISONED for a cell, or with ARG bit 18 set for a line with an uncorrectable error (R459). -/
def poisonedTrap (a : Word) (lane : Nat) (line : Bool) : TrapRec :=
  { cause := 12, arg := b2n line, info0 := a, info1 := w64 lane }

/-- CELLBUSY (R336). -/
def cellBusy (a : Word) (tag : Nat) : TrapRec := { cause := 9, info0 := a, info1 := w64 tag }

/-- Address of the cell that holds a virtual address. -/
def cellVa (va : Word) : Word := w64 (va.toNat / 32 * 32)

/-- The seat waits on an ECLOSING cell: enqueued first, checked for self-dependence afterwards (R305). -/
def State.waitOnCell (s : State) (va : Word) (pa lane : Nat) : State :=
  match s.eclosionOf pa with
  | none => s
  | some e => match s.enqueue e (.strand s.self.id.uid) with
    | none => s.trap (qovfTrap s.self.id.part 2 (cellVa va))
    | some s' =>
      match s'.follow s.self.id.uid 4 [] (pa / 32 * 32) with
      | .cycle p => (s'.dequeue (.strand s.self.id.uid)).trap (selfDep (cellVa va) p)
      | c => (s'.parkFor .cell (cellVa va) (pa / 32 * 32) true lane).chaseOn c

/-- A strand's load or atomic meets a cell that is not VALUE. -/
def State.meetCell (s : State) (va : Word) (pa lane : Nat) : State :=
  match s.tag pa with
  | .value => s
  | .poison => s.trap (poisonedTrap (cellVa va) lane false)
  | .eclosing => s.waitOnCell va pa lane
  | .chrysalis => match s.eclose s.self.site false pa va (some (.strand s.self.id.uid)) with
    | (.poisoned, s') => s'.trap (poisonedTrap (cellVa va) lane false)
    | (.noEntry, s') => s'.trap (qovfTrap s.self.id.part 2 (cellVa va))
    | (.started _, s') => s'.parkFor .cell (cellVa va) (pa / 32 * 32) true lane

/-- The seat's access waits for an answer from another module. -/
def State.askWait (s : State) (op width : Nat) (q : Nat × Word × Place) (data : BitVec 512) (expected : Word) : State :=
  let rq := s.fresh
  let s := s.ask op width q.2.2.loc q.2.1 data expected s.self.id.uid s.self.id.part s.self.id.die
    (some (.strand s.self.id.uid)) none 0 q.2.2.cpage q.1
  { s with self := { s.self with waits := { s.self.waits with remote := some rq } } }

/-- A lane at another module for which no answer has come. -/
def State.farLane (s : State) (q : Nat × Word × Place) : Bool := q.2.2.remote && (s.answerOf q.2.2.loc).isNone

/-- A lane at another module whose place has still to be checked there (R146, R153, R459). Check 4 is made for every lane before
any is performed, and for a store that nobody waits for before it is sent; what reads the outbound buffer, or is one access
decided at its home slice, needs no check of its own. -/
def State.toProbe (s : State) (store : Bool) (width : Nat) (ps : List (Nat × Word × Place)) : Option (Nat × Word × Place) :=
  let due (q : Nat × Word × Place) : Bool := s.farLane q && (s.tagFound q.2.2.loc).isNone && (s.buffered q.2.2.loc width).isNone
  match ps with
  | [] => none
  | [q] => if store && !q.2.2.cpage && due q then some q else none
  | _ => ps.find? due

/-- The check of a place asked for; of a store at a C page with the number of stores that will come to its cell. -/
def State.probe (s : State) (store : Bool) (ps : List (Nat × Word × Place)) (q : Nat × Word × Place) : State :=
  let cell (x : Nat × Word × Place) : Nat := x.2.2.loc / 32 * 32
  let n := ((ps.filter (fun x => x.2.2.remote && cell x == cell q)).map (fun x => x.2.2.loc)).eraseDups.length
  s.askWait (if store && q.2.2.cpage then 21 else 20) 32 (q.1, q.2.1, { q.2.2 with loc := cell q }) (BitVec.ofNat 512 n) 0#64

/-- What a check at another module has found that stops an access there: the tag of its cell on a C page, 4 for an error mark. -/
def State.found (s : State) (q : Nat × Word × Place) : Nat :=
  match s.tagFound q.2.2.loc with
  | some t => if s.farLane q && (t == 4 || q.2.2.cpage) then t else 0
  | none => 0

/-- A place whose bytes cannot be read as they stand: a poisoned line, or a cell that is not VALUE. -/
def State.blocked (s : State) (q : Nat × Word × Place) : Bool :=
  let p := q.2.2
  if p.remote then s.found q != 0
  else s.isPoisoned p.loc || (p.cpage && s.tag p.loc != .value)

/-- Eclosions launched without a waiter for the CHRYSALIS cells of an access (R153), those of other modules by CFRC requests;
`but` is a lane whose own request launches its cell. -/
def State.launchCells (s : State) (but : Option Nat) : List (Nat × Word × Place) → State
  | [] => s
  | (lane, va, p) :: rest =>
    (if p.remote then
      if s.found (lane, va, p) == 1 && but != some lane then
        s.ask 15 32 (p.loc / 32 * 32) va 0#512 0#64 s.self.id.uid s.self.id.part s.self.id.die none none 0 true
      else s
     else if p.cpage && s.tag p.loc == .chrysalis then (s.eclose s.self.site false p.loc va none).2
     else s).launchCells but rest

/-- Check 4 of a load or atomic: the lowest lane that is blocked decides (R153, R459); every CHRYSALIS cell of the
access ecloses when that lane waits. An access at a cell that may not eclose yet is made again later (log entry 65). -/
def State.readGate (s : State) (width : Nat) (ps : List (Nat × Word × Place)) (f : State → State) : State :=
  match s.toProbe false width ps with
  | some q => s.probe false ps q
  | none =>
  match ps.find? s.blocked with
  | none => f s
  | some (lane, va, p) =>
    let held := ps.any (fun q => !q.2.2.remote && q.2.2.cpage && s.cellHeld q.2.2.loc)
    if p.remote then
      if s.found (lane, va, p) = 4 then s.trap (poisonedTrap va lane true)
      else if s.found (lane, va, p) = 3 then s.trap (poisonedTrap (cellVa va) lane false)
      else if held then s
      else (s.launchCells (some lane) ps).askWait 0 width (lane, va, p) 0#512 0#64
    else if s.isPoisoned p.loc then s.trap (poisonedTrap va lane true)
    else if held && s.tag p.loc != .poison then s
    else
      let s' := s.meetCell va p.loc lane
      if s'.self.parkedFor .cell then s'.launchCells none ps else s'

/-! ## Stores at cells -/

/-- Bytes written to a global location through a mapping with or without C, by an agent whose stores overrule an
ECLOSING cell (R292, R293): a cell that is not VALUE is replaced. -/
def State.writeGlobal (s : State) (pa : Nat) (bs : List Byte) : State :=
  match s.tag pa with
  | .value => s.wrBytes pa bs
  | .eclosing =>
    let s := match s.eclosionOf pa with
      | some e => s.endEclosion e
      | none => s
    ((s.setTag pa .value).wr (pa / 32 * 32) 32 0).wrBytes pa bs
  | _ => ((s.setTag pa .value).wr (pa / 32 * 32) 32 0).wrBytes pa bs

/-- Bytes written over several cells, one cell's part at a time; the number bounds the parts. -/
def State.writeCells (s : State) : Nat → Nat → List Byte → State
  | 0, _, _ => s
  | n + 1, pa, bs =>
    if bs.isEmpty then s
    else
      let k := 32 - pa % 32
      (s.writeGlobal pa (bs.take k)).writeCells n (pa + k) (bs.drop k)

/-- Bytes written to a global range (R292), the marks of whole lines cleared (R459). -/
def State.writeRange (s : State) (pa : Nat) (bs : List Byte) : State :=
  (s.writeCells (bs.length / 32 + 2) pa bs).clearPoison pa bs.length

/-- The BWAIT waiters among the other strands of the words that the seat has written (R18, R170). -/
def State.wakeOthers (s : State) (l n : Nat) : State := { s with others := s.others.map (s.wokenBy l n) }

/-- One lane of a strand's store at its place. A store to local storage clears the mark of a word that it covers (R460) and wakes the
BWAIT waiters whose word it brings to zero or less. -/
def State.storeAt (s : State) (p : Place) (bs : List Byte) : State :=
  if p.glob then s.writeGlobal p.loc bs
  else
    let s := if s.isPoisoned p.loc then s.clearPoison p.loc bs.length else s
    (s.wrBytes p.loc bs).wakeOthers p.loc bs.length

/-- A lane of a strand's store of `n` bytes that meets an ECLOSING cell, or an error mark of a line or word that it does not cover
(R459, R460). -/
def State.storeStop (s : State) (n : Nat) (q : Nat × Word × Place) : Option TrapRec :=
  if q.2.2.remote then
    if s.found q = 4 then some (poisonedTrap q.2.1 q.1 true)
    else if s.found q = 2 then some (cellBusy (cellVa q.2.1) (Tag.code .eclosing))
    else none
  else if s.isPoisoned q.2.2.loc && decide (n < eccUnit q.2.2.loc) then some (poisonedTrap q.2.1 q.1 true)
  else if q.2.2.cpage && s.tag q.2.2.loc == .eclosing then
    some (cellBusy (cellVa q.2.1) (Tag.code .eclosing))
  else none

end Sys2Proof.Machine
end

