-- ==== Sys2Proof/Machine/Remote.lean ====
section
/-! DEFINITION. Accesses to memory of other modules as the issuing module makes them (R53, R294, R319, R439 to R441). -/
namespace Sys2Proof.Machine

/-- Stores of the strand that another module has not acknowledged (R441). -/
def State.unacked (s : State) (uid : Nat) : Bool :=
  s.host.outstanding.any (fun o => o.uid == uid && o.copy == none && o.isStore)

/-- What the seat's release at DOMAIN scope waits for (R318, R441): the acknowledgement of every store to another module that
its partition had outstanding when the release first came to issue, its own and those that it may have observed. -/
def State.releaseHold (s : State) : Hold :=
  (s.self.waits.holds.find? (fun h => match h with
    | .acks _ => true
    | _ => false)).getD (.acks s.fresh)

/-- A release of the seat at a scope: at DOMAIN it is held until the stores before it are acknowledged (R441). -/
def State.releasing (s : State) (scope : BitVec 3) (f : State → Out) : Out :=
  if scope = 5#3 ∧ s.holdOver s.self.site s.releaseHold = false then .next (s.holdFor [s.releaseHold]) else f s

/-- What a read of another module's bytes has: the answer that has come, else a plain store of the outbound buffer that
holds them all, when the access may read it (R319). -/
def State.remoteHas (s : State) (fwd : Bool) (pa n : Nat) : Option Nat :=
  match s.answerOf pa with
  | some a => some (a.data.toNat % 256 ^ n)
  | none => match s.buffered pa n with
    | some o => if fwd && o.forwards pa n then some (o.data.toNat / 256 ^ (pa - o.pa) % 256 ^ n) else none
    | none => none

/-- The answers that the access has used are dropped. -/
def State.dropAnswers (s : State) : State :=
  { s with self := { s.self with waits := { s.self.waits with answers := [] } } }

/-- The checks of the seat's store have been used. -/
def State.dropKept (s : State) : State :=
  { s with host := { s.host with kept := s.host.kept.filter (fun k => k.uid != s.self.id.uid) } }

/-- The value read at a lane's place. -/
def State.valueAt (s : State) (fwd : Bool) (n : Nat) (q : Nat × Word × Place) : Nat :=
  if q.2.2.remote then (s.remoteHas fwd q.2.2.loc n).getD 0 else s.rd q.2.2.loc n

/-- Every place read, when other modules have answered for theirs; else the first that has not is asked. -/
def State.readAll (s : State) (fwd : Bool) (n : Nat) (ps : List (Nat × Word × Place)) (f : List Nat → State → State) : State :=
  match ps.find? (fun q => q.2.2.remote && (s.remoteHas fwd q.2.2.loc n).isNone) with
  | none => f (ps.map (s.valueAt fwd n)) s.dropAnswers
  | some q => s.askWait 0 n q 0#512 0#64

/-- One lane of a strand's store: performed, or sent to its module and kept until it is acknowledged (R441). Its place has
been checked (`agent` 3), and it names the check that its cell waits for (log entry 65). -/
def State.storeLane (s : State) (op : Nat) (q : Nat × Word × Place) (bs : List Byte) : State :=
  if q.2.2.remote then
    let check := s.host.kept.find? (fun k => k.uid == s.self.id.uid && k.pa == q.2.2.loc / 32 * 32)
    s.ask op bs.length q.2.2.loc q.2.1 (BitVec.ofNat 512 (leNat bs)) (w64 ((check.map (·.rq)).getD 0)) s.self.id.uid
      s.self.id.part s.self.id.die none none 3 q.2.2.cpage
  else s.storeAt q.2.2 bs

/-- The lanes of a store that reach storage: of several lanes at one place of another module only the highest is sent (R151). -/
def lastLanes : List ((Nat × Word × Place) × List Byte) → List ((Nat × Word × Place) × List Byte)
  | [] => []
  | x :: xs => if x.1.2.2.remote && xs.any (fun y => y.1.2.2.remote && y.1.2.2.loc == x.1.2.2.loc) then lastLanes xs
               else x :: lastLanes xs

/-- A store performed, every lane in one step, the highest last (R151). The one lane of a store at a cell of another module is
decided at its home slice (R294); of every other store the checks have been made for each lane, so that all are performed or
none (R146; log entry 65). -/
def State.storeAll (s : State) (op : Nat) (ps : List (Nat × Word × Place)) (data : List (List Byte)) : State :=
  match ps, data with
  | [q], [b] =>
    if q.2.2.remote && q.2.2.cpage then
      if (s.answerOf q.2.2.loc).isSome then s.dropAnswers.adv
      else s.askWait op b.length q (BitVec.ofNat 512 (leNat b)) 0#64
    else (s.dropAnswers.storeLane op q b).adv
  | _, _ =>
    let s := (lastLanes (ps.zip data)).foldl (fun s x => s.storeLane op x.1 x.2) s.dropAnswers
    (if ps.any (fun q => q.2.2.remote) then s.dropKept else s).adv

end Sys2Proof.Machine
end

