-- ==== Sys2Proof/Machine/Float.lean ====
section
/-! DEFINITION. Floating point (R69 to R75, R86 to R88): values as exact dyadic numbers, one rounding at the end. -/
namespace Sys2Proof.Machine

/-- A binary format of R69: exponent bits, fraction bits, and the zero bits below them in the container (W19). -/
structure Fmt where
  eb  : Nat
  fb  : Nat
  low : Nat := 0
deriving DecidableEq, Repr

def f64 : Fmt := { eb := 11, fb := 52 }
def f32 : Fmt := { eb := 8, fb := 23 }
def f16 : Fmt := { eb := 5, fb := 10 }
def bf16 : Fmt := { eb := 8, fb := 7 }
/-- W19 in its 32-bit container (R69, R71). -/
def w19 : Fmt := { eb := 8, fb := 10, low := 13 }

/-- The bias of a format. -/
def Fmt.bias (F : Fmt) : Int := 2 ^ (F.eb - 1) - 1
/-- The all-ones exponent field. -/
def Fmt.top (F : Fmt) : Nat := 2 ^ F.eb - 1
/-- A pattern from its sign and its exponent and fraction fields taken as one number. -/
def Fmt.pack (F : Fmt) (neg : Bool) (body : Nat) : Nat := (b2n neg * 2 ^ (F.eb + F.fb) + body) * 2 ^ F.low
/-- Infinity. -/
def Fmt.inf (F : Fmt) (neg : Bool) : Nat := F.pack neg (F.top * 2 ^ F.fb)
/-- Zero. -/
def Fmt.zero (F : Fmt) (neg : Bool) : Nat := F.pack neg 0
/-- The largest finite value. -/
def Fmt.maxFin (F : Fmt) (neg : Bool) : Nat := F.pack neg (F.top * 2 ^ F.fb - 1)
/-- The canonical NaN (R69). -/
def Fmt.nan (F : Fmt) : Nat := F.pack false (F.top * 2 ^ F.fb + 2 ^ (F.fb - 1))

/-- A floating-point value: a NaN, signalling or quiet; an infinity; or `m * 2^e` with a sign. -/
inductive FVal where
  | nan (signalling : Bool)
  | inf (neg : Bool)
  | fin (neg : Bool) (m : Nat) (e : Int)
deriving DecidableEq, Repr

/-- The value of a pattern (R70). The bits below a W19 are ignored (R71). -/
def Fmt.unpack (F : Fmt) (x : Nat) : FVal :=
  let y := x / 2 ^ F.low
  let f := y % 2 ^ F.fb
  let e := y / 2 ^ F.fb % 2 ^ F.eb
  let s := natBit y (F.eb + F.fb)
  if e = F.top then (if f = 0 then .inf s else .nan (!(natBit f (F.fb - 1))))
  else if e = 0 then .fin s f (1 - F.bias - F.fb)
  else .fin s (2 ^ F.fb + f) (e - F.bias - F.fb)

/-! ## Flags (R76) -/

def flagNX : BitVec 5 := 1#5
def flagUF : BitVec 5 := 2#5
def flagOF : BitVec 5 := 4#5
def flagDZ : BitVec 5 := 8#5
def flagNV : BitVec 5 := 16#5

/-- A pattern with the flags its computation raises. -/
abbrev FRes := Nat × BitVec 5

/-- Rounding modes 0 to 4 of R73: whether a magnitude with quotient `q` and remainder `r` out of `d` is rounded up. -/
def roundsUp (mode : Nat) (neg : Bool) (q r d : Nat) : Bool :=
  if r = 0 then false
  else if mode = 0 then decide (d < 2 * r) || (2 * r == d && q % 2 == 1)
  else if mode = 1 then false
  else if mode = 2 then !neg
  else if mode = 3 then neg
  else decide (d ≤ 2 * r)

/-- `m * 2^e` as a multiple of `2^q`, rounded, with whether it was inexact. -/
def roundAt (mode : Nat) (neg : Bool) (m : Nat) (e q : Int) : Nat × Bool :=
  if q ≤ e then (m * 2 ^ (e - q).toNat, false)
  else
    let d := 2 ^ (q - e).toNat
    (m / d + b2n (roundsUp mode neg (m / d) (m % d) d), m % d != 0)

/-- The overflow result of R75. -/
def Fmt.overflow (F : Fmt) (mode : Nat) (neg : Bool) : Nat :=
  if mode = 0 ∨ mode = 4 ∨ (mode = 2 ∧ !neg) ∨ (mode = 3 ∧ neg) then F.inf neg else F.maxFin neg

/-- The exact value `±m * 2^e` rounded once into the format, with OF, UF and NX (R75). Tininess is detected after
rounding, with the exponent unbounded. -/
def Fmt.round (F : Fmt) (mode : Nat) (neg : Bool) (m : Nat) (e : Int) : FRes :=
  if m = 0 then (F.zero neg, 0#5)
  else
    let top : Int := Nat.log2 m + e
    let emin : Int := 1 - F.bias
    let q := max top emin - F.fb
    let r := roundAt mode neg m e q
    let body := (q + F.fb + F.bias - 1).toNat * 2 ^ F.fb + r.1
    if F.top * 2 ^ F.fb ≤ body then (F.overflow mode neg, flagOF ||| flagNX)
    else
      let tiny := decide (top < emin) && !(top == emin - 1 && (roundAt mode neg m e (top - F.fb)).1 == 2 ^ (F.fb + 1))
      (F.pack neg body, if r.2 then (if tiny then flagUF ||| flagNX else flagNX) else 0#5)

/-- NV when an operand is a signalling NaN (R72). -/
def snanFlag (xs : List FVal) : BitVec 5 := if xs.contains (.nan true) then flagNV else 0#5

/-- Some operand is a NaN. -/
def FVal.isNan : FVal → Bool
  | .nan _ => true
  | _ => false

/-- The sign of a value. -/
def FVal.neg : FVal → Bool
  | .nan _ => false
  | .inf s => s
  | .fin s _ _ => s

/-- Negation of a value; a NaN stays. -/
def FVal.negate : FVal → FVal
  | .nan s => .nan s
  | .inf s => .inf !s
  | .fin s m e => .fin (!s) m e

/-- The exact product of two values that are not NaN; none for 0 × infinity. -/
def FVal.mul : FVal → FVal → Option FVal
  | .fin s m e, .fin t n f => some (.fin (s != t) (m * n) (e + f))
  | .inf s, .fin t n _ => if n = 0 then none else some (.inf (s != t))
  | .fin s m _, .inf t => if m = 0 then none else some (.inf (s != t))
  | .inf s, .inf t => some (.inf (s != t))
  | _, _ => none

/-- The signed numerator of a finite value at exponent `e0`, not above its own. -/
def scaled (s : Bool) (m : Nat) (e e0 : Int) : Int :=
  let n : Int := m * 2 ^ (e - e0).toNat
  if s then -n else n

/-- The rounded sum of two values that are not NaN (R75): an exact zero takes the sign that both operands have,
else + , or − under RDN. -/
def Fmt.addVals (F : Fmt) (mode : Nat) : FVal → FVal → FRes
  | .inf s, .inf t => if s = t then (F.inf s, 0#5) else (F.nan, flagNV)
  | .inf s, _ => (F.inf s, 0#5)
  | _, .inf t => (F.inf t, 0#5)
  | .fin s m e, .fin t n f =>
    let e0 := min e f
    let z := scaled s m e e0 + scaled t n f e0
    if z = 0 then (F.zero (if s = t then s else mode == 3), 0#5)
    else F.round mode (decide (z < 0)) z.natAbs e0
  | _, _ => (F.nan, 0#5)

/-- x + y (R130). -/
def Fmt.add (F : Fmt) (mode : Nat) (x y : FVal) : FRes :=
  if x.isNan || y.isNan then (F.nan, snanFlag [x, y]) else F.addVals mode x y

/-- x − y (R130). -/
def Fmt.sub (F : Fmt) (mode : Nat) (x y : FVal) : FRes := F.add mode x y.negate

/-- A value that is not NaN, rounded. -/
def Fmt.ofVal (F : Fmt) (mode : Nat) : FVal → FRes
  | .nan _ => (F.nan, 0#5)
  | .inf s => (F.inf s, 0#5)
  | .fin s m e => F.round mode s m e

/-- x × y (R130). -/
def Fmt.mul (F : Fmt) (mode : Nat) (x y : FVal) : FRes :=
  if x.isNan || y.isNan then (F.nan, snanFlag [x, y])
  else match x.mul y with
    | some z => F.ofVal mode z
    | none => (F.nan, flagNV)

/-- x × y + z with one rounding (R75, R130): 0 × infinity is invalid even when z is a quiet NaN. -/
def Fmt.fma (F : Fmt) (mode : Nat) (x y z : FVal) : FRes :=
  if x.isNan || y.isNan then (F.nan, snanFlag [x, y, z])
  else match x.mul y with
    | none => (F.nan, flagNV)
    | some p => if z.isNan then (F.nan, snanFlag [z]) else F.addVals mode p z

/-- A quotient of two naturals times `2^e`, rounded: enough bits that the remainder only breaks ties. -/
def Fmt.roundQuot (F : Fmt) (mode : Nat) (neg : Bool) (m n : Nat) (e : Int) : FRes :=
  let k := Nat.log2 n + F.fb + 4
  let q := m * 2 ^ k / n
  F.round mode neg (2 * q + b2n (m * 2 ^ k % n != 0)) (e - k - 1)

/-- x / y (R75, R130). -/
def Fmt.div (F : Fmt) (mode : Nat) (x y : FVal) : FRes :=
  match x, y with
  | .nan _, _ => (F.nan, snanFlag [x, y])
  | _, .nan _ => (F.nan, snanFlag [x, y])
  | .inf _, .inf _ => (F.nan, flagNV)
  | .inf s, .fin t _ _ => (F.inf (s != t), 0#5)
  | .fin s _ _, .inf t => (F.zero (s != t), 0#5)
  | .fin s m e, .fin t n f =>
    if n = 0 then (if m = 0 then (F.nan, flagNV) else (F.inf (s != t), flagDZ))
    else F.roundQuot mode (s != t) m n (e - f)

/-- The integer square root by halving bits: the largest `r` with `r * r ≤ x`, bit by bit from bit `k - 1`. -/
def isqrtBits (x : Nat) : Nat → Nat → Nat
  | 0, r => r
  | k + 1, r => if (r + 2 ^ k) * (r + 2 ^ k) ≤ x then isqrtBits x k (r + 2 ^ k) else isqrtBits x k r

/-- The integer square root. -/
def isqrt (x : Nat) : Nat := isqrtBits x (Nat.log2 x / 2 + 1) 0

/-- An even exponent, and enough bits, for a square root: `m * 2^e` written as `m' * 2^(2h)`. -/
def sqrtScale (fb m : Nat) (e : Int) : Nat × Int :=
  let k : Int := 2 * (fb + 4)
  let e' := e - k - (e % 2)
  (m * 2 ^ (e - e').toNat, e' / 2)

/-- √x (R75, R130). -/
def Fmt.sqrt (F : Fmt) (mode : Nat) (x : FVal) : FRes :=
  match x with
  | .nan _ => (F.nan, snanFlag [x])
  | .inf s => if s then (F.nan, flagNV) else (F.inf false, 0#5)
  | .fin s m e =>
    if m = 0 then (F.zero s, 0#5)
    else if s then (F.nan, flagNV)
    else
      let p := sqrtScale F.fb m e
      let r := isqrt p.1
      F.round mode false (2 * r + b2n (r * r != p.1)) (p.2 - 1)

/-! ## Comparison, minimum and maximum -/

/-- Order of two values that are not NaN: x < y. −0 and +0 are equal. -/
def FVal.lt (x y : FVal) : Bool :=
  match x, y with
  | .inf s, .inf t => s && !t
  | .inf s, .fin _ _ _ => s
  | .fin _ _ _, .inf t => !t
  | .fin s m e, .fin t n f => decide (scaled s m e (min e f) < scaled t n f (min e f))
  | _, _ => false

/-- The conditions of FCMP (R131): 0 EQ, 1 NE, 2 LT, 3 GE, 4 LE, 5 UN, and the flag. -/
def fcmpVal (c : Nat) (x y : FVal) : Bool × BitVec 5 :=
  let un := x.isNan || y.isNan
  let eq := !un && !(x.lt y) && !(y.lt x)
  let quiet := snanFlag [x, y]
  let loud := if un then flagNV else 0#5
  if c = 0 then (eq, quiet)
  else if c = 1 then (!eq, quiet)
  else if c = 2 then (!un && x.lt y, loud)
  else if c = 3 then (!un && !(x.lt y), loud)
  else if c = 4 then (!un && !(y.lt x), loud)
  else (un, quiet)

/-- The smaller (or larger) of two patterns by R88. -/
def Fmt.minMax (F : Fmt) (isMax : Bool) (a b : Nat) : FRes :=
  let x := F.unpack a
  let y := F.unpack b
  let keep (p : Nat) : Nat := p / 2 ^ F.low * 2 ^ F.low
  let fl := snanFlag [x, y]
  if x.isNan && y.isNan then (F.nan, fl)
  else if x.isNan then (keep b, fl)
  else if y.isNan then (keep a, fl)
  else
    let less := x.lt y || (!(y.lt x) && x.neg && !y.neg)
    (if less != isMax then keep a else keep b, fl)

/-! ## Conversions (R86, R87) -/

/-- Between float formats. -/
def Fmt.convert (F : Fmt) (mode : Nat) (x : FVal) : FRes :=
  match x with
  | .nan _ => (F.nan, snanFlag [x])
  | v => F.ofVal mode v

/-- From an exact integer. -/
def Fmt.ofInt (F : Fmt) (mode : Nat) (i : Int) : FRes := F.round mode (decide (i < 0)) i.natAbs 0

/-- To an integer between two bounds (R87). -/
def floatToInt (mode : Nat) (lo hi : Int) (x : FVal) : Int × BitVec 5 :=
  match x with
  | .nan _ => (0, flagNV)
  | .inf s => (if s then lo else hi, flagNV)
  | .fin s m e =>
    let r := roundAt mode s m e 0
    let v : Int := if s then -(r.1 : Int) else r.1
    if v < lo then (lo, flagNV) else if hi < v then (hi, flagNV) else (v, if r.2 then flagNX else 0#5)

/-- The class mask of FCLS (R132). -/
def Fmt.classMask (F : Fmt) (a : Nat) : Nat :=
  match F.unpack a with
  | .nan sig => if sig then 2 ^ 8 else 2 ^ 9
  | .inf s => if s then 2 ^ 0 else 2 ^ 7
  | .fin s m _ =>
    if m = 0 then (if s then 2 ^ 3 else 2 ^ 4)
    else if m < 2 ^ F.fb then (if s then 2 ^ 2 else 2 ^ 5)
    else (if s then 2 ^ 1 else 2 ^ 6)

end Sys2Proof.Machine
end

