-- ==== Sys2Proof/Machine/Flags.lean ====
section
/-! DEFINITION. Conditions, the fitting of an exact integer to its width, and the rounding mode in force. -/
namespace Sys2Proof.Machine

/-- Cond of R129 (codes of R112) on two words of one width: EQ, NE, LT, GE signed, LTN, GEN unsigned. -/
def cond {w : Nat} (c : BitVec 3) (x y : BitVec w) : Bool :=
  if c = 0#3 then x == y
  else if c = 1#3 then x != y
  else if c = 2#3 then x.slt y
  else if c = 3#3 then !(x.slt y)
  else if c = 4#3 then x.ult y
  else !(x.ult y)

/-- The least value of a width and signedness (R67). -/
def minOf (w : Nat) (u : Bool) : Int := if u then 0 else -(2 ^ (w - 1) : Nat)

/-- The greatest value of a width and signedness (R67). -/
def maxOf (w : Nat) (u : Bool) : Int := if u then (2 ^ w - 1 : Nat) else (2 ^ (w - 1) - 1 : Nat)

/-- Clamping (R68). -/
def clamp (w : Nat) (u : Bool) (r : Int) : Int := max (minOf w u) (min (maxOf w u) r)

/-- Width of a form by its modifier: bit 0 is .w (R102). -/
def modWidth (m : BitVec 2) : Nat := if m.getLsbD 0 then 32 else 64

/-- Val of R124: the low bits of an operand as an unsigned or a two's-complement value. -/
def opVal (m : BitVec 2) (u : Bool) (x : Word) : Int :=
  let y := x.toNat % 2 ^ modWidth m
  if !u && decide (2 ^ (modWidth m - 1) ≤ y) then (y : Int) - (2 ^ modWidth m : Nat) else y

/-- The result of R124: clamped under .sat (bit 1 of the modifier), cut to the width, and extended. -/
def fitted (m : BitVec 2) (u : Bool) (r : Int) : Word :=
  let r := if m.getLsbD 1 then clamp (modWidth m) u r else r
  if m.getLsbD 0 then (if u then (wrapInt 32 r).zeroExtend 64 else (wrapInt 32 r).signExtend 64) else wrapInt 64 r

/-- A value cut to an integer format of `w` bits and extended by its signedness to 64 bits (R104). -/
def extInt (w : Nat) (u : Bool) (r : Int) : Word :=
  if u then (wrapInt w r).zeroExtend 64 else (wrapInt w r).signExtend 64

/-- The rounding mode of a rounding field: code 7 takes it from FRM (R73). -/
def State.mode (s : State) (r : BitVec 3) : Nat := if r = 7#3 then s.self.ctl.frm.toNat else r.toNat

end Sys2Proof.Machine
end

