-- ==== Sys2Proof/Machine/Operands.lean ====
section
/-! DEFINITION. Operand forms: addresses of the memory formats, scalar floating-point fields, lanes and masks of a
strand or of a gang. -/
namespace Sys2Proof.Machine

/-! ## Immediates and addresses (R99, R105) -/

/-- A sign-extended immediate. -/
def simm {n : Nat} (i : BitVec n) : Word := i.signExtend 64

/-- A pc-relative target: the instruction's own address plus four times the offset (R99). -/
def State.relTarget {n : Nat} (s : State) (o : BitVec n) : Word := s.self.pc + simm o * 4#64

/-- Bytes of an access by its width code. -/
def widthBytes (w : BitVec 2) : Nat := 2 ^ w.toNat

/-- Address of an M-format access: base plus offset times the scale (R105). -/
def State.mAddr (s : State) (a : BitVec 6) (scale : Nat) (o : BitVec 11) : Word := s.getG a + simm o * w64 scale

/-- A loaded number extended to a register (R148). -/
def loadExt (size : Nat) (n : Bool) (x : Nat) : Word :=
  if n then w64 x
  else if size = 1 then (BitVec.ofNat 8 x).signExtend 64
  else if size = 2 then (BitVec.ofNat 16 x).signExtend 64
  else if size = 4 then (BitVec.ofNat 32 x).signExtend 64
  else w64 x

/-! ## Scalar floating point (R94, R130) -/

/-- The format of a precision bit: .s or .d. -/
def precFmt (p : BitVec 1) : Fmt := if p = 0#1 then f32 else f64

/-- Bits of the format. -/
def precBits (p : BitVec 1) : Nat := if p = 0#1 then 32 else 64

/-- The pattern of a scalar operand: the low 32 or all 64 bits. -/
def State.fpat (s : State) (p : BitVec 1) (r : BitVec 6) : Nat := (s.getG r).toNat % 2 ^ precBits p

/-- The value of a scalar operand. -/
def State.fval (s : State) (p : BitVec 1) (r : BitVec 6) : FVal := (precFmt p).unpack (s.fpat p r)

/-! ## Lanes (R32, R94) -/

/-- Lanes of a vector instruction: 16, or 32 in a gang. -/
def State.laneCount (s : State) : Nat := if s.self.ctl.glead then 32 else 16

/-- The lanes of a vector register of the strand or gang. -/
def State.lanes (s : State) (r : BitVec 4) : List Lane :=
  (s.self.getV r).toList ++
    (if s.self.ctl.glead then (match s.follower with
      | some t => (t.getV r).toList
      | none => List.replicate 16 0#32) else [])

/-- Sixteen lanes of a list, from a position. -/
def laneBlock (xs : List Lane) (i : Nat) : Vector Lane 16 := Vector.ofFn (fun j => xs.getD (i + j.val) 0#32)

/-- The lanes of a vector register of the strand or gang written. -/
def State.setLanes (s : State) (r : BitVec 4) (xs : List Lane) : State :=
  let s := { s with self := s.self.setV r (laneBlock xs 0) }
  if s.self.ctl.glead then s.mapFollower (fun t => t.setV r (laneBlock xs 16)) else s

/-- A mask register, 16 bits or 32 in a gang (R32). -/
def State.mask (s : State) (r : BitVec 3) : BitVec 32 :=
  let lo := (s.self.getK r).zeroExtend 32
  if s.self.ctl.glead then (match s.follower with
    | some t => lo ||| ((t.getK r).zeroExtend 32 <<< 16)
    | none => lo) else lo

/-- A mask register written. -/
def State.setMask (s : State) (r : BitVec 3) (x : BitVec 32) : State :=
  let s := { s with self := s.self.setK r (x.extractLsb' 0 16) }
  if s.self.ctl.glead then s.mapFollower (fun t => t.setK r (x.extractLsb' 16 16)) else s

/-- The active lanes of a masked form: pairs of a lane number and its bit (R134). -/
def State.active (s : State) (k : BitVec 3) : List Nat :=
  (List.range s.laneCount).filter (fun i => (s.mask k).getLsbD i)

/-- A lane of a list. -/
def lane (xs : List Lane) (i : Nat) : Lane := xs.getD i 0#32

/-- A lane index: the low 4 bits, or 5 in a gang (R138). -/
def State.laneIdx (s : State) (x : Nat) : Nat := x % s.laneCount

/-- A lane-wise form (R134): the active lanes of v[d] take F, the others keep their values; the flags of the active
lanes join FFLAGS. -/
def State.lanewise (s : State) (d : BitVec 4) (k : BitVec 3) (f : Nat → Lane × BitVec 5) : State :=
  let old := s.lanes d
  let on (i : Nat) : Bool := (s.mask k).getLsbD i
  let xs := (List.range s.laneCount).map (fun i => if on i then (f i).1 else lane old i)
  let fl := (s.active k).foldl (fun acc i => acc ||| (f i).2) 0#5
  (s.mergeFlags fl).setLanes d xs

/-- A lane-wise compare (R135, R136): bits of lanes masked off become zero. -/
def State.lanecmp (s : State) (d : BitVec 3) (k : BitVec 3) (f : Nat → Bool × BitVec 5) : State :=
  let x := (s.active k).foldl (fun acc i => if (f i).1 then acc ||| BitVec.twoPow 32 i else acc) 0#32
  let fl := (s.active k).foldl (fun acc i => acc ||| (f i).2) 0#5
  (s.mergeFlags fl).setMask d x

/-- The seat's instruction writes a general register and is done. -/
def State.put (s : State) (d : BitVec 6) (x : Word) : Out := .next (s.setG d x).adv

/-- The same with flags. -/
def State.putF (s : State) (d : BitVec 6) (r : FRes) : Out := .next ((s.setG d (w64 r.1)).mergeFlags r.2).adv

end Sys2Proof.Machine
end

