-- ==== Sys2Proof/Machine/Sfu.lean ====
section
/-! DEFINITION. The special functions of R89, correctly rounded. rcp and rsq are exact quotients and roots; ex2, lg2 and
tnh are enclosed between two dyadic numbers, and the precision grows until both ends round alike. -/
namespace Sys2Proof.Machine

/-- A value strictly between `lo * 2^e` and `hi * 2^e`, rounded when both ends round alike. -/
def Fmt.between (F : Fmt) (mode : Nat) (neg : Bool) (lo hi : Nat) (e : Int) : Option FRes :=
  let a := F.round mode neg (2 * lo + 1) (e - 1)
  let b := F.round mode neg (2 * hi - 1) (e - 1)
  if lo < hi ∧ a = b then some a else none

/-! ## Fixed point: numbers with `p` fraction bits -/

/-- The sum of `t^(2k+1) / (2k+1)` for `k` upward, from the power `pw`. -/
def atanhSum (p t2 : Nat) : Nat → Nat → Nat → Nat
  | 0, _, _ => 0
  | n + 1, k, pw => pw / (2 * k + 1) + atanhSum p t2 n (k + 1) (pw * t2 / 2 ^ p)

/-- atanh of `t`, at most one third. -/
def atanhFix (p t : Nat) : Nat := atanhSum p (t * t / 2 ^ p) (p / 3 + 2) 0 t

/-- ln 2. -/
def ln2Fix (p : Nat) : Nat := 2 * atanhFix p (2 ^ p / 3)

/-- The Taylor sum of exp from the term `t`. -/
def expSum (p r : Nat) : Nat → Nat → Nat → Nat
  | 0, _, _ => 0
  | n + 1, k, t => t + expSum p r n (k + 1) (t * r / 2 ^ p / k)

/-- exp of `r`, below one. -/
def expFix (p r : Nat) : Nat := expSum p r (p / 2 + 8) 1 (2 ^ p)

/-- A bound on the error of every number computed above, in units of the last place. -/
def sfuErr : Nat := 2 ^ 24

/-- A finite value as a fixed-point number, rounded down. -/
def toFix (p m : Nat) (e : Int) : Nat := if 0 ≤ e + p then m * 2 ^ (e + p).toNat else m / 2 ^ (-(e + p)).toNat

/-! ## The functions on finite operands that have no exact result -/

/-- 2^x for finite x that is no integer, below 2^13 in magnitude. -/
def ex2At (F : Fmt) (mode p : Nat) (neg : Bool) (m : Nat) (e : Int) : Option FRes :=
  let d : Nat := 2 ^ (-e).toNat
  let z : Int := if neg then -(m : Int) else m
  let n := z / (d : Int)
  let f : Nat := Int.toNat (z % (d : Int))
  let f := f * 2 ^ p / d
  let y := expFix p (f * ln2Fix p / 2 ^ p)
  F.between mode false (y - sfuErr) (y + sfuErr) (n - p)

/-- log2 x for positive finite x that is no power of two. -/
def lg2At (F : Fmt) (mode p : Nat) (m : Nat) (e : Int) : Option FRes :=
  let k := Nat.log2 m
  let y := toFix p m (-(k : Int))
  let l := 2 * atanhFix p ((y - 2 ^ p) * 2 ^ p / (y + 2 ^ p)) * 2 ^ p / ln2Fix p
  let v : Int := (k + e) * 2 ^ p + l
  let neg := decide (k + e < 0)
  F.between mode neg (v.natAbs - sfuErr) (v.natAbs + sfuErr) (-p)

/-- tanh of the magnitude `m * 2^e` that is not zero. Below 2^-13 it lies between x − x³/2 and x; above 64, between
1 − 2^-100 and 1. -/
def tnhAt (F : Fmt) (mode p : Nat) (neg : Bool) (m : Nat) (e : Int) : Option FRes :=
  let top : Int := Nat.log2 m + e
  if top < -13 then
    let h := (-(2 * e)).toNat + 1
    F.between mode neg (m * 2 ^ h - m * m * m) (m * 2 ^ h) (e - h)
  else if 6 ≤ top then F.between mode neg (2 ^ 100 - 1) (2 ^ 100) (-100)
  else
    let z := toFix p m (e + 1)
    let n := z / ln2Fix p
    let u := expFix p (z % ln2Fix p) * 2 ^ n
    let y := 2 ^ p - 2 * 2 ^ (2 * p) / (u + 2 ^ p)
    F.between mode neg (y - sfuErr) (y + sfuErr) (-p)

/-- The first precision that decides; else the constant of log entry 12. -/
def decideAt (F : Fmt) (fn mode x : Nat) (f : Nat → Option FRes) : FRes :=
  match f 160 with
  | some r => r
  | none => match f 320 with
    | some r => r
    | none => match f 1280 with
      | some r => r
      | none => ((Config.sfuUndecided fn mode (BitVec.ofNat 32 x)).toNat % 2 ^ (F.eb + F.fb + 1 + F.low), flagNX)

/-! ## The five functions (R89) -/

/-- 1/x. -/
def Fmt.rcp (F : Fmt) (mode x : Nat) : FRes :=
  match F.unpack x with
  | .nan s => (F.nan, snanFlag [.nan s])
  | .inf s => (F.zero s, 0#5)
  | .fin s m e => if m = 0 then (F.inf s, flagDZ) else F.roundQuot mode s 1 m (-e)

/-- 1/√x: the square root of the reciprocal, with enough bits that what is cut only breaks ties. -/
def Fmt.rsq (F : Fmt) (mode x : Nat) : FRes :=
  match F.unpack x with
  | .nan s => (F.nan, snanFlag [.nan s])
  | .inf s => if s then (F.nan, flagNV) else (F.zero false, 0#5)
  | .fin s m e =>
    if m = 0 then (F.inf s, flagDZ)
    else if s then (F.nan, flagNV)
    else
      let odd := (e % 2).toNat
      let n := m * 2 ^ odd
      let k := 2 * (Nat.log2 n + 2 * F.fb + 8)
      let q := 2 ^ k / n
      let r := isqrt q
      let exact := r * r * n == 2 ^ k
      F.round mode false (2 * r + b2n !exact) (-((e - odd) / 2) - (k / 2 : Nat) - 1)

/-- 2^x. An integer in range gives its power exactly; a magnitude of 2^13 or more overflows or underflows. -/
def Fmt.ex2 (F : Fmt) (mode x : Nat) : FRes :=
  match F.unpack x with
  | .nan s => (F.nan, snanFlag [.nan s])
  | .inf s => (if s then F.zero false else F.inf false, 0#5)
  | .fin s m e =>
    if m = 0 then F.round mode false 1 0
    else if 13 ≤ (Nat.log2 m : Int) + e then F.round mode false 1 (if s then -8192 else 8192)
    else
      let d : Nat := 2 ^ (-e).toNat
      if 0 ≤ e ∨ m % d = 0 then
        let n : Int := m * 2 ^ e.toNat / d
        F.round mode false 1 (if s then -n else n)
      else decideAt F 2 mode x (fun p => ex2At F mode p s m e)

/-- log2 x. -/
def Fmt.lg2 (F : Fmt) (mode x : Nat) : FRes :=
  match F.unpack x with
  | .nan s => (F.nan, snanFlag [.nan s])
  | .inf s => if s then (F.nan, flagNV) else (F.inf false, 0#5)
  | .fin s m e =>
    if m = 0 then (F.inf true, flagDZ)
    else if s then (F.nan, flagNV)
    else if m = 2 ^ Nat.log2 m then F.ofInt mode (Nat.log2 m + e)
    else decideAt F 3 mode x (fun p => lg2At F mode p m e)

/-- tanh x. -/
def Fmt.tnh (F : Fmt) (mode x : Nat) : FRes :=
  match F.unpack x with
  | .nan s => (F.nan, snanFlag [.nan s])
  | .inf s => F.round mode s 1 0
  | .fin s m e => if m = 0 then (F.zero s, 0#5) else decideAt F 4 mode x (fun p => tnhAt F mode p s m e)

/-- The function of that number: 0 rcp, 1 rsq, 2 ex2, 3 lg2, 4 tnh. -/
def Fmt.sfu (F : Fmt) (fn mode x : Nat) : FRes :=
  if fn = 0 then F.rcp mode x else if fn = 1 then F.rsq mode x else if fn = 2 then F.ex2 mode x
  else if fn = 3 then F.lg2 mode x else F.tnh mode x

end Sys2Proof.Machine
end

