-- ==== Sys2Proof/Machine/FloatOps.lean ====
section
/-! DEFINITION. Scalar floating-point instructions (R130 to R133). -/
namespace Sys2Proof.Machine

/-- A two-operand form of R130 in the mode of its rounding field. -/
def State.fop2 (s : State) (d a b : BitVec 6) (p : BitVec 1) (op : Fmt → FVal → FVal → FRes) : Out :=
  s.putF d (op (precFmt p) (s.fval p a) (s.fval p b))

/-- A fused form: x and y from the sources, z from the old destination (R130). -/
def State.fop3 (s : State) (d a b : BitVec 6) (r : BitVec 3) (p : BitVec 1) (negProd negAdd : Bool) : Out :=
  let x := if negProd then (s.fval p a).negate else s.fval p a
  let z := if negAdd then (s.fval p d).negate else s.fval p d
  s.putF d ((precFmt p).fma (s.mode r) x (s.fval p b) z)

def execFadd (d a b : BitVec 6) (r : BitVec 3) (p : BitVec 1) (s : State) : Out :=
  s.fop2 d a b p (fun F => F.add (s.mode r))
def execFsub (d a b : BitVec 6) (r : BitVec 3) (p : BitVec 1) (s : State) : Out :=
  s.fop2 d a b p (fun F => F.sub (s.mode r))
def execFmul (d a b : BitVec 6) (r : BitVec 3) (p : BitVec 1) (s : State) : Out :=
  s.fop2 d a b p (fun F => F.mul (s.mode r))
def execFdiv (d a b : BitVec 6) (r : BitVec 3) (p : BitVec 1) (s : State) : Out :=
  s.fop2 d a b p (fun F => F.div (s.mode r))
def execFsqrt (d a : BitVec 6) (r : BitVec 3) (p : BitVec 1) (s : State) : Out :=
  s.putF d ((precFmt p).sqrt (s.mode r) (s.fval p a))
def execFmaFma (d a b : BitVec 6) (r : BitVec 3) (p : BitVec 1) (s : State) : Out := s.fop3 d a b r p false false
def execFmaFms (d a b : BitVec 6) (r : BitVec 3) (p : BitVec 1) (s : State) : Out := s.fop3 d a b r p false true
def execFmaFnma (d a b : BitVec 6) (r : BitVec 3) (p : BitVec 1) (s : State) : Out := s.fop3 d a b r p true false

/-! ## Minimum, comparison, class, sign (R131, R132) -/

def execFmin (d a b : BitVec 6) (p : BitVec 1) (s : State) : Out :=
  s.putF d ((precFmt p).minMax false (s.fpat p a) (s.fpat p b))
def execFmax (d a b : BitVec 6) (p : BitVec 1) (s : State) : Out :=
  s.putF d ((precFmt p).minMax true (s.fpat p a) (s.fpat p b))
def execFcmp (d a b : BitVec 6) (c : BitVec 3) (p : BitVec 1) (s : State) : Out :=
  let r := fcmpVal c.toNat (s.fval p a) (s.fval p b)
  s.putF d (b2n r.1, r.2)
def execFcls (d a : BitVec 6) (p : BitVec 1) (s : State) : Out := s.put d (w64 ((precFmt p).classMask (s.fpat p a)))

/-- The pattern with another sign bit. -/
def withSign (p : BitVec 1) (x : Nat) (neg : Bool) : Word :=
  w64 (x % 2 ^ (precBits p - 1) + b2n neg * 2 ^ (precBits p - 1))

/-- The sign bit of a pattern. -/
def signOf (p : BitVec 1) (x : Nat) : Bool := x.testBit (precBits p - 1)

def execFmvCp (d a : BitVec 6) (p : BitVec 1) (s : State) : Out := s.put d (w64 (s.fpat p a))
def execFmvNeg (d a : BitVec 6) (p : BitVec 1) (s : State) : Out :=
  s.put d (withSign p (s.fpat p a) !(signOf p (s.fpat p a)))
def execFmvAbs (d a : BitVec 6) (p : BitVec 1) (s : State) : Out := s.put d (withSign p (s.fpat p a) false)
def execFmvSgn (d a b : BitVec 6) (p : BitVec 1) (s : State) : Out :=
  s.put d (withSign p (s.fpat p a) (signOf p (s.fpat p b)))

/-! ## Conversion (R86, R87, R104, R133) -/

/-- Width of an integer format code 0 to 7. -/
def intBits (c : Nat) : Nat := 8 * 2 ^ (c % 4)
/-- Codes 4 to 7 are unsigned. -/
def intUnsigned (c : Nat) : Bool := decide (4 ≤ c)

/-- The floating-point format of a code 8 to 12. -/
def floatFmt (c : Nat) : Fmt := if c = 8 then f64 else if c = 9 then f32 else if c = 10 then f16 else if c = 11 then bf16 else w19

/-- Bits that a pattern of the format takes in a register. -/
def Fmt.width (F : Fmt) : Nat := F.eb + F.fb + 1 + F.low

/-- The integer that an integer source holds. -/
def intSource (w : Nat) (u : Bool) (x : Nat) : Int :=
  let y := x % 2 ^ w
  if !u && decide (2 ^ (w - 1) ≤ y) then (y : Int) - (2 ^ w : Nat) else y

/-- The value converted by FCVT, as a register word with its flags. -/
def fcvtVal (mode : Nat) (sat : Bool) (src dst : Nat) (x : Nat) : Word × BitVec 5 :=
  let w := intBits dst
  let u := intUnsigned dst
  if src < 8 then
    let v := intSource (intBits src) (intUnsigned src) x
    if dst < 8 then (extInt w u (if sat then clamp w u v else v), 0#5)
    else
      let r := (floatFmt dst).ofInt mode v
      (w64 r.1, r.2)
  else
    let F := floatFmt src
    let v := F.unpack (x % 2 ^ F.width)
    if dst < 8 then
      let r := floatToInt mode (minOf w u) (maxOf w u) v
      (extInt w u r.1, r.2)
    else
      let r := (floatFmt dst).convert mode v
      (w64 r.1, r.2)

def execFcvt (d a : BitVec 6) (src : BitVec 4) (r : BitVec 3) (u : BitVec 1) (dst : BitVec 4) (s : State) : Out :=
  let x := fcvtVal (s.mode r) (u == 1#1) src.toNat dst.toNat (s.getG a).toNat
  .next ((s.setG d x.1).mergeFlags x.2).adv

end Sys2Proof.Machine
end

