-- ==== Sys2Proof/Machine/K8.lean ====
section
/-! DEFINITION. K8 codes: the predefined tables, decode and encode (R78 to R82). -/
namespace Sys2Proof.Machine

/-- A W19 pattern with its sign flipped. -/
def flipSign (x : BitVec 32) : BitVec 32 := x ^^^ 0x80000000#32

/-- The canonical W19 NaN. -/
def w19Nan : BitVec 32 := 0x7FC00000#32

/-- A dyadic value that W19 holds exactly, as its pattern. -/
def w19Of (m : Nat) (e : Int) : BitVec 32 := BitVec.ofNat 32 (w19.round 0 false m e).1

/-- Magnitude `i` of E4M3, E5M2 and LIN7 (R82). -/
def e4m3At (i : Nat) : BitVec 32 :=
  if i = 0x7F then w19Nan else if i / 8 = 0 then w19Of i (-9) else w19Of (8 + i % 8) (i / 8 - 10)
def e5m2At (i : Nat) : BitVec 32 :=
  if 0x7B < i then w19Nan else if i / 4 = 0 then w19Of i (-16) else w19Of (4 + i % 4) (i / 4 - 17)
def lin7At (i : Nat) : BitVec 32 := w19Of i 0

/-- Entry of a code: the second half negates the first, but for the NaN entries above TOP, which it repeats. -/
def signedAt (f : Nat → BitVec 32) (c : Nat) : BitVec 32 :=
  if c < 128 then f c else if f (c - 128) = w19Nan then w19Nan else flipSign (f (c - 128))

/-- The predefined tables by their number (R141): 0 E4M3, 1 E5M2, 2 LIN7. -/
def predefined (n c : Nat) : BitVec 32 := signedAt (if n = 0 then e4m3At else if n = 1 then e5m2At else lin7At) c

/-- Entry of a table; none is E4M3. -/
def tableAt (t : Option Table) (c : Nat) : BitVec 32 :=
  match t with
  | some v => v.getD c 0#32
  | none => predefined 0 c

/-- A table with one entry replaced. -/
def tableSet (t : Option Table) (c : Nat) (x : BitVec 32) : Option Table :=
  some (Vector.ofFn (fun i => if i.val = c then x else tableAt t i.val))

/-- A predefined table as a core holds it. -/
def loadTable (n : Nat) : Option Table := if n = 0 then none else some (Vector.ofFn (fun i => predefined n i.val))

/-- Decode (R78). -/
def k8Decode (t : Option Table) (top : Nat) (c : Nat) : BitVec 32 := if top < c % 128 then w19Nan else tableAt t c

/-! ## Encode (R80): exact comparisons and differences, with infinities; a comparison with a NaN is false -/

/-- The difference of two values. -/
def FVal.minus : FVal → FVal → FVal
  | .inf s, .inf t => if s = t then .nan false else .inf s
  | .inf s, .fin _ _ _ => .inf s
  | .fin _ _ _, .inf t => .inf !t
  | .fin s m e, .fin t n f =>
    let z := scaled s m e (min e f) - scaled t n f (min e f)
    .fin (decide (z < 0)) z.natAbs (min e f)
  | _, _ => .nan false

/-- x ≤ y and x = y as comparisons that a NaN makes false. -/
def FVal.le (x y : FVal) : Bool := !x.isNan && !y.isNan && !(y.lt x)
def FVal.same (x y : FVal) : Bool := !x.isNan && !y.isNan && !(x.lt y) && !(y.lt x)

/-- The magnitude of a value. -/
def FVal.abs : FVal → FVal
  | .nan s => .nan s
  | .inf _ => .inf false
  | .fin _ m e => .fin false m e

/-- The seven steps of R80. -/
def k8Search (t : Nat → FVal) (top : Nat) (a : FVal) : Nat → Nat → Nat
  | 0, lo => lo
  | k + 1, lo =>
    let m := lo + 2 ^ k
    k8Search t top a k (if decide (m ≤ top) && (t m).le a then m else lo)

/-- Encode (R80) with TOP and NCODE. -/
def k8Encode (tab : Option Table) (top : Nat) (ncode : Nat) (F : Fmt) (x : Nat) : Nat × BitVec 5 :=
  match F.unpack x with
  | .nan _ => (ncode, flagNV)
  | v =>
    let t (i : Nat) : FVal := w19.unpack (tableAt tab i).toNat
    let a := v.abs
    let lo := k8Search t top a 7 0
    let up := (t (lo + 1)).minus a
    let dn := a.minus (t lo)
    let next := decide (lo < top) && (up.lt dn || (up.same dn && lo % 2 == 1))
    let lo := if next then lo + 1 else lo
    let ofl := if (t top).lt a then flagOF else 0#5
    let nx := if !a.isNan && !(t lo).isNan && !(a.same (t lo)) then flagNX else 0#5
    (b2n v.neg * 128 + lo, ofl ||| nx)

end Sys2Proof.Machine
end

