-- ==== Sys2Proof/Machine/Vector.lean ====
section
/-! DEFINITION. Vector instructions on lanes: integer, F32, reductions, conversion, movement, K8, masks (R134 to R142). -/
namespace Sys2Proof.Machine

/-! ## 32-bit integer lanes (R135) -/

/-- A lane-wise form of two sources without flags. -/
def State.vop2 (s : State) (d a b : BitVec 4) (k : BitVec 3) (f : Lane → Lane → Lane) : Out :=
  .next (s.lanewise d k (fun i => (f (lane (s.lanes a) i) (lane (s.lanes b) i), 0#5))).adv

/-- Clamping forms. -/
def satLane (u : Bool) (op : Int → Int → Int) (x y : Lane) : Lane :=
  if u then wrapInt 32 (clamp 32 true (op x.toNat y.toNat)) else wrapInt 32 (clamp 32 false (op x.toInt y.toInt))

def execVadd (d a b : BitVec 4) (k : BitVec 3) (s : State) : Out := s.vop2 d a b k (· + ·)
def execVsub (d a b : BitVec 4) (k : BitVec 3) (s : State) : Out := s.vop2 d a b k (· - ·)
def execVmul (d a b : BitVec 4) (k : BitVec 3) (s : State) : Out := s.vop2 d a b k (· * ·)
def execVmin (d a b : BitVec 4) (k : BitVec 3) (s : State) : Out := s.vop2 d a b k (fun x y => if x.slt y then x else y)
def execVminN (d a b : BitVec 4) (k : BitVec 3) (s : State) : Out := s.vop2 d a b k (fun x y => if x.ult y then x else y)
def execVmax (d a b : BitVec 4) (k : BitVec 3) (s : State) : Out := s.vop2 d a b k (fun x y => if x.slt y then y else x)
def execVmaxN (d a b : BitVec 4) (k : BitVec 3) (s : State) : Out := s.vop2 d a b k (fun x y => if x.ult y then y else x)
def execVlogAnd (d a b : BitVec 4) (k : BitVec 3) (s : State) : Out := s.vop2 d a b k (· &&& ·)
def execVlogOr (d a b : BitVec 4) (k : BitVec 3) (s : State) : Out := s.vop2 d a b k (· ||| ·)
def execVlogXor (d a b : BitVec 4) (k : BitVec 3) (s : State) : Out := s.vop2 d a b k (· ^^^ ·)
def execVshShl (d a b : BitVec 4) (k : BitVec 3) (s : State) : Out := s.vop2 d a b k (fun x y => x <<< (y.toNat % 32))
def execVshShr (d a b : BitVec 4) (k : BitVec 3) (s : State) : Out := s.vop2 d a b k (fun x y => x >>> (y.toNat % 32))
def execVshSha (d a b : BitVec 4) (k : BitVec 3) (s : State) : Out :=
  s.vop2 d a b k (fun x y => x.sshiftRight (y.toNat % 32))
def execVaddSat (d a b : BitVec 4) (k : BitVec 3) (s : State) : Out := s.vop2 d a b k (satLane false (· + ·))
def execVaddNSat (d a b : BitVec 4) (k : BitVec 3) (s : State) : Out := s.vop2 d a b k (satLane true (· + ·))
def execVsubSat (d a b : BitVec 4) (k : BitVec 3) (s : State) : Out := s.vop2 d a b k (satLane false (· - ·))
def execVsubNSat (d a b : BitVec 4) (k : BitVec 3) (s : State) : Out := s.vop2 d a b k (satLane true (· - ·))

/-- VSEL writes every lane: v[a] where the bit is set, v[b] elsewhere. -/
def execVsel (d a b : BitVec 4) (k : BitVec 3) (s : State) : Out :=
  let x := s.lanes a
  let y := s.lanes b
  let r := (List.range s.laneCount).map (fun i => if (s.mask k).getLsbD i then lane x i else lane y i)
  .next (s.setLanes d r).adv

def execVcmp (d : BitVec 3) (a b : BitVec 4) (k c : BitVec 3) (s : State) : Out :=
  .next (s.lanecmp d k (fun i => (cond c (lane (s.lanes a) i) (lane (s.lanes b) i), 0#5))).adv

/-! ## Reductions of integers (R137) -/

/-- The active lanes as signed values. -/
def State.activeInts (s : State) (a : BitVec 4) (k : BitVec 3) : List Int :=
  (s.active k).map (fun i => (lane (s.lanes a) i).toInt)

def execVredSum (d : BitVec 6) (a : BitVec 4) (k : BitVec 3) (s : State) : Out :=
  s.put d (wrapInt 64 ((s.activeInts a k).foldl (· + ·) 0))
def execVredMax (d : BitVec 6) (a : BitVec 4) (k : BitVec 3) (s : State) : Out :=
  s.put d (wrapInt 64 ((s.activeInts a k).foldl max (minOf 32 false)))
def execVredMin (d : BitVec 6) (a : BitVec 4) (k : BitVec 3) (s : State) : Out :=
  s.put d (wrapInt 64 ((s.activeInts a k).foldl min (maxOf 32 false)))
def execVdot (d : BitVec 6) (a b : BitVec 4) (k : BitVec 3) (s : State) : Out :=
  s.put d (wrapInt 64 ((s.active k).foldl
    (fun acc i => acc + (lane (s.lanes a) i).toInt * (lane (s.lanes b) i).toInt) 0))

/-- The running combination of a scan over the lanes from `i` upward. -/
def scanFrom (on : Nat → Bool) (f : Lane → Lane → Lane × BitVec 5) :
    List Lane → List Lane → Nat → Lane → List Lane × BitVec 5
  | x :: xs, o :: os, i, acc =>
    if on i then
      let r := f acc x
      let t := scanFrom on f xs os (i + 1) r.1
      (r.1 :: t.1, r.2 ||| t.2)
    else
      let t := scanFrom on f xs os (i + 1) acc
      (o :: t.1, t.2)
  | _, _, _, _ => ([], 0#5)

/-- A scan (R137). -/
def State.scan (s : State) (d a : BitVec 4) (k : BitVec 3) (zero : Lane) (f : Lane → Lane → Lane × BitVec 5) : Out :=
  let r := scanFrom (fun i => (s.mask k).getLsbD i) f (s.lanes a) (s.lanes d) 0 zero
  .next ((s.mergeFlags r.2).setLanes d r.1).adv

def execVscan (d a : BitVec 4) (k : BitVec 3) (s : State) : Out := s.scan d a k 0#32 (fun x y => (x + y, 0#5))

/-! ## F32 lanes (R136): every form rounds by FRM -/

/-- FRM as a rounding mode. -/
def State.frm (s : State) : Nat := s.self.ctl.frm.toNat

/-- A pattern with flags as a lane. -/
def toLane (r : FRes) : Lane × BitVec 5 := (BitVec.ofNat 32 r.1, r.2)

/-- A lane read as F32. -/
def fLane (x : Lane) : FVal := f32.unpack x.toNat

/-- A lane-wise F32 form of two sources. -/
def State.vfop2 (s : State) (d a b : BitVec 4) (k : BitVec 3) (f : Lane → Lane → FRes) : Out :=
  .next (s.lanewise d k (fun i => toLane (f (lane (s.lanes a) i) (lane (s.lanes b) i)))).adv

def execVaddS (d a b : BitVec 4) (k : BitVec 3) (s : State) : Out :=
  s.vfop2 d a b k (fun x y => f32.add s.frm (fLane x) (fLane y))
def execVsubS (d a b : BitVec 4) (k : BitVec 3) (s : State) : Out :=
  s.vfop2 d a b k (fun x y => f32.sub s.frm (fLane x) (fLane y))
def execVmulS (d a b : BitVec 4) (k : BitVec 3) (s : State) : Out :=
  s.vfop2 d a b k (fun x y => f32.mul s.frm (fLane x) (fLane y))
def execVfmaS (d a b : BitVec 4) (k : BitVec 3) (s : State) : Out :=
  .next (s.lanewise d k (fun i => toLane
    (f32.fma s.frm (fLane (lane (s.lanes a) i)) (fLane (lane (s.lanes b) i)) (fLane (lane (s.lanes d) i))))).adv
def execVminS (d a b : BitVec 4) (k : BitVec 3) (s : State) : Out :=
  s.vfop2 d a b k (fun x y => f32.minMax false x.toNat y.toNat)
def execVmaxS (d a b : BitVec 4) (k : BitVec 3) (s : State) : Out :=
  s.vfop2 d a b k (fun x y => f32.minMax true x.toNat y.toNat)

/-- A special function on each active lane (R89). -/
def State.vsfu (s : State) (d a : BitVec 4) (k : BitVec 3) (fn : Nat) : Out :=
  .next (s.lanewise d k (fun i => toLane (f32.sfu fn s.frm (lane (s.lanes a) i).toNat))).adv

def execVsfuRcp (d a : BitVec 4) (k : BitVec 3) (s : State) : Out := s.vsfu d a k 0
def execVsfuRsq (d a : BitVec 4) (k : BitVec 3) (s : State) : Out := s.vsfu d a k 1
def execVsfuEx2 (d a : BitVec 4) (k : BitVec 3) (s : State) : Out := s.vsfu d a k 2
def execVsfuLg2 (d a : BitVec 4) (k : BitVec 3) (s : State) : Out := s.vsfu d a k 3
def execVsfuTnh (d a : BitVec 4) (k : BitVec 3) (s : State) : Out := s.vsfu d a k 4

def execVcmpS (d : BitVec 3) (a b : BitVec 4) (k c : BitVec 3) (s : State) : Out :=
  .next (s.lanecmp d k (fun i => fcmpVal c.toNat (fLane (lane (s.lanes a) i)) (fLane (lane (s.lanes b) i)))).adv

/-! ## The tree of R90 and R91 -/

/-- One level: neighbours combined, flags gathered. -/
def treeLevel (f : FVal → FVal → FRes) : List FVal → List FVal × BitVec 5
  | x :: y :: t =>
    let r := f x y
    let q := treeLevel f t
    (f32.unpack r.1 :: q.1, r.2 ||| q.2)
  | xs => (xs, 0#5)

/-- Levels until one is left; the number bounds them. -/
def treeFold (f : FVal → FVal → FRes) : Nat → List FVal → FVal × BitVec 5
  | 0, xs => (xs.headD (.nan false), 0#5)
  | n + 1, xs =>
    if xs.length ≤ 1 then (xs.headD (.nan false), 0#5)
    else
      let l := treeLevel f xs
      let r := treeFold f n l.1
      (r.1, l.2 ||| r.2)

/-- The pattern of the tree's result. -/
def treeRes (r : FVal × BitVec 5) (fl : BitVec 5) : FRes := ((f32.ofVal 0 r.1).1, r.2 ||| fl)

/-- Leaves of a reduction: masked lanes give the identity. -/
def State.leaves (s : State) (a : BitVec 4) (k : BitVec 3) (ident : FVal) : List FVal :=
  (List.range s.laneCount).map (fun i => if (s.mask k).getLsbD i then fLane (lane (s.lanes a) i) else ident)

/-- The smaller or larger of two values at a node (R88). -/
def nodeMinMax (isMax : Bool) (x y : FVal) : FRes :=
  let pat (v : FVal) : Nat := match v with
    | .nan true => 0x7F800001
    | v => (f32.ofVal 0 v).1
  f32.minMax isMax (pat x) (pat y)

def execVredSumS (d : BitVec 6) (a : BitVec 4) (k : BitVec 3) (s : State) : Out :=
  s.putF d (treeRes (treeFold (f32.add s.frm) 8 (s.leaves a k (.fin true 0 0))) 0#5)
def execVredMaxS (d : BitVec 6) (a : BitVec 4) (k : BitVec 3) (s : State) : Out :=
  s.putF d (treeRes (treeFold (nodeMinMax true) 8 (s.leaves a k (.inf true))) 0#5)
def execVredMinS (d : BitVec 6) (a : BitVec 4) (k : BitVec 3) (s : State) : Out :=
  s.putF d (treeRes (treeFold (nodeMinMax false) 8 (s.leaves a k (.inf false))) 0#5)

/-- The exact product of two values as a leaf, with the flags that the product itself raises (R72, R75). -/
def leafProduct (x y : FVal) : FVal × BitVec 5 :=
  if x.isNan || y.isNan then (.nan false, snanFlag [x, y])
  else match x.mul y with
    | some z => (z, 0#5)
    | none => (.nan false, flagNV)

def execVdotS (d : BitVec 6) (a b : BitVec 4) (k : BitVec 3) (s : State) : Out :=
  let ps := (List.range s.laneCount).map (fun i =>
    if (s.mask k).getLsbD i then leafProduct (fLane (lane (s.lanes a) i)) (fLane (lane (s.lanes b) i))
    else (.fin true 0 0, 0#5))
  s.putF d (treeRes (treeFold (f32.add s.frm) 8 (ps.map (·.1))) (ps.foldl (fun acc p => acc ||| p.2) 0#5))

def execVscanS (d a : BitVec 4) (k : BitVec 3) (s : State) : Out :=
  s.scan d a k 0x80000000#32 (fun x y => toLane (f32.add s.frm (fLane x) (fLane y)))

/-! ## Lane movement (R138) -/

def execVperm (d a b : BitVec 4) (k : BitVec 3) (s : State) : Out :=
  .next (s.lanewise d k (fun i => (lane (s.lanes a) (s.laneIdx (lane (s.lanes b) i).toNat), 0#5))).adv
def execVsplat (d : BitVec 4) (a : BitVec 6) (k : BitVec 3) (s : State) : Out :=
  .next (s.lanewise d k (fun _ => ((s.getG a).truncate 32, 0#5))).adv
def execVget (d : BitVec 6) (a : BitVec 4) (b : BitVec 6) (s : State) : Out :=
  s.put d ((lane (s.lanes a) (s.laneIdx (s.getG b).toNat)).zeroExtend 64)
def execVins (d : BitVec 4) (a b : BitVec 6) (s : State) : Out :=
  .next (s.setLanes d ((s.lanes d).set (s.laneIdx (s.getG b).toNat) ((s.getG a).truncate 32))).adv
def execVcmpr (d a : BitVec 4) (k : BitVec 3) (s : State) : Out :=
  .next (s.setLanes d ((s.active k).map (lane (s.lanes a)))).adv

/-- How many active lanes lie below a lane. -/
def State.rank (s : State) (k : BitVec 3) (i : Nat) : Nat := ((s.active k).filter (fun j => decide (j < i))).length

def execVexpd (d a : BitVec 4) (k : BitVec 3) (s : State) : Out :=
  .next (s.lanewise d k (fun i => (lane (s.lanes a) (s.rank k i), 0#5))).adv

/-! ## Conversion of lanes (R139) -/

/-- A lane format code as one of R104: 0 I32, 1 N32, 2 F32, 3 W19, 4 BF16, 5 F16. -/
def laneCode (c : BitVec 3) : Nat :=
  if c = 0#3 then 2 else if c = 1#3 then 6 else if c = 2#3 then 9 else if c = 3#3 then 12
  else if c = 4#3 then 11 else 10

def execVcvt (d a : BitVec 4) (src dst k : BitVec 3) (u : BitVec 1) (r : BitVec 3) (s : State) : Out :=
  .next (s.lanewise d k (fun i =>
    let x := fcvtVal (s.mode r) (u == 1#1) (laneCode src) (laneCode dst) (lane (s.lanes a) i).toNat
    (x.1.truncate 32, x.2))).adv

/-! ## K8 (R140, R141) -/

/-- The core of the seat. -/
def State.myCore (s : State) : Core := s.core s.self.id.die s.self.id.cluster s.self.id.core

/-- TOP and NCODE of the seat's TBLNAN (R79). -/
def State.top (s : State) : Nat := bits s.self.ctl.tblnan 14 8
def State.ncode (s : State) : Nat := bits s.self.ctl.tblnan 7 0

def execVdec (d a : BitVec 4) (j : BitVec 2) (k : BitVec 3) (s : State) : Out :=
  .next (s.lanewise d k (fun i =>
    (k8Decode s.myCore.table s.top ((lane (s.lanes a) i).toNat / 2 ^ (8 * j.toNat) % 256), 0#5))).adv

/-- A lane with byte `j` replaced. -/
def withByte (x : Lane) (j b : Nat) : Lane :=
  (x &&& ~~~(0xFF#32 <<< (8 * j))) ||| (BitVec.ofNat 32 (b % 256) <<< (8 * j))

def execVenc (d a : BitVec 4) (j : BitVec 2) (k : BitVec 3) (s : State) : Out :=
  .next (s.lanewise d k (fun i =>
    let r := k8Encode s.myCore.table s.top s.ncode f32 (lane (s.lanes a) i).toNat
    (withByte (lane (s.lanes d) i) j.toNat r.1, r.2))).adv

/-- TBLW: one entry, or a whole predefined table; selector 3 is refused at run time (R141; log entry 17). -/
def execTblw (a b : BitVec 6) (s : State) : Out :=
  let x := s.getG a
  let y := s.getG b
  let c := s.myCore
  if !(x.getLsbD 8) then
    .next (s.setCore { c with table := tableSet c.table (bits x 7 0) (BitVec.ofNat 32 (bits y 31 13 * 2 ^ 13)) }).adv
  else if bits y 1 0 < 3 then .next (s.setCore { c with table := loadTable (bits y 1 0) }).adv
  else .next (s.trap (illRun y (insWord (.tblw a b))))

def execTblr (d a : BitVec 6) (s : State) : Out :=
  s.put d ((tableAt s.myCore.table (bits (s.getG a) 7 0)).zeroExtend 64)

/-! ## Masks (R142) -/

def execKopAnd (d a b : BitVec 3) (s : State) : Out := .next (s.setMask d (s.mask a &&& s.mask b)).adv
def execKopOr (d a b : BitVec 3) (s : State) : Out := .next (s.setMask d (s.mask a ||| s.mask b)).adv
def execKopXor (d a b : BitVec 3) (s : State) : Out := .next (s.setMask d (s.mask a ^^^ s.mask b)).adv
def execKopAndn (d a b : BitVec 3) (s : State) : Out := .next (s.setMask d (s.mask a &&& ~~~(s.mask b))).adv
def execKopSet (d : BitVec 3) (a : BitVec 6) (s : State) : Out := .next (s.setMask d ((s.getG a).truncate 32)).adv
def execKopGet (d : BitVec 6) (a : BitVec 3) (s : State) : Out := s.put d ((s.mask a).zeroExtend 64)

/-- One bits of a mask. -/
def popMask (x : BitVec 32) : Nat := ((List.range 32).filter (fun i => x.getLsbD i)).length

def execKcnt (d : BitVec 6) (a : BitVec 3) (s : State) : Out := s.put d (w64 (popMask (s.mask a)))

/-! ## Gangs (R31, R33, R143) -/

/-- The strand in the partner slot that waits in GANG and is of the seat's launch. -/
def State.gangPartner (s : State) : Option Strand :=
  match s.self.id.ctx with
  | .launch _ _ => s.others.find? (fun t => t.parkedFor .gang && t.id.ctx == s.self.id.ctx &&
      t.inSlot s.self.id.die s.self.id.cluster s.self.id.core (s.self.id.slot ^^^ 1))
  | _ => none

/-- A strand as a member of a gang, past its GANG: the leader ACTIVE, the follower FROZEN. -/
def Strand.ganged (t : Strand) (lead : Bool) : Strand :=
  { t with st := if lead then .active else .frozen, park := {}, pc := t.pc + 4#64
           ctl := { t.ctl with ganged := true, glead := lead } }

def execGang (s : State) : Out :=
  if s.self.ctl.ganged then .next (s.trap (illRun 0#64 (insWord .gang)))
  else match s.gangPartner with
    | none => .next (s.parkFor .gang (w64 (s.self.id.slot ^^^ 1)))
    | some p =>
      let lead := decide (s.self.id.slot % 2 = 0)
      .next { s with
        self := s.self.ganged lead
        others := s.others.map (fun t => if t.id.uid = p.id.uid then t.ganged !lead else t) }

def execSplit (s : State) : Out :=
  if s.self.ctl.glead then .next s.endGang.adv else .next (s.trap (illRun 0#64 (insWord .split)))

end Sys2Proof.Machine
end

