-- ==== Sys2Proof/Machine/Memory.lean ====
section
/-! DEFINITION. Loads, stores, atomics, full/empty access, fences and cache operations of a strand (R145 to R161). -/
namespace Sys2Proof.Machine

/-- A load of the seat: checks, cells, other modules, and then the values of its lanes. `fwd`: it may read plain stores of
the outbound buffer (R319). -/
def State.load (s : State) (size : Nat) (ls : List (Nat × Word)) (f : List Nat → State → State) (fwd : Bool := true) : State :=
  State.afterCheck (s.check s.self.site .any .load size size ls fwd) .load
    (fun ps s => s.readGate size ps (fun s => s.readAll fwd size ps f))

/-- A store of the seat: checks, cells and lines that stop it, and then every lane. -/
def State.store (s : State) (op size : Nat) (ls : List (Nat × Word)) (data : List (List Byte)) : State :=
  State.afterCheck (s.check s.self.site .any .store size size ls) .store
    (fun ps s => match s.toProbe true size ps with
      | some q => s.probe true ps q
      | none => match ps.findSome? (s.storeStop size) with
        | some r => s.trap r
        | none => s.storeAll op ps data)

/-! ## Scalar loads and stores (R148 to R150) -/

/-- A scalar load. -/
def State.loadG (s : State) (d : BitVec 6) (w : BitVec 2) (n : BitVec 1) (a : Word) (fwd : Bool := true) : Out :=
  .next (s.load (widthBytes w) [(0, a)] (fun vs s =>
    ((s.setG d (loadExt (widthBytes w) (n == 1#1) (vs.headD 0))).markBusy [.g d]).adv) fwd)

/-- A scalar store. -/
def State.storeG (s : State) (op : Nat) (r : BitVec 6) (w : BitVec 2) (a : Word) : Out :=
  .next (s.store op (widthBytes w) [(0, a)] [leBytes (widthBytes w) (s.getG r).toNat])

def execLd (d a : BitVec 6) (w : BitVec 2) (n : BitVec 1) (o : BitVec 11) (s : State) : Out :=
  s.loadG d w n (s.mAddr a (widthBytes w) o)
def execSt (r a : BitVec 6) (w : BitVec 2) (o : BitVec 11) (s : State) : Out :=
  s.storeG 1 r w (s.mAddr a (widthBytes w) o)
def execLdx (d a b : BitVec 6) (n : BitVec 1) (w : BitVec 2) (s : State) : Out :=
  s.loadG d w n (s.getG a + s.getG b)
def execStx (r a b : BitVec 6) (w : BitVec 2) (s : State) : Out := s.storeG 1 r w (s.getG a + s.getG b)
/-- LD.acq: accesses of this machine are performed in the order of its steps, so the acquire orders nothing more. At DOMAIN
scope it reads no store that other modules cannot see yet (R319). -/
def execLdAcq (d a : BitVec 6) (scope : BitVec 3) (n : BitVec 1) (w : BitVec 2) (s : State) : Out :=
  s.loadG d w n (s.getG a) (scope != 5#3)
/-- ST.rel: at DOMAIN scope it is sent only after every earlier remote store is acknowledged (R441). -/
def execStRel (r a : BitVec 6) (scope : BitVec 3) (w : BitVec 2) (s : State) : Out :=
  s.releasing scope (fun s => s.storeG (if scope = 5#3 then 13 else 1) r w (s.getG a))

/-! ## Vector memory (R151) -/

/-- Element bytes by the width code. -/
def elemBytes (w : BitVec 2) : Nat := 2 ^ w.toNat

/-- An element extended to a lane. -/
def elemExt (size : Nat) (n : Bool) (x : Nat) : Lane := (loadExt size n x).truncate 32

/-- Lane addresses of the active lanes. -/
def laneAddrs (on : List Nat) (f : Nat → Word) : List (Nat × Word) := on.map (fun i => (i, f i))

/-- A vector load: lanes that are off keep their values. -/
def State.vload (s : State) (d : BitVec 4) (size align : Nat) (n : Bool) (ls : List (Nat × Word)) : Out :=
  .next (State.afterCheck (s.check s.self.site .any .load size align ls true) .load
    (fun ps s => s.readGate size ps (fun s => s.readAll true size ps (fun vs s =>
      let xs := ((ps.map (·.1)).zip vs).foldl (fun acc p => acc.set p.1 (elemExt size n p.2)) (s.lanes d)
      ((s.setLanes d xs).markBusy [.v d]).adv))))

/-- A vector store. -/
def State.vstore (s : State) (r : BitVec 4) (size : Nat) (ls : List (Nat × Word)) : Out :=
  .next (s.store 1 size ls (ls.map (fun p => leBytes size (lane (s.lanes r) p.1).toNat)))

/-- Addresses of the contiguous forms: sixteen elements are the scale of the offset (R105). -/
def State.contigAddrs (s : State) (a : BitVec 6) (w : BitVec 2) (o : BitVec 11) : List (Nat × Word) :=
  laneAddrs (List.range s.laneCount) (fun i => s.mAddr a (16 * elemBytes w) o + w64 (i * elemBytes w))

/-- Addresses of the strided forms. -/
def State.strideAddrs (s : State) (a b : BitVec 6) (k : BitVec 3) : List (Nat × Word) :=
  laneAddrs (s.active k) (fun i => s.getG a + w64 i * s.getG b)

/-- Addresses of gather and scatter. -/
def State.indexAddrs (s : State) (a : BitVec 6) (b : BitVec 4) (k : BitVec 3) : List (Nat × Word) :=
  laneAddrs (s.active k) (fun i => s.getG a + (lane (s.lanes b) i).signExtend 64)

def execVld (d : BitVec 4) (a : BitVec 6) (w : BitVec 2) (n : BitVec 1) (o : BitVec 11) (s : State) : Out :=
  s.vload d (elemBytes w) (elemBytes w) (n == 1#1) (s.contigAddrs a w o)
def execVst (r : BitVec 4) (a : BitVec 6) (w : BitVec 2) (o : BitVec 11) (s : State) : Out :=
  s.vstore r (elemBytes w) (s.contigAddrs a w o)
def execVlds (d : BitVec 4) (a b : BitVec 6) (k : BitVec 3) (n : BitVec 1) (w : BitVec 2) (s : State) : Out :=
  s.vload d (elemBytes w) (elemBytes w) (n == 1#1) (s.strideAddrs a b k)
def execVsts (r : BitVec 4) (a b : BitVec 6) (k : BitVec 3) (w : BitVec 2) (s : State) : Out :=
  s.vstore r (elemBytes w) (s.strideAddrs a b k)
def execVgth (d : BitVec 4) (a : BitVec 6) (b : BitVec 4) (k : BitVec 3) (n : BitVec 1) (w : BitVec 2) (s : State) : Out :=
  s.vload d (elemBytes w) (elemBytes w) (n == 1#1) (s.indexAddrs a b k)
def execVsct (r : BitVec 4) (a : BitVec 6) (b : BitVec 4) (k : BitVec 3) (w : BitVec 2) (s : State) : Out :=
  s.vstore r (elemBytes w) (s.indexAddrs a b k)

/-! ## Fences and cache operations (R160, R161) -/

/-- PREF, CWB and CINV change where a line resides and never a value that any agent reads (R51, R161). -/
def execPref (_a : BitVec 6) (s : State) : Out := .next s.adv
/-- FENCE: accesses of this machine are performed in the order of its steps. At DOMAIN scope, a kind that orders
earlier stores, or earlier loads before stores, waits for the acknowledgement of the remote stores that come before it: they
become a release for what it orders, the stores that its loads have observed among it (R316, R318, R441). -/
def execFence (scope : BitVec 3) (m : BitVec 4) (s : State) : Out :=
  if bits m 3 1 ≠ 0 then s.releasing scope (fun s => .next s.clearHolds.adv) else .next s.adv
def execCwb (_a : BitVec 6) (s : State) : Out := .next s.adv
def execCinv (_a : BitVec 6) (s : State) : Out := .next s.adv

/-! ## Atomics (R154 to R156) -/

/-- The new value of an atomic on `n` bytes and the flags of fadd. Codes 0 to 9 of R108; 10 is ACAS, which writes the
operand when the old value is the expected one. -/
def atomicNew (op n : Nat) (old x expected : Nat) : Nat × BitVec 5 :=
  let sgn (v : Nat) : Int := if 2 ^ (8 * n - 1) ≤ v then (v : Int) - (256 ^ n : Nat) else v
  if op = 0 then ((old + x) % 256 ^ n, 0#5)
  else if op = 1 then (old &&& x, 0#5)
  else if op = 2 then (old ||| x, 0#5)
  else if op = 3 then (old ^^^ x, 0#5)
  else if op = 4 then (if sgn x < sgn old then x else old, 0#5)
  else if op = 5 then (if sgn old < sgn x then x else old, 0#5)
  else if op = 6 then (min old x, 0#5)
  else if op = 7 then (max old x, 0#5)
  else if op = 8 then (x, 0#5)
  else if op = 9 then
    let F := if n = 4 then f32 else f64
    F.add 0 (F.unpack old) (F.unpack x)
  else (if old = expected then x else old, 0#5)

/-- What g[d] receives: the old value, zero-extended for minn, maxn and fadd, else sign-extended. -/
def atomicOld (op n old : Nat) : Word := loadExt n (op == 6 || op == 7 || op == 9) old

/-- An atomic's end: the register written, flags merged, and the instruction done. -/
def State.atomicDone (s : State) (d : BitVec 6) (op n old : Nat) (fl : BitVec 5) : State :=
  (((s.setG d (atomicOld op n old)).mergeFlags fl).markBusy [.g d, .flags]).adv

/-- An atomic at its place (R154): at this module one step; at another, a request whose answer is the old value. -/
def State.atomicAt (s : State) (d : BitVec 6) (op n : Nat) (x expected : Nat) (q : Nat × Word × Place) : State :=
  let p := q.2.2
  if p.remote then
    match s.answerOf p.loc with
    | some a =>
      let old := a.data.toNat % 256 ^ n
      s.dropAnswers.atomicDone d op n old (atomicNew op n old x expected).2
    | none => s.askWait (op + 2) n q (BitVec.ofNat 512 x) (w64 expected)
  else
    let old := s.rd p.loc n
    let r := atomicNew op n old x expected
    (s.storeAt p (leBytes n r.1)).atomicDone d op n old r.2

/-- AMO.op and ACAS: at DOMAIN scope a release too (R156). -/
def State.atomic (s : State) (op : Nat) (d a b : BitVec 6) (scope : BitVec 3) (w : BitVec 1) : Out :=
  let n := if w = 0#1 then 4 else 8
  let x := (s.getG b).toNat % 256 ^ n
  let e := (s.getG d).toNat % 256 ^ n
  s.releasing scope (fun s =>
    .next (State.afterCheck (s.check s.self.site .any .atomic n n [(0, s.getG a)]) .atomic
      (fun ps s => s.readGate n ps (fun s => match ps with
        | q :: _ => s.atomicAt d op n x e q
        | [] => s))))

def execAmoAdd (d a b : BitVec 6) (c : BitVec 3) (w : BitVec 1) (s : State) : Out := s.atomic 0 d a b c w
def execAmoAnd (d a b : BitVec 6) (c : BitVec 3) (w : BitVec 1) (s : State) : Out := s.atomic 1 d a b c w
def execAmoOr (d a b : BitVec 6) (c : BitVec 3) (w : BitVec 1) (s : State) : Out := s.atomic 2 d a b c w
def execAmoXor (d a b : BitVec 6) (c : BitVec 3) (w : BitVec 1) (s : State) : Out := s.atomic 3 d a b c w
def execAmoMin (d a b : BitVec 6) (c : BitVec 3) (w : BitVec 1) (s : State) : Out := s.atomic 4 d a b c w
def execAmoMax (d a b : BitVec 6) (c : BitVec 3) (w : BitVec 1) (s : State) : Out := s.atomic 5 d a b c w
def execAmoMinn (d a b : BitVec 6) (c : BitVec 3) (w : BitVec 1) (s : State) : Out := s.atomic 6 d a b c w
def execAmoMaxn (d a b : BitVec 6) (c : BitVec 3) (w : BitVec 1) (s : State) : Out := s.atomic 7 d a b c w
def execAmoSwp (d a b : BitVec 6) (c : BitVec 3) (w : BitVec 1) (s : State) : Out := s.atomic 8 d a b c w
def execAmoFadd (d a b : BitVec 6) (c : BitVec 3) (w : BitVec 1) (s : State) : Out := s.atomic 9 d a b c w
def execAcas (d a b : BitVec 6) (c : BitVec 3) (w : BitVec 1) (s : State) : Out := s.atomic 10 d a b c w

/-! ## Full/empty access (R56 to R58, R157, R158) -/

/-- Address of the full/empty memory forms. -/
def State.feAddr (s : State) (a : BitVec 6) (o : BitVec 11) : Word := s.mAddr a 8 o

/-- A full/empty form at its word, once its checks pass; a word with an error mark acts as a poisoned line (R460). -/
def State.feAt (s : State) (a : Word) (f : Nat → State → State) : State :=
  State.afterCheck (s.check s.self.site .localOnly .load 8 8 [(0, a)]) .load
    (fun ps s => match ps with
      | q :: _ => if s.isPoisoned q.2.2.loc then s.trap (poisonedTrap a 0 true) else f q.2.2.loc s
      | [] => s)

/-- A local word written by the seat, and the BWAIT waiters that it wakes (R18). -/
def State.storeWord (s : State) (l x : Nat) : State := (s.wr l 8 x).wakeOthers l 8

/-- A load of a FULL word; it leaves the bit as `keep` says. -/
def State.feLoad (s : State) (d : BitVec 6) (a : Word) (keep : Bool) : Out :=
  .next (s.feAt a (fun l s =>
    if s.isFull l then
      let x := w64 (s.rd l 8)
      (((if keep then s else s.setFull l false).setG d x).markBusy [.g d]).adv
    else s.parkFor .fe a l true))

def execLdfe (d a : BitVec 6) (o : BitVec 11) (s : State) : Out := s.feLoad d (s.feAddr a o) false
def execLdff (d a : BitVec 6) (o : BitVec 11) (s : State) : Out := s.feLoad d (s.feAddr a o) true
def execStef (r a : BitVec 6) (o : BitVec 11) (s : State) : Out :=
  let x := (s.getG r).toNat
  .next (s.feAt (s.feAddr a o) (fun l t =>
    if t.isFull l then t.parkFor .fe (s.feAddr a o) l false else ((t.storeWord l x).setFull l true).adv))
def execStff (r a : BitVec 6) (o : BitVec 11) (s : State) : Out :=
  let x := (s.getG r).toNat
  .next (s.feAt (s.feAddr a o) (fun l t => ((t.storeWord l x).setFull l true).adv))
def execFeget (d a : BitVec 6) (s : State) : Out :=
  .next (s.feAt (s.getG a) (fun l s => ((s.setG d (w64 (b2n (s.isFull l)))).markBusy [.g d]).adv))
def execFesetEmpty (a : BitVec 6) (s : State) : Out := .next (s.feAt (s.getG a) (fun l s => (s.setFull l false).adv))
def execFesetFull (a : BitVec 6) (s : State) : Out := .next (s.feAt (s.getG a) (fun l s => (s.setFull l true).adv))

end Sys2Proof.Machine
end

