-- ==== Sys2Proof/Machine/Queue.lean ====
section
/-! DEFINITION. Messages, stream registers, copies as they are issued, and byte barriers (R61 to R64, R162 to R170). -/
namespace Sys2Proof.Machine

/-! ## Messages (R162 to R164) -/

/-- SEND and SENDV: the sender parks with its message until the recipient's cluster answers. -/
def State.sendMsg (s : State) (a : BitVec 6) (wide : Bool) (payload : BitVec 512) : Out :=
  let sid : BitVec 16 := (s.getG a).truncate 16
  let m : Msg := { sender := BitVec.ofNat 16 s.self.sidNat, wide := wide, payload := payload }
  let s := s.parkFor .qsend (w64 sid.toNat)
  .next { s with self := { s.self with waits := { s.self.waits with sending := some (sid, m) } } }

/-- Sixteen lanes as 64 bytes. -/
def packLanes (xs : List Lane) : BitVec 512 := BitVec.ofNat 512 (xs.foldr (fun x acc => x.toNat + 2 ^ 32 * acc) 0)

/-- Lane `i` of 64 bytes. -/
def unpackLane (x : BitVec 512) (i : Nat) : Lane := x.extractLsb' (32 * i) 32

def execSend (a b : BitVec 6) (s : State) : Out := s.sendMsg a false ((s.getG b).zeroExtend 512)
def execSendv (a : BitVec 6) (b : BitVec 4) (s : State) : Out := s.sendMsg a true (packLanes (s.self.getV b).toList)

/-- The strand's own sixteen lanes of a vector register written. -/
def State.setV16 (s : State) (d : BitVec 4) (f : Nat → Lane) : State :=
  { s with self := s.self.setV d (Vector.ofFn (fun i => f i.val)) }

/-- The location of ring word `i` words past the head. -/
def Ring.wordAt (r : Ring) (i : Nat) : Nat := r.loc + (r.head + i) % 2 ^ r.n * 8

/-- Ring word `i` fails a check of LDFE (R163): it lies past the local bounds, which may have moved since it was bound (R46), or
carries an error mark (R460). -/
def State.ringFault (s : State) (r : Ring) (i : Nat) : Option TrapRec :=
  let a := r.base + w64 ((r.head + i) % 2 ^ r.n * 8)
  match s.space s.self.site .localOnly a 8 with
  | .error e => some (protTrap a e)
  | .ok _ => if s.isPoisoned (r.wordAt i) then some (poisonedTrap a 0 true) else none

/-- Ring words taken: emptied, and the head advanced. -/
def State.takeRing (s : State) (q : Nat) (r : Ring) (n : Nat) : State :=
  let s := (List.range n).foldl (fun s i => s.setFull (r.wordAt i) false) s
  { s with self := s.self.setRing q (some { r with head := (r.head + n) % 2 ^ r.n }) }

/-- RECV: from q0 the oldest message, from a ring `n` words, once all are FULL; `put` writes the result. Where one register is
named for the result and the sender, the sender is written last (log entry 128). -/
def State.recv (s : State) (q : BitVec 2) (b : BitVec 6) (n : Nat) (i : Instr)
    (put0 : Msg → State → State) (putN : List Nat → State → State) (mark : BusyMark) : Out :=
  if q = 0#2 then
    match s.self.q.q0 with
    | [] => .next (s.parkFor .qrecv 0#64)
    | m :: _ =>
      let s := { s with self := { s.self with q := { s.self.q with q0 := (s.heldMsgs s.self).drop 1 } } }
      .next (((put0 m s).setG b (w64 m.sender.toNat)).markBusy [mark, .g b]).adv
  else
    match s.self.ring q.toNat with
    | none => .next (s.trap (illRun (w64 q.toNat) (insWord i)))
    | some r =>
      match (List.range n).findSome? (s.ringFault r) with
      | some x => .next (s.trap x)
      | none =>
      match (List.range n).find? (fun j => !(s.isFull (r.wordAt j))) with
      | some j => .next (s.parkFor .qrecv (w64 q.toNat) (r.wordAt j) true)
      | none =>
        let vs := (List.range n).map (fun j => s.rd (r.wordAt j) 8)
        .next ((((putN vs (s.takeRing q.toNat r n))).setG b 0#64).markBusy [mark, .g b]).adv

def execRecvG (d : BitVec 6) (q : BitVec 2) (b : BitVec 6) (s : State) : Out :=
  s.recv q b 1 (.recvG d q b) (fun m t => t.setG d (m.payload.truncate 64)) (fun vs t => t.setG d (w64 (vs.headD 0))) (.g d)
def execRecvV (d : BitVec 4) (q : BitVec 2) (b : BitVec 6) (s : State) : Out :=
  s.recv q b 8 (.recvV d q b) (fun m t => t.setV16 d (fun i => unpackLane m.payload i))
    (fun vs t => t.setV16 d (fun i => BitVec.ofNat 32 (vs.getD (i / 2) 0 / 2 ^ (32 * (i % 2))))) (.v d)

def execQpoll (d : BitVec 6) (q : BitVec 2) (s : State) : Out :=
  if q = 0#2 then .next ((s.setG d (w64 s.self.q.q0.length)).markBusy [.g d]).adv
  else match s.self.ring q.toNat with
    | none => .next (s.trap (illRun (w64 q.toNat) (insWord (.qpoll d q))))
    | some r => .next ((s.setG d (w64 (b2n (s.isFull (r.wordAt 0))))).markBusy [.g d]).adv

/-! ## Rings (R61, R165, R166) -/

/-- Ring copies of the seat to a register no longer wait once it is unbound or rebound; they go on at the ring's tail
(R165), each with the tail of its own from then on (log entry 135). -/
def State.releaseRing (s : State) (q : Nat) : State :=
  let tail := match s.self.ring q with
    | some r => r.tail
    | none => 0
  let fix (c : Copy) : Copy := if c.uid ≠ s.self.id.uid then c else match c.ring with
    | some (r, l, n, w, _) => if w && r == q then { c with ring := some (r, l, n, false, tail) } else c
    | none => c
  { s with work := { s.work with copies := s.work.copies.map fix } }

/-- QBIND: the space of the base, its alignment, and the bounds of the whole ring, in that order (R165). -/
def execQbind (q : BitVec 2) (a n : BitVec 6) (s : State) : Out :=
  let base := s.getG a
  let size := 8 * 2 ^ n.toNat
  match s.space s.self.site .barrier base size with
  | .error r =>
    if r ≠ 1 ∧ base.toNat % size ≠ 0 then .next (s.trap (alignTrap base)) else .next (s.trap (protTrap base r))
  | .ok none => .next (s.trap (protTrap base 1))
  | .ok (some l) =>
    if base.toNat % size ≠ 0 then .next (s.trap (alignTrap base))
    else
      let s := s.releaseRing q.toNat
      let r : Ring := { base := base, loc := l, n := n.toNat, head := 0, tail := 0 }
      .next { s with self := s.self.setRing q.toNat (some r) }.adv

def execQfree (q : BitVec 2) (s : State) : Out :=
  let s := s.releaseRing q.toNat
  .next { s with self := s.self.setRing q.toNat none }.adv

/-! ## Issuing a copy (R63 to R66, R167, R168) -/

/-- Copies of a strand for which it holds a copy record (R334, R396): those outstanding, and those that have bounced and
whose COPYBNC is pending. There are at most 16. -/
def State.copySlots (s : State) (uid : Nat) : List Copy := s.work.copies.filter (fun c => c.uid == uid)

/-- The copy engine of a die that takes a new copy: the one with the fewest copies, then the lowest number. -/
def State.engineFor (s : State) (die : Nat) : Nat :=
  let load (k : Nat) : Nat := (s.work.copies.filter (fun c => c.site.die == die && c.engine == k && !c.bounced)).length
  (List.range 8).foldl (fun b k => if load k < load b then k else b) 0

/-- Copies of a strand that are outstanding: a bounced copy is over (R168, R169). -/
def State.copiesOf (s : State) (uid : Nat) : List Copy := s.work.copies.filter (fun c => c.uid == uid && !c.bounced)

/-- The copies of a strand quiesced, or handed back to engines (R394). -/
def State.quiesce (s : State) (uid : Nat) (q : Bool) : State :=
  let fix (c : Copy) : Copy := if c.uid = uid then { c with quiesced := q, answers := [], bytes := [] } else c
  { s with work := { s.work with copies := s.work.copies.map fix } }

/-- The barrier of a copy: its address and location, or the trap. -/
def State.barrierAt (s : State) (x : BitVec 6) : Except TrapRec (Option (Word × Nat)) :=
  if x = 0#6 then .ok none
  else
    let a := s.getG x
    match s.space s.self.site .barrier a 8 with
    | .error r => .error (protTrap a r)
    | .ok none => .error (protTrap a 1)
    | .ok (some l) => if a.toNat % 8 ≠ 0 then .error (alignTrap a) else .ok (some (a, l))

/-- Rows of a copy whose range lies outside what the strand reaches: the first failure. -/
def State.rangeFault (s : State) (a stride : Word) (len rows : Nat) : Option TrapRec :=
  (List.range rows).findSome? (fun j =>
    match s.space s.self.site .any (a + w64 j * stride) len with
    | .error r => some (protTrap (a + w64 j * stride) r)
    | .ok _ => none)

/-- The ring of the seat whose base a destination names. -/
def State.ringFor (s : State) (dst : Word) : Option (Nat × Nat × Nat × Bool × Nat) :=
  [1, 2, 3].findSome? (fun q => match s.self.ring q with
    | some r => if r.base = dst then some (q, r.loc, r.n, true, 0) else none
    | none => none)

/-- A copy issued with its operands read. The destination of a ring copy is its ring, which must still lie within the local bounds
(R46, R167); `ill` is a length or row count that is too large. -/
def State.issueCopy (s : State) (i : Instr) (ill : Option Word) (is2 : Bool) (dst src : Word) (len rows : Nat)
    (ss ds : Word) (x : BitVec 6) : Out :=
  if 16 ≤ (s.copySlots s.self.id.uid).length then .next s
  else match ill with
  | some v => .next (s.trap (illRun v (insWord i)))
  | none => match s.barrierAt x with
    | .error r => .next (s.trap r)
    | .ok bar =>
      let ring := s.ringFor dst
      if len = 0 ∨ rows = 0 then .next s.adv
      else
      let bad := match s.rangeFault src ss len rows with
        | some r => some r
        | none => match ring with
          | some (_, _, n, _) => (match s.space s.self.site .barrier dst (8 * 2 ^ n) with
            | .error r => some (protTrap dst r)
            | .ok _ => none)
          | none => s.rangeFault dst ds len rows
      match bad with
      | some r => .next (s.trap r)
      | none =>
          let c : Copy := { cid := s.fresh, uid := s.self.id.uid, engine := s.engineFor s.self.id.die, site := s.self.site, is2 := is2, src := src, dst := dst
                            rowLen := len, off := 0, rows := rows, sstride := ss, dstride := ds, bar := bar, ring := ring }
          .next { s with work := { s.work with copies := s.work.copies ++ [c] }, fresh := s.fresh + 1 }.adv

def execCpy (d a b x : BitVec 6) (s : State) : Out :=
  let len := s.getG b
  s.issueCopy (.cpy d a b x) (if 2 ^ 40 ≤ len.toNat then some len else none) false
    (s.getG d) (s.getG a) len.toNat 1 0#64 0#64 x
def execCpy2 (d a b x : BitVec 6) (s : State) : Out :=
  let len := s.getG b
  let rows := s.getGn (b.toNat + 1)
  let ill := if 2 ^ 32 ≤ len.toNat then some len else if 2 ^ 32 ≤ rows.toNat then some rows else none
  s.issueCopy (.cpy2 d a b x) ill true (s.getG d) (s.getG a) len.toNat rows.toNat
    (s.getGn (b.toNat + 2)) (s.getGn (b.toNat + 3)) x

def execBwait (a : BitVec 6) (s : State) : Out :=
  .next (State.afterCheck (s.check s.self.site .barrier .load 8 8 [(0, s.getG a)]) .load
    (fun ps s => match ps with
      | q :: _ =>
        if s.isPoisoned q.2.2.loc then s.trap (poisonedTrap (s.getG a) 0 true)
        else if s.barrierDone q.2.2.loc then s.adv else s.parkFor .bwait (s.getG a) q.2.2.loc
      | [] => s))

end Sys2Proof.Machine
end

