-- ==== Sys2Proof/Machine/Launches.lean ====
section
/-! DEFINITION. Strands as they are created and as they retire, and what a launch holds (R22 to R30, R180, R181). -/
namespace Sys2Proof.Machine

/-! ## Clusters -/

/-- The run-time standing of a cluster. -/
def State.cluster (s : State) (die c : Nat) : ClusterSt :=
  (s.plant.clusters.find? (fun x => x.die == die && x.cluster == c)).getD { die := die, cluster := c }

/-- A cluster's standing replaced. -/
def State.setCluster (s : State) (x : ClusterSt) : State :=
  let rest := s.plant.clusters.filter (fun y => !(y.die == x.die && y.cluster == x.cluster))
  { s with plant := { s.plant with clusters := x :: rest } }

/-- A droop freeze or the issue fraction of the cluster's kind withholds vector pipes and XEs in this cycle (R448, R451). A
fraction of m/16 is taken as the first m of every sixteen core cycles. -/
def State.pipeHeld (s : State) (die cluster : Nat) : Bool :=
  let m := if cluster < 48 then s.plant.power.broadFrac else s.plant.power.narrowFrac
  decide (s.cycle < (s.cluster die cluster).freeze) || decide (m ≤ s.cycle % 16)

/-- Free slots of a cluster; a failed one has none (R462). -/
def State.freeSlots (s : State) (die c : Nat) : Nat :=
  if (s.cluster die c).failed then 0
  else 128 - (s.all.filter (fun t => t.resident && t.id.die == die && t.id.cluster == c)).length

/-- The first of a list of clusters that has the most free slots, failed ones left out (R462); cluster 0 when none is left. -/
def State.mostFree (s : State) (die : Nat) (l : List Nat) : Nat :=
  match l.filter (fun c => !(s.cluster die c).failed) with
  | [] => 0
  | c :: cs => cs.foldl (fun b x => if s.freeSlots die b < s.freeSlots die x then x else b) c

/-! ## Creating a strand (R22, R95, R360, R365) -/

/-- Control registers at creation: the launch's values, and the windows of the partition on the die. -/
def State.newCtl (s : State) (part die asid : Nat) (ptb tvec : Word) (sMode : Bool) : Ctl :=
  let x := (s.part part).dies[die]?.getD {}
  { sMode := sMode, tvec := w64 (bits tvec 63 2 * 4), asid := BitVec.ofNat 9 asid, ptb := w64 (bits ptb 51 12 * 4096)
    spbase := w64 (x.spb * 2 ^ 16), splim := w64 (x.spl * 2 ^ 16)
    swbase := w64 (x.swb * 2 ^ 20), swlim := w64 (x.swl * 2 ^ 20) }

/-- The registers of a new strand: g1 onward hold the values listed. -/
def regsFrom (vs : List Word) : Vector Word 64 :=
  Vector.ofFn (fun i => if i.val = 0 then 0#64 else vs.getD (i.val - 1) 0#64)

/-- A strand joins the spawn queue of a cluster (R15, R23). Its pc has bits 1 and 0 zero (R97): those of a kernel's or a
pager's entry are dropped, where no check refuses them (log entry 109). -/
def State.newStrand (s : State) (ctx : Context) (part die cluster core : Nat) (bound : Bool) (entry : Word)
    (args : List Word) (ctl : Ctl) (q0max : Nat) : State :=
  let entry := w64 (bits entry 63 2 * 4)
  let sid : StrandId := { uid := s.fresh, ctx := ctx, part := part, die := die, cluster := cluster, core := core
                          coreBound := bound, queuedAt := s.cycle, order := s.fresh }
  let t : Strand := { id := sid, st := .queued, pc := entry, g := regsFrom args, ctl := ctl, q := { q0max := q0max } }
  { s with others := s.others ++ [t], fresh := s.fresh + 1 }

/-- Live strands of a launch (R25). -/
def State.liveOf (s : State) (c : Context) : Nat := (s.all.filter (fun t => t.live && t.id.ctx == c)).length

/-! ## Regions that a launch has reserved (R380) -/

/-- Regions of a shape that a kernel declares. -/
def Kernel.declared (k : Kernel) : Shape → Nat
  | .whole => k.whole | .half => k.half | .quarter => k.quarter

/-- Regions of a shape that a launch has reserved in a cluster. -/
def Launch.reserved (l : Launch) (cluster : Nat) (sh : Shape) : Nat :=
  if !l.kernel.onDie && l.kernel.cluster == cluster then l.kernel.declared sh else 0

/-- The code of a shape. -/
def Shape.code : Shape → Nat
  | .whole => 0 | .half => 1 | .quarter => 2

/-! ## Residencies freed (R179, R180, R410) -/

/-- Pinned translations of a region released: stale ones are dropped (R410). -/
def State.unpin (s : State) (rid : Nat) : State :=
  let mine (e : TlbEntry) : Bool := match e.pin with
    | some p => p.1 == rid
    | none => false
  let l := (s.m.tlb.filter (fun e => !(mine e && e.stale))).map (fun e => if mine e then { e with pin := none } else e)
  { s with m := { s.m with tlb := l } }

/-- An occasion for a decision of a cluster's frond scheduler (R388). -/
def State.needDecision (s : State) (die cluster : Nat) : State :=
  { s with work := { s.work with decisions := s.work.decisions ++ [(die, cluster)] } }

/-- A region freed, which is an occasion for a decision. -/
def State.freeRegion (s : State) (rid : Nat) : State :=
  let s := match s.work.regions.find? (fun r => r.rid == rid) with
    | some r => s.needDecision r.die r.cluster
    | none => s
  let s := s.unpin rid
  let es := s.cells.eclosions.map (fun e => { e with waiters := e.waiters.filter (fun w => match w with
      | .mp r _ _ => r != rid
      | _ => true) })
  { s with work := { s.work with regions := s.work.regions.filter (fun r => r.rid != rid) }
           cells := { s.cells with eclosions := es } }

/-- The residency of an entry. -/
def State.residency? (s : State) (die cluster entry : Nat) : Option Residency :=
  s.work.residencies.find? (fun r => r.die == die && r.cluster == cluster && r.entry == entry)

/-- The residency is that entry. -/
def Residency.at (r : Residency) (die cluster entry : Nat) : Bool :=
  r.die == die && r.cluster == cluster && r.entry == entry

/-- A residency changed. -/
def State.mapResidency (s : State) (die cluster entry : Nat) (f : Residency → Residency) : State :=
  let l := s.work.residencies.map (fun r => if r.at die cluster entry then f r else r)
  { s with work := { s.work with residencies := l } }

/-- The partition has a scratchpad window on the die (R360). -/
def State.windowOn (s : State) (part die : Nat) : Bool := ((s.part part).dies[die]?.getD {}).spl != 0

/-- A residency freed with its entry and region; of one that has migrated, the region kept in its owner's cluster is free too, an
occasion for a decision there (R387, R388). It is its owner's no longer, and so contributes no deferred trap (R334; log entry
113). -/
def State.freeResidency (s : State) (r : Residency) : State :=
  let l := s.work.residencies.filter (fun x => !(x.at r.die r.cluster r.entry))
  let s := { s with work := { s.work with residencies := l } }
  let s := s.mapStrand r.owner (fun t => { t with waits := { t.waits with
    deferred := t.waits.deferred.filter (fun d => d.isCopy || d.who != r.entry) } })
  let s := if r.migrated then s.needDecision r.die r.cluster else s
  match r.region, r.saved with
  | some rid, _ => s.freeRegion rid
  | none, some x => s.unpin x.rid
  | none, none => s

/-- What becomes of the residencies of a retiring owner (R180). -/
def State.orphan (s : State) (uid : Nat) : State :=
  let mine := s.work.residencies.filter (fun r => r.owner == uid && !r.orphan)
  let s := (mine.filter (fun r => r.state != .running)).foldl State.freeResidency s
  let l := s.work.residencies.map (fun r => if r.owner = uid then { r with orphan := true } else r)
  { s with work := { s.work with residencies := l } }

/-! ## Retiring (R30, R182, R188) -/

/-- The cells that a retiring evaluator leaves ECLOSING become POISON, and their waiters wake. -/
def State.poisonCellsOf (s : State) (uid : Nat) : State :=
  (s.cells.eclosions.filter (fun e => e.evaluator == .strand uid || e.evaluator == .queued uid)).foldl
    (fun s e => (s.setTag e.cell .poison).endEclosion e) s

/-- Messages counted as dropped for a launch, saturating (R28, R379). -/
def State.countDrops (s : State) (c : Context) (n : Nat) : State :=
  match c with
  | .launch d l => s.mapLaunch d l (fun x => { x with drops := min (x.drops + n) (2 ^ 32 - 1) })
  | _ => s

/-- A reply to the entry is on its way from the root: the fault is answered. -/
def State.answered (s : State) (e : RouterEntry) : Bool :=
  s.cells.replies.any (fun m => m.router == e.router && m.part == e.part && m.asid == e.asid && m.page == e.page)

/-- The faults that a retiring pager leaves unanswered are delivered again, to the next pager of its die (R414). -/
def State.unanswered (s : State) (t : Strand) : State :=
  if t.id.ctx = .pager then
    { s with cells := { s.cells with routers := s.cells.routers.map (fun e =>
        if e.router = .root t.id.die ∧ e.part = t.id.part ∧ !(s.answered e) then { e with delivered := false } else e) } }
  else s

/-- The spill areas of the seat's core before it leaves, and after. -/
def State.leavingCore (s : State) (f : State → State) : State :=
  let t := s.self
  if t.resident then (f (s.liftSpills t.id.die t.id.cluster t.id.core)).laySpills t.id.die t.id.cluster t.id.core else f s

/-- The seat retires: slot, queue and SID are released, messages in q0 dropped. Its copies go on, those that a save had quiesced
too (R30). -/
def State.retireSeat (s : State) : State := s.leavingCore (fun s =>
  let s := [1, 2, 3].foldl State.releaseRing s.endGang
  let t := s.self
  let s := s.poisonCellsOf t.id.uid
  let s := (s.orphan t.id.uid).unanswered t
  let s := s.leaveCell t
  let s := s.quiesce t.id.uid false
  let copies := s.work.copies.filter (fun c => !(c.bounced && c.uid == t.id.uid))
  let s := { s with work := { s.work with copies := copies } }
  { s with self := { s.self with st := .retired, q := {}, park := {}, waits := {} } })

/-! ## SPAWN and EXIT (R23, R25, R181, R182) -/

/-- SPAWN into a cluster's queue. -/
def State.spawn (s : State) (a b : BitVec 6) (cluster : Nat) (bound : Bool) : Out :=
  let t := s.self
  let entry := s.getG a
  if bits entry 1 0 ≠ 0 then .next (s.trap (alignTrap entry))
  else match s.launchOf t.id.ctx with
  | none => .next (s.trap (qovfTrap cluster 1))
  | some l =>
    if l.kernel.max ≤ s.liveOf t.id.ctx then .next (s.trap (qovfTrap cluster 1))
    else
      let ctl := s.newCtl t.id.part t.id.die l.asid l.ptb l.tvec false
      .next (s.newStrand t.id.ctx t.id.part t.id.die cluster t.id.core bound entry
        [s.getG b, w64 t.sidNat] ctl l.kernel.q0).adv

def execSpawnCore (a b : BitVec 6) (s : State) : Out := s.spawn a b s.self.id.cluster true
def execSpawnCluster (a b : BitVec 6) (s : State) : Out := s.spawn a b s.self.id.cluster false
/-- SPAWN into a named cluster: its number is checked before its entry (log entry 128). -/
def execSpawnNamed (d a b : BitVec 6) (s : State) : Out :=
  if 64 ≤ (s.getG d).toNat then .next (s.trap (illRun (s.getG d) (insWord (.spawnNamed d a b))))
  else s.spawn a b (s.getG d).toNat false
def execSpawnDie (a b : BitVec 6) (s : State) : Out :=
  s.spawn a b (s.mostFree s.self.id.die (List.range 64)) false

/-- The seat retires by EXIT, or by STRAND_KILL as by EXIT (R30, R373): the messages of its q0 are counted as dropped. -/
def State.exitSeat (s : State) : State := (s.countDrops s.self.id.ctx s.self.q.q0.length).retireSeat

/-- EXIT retires the strand; it waits for the acknowledgement of its remote stores (R30, R441). -/
def execExit (s : State) : Out := if s.unacked s.self.id.uid then .next s else .next s.exitSeat

/-- YIELD changes no state; the rotation of R19 gives every other ready slot its turn (R183). -/
def execYield (s : State) : Out := .next s.adv

/-- TWAIT (R184). -/
def execTwait (a : BitVec 6) (s : State) : Out :=
  if (s.getG a).toNat ≤ s.plant.time.toNat then .next s.adv else .next (s.parkFor .time (s.getG a))

end Sys2Proof.Machine
end

