-- ==== Sys2Proof/Machine/CellOps.lean ====
section
/-! DEFINITION. Cell instructions (R185 to R189). -/
namespace Sys2Proof.Machine

/-- A cell instruction at its cell, once its checks pass; on an absent page the strand parks with reason PAGE, as R405 has it
(log entry 114). A cell of another module is decided there (R294): the request
`op` is sent with `data`, and `far` says what its answer means. -/
def State.cellAt (s : State) (a : Word) (acc : Acc) (op : Nat) (data : BitVec 512)
    (far : Nat → State → State) (f : Nat → State → State) : Out :=
  .next (State.afterCheck (s.check s.self.site .globalOnly acc 32 32 [(0, a)]) acc
    (fun ps s => match ps with
      | q :: _ =>
        let pa := q.2.2.loc
        if q.2.2.remote then
          (match s.answerOf pa with
           | some r => far r.data.toNat s.dropAnswers
           | none => s.askWait op 32 q data 0#64)
        else if s.isPoisoned pa then s.trap (poisonedTrap a 0 true)
        else f pa s
      | [] => s))

/-- The record that CSUS writes: CREATOR is the issuer's SID, the reserved bits are zero (R186, R290). -/
def State.csusRecord (s : State) (b : BitVec 6) : BitVec 512 :=
  let w2 := s.getGn (b.toNat + 2)
  let word2 := bits w2 9 0 + 2 ^ 16 * s.self.sidNat + 2 ^ 32 * bits w2 63 32
  BitVec.ofNat 512 ((s.getG b).toNat + 2 ^ 64 * (s.getGn (b.toNat + 1)).toNat + 2 ^ 128 * word2
    + 2 ^ 192 * (s.getGn (b.toNat + 3)).toNat)

def execCsus (a b : BitVec 6) (s : State) : Out :=
  let rec' := s.csusRecord b
  let va := s.getG a
  s.cellAt va .csus 14 rec'
    (fun tag s => if tag = 2 then s.trap (cellBusy va 2) else s.adv)
    (fun pa s => if s.tag pa = .eclosing then s.trap (cellBusy va 2)
                 else ((s.wr pa 32 rec'.toNat).setTag pa .chrysalis).adv)

def execCfrc (a : BitVec 6) (s : State) : Out :=
  let va := s.getG a
  s.cellAt va .cellRead 15 0#512 (fun _ s => s.adv)
    (fun pa s => if s.tag pa = .chrysalis then (if s.cellHeld pa then s else (s.eclose s.self.site false pa va none).2.adv) else s.adv)

/-- An instruction that only the cell's evaluator may use, and only while the cell is ECLOSING (R188). A cell of another
module never has its evaluator here (R294). -/
def State.byEvaluator (s : State) (va : Word) (f : Nat → Eclosion → State → State) : Out :=
  s.cellAt va .cellRead 16 0#512 (fun tag s => s.trap (cellBusy va tag))
    (fun pa s =>
      let busy := s.trap (cellBusy va (s.tag pa).code)
      if s.tag pa = .eclosing then
        match s.eclosionOf pa with
        | some e => if e.evaluator = .strand s.self.id.uid then (f pa e s).adv else busy
        | none => busy
      else busy)

/-- CFIL: its registers end at g63 at most, or it raises ILL at run time (R424). -/
def execCfil (n a b : BitVec 6) (s : State) : Out :=
  let words := (List.range n.toNat).map (fun i => leBytes 8 (s.getGn (b.toNat + i)).toNat)
  if 64 < b.toNat + n.toNat then .next (s.trap (illRun (w64 n.toNat) (insWord (.cfil n a b)))) else
  s.byEvaluator (s.getG a) (fun pa e s => (((s.wr pa 32 0).wrBytes pa words.flatten).setTag pa .value).endEclosion e)
def execCcan (a : BitVec 6) (s : State) : Out :=
  s.byEvaluator (s.getG a) (fun pa e s => (s.setTag pa .chrysalis).endEclosion e)
def execCcanP (a : BitVec 6) (s : State) : Out :=
  s.byEvaluator (s.getG a) (fun pa e s => (s.setTag pa .poison).endEclosion e)

def execCtag (d a : BitVec 6) (s : State) : Out :=
  let done (tag : Nat) (s : State) : State := ((s.setG d (w64 tag)).markBusy [.g d]).adv
  s.cellAt (s.getG a) .cellRead 16 0#512 done (fun pa s => done (s.tag pa).code s)

end Sys2Proof.Machine
end

