-- ==== Sys2Proof/Machine/Frames.lean ====
section
/-! DEFINITION. The frames of an image as fields (R219 to R246), and what they say of a site: its inputs, outputs,
bindings and counters. -/
namespace Sys2Proof.Machine

/-- Bits of a frame. -/
abbrev fld (f : BitVec 256) (hi lo : Nat) : Nat := bits f hi lo

/-- One bit of a frame. -/
abbrev fbit (f : BitVec 256) (i : Nat) : Bool := f.getLsbD i

/-- The element frame at a site of a plane (R219, R220). -/
def Image.frame? (im : Image) (plane row col : Nat) : Option (BitVec 256) :=
  (im.frames.find? (fun f => bits f.bits 3 0 ≤ 5 && bits f.addr 10 7 == col && bits f.addr 13 11 == row &&
    bits f.addr 15 14 == plane)).map (fun f => f.bits)

/-- An XTBL frame of the XE at a row of a plane: entry frame 0 to 21, or the control frame 31 (R241, R242). -/
def Image.xtbl? (im : Image) (plane row idx : Nat) : Option (BitVec 256) :=
  (im.frames.find? (fun f => bits f.bits 3 0 == 8 && bits f.addr 6 2 == idx && bits f.addr 10 7 == 14 &&
    bits f.addr 13 11 == row && bits f.addr 15 14 == plane)).map (fun f => f.bits)

/-- The may-alias class of the frame at a site (R421). -/
def Image.aclass (im : Image) (plane row col : Nat) : Nat :=
  match im.frames.find? (fun f => bits f.bits 3 0 ≤ 5 && bits f.addr 15 2 == plane * 2 ^ 12 + row * 2 ^ 9 + col * 2 ^ 5) with
  | some f => f.aclass
  | none => 0

/-! ## Fields, by the names of R222, R236 to R238, R243 and R246 -/

def ceFmt (f : BitVec 256) : Nat := fld f 11 8
def ceRnd (f : BitVec 256) : Nat := fld f 13 12
def ceSat (f : BitVec 256) : Bool := fbit f 14
def ceIn (f : BitVec 256) (i : Nat) : Nat := fld f (19 + 4 * i) (16 + 4 * i)
def ceCnts (f : BitVec 256) : List Nat := [fld f 45 36, fld f 55 46, fld f 65 56, fld f 75 66]
def ceC0 (f : BitVec 256) : BitVec 32 := f.extractLsb' 76 32
def ceC1 (f : BitVec 256) : BitVec 32 := f.extractLsb' 108 32
def ceUcnt (f : BitVec 256) : Nat := fld f 142 140
def ceAck (f : BitVec 256) : Nat := fld f 144 143
def ceTrim (f : BitVec 256) : Nat := fld f 146 145
def ceEor (f : BitVec 256) : Nat := fld f 150 148
def ceUop (f : BitVec 256) (i : Nat) : BitVec 16 := f.extractLsb' (160 + 16 * i) 16

def meMode (f : BitVec 256) : Nat := fld f 11 9
def meInd (f : BitVec 256) : Nat := fld f 15 12
def meInk (f : BitVec 256) : Nat := fld f 19 16
def meRow (f : BitVec 256) : Bool := fbit f 24
def meBase (f : BitVec 256) : Nat := fld f 36 25
def meSize (f : BitVec 256) : Nat := fld f 49 37
def meMdepth (f : BitVec 256) : Nat := fld f 55 50
def meRmwop (f : BitVec 256) : Nat := fld f 59 56
def meSat (f : BitVec 256) : Bool := fbit f 60
def meFmt (f : BitVec 256) : Nat := fld f 64 61
def mePersist (f : BitVec 256) : Bool := fbit f 65
def meInit (f : BitVec 256) : Nat := fld f 67 66

def feMode (f : BitVec 256) : Nat := fld f 12 9
def feDepth (f : BitVec 256) : Nat := fld f 15 13
def feLevel (f : BitVec 256) : Nat := fld f 18 16
def feIn (f : BitVec 256) (i : Nat) : Nat := fld f (22 + 4 * i) (19 + 4 * i)
def feOut (f : BitVec 256) : Nat := fld f 34 31
def feAux (f : BitVec 256) : Nat := fld f 38 35
def feFmt (f : BitVec 256) : Nat := fld f 42 39
def feOp (f : BitVec 256) : Nat := fld f 46 43
def feSorted (f : BitVec 256) : Bool := fbit f 47
def feComm (f : BitVec 256) : Bool := fbit f 48
def feTrim (f : BitVec 256) : Nat := fld f 50 49
def fePos (f : BitVec 256) : Nat := fld f 54 51
def feCrd (f : BitVec 256) : Nat := fld f 58 55
def feC0 (f : BitVec 256) : Nat := fld f 91 60

def xeMode (f : BitVec 256) : Nat := fld f 10 9
def xeAfmt (f : BitVec 256) : Nat := fld f 14 11
def xeCfmt (f : BitVec 256) : Nat := fld f 18 15
def xeIn (f : BitVec 256) (i : Nat) : Nat := fld f (22 + 4 * i) (19 + 4 * i)
def xeRowout (f : BitVec 256) : Nat := fld f 44 43
def xeBsel (f : BitVec 256) : Bool := fbit f 45

def agInd (f : BitVec 256) : Bool := fbit f 9
def agGovern (f : BitVec 256) : Bool := fbit f 13
def agBase (f : BitVec 256) : Nat := fld f 17 14
def agCnten (f : BitVec 256) : Bool := fbit f 22
def agCntbind (f : BitVec 256) : Nat := fld f 21 18
def agIni (f : BitVec 256) : Nat := fld f 30 27
def agCounts (f : BitVec 256) : List Nat := (List.range 4).map (fun i => fld f (47 + 16 * i) (32 + 16 * i))
def agStride (f : BitVec 256) (i : Nat) : Word := (f.extractLsb' (96 + 32 * i) 32).signExtend 64
def agOffset (f : BitVec 256) : Word := (f.extractLsb' 224 32).signExtend 64

def mpMode (f : BitVec 256) : Nat := fld f 10 9
def mpBytes (f : BitVec 256) : Nat := if fld f 13 11 = 4 then 64 else 2 ^ fld f 13 11
def mpZero (f : BitVec 256) : Bool := fbit f 14
def mpAmo (f : BitVec 256) : Nat := fld f 18 15
def mpScope (f : BitVec 256) : Nat := fld f 21 19
def mpAddr (f : BitVec 256) : Nat := fld f 25 22
def mpData (f : BitVec 256) : Nat := fld f 29 26
def mpRowout (f : BitVec 256) : Bool := fbit f 44
def mpRange (f : BitVec 256) (i : Nat) : Nat := fld f (55 + 11 * i) (45 + 11 * i)

/-! ## Sites -/

/-- An MP emits on the row lane: an LDS of 64 bytes, or a receive port, with ROWOUT (R246, R443). Without ROWOUT an LDS of
64 bytes puts its line, as one token, on the ports of OUTMASK (log entry 110). -/
def mpOnRow (f : BitVec 256) : Bool := mpRowout f && mpMode f == 0 && (fld f 13 11 == 4 || mpAddr f == 0)

/-- The outputs of an element as a mask over n, e, s, w and its two row outputs. -/
def outsOf (col : Nat) (f : BitVec 256) : Nat :=
  if col = 0 then (if mpOnRow f then 16 else fld f 33 30)
  else if col = 1 then fld f 26 23
  else if col < 10 then fld f 31 28
  else if col < 12 then (if meRow f then 16 else fld f 23 20)
  else if col < 14 then feOut f ||| feAux f
  else 16 * xeRowout f

/-- The selects of an element's data inputs that are not none. -/
def insOf (col : Nat) (f : BitVec 256) : List Nat :=
  (if col = 0 then [mpAddr f, mpData f]
   else if col = 1 then [agIni f]
   else if col < 10 then [ceIn f 0, ceIn f 1, ceIn f 2]
   else if col < 12 then [meInd f, meInk f]
   else if col < 14 then [feIn f 0, feIn f 1, feIn f 2]
   else [xeIn f 0, xeIn f 1, xeIn f 2, xeIn f 3, xeIn f 4]).filter (fun x => x != 0)

/-- The ORD input select and the ORD output port of an ME or MP, as codes of R224. In a translated image code 7 stands for
the end of an ordering chain (R429 item 3), which an FE's frame keeps in bits that R237 leaves zero. -/
def ordIn (col : Nat) (f : BitVec 256) : Nat :=
  if col = 0 then fld f 37 34 else if col = 10 ∨ col = 11 then fld f 71 68 else if col = 12 ∨ col = 13 then fld f 227 224 else 0
def ordOut (col : Nat) (f : BitVec 256) : Nat :=
  if col = 0 then fld f 41 38 else if col = 10 ∨ col = 11 then fld f 75 72 else if col = 12 ∨ col = 13 then fld f 231 228 else 0

/-! ## Ordering chains (R321, R429 item 3) -/

def frameRow (f : Frame) : Nat := bits f.addr 13 11
def frameCol (f : Frame) : Nat := bits f.addr 10 7
def framePlane (f : Frame) : Nat := bits f.addr 15 14
def frameIdx (f : Frame) : Nat := bits f.addr 6 2
def frameKind (f : Frame) : Nat := bits f.bits 3 0

/-- A memory node stores: an STS, an AMS or an LVLW; an LDS and a SCAN only read (R429 item 3). -/
def nodeWrites (f : Frame) : Bool := if frameKind f = 5 then mpMode f.bits != 0 else feMode f.bits != 0

/-- An ORD arc between two nodes: port 6 of both, which no frame names, with a depth of 4 (log entry 93). -/
def chainEdge (a b : Frame) : Edge :=
  { plane := framePlane a, prow := frameRow a, pcol := frameCol a, pport := 6
    crow := frameRow b, ccol := frameCol b, cport := 6, depth := 4, cls1 := true }

/-- The chain through the nodes of a class, from the last write met and the loads since it: the arcs made, and whether no
two writes have more than four loads between them. A write follows the write before it, or the loads between the two, which
follow that write; loads before the first write or after the last stand on no chain. -/
def chainWalk : Option Frame → List Frame → List Frame → List Edge × Bool
  | _, _, [] => ([], true)
  | w, loads, f :: fs =>
    if nodeWrites f then
      let (es, ok) := chainWalk (some f) [] fs
      match w with
      | none => (es, ok)
      | some x =>
        let here := if loads.isEmpty then [chainEdge x f] else loads.flatMap (fun l => [chainEdge x l, chainEdge l f])
        (here ++ es, ok && decide (loads.length ≤ 4))
    else chainWalk w (loads ++ [f]) fs

/-- Nodes of a class in a plane, in node-record order. -/
def classNodes (frames : List Frame) (plane c : Nat) : List Frame :=
  frames.filter (fun f => framePlane f == plane && f.aclass == c && (frameKind f == 5 || frameKind f == 2))

/-- The chains of an image. -/
def chainsOf (frames : List Frame) : List Edge :=
  (List.range 4).flatMap (fun p => (List.range 15).flatMap (fun c => (chainWalk none [] (classNodes frames p (c + 1))).1))

/-- The selects of every input that an element's operation reads, its ORDIN with them. -/
def readsOf (col : Nat) (f : BitVec 256) : List Nat := insOf col f ++ ([ordIn col f].filter (fun x => x != 0))

/-- The frame marks a commutative consumer (R235). -/
def isComm (col : Nat) (f : BitVec 256) : Bool :=
  if 2 ≤ col ∧ col < 10 then fbit f 147
  else if col = 10 ∨ col = 11 then fbit f 76
  else if col = 12 ∨ col = 13 then fbit f 48
  else false

/-- The frame is served: bit 15 of a CE frame, bit 8 of every other (R222, R236 to R246). -/
def isServed (col : Nat) (f : BitVec 256) : Bool := if 2 ≤ col ∧ col < 10 then fbit f 15 else fbit f 8

/-- The sites at which an image has an element frame or a decode table in any plane. -/
def Image.sites (im : Image) : List (Nat × Nat) :=
  let here := im.frames.filterMap (fun f =>
    let k := bits f.bits 3 0
    if k ≤ 5 ∨ k = 8 then some (bits f.addr 13 11, bits f.addr 10 7) else none)
  here.eraseDups

/-- The bindings that an image declares (R176, R243, R246, R237). -/
def Image.declares (im : Image) (n : Nat) : Bool :=
  im.frames.any (fun f =>
    let b := f.bits
    let k := bits b 3 0
    if k = 4 then !(fbit b 8) && (agBase b == n || (agCnten b && agCntbind b == n))
    else if k = 5 then (List.range 8).any (fun i =>
      let r := mpRange b i
      natBit r 0 && (natBits r 4 1 == n || natBits r 8 5 == n))
    else if k = 2 then fbit b 59 && (fePos b == n || feCrd b == n)
    else false)

/-- The image is placed in reduced service too: its XE frames are MMB, BLD or DRN with AFMT BF16, and it holds no FE frame
(R465). -/
def Image.reducedOk (im : Image) : Bool :=
  im.frames.all (fun f =>
    let k := bits f.bits 3 0
    if k = 3 then xeMode f.bits != 1 && xeAfmt f.bits == 0 else k != 2)

/-- An image may be placed now (R465, R466). -/
def State.servesImage (s : State) (im : Image) : Bool := s.plant.bring == .full || im.reducedOk

/-! ## Counters (R226) -/

/-- Counters advanced by one firing; a level wraps at its count, and an absent level ends the walk. -/
def ctrStep : List Nat → List Nat → List Nat
  | c :: cs, n :: ns =>
    if n = 0 then c :: cs else if c + 1 < n then (c + 1) :: cs else 0 :: ctrStep cs ns
  | cs, _ => cs

/-- The next firing wraps level `l`: levels 0 to `l` all stand at their last value. -/
def wrapsAt (ctr cnts : List Nat) (l : Nat) : Bool :=
  (List.range (l + 1)).all (fun i => cnts.getD i 0 != 0 && ctr.getD i 0 + 1 == cnts.getD i 0)

/-- The next firing is the first of a level-`l` group. -/
def firstOf (ctr : List Nat) (l : Nat) : Bool := (List.range (l + 1)).all (fun i => ctr.getD i 0 == 0)

/-- The outermost present level. -/
def outermost (cnts : List Nat) : Nat := (cnts.takeWhile (fun n => n != 0)).length - 1

end Sys2Proof.Machine
end

