-- ==== Sys2Proof/Machine/Fabric.lean ====
section
/-! DEFINITION. Regions, arcs and tokens; what a step of an element does to them; faults; rounds and planes (R194 to
R216). -/
namespace Sys2Proof.Machine

/-! ## Regions and their elements -/

/-- The region of that number. -/
def State.region? (s : State) (rid : Nat) : Option Region := s.work.regions.find? (fun r => r.rid == rid)

/-- A region replaced. -/
def State.setRegion (s : State) (r : Region) : State :=
  { s with work := { s.work with regions := s.work.regions.map (fun x => if x.rid = r.rid then r else x) } }

/-- The region is held by a served configuration. -/
def Region.served (r : Region) : Bool := r.image.served

/-- The element at a site. -/
def Region.elem? (r : Region) (row col : Nat) : Option Elem := r.elems.find? (fun e => e.row == row && e.col == col)

/-- An element replaced. -/
def Region.setElem (r : Region) (e : Elem) : Region :=
  { r with elems := r.elems.map (fun x => if x.row = e.row ∧ x.col = e.col then e else x) }

/-- The frame of an element in its plane; none where it is idle (R221). -/
def Region.frame? (r : Region) (e : Elem) : Option (BitVec 256) := r.image.frame? e.plane e.row e.col

/-- Elements that are not idle in their plane. -/
def Region.active (r : Region) : List Elem := r.elems.filter (fun e => (r.frame? e).isSome)

/-- Element id bits of a site of a region (R9): cluster, frond, row, column. -/
def Region.siteId (r : Region) (row col : Nat) : Nat := r.cluster * 512 + r.frond * 128 + (r.row0 + row) * 16 + col

/-! ## Arcs (R197 to R199) -/

/-- The arc ends at that input port. -/
def Arc.ends (a : Arc) (plane row col port : Nat) : Bool :=
  a.edge.plane == plane && a.edge.crow == row && a.edge.ccol == col && a.edge.cport == port

/-- The arc leaves from a port of the mask. -/
def Arc.leaves (a : Arc) (plane row col mask : Nat) : Bool :=
  a.edge.plane == plane && a.edge.prow == row && a.edge.pcol == col && natBit mask a.edge.pport

/-- The heads of the arcs that end at an input port, when every one holds a token. -/
def Region.mergedHeads (r : Region) (e : Elem) (port : Nat) : List Token :=
  let l := r.arcs.filter (fun a => a.ends e.plane e.row e.col port)
  if l.all (fun a => !a.queue.isEmpty && !a.taken) then l.filterMap (fun a => a.queue.head?) else []

/-- Kinds of R201. -/
def Token.isData (t : Token) : Bool := decide (t.kind ≤ 2)
def Token.isStop (t : Token) : Bool := decide (8 ≤ t.kind) && decide (t.kind ≤ 14)
/-- STOP, EOR or DONE. -/
def Token.isBound (t : Token) : Bool := t.kind == 5 || decide (8 ≤ t.kind)

/-- The token at the head of an input port. Where several arcs end at one input, which only ORD arcs do, every one must hold
an ORD (R430): a token that is none, or that belongs to another round, is what the input shows. -/
def Region.headAt (r : Region) (e : Elem) (port : Nat) : Option Token :=
  match r.mergedHeads e port with
  | [] => none
  | [t] => some t
  | t :: ts => match (t :: ts).find? (fun x => x.kind != 4 && x.par == e.par) with
    | some x => some x
    | none => some (((t :: ts).find? (fun x => x.par != e.par)).getD t)

/-- The consumable head of an input named by its select (R224): one of the element's parity (R207), or DONE, which follows
the last boundary of its stream and is taken at either parity (log entry 111). -/
def Region.inp (r : Region) (e : Elem) (sel : Nat) : Option Token :=
  if sel = 0 then none
  else match r.headAt e (sel - 1) with
    | some t => if t.par = e.par ∨ t.kind = 15 then some t else none
    | none => none

/-- The C-in selects of an XE frame by index (0 INA0, 1 INA1, 2 INS, 3 INC, 4 INB), lane 0 or row 0 first (R283). -/
def xeCins (f : BitVec 256) : List Nat := if xeMode f = 0 then [3, 1] else if xeMode f = 1 then [3, 4] else []

/-- How many tokens of a firing leave an XE's row port before that of a select, where selects share the port: the C-in
tokens come first, both of each lane with CFMT F32 of a narrow XE, then the A rows (log entry 129). -/
def xeNth (e : Elem) (f : BitVec 256) (i : Nat) : Nat :=
  let same (j : Nat) : Bool := xeIn f j == xeIn f i
  let cs := (xeCins f).filter (fun j => xeIn f j != 0)
  let each := if xeMode f = 1 ∧ xeCfmt f = 0 ∧ !e.xe.half then 2 else 1
  if cs.contains i then ((cs.takeWhile (fun j => j != i)).filter same).length
  else each * (cs.filter same).length + ((List.range i).filter (fun j => same j && !(cs.contains j))).length

/-- The token that a select of an XE reads: of those of its port the one in its turn, or the first boundary before it. -/
def Region.xeTok (r : Region) (e : Elem) (f : BitVec 256) (i : Nat) : Option Token :=
  let n := xeNth e f i
  let q := (((r.arcs.find? (fun a => a.ends e.plane e.row e.col (xeIn f i - 1))).map (fun a => a.queue)).getD []).take (n + 1)
  match r.inp e (xeIn f i) with
  | none => none
  | some t => if n = 0 then some t
    else match q.find? (fun x => x.isBound) with
      | some b => some b
      | none => q[n]?

/-- The heads of an XE's selected inputs, by the index of the select. -/
def xeHeads (r : Region) (e : Elem) (f : BitVec 256) : Option (List (Nat × Token)) :=
  ((List.range 5).filter (fun i => xeIn f i != 0)).mapM (fun i => (r.xeTok e f i).map (fun t => (i, t)))

/-- The heads that stand at selected inputs. -/
def xeThere (r : Region) (e : Elem) (f : BitVec 256) : List (Nat × Token) :=
  ((List.range 5).filter (fun i => xeIn f i != 0)).filterMap (fun i => (r.xeTok e f i).map (fun t => (i, t)))

/-- Every branch of every port of the mask can accept a token (R198). -/
def Region.accepts (r : Region) (e : Elem) (mask : Nat) : Bool :=
  r.arcs.all (fun a => !(a.leaves e.plane e.row e.col mask) || decide (a.queue.length + a.inReturn < a.edge.depth))

/-- A token placed on the ports of a mask, into all branches. -/
def Region.placeTok (r : Region) (e : Elem) (m : Emit) : Region :=
  { r with arcs := r.arcs.map (fun a => if a.leaves e.plane e.row e.col m.mask then { a with queue := a.queue ++ [m.tok] } else a) }

/-- Two entries stand for one row-lane arc that several CEs share. -/
def Arc.shares (a b : Arc) : Bool :=
  a.share.isSome && a.share == b.share && a.edge.plane == b.edge.plane && a.edge.prow == b.edge.prow &&
    a.edge.pcol == b.edge.pcol && a.edge.pport == b.edge.pport && a.edge.crow == b.edge.crow

/-- The head consumed at the arc's end: its slot is freed and its credit is on its way (R197). A CE that shares the arc has
then taken its slice. -/
def Arc.consumed (a : Arc) : Arc :=
  if a.share.isSome then { a with taken := true } else { a with queue := a.queue.drop 1, inReturn := a.inReturn + 1 }

/-- A shared head leaves its slot when every CE has consumed its slice (R196); the arc has one credit for it. -/
def Arc.released (all : List Arc) (a : Arc) : Arc :=
  if a.share.isSome && (all.filter a.shares).all (fun b => b.taken) then
    { a with queue := a.queue.drop 1, taken := false
             inReturn := if a.share = some a.edge.ccol then a.inReturn + 1 else a.inReturn }
  else a

/-- The head of an input port consumed. -/
def Region.takeTok (r : Region) (e : Elem) (port : Nat) : Region :=
  let arcs := r.arcs.map (fun a => if a.ends e.plane e.row e.col port then a.consumed else a)
  { r with arcs := arcs.map (Arc.released arcs) }

/-- Tokens placed in order, at most one on each port in a step; what is left stays with the element. -/
def Region.placeAll (r : Region) (e : Elem) (used : Nat) : List Emit → Region × List Emit
  | [] => (r, [])
  | m :: ms => if m.mask &&& used = 0 ∧ r.accepts e m.mask then (r.placeTok e m).placeAll e (used ||| m.mask) ms
               else (r, m :: ms)

/-! ## What an element does in a step -/

/-- A fault that an element meets (R215, R258, R341). For MALFORMED `cause` is 13. -/
structure ElemFault where
  cause   : Nat
  code    : Nat := 0
  fword   : Nat := 0
  detail  : Word := 0#64
  fin     : Nat := 7
  sin     : Nat := 7
  spilled : Bool := false
deriving DecidableEq, Repr

/-- MALFORMED with a code of R258, found at an input and, where it concerns two, another one. -/
def malformed (code fin : Nat) (sin : Nat := 7) (fword : Nat := 0) : ElemFault :=
  { cause := 13, code := code, fin := fin, sin := sin, fword := fword }

/-- FCODE of a fault (R337). -/
def ElemFault.fcode (f : ElemFault) : Nat := if f.cause = 13 then f.code else 0x80 + f.cause

/-- What comes of an element's try to step: it cannot; it steps (new state, ports consumed, tokens to place in order,
flags raised, what happens to memory); it faults; or something else happens to the machine. -/
inductive Did where
  | nothing
  | acts (e : Elem) (take : List Nat) (put : List Emit) (flags : BitVec 5) (also : State → State)
  | faults (f : ElemFault)
  | state (s : State)

/-- A step without flags or memory. -/
def does (e : Elem) (take : List Nat) (put : List Emit) : Did := .acts e take put 0#5 id

/-- LAST of an EOR. -/
def Token.last (t : Token) : Bool := t.payload.getLsbD 0

/-- A token of an element's parity, with a tag of served mode. -/
def Elem.tok (e : Elem) (kind : Nat) (payload : Nat := 0) (tag : Nat := 0) : Token :=
  { kind := kind, payload := BitVec.ofNat 512 payload, par := e.par, tag := tag }

/-- The first head of a kind that the role does not accept: RSV for kind 7, else KIND (R201). -/
def kindFault (ok : Nat → Bool) (hs : List (Nat × Token)) : Option ElemFault :=
  match hs.find? (fun h => !(ok h.2.kind)) with
  | some h => some (malformed (if h.2.kind = 7 then 8 else 3) h.1)
  | none => none

/-- A token of another kind than ORD at the head of a class 1 arc, or an ORD at the head of one of class 0, at one of these
ports: KIND, or RSV for kind 7 (R201). -/
def Region.classFault (r : Region) (e : Elem) (ports : List Nat) : Option ElemFault :=
  ports.findSome? (fun p => match r.headAt e p with
    | none => none
    | some t =>
      if r.arcs.any (fun a => a.ends e.plane e.row e.col p && a.edge.cls1 != (t.kind == 4)) then
        some (malformed (if t.kind = 7 then 8 else 3) p)
      else none)

/-- HEADS of a record (R341). -/
def Region.headsWord (r : Region) (e : Elem) : Nat :=
  (List.range 5).foldl (fun acc i => match r.headAt e i with
    | some t => acc + 2 ^ (6 * i) * (1 + 2 * t.kind + 32 * b2n t.par)
    | none => acc) 0

/-- The fault as the region keeps it until it freezes. -/
def Region.pend (r : Region) (e : Elem) (fr : BitVec 256) (f : ElemFault) (met : Nat) : PendFault :=
  let pay : Word := if f.fin = 7 then 0#64 else match r.headAt e f.fin with
    | some t => t.payload.truncate 64
    | none => 0#64
  { row := e.row, col := e.col, plane := e.plane, roundIn := e.roundIn, cause := f.cause, fcode := f.fcode
    fword := f.fword, frame := fr.extractLsb' (32 * f.fword) 32, detail := f.detail, heads := r.headsWord e
    fin := f.fin, sin := f.sin, payload := pay, spilled := f.spilled, met := met }

/-- Each element at a round boundary is kept while its window may be discarded (R344). -/
def Region.mark (r : Region) (e : Elem) : Region :=
  { r with marks := r.marks.filter (fun m => !(m.row == e.row && m.col == e.col && m.round == e.round)) ++ [e] }

/-- A streamed element's fault is met: it fires no more (R215). -/
def State.meetFault (s : State) (r : Region) (e : Elem) (fr : BitVec 256) (f : ElemFault) : State :=
  s.setRegion { r with faults := r.faults ++ [r.pend e fr f s.cycle] }

/-- The heads of the inputs that a served element reads. -/
def Region.readHeads (r : Region) (e : Elem) (fr : BitVec 256) : List (Nat × Token) :=
  (insOf e.col fr).filterMap (fun x => (r.inp e x).map (fun t => (x - 1, t)))

/-! ## What a firing of a CE consumes (R196, R224, R229) -/

/-- Bits that a format takes on the wire (R223). -/
def wireBits (fmt : Nat) : Nat :=
  if fmt = 1 ∨ fmt = 2 ∨ fmt = 5 then 16 else if fmt = 6 then 64 else if fmt = 7 then 8 else 32

/-- An input's token consumed: its port, if the whole token leaves, and the element's place in a row token. -/
def ceTake (e : Elem) (f : BitVec 256) (i : Nat) (t : Token) : List Nat × Elem :=
  if ceIn f i = 5 ∧ !t.isBound ∧ t.kind ≠ 6 ∧ e.ce.sub + 1 < 64 / wireBits (ceFmt f) then
    ([], { e with ce := { e.ce with sub := e.ce.sub + 1 } })
  else ([ceIn f i - 1], { e with ce := { e.ce with sub := if ceIn f i = 5 then 0 else e.ce.sub } })

/-- Several inputs consumed. -/
def ceTakes (e : Elem) (f : BitVec 256) : List (Nat × Token) → List Nat × Elem
  | [] => ([], e)
  | (i, t) :: rest =>
    let (p, e') := ceTake e f i t
    let (ps, e'') := ceTakes e' f rest
    (p ++ ps, e'')

/-! ## Order of delivery at a memory port (R216, R235) -/

/-- Every consumer of the port's output is commutative. -/
def commOut (r : Region) (e : Elem) (f : BitVec 256) : Bool :=
  (r.arcs.filter (fun a => a.leaves e.plane e.row e.col (outsOf 0 f))).all (fun a =>
    match r.image.frame? e.plane a.edge.crow a.edge.ccol with
    | some g => isComm a.edge.ccol g
    | none => false)

/-- The ORD that follows a performed access (R249). -/
def ordPut (e : Elem) (f : BitVec 256) (tag : Nat) : List Emit :=
  let o := ordOut e.col f
  if o = 0 then [] else [{ mask := 2 ^ (o - 1), tok := e.tok 4 0 tag }]

/-- An access put into the spill queue, its tokens consumed. -/
def Elem.divert (e : Elem) (p : Spill) : Elem := { e with mp := { e.mp with spill := e.mp.spill ++ [p] } }

/-- A token that is next in access order: placed, or held behind a late one. -/
def mpDeliver (r : Region) (e : Elem) (f : BitVec 256) (t : Option Token) : Elem × List Emit :=
  match t with
  | none => (e, [])
  | some t =>
    if outsOf 0 f = 0 then (e, [])
    else if e.mp.spill.isEmpty || commOut r e f then (e, [{ mask := outsOf 0 f, tok := t }])
    else (e.divert { op := 5, addr := 0#64, data := 0#512, tag := t.tag, par := t.par, res := some t }, [])

/-! ## Poison (R211) -/

/-- The payload that an element which faults with no enabled output records at the exit, the first for a tag. -/
def Region.record (r : Region) (payload tag : Nat) : Region :=
  if r.psn.any (fun p => p.1 == tag) then r else { r with psn := r.psn ++ [(tag, BitVec.ofNat 64 payload)] }

/-- What the element's firing would consume: ports, and the element after it. -/
def Region.poisonTakes (r : Region) (e : Elem) (fr : BitVec 256) : List Nat × Elem :=
  let o := ordIn e.col fr
  let ord := if o = 0 then [] else [o - 1]
  if 2 ≤ e.col ∧ e.col < 10 then
    ceTakes e fr ((List.range 3).filterMap (fun i => (r.inp e (ceIn fr i)).map (fun t => (i, t))))
  else ((r.readHeads e fr).map Prod.fst ++ ord, e)

/-- A served element consumes what its firing would, and places PSN with the packet's tag on every enabled output, a
memory port in access order (R211, R216, R338). One with no output that has itself faulted (`own`) records the payload at
the exit. Its ORD chain goes on. -/
def Region.poison (r : Region) (e : Elem) (fr : BitVec 256) (payload tag : Nat) (own : Bool) : Region :=
  let (ports, e) := r.poisonTakes e fr
  let r := (ports.foldl (fun r p => r.takeTok e p) r).setElem e
  let r := (ordPut e fr tag).foldl (fun r m => r.placeTok e m) r
  let psn := e.tok 6 payload tag
  if outsOf e.col fr = 0 then (if own then r.record payload tag else r)
  else if e.col = 0 then
    let (e, put) := mpDeliver r e fr (some psn)
    put.foldl (fun r m => r.placeTok e m) (r.setElem e)
  else r.placeTok e { mask := outsOf e.col fr, tok := psn }

/-- An element on an ordering chain has the ORD that its firing consumes (R249). -/
def Region.ordThere (r : Region) (e : Elem) (fr : BitVec 256) : Bool :=
  let o := ordIn e.col fr
  o == 0 || (r.inp e o).isSome

/-- A poisoned firing may be made: its ORD is there, a memory port has room to hold its token, and an RMW has no update
before it under way. -/
def Region.mayPoison (r : Region) (e : Elem) (fr : BitVec 256) : Bool :=
  r.ordThere e fr && decide (e.mp.spill.length < 32) && e.me.pipe.isEmpty

/-- Flags of a step: to the packet in served mode, to the residency's sticky flags in streamed mode (R77). -/
def Region.addFlags (r : Region) (tag : Nat) (f : BitVec 5) : Region :=
  if f = 0#5 then r
  else if r.served then
    { r with pflags := if r.pflags.any (fun p => p.1 == tag)
        then r.pflags.map (fun p => if p.1 = tag then (p.1, p.2 ||| f) else p) else (tag, f) :: r.pflags }
  else { r with flags := r.flags ||| f }

/-- A fault met by an element: it poisons its packet in served mode, and is kept until the region freezes in streamed mode
(R211, R215). -/
def State.faulted (s : State) (r : Region) (e : Elem) (fr : BitVec 256) (tag : Nat) (f : ElemFault) : State :=
  if !r.served then s.meetFault r e fr f
  else if r.mayPoison e fr then s.setRegion (r.poison e fr (r.siteId e.row e.col % 4096 + 2 ^ 12 * f.fcode) tag true)
  else s

/-- The outcome of a try, applied to the region and the machine. A token that its arc's class does not carry is not
consumed (R201). -/
def State.perform (s : State) (r : Region) (e : Elem) (fr : BitVec 256) (tag : Nat) : Did → State
  | .nothing => s
  | .state s' => s'
  | .faults f => s.faulted r e fr tag f
  | .acts e' take put flags also =>
    match r.classFault e take with
    | some f => s.faulted r e fr tag f
    | none =>
      let r1 := take.foldl (fun r p => r.takeTok e p) r
      let (r2, rest) := r1.placeAll e 0 put
      let e'' : Elem := { e' with todo := rest }
      let r3 := (r2.setElem e'').addFlags tag flags
      let r4 := { r3 with lastMove := if take.isEmpty && rest.length == put.length then r3.lastMove else s.cycle }
      also (s.setRegion (if e'.round = e.round then r4 else r4.mark e''))

/-- Every output that a firing may use can accept a token (R202). -/
def Region.roomFor (r : Region) (e : Elem) (fr : BitVec 256) : Bool :=
  let o := ordOut e.col fr
  r.accepts e (outsOf e.col fr ||| (if o = 0 then 0 else 2 ^ (o - 1)))

/-- The element has met a fault. -/
def Region.hasFaulted (r : Region) (e : Elem) : Bool := r.faults.any (fun f => f.row == e.row && f.col == e.col)

/-- What an element has begun and cannot end by itself: a token that its arcs do not accept, the second cycle of a firing
whose C-in or room is wanting, an access answered by another module that has no room for its token. -/
def Region.stuckAt (r : Region) (e : Elem) : Bool :=
  e.todo.head?.any (fun m => !(r.accepts e m.mask)) ||
    (e.xe.half && !((r.frame? e).any (fun f => (xeHeads r e f).isSome && r.roomFor e f))) ||
    (e.mp.spill.any (fun p => p.answer.isSome && decide (p.op ≤ 2)) && !((r.frame? e).any (r.roomFor e)))

/-- A firing of a region that halts waits for others: these go on until it can end, so that no save finds it half done
(R203, R399). -/
def Region.stuck (r : Region) : Bool := r.elems.any r.stuckAt

/-- The element may begin a step at all: its region runs, it has not faulted, it has not stopped. In a region that halts
for a freeze save, a firing of two cycles that has begun goes on, and what it waits for (R203, R399). -/
def Region.free (r : Region) (e : Elem) : Bool :=
  r.phase != .frozen && (r.phase != .halting || e.xe.half || r.stuck) && !e.done && !(r.hasFaulted e)

/-- The ORD heads that a served firing on these heads consumes with them: none beside a NIL, which accesses nothing
(R249). -/
def Region.ordHeads (r : Region) (e : Elem) (fr : BitVec 256) (hs : List (Nat × Token)) : List (Nat × Token) :=
  let o := ordIn e.col fr
  if o = 0 ∨ (hs.any (fun h => h.2.kind == 3) && hs.all (fun h => h.2.kind != 6)) ∨ (r.inp e o).isNone then []
  else (r.mergedHeads e (o - 1)).map (fun t => (o - 1, t))

/-- The PSN rule of R211 before a served firing: with a PSN among its heads the packet is poison here; heads of several
tags, an ORD's among them, are MALFORMED (R210), and the packet is then that of the first input select (log entry 112). The answer is the payload
and tag of a poisoned firing and whether the element itself faults, or none. -/
def Region.servedStop (r : Region) (e : Elem) (hs : List (Nat × Token)) : Option (Nat × Nat × Bool) :=
  match hs with
  | [] => none
  | h :: t =>
    if t.any (fun x => x.2.tag != h.2.tag) then some (r.siteId e.row e.col % 4096 + 2 ^ 12 * 4, h.2.tag, true)
    else match (sortBy Prod.fst hs).find? (fun x => x.2.kind == 6) with
      | some x => some (x.2.payload.toNat % 2 ^ 64, h.2.tag, false)
      | none => none

/-- A port frame: an MP in LDS mode without inputs, or an IND AG without INI (R346). -/
def portFrame (col : Nat) (f : BitVec 256) : Bool :=
  if col = 0 then bits f 3 0 == 5 && mpMode f == 0 && mpAddr f == 0 && mpData f == 0 else col == 1 && agInd f && agIni f == 0

/-- A step of the element at a site. A port frame of a served image takes none (R346). First what it still has to place goes out, also while the region halts (R203).
Otherwise, when its kind fits and its outputs have room, the step `f` is tried. -/
def State.element (s : State) (rid row col : Nat) (fits : BitVec 256 → Bool)
    (f : Region → Elem → BitVec 256 → Did) : Out :=
  match s.region? rid with
  | none => .next s
  | some r => match r.elem? row col with
    | none => .next s
    | some e => match r.frame? e with
      | none => .next s
      | some fr =>
        if !(fits fr) || (r.served && portFrame col fr) then .next s
        else if !e.todo.isEmpty then
          .next (if r.phase == .frozen || r.hasFaulted e then s else s.perform r e fr 0 (does { e with todo := [] } [] e.todo))
        else if !(r.free e) then .next s
        else if e.atEnd || !(r.roomFor e fr) then .next s
        else if r.served then
          let hs := r.readHeads e fr
          if hs.length < (insOf col fr).length then .next s
          else
            let tag := (hs.map (fun h => h.2.tag)).headD 0
            match r.servedStop e (hs ++ r.ordHeads e fr hs) with
            | some (p, t, own) => .next (if r.mayPoison e fr then s.setRegion (r.poison e fr p t own) else s)
            | none => .next (s.perform r e fr tag (f r e fr))
        else .next (s.perform r e fr 0 (f r e fr))

/-! ## Rounds (R207) -/

/-- The state of an element after a round boundary: parity flipped, counters zero, pending constants in force (R227,
R228). -/
def Elem.endRound (e : Elem) (last : Bool) : Elem :=
  let c := e.ce
  let c0 := match c.pend0 with
    | some x => some x
    | none => c.c0
  let c1 := match c.pend1 with
    | some x => some x
    | none => c.c1
  { e with par := !e.par, round := e.round + 1, roundIn := e.roundIn + 1, atEnd := last, ctr := [0, 0, 0, 0]
           ce := { c with c0 := c0, c1 := c1, pend0 := none, pend1 := none } }

/-- The EOR that an element places at a boundary. -/
def Elem.eor (e : Elem) (mask : Nat) (last : Bool) : List Emit :=
  if mask = 0 then [] else [{ mask := mask, tok := e.tok 5 (b2n last) }]

/-- The heads of a list of selects, when every one is present. -/
def Region.heads? (r : Region) (e : Elem) (sels : List Nat) : Option (List (Nat × Token)) :=
  sels.mapM (fun x => (r.inp e x).map (fun t => (x - 1, t)))

/-- A boundary at every input read: EORs whose LAST bits must agree (R207). -/
def boundary (e : Elem) (hs : List (Nat × Token)) (outs : Nat) (close : Elem → Except ElemFault Elem) : Did :=
  match hs with
  | [] => .nothing
  | h :: t =>
    if !(hs.all (fun x => x.2.kind == 5)) then .nothing
    else match t.find? (fun x => x.2.last != h.2.last) with
      | some x => .faults (malformed 4 h.1 x.1)
      | none => match close e with
        | .error f => .faults f
        | .ok e' => does (e'.endRound h.2.last) (hs.map Prod.fst) (e.eor outs h.2.last)

/-- While a boundary save drains the region, a source begins no round that no other element has ended (R398). It begins the first
round of a plane when every element has entered the plane, so that a save behind the wave finds the plane's entry (R401; log entry
135). -/
def Region.mayBegin (r : Region) (e : Elem) : Bool :=
  ((r.phase != .draining && r.phase != .crossing) || r.elems.any (fun x => decide (e.round < x.round))) &&
    (decide (0 < e.roundIn) || r.active.all (fun x => decide (e.plane ≤ x.plane)))

/-! ## Bindings (R176) -/

/-- The value of a binding in a plane; a binding that was never set holds zero. -/
def Region.binding (r : Region) (plane n : Nat) : Word :=
  match r.binds.find? (fun b => b.1 == plane) with
  | some b => match b.2.find? (fun x => x.1 == n) with
    | some x => x.2
    | none => 0#64
  | none => 0#64

/-! ## The position and the stores of a region -/

/-- Memory ports that are not idle. -/
def Region.ports (r : Region) : List Elem := r.active.filter (fun e => e.col == 0)

/-- The plane of the windows: the foremost that a memory port has entered. -/
def Region.windowPlane (r : Region) : Nat := r.ports.foldl (fun p e => max p e.plane) 0

/-- The memory ports whose windows belong together: all that the plane of the windows uses, also one that has not entered it
(R214). -/
def Region.windowPorts (r : Region) : List Elem :=
  r.elems.filter (fun e => e.col == 0 && (r.image.frame? r.windowPlane e.row 0).isSome)

/-- One of them that has entered the plane. -/
def Region.windowLead (r : Region) : Option Elem := r.ports.find? (fun e => e.plane == r.windowPlane)

/-- Windows of its plane that a memory port has committed. -/
def Elem.committed (e : Elem) : Nat := e.roundIn - e.mp.rounds

/-- The governing AG: of those with GOVERN, the one in the lowest row (R244, R352). -/
def Region.governor (r : Region) : Option Elem :=
  (sortBy (fun e => e.row) (r.active.filter (fun e => e.col == 1))).find? (fun e => match r.frame? e with
    | some f => agGovern f
    | none => false)

/-- ROUND of a position (R208, R341): the oldest window of the plane that has not committed, or, where no memory port is
in use, the rounds that the governing AG has completed. -/
def Region.roundNo (r : Region) : Nat :=
  match r.windowLead with
  | some e => e.committed
  | none => match r.governor with
    | some e => e.roundIn
    | none => 0

/-- The round since FRGO that is the oldest whose window has not committed. -/
def Region.oldest (r : Region) : Nat :=
  match r.windowLead with
  | some e => e.round - e.mp.rounds
  | none => match r.governor with
    | some e => e.round
    | none => 0

/-- A store of a window that goes to another module holds the bytes of one. -/
def BufStore.covers (a b : BufStore) : Bool :=
  a.remote && decide (a.loc ≤ b.loc) && decide (b.loc + b.bytes.length ≤ a.loc + a.bytes.length)

/-- Stores that are released together, with at most one over each byte of another module: of two that meet there one holds
the other's bytes, since each is aligned to its width, and the earlier gives way (R313, R318). -/
def mergeStores (l : List BufStore) : List BufStore :=
  l.foldl (fun acc b =>
    if !b.remote then acc ++ [b]
    else if acc.any (fun a => a.covers b) then
      acc.map (fun a => if a.covers b then { a with bytes := a.bytes.mapIdx (fun i x =>
        if b.loc ≤ a.loc + i ∧ a.loc + i < b.loc + b.bytes.length then b.bytes.getD (a.loc + i - b.loc) x else x) } else a)
    else acc.filter (fun a => !(b.covers a && a.remote)) ++ [b]) []

/-- A buffered store may be released now: to another module, when the links admit it and no store still in the outbound
buffer meets its bytes (R313, R393, R463). -/
def State.releases (s : State) (r : Region) (b : BufStore) : Bool :=
  !b.remote || (s.linkAdmits r.site.part r.die b.loc && (s.buffered b.loc b.bytes.length).isNone)

/-- A store of a list of stores to be performed that is smaller than a line or word with an error mark, and that no earlier one of
the list covers whole (R459, R460). -/
def State.marred (s : State) (l : List BufStore) : Option BufStore :=
  ((l.zipIdx).find? (fun p =>
    let b := p.1
    let u := eccUnit b.loc
    let line := b.loc / u * u
    !b.remote && decide (b.bytes.length < u) && s.isPoisoned b.loc &&
      !((l.take p.2).any (fun x => !x.remote && decide (x.loc ≤ line) && decide (line + u ≤ x.loc + x.bytes.length))))).map Prod.fst

/-- A buffered store performed (R65, R292, R293): one that meets an ECLOSING cell overrules it. -/
def State.commitStore (s : State) (r : Region) (b : BufStore) : State :=
  if b.remote then
    s.ask 1 b.bytes.length b.loc b.addr (BitVec.ofNat 512 (leNat b.bytes)) 0#64 0 r.site.part r.die (some (.mp r.rid b.row 0)) none 1 false
      (r.siteId b.row 0)
  else if b.glob then (s.useKey r.site.part b.key b.loc).writeRange b.loc b.bytes
  else (s.wrWake b.loc b.bytes).clearPoison b.loc b.bytes.length

end Sys2Proof.Machine
end

