-- ==== Sys2Proof/Machine/Integer.lean ====
section
/-! DEFINITION. Integer, logic, bit-field, immediate and hash instructions (R124 to R128). -/
namespace Sys2Proof.Machine

/-- A one-bit modifier (.w only) as the two-bit one. -/
abbrev wMod (m : BitVec 1) : BitVec 2 := m.zeroExtend 2

/-- A form of R124 on two values. -/
def State.arith (s : State) (d a b : BitVec 6) (m : BitVec 2) (u : Bool) (op : Int → Int → Int) : Out :=
  s.put d (fitted m u (op (opVal m u (s.getG a)) (opVal m u (s.getG b))))

/-- The shift count of a register-count form (R124). -/
def State.shCount (s : State) (b : BitVec 6) (m : BitVec 2) : Nat := (s.getG b).toNat % modWidth m

/-- DIV of R124. -/
def divOp (w : Nat) (u : Bool) (x y : Int) : Int :=
  if y = 0 then (2 ^ w - 1 : Nat) else if u = false ∧ x = minOf w false ∧ y = -1 then x else x.tdiv y

/-- REM of R124. -/
def remOp (w : Nat) (u : Bool) (x y : Int) : Int :=
  if y = 0 then x else if u = false ∧ x = minOf w false ∧ y = -1 then 0 else x - y * x.tdiv y

/-- The low bits of an operand as a number. -/
def lowBits (m : BitVec 2) (x : Word) : Nat := x.toNat % 2 ^ modWidth m

/-- SHL with a count. -/
def State.shlBy (s : State) (d a : BitVec 6) (m : BitVec 2) (n : Nat) : Out :=
  s.put d (fitted m false (opVal m false (s.getG a) * (2 ^ n : Nat)))

/-- SHR with a count. -/
def State.shrBy (s : State) (d a : BitVec 6) (m : BitVec 2) (n : Nat) : Out :=
  s.put d (fitted m false ((lowBits m (s.getG a) / 2 ^ n : Nat) : Int))

/-- SHA with a count: the floor of the quotient. -/
def State.shaBy (s : State) (d a : BitVec 6) (m : BitVec 2) (n : Nat) : Out :=
  s.put d (fitted m false ((opVal m false (s.getG a)).fdiv ((2 ^ n : Nat) : Int)))

/-- ROR with a count. -/
def State.rorBy (s : State) (d a : BitVec 6) (m : BitVec 2) (n : Nat) : Out :=
  let x := lowBits m (s.getG a)
  s.put d (fitted m false ((x / 2 ^ n + x * 2 ^ (modWidth m - n) : Nat) : Int))

/-- Leading zero bits of the low `w` bits. -/
def clzN : Nat → Nat → Nat
  | 0, _ => 0
  | w + 1, x => if x.testBit w then 0 else 1 + clzN w x

/-- Trailing zero bits of the low `w` bits. -/
def ctzN : Nat → Nat → Nat
  | 0, _ => 0
  | w + 1, x => if x.testBit 0 then 0 else 1 + ctzN w (x / 2)

/-- One bits of the low `w` bits. -/
def popN : Nat → Nat → Nat
  | 0, _ => 0
  | w + 1, x => b2n (x.testBit 0) + popN w (x / 2)

/-- The low `w` bits in reversed order. -/
def revN : Nat → Nat → Nat
  | 0, _ => 0
  | w + 1, x => b2n (x.testBit 0) * 2 ^ w + revN w (x / 2)

/-- The low `n` bytes in reversed order. -/
def swapN : Nat → Nat → Nat
  | 0, _ => 0
  | n + 1, x => x % 256 * 256 ^ n + swapN n (x / 256)

/-- A form of one operand taken as its low bits. -/
def State.unary (s : State) (d a : BitVec 6) (m : BitVec 2) (op : Nat → Nat → Nat) : Out :=
  s.put d (fitted m false ((op (modWidth m) (lowBits m (s.getG a)) : Nat) : Int))

/-- CMP.cond on W bits. -/
def State.cmpOp (s : State) (d a b : BitVec 6) (m : BitVec 1) (c : BitVec 3) : Out :=
  let r := if m = 1#1 then cond c ((s.getG a).truncate 32) ((s.getG b).truncate 32) else cond c (s.getG a) (s.getG b)
  s.put d (w64 (b2n r))

/-- SHADD: (x × 2^k) + y, which wraps. -/
def State.shadd (s : State) (d a b : BitVec 6) (m : BitVec 1) (k : Nat) : Out :=
  s.arith d a b (wMod m) false (fun x y => x * (2 ^ k : Nat) + y)

/-! ## The instructions of opcode 0x01 -/

def execAdd (d a b : BitVec 6) (m : BitVec 2) (s : State) : Out := s.arith d a b m false (· + ·)
def execAddN (d a b : BitVec 6) (m : BitVec 2) (s : State) : Out := s.arith d a b m true (· + ·)
def execSub (d a b : BitVec 6) (m : BitVec 2) (s : State) : Out := s.arith d a b m false (· - ·)
def execSubN (d a b : BitVec 6) (m : BitVec 2) (s : State) : Out := s.arith d a b m true (· - ·)
def execMul (d a b : BitVec 6) (m : BitVec 2) (s : State) : Out := s.arith d a b m false (· * ·)
def execMulN (d a b : BitVec 6) (m : BitVec 2) (s : State) : Out := s.arith d a b m true (· * ·)

/-- The high half of the exact product. -/
def execMulh (d a b : BitVec 6) (m : BitVec 1) (s : State) : Out :=
  s.arith d a b (wMod m) false (fun x y => (x * y).fdiv ((2 ^ modWidth (wMod m) : Nat) : Int))
def execMulhN (d a b : BitVec 6) (m : BitVec 1) (s : State) : Out :=
  s.arith d a b (wMod m) true (fun x y => (x * y).fdiv ((2 ^ modWidth (wMod m) : Nat) : Int))
def execDiv (d a b : BitVec 6) (m : BitVec 1) (s : State) : Out :=
  s.arith d a b (wMod m) false (divOp (modWidth (wMod m)) false)
def execDivN (d a b : BitVec 6) (m : BitVec 1) (s : State) : Out :=
  s.arith d a b (wMod m) true (divOp (modWidth (wMod m)) true)
def execRem (d a b : BitVec 6) (m : BitVec 1) (s : State) : Out :=
  s.arith d a b (wMod m) false (remOp (modWidth (wMod m)) false)
def execRemN (d a b : BitVec 6) (m : BitVec 1) (s : State) : Out :=
  s.arith d a b (wMod m) true (remOp (modWidth (wMod m)) true)
def execAnd (d a b : BitVec 6) (s : State) : Out := s.put d (s.getG a &&& s.getG b)
def execOr (d a b : BitVec 6) (s : State) : Out := s.put d (s.getG a ||| s.getG b)
def execXor (d a b : BitVec 6) (s : State) : Out := s.put d (s.getG a ^^^ s.getG b)
def execAndn (d a b : BitVec 6) (s : State) : Out := s.put d (s.getG a &&& ~~~(s.getG b))
def execShl (d a b : BitVec 6) (m : BitVec 2) (s : State) : Out := s.shlBy d a m (s.shCount b m)
def execShr (d a b : BitVec 6) (m : BitVec 1) (s : State) : Out := s.shrBy d a (wMod m) (s.shCount b (wMod m))
def execSha (d a b : BitVec 6) (m : BitVec 1) (s : State) : Out := s.shaBy d a (wMod m) (s.shCount b (wMod m))
def execRor (d a b : BitVec 6) (m : BitVec 1) (s : State) : Out := s.rorBy d a (wMod m) (s.shCount b (wMod m))
def execShlImm (d a n : BitVec 6) (m : BitVec 2) (s : State) : Out := s.shlBy d a m n.toNat
def execShrImm (d a n : BitVec 6) (m : BitVec 1) (s : State) : Out := s.shrBy d a (wMod m) n.toNat
def execShaImm (d a n : BitVec 6) (m : BitVec 1) (s : State) : Out := s.shaBy d a (wMod m) n.toNat
def execRorImm (d a n : BitVec 6) (m : BitVec 1) (s : State) : Out := s.rorBy d a (wMod m) n.toNat
def execClz (d a : BitVec 6) (m : BitVec 1) (s : State) : Out := s.unary d a (wMod m) clzN
def execCtz (d a : BitVec 6) (m : BitVec 1) (s : State) : Out := s.unary d a (wMod m) ctzN
def execPopc (d a : BitVec 6) (m : BitVec 1) (s : State) : Out := s.unary d a (wMod m) popN
def execBrev (d a : BitVec 6) (m : BitVec 1) (s : State) : Out := s.unary d a (wMod m) revN
def execBswp (d a : BitVec 6) (m : BitVec 1) (s : State) : Out := s.unary d a (wMod m) (fun w x => swapN (w / 8) x)
def execMin (d a b : BitVec 6) (m : BitVec 1) (s : State) : Out := s.arith d a b (wMod m) false min
def execMinN (d a b : BitVec 6) (m : BitVec 1) (s : State) : Out := s.arith d a b (wMod m) true min
def execMax (d a b : BitVec 6) (m : BitVec 1) (s : State) : Out := s.arith d a b (wMod m) false max
def execMaxN (d a b : BitVec 6) (m : BitVec 1) (s : State) : Out := s.arith d a b (wMod m) true max
def execSel (d a b : BitVec 6) (s : State) : Out := s.put d (if s.getG d ≠ 0#64 then s.getG a else s.getG b)
def execShadd1 (d a b : BitVec 6) (m : BitVec 1) (s : State) : Out := s.shadd d a b m 1
def execShadd2 (d a b : BitVec 6) (m : BitVec 1) (s : State) : Out := s.shadd d a b m 2
def execShadd3 (d a b : BitVec 6) (m : BitVec 1) (s : State) : Out := s.shadd d a b m 3
def execShadd4 (d a b : BitVec 6) (m : BitVec 1) (s : State) : Out := s.shadd d a b m 4
def execCmpEq (d a b : BitVec 6) (m : BitVec 1) (s : State) : Out := s.cmpOp d a b m 0#3
def execCmpNe (d a b : BitVec 6) (m : BitVec 1) (s : State) : Out := s.cmpOp d a b m 1#3
def execCmpLt (d a b : BitVec 6) (m : BitVec 1) (s : State) : Out := s.cmpOp d a b m 2#3
def execCmpGe (d a b : BitVec 6) (m : BitVec 1) (s : State) : Out := s.cmpOp d a b m 3#3
def execCmpLtn (d a b : BitVec 6) (m : BitVec 1) (s : State) : Out := s.cmpOp d a b m 4#3
def execCmpGen (d a b : BitVec 6) (m : BitVec 1) (s : State) : Out := s.cmpOp d a b m 5#3

/-! ## Immediate forms (R125), bit fields (R126), HMIX (R127), constants (R101, R128) -/

def execAddImm (d a : BitVec 6) (i : BitVec 14) (s : State) : Out := s.put d (s.getG a + simm i)
def execAddWImm (d a : BitVec 6) (i : BitVec 14) (s : State) : Out :=
  s.put d (((s.getG a + simm i).truncate 32 : BitVec 32).signExtend 64)
def execMulImm (d a : BitVec 6) (i : BitVec 14) (s : State) : Out := s.put d (s.getG a * simm i)
def execAndImm (d a : BitVec 6) (i : BitVec 14) (s : State) : Out := s.put d (s.getG a &&& simm i)
def execOrImm (d a : BitVec 6) (i : BitVec 14) (s : State) : Out := s.put d (s.getG a ||| simm i)
def execXorImm (d a : BitVec 6) (i : BitVec 14) (s : State) : Out := s.put d (s.getG a ^^^ simm i)

/-- The field of `l + 1` bits from `p` upward. -/
def fieldAt (x : Word) (l p : BitVec 6) : Nat := x.toNat / 2 ^ p.toNat % 2 ^ (l.toNat + 1)

/-- The mask of that field. -/
def fieldMask (l p : BitVec 6) : Word := w64 ((2 ^ (l.toNat + 1) - 1) * 2 ^ p.toNat)

def execBfx (d a l p : BitVec 6) (s : State) : Out :=
  s.put d ((BitVec.ofNat (l.toNat + 1) (fieldAt (s.getG a) l p)).signExtend 64)
def execBfxN (d a l p : BitVec 6) (s : State) : Out := s.put d (w64 (fieldAt (s.getG a) l p))
def execBfi (d a l p : BitVec 6) (s : State) : Out :=
  s.put d ((s.getG d &&& ~~~(fieldMask l p)) ||| ((s.getG a <<< p.toNat) &&& fieldMask l p))
/-- One mixing step of R127, shared with the CE. -/
def hmix (x c : Word) (n : Nat) : Word := (x ^^^ (x >>> n)) * c
def execHmix (d a b n : BitVec 6) (s : State) : Out := s.put d (hmix (s.getG a) (s.getG b) n.toNat)
def execMovi (d : BitVec 6) (i : BitVec 20) (s : State) : Out := s.put d (simm i)
def execMovhi (d : BitVec 6) (i : BitVec 20) (s : State) : Out :=
  s.put d ((i.signExtend 32 : BitVec 32) ++ ((s.getG d).truncate 32 : BitVec 32))
def execAddpc (d : BitVec 6) (i : BitVec 20) (s : State) : Out := s.put d (s.self.pc + simm i)
def execLimm (d : BitVec 6) (i : BitVec 32) (s : State) : Out := .next (s.setG d (simm i)).adv8
def execLimmN (d : BitVec 6) (i : BitVec 32) (s : State) : Out := .next (s.setG d (i.zeroExtend 64)).adv8

/-! ## Control (R129) -/

def execBCond (c : BitVec 3) (a b : BitVec 6) (o : BitVec 11) (s : State) : Out :=
  .next (if cond c (s.getG a) (s.getG b) then s.setPc (s.relTarget o) else s.adv)
def execJmp (i : BitVec 26) (s : State) : Out := .next (s.setPc (s.relTarget i))
def execCall (i : BitVec 26) (s : State) : Out := .next ((s.setG 63#6 (s.self.pc + 4#64)).setPc (s.relTarget i))
def execJr (a : BitVec 6) (s : State) : Out := .next (s.jumpTo (s.getG a))
def execCallr (a : BitVec 6) (s : State) : Out :=
  .next (s.jumpTo (s.getG a) (fun t => t.setG 63#6 (s.self.pc + 4#64)))

end Sys2Proof.Machine
end

