-- ==== Sys2Proof/Machine/FabricCE.lean ====
section
/-! DEFINITION. Compute elements (R222 to R235), and the wire formats that the other elements share with them (R223). -/
namespace Sys2Proof.Machine

/-! ## Wire formats (R223, R233) -/

/-- A float format: F32, BF16, F16, W19, K8. -/
def isFloatFmt (fmt : Nat) : Bool := decide (fmt ≤ 3) || fmt == 7
/-- The integer width of a format. -/
def intWidth (fmt : Nat) : Nat := if fmt = 4 then 32 else if fmt = 5 then 16 else 64
/-- The binary format of a float wire format other than K8. -/
def wireFmt (fmt : Nat) : Fmt := if fmt = 1 then bf16 else if fmt = 2 then f16 else if fmt = 3 then w19 else f32

/-- What decodes K8 in a quarter: the table, TOP and NCODE of its XE (R223, R242), as they stand at that moment, also while the two
elements are in different planes (log entry 135). -/
def Region.xeOf (r : Region) (row : Nat) : XEState :=
  match r.elem? (row / 2 * 2) 14 with
  | some e => e.xe
  | none => {}

/-- A payload as an F32 pattern, with flags. A K8 code is its table's W19 entry, which is an F32 pattern as it stands, and
raises none (R71, R78, R86). -/
def decodeWire (x : XEState) (fmt : Nat) (p : Nat) : FRes :=
  if fmt = 7 then ((k8Decode x.table x.top.toNat (p % 256)).toNat, 0#5)
  else if fmt = 0 then (p % 2 ^ 32, 0#5)
  else f32.convert 0 ((wireFmt fmt).unpack (p % 2 ^ wireBits fmt))

/-- An F32 pattern as a payload (R80, R86). -/
def encodeWire (x : XEState) (fmt rnd : Nat) (p : Nat) : FRes :=
  if fmt = 7 then k8Encode x.table x.top.toNat x.ncode.toNat f32 (p % 2 ^ 32)
  else if fmt = 0 then (p % 2 ^ 32, 0#5)
  else (wireFmt fmt).convert rnd (f32.unpack (p % 2 ^ 32))

/-- The signed value of the low `w` bits. -/
def lowInt (w x : Nat) : Int :=
  let v := x % 2 ^ w
  if 2 ^ (w - 1) ≤ v then (v : Int) - (2 ^ w : Nat) else v

/-- A payload with the sign extension of an integer format, else as it stands. -/
def rawWire (fmt : Nat) (p : Nat) : Word :=
  if isFloatFmt fmt then w64 p else BitVec.ofInt 64 (lowInt (wireBits fmt) p)

/-- An integer result fitted to `w` bits, by wrap or by SAT, and sign-extended (R67, R231). -/
def fitInt (sat : Bool) (w : Nat) (i : Int) : Word :=
  let hi : Int := 2 ^ (w - 1) - 1
  if sat then BitVec.ofInt 64 (max (-hi - 1) (min hi i)) else (BitVec.ofInt w i).signExtend 64

/-- A constant in the compute format (R228). -/
def constIn (fmt : Nat) (sat : Bool) (c : BitVec 32) : Word :=
  if isFloatFmt fmt then w64 c.toNat else fitInt sat (intWidth fmt) c.toInt

/-! ## Inputs -/

/-- The constants in force. -/
def Elem.c0Of (e : Elem) (f : BitVec 256) : BitVec 32 := e.ce.c0.getD (ceC0 f)
def Elem.c1Of (e : Elem) (f : BitVec 256) : BitVec 32 := e.ce.c1.getD (ceC1 f)

/-- The token that a CE's input presents: on the lane input the next sub-element of its slice (R196, R224). A
STOP there is a boundary token as at any input (log entry 130). -/
def ceInput (r : Region) (e : Elem) (f : BitVec 256) (i : Nat) : Option Token :=
  match r.inp e (ceIn f i) with
  | none => none
  | some t =>
    if ceIn f i = 5 ∧ t.kind = 0 then
      let slice := natBits t.payload.toNat (64 * (e.col - 2) + 63) (64 * (e.col - 2))
      let w := wireBits (ceFmt f)
      some { t with payload := BitVec.ofNat 512 (slice / 2 ^ (w * e.ce.sub) % 2 ^ w) }
    else some t

/-! ## Micro-operations (R231 to R233) -/

/-- The registers and outcome of a firing as its micro-operations go. `kind` is set while OUT holds an input's token
unchanged. -/
structure Mic where
  f0    : Word
  f1    : Word
  f2    : Word
  out   : Option Word := none
  kind  : Option Nat := none
  steer : Option Nat := none
  drop  : Bool := false
  flags : BitVec 5 := 0#5

/-- Fields of a micro-operation. -/
def uOp (u : BitVec 16) : Nat := bits u 15 10
def uDst (u : BitVec 16) : Nat := bits u 9 8
def uA (u : BitVec 16) : Nat := bits u 7 5
def uB (u : BitVec 16) : Nat := bits u 4 2
def uC (u : BitVec 16) : Nat := bits u 1 0

/-- A float micro-operation, which alone reads its inputs decoded (R223, R233). -/
def uFloat (op : Nat) : Bool := (decide (1 ≤ op) && decide (op ≤ 0x0E)) || (decide (0x11 ≤ op) && decide (op ≤ 0x14))

/-- What a firing reads besides the registers: its element, frame, K8 table, and inputs; `none` for an input that pad
replaces with c1. -/
structure Env where
  e   : Elem
  f   : BitVec 256
  x   : XEState
  ins : Nat → Option Token

/-- The value of an input. -/
def Env.input (v : Env) (op i : Nat) : FRes :=
  let fmt := ceFmt v.f
  match v.ins i with
  | none => ((constIn fmt (ceSat v.f) (v.e.c1Of v.f)).toNat, 0#5)
  | some t =>
    let p := t.payload.toNat % 2 ^ 64
    if uFloat op && isFloatFmt fmt then decodeWire v.x fmt p else ((rawWire fmt p).toNat, 0#5)

/-- The operand of a code: 0 to 2 registers, 3 to 5 inputs, 6 and 7 constants. -/
def Env.operand (v : Env) (m : Mic) (op code : Nat) : FRes :=
  if code = 0 then (m.f0.toNat, 0#5) else if code = 1 then (m.f1.toNat, 0#5) else if code = 2 then (m.f2.toNat, 0#5)
  else if code ≤ 5 then v.input op (code - 3)
  else ((constIn (ceFmt v.f) (ceSat v.f) (if code = 6 then v.e.c0Of v.f else v.e.c1Of v.f)).toNat, 0#5)

/-- SRCC names a register or inc. -/
def Env.operandC (v : Env) (m : Mic) (op code : Nat) : FRes := v.operand m op (if code = 3 then 5 else code)

/-- A result into DST. -/
def Mic.put (m : Mic) (dst : Nat) (x : Word) (fl : BitVec 5) (kind : Option Nat := none) : Mic :=
  let m := { m with flags := m.flags ||| fl }
  if dst = 0 then { m with f0 := x } else if dst = 1 then { m with f1 := x } else if dst = 2 then { m with f2 := x }
  else { m with out := some x, kind := kind }

/-- A register by its number. -/
def Mic.reg (m : Mic) (d : Nat) : Word := if d = 0 then m.f0 else if d = 1 then m.f1 else m.f2

/-- ACC's combination (R232): 0 fadd, 1 iadd, 2 max, 3 min. -/
def accCombine (fmt rnd : Nat) (sat : Bool) (op : Nat) (a b : Word) : FRes :=
  let x := a.toNat % 2 ^ 32
  let y := b.toNat % 2 ^ 32
  if op = 0 then f32.add rnd (f32.unpack x) (f32.unpack y)
  else if op = 1 then ((fitInt sat (intWidth fmt) (lowInt (intWidth fmt) a.toNat + lowInt (intWidth fmt) b.toNat)).toNat, 0#5)
  else if isFloatFmt fmt then f32.minMax (op == 2) x y
  else
    let i := lowInt (intWidth fmt) a.toNat
    let j := lowInt (intWidth fmt) b.toNat
    ((BitVec.ofInt 64 (if op = 2 then max i j else min i j)).toNat, 0#5)

/-- The result of an operation of the table of R231 that computes from A, B and C alone. -/
def uResult (fmt rnd : Nat) (sat : Bool) (op : Nat) (a b c : Nat) : FRes :=
  let w := intWidth fmt
  let x := f32.unpack (a % 2 ^ 32)
  let y := f32.unpack (b % 2 ^ 32)
  let z := f32.unpack (c % 2 ^ 32)
  let i := lowInt w a
  let j := lowInt w b
  let fit (v : Int) : FRes := ((fitInt sat w v).toNat, 0#5)
  let n := b % 64
  let flag (v : Bool) : FRes := (b2n v, 0#5)
  if op = 0x01 then f32.add rnd x y
  else if op = 0x02 then f32.sub rnd x y
  else if op = 0x03 then f32.mul rnd x y
  else if op = 0x04 then f32.fma rnd x y z
  else if op = 0x05 then f32.fma rnd x.negate y z
  else if op = 0x06 then f32.minMax false (a % 2 ^ 32) (b % 2 ^ 32)
  else if op = 0x07 then f32.minMax true (a % 2 ^ 32) (b % 2 ^ 32)
  else if op = 0x08 then (a % 2 ^ 31, 0#5)
  else if op = 0x09 then ((a % 2 ^ 32) ^^^ 2 ^ 31, 0#5)
  else if op ≤ 0x0E then f32.sfu (op - 0x0A) rnd (a % 2 ^ 32)
  else if op = 0x0F then
    let r := floatToInt rnd (-(2 ^ (w - 1))) (2 ^ (w - 1) - 1) x
    ((BitVec.ofInt 64 r.1).toNat, r.2)
  else if op = 0x10 then f32.ofInt rnd (lowInt 64 a)
  else if op ≤ 0x14 then
    let r := fcmpVal (if op = 0x11 then 0 else if op = 0x12 then 2 else if op = 0x13 then 4 else 5) x y
    (b2n r.1, r.2)
  else if op = 0x15 then fit (i + j)
  else if op = 0x16 then fit (i - j)
  else if op = 0x17 then fit (i * j)
  else if op = 0x18 then (a &&& b, 0#5)
  else if op = 0x19 then (a ||| b, 0#5)
  else if op = 0x1A then (a ^^^ b, 0#5)
  else if op = 0x1B then ((w64 a &&& ~~~(w64 b)).toNat, 0#5)
  else if op = 0x1C then fit (if n < w then i * 2 ^ n else 0)
  else if op = 0x1D then fit (if n < w then ((a % 2 ^ w / 2 ^ n : Nat) : Int) else 0)
  else if op = 0x1E then fit (i / 2 ^ (min n (w - 1)))
  else if op = 0x1F then fit (min i j)
  else if op = 0x20 then fit (max i j)
  else if op = 0x21 then fit (min (a % 2 ^ w) (b % 2 ^ w) : Nat)
  else if op = 0x22 then fit (max (a % 2 ^ w) (b % 2 ^ w) : Nat)
  else if op = 0x23 then flag (i == j)
  else if op = 0x24 then flag (decide (i < j))
  else if op = 0x25 then flag (decide (a % 2 ^ w < b % 2 ^ w))
  else if op = 0x26 then (if c ≠ 0 then a else b, 0#5)
  else if op = 0x28 then ((hmix (w64 a) (w64 b) (c % 64)).toNat, 0#5)
  else (a, 0#5)

/-- The operation takes SRCB, SRCC as operands. -/
def uReadsB (op : Nat) : Bool :=
  (decide (1 ≤ op) && decide (op ≤ 7)) || (decide (0x11 ≤ op) && decide (op ≤ 0x26)) || op == 0x28
def uReadsC (op : Nat) : Bool := op == 4 || op == 5 || op == 0x26 || op == 0x28

/-- One micro-operation. -/
def uStep (v : Env) (m : Mic) (u : BitVec 16) : Mic :=
  let op := uOp u
  let fmt := ceFmt v.f
  let rnd := ceRnd v.f
  let cnts := ceCnts v.f
  let l := uB u % 4
  let a := v.operand m op (uA u)
  if op = 0x27 then
    let r : FRes := if firstOf v.e.ctr l then a
      else accCombine fmt rnd (ceSat v.f) (uC u) (m.reg (uDst u)) (w64 a.1)
    let m := m.put (uDst u) (w64 r.1) (a.2 ||| r.2)
    if wrapsAt v.e.ctr cnts l then { m with out := some (w64 r.1), kind := none } else m
  else if op = 0x29 then { m with steer := some (if a.1 ≠ 0 then l else uC u), flags := m.flags ||| a.2 }
  else if op = 0x2A then m.put (uDst u) (w64 (v.e.ctr.getD l 0)) 0#5
  else if op = 0x2B then if wrapsAt v.e.ctr cnts l then { m with out := some (w64 a.1), kind := none } else m
  else if op = 0x2C then if a.1 ≠ 0 then { m with drop := true } else m
  else if op = 0 then
    let k := if 3 ≤ uA u ∧ uA u ≤ 5 then (v.ins (uA u - 3)).map (fun t => t.kind) else none
    m.put (uDst u) (w64 a.1) 0#5 k
  else
    let b : FRes := if uReadsB op then v.operand m op (uB u) else (0, 0#5)
    let c : FRes := if uReadsC op then v.operandC m op (uC u) else (0, 0#5)
    let r := uResult fmt rnd (ceSat v.f) op a.1 b.1 c.1
    m.put (uDst u) (w64 r.1) (a.2 ||| b.2 ||| c.2 ||| r.2)

/-- The micro-operations of a frame. -/
def uOps (f : BitVec 256) : List (BitVec 16) := (List.range (ceUcnt f)).map (ceUop f)

/-- OUT as a payload (R233). -/
def outWire (v : Env) (x : Word) (kind : Option Nat) : FRes :=
  let fmt := ceFmt v.f
  match kind with
  | some _ => (x.toNat, 0#5)
  | none => if isFloatFmt fmt then encodeWire v.x fmt (ceRnd v.f) x.toNat
            else ((BitVec.ofInt 64 (lowInt (intWidth fmt) x.toNat)).toNat, 0#5)

/-- A firing on NIL operands (R234): an ACC whose level wraps, or an EMIT of a register or constant, emits; else NIL goes out
when OUT is some operation's destination, an EMIT of an input whose level wraps included (log entry 101). -/
def nilOut (v : Env) (m : Mic) : Option (Option Word) :=
  let cnts := ceCnts v.f
  let wraps (u : BitVec 16) : Bool := wrapsAt v.e.ctr cnts (uB u % 4)
  let ofInput (u : BitVec 16) : Bool := decide (3 ≤ uA u) && decide (uA u ≤ 5)
  match (uOps v.f).reverse.find? (fun u => (uOp u == 0x27 || (uOp u == 0x2B && !(ofInput u))) && wraps u) with
  | some u => some (some (if uOp u = 0x27 then m.reg (uDst u) else w64 (v.operand m 0x2B (uA u)).1))
  | none =>
    let names (u : BitVec 16) : Bool :=
      if uOp u = 0x2B then wraps u else uDst u == 3 && uOp u != 0x29 && uOp u != 0x2C && uOp u != 0x27
    if (uOps v.f).any names then some none else none

/-- A firing, with the inputs that it reads, those that pad replaces, and the packet's tag. -/
def ceFiring (r : Region) (e : Elem) (f : BitVec 256) (hs : List (Nat × Token)) (pad : List Nat) (tag : Nat) : Did :=
  let ins (i : Nat) : Option Token := if pad.contains i then none else (hs.find? (fun h => h.1 == i)).map Prod.snd
  let v : Env := { e := e, f := f, x := r.xeOf e.row, ins := ins }
  let m0 : Mic := { f0 := e.ce.f0, f1 := e.ce.f1, f2 := e.ce.f2 }
  let cnts := ceCnts f
  let outs := fld f 31 28
  let isNil := hs.any (fun h => !(pad.contains h.1) && h.2.kind == 3)
  let endsInc := if ceAck f = 0 then true else if ceAck f = 1 then wrapsAt e.ctr cnts 0
    else wrapsAt e.ctr cnts (outermost cnts)
  let used := hs.filter (fun h => !(pad.contains h.1) && (h.1 != 2 || endsInc))
  let (take, e1) := ceTakes e f used
  let e2 := { e1 with ctr := ctrStep e.ctr cnts }
  let emit (k : Nat) (x : Nat) (mask : Nat) : List Emit := if mask = 0 then [] else [{ mask := mask, tok := e.tok k x tag }]
  if isNil then
    match nilOut v m0 with
    | none => does e2 take []
    | some none => does e2 take (emit 3 0 outs)
    | some (some x) =>
      let p := outWire v x none
      .acts e2 take (emit 0 p.1 outs) p.2 id
  else
    let m := (uOps f).foldl (uStep v) m0
    let e3 := { e2 with ce := { e2.ce with f0 := m.f0, f1 := m.f1, f2 := m.f2 } }
    match m.drop, m.out with
    | false, some x =>
      let p := outWire v x m.kind
      let mask := match m.steer with
        | some q => 2 ^ q
        | none => outs
      .acts e3 take (emit (m.kind.getD 0) p.1 mask) (m.flags ||| p.2) id
    | _, _ => .acts e3 take [] m.flags id

/-! ## What the heads say (R229, R234) -/

/-- inc holds a token that earlier firings have read and that is not consumed yet (R229). -/
def incHeld (e : Elem) (f : BitVec 256) : Bool :=
  if ceAck f = 1 then e.ctr.getD 0 0 != 0 else if ceAck f = 2 then e.ctr.any (fun c => c != 0) else false

/-- What a CE's heads call for. -/
inductive CeCase where
  | wait
  | fire (hs : List (Nat × Token)) (pad : List Nat)
  | stops (hs : List (Nat × Token))
  | round (hs : List (Nat × Token))
  | final (hs : List (Nat × Token))
  | discard (hs : List (Nat × Token))
  | bad (f : ElemFault)

/-- A fault that names two inputs by their index. -/
def cePair (f : BitVec 256) (code : Nat) (i j : Nat) : CeCase := .bad (malformed code (ceIn f i - 1) (ceIn f j - 1))

/-- Stops and EORs alone on the inputs that take part, all of one kind, or PAIR. -/
def ceAlone (f : BitVec 256) (hs : List (Nat × Token)) : CeCase :=
  match hs with
  | [] => .wait
  | h :: t => match t.find? (fun x => x.2.kind != h.2.kind) with
    | some x => cePair f 4 h.1 x.1
    | none => if h.2.kind = 5 then .round hs else .stops hs

/-- The table of R234. -/
def ceCase (r : Region) (e : Elem) (f : BitVec 256) : CeCase :=
  let sel := (List.range 3).filter (fun i => ceIn f i != 0)
  match sel.mapM (fun i => (ceInput r e f i).map (fun t => (i, t))) with
  | none => .wait
  | some all =>
    match all.find? (fun h => h.2.kind == 7 || h.2.kind == 4 || h.2.kind == 6) with
    | some h => .bad (malformed (if h.2.kind = 7 then 8 else 3) (ceIn f h.1 - 1))
    | none =>
      if all.all (fun h => !h.2.isBound) then .fire all []
      else
        let hs := if incHeld e f then all.filter (fun h => h.1 != 2 || h.2.isBound) else all
        let bound := hs.filter (fun h => h.2.isBound)
        let done := bound.filter (fun h => h.2.kind == 15)
        let open' := bound.filter (fun h => h.2.kind != 15)
        match hs.find? (fun h => !h.2.isBound), bound with
        | some d, b :: _ =>
          if ceTrim f = 0 then cePair f 5 b.1 d.1
          else if ceTrim f = 1 then .discard (hs.filter (fun h => !h.2.isBound))
          else .fire all (bound.map Prod.fst)
        | some _, [] => .fire all []
        | none, _ =>
          if open'.isEmpty then .final hs
          else match done with
            | [] => ceAlone f hs
            | d :: _ => if ceTrim f = 0 then cePair f 5 ((open'.map Prod.fst).headD 0) d.1 else ceAlone f open'

/-- A CE that is no generator. -/
def ceOrdinary (f : BitVec 256) : Bool := bits f 3 0 == 0 && ceEor f == 0

/-- CE_FIRE: the firing of R231 on data, or on NIL. -/
def execCeFire (rid row col : Nat) (s : State) : Out :=
  s.element rid row col ceOrdinary (fun r e f => match ceCase r e f with
    | .fire hs [] => ceFiring r e f hs [] ((hs.map (fun h => h.2.tag)).headD 0)
    | .bad x => .faults x
    | _ => .nothing)

/-- CE_STOP_STEP: stops of one level pass on, data is discarded by trim, or the CE fires padded (R234). -/
def execCeStopStep (rid row col : Nat) (s : State) : Out :=
  s.element rid row col ceOrdinary (fun r e f => match ceCase r e f with
    | .fire hs (p :: ps) => ceFiring r e f hs (p :: ps) 0
    | .stops hs =>
      let (take, e') := ceTakes e f hs
      let outs := fld f 31 28
      does e' take (if outs = 0 then [] else [{ mask := outs, tok := e.tok ((hs.map (fun h => h.2.kind)).headD 8) }])
    | .discard hs => -- one token on each such input (log entry 130)
      let (take, e') := ceTakes e f hs
      does e' take []
    | .bad x => .faults x
    | _ => .nothing)

/-- The round boundary of a CE: its counters must stand at 0 (R227). -/
def ceBoundary (r : Region) (e : Elem) (f : BitVec 256) : Did :=
  match ceCase r e f with
  | .round hs => boundary e (hs.map (fun h => (ceIn f h.1 - 1, h.2))) (fld f 31 28) (fun e =>
      if e.ctr.any (fun c => c != 0) then .error (malformed 5 (ceIn f ((hs.map Prod.fst).headD 0) - 1))
      else .ok { e with ce := { e.ce with sub := 0 } })
  | .bad x => .faults x
  | _ => .nothing

/-- DONE at every input of a CE. -/
def ceDone (r : Region) (e : Elem) (f : BitVec 256) : Except ElemFault Bool :=
  match ceCase r e f with
  | .final hs => if e.ctr.any (fun c => c != 0) then .error (malformed 5 (ceIn f ((hs.map Prod.fst).headD 0) - 1)) else .ok true
  | .bad x => .error x
  | _ => .ok false

/-- CE_GENERATOR_FIRE (R230): a firing without inputs, and the EOR that ends a round after it. -/
def execCeGeneratorFire (rid row col : Nat) (s : State) : Out :=
  s.element rid row col (fun f => bits f 3 0 == 0 && decide (1 ≤ ceEor f)) (fun r e f =>
    if (e.ctr.take (ceEor f)).all (fun c => c == 0) && !(r.mayBegin e) then .nothing
    else match ceFiring r e f [] [] 0 with
    | .acts e' take put fl also =>
      if wrapsAt e.ctr (ceCnts f) (ceEor f - 1) then
        let last := wrapsAt e.ctr (ceCnts f) (outermost (ceCnts f))
        .acts { e'.endRound last with ctr := e'.ctr } take (put ++ e.eor (fld f 31 28) last) fl also
      else .acts e' take put fl also
    | d => d)

end Sys2Proof.Machine
end

