-- ==== Sys2Proof/Machine/FabricMP.lean ====
section
/-! DEFINITION. Address generators and memory ports (R243 to R250, R346, R349, R351, R443). -/
namespace Sys2Proof.Machine

/-! ## Address generators -/

/-- The counts of an AG: CNTBIND replaces the outermost present one (R244). -/
def agCnts (r : Region) (e : Elem) (f : BitVec 256) : List Nat :=
  let l := agCounts f
  if agCnten f then l.set (outermost l) (r.binding e.plane (agCntbind f)).toNat else l

/-- The next address of an AFF. -/
def agAddr (r : Region) (e : Elem) (f : BitVec 256) : Word :=
  (List.range 4).foldl (fun a k => a + w64 (e.ctr.getD k 0) * agStride f k)
    (r.binding e.plane (agBase f) + agOffset f)

/-- AG_AFF_FIRE: a REF, and EOR after it when an iteration of the outermost level is complete (R244). -/
def execAgAffFire (rid row : Nat) (s : State) : Out :=
  s.element rid row 1 (fun f => bits f 3 0 == 4 && !(agInd f)) (fun r e f =>
    let cnts := agCnts r e f
    let o := outermost cnts
    let outs := fld f 26 23
    if (e.ctr.take o).all (fun c => c == 0) && !(r.mayBegin e) then .nothing
    else
      let ref : Emit := { mask := outs, tok := e.tok 2 (agAddr r e f).toNat }
      let e' := { e with ctr := ctrStep e.ctr cnts }
      if o = 0 || wrapsAt e.ctr cnts (o - 1) then
        let last := wrapsAt e.ctr cnts o
        does { e'.endRound last with ctr := e'.ctr } [] (ref :: e.eor outs last)
      else does e' [] [ref])

/-- AG_IND_FIRE: an index token becomes a REF; NIL and stops pass (R245). -/
def execAgIndFire (rid row : Nat) (s : State) : Out :=
  s.element rid row 1 (fun f => bits f 3 0 == 4 && agInd f && agIni f != 0) (fun r e f =>
    match r.inp e (agIni f) with
    | none => .nothing
    | some t =>
      let p := agIni f - 1
      let outs := fld f 26 23
      let send (k : Nat) (x : Nat) : Did := does e [p] (if outs = 0 then [] else [{ mask := outs, tok := e.tok k x t.tag }])
      if t.isData then
        let b := if r.served then 0#64 else r.binding e.plane (agBase f)
        send 2 (b + agOffset f + t.payload.truncate 64 * agStride f 0).toNat
      else if t.kind = 3 ∨ t.isStop then send t.kind 0
      else match kindFault (fun k => k == 5 || k == 15) [(p, t)] with
        | some x => .faults x
        | none => .nothing)

/-! ## What a memory port may reach (R65, R66, R247) -/

/-- Under whose identity an access is made; MP accesses are checked in U mode (R405). -/
def State.mpSite (s : State) (r : Region) (tag : Nat) : Site :=
  let x := if r.served then match s.work.packets.find? (fun p => p.region == some r.rid && p.tag == tag) with
      | some p => p.site
      | none => r.site
    else r.site
  { x with sMode := false }

/-- A range entry that holds the whole access and allows it. -/
def mpInRange (r : Region) (e : Elem) (f : BitVec 256) (write : Bool) (a size : Nat) : Bool :=
  (List.range 8).any (fun i =>
    let x := mpRange f i
    let base := (r.binding e.plane (natBits x 4 1)).toNat
    let len := (r.binding e.plane (natBits x 8 5)).toNat
    natBit x 0 && decide (base ≤ a) && decide (a + size ≤ base + len) && natBit x (if write then 10 else 9))

/-- The translations that a memory port has pinned in its cluster's L2 TLB (R410). -/
def State.pinnedFor (s : State) (r : Region) (row a : Nat) : Option TlbEntry :=
  s.m.tlb.find? (fun t => t.pin == some (r.rid, row) && t.holder == .l2 r.die r.cluster && t.covers r.site.part r.site.asid a)

/-- How the translation of a memory port's address ends: through its pins, the cluster's TLB and a walk. A streamed
port pins what it obtains, at most 8,192 in a cluster. -/
inductive MpTrans where
  | hit (e : TlbEntry) | absent | bad | full
def State.mpTranslate (s : State) (r : Region) (row : Nat) (x : Site) (a : Nat) : MpTrans × State :=
  match (if r.served then none else s.pinnedFor r row a) with
  | some t => (.hit t, s)
  | none =>
    let h : TlbHolder := .l2 r.die r.cluster
    match s.translate x [h] a with
    | (.absent, s) => (.absent, s)
    | (.bad, s) => (.bad, s)
    | (.hit t, s) =>
      if r.served then (.hit t, s)
      else if 8192 ≤ (s.m.tlb.filter (fun t => t.holder == h && t.pin.isSome)).length then (.full, s)
      else
        let p := { t with holder := h, pin := some (r.rid, row) }
        let l := if t.pin = none then s.m.tlb.erase { t with holder := h } else s.m.tlb
        (.hit p, { s with m := { s.m with tlb := tlbInsert l p } })

/-- How the checks of an access end. -/
inductive MpGo where
  | fault (f : ElemFault)
  | wait
  | absent
  | cell (pa : Nat) (va : Word)
  | go (p : Place)

/-- An error mark in any of the lines or words that an access meets (R459, R460). -/
def State.poisonedIn (s : State) (l n : Nat) : Bool := (unitsOf l n (eccUnit l)).any s.isPoisoned

/-- An access of `n` bytes meets an error mark as a read does, or as a store smaller than the line or word (R459, R460). -/
def State.meetsMark (s : State) (reads : Bool) (l n : Nat) : Bool := (reads || decide (n < eccUnit l)) && s.poisonedIn l n

/-- An AMS at DOMAIN scope waits for the acknowledgement of the stores to other modules that its partition has outstanding, which
may happen before it (R318, R441). -/
def State.amsWaits (s : State) (x : Site) (f : BitVec 256) (acc : Acc) : Bool :=
  acc == .atomic && mpScope f == 5 && s.host.outstanding.any (fun o => o.isStore && o.part == x.part)

/-- What a global access of `n` bytes meets at its place: its slice's budget or, on another module, the links and stores
of the outbound buffer (R318, R393, R463), unless the other module has answered already; error marks; and, when it reads, the first of its cells that is not VALUE
(R292). -/
def State.mpMeets (s : State) (r : Region) (x : Site) (acc : Acc) (va : Word) (n : Nat) (p : Place) (answered : Bool) : MpGo × State :=
  let pa := p.loc
  let reads := acc != .store
  if p.remote then
    if reads && !answered && (!(s.linkAdmits x.part r.die pa) || (s.buffered pa n).isSome) then (.wait, s) else (.go p, s)
  else if !(s.admits x.part (paDie pa) 2) then (.wait, s)
  else
    let s := s.charge x.part (paDie pa) 2 n
    if s.meetsMark reads pa n then (.fault { cause := 12, detail := va }, s)
    else match (if reads && p.cpage then (unitsOf pa n 32).find? (fun g => s.tag g != .value) else none) with
      | some g => if s.cellHeld g then (.wait, s) else (.cell g (va + w64 (g - pa)), s)
      | none => (.go p, s)

/-- The checks of an access of `n` bytes: space and bounds, range, alignment, translation, permission, and what it meets at
its place. An FE's access lies within a range in every space (R260). -/
def State.mpGo (s : State) (r : Region) (e : Elem) (f : BitVec 256) (x : Site) (acc : Acc) (va : Word) (n : Nat)
    (fe : Bool := false) (answered : Bool := false) : MpGo × State :=
  let a := va.toNat
  let write := acc != .load
  let prot : ElemFault := { cause := 5, detail := va }
  match s.space x .any va n with
  | .error _ => (.fault prot, s)
  | .ok (some l) => if s.amsWaits x f acc then (.wait, s) else
    if a / 2 ^ 60 = 0xC ∨ a / 2 ^ 60 = 0xE ∨ (fe ∧ !(mpInRange r e f write a n)) then (.fault prot, s)
    else if a % n ≠ 0 then (.fault { cause := 3, detail := va }, s)
    else if s.meetsMark (acc != .store) l n then (.fault { cause := 12, detail := va }, s)
    else (.go { loc := l, glob := false, cpage := false, remote := false }, s)
  | .ok none =>
    if !(r.served) && !(mpInRange r e f write a n) then (.fault prot, s)
    else if a % n ≠ 0 then (.fault { cause := 3, detail := va }, s)
    else match s.mpTranslate r e.row x a with
      | (.absent, s) => (.absent, s)
      | (.bad, s) => (.fault prot, s)
      | (.full, s) => (.fault { cause := 7, detail := va }, s)
      | (.hit t, s) =>
        let pa := t.pbase + (a - t.vbase)
        if !(t.permits acc false) then (.fault prot, s)
        else if s.amsWaits x f acc then (.wait, s)
        else
          let remote := paModule pa != s.plant.modNum
          let s := if remote then s else s.useKey x.part t.key pa
          s.mpMeets r x acc va n { loc := pa, glob := true, cpage := t.c, remote := remote, key := t.key } answered

/-- An access that meets a cell that is not VALUE (R250, R292), one that may not eclose yet later again (log entry 65): its spill-queue entry of that key becomes a waiter (R301), or
it faults. -/
def State.mpCell (s : State) (r : Region) (row key : Nat) (x : Site) (pa : Nat) (va : Word) : Option ElemFault × State :=
  let w : Waiter := .mp r.rid row key
  match s.tag pa with
  | .poison => (some { cause := 12, detail := va }, s)
  | .eclosing => match s.eclosionOf pa with
    | some q => match s.enqueue q w with
      | some s' => (none, s')
      | none => (some { cause := 7, detail := va }, s)
    | none => (none, s)
  | .chrysalis => match s.eclose x false pa va (some w) with
    | (.poisoned, s') => (some { cause := 12, detail := va }, s')
    | (.noEntry, s') => (some { cause := 7, detail := va }, s')
    | (.started _, s') => (none, s')
  | .value => (none, s)

/-- A page fault of a memory port goes up from its frond's port (R411); before a PAGER_SET it is fatal (R416). -/
def State.mpPage (s : State) (r : Region) (x : Site) (acc : Acc) (va : Word) : Option ElemFault × State :=
  if (s.part x.part).pager = none then (some { cause := 4, detail := va }, s)
  else
    let m : FaultMsg := { router := .cluster r.die r.cluster, port := 16 + r.frond, part := x.part, asid := x.asid
                          page := va.toNat / 4096 * 4096, kinds := acc.kinds, mp := true }
    (none, { s with cells := { s.cells with faults := s.cells.faults ++ [m] } })

/-! ## Performing an access (R248) -/

/-- The bytes of the port's own buffered stores over those of memory, by virtual address (R212, R214). -/
def overlayBytes (bufs : List BufStore) (va : Nat) (bs : List Byte) : List Byte :=
  bufs.foldl (fun bs b => bs.mapIdx (fun i x =>
    if b.addr.toNat ≤ va + i ∧ va + i < b.addr.toNat + b.bytes.length then b.bytes.getD (va + i - b.addr.toNat) x else x)) bs

/-- The stores of a port that an access sees: all of a streamed one, those of the tag in served mode. -/
def Elem.bufs (e : Elem) (served : Bool) (tag : Nat) : List BufStore :=
  (e.mp.win0 ++ e.mp.win1).filter (fun b => !served || b.tag == tag)

/-- The value of a load, from the number that memory gives. -/
def mpValue (f : BitVec 256) (n x : Nat) : Nat := if n = 64 then x else (loadExt n (mpZero f) x).toNat

/-- What a performed access gives: the element after it, the token, and what it does to memory. -/
inductive MpDone where
  | done (e : Elem) (res : Option Token) (fl : BitVec 5) (also : State → State)
  | overflow
  | far (op : Nat)

/-- A store enters the port's window, or its tag's stores (R212, R214); 8 KiB is the most that one holds. -/
def Elem.buffer (e : Elem) (served : Bool) (b : BufStore) : Option Elem :=
  let size (l : List BufStore) : Nat := l.foldl (fun n x => n + x.bytes.length) 0
  let b := { b with row := e.row }
  let w := if served then e.mp.win0.filter (fun x => x.tag == b.tag)
    else if e.mp.rounds = 0 then e.mp.win0 else e.mp.win1
  if 8192 < size w + b.bytes.length then none
  else if served || e.mp.rounds == 0 then some { e with mp := { e.mp with win0 := e.mp.win0 ++ [b] } }
  else some { e with mp := { e.mp with win1 := e.mp.win1 ++ [b] } }

/-- An access at its place: 0 a load, 1 a store, 2 an atomic. `ans` is what another module has answered. -/
def State.mpPerform (s : State) (r : Region) (e : Elem) (f : BitVec 256) (op : Nat) (va : Word) (data : BitVec 512)
    (tag : Nat) (p : Place) (ans : Option (BitVec 512)) : MpDone :=
  let n := mpBytes f
  let val (x : Nat) : Option Token := some (e.tok 0 x tag)
  if op = 0 then
    if p.remote && ans.isNone then .far 0
    else
      let bs := match ans with
        | some d => leBytes n d.toNat
        | none => s.rdBytes p.loc n
      .done e (val (mpValue f n (leNat (overlayBytes (e.bufs r.served tag) va.toNat bs)))) 0#5 id
  else if op = 1 then
    match e.buffer r.served { addr := va, loc := p.loc, glob := p.glob, remote := p.remote, key := p.key
                              bytes := leBytes n data.toNat, tag := tag } with
    | some e' => .done e' none 0#5 id
    | none => .overflow
  else if p.remote then
    match ans with
    | none => .far (2 + mpAmo f)
    | some d =>
      let old := d.toNat % 256 ^ n
      .done e (val (atomicOld (mpAmo f) n old).toNat) (atomicNew (mpAmo f) n old (data.toNat % 256 ^ n) 0).2 id
  else
    let old := s.rd p.loc n
    let q := atomicNew (mpAmo f) n old (data.toNat % 256 ^ n) 0
    .done e (val (atomicOld (mpAmo f) n old).toNat) q.2
      (fun s => if p.glob then s.writeGlobal p.loc (leBytes n q.1) else s.wrWake p.loc (leBytes n q.1))

/-! ## Order of accesses (R249, R313) -/

/-- A new access waits for one in the spill queue that has not been performed: for every one while the port stands on an
ordering chain, else for one that meets its bytes (R249, R313). -/
def Elem.behind (e : Elem) (f : BitVec 256) (va : Word) : Bool :=
  e.mp.spill.any (fun p => decide (p.op ≤ 2) &&
    (ordIn 0 f != 0 || ordOut 0 f != 0 || overlap p.addr.toNat (mpBytes f) va.toNat (mpBytes f)))

/-- The ORD that an access waits for (R249, R275): the ports to consume, a wait, or a fault. -/
inductive OrdIn where
  | ports (l : List Nat)
  | wait
  | bad (q : ElemFault)
def ordAt (r : Region) (e : Elem) (f : BitVec 256) : OrdIn :=
  let o := ordIn e.col f
  if o = 0 then .ports []
  else match r.inp e o with
    | none => .wait
    | some t => if t.kind = 4 then
        (match r.classFault e [o - 1] with
         | some q => .bad q
         | none => .ports [o - 1])
      else .bad (malformed (if t.kind = 7 then 8 else 3) (o - 1))

/-- The request of a port's access to another module, as the entry of that key waits for it. -/
def State.mpAsk (s : State) (r : Region) (e : Elem) (f : BitVec 256) (x : Site) (op key : Nat) (va : Word)
    (data : BitVec 512) (p : Place) : State :=
  s.ask op (mpBytes f) p.loc va data 0#64 0 x.part r.die (some (.mp r.rid e.row key)) none 1 p.cpage

/-- A new access whose tokens stand at the heads. A fault is raised by the head at INADDR (R341). -/
def State.mpAccess (s : State) (r : Region) (e : Elem) (f : BitVec 256) (op : Nat) (take : List Nat) (va : Word)
    (data : BitVec 512) (tag : Nat) : Did :=
  let x := s.mpSite r tag
  let acc : Acc := if op = 0 then .load else if op = 1 then .store else .atomic
  let key := s.fresh
  let s := { s with fresh := s.fresh + 1 }
  let sp : Spill := { key := key, op := op, addr := va, data := data, tag := tag, par := e.par }
  let fin (s : State) (d : Did) : Did := .state (s.perform r e f tag d)
  let bad (s : State) (q : ElemFault) : Did := fin s (.faults { q with fin := mpAddr f - 1 })
  match s.mpGo r e f x acc va (mpBytes f) with
  | (.fault q, s) => bad s q
  | (.wait, _) => .nothing
  | (.absent, s) => match s.mpPage r x acc va with
    | (some q, s) => bad s q
    | (none, s) => fin s (does (e.divert { sp with onPage := true }) take [])
  | (.cell pa cva, s) => match s.mpCell r e.row key x pa cva with
    | (some q, s) => bad s q
    | (none, s) => fin s (does (e.divert { sp with onCell := some s.cycle, loc := pa }) take [])
  | (.go p, s) => match s.mpPerform r e f op va data tag p none with
    | .overflow => bad s { cause := 18, detail := va }
    | .far o => fin (s.mpAsk r e f x o key va data p) (does (e.divert { sp with asked := some s.fresh }) take [])
    | .done e' res fl also =>
      let (e'', put) := mpDeliver r e' f res
      fin s (.acts e'' take (put ++ ordPut e f tag) fl also)

/-! ## Firing -/

/-- The binding of a circuit port (R443). -/
def mpCircuit (r : Region) (e : Elem) (f : BitVec 256) : Option Word :=
  let x := mpRange f 0
  let b := r.binding e.plane (natBits x 4 1)
  if !(r.served) && natBit x 0 && b.getLsbD 63 then some b else none

/-- A port's step on its heads (R248, R249). The STOP that an LDS with ROWOUT places goes onto its row arc, though R201 gives STOPs
no row lane (log entry 130). -/
def State.mpFire (s : State) (op : Nat) (r : Region) (e : Elem) (f : BitVec 256) : Did :=
  let sels := if op = 0 then [mpAddr f] else [mpAddr f, mpData f]
  match (if mpAddr f = 0 then none else r.heads? e sels) with
  | none => .nothing
  | some hs =>
    match kindFault (fun k => decide (k ≤ 3) || k == 5 || decide (8 ≤ k)) hs, r.classFault e (hs.map Prod.fst) with
    | some x, _ => .faults x
    | none, some x => .faults x
    | none, none =>
      let ports := hs.map Prod.fst
      let tag := (hs.map (fun h => h.2.tag)).headD 0
      let outs := outsOf 0 f
      if e.mp.rounds = 2 then .nothing
      else match hs.find? (fun h => h.2.isStop) with
        | some h =>
          (match hs.find? (fun x => x.2.kind != h.2.kind) with
           | some x => .faults (malformed 4 h.1 x.1)
           | none =>
             let (e', put) := mpDeliver r e f (if outs = 0 then none else some (e.tok h.2.kind))
             if 32 < e'.mp.spill.length then .nothing else does e' ports put)
        | none =>
          if hs.any (fun h => h.2.isBound) then .nothing
          else if 32 ≤ e.mp.spill.length then .nothing
          else if hs.any (fun h => h.2.kind == 3) then
            let (e', put) := mpDeliver r e f (if op = 1 then none else some (e.tok 3 0 tag))
            does e' ports put
          else
            let va : Word := ((hs.map (fun h => h.2.payload)).headD 0#512).truncate 64
            let data : BitVec 512 := (hs.map (fun h => h.2.payload)).getD 1 0#512
            if e.behind f va then .nothing
            else match ordAt r e f with
              | .wait => .nothing
              | .bad q => .faults q
              | .ports l => s.mpAccess r e f op (ports ++ l) va data tag

/-- Bytes of a token of a circuit on the links: its payload (log entry 14). -/
def circuitBytes (f : BitVec 256) : Nat := if mpData f = 5 then 64 else 8

/-- A message of the partition may go out at once, by a line's port where it has one (R393, R463). -/
def State.linkFree (s : State) (part die : Nat) (line : Option Nat) : Bool :=
  s.admits part die 3 && !(line.any s.lineHeld) && !(s.host.linkQueue.any (fun q => q.1 == part && q.2.1 == die))

/-- A send port forwards what it consumes, while it has credits (R443, R444): to another die of the module on a
circuit of the module, else to the outside by the circuit's carrier, where the LINK budget admits it and is charged (R393) and
its port is not changing (R463). EOR and DONE end its round and its work. -/
def State.circuitSend (s : State) (r : Region) (e : Elem) (f : BitVec 256) (b : Word) : Did :=
  match r.inp e (mpData f) with
  | none => .nothing
  | some t =>
    let here : Bool := bits b 23 15 == s.plant.modNum
    let via := s.carrier r.site.part (bits b 11 0) e.mp.seqNo (bits b 23 15)
    if t.kind = 4 ∨ t.kind = 6 ∨ t.kind = 7 then .faults (malformed (if t.kind = 7 then 8 else 3) (mpData f - 1))
    else if !here && !(s.linkFree r.site.part r.die via.2) then .nothing
    else if !(e.mp.isOpen) || e.mp.credits == 0 || e.mp.rounds == 2 then .nothing
    else
      let c := bits b 11 0
      let s' := if here then
          { s with host := { s.host with circuits := s.host.circuits ++
              [{ part := r.site.part, circ := c, die := bits b 14 12, seqNo := e.mp.seqNo, tok := t }] } }
        else (s.send (.circuit r.site.part c (bits b 14 12) (bits b 23 15) via.1 e.mp.seqNo t)).charge r.site.part r.die 3 (circuitBytes f)
      let e' := { e with mp := { e.mp with seqNo := (e.mp.seqNo + 1) % 65536, credits := e.mp.credits - 1 } }
      let e'' : Elem := if t.kind = 5 then { e'.endRound t.last with mp := { e'.mp with rounds := e.mp.rounds + 1 } }
        else if t.kind = 15 then { e' with done := true } else e'
      .state (s'.perform r e f 0 (does e'' [mpData f - 1] []))

/-- A receive port's credit goes back to the send port: on this module at once, also in a residency that has been saved, else to
the outside (R444). -/
def State.circuitCredit (s : State) (r : Region) (b : Word) : State :=
  if bits b 23 15 ≠ s.plant.modNum then
    let via := s.carrier r.site.part (bits b 11 0) 65536 (bits b 23 15)
    s.sendLink r.site.part r.die via.2 (.credit r.site.part (bits b 11 0) (bits b 14 12) (bits b 23 15) via.1)
  else
    let fix (x : Region) (e : Elem) : Elem :=
      match x.frame? e with
      | some f => (match (if e.col = 0 then mpCircuit x e f else none) with
        | some c => if c.getLsbD 24 && bits c 11 0 == bits b 11 0 && bits c 14 12 == r.die && bits c 23 15 == s.plant.modNum then
            { e with mp := { e.mp with credits := min (e.mp.credits + 1) 64 } } else e
        | none => e)
      | none => e
    let one (x : Region) : Region :=
      if x.die = bits b 14 12 ∧ x.site.part = r.site.part then { x with elems := x.elems.map (fix x) } else x
    { s with work := { s.work with regions := s.work.regions.map one
                                   residencies := s.work.residencies.map (fun y => { y with saved := y.saved.map one }) } }

/-- A receive port emits the token that is next in sequence; EOR and DONE end its round and its work (R443, R444). A
round that has begun is told by the port's counter: as a source it begins none while a save is due (R398). -/
def State.circuitReceive (_s : State) (r : Region) (e : Elem) (f : BitVec 256) (b : Word) : Did :=
  match e.mp.reseq.find? (fun p => p.1 == e.mp.expect) with
  | none => .nothing
  | some (q, t) =>
    if b.getLsbD 24 || e.mp.rounds == 2 || !(r.accepts e (outsOf 0 f)) then .nothing
    else if e.ctr.headD 0 = 0 ∧ t.kind ≠ 15 ∧ !(r.mayBegin e) then .nothing
    else
      let e' := { e with mp := { e.mp with expect := (q + 1) % 65536, reseq := e.mp.reseq.filter (fun p => p.1 != q) },
                         ctr := [1, 0, 0, 0] }
      let e'' : Elem := if t.kind = 5 then { e'.endRound t.last with mp := { e'.mp with rounds := e.mp.rounds + 1 } }
        else if t.kind = 15 then { e' with done := true } else e'
      .acts e'' [] (if outsOf 0 f = 0 then [] else [{ mask := outsOf 0 f, tok := t }]) 0#5 (fun s => s.circuitCredit r b)

def isMp (mode : Nat) (f : BitVec 256) : Bool := bits f 3 0 == 5 && mpMode f == mode

def execMpLdsFire (rid row : Nat) (s : State) : Out :=
  s.element rid row 0 (isMp 0) (fun r e f => match mpCircuit r e f with
    | some b => s.circuitReceive r e f b
    | none => s.mpFire 0 r e f)
def execMpStsFire (rid row : Nat) (s : State) : Out :=
  s.element rid row 0 (isMp 1) (fun r e f => match mpCircuit r e f with
    | some b => s.circuitSend r e f b
    | none => s.mpFire 1 r e f)
def execMpAmsFire (rid row : Nat) (s : State) : Out :=
  s.element rid row 0 (isMp 2) (s.mpFire 2)

/-! ## The spill queue (R216, R325) -/

/-- An entry taken out of the queue. -/
def Elem.unspill (e : Elem) (i : Nat) : Elem := { e with mp := { e.mp with spill := e.mp.spill.eraseIdx i } }

/-- An entry replaced. -/
def Elem.respill (e : Elem) (i : Nat) (p : Spill) : Elem := { e with mp := { e.mp with spill := e.mp.spill.set i p } }

/-- A completed entry: its token leaves when it is its turn, or when every consumer is commutative. -/
def spillLeaves (r : Region) (e : Elem) (f : BitVec 256) (i : Nat) (t : Option Token) (ord : List Emit) (p : Spill) : Did :=
  match t with
  | none => does (e.unspill i) [] ord
  | some t =>
    if i = 0 || commOut r e f then does (e.unspill i) [] ({ mask := outsOf 0 f, tok := t } :: ord)
    else does (e.respill i { p with op := 5, res := some t }) [] ord

/-- The port as the access of a queue entry sees it: an FE's access lies in the ranges of the FE's plane (R260). -/
def Spill.portFor (p : Spill) (e : Elem) : Elem := if p.op = 3 ∨ p.op = 4 then { e with plane := p.plane } else e

/-- The frame in force for a queue entry. -/
def Region.frameFor (r : Region) (e : Elem) (p : Spill) : Option (BitVec 256) := r.frame? (p.portFor e)

/-- A fault of a spilled access. In a served region its PSN stands in the entry's place until it is its turn (R211, R216); a
port with no output records it at the exit. In a streamed region the site is the port, also of an FE's access (log entry 135). -/
def State.spillFault (s : State) (r : Region) (e : Elem) (f : BitVec 256) (i : Nat) (p : Spill) (q : ElemFault) : State :=
  if r.served then
    let pay := r.siteId e.row e.col % 4096 + 2 ^ 12 * q.fcode
    let psn := e.tok 6 pay p.tag
    let none' := outsOf 0 f = 0
    let e' := if none' then e.unspill i
      else e.respill i { p with op := 5, res := some psn, onPage := false, onCell := none, asked := none, answer := none }
    s.perform (if none' then r.record pay p.tag else r) e f p.tag (does e' [] (e.todo ++ ordPut e f p.tag))
  else s.meetFault r (p.portFor e) f { q with spilled := true }

/-- A spilled access of a port no longer waits on its cell (R304, R308). -/
def State.leaveSpill (s : State) (r : Region) (row : Nat) (p : Spill) : State :=
  match p.onCell, p.asked with
  | none, _ => s
  | some _, some rq => s.sendLink r.site.part r.die (some p.loc) (.request rq 17 32 p.loc 0#64 0#512 0#64 1 true)
  | some _, none => s.dequeue (.mp r.rid row p.key)

/-- An FE's write that stands in the window, and whose FE has not gone on yet. -/
def Spill.written (p : Spill) : Bool := p.op == 4 && p.answer.isSome

/-- The queue of a port goes on with an entry: its region runs and the port has not faulted; that the port itself has ended its
work does not stop an FE's access, nor does a halt an access that another module has answered (R260, R399). -/
def Region.spillGoes (r : Region) (e : Elem) (p : Spill) : Bool :=
  r.free { e with done := false } || (r.phase == .halting && p.answer.isSome && !(r.hasFaulted e))

/-- A spilled access tried again. An FE's write enters the port's window, and its entry stays until the FE goes on (R216, R260). -/
def State.mpRetry (s : State) (r : Region) (e : Elem) (f : BitVec 256) (i : Nat) (p : Spill) : Did :=
  let x := s.mpSite r p.tag
  let acc : Acc := if p.op = 0 ∨ p.op = 3 then .load else if p.op = 1 ∨ p.op = 4 then .store else .atomic
  let fin (s : State) (d : Did) : Did := .state (s.perform r e f p.tag d)
  let bad (s : State) (q : ElemFault) : Did := .state (s.spillFault r e f i p q)
  let n := if 3 ≤ p.op then p.data.toNat % 2 ^ 64 else mpBytes f
  match s.mpGo r (p.portFor e) f x acc p.addr n (decide (3 ≤ p.op)) p.answer.isSome with
  | (.fault q, s) => bad s q
  | (.wait, _) => .nothing
  | (.absent, s) => match s.mpPage r x acc p.addr with
    | (some q, s) => bad s q
    | (none, s) => fin s (does (e.respill i { p with onPage := true }) [] [])
  | (.cell pa cva, s) => match s.mpCell r e.row p.key x pa cva with
    | (some q, s) => bad s q
    | (none, s) => fin s (does (e.respill i { p with onCell := some s.cycle, loc := pa }) [] [])
  | (.go l, s) =>
    if p.op = 3 then fin s (does (e.unspill i) [] [])
    else if p.op = 4 then
      (match e.buffer false { addr := p.addr, loc := l.loc, glob := l.glob, remote := l.remote, key := l.key
                              bytes := leBytes n (p.data.toNat / 2 ^ 64), tag := 0 } with
      | some e' => fin s (does (e'.respill i { p with answer := some 0#512 }) [] [])
      | none => bad s { cause := 18, detail := p.addr })
    else match s.mpPerform r e f p.op p.addr p.data p.tag l p.answer with
      | .overflow => bad s { cause := 18, detail := p.addr }
      | .far o => fin (s.mpAsk r e f x o p.key p.addr p.data l) (does (e.respill i { p with asked := some s.fresh }) [] [])
      | .done e' res fl also =>
        match spillLeaves r e' f i (if outsOf 0 f = 0 then none else res) (ordPut e f p.tag) p with
        | .acts e'' take put fl' also' => fin s (.acts e'' take put (fl ||| fl') (fun s => also' (also s)))
        | d => fin s d

/-- MP_SPILL_COMPLETE. The entry of an FE's access places nothing of the port's (R260). -/
def execMpSpillComplete (rid row idx : Nat) (s : State) : Out :=
  match s.region? rid with
  | none => .next s
  | some r => match r.elem? row 0 with
    | none => .next s
    | some e => match e.mp.spill[idx]?.bind (fun p => (r.frameFor e p).map (fun f => (f, p))) with
      | some (f, p) =>
        let ofFe := p.op == 3 || p.op == 4
        if !(r.spillGoes e p) || !e.todo.isEmpty || (!ofFe && !(r.roomFor e f)) then .next s
        else if p.op = 5 then
          .next (s.perform r e f p.tag (if idx = 0 || commOut r e f then spillLeaves r e f idx p.res [] p else .nothing))
        else if p.onPage || p.onCell.isSome || (p.asked.isSome && p.answer.isNone) || p.written then .next s
        else .next (s.perform r e f p.tag (s.mpRetry r e f idx p))
      | none => .next s

/-- MP_CELL_WAIT_EXPIRY (R304). -/
def execMpCellWaitExpiry (rid row idx : Nat) (s : State) : Out :=
  match s.region? rid with
  | none => .next s
  | some r => match r.elem? row 0 with
    | none => .next s
    | some e => match e.mp.spill[idx]?.bind (fun p => (r.frameFor e p).map (fun f => (f, p))) with
      | some (f, p) =>
        match p.onCell with
        | none => .next s
        | some t =>
          let lim := (s.part (s.mpSite r p.tag).part).cellWait
          if !(r.spillGoes e p) || lim == 0 || decide (s.cycle - t ≤ lim) then .next s
          else .next ((s.leaveSpill r row p).spillFault r e f idx p { cause := 11, detail := p.addr })
      | none => .next s

end Sys2Proof.Machine
end

