-- ==== Sys2Proof/Machine/FabricFE.lean ====
section
/-! DEFINITION. Fibre elements (R253 to R274). -/
namespace Sys2Proof.Machine

/-! ## Reading and writing arrays through the row's memory port (R260) -/

/-- The memory port of an FE's row, with its frame in the FE's plane, which may not be the port's own. -/
def Region.portOf (r : Region) (e : Elem) : Option (Elem × BitVec 256) :=
  match r.elem? e.row 0 with
  | some m => (r.image.frame? e.plane e.row 0).map (fun f => (m, f))
  | none => none

/-- The fault of an access that the token at INA calls for (R341). -/
def atIna (f : BitVec 256) (q : ElemFault) : ElemFault := if feIn f 0 = 0 then q else { q with fin := feIn f 0 - 1 }

/-- How a read of an array ends: a value, a wait (the machine may have changed), or a fault at the FE. -/
inductive FeRead where
  | value (x : Nat) (s : State)
  | wait (s : State)
  | fault (q : ElemFault) (s : State)

/-- The FE's access diverted to the port's spill queue; an entry for its address is made once. -/
def State.feSpill (s : State) (r : Region) (m : Elem) (p : Spill) : State :=
  if m.mp.spill.any (fun q => q.op == p.op && q.addr == p.addr) || decide (32 ≤ m.mp.spill.length) then s
  else s.setRegion (r.setElem (m.divert p))

/-- An array entry of `n` bytes read. While the 32 entries of the port's queue are filled the read waits (R216). It sees
the stores of the port's windows, as the port's own loads do (R214, R322; log entry 135). -/
def State.feRead (s : State) (r : Region) (e : Elem) (va : Word) (n : Nat) : FeRead :=
  match r.portOf e with
  | none => .wait s
  | some (m, fm) =>
    let x := s.mpSite r 0
    let sp : Spill := { key := s.fresh, op := 3, plane := e.plane, addr := va, data := BitVec.ofNat 512 n, tag := 0, par := e.par }
    match m.mp.spill.findIdx? (fun q => q.op == 3 && q.addr == va) with
    | some i => match (m.mp.spill[i]?.getD sp).answer with
      | some d => .value (leNat (overlayBytes (m.bufs false 0) va.toNat (leBytes n d.toNat))) (s.setRegion (r.setElem (m.unspill i)))
      | none => .wait s
    | none => if 32 ≤ m.mp.spill.length then .wait s else
      match ({ s with fresh := s.fresh + 1 } : State).mpGo r { m with plane := e.plane } fm x .load va n true with
      | (.fault q, s) => .fault q s
      | (.wait, s) => .wait s
      | (.absent, s) => match s.mpPage r x .load va with
        | (some q, s) => .fault q s
        | (none, s) => .wait (s.feSpill r m { sp with onPage := true })
      | (.cell pa cva, s) => match s.mpCell r e.row sp.key x pa cva with
        | (some q, s) => .fault q s
        | (none, s) => .wait (s.feSpill r m { sp with onCell := some s.cycle, loc := pa })
      | (.go p, s) =>
        if p.remote then
          let rq := s.fresh
          let s := s.ask 0 n p.loc va 0#512 0#64 0 x.part r.die (some (.mp r.rid e.row sp.key)) none 1 p.cpage
          .wait (s.feSpill r m { sp with asked := some rq })
        else .value (leNat (overlayBytes (m.bufs false 0) va.toNat (s.rdBytes p.loc n))) s

/-- An array entry written into the port's current window, also once the port has taken an EOR that its writer has not (log entry
135). A write whose page is absent waits in the queue with its data, and the FE with it (R216, R260). -/
inductive FeWrite where
  | done (m : Elem) (s : State)
  | wait (s : State)
  | fault (q : ElemFault) (s : State)

def State.feWrite (s : State) (r : Region) (e : Elem) (va : Word) (n x : Nat) : FeWrite :=
  match r.portOf e with
  | none => .wait s
  | some (m, fm) =>
    let site := s.mpSite r 0
    match m.mp.spill.findIdx? (fun q => q.op == 4 && q.addr == va) with
    | some i => if (m.mp.spill[i]?).any Spill.written then .done (m.unspill i) s else .wait s
    | none =>
    if m.mp.rounds = 2 ∨ 32 ≤ m.mp.spill.length then .wait s
    else match s.mpGo r { m with plane := e.plane } fm site .store va n true with
      | (.fault q, s) => .fault q s
      | (.wait, s) => .wait s
      | (.cell _ _, s) => .wait s
      | (.absent, s) => match s.mpPage r site .store va with
        | (some q, s) => .fault q s
        | (none, s) => .wait (({ s with fresh := s.fresh + 1 } : State).feSpill r m
            { key := s.fresh, op := 4, plane := e.plane, addr := va, data := BitVec.ofNat 512 (n + 2 ^ 64 * x), tag := 0, par := e.par
              onPage := true })
      | (.go p, s) => match m.buffer false { addr := va, loc := p.loc, glob := p.glob, remote := p.remote, key := p.key
                                             bytes := leBytes n x, tag := 0 } with
        | some m' => .done m' s
        | none => .fault { cause := 18, detail := va } s

/-! ## Streams (R253 to R257) -/

/-- Port of an input. -/
def fePort (f : BitVec 256) (i : Nat) : Nat := feIn f i - 1

/-- A stop above what the depth of the input allows (R257). -/
def levelFault (f : BitVec 256) (i depth : Nat) (t : Token) : Option ElemFault :=
  if t.isStop ∧ depth < t.kind - 8 + 1 then some (malformed 1 (fePort f i)) else none

/-- Whether a fibre is open at an input after it takes a token (R255). -/
def opens (depth : Nat) (t : Token) : Bool := depth != 0 && !(t.isStop && t.kind - 8 + 1 == depth)

/-- The element after input `i` took a token. -/
def Elem.opened (e : Elem) (i depth : Nat) (t : Token) : Elem :=
  { e with fe := if i = 0 then { e.fe with openA := opens depth t } else if i = 1 then { e.fe with openB := opens depth t }
                 else { e.fe with openC := opens depth t } }

/-- A fibre is open at an input (R255). -/
def Elem.openAt (e : Elem) (i : Nat) : Bool := if i = 0 then e.fe.openA else if i = 1 then e.fe.openB else e.fe.openC

/-- An EOR or DONE that reaches an input while a fibre is open there (R255). -/
def earlyFault (e : Elem) (f : BitVec 256) (i : Nat) (t : Token) : Option ElemFault :=
  if (t.kind = 5 ∨ t.kind = 15) ∧ e.openAt i then some (malformed 6 (fePort f i)) else none

/-- What R255 and R257 say of the token at one input by itself. -/
def headFault (e : Elem) (f : BitVec 256) (i : Nat) (t : Token) : Option ElemFault :=
  match levelFault f i (feDepth f) t with
  | some q => some q
  | none => earlyFault e f i t

/-- The first such fault among several inputs. -/
def headsFault (e : Elem) (f : BitVec 256) (hs : List (Nat × Token)) : Option ElemFault :=
  hs.findSome? (fun h => headFault e f h.1 h.2)

/-- Tokens for the primary and the second stream; a mask of 0 places nothing (R351). -/
def feEmit (f : BitVec 256) (prim sec : Option Token) : List Emit :=
  (match prim with
   | some t => if feOut f = 0 then [] else [{ mask := feOut f, tok := t }]
   | none => []) ++
  (match sec with
   | some t => if feAux f = 0 then [] else [{ mask := feAux f, tok := t }]
   | none => [])

/-- The same token on both streams. -/
def feBoth (f : BitVec 256) (t : Token) : List Emit := feEmit f (some t) (some t)

/-- A coordinate that is not above the one before it in its fibre (R254); SORTED is in frame word 1. -/
def orderFault (f : BitVec 256) (i : Nat) (last : Option Nat) (c : Nat) : Option ElemFault :=
  match last with
  | some l => if l < c then none else some (malformed 2 (if feIn f i = 0 then 7 else fePort f i) 7 1)
  | none => none

/-- The payload as a 64-bit number. -/
def Token.num (t : Token) : Nat := t.payload.toNat % 2 ^ 64

/-- Entry width of a level's arrays (R259, R262). -/
def levelBytes (f : BitVec 256) : Nat := if natBit (feC0 f) 2 then 8 else 4

def isFe (mode : Nat) (f : BitVec 256) : Bool := bits f 3 0 == 2 && feMode f == mode

/-! ## SCAN (R263) -/

/-- Where the fibre of a parent begins and ends. A counted level's value n is taken as it stands, no child for 0 (log entry 130). -/
def State.scanBounds (s : State) (r : Region) (e : Elem) (f : BitVec 256) (p : Nat) : FeRead × Nat :=
  if natBit (feC0 f) 1 then
    let n := (r.binding e.plane (feCrd f)).toNat
    (.value (p * n) s, p * n + n)
  else
    let w := levelBytes f
    let base := r.binding e.plane (fePos f)
    match s.feRead r e (base + w64 (p * w)) w with
    | .value a s => match (match s.region? r.rid with
        | some r' => s.feRead r' e (base + w64 (p * w + w)) w
        | none => .wait s) with
      | .value b s => if b < a then (.fault (atIna f (malformed 2 7 7 1)) s, 0) else (.value a s, b)
      | x => (x, 0)
    | x => (x, 0)

/-- A step taken by the FE on the machine as a read has left it. -/
def State.feActs (s : State) (rid : Nat) (e : Elem) (f : BitVec 256) (d : Did) : Did :=
  match s.region? rid with
  | some r => .state (s.perform r e f 0 d)
  | none => .nothing

/-- A step of an FE that reads or writes its arrays: on a chain it waits for an ORD, consumes it, and sends one after it
(R249, R321). -/
def feOrdered (r : Region) (e : Elem) (f : BitVec 256) (go : List Nat → List Emit → Did) : Did :=
  match ordAt r e f with
  | .wait => .nothing
  | .bad q => .faults q
  | .ports l => go l (ordPut e f 0)

/-- A fibre begins to be emitted. -/
def State.scanBegin (s : State) (r : Region) (e : Elem) (f : BitVec 256) (p : Nat) (take : List Nat) (put : List Emit) : Did :=
  let go (take : List Nat) (put : List Emit) : Did := match s.scanBounds r e f p with
    | (.value a s, b) =>
      s.feActs r.rid e f (does { e with fe := { e.fe with scan := some (a, b, a), held := false, started := true, lastA := none } } take put)
    | (.wait s, _) => .state s
    | (.fault q s, _) => s.feActs r.rid e f (.faults (atIna f q))
  if natBit (feC0 f) 1 then go take put else feOrdered r e f (fun l o => go (take ++ l) (put ++ o))

/-- One child of the fibre being emitted. No head raises what it meets: the parent has been consumed (R341). -/
def State.scanChild (s : State) (r : Region) (e : Elem) (f : BitVec 256) (j b first : Nat) : Did :=
  let w := levelBytes f
  let emit (s : State) (c : Nat) (l : List Nat) (o : List Emit) : Did :=
    match (if feSorted f then orderFault f 0 e.fe.lastA c else none) with
    | some q => s.feActs r.rid e f (.faults { q with fin := 7 })
    | none =>
      let e' := { e with fe := { e.fe with scan := some (j + 1, b, first), lastA := some c } }
      let ref := e.tok 2 j
      let put := if natBit (feC0 f) 0 then feEmit f (some (e.tok 1 c)) none ++ feEmit f (some ref) none
        else feEmit f (some (e.tok 1 c)) (some ref)
      s.feActs r.rid e f (does e' l (put ++ o))
  if natBit (feC0 f) 1 then emit s (j - first) [] []
  else feOrdered r e f (fun l o => match s.feRead r e (r.binding e.plane (feCrd f) + w64 (j * w)) w with
    | .value c s => emit s c l o
    | .wait s => .state s
    | .fault q s => s.feActs r.rid e f (.faults q))

/-- A parent token at INA. -/
def State.scanParent (s : State) (r : Region) (e : Elem) (f : BitVec 256) (t : Token) : Did :=
  let p := fePort f 0
  let depth := feDepth f - 1
  let held := if e.fe.held then feBoth f (e.tok 8) else []
  let e := e.opened 0 depth t
  match levelFault f 0 depth t with
  | some q => .faults q
  | none =>
    if t.kind = 2 then s.scanBegin r e f t.num [p] held
    else if t.kind = 3 then does { e with fe := { e.fe with held := true } } [p] held
    else if t.isStop then does { e with fe := { e.fe with held := false } } [p] (feBoth f (e.tok (t.kind + 1)))
    else match kindFault (fun k => k == 5 || k == 15) [(p, t)] with
      | some q => .faults q
      | none => .nothing

/-- FE_SCAN_FIRE. -/
def execFeScanFire (rid row col : Nat) (s : State) : Out :=
  s.element rid row col (isFe 0) (fun r e f =>
    match e.fe.scan with
    | some (j, b, first) =>
      if j < b then s.scanChild r e f j b first
      else if feIn f 0 = 0 then
        let e' := { e with fe := { e.fe with scan := none } }
        does (e'.endRound true) [] (feBoth f (e.tok 8) ++ e.eor (outsOf col f) true)
      else does { e with fe := { e.fe with scan := none, held := true } } [] []
    | none =>
      if feIn f 0 = 0 then (if e.fe.started || !(r.mayBegin e) then .nothing else s.scanBegin r e f 0 [] [])
      else match r.inp e (feIn f 0) with
        | some t => s.scanParent r e f t
        | none => .nothing)

/-! ## Inputs in step, and TRIM (R274) -/

/-- What the heads of two inputs call for. `miss` says which input has no entry of its own under pad. -/
inductive Pair where
  | wait
  | entries (a b : Token) (miss : Option Nat)
  | mixed (a b : Token)
  | stops (t : Token)
  | round (is : List Nat)
  | final
  | discard (i : Nat) (t : Token)
  | bad (q : ElemFault)

/-- A fault that names both inputs. -/
def pairFault (f : BitVec 256) (code i j : Nat) : Pair := .bad (malformed code (fePort f i) (fePort f j))

/-- The table of R256 and R274 on inputs A and B, after each head by itself (R255, R257); `own` is set for ISECT and UNION, where a stop against an entry is
the mode's own matter. -/
def pairCase (r : Region) (e : Elem) (f : BitVec 256) (own : Bool) : Pair :=
  match r.inp e (feIn f 0), r.inp e (feIn f 1) with
  | some a, some b =>
    let trim := feTrim f
    match kindFault (fun k => decide (k ≤ 3) || k == 5 || decide (8 ≤ k)) [(fePort f 0, a), (fePort f 1, b)],
          headsFault e f [(0, a), (1, b)] with
    | some q, _ => .bad q
    | none, some q => .bad q
    | none, none =>
      if !a.isBound && !b.isBound then .entries a b none
      else if a.isStop && b.isStop then (if a.kind = b.kind then .stops a else pairFault f 4 0 1)
      else if a.kind = 5 ∧ b.kind = 5 then .round [0, 1]
      else if a.kind = 15 ∧ b.kind = 15 then .final
      else if own ∧ ((a.isStop ∧ !b.isBound) ∨ (b.isStop ∧ !a.isBound)) then .mixed a b
      else if (a.kind = 5 ∧ b.kind = 15) ∨ (a.kind = 15 ∧ b.kind = 5) then
        (if trim = 0 then pairFault f 5 0 1 else .round [if a.kind = 5 then 0 else 1])
      else
        -- one input is at a boundary, the other holds an entry or, against an EOR or DONE, a stop
        let ai := a.isBound && (!a.isStop || !b.isBound)
        let i := if ai then 0 else 1
        let t := if ai then b else a
        if trim = 0 then pairFault f 5 i (1 - i)
        else if trim = 1 then .discard (1 - i) t
        else if t.isStop then pairFault f 5 i (1 - i)
        else .entries a b (some i)
  | _, _ => .wait

/-- Ports of the inputs that a lockstep step consumes. -/
def pairPorts (f : BitVec 256) (miss : Option Nat) : List Nat :=
  (if miss = some 0 then [] else [fePort f 0]) ++ (if miss = some 1 then [] else [fePort f 1])

/-- Both inputs after they took tokens. -/
def Elem.opened2 (e : Elem) (f : BitVec 256) (a b : Token) (miss : Option Nat) : Elem :=
  let e := if miss = some 0 then e else e.opened 0 (feDepth f) a
  if miss = some 1 then e else e.opened 1 (feDepth f) b

/-! ## ISECT and UNION (R264) -/

/-- The second firing of an entry: the REFs. -/
def mergeRefs (r : Region) (e : Elem) (f : BitVec 256) (union : Bool) : Did :=
  let ra := if e.fe.crdA.isSome then r.inp e (feIn f 0) else none
  let rb := if e.fe.crdB.isSome then r.inp e (feIn f 1) else none
  if (e.fe.crdA.isSome && ra.isNone) || (e.fe.crdB.isSome && rb.isNone) then .nothing
  else
    let hs := (ra.toList.map (fun t => (fePort f 0, t))) ++ (rb.toList.map (fun t => (fePort f 1, t)))
    let early := headsFault e f ((ra.toList.map (fun t => (0, t))) ++ (rb.toList.map (fun t => (1, t))))
    match early, kindFault (fun k => k == 2) hs with
    | some q, _ => .faults q
    | none, some q => .faults q
    | none, none =>
      let e' := { e with fe := { e.fe with crdA := none, crdB := none } }
      let nil := e.tok 3
      let out (t : Option Token) : Token := match t with
        | some x => { x with par := e.par }
        | none => nil
      let put := if (ra.isSome && rb.isSome) || union then feEmit f (some (out ra)) (some (out rb)) else []
      does e' (hs.map Prod.fst) put

/-- The first firing of an entry: coordinates compared and consumed. `oa` and `ob` are the entries at the heads. -/
def mergeCrds (e : Elem) (f : BitVec 256) (union : Bool) (oa ob : Option Token) : Did :=
  let nilAt (t : Option Token) : Bool := match t with
    | some x => x.kind == 3
    | none => false
  if nilAt oa then does (e.opened 0 (feDepth f) (oa.getD (e.tok 3))) [fePort f 0] []
  else if nilAt ob then does (e.opened 1 (feDepth f) (ob.getD (e.tok 3))) [fePort f 1] []
  else
    let hs := (oa.toList.map (fun t => (fePort f 0, t))) ++ (ob.toList.map (fun t => (fePort f 1, t)))
    match kindFault (fun k => k == 1) hs with
    | some q => .faults q
    | none =>
      let ca := oa.map Token.num
      let cb := ob.map Token.num
      let fa := match ca with
        | some c => orderFault f 0 e.fe.lastA c
        | none => none
      let fb := match cb with
        | some c => orderFault f 1 e.fe.lastB c
        | none => none
      match fa, fb with
      | some q, _ => .faults q
      | none, some q => .faults q
      | none, none =>
        let useA := match ca, cb with
          | some x, some y => decide (x ≤ y)
          | some _, none => true
          | none, _ => false
        let useB := match ca, cb with
          | some x, some y => decide (y ≤ x)
          | none, some _ => true
          | _, none => false
        let e' := { e with fe := { e.fe with
          crdA := if useA then ca else none, lastA := if useA then ca else e.fe.lastA, openA := e.fe.openA || useA
          crdB := if useB then cb else none, lastB := if useB then cb else e.fe.lastB, openB := e.fe.openB || useB } }
        let c := if useA then ca.getD 0 else cb.getD 0
        let take := (if useA then [fePort f 0] else []) ++ (if useB then [fePort f 1] else [])
        let emits := (useA && useB) || union
        does e' take (if emits && natBit (feC0 f) 0 then feEmit f (some (e.tok 1 c)) none else [])

/-- A firing of ISECT or UNION. -/
def mergeFire (union : Bool) (r : Region) (e : Elem) (f : BitVec 256) : Did :=
  if e.fe.crdA.isSome || e.fe.crdB.isSome then mergeRefs r e f union
  else match pairCase r e f true with
    | .entries a b _ => mergeCrds e f union (some a) (some b)
    | .mixed a b => mergeCrds e f union (if a.isStop then none else some a) (if b.isStop then none else some b)
    | .stops t =>
        let e' := (e.opened 0 (feDepth f) t).opened 1 (feDepth f) t
        does { e' with fe := { e'.fe with lastA := none, lastB := none } } [fePort f 0, fePort f 1] (feBoth f (e.tok t.kind))
    | .discard i t => does (e.opened i (feDepth f) t) [fePort f i] []
    | .bad q => .faults q
    | _ => .nothing

def execFeIsectFire (rid row col : Nat) (s : State) : Out := s.element rid row col (isFe 1) (mergeFire false)
def execFeUnionFire (rid row col : Nat) (s : State) : Out := s.element rid row col (isFe 2) (mergeFire true)

/-! ## REPT and REDU (R265 to R267) -/

/-- One input stream: an entry, a stop within its level, or nothing to do here. -/
def single (r : Region) (e : Elem) (f : BitVec 256) (ok : Nat → Bool) (entry stop : Token → Elem → Did) : Did :=
  match r.inp e (feIn f 0) with
  | none => .nothing
  | some t =>
    match kindFault (fun k => ok k || k == 3 || k == 5 || decide (8 ≤ k)) [(fePort f 0, t)], levelFault f 0 (feDepth f) t with
    | some q, _ => .faults q
    | none, some q => .faults q
    | none, none =>
      if t.kind = 5 ∨ t.kind = 15 then .nothing
      else if t.isStop then stop t (e.opened 0 (feDepth f) t) else entry t (e.opened 0 (feDepth f) t)

def execFeReptFire (rid row col : Nat) (s : State) : Out :=
  s.element rid row col (isFe 3) (fun r e f => single r e f (fun k => decide (k ≤ 2))
    (fun t e => does e [fePort f 0] (feEmit f (some (if t.kind = 3 then e.tok 3 else e.tok 2 (feC0 f))) none))
    (fun t e => does e [fePort f 0] (feEmit f (some (e.tok t.kind)) none)))

/-- The value of a payload as REDU accumulates it. -/
def reduIn (x : XEState) (fmt p : Nat) : FRes :=
  if isFloatFmt fmt then decodeWire x fmt p else ((rawWire fmt p).toNat, 0#5)

/-- The value of a group as a token, with flags (R266). A float result is rounded to nearest even as it is encoded (log entry 135). -/
def reduOut (r : Region) (e : Elem) (f : BitVec 256) : Token × BitVec 5 :=
  if feOp f = 4 then (e.tok 0 e.fe.count, 0#5)
  else match e.fe.acc with
    | none => (e.tok 3, 0#5)
    | some a =>
      if isFloatFmt (feFmt f) then
        let p := encodeWire (r.xeOf e.row) (feFmt f) 0 a.toNat
        (e.tok 0 p.1, p.2)
      else (e.tok 0 (BitVec.ofInt 64 (lowInt (intWidth (feFmt f)) a.toNat)).toNat, 0#5)

/-- The accumulator at the start of a group. -/
def Elem.reduReset (e : Elem) : Elem := { e with fe := { e.fe with acc := none, count := 0 } }

/-- FE_REDU_FIRE. With COMM a data token may come late, after the stop that closed its fibre: once such a stop has come in the
round, an entry opens no fibre (R255, R267). The first value of a group is taken as it stands (log entry 135). -/
def execFeReduFire (rid row col : Nat) (s : State) : Out :=
  s.element rid row col (isFe 4) (fun r e0 f => single r e0 f (fun k => decide (k ≤ 2))
    (fun t e' =>
      let e : Elem := if feComm f && e0.fe.started then e0 else e'
      if t.kind = 3 then does e [fePort f 0] []
      else
        let v := reduIn (r.xeOf e.row) (feFmt f) t.num
        let a : FRes := match e.fe.acc with
          | none => v
          | some x => accCombine (feFmt f) 0 false (feOp f) x (w64 v.1)
        let acc := if feOp f = 4 then none else some (w64 a.1)
        let fl := if feOp f = 4 then 0#5 else v.2 ||| a.2
        .acts { e with fe := { e.fe with acc := acc, count := e.fe.count + 1 } } [fePort f 0] [] fl id)
    (fun t e =>
      let k := t.kind - 8
      if feComm f then does { e with fe := { e.fe with started := e.fe.started || !(e.openAt 0) } } [fePort f 0] []
      else if k < feLevel f then does e [fePort f 0] []
      else
        let (v, fl) := reduOut r e f
        let stop := if feLevel f < k then feEmit f (some (e.tok (8 + (k - feLevel f - 1)))) none else []
        .acts e.reduReset [fePort f 0] (feEmit f (some v) none ++ stop) fl id))

/-! ## FILT, EXPD, CDROP (R268, R269, R272) -/

/-- A lockstep mode of two inputs. -/
def lockstep (r : Region) (e : Elem) (f : BitVec 256) (entry : Token → Token → Elem → Elem × List Emit)
    (stop : Token → Elem → Elem × List Emit) : Did :=
  match pairCase r e f false with
  | .entries a b miss =>
    let a' := if miss = some 0 then e.tok 3 else a
    let b' := if miss = some 1 then e.tok 3 else b
    let (e', put) := entry a' b' (e.opened2 f a b miss)
    does e' (pairPorts f miss) put
  | .stops t =>
      let (e', put) := stop t (e.opened2 f t t none)
      does e' [fePort f 0, fePort f 1] put
  | .discard i t => does (e.opened i (feDepth f) t) [fePort f i] []
  | .bad q => .faults q
  | _ => .nothing

def execFeFiltFire (rid row col : Nat) (s : State) : Out :=
  s.element rid row col (isFe 5) (fun r e f => lockstep r e f
    (fun a b e =>
      let pass := b.isData && b.num != 0
      let e' := { e with fe := { e.fe with idx := e.fe.idx + 1, passed := e.fe.passed + b2n pass } }
      (e', if pass then feEmit f (some { a with par := e.par }) (some (e.tok 1 e.fe.idx)) else []))
    (fun t e =>
      let p := feC0 f % 64
      let n := if p = 0 then 0 else (p - e.fe.passed % p) % p
      ({ e with fe := { e.fe with idx := 0, passed := 0 } },
       (List.replicate n (feBoth f (e.tok 3))).flatten ++ feBoth f (e.tok t.kind))))

def execFeCdropFire (rid row col : Nat) (s : State) : Out :=
  s.element rid row col (isFe 9) (fun r e f =>
    match r.inp e (feIn f 0) with
    | none => .nothing
    | some t =>
      match kindFault (fun k => k == 1 || k == 3 || k == 5 || decide (8 ≤ k)) [(fePort f 0, t)] with
      | some q => .faults q
      | none => lockstep r e f
        (fun a b e => (e, if b.kind = 3 then [] else feEmit f (some { a with par := e.par }) (some { b with par := e.par })))
        (fun t e => (e, feBoth f (e.tok t.kind))))

/-- FILL as a token (R262). Its conversion to FMT raises no flag and rounds to nearest even (log entry 135). -/
def expdFill (r : Region) (e : Elem) (f : BitVec 256) : Token :=
  let fmt := feFmt f
  let c := BitVec.ofNat 32 (feC0 f)
  if isFloatFmt fmt then e.tok 0 (encodeWire (r.xeOf e.row) fmt 0 c.toNat).1
  else e.tok 0 (constIn fmt false c).toNat

/-- A template entry of EXPD. `takeC` is empty where pad supplies the template's entry, and a data input at EOR or DONE
is then read as R274 has it; an entry that stands against no index and no template entry goes with the FILL. -/
def expdEntry (r : Region) (e : Elem) (f : BitVec 256) (a b : Token) (takeC : List Nat) : Did :=
  let i := e.fe.idx
  let e' := { e with fe := { e.fe with idx := i + 1 } }
  if b.kind = 1 ∧ b.num < i then .faults (malformed 2 (fePort f 1) 7 1)
  else if b.kind = 1 ∧ b.num = i then
    if a.isStop then .faults (malformed 4 (fePort f 0) (fePort f 1))
    else if a.isBound then
      does (e'.opened 1 (feDepth f) b) (fePort f 1 :: takeC) (feEmit f (some (expdFill r e f)) none)
    else does ((e'.opened 0 (feDepth f) a).opened 1 (feDepth f) b) ([fePort f 0, fePort f 1] ++ takeC) (feEmit f (some { a with par := e.par }) none)
  else if takeC.isEmpty && b.kind != 1 then
    let (e', ta) := if a.isBound then (e', []) else (e'.opened 0 (feDepth f) a, [fePort f 0])
    let (e', tb) := if b.isBound then (e', []) else (e'.opened 1 (feDepth f) b, [fePort f 1])
    does e' (ta ++ tb) (feEmit f (some (expdFill r e f)) none)
  else does e' takeC (feEmit f (some (expdFill r e f)) none)

def execFeExpdFire (rid row col : Nat) (s : State) : Out :=
  s.element rid row col (isFe 6) (fun r e f =>
    match r.inp e (feIn f 0), r.inp e (feIn f 1), r.inp e (feIn f 2) with
    | some a, some b, some c =>
      let hs := [(fePort f 0, a), (fePort f 1, b), (fePort f 2, c)]
      match kindFault (fun k => decide (k ≤ 3) || k == 5 || decide (8 ≤ k)) hs,
            kindFault (fun k => k == 1 || k == 3 || k == 5 || decide (8 ≤ k)) [(fePort f 1, b)],
            headsFault e f [(0, a), (1, b), (2, c)] with
      | some q, _, _ => .faults q
      | none, some q, _ => .faults q
      | none, none, some q => .faults q
      | none, none, none =>
        let ends (t : Token) : Bool := t.kind == 5 || t.kind == 15
        match hs.find? (fun h => ends h.2), hs.find? (fun h => !(ends h.2)) with
        | some x, some y =>
          -- an input at EOR or DONE while another holds an entry or a stop (R274)
          if feTrim f = 0 then .faults (malformed 5 x.1 y.1)
          else if feTrim f = 1 then
            let i := if ends a then (if ends b then 2 else 1) else 0
            does (e.opened i (feDepth f) y.2) [y.1] []
          else match hs.find? (fun h => h.2.isStop) with
            | some z => .faults (malformed 5 x.1 z.1)
            | none => if c.isBound then expdEntry r e f a b [] else expdEntry r (e.opened 2 (feDepth f) c) f a b [fePort f 2]
        | some _, none => .nothing
        | none, _ =>
          if !c.isBound then expdEntry r (e.opened 2 (feDepth f) c) f a b [fePort f 2]
          else if a.kind = 3 ∧ b.kind = 3 then does ((e.opened 0 (feDepth f) a).opened 1 (feDepth f) b) [fePort f 0, fePort f 1] []
          else if a.kind = c.kind ∧ b.kind = c.kind then
              let e' := ((e.opened 0 (feDepth f) c).opened 1 (feDepth f) c).opened 2 (feDepth f) c
              does { e' with fe := { e'.fe with idx := 0 } } [fePort f 0, fePort f 1, fePort f 2] (feEmit f (some (e.tok c.kind)) none)
          else .faults (malformed 4 (if a.kind = c.kind then fePort f 1 else fePort f 0) (fePort f 2))
    | _, _, _ => .nothing)

/-! ## JOIN and LVLW (R270, R271) -/

/-- The input that JOIN reads next: the group's own, or the other while that one holds EOR or DONE. -/
def joinInput (r : Region) (e : Elem) (f : BitVec 256) : Option Nat :=
  let cur := if e.fe.fromB then 1 else 0
  match r.inp e (feIn f cur) with
  | none => none
  | some t => if (t.kind = 5 ∨ t.kind = 15) ∧ !e.fe.started then some (1 - cur) else some cur

def execFeJoinFire (rid row col : Nat) (s : State) : Out :=
  s.element rid row col (isFe 7) (fun r e f =>
    -- a fibre open at an EOR or DONE, or a DONE before the final EOR (R255)
    let at' (i : Nat) : Option ElemFault := (r.inp e (feIn f i)).bind (fun t =>
      if t.kind = 15 then some (malformed 6 (fePort f i)) else earlyFault e f i t)
    match (at' 0).or (at' 1), joinInput r e f with
    | some q, _ => .faults q
    | none, none => .nothing
    | none, some i => match r.inp e (feIn f i) with
      | none => .nothing
      | some t =>
        match kindFault (fun k => decide (k ≤ 3) || k == 5 || decide (8 ≤ k)) [(fePort f i, t)], levelFault f i (feDepth f) t with
        | some q, _ => .faults q
        | none, some q => .faults q
        | none, none =>
          if t.kind = 5 ∨ t.kind = 15 then (if e.fe.started then .faults (malformed 6 (fePort f i)) else .nothing)
          else
            let ends := t.isStop && decide (feLevel f ≤ t.kind - 8)
            let e' := e.opened i (feDepth f) t
            let e'' := { e' with fe := { e'.fe with started := !ends, fromB := if ends then i == 0 else i == 1 } }
            does e'' [fePort f i] (feEmit f (some { t with par := e.par }) none))

/-- One write of an LVLW, and what follows it. -/
def State.lvlwWrite (s : State) (r : Region) (e : Elem) (f : BitVec 256) (va : Word) (x : Nat) (d : Did) : Did :=
  feOrdered r e f (fun l o => match s.feWrite r e va (levelBytes f) x with
    | .done m s => .state (s.perform (r.setElem m) e f 0 (match d with
      | .acts e' take put fl also => .acts e' (take ++ l) (put ++ o) fl also
      | d => d))
    | .wait s => .state s
    | .fault q s => s.feActs r.rid e f (.faults (atIna f q)))

/-- FE_LVLW_FIRE (R271). pos[0] is written with the first token of the plane; without any it is not (log entry 130). -/
def execFeLvlwFire (rid row col : Nat) (s : State) : Out :=
  s.element rid row col (isFe 8) (fun r e f =>
    let w := levelBytes f
    let pos := r.binding e.plane (fePos f)
    let crd := r.binding e.plane (feCrd f)
    single r e f (fun k => k == 1)
      (fun t e' =>
        if !e.fe.lvlInit then s.lvlwWrite r e f pos 0 (does { e with fe := { e.fe with lvlInit := true } } [] [])
        else if t.kind = 3 then does e' [fePort f 0] (feEmit f (some (e.tok 3)) none)
        else if w = 4 ∧ 2 ^ 32 ≤ t.num then .faults { cause := 1, fin := fePort f 0 }
        else match (if feSorted f then orderFault f 0 e.fe.lastA t.num else none) with
          | some q => .faults q
          | none => s.lvlwWrite r e f (crd + w64 (e.fe.lvlN * w)) t.num
              (does { e' with fe := { e'.fe with lvlN := e.fe.lvlN + 1, lastA := some t.num } } [fePort f 0]
                (feEmit f (some (e.tok 2 e.fe.lvlN)) none)))
      (fun t e' =>
        if !e.fe.lvlInit then s.lvlwWrite r e f pos 0 (does { e with fe := { e.fe with lvlInit := true } } [] [])
        else s.lvlwWrite r e f (pos + w64 ((e.fe.lvlF + 1) * w)) e.fe.lvlN
          (does { e' with fe := { e'.fe with lvlF := e.fe.lvlF + 1, lastA := none } } [fePort f 0]
            (feEmit f (some (e.tok t.kind)) none))))

/-! ## Boundaries and ends (R255, R267, R273, R274) -/

/-- The inputs that take the boundary, or a fault. -/
def feRoundInputs (r : Region) (e : Elem) (f : BitVec 256) : Except ElemFault (List Nat) :=
  let m := feMode f
  if m = 1 ∨ m = 2 ∨ m = 5 ∨ m = 9 then match pairCase r e f (m == 1 || m == 2) with
    | .round is => .ok is
    | .bad q => .error q
    | _ => .ok []
  else
    let is := (List.range 3).filter (fun i => feIn f i != 0)
    let at' (k : Nat) : List Nat := is.filter (fun i => (r.inp e (feIn f i)).any (fun t => t.kind == k))
    if (at' 5).length = is.length then .ok is
    else if m = 6 ∧ (at' 5).length + (at' 15).length = is.length ∧ !(at' 5).isEmpty then
      (if feTrim f = 0 then .error (malformed 5 (fePort f ((at' 5).headD 0)) (fePort f ((at' 15).headD 0))) else .ok (at' 5))
    else .ok []

/-- The round boundary of an FE. -/
def feBoundary (r : Region) (e : Elem) (f : BitVec 256) : Did :=
  if e.fe.scan.isSome || e.fe.crdA.isSome || e.fe.crdB.isSome then .nothing
  else match feRoundInputs r e f with
    | .error q => .faults q
    | .ok [] => .nothing
    | .ok is =>
      match is.find? (fun i => e.openAt i) with
      | some i => .faults (malformed 6 (fePort f i))
      | none =>
        if e.fe.held then .faults (malformed 6 (fePort f 0))
        else
          let hs := is.filterMap (fun i => (r.inp e (feIn f i)).map (fun t => (fePort f i, t)))
          let reset (e : Elem) : Elem := { e with fe := { e.fe with
            lastA := none, lastB := none, idx := 0, passed := 0, started := false, fromB := natBit (feC0 f) 0 && feMode f == 7 } }
          match boundary e hs (outsOf e.col f) (fun e => .ok (reset e)) with
          | .acts e' take put _ also =>
            if feMode f = 4 ∧ feComm f then
              let (v, fl) := reduOut r e f
              .acts e'.reduReset take (feEmit f (some v) none ++ put) fl also
            else .acts e' take put 0#5 also
          | d => d

/-- DONE at every input of an FE: an open fibre is EARLY (R255). -/
def feDone (r : Region) (e : Elem) (f : BitVec 256) : Except ElemFault Bool :=
  let is := (List.range 3).filter (fun i => feIn f i != 0)
  if is.all (fun i => (r.inp e (feIn f i)).any (fun t => t.kind == 15)) then
    match is.find? (fun i => e.openAt i) with
    | some i => .error (malformed 6 (fePort f i))
    | none => .ok true
  else .ok false

end Sys2Proof.Machine
end

