-- ==== Sys2Proof/Machine/FabricME.lean ====
section
/-! DEFINITION. Memory elements (R275 to R281, R350). -/
namespace Sys2Proof.Machine

/-! ## The area and its slots -/

/-- Words in a slot. -/
def meWords (f : BitVec 256) : Nat := if meRow f then 8 else 1

/-- The location of word `w` of the element's ME. -/
def meWordLoc (r : Region) (e : Elem) (w : Nat) : Nat := meLoc r.die r.cluster r.frond (r.row0 + e.row) e.col (8 * (w % 4096))

/-- The locations of a slot's words. -/
def meSlot (r : Region) (e : Elem) (f : BitVec 256) (i : Nat) : List Nat :=
  (List.range (meWords f)).map (fun k => meWordLoc r e (meBase f + i * meWords f + k))

/-- A slot's value. -/
def State.slotValue (s : State) (ls : List Nat) : Nat := (ls.zipIdx).foldl (fun acc p => acc + s.rd p.1 8 * 2 ^ (64 * p.2)) 0

/-- A slot is FULL when all its words are, EMPTY when all are EMPTY. -/
def State.slotFull (s : State) (ls : List Nat) : Bool := ls.all s.isFull
def State.slotEmpty (s : State) (ls : List Nat) : Bool := ls.all (fun l => !(s.isFull l))

/-- A slot written. -/
def State.slotWrite (s : State) (ls : List Nat) (x : Nat) : State :=
  (ls.zipIdx).foldl (fun s p => (s.wr p.1 8 (x / 2 ^ (64 * p.2) % 2 ^ 64)).clearPoison p.1 8) s

/-- A word of a slot carries an error mark: what reads the slot meets POISONED (R459, R460). -/
def State.slotMark (s : State) (ls : List Nat) : Bool := ls.any s.isPoisoned

/-- The fault of an access of the area that meets an error mark. -/
def meMarked (fin : Nat := 7) : ElemFault := { cause := 12, fin := fin }

/-- All words of a slot made FULL or EMPTY. -/
def State.slotBits (s : State) (ls : List Nat) (full : Bool) : State := ls.foldl (fun s l => s.setFull l full) s

/-- Tokens on the element's output. -/
def meEmit (f : BitVec 256) (t : Token) : List Emit :=
  let m := if meRow f then 16 else fld f 23 20
  if m = 0 then [] else [{ mask := m, tok := t }]

/-- An access of the area: with its ORD consumed, and one sent after it (R249, R275). -/
def meAccess (r : Region) (e : Elem) (f : BitVec 256) (e' : Elem) (take : List Nat) (put : List Emit) (fl : BitVec 5)
    (also : State → State) (tag : Nat := 0) : Did :=
  match ordAt r e f with
  | .wait => .nothing
  | .bad q => .faults q
  | .ports l => .acts e' (take ++ l) (put ++ ordPut e f tag) fl also

def isMe (mode : Nat) (f : BitVec 256) : Bool := bits f 3 0 == 1 && meMode f == mode

/-- An input select's port and consumable head. -/
def meHead (r : Region) (e : Elem) (sel : Nat) : Option (Nat × Token) := (r.inp e sel).map (fun t => (sel - 1, t))

/-! ## BUF (R276) -/

/-- Slots in a buffer. -/
def bufSlots (f : BitVec 256) : Nat := meSize f / (meMdepth f * meWords f)

def execMeBufWrite (rid row col : Nat) (s : State) : Out :=
  s.element rid row col (isMe 0) (fun r e f =>
    match meHead r e (meInd f) with
    | none => .nothing
    | some (p, t) =>
      match kindFault (fun k => k == 0 || k == 5 || k == 15) [(p, t)] with
      | some q => .faults q
      | none =>
        if t.kind ≠ 0 then .nothing
        else
          let n := bufSlots f
          let ls := meSlot r e f (e.me.wbuf * n + e.me.wslot)
          if !(s.slotEmpty ls) then .nothing
          else
            let more := decide (e.me.wslot + 1 < n)
            let m := { e.me with wslot := if more then e.me.wslot + 1 else 0
                                 wbuf := if more then e.me.wbuf else (e.me.wbuf + 1) % meMdepth f }
            meAccess r e f { e with me := m } [p] [] 0#5 (fun s => (s.slotWrite ls t.payload.toNat).slotBits ls true))

def execMeBufPass (rid row col : Nat) (s : State) : Out :=
  s.element rid row col (isMe 0) (fun r e f =>
    let n := bufSlots f
    match e.me.pass with
    | none => match meHead r e (meInk f) with
      | none => .nothing
      | some (p, t) =>
        match kindFault (fun k => k == 0 || k == 5 || k == 15) [(p, t)] with
        | some q => .faults q
        | none => if t.kind ≠ 0 then .nothing
                  else does { e with me := { e.me with pass := some (0, t.payload.getLsbD 0) } } [p] []
    | some (i, keep) =>
      let ls := meSlot r e f (e.me.rbuf * n + i)
      if !(s.slotFull ls) then .nothing
      else if s.slotMark ls then .faults meMarked
      else
        let put := meEmit f (e.tok 0 (s.slotValue ls))
        if i + 1 < n then meAccess r e f { e with me := { e.me with pass := some (i + 1, keep) } } [] put 0#5 id
        else if keep then meAccess r e f { e with me := { e.me with pass := none } } [] put 0#5 id
        else
          let all := (List.range n).map (fun j => meSlot r e f (e.me.rbuf * n + j))
          let m := { e.me with pass := none, rbuf := (e.me.rbuf + 1) % meMdepth f }
          meAccess r e f { e with me := m } [] put 0#5 (fun s => all.foldl (fun s ls => s.slotBits ls false) s))

/-! ## FIFO (R277) -/

/-- The token that a FIFO emits next. -/
def State.fifoHead (s : State) (r : Region) (e : Elem) (f : BitVec 256) : Option Token :=
  match e.me.fifo with
  | [] => none
  | (k, par) :: _ =>
    some { kind := k, par := par, tag := 0, payload := BitVec.ofNat 512 (s.slotValue (meSlot r e f e.me.fifoHd)) }

/-- The oldest token leaves: an EOR ends the round, DONE ends the element's work. -/
def Elem.fifoLeaves (e : Elem) (t : Token) (depth : Nat) : Elem :=
  let e := { e with me := { e.me with fifo := e.me.fifo.drop 1, fifoHd := (e.me.fifoHd + 1) % depth } }
  if t.kind = 5 then e.endRound t.last else if t.kind = 15 then { e with done := true } else e

/-- ME_FIFO_FIRE: the head of IND is stored when a slot is free, the oldest token leaves when its branches accept it;
either or both. -/
def execMeFifoFire (rid row col : Nat) (s : State) : Out :=
  match s.region? rid with
  | none => .next s
  | some r => match r.elem? row col with
    | none => .next s
    | some e => match r.frame? e with
      | none => .next s
      | some f =>
        let outs := if meRow f then 16 else fld f 23 20
        let past := e.atEnd && decide (e.plane + 1 < r.image.nplanes)
        if !(isMe 1 f) || !(r.free e) || past || !(r.accepts e (if ordOut col f = 0 then 0 else 2 ^ (ordOut col f - 1))) then .next s
        else
          let out := match s.fifoHead r e f with
            | some t => if r.accepts e outs then some t else none
            | none => none
          let inn := if e.me.fifo.length < meMdepth f + b2n out.isSome then r.headAt e (meInd f - 1) else none
          let early := match out with
            | some t => t.kind == 15 && !(e.atEnd && e.plane + 1 == r.image.nplanes)
            | none => false
          let rsv := match inn with
            | some t => t.kind == 7
            | none => false
          if out.isNone && inn.isNone then .next s
          else if out.isSome && s.slotMark (meSlot r e f e.me.fifoHd) then .next (s.perform r e f 0 (.faults meMarked))
          else if rsv then .next (s.perform r e f 0 (.faults (malformed 8 (meInd f - 1))))
          else if early then .next (s.perform r e f 0 (.faults (malformed 6 (meInd f - 1))))
          else
            let hd := e.me.fifoHd
            let n := e.me.fifo.length
            let e1 := match out with
              | some t => e.fifoLeaves t (meMdepth f)
              | none => e
            let e2 := match inn with
              | some t => { e1 with me := { e1.me with fifo := e1.me.fifo ++ [(t.kind, t.par)] } }
              | none => e1
            let wr := meSlot r e f ((hd + n) % meMdepth f)
            let rd := meSlot r e f hd
            let also (s : State) : State :=
              let s := match out with
                | some _ => s.slotBits rd false
                | none => s
              match inn with
              | some t => (s.slotWrite wr t.payload.toNat).slotBits wr true
              | none => s
            let put := match out with
              | some t => if outs = 0 then [] else [{ mask := outs, tok := t }]
              | none => []
            let take := match inn with
              | some _ => [meInd f - 1]
              | none => []
            .next (s.perform r e f 0 (meAccess r e f e2 take put 0#5 also))

/-! ## RMW (R278, R279, R350) -/

/-- The new value of a slot, as FMT lays it out, with flags. -/
def rmwNew (x : XEState) (f : BitVec 256) (old v : Nat) : FRes :=
  let fmt := meFmt f
  let op := meRmwop f
  if isFloatFmt fmt then
    let a := decodeWire x fmt old
    let b := decodeWire x fmt v
    let c := f32.add 0 (f32.unpack a.1) (f32.unpack b.1)
    let d := encodeWire x fmt 0 c.1
    (d.1, a.2 ||| b.2 ||| c.2 ||| d.2)
  else
    let w := intWidth fmt
    if op = 0 ∧ meSat f then ((fitInt true w (lowInt w old + lowInt w v)).toNat, 0#5)
    else
      let q := atomicNew op (w / 8) (old % 2 ^ w) (v % 2 ^ w) 0
      ((BitVec.ofInt 64 (lowInt w q.1)).toNat, q.2)

/-- Equal STOPs at both inputs of an RMW, consumed in a step that is no firing: it waits for no output (R350). -/
def State.rmwStops (s : State) (rid row col : Nat) : Option State :=
  match s.region? rid with
  | none => none
  | some r => match r.elem? row col with
    | none => none
    | some e => match r.frame? e with
      | none => none
      | some f => match meHead r e (meInk f), meHead r e (meInd f) with
        | some (pk, k), some (pv, v) =>
          if isMe 2 f && !(r.served) && r.free e && k.isStop && k.kind == v.kind &&
              (!e.atEnd || e.plane + 1 == r.image.nplanes) then
            some (s.perform r e f 0 (does { e with todo := [] } [pk, pv] e.todo))
          else none
        | _, _ => none

/-- ME_RMW_FIRE. EOR beside DONE, and DONE beside a STOP, are left to R213. -/
def execMeRmwFire (rid row col : Nat) (s : State) : Out :=
  match s.rmwStops rid row col with
  | some t => .next t
  | none => s.element rid row col (isMe 2) (fun r e f =>
    match meHead r e (meInk f), meHead r e (meInd f) with
    | some (pk, k), some (pv, v) =>
      let outs := fld f 23 20
      match kindFault (fun k => decide (k ≤ 3) || k == 5 || decide (8 ≤ k)) [(pk, k), (pv, v)] with
      | some q => .faults q
      | none =>
        if k.isStop && v.isStop then (if k.kind = v.kind then does e [pk, pv] [] else .faults (malformed 4 pk pv))
        else if k.isBound != v.isBound then .faults (if k.isBound then malformed 5 pk pv else malformed 5 pv pk)
        else if k.isBound then (if k.kind = v.kind || k.kind == 15 || v.kind == 15 then .nothing else .faults (malformed 4 pk pv))
        else if k.kind = 3 ∨ v.kind = 3 then
          -- a served NIL follows the updates before it
          (if r.served && !e.me.pipe.isEmpty then .nothing
           else does e [pk, pv] (if r.served && outs != 0 then [{ mask := outs, tok := e.tok 3 0 k.tag }] else []))
        else if meSize f ≤ k.num then .faults { cause := 5, detail := w64 k.num, fin := pk }
        else if e.me.pipe.any (fun u => u.1 == k.num) || decide (3 ≤ e.me.pipe.length) then .nothing
        else if s.isPoisoned (meWordLoc r e (meBase f + k.num)) then .faults (meMarked pk)
        else
          let q := rmwNew (r.xeOf row) f (s.rd (meWordLoc r e (meBase f + k.num)) 8) v.num
          let e' := { e with me := { e.me with pipe := e.me.pipe ++ [(k.num, w64 q.1, k.tag)] } }
          (match ordAt r e f with
           | .wait => .nothing
           | .bad q => .faults q
           | .ports l => .acts e' ([pk, pv] ++ l) [] q.2 id)
    | _, _ => .nothing)

/-- What an update places when it has been written (R279, R324): the new value in served mode, and its ORD. -/
def rmwPut (r : Region) (e : Elem) (f : BitVec 256) (u : Nat × Word × Nat) : List Emit :=
  (if r.served && fld f 23 20 != 0 then [{ mask := fld f 23 20, tok := e.tok 0 u.2.1.toNat u.2.2 }] else []) ++ ordPut e f u.2.2

/-- ME_RMW_UPDATE_WRITE: the oldest update leaves stage 3. -/
def execMeRmwUpdateWrite (rid row col : Nat) (s : State) : Out :=
  match s.region? rid with
  | none => .next s
  | some r => match r.elem? row col with
    | none => .next s
    | some e => match r.frame? e, e.me.pipe with
      | some f, u :: rest =>
        let e' := { e with me := { e.me with pipe := rest } }
        .next ((s.perform r e f u.2.2 (does e' [] (e.todo ++ rmwPut r e f u))).wr (meWordLoc r e (meBase f + u.1)) 8 u.2.1.toNat)
      | _, _ => .next s

/-- The update pipelines of a region complete, as a freeze first lets them (R279). -/
def State.writePipes (s : State) (r : Region) : State :=
  r.elems.foldl (fun s e => match r.frame? e with
    | none => s
    | some f => e.me.pipe.foldl (fun s u => s.wr (meWordLoc r e (meBase f + u.1)) 8 u.2.1.toNat) s) s

/-! ## LUT and STASH (R280, R281) -/

/-- ME_LUT_FIRE. A STOP is copied also onto the row arc of a LUT of rows, as R280 says, though R201 gives STOPs no row lane
(log entry 130). -/
def execMeLutFire (rid row col : Nat) (s : State) : Out :=
  s.element rid row col (isMe 3) (fun r e f =>
    match meHead r e (meInk f) with
    | none => .nothing
    | some (p, t) =>
      match kindFault (fun k => decide (k ≤ 3) || k == 5 || decide (8 ≤ k)) [(p, t)] with
      | some q => .faults q
      | none =>
        if t.kind = 3 ∨ t.isStop then does e [p] (meEmit f (e.tok t.kind 0 t.tag))
        else if t.isBound then .nothing
        else if meSize f / meWords f ≤ t.num then .faults { cause := 5, detail := w64 t.num, fin := p }
        else
          let ls := meSlot r e f t.num
          if !(s.slotFull ls) then .nothing
          else if s.slotMark ls then .faults (meMarked p)
          else meAccess r e f e [p] (meEmit f (e.tok 0 (s.slotValue ls) t.tag)) 0#5 id t.tag)

/-- ME_STASH_APPEND: every token but EOR and DONE is kept with its kind (R281). Its slot's full bits stay as they are: no rule has
an append make them FULL (log entry 130). -/
def execMeStashAppend (rid row col : Nat) (s : State) : Out :=
  s.element rid row col (fun f => isMe 4 f && meInd f != 0) (fun r e f =>
    match meHead r e (meInd f) with
    | none => .nothing
    | some (p, t) =>
      match kindFault (fun k => k != 7) [(p, t)] with
      | some q => .faults q
      | none =>
        if t.kind = 5 ∨ t.kind = 15 then .nothing
        else if meSize f / meWords f ≤ e.me.stash.length then .faults { cause := 7, fin := p }
        else
          let ls := meSlot r e f e.me.stash.length
          meAccess r e f { e with me := { e.me with stash := e.me.stash ++ [t.kind] } } [p] [] 0#5
            (fun s => s.slotWrite ls t.payload.toNat))

def execMeStashReplay (rid row col : Nat) (s : State) : Out :=
  s.element rid row col (fun f => isMe 4 f && meInd f == 0) (fun r e f =>
    if e.me.replay = 0 ∧ !(r.mayBegin e) then .nothing
    else match e.me.stash[e.me.replay]? with
      | some k =>
        let ls := meSlot r e f e.me.replay
        if s.slotMark ls then .faults meMarked else
        meAccess r e f { e with me := { e.me with replay := e.me.replay + 1 } } [] (meEmit f (e.tok k (s.slotValue ls))) 0#5 id
      | none => does (e.endRound true) [] (e.eor (outsOf col f) true))

/-! ## Boundaries (R207, R276, R279, R350) -/

/-- The selects at which the ME takes part in a boundary. -/
def meSels (f : BitVec 256) : List Nat := ([meInk f, meInd f]).filter (fun x => x != 0)

/-- The round boundary of an ME other than a FIFO: an RMW emits its slots at a LAST EOR. -/
def State.meBoundary (s : State) (r : Region) (e : Elem) (f : BitVec 256) : Did :=
  if meMode f = 1 ∨ e.me.pass.isSome ∨ !e.me.pipe.isEmpty then .nothing
  else match r.heads? e (meSels f) with
    | none => .nothing
    | some hs => match boundary e hs (outsOf e.col f) .ok with
      | .acts e' take put fl also =>
        if meMode f = 2 ∧ e'.atEnd ∧ fld f 23 20 ≠ 0 then
          let words := (List.range (meSize f)).map (fun i => meWordLoc r e (meBase f + i))
          let vals := words.map (fun l => ({ mask := fld f 23 20, tok := e.tok 0 (s.rd l 8) } : Emit))
          if s.slotMark words then .faults meMarked else .acts e' take (vals ++ put) fl also
        else .acts e' take put fl also
      | d => d

end Sys2Proof.Machine
end

