-- ==== Sys2Proof/Machine/FabricXE.lean ====
section
/-! DEFINITION. Matrix elements (R90, R282 to R289). -/
namespace Sys2Proof.Machine

/-! ## Values of tokens (R282) -/

/-- The stationary B buffer in use. -/
def xeB (e : Elem) (f : BitVec 256) : Vector (BitVec 512) 32 := if xeBsel f then e.xe.b1 else e.xe.b0

/-- A field of a row token. -/
def rowField (x : BitVec 512) (w i : Nat) : Nat := natBits x.toNat (w * i + w - 1) (w * i)

/-- The value of an element code of AFMT: 0 BF16, 1 F16, 2 K8, 3 I8, 4 N4. -/
def xeDec (x : XEState) (afmt c : Nat) : FVal :=
  if afmt = 0 then bf16.unpack c
  else if afmt = 1 then f16.unpack c
  else if afmt = 2 then w19.unpack (k8Decode x.table x.top.toNat c).toNat
  else if afmt = 3 then
    let i := lowInt 8 c
    .fin (decide (i < 0)) i.natAbs 0
  else w19.unpack (tableAt x.table c).toNat

/-- Width of an element, and elements of B in a token: rows of B in a token, columns of B (R287). -/
def aBits (afmt : Nat) : Nat := if afmt ≤ 1 then 16 else if afmt ≤ 3 then 8 else 4
def bCols (afmt : Nat) : Nat := if afmt = 4 then 32 else 16
def bRows (afmt : Nat) : Nat := 512 / (aBits afmt * bCols afmt)
/-- Tokens of a full tile. -/
def tileTokens (afmt : Nat) : Nat := if afmt ≤ 1 then 16 else if afmt ≤ 3 then 8 else 32

/-- Code of B[k][n]. -/
def bCode (b : Vector (BitVec 512) 32) (afmt k n : Nat) : Nat :=
  let q := bRows afmt
  rowField (b.getD (k / q) 0#512) (aBits afmt) (k % q * bCols afmt + n)

/-- An exact product of two decoded elements (R90); one of I8 elements is an integer, and its zero has no sign. -/
def xeLeaf (afmt : Nat) (x y : FVal) : FVal × BitVec 5 :=
  match leafProduct x y with
  | (.fin s m k, fl) => (.fin (s && !(afmt == 3 && m == 0)) m k, fl)
  | p => p

/-- A C value in CFMT as an F32 pattern, and back: 0 F32, 1 BF16, 2 F16. -/
def cFmt (cfmt : Nat) : Fmt := if cfmt = 1 then bf16 else if cfmt = 2 then f16 else f32
def cBits (cfmt : Nat) : Nat := if cfmt = 1 ∨ cfmt = 2 then 16 else 32

/-- The sum of R90 for one column: the tree over the products, the narrow scale, then C-in. -/
def xeSum (ps : List (FVal × BitVec 5)) (scale : Option FVal) (cfmt : Nat) (cin : Option Nat) : FRes :=
  let t := treeRes (treeFold (f32.add 0) 8 (ps.map Prod.fst)) (ps.foldl (fun acc p => acc ||| p.2) 0#5)
  let t : FRes := match scale with
    | some v => let m := f32.mul 0 (f32.unpack t.1) v
                (m.1, t.2 ||| m.2)
    | none => t
  let t : FRes := match cin with
    | some c => let a := f32.add 0 (f32.unpack t.1) ((cFmt cfmt).unpack c)
                (a.1, t.2 ||| a.2)
    | none => t
  if cfmt = 0 then t
  else
    let q := (cFmt cfmt).convert 0 (f32.unpack t.1)
    (q.1, t.2 ||| q.2)

/-- One column of a broad C row (R285). -/
def mmbCol (e : Elem) (f : BitVec 256) (row : Nat → Nat) (cin : Option (BitVec 512)) (n : Nat) : FRes :=
  let afmt := xeAfmt f
  let cfmt := xeCfmt f
  let b := xeB e f
  if cfmt = 3 then
    let sum := (List.range 32).foldl (fun acc k => acc + lowInt 8 (row k) * lowInt 8 (bCode b afmt k n)) (0 : Int)
    let c : Int := match cin with
      | some x => rowField x 32 n
      | none => 0
    ((BitVec.ofInt 32 (sum + c)).toNat, 0#5)
  else
    let ps := (List.range 32).map (fun k => xeLeaf afmt (xeDec e.xe afmt (row k)) (xeDec e.xe afmt (bCode b afmt k n)))
    xeSum ps none cfmt (cin.map (fun x => rowField x (cBits cfmt) n))

/-- Columns gathered into a token. -/
def packCols (w : Nat) (cols : List FRes) : BitVec 512 × BitVec 5 :=
  cols.zipIdx.foldl (fun acc p => (acc.1 ||| (BitVec.ofNat 512 (p.1.1 % 2 ^ w) <<< (w * p.2)), acc.2 ||| p.1.2)) (0#512, 0#5)

/-- A C row of a broad XE. -/
def mmbRow (e : Elem) (f : BitVec 256) (row : Nat → Nat) (cin : Option (BitVec 512)) : BitVec 512 × BitVec 5 :=
  packCols (cBits (xeCfmt f)) ((List.range 16).map (mmbCol e f row cin))

/-- Columns `lo` onward of a narrow C row (R286). -/
def mmnCols (e : Elem) (f : BitVec 256) (a : BitVec 512) (scale : Nat) (cin : Option (BitVec 512)) (lo n : Nat) :
    BitVec 512 × BitVec 5 :=
  let b := xeB e f
  let cfmt := xeCfmt f
  let av (k : Nat) : FVal := xeDec e.xe 4 (rowField a 4 k)
  packCols (cBits cfmt) ((List.range n).map (fun i =>
    let ps := (List.range 128).map (fun k => leafProduct (av k) (xeDec e.xe 4 (bCode b 4 k (lo + i))))
    xeSum ps (some (w19.unpack scale)) cfmt (cin.map (fun x => rowField x (cBits cfmt) i))))

/-! ## Firing (R283, R288) -/

/-- Port of an input. -/
def xePort (f : BitVec 256) (i : Nat) : Nat := xeIn f i - 1

/-- What stops an XE's firing: a kind it does not take, or a boundary on some inputs only (R288). -/
def xeStop (f : BitVec 256) (hs : List (Nat × Token)) : Option ElemFault :=
  match kindFault (fun k => k == 0 || k == 3 || k == 5 || k == 15) (hs.map (fun h => (xePort f h.1, h.2))) with
  | some q => some q
  | none => match hs.find? (fun h => h.2.isBound), hs.find? (fun h => !h.2.isBound) with
    | some b, some d => some (malformed 5 (xePort f b.1) (xePort f d.1))
    | _, _ => none

/-- A token on the north (0) or south (1) row output, where ROWOUT enables it. -/
def xeEmit (f : BitVec 256) (side : Nat) (t : Token) : List Emit :=
  if natBit (xeRowout f) side then [{ mask := 16 * 2 ^ side, tok := t }] else []

/-- The C-in of a data row must be VAL, and so must its scale (R288). -/
def xeNeed (f : BitVec 256) (hs : List (Nat × Token)) (is : List Nat) : Option ElemFault :=
  match hs.find? (fun h => is.contains h.1 && h.2.kind != 0) with
  | some h => some (malformed 3 (xePort f h.1))
  | none => none

def isXe (mode : Nat) (f : BitVec 256) : Bool := bits f 3 0 == 3 && xeMode f == mode

/-- The payload at an input. -/
def xePay (hs : List (Nat × Token)) (i : Nat) : Option (BitVec 512) :=
  (hs.find? (fun h => h.1 == i)).map (fun h => h.2.payload)

/-- A firing of an XE. None begins while a droop freeze or the issue fraction withholds it; one already begun completes
(R448, R451). -/
def State.xeFires (s : State) (rid row : Nat) (ok : BitVec 256 → Bool) (f : Region → Elem → BitVec 256 → Did) : Out :=
  let held : Bool := match s.region? rid with
    | some r => s.pipeHeld r.die r.cluster && !((r.elem? row 14).any (fun e => e.xe.half))
    | none => false
  if held then .next s else s.element rid row 14 ok f

/-- XE_MMB_FIRE (R285). -/
def execXeMmbFire (rid row : Nat) (s : State) : Out :=
  s.xeFires rid (row / 2 * 2) (isXe 0) (fun r e f =>
    match xeStop f (xeThere r e f), xeHeads r e f with
    | some q, _ => .faults q
    | none, none => .nothing
    | none, some hs =>
        if hs.any (fun h => h.2.isBound) then .nothing
        else
          let take := hs.map (fun h => xePort f h.1)
          let a := (xePay hs 0).getD 0#512
          let byte := xeAfmt f == 2 || xeAfmt f == 3
          if hs.any (fun h => h.1 == 0 && h.2.kind == 3) then
            does e take (xeEmit f 0 (e.tok 3) ++ xeEmit f 1 (e.tok 3))
          else match xeNeed f hs [1, 3] with
            | some q => .faults q
            | none =>
              let w := aBits (xeAfmt f)
              let c0 := mmbRow e f (fun k => rowField a w k) (xePay hs 3)
              let c1 := if byte then mmbRow e f (fun k => rowField a w (32 + k)) (xePay hs 1) else c0
              .acts e take (xeEmit f 0 (e.tok 0 c0.1.toNat) ++ xeEmit f 1 (e.tok 0 c1.1.toNat)) (c0.2 ||| c1.2) id)

/-- One lane of an MMN firing: its C columns, or NIL for a NIL row; `lane` is 0 or 1. With CFMT F32 a NIL row of a
narrow lane gives two NILs, as its C columns take two tokens (log entry 135). -/
def mmnLane (e : Elem) (f : BitVec 256) (hs : List (Nat × Token)) (lane lo n : Nat) : List Emit × BitVec 5 :=
  let cin := if lane = 0 then 3 else 4
  match hs.find? (fun h => h.1 == lane) with
  | none => ([], 0#5)
  | some a =>
    if a.2.kind = 3 then (xeEmit f lane (e.tok 3), 0#5)
    else
      let sc := natBits (((xePay hs 2).getD 0#512).toNat) (32 * lane + 31) (32 * lane)
      let c := mmnCols e f a.2.payload sc (xePay hs cin) lo n
      (xeEmit f lane (e.tok 0 c.1.toNat), c.2)

/-- C-in and scale inputs that belong to lanes with a data row. -/
def mmnNeeds (hs : List (Nat × Token)) : List Nat :=
  let data (l : Nat) : Bool := hs.any (fun h => h.1 == l && h.2.kind == 0)
  (if data 0 || data 1 then [2] else []) ++ (if data 0 then [3] else []) ++ (if data 1 then [4] else [])

/-- A second C-in token of a firing with CFMT F32 that is not VAL (R286). -/
def mmnSecond (f : BitVec 256) (hs : List (Nat × Token)) : Option ElemFault :=
  match hs.find? (fun h => (h.1 == 3 || h.1 == 4) && h.2.kind != 0) with
  | some h => some (malformed (if h.2.kind = 5 ∨ h.2.kind = 15 then 5 else if h.2.kind = 7 then 8 else 3) (xePort f h.1))
  | none => none

/-- What the heads that stand at an XE's inputs say at once, whether or not every input has one (R288); between the two
cycles of a firing only a second C-in is due. -/
def xeNow (r : Region) (e : Elem) (f : BitVec 256) : Option ElemFault :=
  if e.xe.half then mmnSecond f (xeThere r e f) else xeStop f (xeThere r e f)

/-- XE_MMN_FIRE (R286): with CFMT F32 in two steps, columns 0 to 15 and then 16 to 31; the A rows and the scale leave in
the second, which raises the flags of both (R203). -/
def execXeMmnFire (rid row : Nat) (s : State) : Out :=
  s.xeFires rid (row / 2 * 2) (isXe 1) (fun r e f =>
    match xeNow r e f, xeHeads r e f with
    | some q, _ => .faults q
    | none, none => .nothing
    | none, some hs =>
        if hs.any (fun h => h.2.isBound) then .nothing
        else match xeNeed f hs (mmnNeeds hs) with
          | some q => .faults q
          | none =>
            let wide := xeCfmt f == 0
            let lo := if e.xe.half then 16 else 0
            let n := if wide then 16 else 32
            let l0 := mmnLane e f hs 0 lo n
            let l1 := mmnLane e f hs 1 lo n
            let ends := !wide || e.xe.half
            let take := (hs.filter (fun h => ends || h.1 == 3 || h.1 == 4)).map (fun h => xePort f h.1)
            let fl := l0.2 ||| l1.2 ||| e.xe.halfFlags
            let xe : XEState := { e.xe with half := !ends, halfFlags := if ends then 0#5 else fl }
            .acts { e with xe := xe } take (l0.1 ++ l1.1) (if ends then fl else 0#5) id)

/-- XE_BLD_FIRE (R287): a NIL loads zeros. -/
def execXeBldFire (rid row : Nat) (s : State) : Out :=
  s.xeFires rid (row / 2 * 2) (isXe 2) (fun r e f =>
    match xeStop f (xeThere r e f), xeHeads r e f with
    | some q, _ => .faults q
    | none, none => .nothing
    | none, some hs =>
        if hs.any (fun h => h.2.isBound) then .nothing
        else
          let x := if hs.any (fun h => h.2.kind == 3) then 0#512 else (xePay hs 4).getD 0#512
          let j := e.xe.pos
          let xe := if xeBsel f then { e.xe with b1 := e.xe.b1.setIfInBounds j x }
            else { e.xe with b0 := e.xe.b0.setIfInBounds j x }
          does { e with xe := { xe with pos := (j + 1) % tileTokens (xeAfmt f) } } (hs.map (fun h => xePort f h.1)) [])

/-- XE_DRN_FIRE (R287): the buffer as tokens, then EOR with LAST. -/
def execXeDrnFire (rid row : Nat) (s : State) : Out :=
  s.xeFires rid (row / 2 * 2) (isXe 3) (fun r e f =>
    let j := e.xe.pos
    if j = 0 ∧ !(r.mayBegin e) then .nothing
    else if j < tileTokens (xeAfmt f) then
      does { e with xe := { e.xe with pos := j + 1 } } [] (xeEmit f 0 (e.tok 0 ((xeB e f).getD j 0#512).toNat))
    else does (e.endRound true) [] (e.eor (outsOf 14 f) true))

/-- The round boundary of an XE; a partial tile is LENGTH (R287, R288). -/
def xeBoundary (r : Region) (e : Elem) (f : BitVec 256) : Did :=
  match xeNow r e f, xeHeads r e f with
  | some q, _ => .faults q
  | none, none => .nothing
  | none, some hs => boundary e (hs.map (fun h => (xePort f h.1, h.2))).eraseDups (outsOf 14 f) (fun e =>
        if xeMode f = 2 ∧ e.xe.pos ≠ 0 then .error (malformed 5 (xePort f 4)) else .ok e)

/-- DONE at every input of an XE; beside an EOR it comes before the final EOR (R213), beside data it is LENGTH (R288). -/
def xeDone (r : Region) (e : Elem) (f : BitVec 256) : Except ElemFault Bool :=
  match xeNow r e f, xeHeads r e f with
  | some q, _ => .error q
  | none, none => .ok false
  | none, some hs =>
    if hs.all (fun h => h.2.kind == 15) then (if xeMode f = 2 ∧ e.xe.pos ≠ 0 then .error (malformed 5 (xePort f 4)) else .ok true)
    else match hs.find? (fun h => h.2.kind == 15) with
      | some d => if hs.all (fun h => h.2.isBound) && !e.atEnd then .error (malformed 6 (xePort f d.1)) else .ok false
      | none => .ok false

end Sys2Proof.Machine
end

