-- ==== Sys2Proof/Machine/Spores.lean ====
section
/-! DEFINITION. The translation cache and the spore stores as the prefetcher meets them (R206, R432 to R434). -/
namespace Sys2Proof.Machine

/-- The site of a page-table base and ASID of a partition, for accesses that firmware or the prefetcher makes. -/
def siteOf (part asid : Nat) (ptb : Word) : Site := { part := part, asid := asid, ptb := ptb }

/-- The leaf that translates an address for a site, when it maps this module's memory. -/
def State.leafOf (s : State) (x : Site) (va : Nat) : Option TlbEntry :=
  match s.walk x va with
  | .found e => if paModule (e.pbase + (va - e.vbase)) = s.plant.modNum then some e else none
  | _ => none

/-- The physical address of a virtual one. -/
def State.paOf (s : State) (x : Site) (va : Nat) : Option Nat := (s.leafOf x va).map (fun e => e.pbase + (va - e.vbase))

/-- What stops a read of the `n` bytes from `a` in the page that begins at `v`: cause 4 PAGEF, 5 PROT, 12 POISONED, with the
address of the first byte in the page, or of the marked line that the range touches (R434). -/
def State.pageStop (s : State) (x : Site) (a n v : Nat) : Option (Nat × Word) :=
  match s.walk x v with
  | .absent => some (4, w64 (max a v))
  | .malformed => some (5, w64 (max a v))
  | .found e =>
    let pa := (e.pbase + (v - e.vbase)) / 4096 * 4096
    if !(e.permits .load false) || paModule pa != s.plant.modNum then some (5, w64 (max a v))
    else ((List.range 64).find? (fun i => overlaps (v + 64 * i) 64 a n && s.isPoisoned (pa + 64 * i))).map
      (fun i => (12, w64 (v + 64 * i)))

/-- The first stop of a read of a virtual range: cause and address. -/
def State.rangeStop (s : State) (x : Site) (a n : Nat) : Option (Nat × Word) :=
  (List.range ((a % 4096 + n + 4095) / 4096)).findSome? (fun i => s.pageStop x a n (a / 4096 * 4096 + 4096 * i))

/-- Bytes of a virtual range that is mapped. -/
def State.peek (s : State) (x : Site) (a n : Nat) : List Byte :=
  (List.range n).map (fun i => match s.leafOf x (a + i) with
    | some e => BitVec.ofNat 8 (s.rdKey x.part e.key (e.pbase + (a + i - e.vbase)) 1)
    | none => 0#8)

/-- The index entry of a cache key in a cache window: OFFSET and SIZE (R432). -/
def State.cacheFind (s : State) (x : Site) (window : Nat) (key : BitVec 256) : Option (Nat × Nat) :=
  (List.range 64).findSome? (fun i =>
    let e := s.peek x (window + 64 * i) 40
    if leNat (e.take 32) = key.toNat then some (leNat ((e.drop 32).take 4), leNat ((e.drop 36).take 4)) else none)

/-- The bytes of a cache entry as firmware writes it now for a partition: the translated graph, and the trailer under the
boot's value and the partition's present key-generation count (R432). -/
def State.entryBytes (s : State) (part : Nat) (key : BitVec 256) : List Byte :=
  (List.range (Config.cacheSize key - 32)).map (Config.cacheByte key) ++
    leBytes 32 (Config.cacheMac key s.plant.bootRandom part (s.part part).keyGen).toNat

/-- The MAC of a cache entry holds: its bytes are those that firmware would write (R432, R433). -/
def State.macHolds (s : State) (x : Site) (window off size : Nat) (key : BitVec 256) : Bool :=
  s.peek x (window + off) size == s.entryBytes x.part key

/-- The configuration has a region on the die. -/
def State.holds (s : State) (die part cfg : Nat) : Bool :=
  s.work.regions.any (fun r => r.die == die && r.site.part == part && (match r.holder with
    | .served c _ _ => c == cfg
    | .stream d c e => s.work.residencies.any (fun y => y.die == d && y.cluster == c && y.entry == e && y.cfg == cfg)))

/-- The bytes of an image in a spore store. -/
def State.sporeSize (s : State) (p : Nat × Nat) : Nat :=
  match s.graphOfId p.2 p.1 with
  | some (g, f) => Config.imageSize g.key f
  | none => 0

/-- The oldest image that no region holds leaves the spore store, while the store holds more than 16 MiB. -/
def State.evictSpores (s : State) (die : Nat) : Nat → List (Nat × Nat) → List (Nat × Nat)
  | 0, l => l
  | n + 1, l =>
    if (l.map s.sporeSize).sum ≤ 2 ^ 24 then l
    else match l.reverse.find? (fun p => !(s.holds die p.2 p.1)) with
      | some p => s.evictSpores die n (l.erase p)
      | none => l

/-- An image put first in a spore store. -/
def State.sporeUse (s : State) (die : Nat) (p : Nat × Nat) : State :=
  let d := s.die die
  let l := p :: d.spores.erase p
  s.setDie die { d with spores := s.evictSpores die l.length l }

/-- An image fetched into the spore store of a die: from the store itself, or from the cache window through the
translation of its user; else the cause and the address of the failure (R434). -/
def State.fetchImage (s : State) (die : Nat) (x : Site) (cfg : Nat) : Except (Nat × Word) State :=
  if (s.die die).spores.contains (cfg, x.part) then .ok (s.sporeUse die (cfg, x.part))
  else match s.graphOfId x.part cfg with
    | none => .error (5, 0#64)
    | some (g, _) =>
      match s.rangeStop x g.window.toNat 4096 with
      | some p => .error p
      | none => match s.cacheFind x g.window.toNat g.key with
        | none => .error (5, g.window)
        | some (off, size) =>
          let a := g.window + w64 off
          match s.rangeStop x a.toNat size with
          | some p => .error p
          | none => if s.macHolds x g.window.toNat off size g.key then .ok (s.sporeUse die (cfg, x.part)) else .error (5, a)

end Sys2Proof.Machine
end

