-- ==== Sys2Proof/Machine/FabricRound.lean ====
section
/-! DEFINITION. Rounds, planes, windows, completion and faults of a region (R205 to R216, R341, R342, R401). -/
namespace Sys2Proof.Machine

/-! ## Round boundaries and DONE (R207, R213) -/

/-- The selects at which a memory port takes part in a boundary. -/
def mpSels (f : BitVec 256) : List Nat := ([mpAddr f, mpData f]).filter (fun x => x != 0)

/-- The round boundary of a memory port: it waits behind the spill queue, and for room for a third window (R214,
R235). -/
def mpBoundary (r : Region) (e : Elem) (f : BitVec 256) : Did :=
  if (mpCircuit r e f).isSome || mpAddr f == 0 || !(e.mp.spill.all Spill.written) || e.mp.rounds == 2 then .nothing
  else match r.heads? e (mpSels f) with
    | none => .nothing
    | some hs => boundary e hs (outsOf 0 f) (fun e => .ok { e with mp := { e.mp with rounds := e.mp.rounds + 1 } })

/-- The round boundary of an IND. -/
def agBoundary (r : Region) (e : Elem) (f : BitVec 256) : Did :=
  if !(agInd f) || agIni f == 0 then .nothing
  else match r.heads? e [agIni f] with
    | none => .nothing
    | some hs => boundary e hs (fld f 26 23) .ok

/-- An XE stands at the north row of its pair, in column 14. -/
def xeRow (row col : Nat) : Nat := if col < 14 then row else row / 2 * 2
def xeCol (col : Nat) : Nat := if col < 14 then col else 14

/-- ROUND_BOUNDARY (R207). -/
def execRoundBoundary (rid row col : Nat) (s : State) : Out :=
  s.element rid (xeRow row col) (xeCol col) (fun f => !(isServed col f)) (fun r e f =>
    if col = 0 then mpBoundary r e f
    else if col = 1 then agBoundary r e f
    else if col < 10 then ceBoundary r e f
    else if col < 12 then s.meBoundary r e f
    else if col < 14 then feBoundary r e f
    else xeBoundary r e f)

/-- DONE at every input that the element reads. A DONE at one of them before the element's final EOR is EARLY. -/
def allDone (r : Region) (e : Elem) (f : BitVec 256) : Except ElemFault Bool :=
  let hs := (insOf e.col f).map (fun x => (x - 1, (r.inp e x).any (fun t => t.kind == 15)))
  match hs.find? Prod.snd with
  | none => .ok false
  | some d => if hs.all Prod.snd then .ok true else if e.atEnd then .ok false else .error (malformed 6 d.1)

/-- DONE at both inputs of an RMW; beside data or NIL it is LENGTH. After the last EOR of the last plane, when it fires no more, the
rest of the table of R350 still holds of its heads. -/
def rmwDone (r : Region) (e : Elem) (f : BitVec 256) : Except ElemFault Bool :=
  match meHead r e (meInk f), meHead r e (meInd f) with
  | some (pk, k), some (pv, v) =>
    let last := e.atEnd && e.plane + 1 == r.image.nplanes
    if !last && k.kind != 15 && v.kind != 15 then .ok false
    else match kindFault (fun k => decide (k ≤ 3) || k == 5 || decide (8 ≤ k)) [(pk, k), (pv, v)] with
      | some q => .error q
      | none =>
        if k.isBound != v.isBound then .error (if k.isBound then malformed 5 pk pv else malformed 5 pv pk)
        else if last && (k.isStop || v.isStop) && k.kind != v.kind then .error (malformed 4 pk pv)
        else allDone r e f
  | _, _ => allDone r e f

/-- Whether an element that is not a source stands before DONE, with nothing of its own left to do. -/
def State.doneCase (r : Region) (e : Elem) (f : BitVec 256) : Except ElemFault Bool :=
  if e.col = 0 then
    (if (mpCircuit r e f).isSome || mpAddr f == 0 || !e.mp.spill.isEmpty then .ok false else allDone r e f)
  else if e.col = 1 then allDone r e f
  else if e.col < 10 then ceDone r e f
  else if e.col < 12 then
    (if meMode f = 1 ∨ e.me.pass.isSome ∨ !e.me.pipe.isEmpty then .ok false
     else if meMode f = 2 then rmwDone r e f else allDone r e f)
  else if e.col < 14 then feDone r e f
  else xeDone r e f

/-- ELEMENT_DONE (R213): after the last EOR of its last plane an element that has DONE on every input, or is a source,
places DONE and fires no more. -/
def execElementDone (rid row col : Nat) (s : State) : Out :=
  match s.region? rid with
  | none => .next s
  | some r => match r.elem? (xeRow row col) (xeCol col) with
    | none => .next s
    | some e => match r.frame? e with
      | none => .next s
      | some f =>
        let outs := outsOf e.col f
        let last := e.atEnd && e.plane + 1 == r.image.nplanes
        let ports := ((insOf e.col f).map (fun x => x - 1)).eraseDups
        let put : List Emit := if outs = 0 then [] else [{ mask := outs, tok := e.tok 15 }]
        if r.served || !(r.free e) || !e.todo.isEmpty || !(r.accepts e outs) then .next s
        else if ports.isEmpty then
          .next (if last && !(e.col == 0 && (mpCircuit r e f).isSome) then s.perform r e f 0 (does { e with done := true } [] put) else s)
        else match State.doneCase r e f with
          | .error q => .next (s.perform r e f 0 (.faults q))
          | .ok false => .next s
          | .ok true => .next (s.perform r e f 0
              (if last then does { e with done := true } ports put else .faults (malformed 6 (ports.headD 7))))

/-! ## Entering a plane (R205 to R208, R242, R244, R275) -/

/-- The decode table of an XE in a plane (R242). -/
def Image.xeTable (im : Image) (p row : Nat) (x : XEState) : XEState :=
  let x := match im.xtbl? p row 31 with
    | none => x
    | some f =>
      let n := fld f 32 31
      if n = 0 then { x with ncode := f.extractLsb' 16 8, top := f.extractLsb' 24 7 }
      else { x with table := loadTable (n - 1), ncode := if n = 3 then 0#8 else 0x7F#8
                    top := if n = 1 then 0x7E#7 else if n = 2 then 0x7B#7 else 0x7F#7 }
  let entries := (List.range 22).map (fun i => (i, im.xtbl? p row i))
  if entries.all (fun q => q.2.isNone) then x
  else
    let old := x.table
    { x with table := some (Vector.ofFn (fun c => match entries.getD (c.val / 12) (0, none) with
        | (_, some f) => (f.extractLsb' (16 + 19 * (c.val % 12)) 19).zeroExtend 32 <<< 13
        | (_, none) => tableAt old c.val)) }

/-- An element as it enters a plane. -/
def Region.entered (r : Region) (e : Elem) (p : Nat) : Elem :=
  let f := (r.image.frame? p e.row e.col).getD 0#256
  let isMem := e.col == 10 || e.col == 11
  let keep := isMem && meInit f == 0
  let xe := if e.col = 14 then r.image.xeTable p e.row e.xe else e.xe
  { e with plane := p, ctr := [0, 0, 0, 0], roundIn := 0, atEnd := false
           ce := { e.ce with sub := 0 }
           fe := { fromB := natBit (feC0 f) 0 && feMode f == 7 && (e.col == 12 || e.col == 13) }
           me := { stash := if keep then e.me.stash else [] }
           xe := { xe with pos := 0, half := false, halfFlags := 0#5 } }

/-- INIT acts on the area of an ME at the entry of a plane (R275); whole words are written, and their marks go (R460). -/
def State.initArea (s : State) (r : Region) (e : Elem) : State :=
  match r.frame? e with
  | none => s
  | some f =>
    if bits f 3 0 ≠ 1 ∨ meInit f = 0 then s
    else (List.range (meSize f)).foldl (fun s i =>
      let l := meWordLoc r e (meBase f + i)
      ((s.wr l 8 0).clearPoison l 8).setFull l (meInit f == 1)) s

/-- What an element finds wrong as it enters a plane: an AG's count, a circuit port's binding (R244, R443). -/
def planeFault (r : Region) (e : Elem) (f : BitVec 256) : Option ElemFault :=
  if r.served then none
  else if e.col = 1 ∧ !(agInd f) ∧ agCnten f then
    let v := r.binding e.plane (agCntbind f)
    if 1 ≤ v.toNat ∧ v.toNat ≤ 65535 then none else some { cause := 1, detail := v }
  else if e.col = 0 then match mpCircuit r e f with
    | some b => if bits b 62 25 = 0 then none else some { cause := 1 }
    | none => none
  else none

/-- The residency that holds a region. -/
def State.holderOf (s : State) (r : Region) : Option Residency :=
  match r.holder with
  | .stream d c e => s.residency? d c e
  | .served .. => none

/-- The residency that holds a region changed. -/
def State.mapHolder (s : State) (r : Region) (f : Residency → Residency) : State :=
  match r.holder with
  | .stream d c e => s.mapResidency d c e f
  | .served .. => s

/-- Bindings with one value replaced. -/
def setBind (l : List (Nat × Word)) (n : Nat) (v : Word) : List (Nat × Word) := (n, v) :: l.filter (fun b => b.1 != n)

/-- The binding values of a fabric load are fixed when its first element enters it: the pending values whose FRBAR has
completed come into force (R176). -/
def State.fixBinds (s : State) (r : Region) (p : Nat) : State :=
  if r.binds.any (fun b => b.1 == p) then s
  else match s.holderOf r with
    | none => s
    | some y =>
      let now := (y.pends.filter (fun q => q.2.2)).foldl (fun l q => setBind l q.1 q.2.1) y.binds
      let s := s.mapHolder r (fun y => { y with binds := now, pends := y.pends.filter (fun q => !q.2.2) })
      s.setRegion { r with binds := (p, now) :: r.binds }

/-- The element at a site enters a plane. -/
def State.enterPlane (s : State) (rid row col p : Nat) : State :=
  match s.region? rid with
  | none => s
  | some r =>
    let s := s.fixBinds r p
    match s.region? rid with
    | none => s
    | some r => match r.elem? row col with
      | none => s
      | some e =>
        let e' := r.entered e p
        let s := (s.setRegion ((r.setElem e').mark e')).initArea r e'
        match s.region? rid, r.frame? e' with
        | some r, some f => (match planeFault r e' f with
          | some q => s.meetFault r e' f q
          | none => s)
        | _, _ => s

/-- The handle of a residency (R174). -/
def Residency.handle (y : Residency) : Nat := y.gen % 16 * 16 + y.entry

/-- The owner of a residency wakes when it is parked on that residency (R178, R179). -/
def State.wakeOwner (s : State) (y : Residency) : State :=
  s.mapStrand y.owner (fun t => if t.parkedFor .frwait && t.park.operand == w64 y.handle then t.wake else t)

/-- The plane counter advances when no element is left in the plane: idle elements follow, and a waiting FRBAR
completes (R178, R208, R221). -/
def State.advancePlanes (s : State) (rid : Nat) : State :=
  match s.region? rid with
  | none => s
  | some r => match s.holderOf r with
    | none => s
    | some y =>
      let c := y.planes
      let ahead := r.elems.filter (fun e => decide (c < e.plane))
      let behind := r.elems.filter (fun e => e.plane == c)
      match ahead.find? (fun e => e.plane == c + 1) with
      | none => s
      | some x =>
        if behind.any (fun e => (r.frame? e).isSome) then s
        else
          let total := x.round - x.roundIn
          let follow (e : Elem) : Elem := if e.plane = c then
              { e with par := e.par ^^ decide ((total - e.round) % 2 = 1), round := total } else e
          let s := s.setRegion { r with elems := r.elems.map follow }
          let s := behind.foldl (fun s e => s.enterPlane rid e.row e.col (c + 1)) s
          let waits := y.barAt.isSome
          let s := s.mapHolder r (fun y => { y with
            planes := c + 1, frbar := waits
            pends := if waits then y.pends.map (fun q => (q.1, q.2.1, true)) else y.pends })
          if waits then s.wakeOwner y else s

/-- The last window of a plane has committed: every memory port that it uses has ended it and holds nothing (R327). -/
def Region.planeCommitted (r : Region) (p : Nat) : Bool :=
  r.elems.all (fun m => m.col != 0 || (r.image.frame? p m.row 0).isNone || decide (p < m.plane) ||
    (m.plane == p && m.atEnd && m.mp.rounds == 0 && m.mp.spill.isEmpty))

/-- An element that has ended its plane, with nothing left there, may enter the next one when that is loaded; an FE, whose reads
see every store of the plane before, when the last window of that has committed (R327). -/
def Region.mayEnter (r : Region) (e : Elem) : Bool :=
  r.free e && r.phase != .draining && e.atEnd && e.todo.isEmpty && decide (e.plane + 1 < r.image.nplanes) &&
    decide (e.plane + 1 < r.loaded) && e.mp.rounds == 0 && e.mp.spill.isEmpty && e.me.pipe.isEmpty &&
    (e.col < 12 || 13 < e.col || r.planeCommitted e.plane)

/-- Every element of the plane holds at its final EOR, and the last window has committed (R401). -/
def Region.holding (r : Region) : Bool :=
  r.active.all (fun e => e.atEnd && e.todo.isEmpty && e.mp.rounds == 0 && e.mp.spill.isEmpty && e.me.pipe.isEmpty) &&
    r.faults.isEmpty

/-- The first element to hold: the one whose last boundary came first. -/
def Region.firstHeld (r : Region) : Option Elem :=
  match r.marks.find? (fun m => m.atEnd) with
  | some m => r.elem? m.row m.col
  | none => r.active.head?

/-- Stores of a region that another module has not acknowledged (R441). -/
def State.storesOut (s : State) (rid : Nat) : Bool :=
  s.host.outstanding.any (fun o => o.isStore && (match o.waiter with
    | some (.mp x _ _) => x == rid
    | _ => false))

/-- PLANE_ENTRY (R206 to R208): every element that has ended its plane enters the next, when that is loaded and the stores of
this one are visible on other modules too (R327). Where the fetch of the next plane fails and every element holds, the
residency faults at the first element to hold (R401). -/
def execPlaneEntry (rid : Nat) (s : State) : Out :=
  match s.region? rid with
  | none => .next s
  | some r =>
    if r.served || r.phase == .frozen || r.phase == .halting then .next s
    else
      let go := if s.storesOut rid then [] else r.active.filter r.mayEnter
      if !go.isEmpty then
        .next (go.foldl (fun s e => (s.enterPlane rid e.row e.col (e.plane + 1)).advancePlanes rid) s)
      else match r.firstHeld with
        | none => .next s
        | some e =>
          let p := e.plane + 1
          if !r.holding || decide (r.image.nplanes ≤ p) || decide (p < r.loaded) || r.phase == .draining then .next s
          else match s.holderOf r with
            | none => .next s
            | some y => match s.fetchImage r.die r.site y.cfg with
              | .ok _ => .next s
              | .error (c, a) =>
                let q := r.pend e ((r.frame? e).getD 0#256) { cause := c, detail := a } s.cycle
                .next (s.setRegion { r with faults := r.faults ++ [{ q with plane := p, roundIn := 0 }] })

/-- PLANE_PREFETCH (R206): the next plane is loaded region-wide; a fetch that fails loads nothing. -/
def execPlanePrefetch (rid : Nat) (s : State) : Out :=
  match s.region? rid with
  | none => .next s
  | some r => match s.holderOf r with
    | none => .next s
    | some y =>
      if r.image.nplanes ≤ r.loaded then .next s
      else match s.fetchImage r.die r.site y.cfg with
        | .ok s' => .next (s'.setRegion { r with loaded := r.loaded + 1 })
        | .error _ => .next s

/-- ARGW_DELIVERY (R228): the oldest value on the argument network reaches its element's pending register. -/
def execArgwDelivery (rid : Nat) (s : State) : Out :=
  match s.region? rid with
  | none => .next s
  | some r => match r.argNet with
    | [] => .next s
    | (row, col, c1, v) :: rest =>
      let r := { r with argNet := rest }
      match r.elem? row col with
      | none => .next (s.setRegion r)
      | some e =>
        let ce := if c1 then { e.ce with pend1 := some v } else { e.ce with pend0 := some v }
        .next (s.setRegion (r.setElem { e with ce := ce }))

/-! ## Windows (R214) -/

/-- The oldest window of one port committed. -/
def Elem.commitWindow (e : Elem) : Elem :=
  if e.mp.rounds = 0 then e else { e with mp := { e.mp with win0 := e.mp.win1, win1 := [], rounds := e.mp.rounds - 1 } }

/-- Every memory port of the plane of the windows has entered it and consumed the EOR of the oldest window's round (R214). -/
def Region.windowClosed (r : Region) : Bool :=
  r.windowPorts.all (fun e => e.plane == r.windowPlane && e.mp.rounds != 0) && !r.windowPorts.isEmpty

/-- WINDOW_COMMIT (R214): when every memory port has consumed the round's EOR and no fault was met in the round, the
stores of all of them are performed, each port's in the order it buffered them. A store that meets an error mark of a line or
word greater than it is the fabric fault POISONED of its port (R459). -/
def execWindowCommit (rid : Nat) (s : State) : Out :=
  match s.region? rid with
  | none => .next s
  | some r =>
    let ps := r.windowPorts
    let k := r.roundNo
    let p := r.windowPlane
    let bad := r.faults.any (fun f => decide (f.plane < p) || (f.plane == p && decide (f.roundIn ≤ k)))
    if r.served || r.phase == .frozen || (r.phase == .halting && !r.stuck) || !r.windowClosed || bad then .next s
    else
      let stores := mergeStores ((sortBy (fun e => e.row) ps).flatMap (fun e => e.mp.win0))
      if !(stores.all (s.releases r)) then .next s else
      match (s.marred stores).bind (fun b => (ps.find? (fun e => e.row == b.row)).map (fun e => (b, e))) with
      | some (b, e) => .next (s.meetFault r e ((r.frame? e).getD 0#256) { cause := 12, detail := b.addr })
      | none =>
      let r' := { r with elems := r.elems.map Elem.commitWindow, commits := r.commits + 1 }
      let r'' := { r' with marks := r'.marks.filter (fun m => decide (r'.oldest ≤ m.round)) }
      .next (stores.foldl (fun s b => s.commitStore r b) (s.setRegion r''))

/-! ## Records (R340, R341) -/

/-- The size of the partition's scratchpad window on a die. -/
def State.spWindow (s : State) (part die : Nat) : Nat := min (((s.part part).dies[die]?.getD {}).spl * 2 ^ 16) (2 ^ 21)

/-- A location of the fault area of a cluster, by its distance below the window's end. -/
def State.faultArea (s : State) (part die cluster below : Nat) : Nat :=
  spLoc die cluster (((s.part part).dies[die]?.getD {}).spb * 2 ^ 16 + s.spWindow part die - below)

/-- The location of a residency's record block, and its address as strands name it. -/
def State.recordLoc (s : State) (y : Residency) : Nat := s.faultArea y.part y.die y.cluster (2048 - 64 * y.entry)
def State.recordAddr (s : State) (y : Residency) : Word :=
  w64 (0xD * 2 ^ 60 + s.spWindow y.part y.die - (2048 - 64 * y.entry))

/-- Words written one after another as the device writes a record; a BWAIT waiter of one of them may wake (R18). -/
def State.wrWords (s : State) (l : Nat) (ws : List Word) : State :=
  ((ws.zipIdx).foldl (fun s p => s.wr (l + 8 * p.2) 8 p.1.toNat) s).wakeBars l (8 * ws.length)

/-- Word 7 of a record. -/
def recordFlags (flags : BitVec 5) (drained faulted : Bool) : Word := w64 (flags.toNat + 32 * b2n drained + 64 * b2n faulted)

/-- The element id of a site of a region. -/
def Region.siteOf (r : Region) (row col : Nat) : Nat := r.siteId row col % 2 ^ 15

/-! ## Completion (R213) -/

/-- The element has no enabled output (R213). An ME of row slots, whose OUTMASK is zero, has one where an arc leaves it
(R196). -/
def Region.sink (r : Region) (e : Elem) (f : BitVec 256) : Bool :=
  if (e.col = 10 ∨ e.col = 11) ∧ meRow f then !(r.arcs.any (fun a => a.leaves e.plane e.row e.col 16)) else outsOf e.col f == 0

/-- Every sink has consumed DONE. -/
def Region.sinksDone (r : Region) : Bool :=
  r.active.all (fun e => e.done || (match r.frame? e with
    | some f => !(r.sink e f)
    | none => true))

/-- Nothing is left in the region but what arcs hold. -/
def Region.quiet (r : Region) : Bool :=
  r.elems.all (fun e => e.todo.isEmpty && e.mp.spill.isEmpty && e.mp.rounds == 0 && e.me.pipe.isEmpty)

/-- A residency that has completed. -/
def State.drain (s : State) (y : Residency) (r : Region) : State :=
  let s := s.wrWords (s.recordLoc y + 56) [recordFlags (r.flags ||| y.flags) true false]
  let s := (s.unpin r.rid).wakeOwner y
  if y.orphan then s.freeResidency y
  else s.mapResidency y.die y.cluster y.entry (fun y => { y with state := .drained, flags := r.flags ||| y.flags })

/-- RESIDENCY_DRAINED (R213): with DONE at every sink and every arc empty the residency is DRAINED; a token left in an
arc is LEFTOVER at its consumer, of several such arcs at that of the first in the image's order (log entry 130). -/
def execResidencyDrained (die cluster entry : Nat) (s : State) : Out :=
  match s.residency? die cluster entry with
  | none => .next s
  | some y => match y.region with
    | none => .next s
    | some rid => match s.region? rid with
      | none => .next s
      | some r =>
        if y.state != .running || r.phase == .frozen || r.phase == .halting || !r.faults.isEmpty || !r.sinksDone || y.planes + 1 != r.image.nplanes then .next s
        else match r.arcs.find? (fun a => !a.queue.isEmpty) with
          | some a => match r.elem? a.edge.crow a.edge.ccol with
            | none => .next s
            | some e =>
              let e := { e with plane := a.edge.plane }
              .next (s.meetFault r e ((r.frame? e).getD 0#256) (malformed 7 a.edge.cport))
          | none => if r.quiet then .next (s.drain y r) else .next s

/-! ## Faults (R215, R339 to R342) -/

/-- The fault that decides the record: the first met, and of those met in one cycle the one of the lowest element id. -/
def Region.deciding (r : Region) : Option PendFault :=
  match r.faults with
  | [] => none
  | f :: fs => some (fs.foldl (fun b x =>
      if x.met < b.met ∨ (x.met = b.met ∧ r.siteOf x.row x.col < r.siteOf b.row b.col) then x else b) f)

/-- The words of a fault record (R341). -/
def recordWords (r : Region) (y : Residency) (f : PendFault) (snap : Bool) : List Word :=
  let count := match r.elem? f.row f.col with
    | some e => if e.plane < f.plane then f.plane else y.planes
    | none => y.planes
  let round := match r.elem? f.row f.col with
    | some e => if e.plane < f.plane then 0 else r.roundNo
    | none => r.roundNo
  let w0 := f.cause + 2 ^ 8 * f.fcode + 2 ^ 16 * r.siteOf f.row f.col + 2 ^ 34 * f.plane + 2 ^ 36 * f.fword + 2 ^ 39
    + 2 ^ 40 * b2n f.spilled + 2 ^ 41 * b2n r.image.indep + 2 ^ 42 * b2n snap + 2 ^ 56 * y.handle
  [w64 w0, w64 (count % 2 ^ 32 + 2 ^ 32 * round), w64 f.frame.toNat, f.detail
  , w64 (f.heads + 2 ^ 30 * f.fin + 2 ^ 33 * f.sin), f.payload, r.image.replay
  , recordFlags (r.flags ||| y.flags) false true]

/-- A residency faults with a record: it is FAULTED, and a deferred trap is pending for its owner, the one of this residency
(R334, log entry 113); an orphaned one is freed (R180, R339). -/
def State.faultResidency (s : State) (y : Residency) (ws : List Word) : State :=
  let s := s.wrWords (s.recordLoc y) ws
  if y.orphan then s.freeResidency y
  else
    let w0 := ws.headD 0#64
    let d : Deferred := { isCopy := false, who := y.entry, tcause := w64 (bits w0 15 0 + 2 ^ 16 + 2 ^ 17)
                          tinfo0 := w64 y.handle, tinfo1 := s.recordAddr y, tinfo2 := w0, tinfo3 := ws.getD 1 0#64 }
    let s := s.mapResidency y.die y.cluster y.entry (fun y => { y with state := .faulted, record := ws, save := .noSave })
    let mine (q : Deferred) : Bool := !q.isCopy && q.tinfo0 == d.tinfo0
    (s.mapStrand y.owner (fun t =>
      { t with waits := { t.waits with deferred := t.waits.deferred.filter (fun q => !(mine q)) ++ [d] } })).wakeOwner y

/-- The spilled accesses of a region no longer wait on their cells (R308). -/
def State.leaveSpills (s : State) (r : Region) : State :=
  r.elems.foldl (fun s e => e.mp.spill.foldl (fun s p => s.leaveSpill r e.row p) s) s

/-- A region frozen: its updates are written, its windows and spilled accesses are discarded (R215, R279, R308); of a firing that has
not ended nothing is left (R203). -/
def State.freezeRegion (s : State) (r : Region) : State :=
  let f (e : Elem) : Elem := { e with mp := { e.mp with win0 := [], win1 := [], spill := [] }, me := { e.me with pipe := [] }
                                      xe := { e.xe with half := false, halfFlags := 0#5 } }
  ((s.leaveSpills r).writePipes r).setRegion { r with elems := r.elems.map f, phase := .frozen }

/-- FABRIC_FAULT_FREEZE (R215): the fault of a site that decides the record freezes the region. -/
def execFabricFaultFreeze (rid row col : Nat) (s : State) : Out :=
  match s.region? rid with
  | none => .next s
  | some r => match s.holderOf r, r.deciding with
    | some y, some f =>
      if r.phase == .frozen || f.row != row || f.col != col then .next s
      else .next ((s.freezeRegion r).faultResidency y (recordWords r y f false))
    | _, _ => .next s

/-! ## The stall detector (R342, R450) -/

/-- The element waits because an output is full. -/
def Region.waitsOut (r : Region) (e : Elem) : Bool :=
  match r.frame? e with
  | some f => !e.done && (!(r.roomFor e f) || !e.todo.isEmpty)
  | none => false

/-- The element waits because an input, ORDIN among them, holds nothing that it can consume. -/
def Region.waitsIn (r : Region) (e : Elem) : Bool :=
  match r.frame? e with
  | some f => !e.done && (readsOf e.col f).any (fun x => (r.inp e x).isNone)
  | none => false

/-- The site of the lowest element id in a list. -/
def Region.lowest (r : Region) : List Elem → Option Elem
  | [] => none
  | e :: es => some (es.foldl (fun b x => if r.siteOf x.row x.col < r.siteOf b.row b.col then x else b) e)

/-- SITE of an RSTALL. -/
def Region.stalled (r : Region) : Option Elem :=
  let out := r.active.filter r.waitsOut
  let inn := r.active.filter r.waitsIn
  r.lowest (if !out.isEmpty then out else if !inn.isEmpty then inn else r.active)

/-- The byte of an arc in a snapshot. -/
def Region.arcByte (r : Region) (a : Arc) : Byte :=
  let waits := match r.elem? a.edge.crow a.edge.ccol with
    | some e => (match r.frame? e with
      | some f => !e.done && (readsOf e.col f).any (fun x => x - 1 != a.edge.cport && (r.inp e x).isNone)
      | none => false)
    | none => false
  let full := match r.elem? a.edge.prow a.edge.pcol with
    | some e => r.waitsOut e && decide (a.edge.depth ≤ a.queue.length + a.inReturn)
    | none => false
  BitVec.ofNat 8 ((a.queue.length + a.inReturn) % 32 + 64 * b2n waits + 128 * b2n full)

/-- The snapshot of the arcs of the current plane, in the image's order (R342). -/
def State.snapshot (s : State) (r : Region) (y : Residency) (plane : Nat) : Bool × State :=
  let l := s.faultArea y.part y.die y.cluster 1024
  if s.rd l 8 ≠ 0 then (false, s)
  else
    let arcs := ((r.arcs.take r.image.edges.length).filter (fun a => a.edge.plane == plane)).take 1016
    let s := s.wrWake (l + 8) (arcs.map r.arcByte)
    (true, s.wrWords l [w64 (y.handle + 2 ^ 8 * plane + 2 ^ 16 * arcs.length + 2 ^ 63)])

/-- A fabric load's final EOR has begun to cross the region and has not crossed it: an element holds at it, or has entered the next
plane while another has not (R401). -/
def Region.wave (r : Region) : Bool :=
  r.active.any (fun e => e.atEnd && decide (e.plane + 1 < r.image.nplanes)) ||
    r.active.any (fun e => r.active.any (fun x => e.plane != x.plane))

/-- Every element has entered the new plane. -/
def Region.crossed (r : Region) : Bool := !r.wave

/-- The region has drained to one boundary: every element has taken it, every window has committed, no token is left. -/
def Region.atBoundary (r : Region) : Bool :=
  let es := r.active
  es.all (fun e => e.round == (es.map (fun e => e.round)).headD 0 && e.todo.isEmpty && e.mp.rounds == 0 &&
      e.mp.spill.isEmpty && e.me.pipe.isEmpty) &&
    r.arcs.all (fun a => a.queue.isEmpty) && (r.phase != .crossing || r.crossed)

/-- Something of a region that halts has begun and has not ended (R203, R279, R399): an access to another module, an update in a
pipeline, a token still to be placed, the second cycle of a firing. -/
def Region.begun (r : Region) : Bool :=
  r.elems.any (fun e => e.mp.spill.any (fun p => p.asked.isSome && decide (p.op ≤ 4) && p.onCell.isNone) || !e.me.pipe.isEmpty ||
    !e.todo.isEmpty || e.xe.half)

/-- The region would move tokens if it could: it runs, or what a save has left it to do is not done. -/
def Region.toMove (r : Region) : Bool :=
  match r.phase with
  | .running => true
  | .frozen => false
  | .halting => r.begun
  | .draining | .crossing => !r.atBoundary

/-- Cycles since a region's last movement that do not count for the stall detector. -/
def Region.excusedNow (r : Region) : Nat := if r.excused.1 = r.lastMove then r.excused.2 else 0

/-- RSTALL (R342): no token has moved for 4,096 cycles while some sink has not had DONE. Waits on a cell, which count
as movement (R304), credits on their way, droop freezes and the issue fraction (R450) are left out. A region that has drained to
its boundary for a save, or has halted, has nothing to move. -/
def execRstall (rid : Nat) (s : State) : Out :=
  match s.region? rid with
  | none => .next s
  | some r => match s.holderOf r, r.stalled with
    | some y, some e =>
      if y.state != .running || !r.toMove || !r.faults.isEmpty || r.sinksDone || decide (s.cycle < r.lastMove + r.excusedNow + 4096) then .next s
      else
        let (snap, s) := s.snapshot r y e.plane
        let q := { r.pend e ((r.frame? e).getD 0#256) { cause := 14 } s.cycle with }
        .next ((s.freezeRegion r).faultResidency y (recordWords r y q snap))
    | _, _ => .next s

/-! ## Cycles that are no stall (R304, R450) -/

/-- Of `n` cycles from cycle `c` on, those that the first `m` of every sixteen do not hold. -/
def heldOf (m c n : Nat) : Nat :=
  let below (x : Nat) : Nat := x / 16 * (16 - m) + (x % 16 - m)
  below (c + n) - below c

/-- An XE of the region has its inputs and room for its outputs, so that its tokens are held by nothing but a freeze or the issue
fraction. -/
def Region.xeReady (r : Region) : Bool :=
  r.active.any (fun e => e.col == 14 && (r.frame? e).any (fun f => (xeHeads r e f).isSome && r.roomFor e f))

/-- Of the next `n` cycles, those that do not count against a region as cycles without movement: all while it waits on a cell or a
credit is on its way, else those in which its XE is held (R304, R448, R450, R451). -/
def State.uncounted (s : State) (r : Region) (n : Nat) : Nat :=
  if r.elems.any (fun e => e.mp.spill.any (fun p => p.onCell.isSome)) || r.arcs.any (fun a => decide (0 < a.inReturn)) then n
  else if r.xeReady then
    let frozen := min n ((s.cluster r.die r.cluster).freeze - s.cycle)
    let m := if r.cluster < 48 then s.plant.power.broadFrac else s.plant.power.narrowFrac
    frozen + heldOf m (s.cycle + frozen) (n - frozen)
  else 0

/-- The regions as `n` cycles pass over them. -/
def State.stallClock (s : State) (n : Nat) : State :=
  let fix (r : Region) : Region := { r with excused := (r.lastMove, r.excusedNow + s.uncounted r n) }
  { s with work := { s.work with regions := s.work.regions.map fix } }

end Sys2Proof.Machine
end

