-- ==== Sys2Proof/Machine/Circuits.lean ====
section
/-! DEFINITION. Die network circuits between streamed residencies (R443, R444). -/
namespace Sys2Proof.Machine

/-- The binding of the circuit port at a row of a region. -/
def Region.circuitAt (r : Region) (row : Nat) : Option (Elem × BitVec 256 × Word) :=
  match r.elem? row 0 with
  | none => none
  | some e => match r.frame? e with
    | none => none
    | some f => (mpCircuit r e f).map (fun b => (e, f, b))

/-- The region's residency is RUNNING. -/
def State.runs (s : State) (r : Region) : Bool :=
  match s.holderOf r with
  | some y => y.state == .running
  | none => false

/-- Two bindings name one circuit from its two ends, lying on these dies of this module. -/
def State.matching (s : State) (b c : Word) (die die' : Nat) : Bool :=
  bits b 11 0 == bits c 11 0 && b.getLsbD 24 != c.getLsbD 24 && bits b 14 12 == die' && bits c 14 12 == die &&
    bits b 23 15 == s.plant.modNum && bits c 23 15 == s.plant.modNum

/-- A region has the other end of a circuit of another region on this module. -/
def State.isOtherEnd (s : State) (r : Region) (b : Word) (x : Region) : Bool :=
  x.site.part == r.site.part && (List.range 8).any (fun row => (x.circuitAt row).any (fun q => s.matching b q.2.2 r.die x.die))

/-- The other end of a circuit on this module is there: in a residency that is neither FAULTED nor freed, also one that has been
saved. -/
def State.endLives (s : State) (r : Region) (b : Word) : Bool :=
  s.work.regions.any (fun x => s.isOtherEnd r b x && (s.holderOf x).any (fun y => y.state != .faulted)) ||
    s.work.residencies.any (fun y => y.state != .faulted && y.saved.any (s.isOtherEnd r b))

/-- DONE of the circuit has been emitted (R444): by the receive port itself; a send port knows it by its credits, of which each
emitted token returns one. -/
def circuitClosed (e : Elem) (b : Word) : Bool := e.done && (!(b.getLsbD 24) || e.mp.credits == 64)

/-- The other end of a circuit on this module: its region and row. -/
def State.otherEnd (s : State) (r : Region) (b : Word) : Option (Region × Nat) :=
  s.work.regions.findSome? (fun x =>
    if x.site.part != r.site.part || !(s.runs x) then none
    else (List.range 8).findSome? (fun row => match x.circuitAt row with
      | some (_, _, c) => if s.matching b c r.die x.die then some (x, row) else none
      | none => none))

/-- The port at a row of a region changed. -/
def State.mapPort (s : State) (rid row : Nat) (g : MPState → MPState) : State :=
  match s.region? rid with
  | none => s
  | some r => match r.elem? row 0 with
    | some e => s.setRegion (r.setElem { e with mp := g e.mp })
    | none => s

/-- A circuit of a partition may lead to another module: one of the domain, or one beyond it with which a binding is in force
(R442). -/
def State.circuitReach (s : State) (part m : Nat) : Bool := (s.peerOf part m).isSome || Config.inDomain m

/-- CIRCUIT_OPEN (R444). The other end of a circuit to another module is that module's matter. -/
def execCircuitOpen (rid row : Nat) (s : State) : Out :=
  match s.region? rid with
  | none => .next s
  | some r => match r.circuitAt row with
    | none => .next s
    | some (e, _, b) =>
      if !(s.runs r) || e.mp.isOpen then .next s
      else if bits b 23 15 ≠ s.plant.modNum then
        .next (if s.circuitReach r.site.part (bits b 23 15) then s.mapPort rid row (fun m => { m with isOpen := true }) else s)
      else match s.otherEnd r b with
        | none => .next s
        | some (x, row') =>
          .next ((s.mapPort rid row (fun m => { m with isOpen := true })).mapPort x.rid row' (fun m => { m with isOpen := true }))

/-- The receive port emits the tokens that stand next in sequence, while its outputs have room. -/
def State.emitCircuit (s : State) (rid row : Nat) : Nat → State
  | 0 => s
  | n + 1 =>
    match s.region? rid with
    | none => s
    | some r => match r.circuitAt row with
      | none => s
      | some (e, f, b) =>
        if !(r.free e) || e.atEnd && decide (e.plane + 1 < r.image.nplanes) || !e.todo.isEmpty then s
        else
          let d := s.circuitReceive r e f b
          match d with
          | .nothing => s
          | d => (s.perform r e f 0 d).emitCircuit rid row n

/-- A token of the network enters the re-sequencing queue at its place, when the queue of 64 can hold it. -/
def MPState.queue (m : MPState) (q : Nat) (t : Token) : MPState :=
  if 64 ≤ (q + 65536 - m.expect) % 65536 || m.reseq.any (fun p => p.1 == q) then m else { m with reseq := m.reseq ++ [(q, t)] }

/-- CIRCUIT_TOKEN_ARRIVAL (R444): a token of a circuit of this module is one that its send port has sent. -/
def execCircuitTokenArrival (rid row seqNo kind : Nat) (par : Bool) (payload : BitVec 512) (s : State) : Out :=
  match s.region? rid with
  | none => .next s
  | some r => match r.circuitAt row with
    | none => .next s
    | some (e, _, b) =>
      let t : Token := { kind := kind, payload := payload, par := par, tag := 0 }
      if b.getLsbD 24 || !e.mp.isOpen then .next s
      else if bits b 23 15 ≠ s.plant.modNum then
        .next ((s.mapPort rid row (fun m => m.queue seqNo t)).emitCircuit rid row 64)
      else match s.host.circuits.find? (fun c => c.part == r.site.part && c.circ == bits b 11 0 && c.die == r.die &&
          c.seqNo == seqNo && c.tok == t) with
        | none => .next s
        | some c =>
          let s := { s with host := { s.host with circuits := s.host.circuits.erase c } }
          .next ((s.mapPort rid row (fun m => m.queue seqNo t)).emitCircuit rid row 64)

/-- A circuit's credit comes back to the send port of a row from another module (R444). -/
def State.creditPort (s : State) (r : Region) (row : Nat) : State :=
  match r.circuitAt row with
  | some (_, _, b) => if b.getLsbD 24 && bits b 23 15 != s.plant.modNum then
      s.mapPort r.rid row (fun m => { m with credits := min (m.credits + 1) 64 }) else s
  | none => s

/-- CREDIT_RETURN: a freed slot's credit reaches the producer of an arc (R197). Numbers beyond the arcs name the circuit
ports of the rows, whose credits return in the same way (R444). -/
def execCreditReturn (rid arc : Nat) (s : State) : Out :=
  match s.region? rid with
  | none => .next s
  | some r =>
    match r.arcs[arc]? with
    | none => .next (s.creditPort r (arc - r.arcs.length))
    | some a =>
      if a.inReturn = 0 then .next s
      else .next (s.setRegion { r with arcs := r.arcs.set arc { a with inReturn := a.inReturn - 1 } })

/-- CIRCUIT_OTHER_END_LOST (R444): the other end of an open circuit was FAULTED or freed before DONE was emitted. -/
def execCircuitOtherEndLost (rid row : Nat) (s : State) : Out :=
  match s.region? rid with
  | none => .next s
  | some r => match r.circuitAt row with
    | none => .next s
    | some (e, f, b) =>
      if !(s.runs r) || !e.mp.isOpen || circuitClosed e b || r.phase == .frozen || r.hasFaulted e then .next s
      else if bits b 23 15 = s.plant.modNum ∧ s.endLives r b then .next s
      else .next (s.meetFault r e f { cause := 5, detail := b })

end Sys2Proof.Machine
end

