-- ==== Sys2Proof/Machine/System.lean ====
section
/-! DEFINITION. Control registers, traps taken by instruction, and TLB invalidation (R37, R95, R96, R190 to R193). -/
namespace Sys2Proof.Machine

/-- A control register as CTLR reads it (R95). -/
def State.ctlRead (s : State) (i : Nat) : Word :=
  let c := s.self.ctl
  match i with
  | 0x000 => c.stat
  | 0x001 => w64 s.self.sidNat
  | 0x002 => s.plant.time
  | 0x003 => w64 s.cycle
  | 0x004 => c.frm.zeroExtend 64
  | 0x005 => c.fflags.zeroExtend 64
  | 0x006 => c.tblnan.zeroExtend 64
  | 0x007 => c.felim
  | 0x008 => w64 s.self.id.part
  | 0x100 => c.tvec
  | 0x101 => c.tpc
  | 0x102 => c.tcause
  | 0x103 => c.tinfo0
  | 0x104 => c.tinfo1
  | 0x105 => c.tinfo2
  | 0x106 => c.tinfo3
  | 0x107 => c.asid.zeroExtend 64
  | 0x108 => c.ptb
  | 0x109 => c.spbase
  | 0x10A => c.splim
  | 0x10B => c.swbase
  | 0x10C => c.swlim
  | 0x10D => w64 (s.tcmLim s.self.id.die s.self.id.cluster s.self.id.core)
  | _ => 0#64

/-- CTLR (R96): an unlisted index is ILL; a register that R95 marks "—" for U is PRIV in U mode. -/
def execCtlr (d : BitVec 6) (i : BitVec 12) (s : State) : Out :=
  let n := i.toNat
  let w := insWord (.ctlr d i)
  if !ctlListed n then .next (s.trap (illDecode w 0#32))
  else if 0x100 ≤ n ∧ !s.self.ctl.sMode then .next (s.trap (privTrap w n))
  else s.put d (s.ctlRead n)

/-- What a CTLW does. -/
inductive CtlWrite where
  | ill | priv | illValue | ok (c : Ctl)
deriving DecidableEq, Repr

/-- STAT with the fields that S mode writes (R37). -/
def Ctl.writeStat (c : Ctl) (x : Word) : Ctl :=
  { c with sMode := x.getLsbD 0, itr := x.getLsbD 2, pmode := x.getLsbD 3, split := c.split && !(x.getLsbD 6) }

/-- STAT without its field SPLIT. -/
def Ctl.statRest (c : Ctl) : Word := { c with split := false }.stat

/-- A write of a control register in the mode the strand has (R37, R74, R95, R96, R365). -/
def Ctl.write (c : Ctl) (i : Nat) (x : Word) : CtlWrite :=
  match i with
  | 0x000 =>
    if c.sMode then (if 2 ≤ bits x 1 0 then .illValue else .ok (c.writeStat x))
    else if x &&& ~~~(0x40#64) = c.statRest then .ok { c with split := c.split && !(x.getLsbD 6) } else .priv
  | 0x004 => if 5 ≤ bits x 2 0 then .illValue else .ok { c with frm := x.truncate 3 }
  | 0x005 => .ok { c with fflags := x.truncate 5 }
  | 0x006 => .ok { c with tblnan := x.truncate 15 }
  | 0x007 => if c.sMode then .ok { c with felim := x } else .priv
  | 0x100 => if c.sMode then .ok { c with tvec := w64 (bits x 63 2 * 4) } else .priv
  | 0x101 => if c.sMode then .ok { c with tpc := x } else .priv
  | 0x102 => if c.sMode then .ok { c with tcause := x } else .priv
  | 0x103 => if c.sMode then .ok { c with tinfo0 := x } else .priv
  | 0x104 => if c.sMode then .ok { c with tinfo1 := x } else .priv
  | 0x105 => if c.sMode then .ok { c with tinfo2 := x } else .priv
  | 0x106 => if c.sMode then .ok { c with tinfo3 := x } else .priv
  | i => if 0x107 ≤ i ∧ i ≤ 0x10D ∧ !c.sMode then .priv else .ill

def execCtlw (a : BitVec 6) (i : BitVec 12) (s : State) : Out :=
  let w := insWord (.ctlw a i)
  match s.self.ctl.write i.toNat (s.getG a) with
  | .ill => .next (s.trap (illDecode w 0#32))
  | .priv => .next (s.trap (privTrap w i.toNat))
  | .illValue => .next (s.trap (illRun (s.getG a) w))
  | .ok c => .next (s.setCtl c).adv

/-! ## TRAP, ERET, BRK, HALT (R190, R191) -/

/-- TRAP: TPC receives the address of the next instruction, TINFO0 the code. -/
def execTrap (c : BitVec 6) (s : State) : Out :=
  .next (s.enterTrap (s.self.pc + 4#64) { cause := 16, info0 := w64 c.toNat })
def execBrk (s : State) : Out := .next (s.enterTrap (s.self.pc + 4#64) { cause := 15 })
def execEret (s : State) : Out := .next (s.privileged (insWord .eret) State.returnFromTrap)
def execHalt (s : State) : Out := .next (s.privileged (insWord .halt) (fun s => s.stop 2 0 s.self.pc 0#64))

/-! ## TLBI (R193, R408) -/

/-- A TLBI issued: it completes when the TLBs of its scope have dropped the entries, and the strand is not ready before.
The forms are 0 page, 1 ASID, 2 partition. -/
def State.tlbi (s : State) (scope form : Nat) (x : Word) : State :=
  { s with self := { s.self with waits := { s.self.waits with tlbi := some (scope, form, x) } } }.adv

def execTlbiPage (a : BitVec 6) (c : BitVec 3) (s : State) : Out :=
  .next (s.privileged (insWord (.tlbiPage a c)) (fun s => s.tlbi c.toNat 0 (s.getG a)))
def execTlbiAsid (a : BitVec 6) (c : BitVec 3) (s : State) : Out :=
  .next (s.privileged (insWord (.tlbiAsid a c)) (fun s =>
    let p := s.part s.self.id.part
    let n := bits (s.getG a) 8 0
    if p.asidBase ≤ n ∧ n < p.asidBase + p.asidCnt then s.tlbi c.toNat 1 (s.getG a)
    else s.trap (protTrap (s.getG a) 7)))
def execTlbiPart (c : BitVec 3) (s : State) : Out :=
  .next (s.privileged (insWord (.tlbiPart c)) (fun s => s.tlbi c.toNat 2 0#64))

end Sys2Proof.Machine
end

