-- ==== Sys2Proof/Machine/Issue.lean ====
section
/-! DEFINITION. A core's turn up to the instruction: which strand is ready, its fetch, and the deferred trap that comes
before the next instruction (R14, R19, R97, R100, R333, R334). -/
namespace Sys2Proof.Machine

/-! ## Readiness (R14) -/

/-- The registers that an instruction reads (R14, R122). A masked form also keeps lanes of its destination. -/
def sources : Instr → List BusyMark
  | .add _ a b _ => [.g a, .g b]
  | .addN _ a b _ => [.g a, .g b]
  | .sub _ a b _ => [.g a, .g b]
  | .subN _ a b _ => [.g a, .g b]
  | .mul _ a b _ => [.g a, .g b]
  | .mulN _ a b _ => [.g a, .g b]
  | .mulh _ a b _ => [.g a, .g b]
  | .mulhN _ a b _ => [.g a, .g b]
  | .div _ a b _ => [.g a, .g b]
  | .divN _ a b _ => [.g a, .g b]
  | .rem _ a b _ => [.g a, .g b]
  | .remN _ a b _ => [.g a, .g b]
  | .and _ a b => [.g a, .g b]
  | .or _ a b => [.g a, .g b]
  | .xor _ a b => [.g a, .g b]
  | .andn _ a b => [.g a, .g b]
  | .shl _ a b _ => [.g a, .g b]
  | .shr _ a b _ => [.g a, .g b]
  | .sha _ a b _ => [.g a, .g b]
  | .ror _ a b _ => [.g a, .g b]
  | .shlImm _ a _ _ => [.g a]
  | .shrImm _ a _ _ => [.g a]
  | .shaImm _ a _ _ => [.g a]
  | .rorImm _ a _ _ => [.g a]
  | .clz _ a _ => [.g a]
  | .ctz _ a _ => [.g a]
  | .popc _ a _ => [.g a]
  | .brev _ a _ => [.g a]
  | .bswp _ a _ => [.g a]
  | .min _ a b _ => [.g a, .g b]
  | .minN _ a b _ => [.g a, .g b]
  | .max _ a b _ => [.g a, .g b]
  | .maxN _ a b _ => [.g a, .g b]
  | .sel d a b => [.g d, .g a, .g b]
  | .shadd1 _ a b _ => [.g a, .g b]
  | .shadd2 _ a b _ => [.g a, .g b]
  | .shadd3 _ a b _ => [.g a, .g b]
  | .shadd4 _ a b _ => [.g a, .g b]
  | .cmpEq _ a b _ => [.g a, .g b]
  | .cmpNe _ a b _ => [.g a, .g b]
  | .cmpLt _ a b _ => [.g a, .g b]
  | .cmpGe _ a b _ => [.g a, .g b]
  | .cmpLtn _ a b _ => [.g a, .g b]
  | .cmpGen _ a b _ => [.g a, .g b]
  | .addImm _ a _ => [.g a]
  | .addWImm _ a _ => [.g a]
  | .mulImm _ a _ => [.g a]
  | .andImm _ a _ => [.g a]
  | .orImm _ a _ => [.g a]
  | .xorImm _ a _ => [.g a]
  | .bfx _ a _ _ => [.g a]
  | .bfxN _ a _ _ => [.g a]
  | .bfi d a _ _ => [.g d, .g a]
  | .hmix _ a b _ => [.g a, .g b]
  | .movhi d _ => [.g d]
  | .bCond _ a b _ => [.g a, .g b]
  | .jr a => [.g a]
  | .callr a => [.g a]
  | .fadd _ a b _ _ => [.g a, .g b]
  | .fsub _ a b _ _ => [.g a, .g b]
  | .fmul _ a b _ _ => [.g a, .g b]
  | .fdiv _ a b _ _ => [.g a, .g b]
  | .fsqrt _ a _ _ => [.g a]
  | .fmaFma d a b _ _ => [.g d, .g a, .g b]
  | .fmaFms d a b _ _ => [.g d, .g a, .g b]
  | .fmaFnma d a b _ _ => [.g d, .g a, .g b]
  | .fmin _ a b _ => [.g a, .g b]
  | .fmax _ a b _ => [.g a, .g b]
  | .fcmp _ a b _ _ => [.g a, .g b]
  | .fcls _ a _ => [.g a]
  | .fmvCp _ a _ => [.g a]
  | .fmvNeg _ a _ => [.g a]
  | .fmvAbs _ a _ => [.g a]
  | .fmvSgn _ a b _ => [.g a, .g b]
  | .fcvt _ a _ _ _ _ => [.g a]
  | .vadd d a b k => [.v d, .v a, .v b, .k k]
  | .vsub d a b k => [.v d, .v a, .v b, .k k]
  | .vmul d a b k => [.v d, .v a, .v b, .k k]
  | .vmin d a b k => [.v d, .v a, .v b, .k k]
  | .vminN d a b k => [.v d, .v a, .v b, .k k]
  | .vmax d a b k => [.v d, .v a, .v b, .k k]
  | .vmaxN d a b k => [.v d, .v a, .v b, .k k]
  | .vlogAnd d a b k => [.v d, .v a, .v b, .k k]
  | .vlogOr d a b k => [.v d, .v a, .v b, .k k]
  | .vlogXor d a b k => [.v d, .v a, .v b, .k k]
  | .vshShl d a b k => [.v d, .v a, .v b, .k k]
  | .vshShr d a b k => [.v d, .v a, .v b, .k k]
  | .vshSha d a b k => [.v d, .v a, .v b, .k k]
  | .vaddSat d a b k => [.v d, .v a, .v b, .k k]
  | .vaddNSat d a b k => [.v d, .v a, .v b, .k k]
  | .vsubSat d a b k => [.v d, .v a, .v b, .k k]
  | .vsubNSat d a b k => [.v d, .v a, .v b, .k k]
  | .vredSum _ a k => [.v a, .k k]
  | .vredMax _ a k => [.v a, .k k]
  | .vredMin _ a k => [.v a, .k k]
  | .vscan d a k => [.v d, .v a, .k k]
  | .vdot _ a b k => [.v a, .v b, .k k]
  | .vsel _ a b k => [.v a, .v b, .k k]
  | .vcmp _ a b k _ => [.v a, .v b, .k k]
  | .vaddS d a b k => [.v d, .v a, .v b, .k k]
  | .vsubS d a b k => [.v d, .v a, .v b, .k k]
  | .vmulS d a b k => [.v d, .v a, .v b, .k k]
  | .vfmaS d a b k => [.v d, .v a, .v b, .k k]
  | .vminS d a b k => [.v d, .v a, .v b, .k k]
  | .vmaxS d a b k => [.v d, .v a, .v b, .k k]
  | .vredSumS _ a k => [.v a, .k k]
  | .vredMaxS _ a k => [.v a, .k k]
  | .vredMinS _ a k => [.v a, .k k]
  | .vscanS d a k => [.v d, .v a, .k k]
  | .vdotS _ a b k => [.v a, .v b, .k k]
  | .vsfuRcp d a k => [.v d, .v a, .k k]
  | .vsfuRsq d a k => [.v d, .v a, .k k]
  | .vsfuEx2 d a k => [.v d, .v a, .k k]
  | .vsfuLg2 d a k => [.v d, .v a, .k k]
  | .vsfuTnh d a k => [.v d, .v a, .k k]
  | .vcmpS _ a b k _ => [.v a, .v b, .k k]
  | .vperm d a b k => [.v d, .v a, .v b, .k k]
  | .vsplat d a k => [.v d, .g a, .k k]
  | .vget _ a b => [.v a, .g b]
  | .vins d a b => [.v d, .g a, .g b]
  | .vcmpr d a k => [.v d, .v a, .k k]
  | .vexpd d a k => [.v d, .v a, .k k]
  | .vdec d a _ k => [.v d, .v a, .k k]
  | .venc d a _ k => [.v d, .v a, .k k]
  | .tblw a b => [.g a, .g b]
  | .tblr _ a => [.g a]
  | .kopAnd _ a b => [.k a, .k b]
  | .kopOr _ a b => [.k a, .k b]
  | .kopXor _ a b => [.k a, .k b]
  | .kopAndn _ a b => [.k a, .k b]
  | .kopSet _ a => [.g a]
  | .kopGet _ a => [.k a]
  | .kcnt _ a => [.k a]
  | .vcvt d a _ _ k _ _ => [.v d, .v a, .k k]
  | .ld _ a _ _ _ => [.g a]
  | .st s a _ _ => [.g s, .g a]
  | .vld _ a _ _ _ => [.g a]
  | .vst s a _ _ => [.v s, .g a]
  | .ldx _ a b _ _ => [.g a, .g b]
  | .stx s a b _ => [.g s, .g a, .g b]
  | .ldAcq _ a _ _ _ => [.g a]
  | .stRel s a _ _ => [.g s, .g a]
  | .vlds d a b k _ _ => [.v d, .g a, .g b, .k k]
  | .vsts s a b k _ => [.v s, .g a, .g b, .k k]
  | .vgth d a b k _ _ => [.v d, .g a, .v b, .k k]
  | .vsct s a b k _ => [.v s, .g a, .v b, .k k]
  | .pref a => [.g a]
  | .cwb a => [.g a]
  | .cinv a => [.g a]
  | .amoAdd _ a b _ _ => [.g a, .g b]
  | .amoAnd _ a b _ _ => [.g a, .g b]
  | .amoOr _ a b _ _ => [.g a, .g b]
  | .amoXor _ a b _ _ => [.g a, .g b]
  | .amoMin _ a b _ _ => [.g a, .g b]
  | .amoMax _ a b _ _ => [.g a, .g b]
  | .amoMinn _ a b _ _ => [.g a, .g b]
  | .amoMaxn _ a b _ _ => [.g a, .g b]
  | .amoSwp _ a b _ _ => [.g a, .g b]
  | .amoFadd _ a b _ _ => [.g a, .g b]
  | .acas d a b _ _ => [.g d, .g a, .g b]
  | .ldfe _ a _ => [.g a]
  | .ldff _ a _ => [.g a]
  | .stef s a _ => [.g s, .g a]
  | .stff s a _ => [.g s, .g a]
  | .feget _ a => [.g a]
  | .fesetEmpty a => [.g a]
  | .fesetFull a => [.g a]
  | .send a b => [.g a, .g b]
  | .sendv a b => [.g a, .v b]
  | .qbind _ a _ => [.g a]
  | .cpy d a b x => [.g d, .g a, .g b, .g x]
  | .cpy2 d a b x => [.g d, .g a, .g b, .g (b + 1), .g (b + 2), .g (b + 3), .g x]
  | .bwait a => [.g a]
  | .serve _ a _ n => (List.range n.toNat).map (fun i => .g (a + BitVec.ofNat 6 i))
  | .frld _ a b => [.g a, .g b]
  | .frbind d a b => [.g d, .g a, .g b]
  | .frgo a => [.g a]
  | .frbar a => [.g a]
  | .frwait a => [.g a]
  | .argw d a b => [.g d, .g a, .g b]
  | .spawnCore a b => [.g a, .g b]
  | .spawnCluster a b => [.g a, .g b]
  | .spawnNamed d a b => [.g d, .g a, .g b]
  | .spawnDie a b => [.g a, .g b]
  | .twait a => [.g a]
  | .csus a b => [.g a, .g b, .g (b + 1), .g (b + 2), .g (b + 3)]
  | .cfrc a => [.g a]
  | .cfil n a b => .g a :: (List.range n.toNat).map (fun i => .g (b + BitVec.ofNat 6 i))
  | .ccan a => [.g a]
  | .ccanP a => [.g a]
  | .ctag _ a => [.g a]
  | .ctlr _ i => if i = 5#12 then [.flags] else []
  | .ctlw a _ => [.g a]
  | .tlbiPage a _ => [.g a]
  | .tlbiAsid a _ => [.g a]
  | _ => []

/-- The major opcode of an instruction. -/
def opcode (i : Instr) : Nat := (insWord i).toNat / 2 ^ 26

/-- Instructions of the vector and special-function pipes (R120, R448). -/
def onVectorPipe (i : Instr) : Bool := decide (0x15 ≤ opcode i) && decide (opcode i ≤ 0x18)

/-- Instructions of the vector pipe that a gang issues once, in the leader's turn (R144). -/
def onceInGang : Instr → Bool
  | .tblw .. => true | .tblr .. => true | .gang => true | .split => true
  | _ => false

/-- Instructions that a gang issues in two cycles (R32, R144): vector, special function and vector memory. -/
def twoCycles (i : Instr) : Bool :=
  (onVectorPipe i && !(onceInGang i)) || opcode i == 0x1B || opcode i == 0x1C || opcode i == 0x1E

/-- CPY and CPY2. -/
def issuesCopy : Instr → Bool
  | .cpy .. => true | .cpy2 .. => true
  | _ => false

/-! ## Fetch (R97, R100) -/

/-- How the fetch of a word ends. -/
inductive Fetched where
  | have (w : BitVec 32) | miss | trap (r : TrapRec)
deriving DecidableEq, Repr

/-- A fetch of the word at an address by a strand: its space and alignment, its translation in the TLBs, the permission,
an error mark, and the word. A word of another module's page must have been asked for (R53). -/
def State.fetchAt (s : State) (t : Strand) (a : Word) : Fetched :=
  let x := t.site
  match s.space x .globalOnly a 4 with
  | .error r => .trap (protTrap a r)
  | .ok _ =>
    if a.toNat % 4 ≠ 0 then .trap (alignTrap a)
    else match x.tlbs.findSome? (fun h => s.m.tlb.find? (fun e =>
        e.holder == h && !e.stale && e.covers x.part x.asid a.toNat)) with
    | none => .miss
    | some e =>
      if !(e.permits .fetch x.sMode) then .trap (protTrap a 3)
      else
        let pa := e.pbase + (a.toNat - e.vbase)
        if paModule pa ≠ s.plant.modNum then
          match t.waits.fetched.find? (fun w => w.1 == pa) with
          | some w => .have (w.2.truncate 32)
          | none => .miss
        else if s.isPoisoned pa then .trap (poisonedTrap a 0 true)
        else .have (BitVec.ofNat 32 (s.rdKey x.part e.key pa 4))

/-- A strand's next instruction as bytes: one word, or the two of an L-format pair (R97). -/
inductive Code where
  | have (w w2 : BitVec 32) | miss (at' : Word) | trap (r : TrapRec)
deriving DecidableEq, Repr

/-- Fetching a strand's next instruction. -/
def State.codeOf (s : State) (t : Strand) : Code :=
  match s.fetchAt t t.pc with
  | .trap r => .trap r
  | .miss => .miss t.pc
  | .have w =>
    if isPair w then match s.fetchAt t (t.pc + 4#64) with
      | .trap r => .trap r
      | .miss => .miss (t.pc + 4#64)
      | .have w2 => .have w w2
    else .have w 0#32

/-- What holds back an instruction that has been fetched (R14). -/
def State.heldBack (s : State) (t : Strand) (i : Instr) : Bool :=
  (sources i).any (fun r => r != .g 0#6 && t.waits.busy.any (fun l => l.contains r))
    || (onVectorPipe i && s.pipeHeld t.id.die t.id.cluster)
    || (issuesCopy i && decide (16 ≤ (s.copySlots t.id.uid).length))

/-- No part of the instruction at the strand's pc has been performed: no request to another module, remote atomic, cell step or
store, and no injected packet. -/
def Strand.between (t : Strand) : Bool :=
  t.waits.remote.isNone && t.waits.answers.all Answer.isRead && !(t.parkedFor .serve && t.park.injected)

/-- The partner of a gang's member: the follower of a leader, the leader of a follower. -/
def State.gangMate (s : State) (t : Strand) : Option Strand :=
  if t.ctl.glead then s.all.find? (fun x => x.st == .frozen && x.inSlot t.id.die t.id.cluster t.id.core (t.id.slot + 1))
  else if t.st = .frozen then s.all.find? (fun x => x.ctl.glead && x.onCore t.id.die t.id.cluster t.id.core &&
    x.id.slot + 1 == t.id.slot)
  else none

/-- The strand stands at an instruction boundary, or at an instruction that has had no effect yet, where it can be saved
(R29): not while it waits for a request to another module, after a remote atomic, cell step or store of the present
instruction, before its TLBI has completed, or parked on SERVE with its packet injected. -/
def Strand.savable (t : Strand) : Bool :=
  t.resident && t.between && t.waits.tlbi.isNone

/-- An ACTIVE strand is ready (R14). It is not while the access at its pc waits for its home slices (`holds`), for an answer of
another module (`remote`, log entry 29), or once a save asked for can be made (R385). A strand whose fetch fails, or
whose word is no instruction, takes its turn to trap; so does one with a deferred trap that it can take. -/
def State.ready (s : State) (t : Strand) : Bool :=
  t.st == .active && !t.waits.fetchMiss && t.waits.tlbi.isNone && t.waits.remote.isNone &&
  t.waits.holds.all (s.holdOver t.site) && !(t.waits.saving && t.savable) &&
  match s.codeOf t with
  | .have w w2 => match decode w w2 with
    | .ok i => !(s.heldBack t i)
    | .error _ => true
  | _ => true

/-! ## Deferred traps (R333, R334) -/

/-- A strand may take a deferred trap now: it stands at a boundary, no part of its next instruction has been performed at
another module, and no trap is in progress. -/
def Strand.canDefer (t : Strand) : Bool :=
  !t.waits.deferred.isEmpty && !t.ctl.itr && t.between &&
  (t.st == .active || t.st == .frozen || (t.st == .parked && t.park.reason != .stopped))

/-- It may take one in its gang: a follower's trap waits for the boundary of the gang, which its leader tells (R334). -/
def State.canDefer (s : State) (t : Strand) : Bool :=
  t.canDefer && (t.st != .frozen || (s.gangMate t).all Strand.between)

/-- The follower's gang ends before it takes a trap of its own: seen from the follower in the seat (R33, R334). -/
def State.leaveGang (s : State) : State :=
  let t := s.self
  let fix (x : Strand) : Strand :=
    if x.ctl.glead && x.onCore t.id.die t.id.cluster t.id.core && x.id.slot + 1 == t.id.slot then
      { x with ctl := { x.ctl with ganged := false, glead := false } } else x
  if t.st = .frozen then
    let me := { t with st := .active, ctl := { t.ctl with ganged := false, glead := false, split := true } }
    { s with self := me, others := s.others.map fix }
  else s

/-- Packets of a strand that have not been injected are withdrawn, one that was poisoned before its injection too: its SERVE
re-executes (R16, R333). -/
def State.withdrawPackets (s : State) (uid : Nat) : State :=
  let l := s.work.packets.filter (fun p => !(p.caller == .strand uid && p.region.isNone))
  { s with work := { s.work with packets := l } }

/-- The seat takes its oldest pending deferred trap: TPC is the instruction that would issue next, or the parking
instruction. A wait on a cell is given up (R306), and a packet not yet injected is withdrawn (R333). -/
def State.takeDeferred (s : State) : State :=
  match s.self.waits.deferred with
  | [] => s
  | d :: rest =>
    let s := ((s.leaveCell s.self).withdrawPackets s.self.id.uid).leaveGang
    let s := { s with self := { s.self with waits := { s.self.waits with deferred := rest, sending := none } } }
    let copies := s.work.copies.filter (fun c => !(d.isCopy && c.cid == d.who))
    let s := { s with work := { s.work with copies := copies } }
    let s := s.enterTrap s.self.pc default
    s.setCtl { s.self.ctl with tcause := d.tcause, tinfo0 := d.tinfo0, tinfo1 := d.tinfo1
                               tinfo2 := d.tinfo2, tinfo3 := d.tinfo3 }

/-- The strand that has a deferred trap to take when the seat is at a boundary: the seat, or its gang's follower. -/
def State.deferTaker (s : State) : Option Nat :=
  if s.canDefer s.self then some s.self.id.uid
  else match s.follower with
    | some t => if s.canDefer t then some t.id.uid else none
    | none => none

/-- What the seat does at its boundary when no deferred trap is to be taken there: one that can be taken comes first, and no precise
trap arises at the same boundary (R334). -/
def State.unlessDeferred (s : State) (f : State → State) : State :=
  match s.deferTaker with
  | some u => (s.seat u).takeDeferred
  | none => f s

/-! ## The rotation (R19) -/

/-- The strand in a slot. -/
def State.inSlot? (s : State) (die cluster core slot : Nat) : Option Strand :=
  s.all.find? (fun t => t.inSlot die cluster core slot)

/-- The slot that a core's search chooses in this cycle. Only a slot that issued in the cycle before is passed over. -/
def State.choose (s : State) (c : Core) : Option Strand :=
  let just := match c.lastAt with
    | some n => decide (s.cycle ≤ n + 1)
    | none => false
  (List.range 8).findSome? (fun i =>
    let slot := (c.last + 1 + i) % 8
    match s.inSlot? c.die c.cluster c.core slot with
    | some t => if s.ready t && !(just && slot == c.last) then some t else none
    | none => none)

/-- The core has issued in this cycle. -/
def Core.spent (c : Core) (now : Nat) : Bool := match c.lastAt with
  | some n => decide (now ≤ n)
  | none => false

/-- The core's present cycle is reserved for the second half of a gang's instruction. -/
def Core.reserved (c : Core) (now : Nat) : Option Nat := match c.second, c.lastAt with
  | some k, some n => if now = n + 1 then some k else none
  | _, _ => none

/-- The core has issued from a slot in this cycle; `second` is the gang slot whose half follows. -/
def State.issued (s : State) (c : Core) (slot : Nat) (second : Option Nat) : State :=
  s.setCore { c with last := slot, lastAt := some s.cycle, second := second }

end Sys2Proof.Machine
end

