-- ==== Sys2Proof/Machine/Strands.lean ====
section
/-! DEFINITION. What happens to strands between instructions: results land, parks end or expire, slots are filled and
vacated, TLBs are purged (R15 to R29, R122, R184, R303, R384, R385, R394, R395, R408, R460). -/
namespace Sys2Proof.Machine

/-! ## Results, wakes and limits -/

/-- The oldest result in flight lands; the register it was for has its value already. -/
def execResultLands (uid : Nat) (s : State) : Out :=
  .next (s.mapStrand uid (fun t => { t with waits := { t.waits with busy := t.waits.busy.drop 1 } }))

/-- The condition of a park has become true (R18): whoever brought it about has told the waiter. -/
def Strand.wakeReady (t : Strand) : Bool := t.st == .parked && t.park.woken

/-- A parked strand becomes ACTIVE; its pc is the parking instruction, which replays (R15, R39). -/
def execStrandWake (uid : Nat) (s : State) : Out := .next (s.onStrand uid Strand.wakeReady State.unpark)

/-- A park that is limited by FELIM (R16, R17). -/
def Reason.limited (r : Reason) : Bool := r == .fe || r == .qrecv || r == .bwait || r == .gang

/-- FELIM has run out (R17). -/
def State.felimOut (s : State) (t : Strand) : Bool :=
  t.st == .parked && t.park.reason.limited && !t.park.woken && t.ctl.felim != 0#64 &&
    decide (t.ctl.felim.toNat < s.cycle - t.park.since)

def execFewaitExpiry (uid : Nat) (s : State) : Out :=
  .next (s.onStrand uid s.felimOut (fun s => s.unlessDeferred (fun s =>
    s.trap { cause := 6, info0 := s.self.park.operand, info1 := w64 s.self.park.reason.code })))

/-- The deadline of a TWAIT has come (R184): it completes when it replays. -/
def execTwaitDeadline (uid : Nat) (s : State) : Out :=
  .next (s.onStrand uid (fun t => t.parkedFor .time && decide (t.park.operand.toNat ≤ s.plant.time.toNat)) State.unpark)

/-- The cell-wait limit of a strand's partition has run out (R303). -/
def State.cellOut (s : State) (t : Strand) : Bool :=
  t.parkedFor .cell && !t.park.woken && (s.part t.id.part).cellWait != 0 &&
    decide ((s.part t.id.part).cellWait < s.cycle - t.park.since)

def execCelltmoExpiry (uid : Nat) (s : State) : Out :=
  .next (s.onStrand uid s.cellOut (fun s => s.unlessDeferred (fun s =>
    let chain := match s.self.park.far with
      | some (_, c) => c
      | none => s.chainOf s.self.park.loc
    (s.leaveCell s.self).trap { cause := 11, info0 := s.self.park.operand, info1 := w64 chain })))

/-- A deferred trap at the strand's boundary (R333, R334). -/
def execDeferredTrap (uid : Nat) (s : State) : Out := .next (s.onStrand uid s.canDefer State.takeDeferred)

/-- A parity error in a strand's register file stops it as a double trap does (R460). -/
def execRegisterParityError (uid : Nat) (s : State) : Out :=
  .next (s.onStrand uid (fun t => t.st == .active) (fun s => let s := s.endGang; s.stop 1 12 s.self.pc 0#64))

/-- A word that is no instruction raises a precise ILL at issue (R100); `w2` is the second word of an L-format pair. -/
def execIllegalInstruction (w w2 : BitVec 32) (s : State) : Out := .next (s.trap (illDecode w (if isPair w then w2 else 0#32)))

/-- A fetch that missed ends (R14, R100): the page has come into the TLBs, the strand parks with reason PAGE at the
instruction, or it takes PROT there. A word of another module is asked for (R53). -/
def State.fetchDone (s : State) : State :=
  let s := { s with self := { s.self with waits := { s.self.waits with fetchMiss := false } } }
  match s.codeOf s.self with
  | .miss a => match s.translate s.self.site s.self.site.tlbs a.toNat with
    | (.absent, s) => s.pageFault a 0 Acc.fetch.kinds
    | (.bad, s) => s.trap (protTrap a 3)
    | (.hit e, s) =>
      let pa := e.pbase + (a.toNat - e.vbase)
      let place : Place := { loc := pa, glob := true, cpage := e.c, remote := true }
      if e.permits .fetch s.self.ctl.sMode && paModule pa != s.plant.modNum then
        if s.linkAdmits s.self.id.part s.self.id.die pa then
          let old := if a = s.self.pc then [] else s.self.waits.fetched
          { s with self := { s.self with waits := { s.self.waits with fetched := old } } }.askWait 18 4 (0, a, place) 0#512 0#64
        else s.holdFor [.link pa]
      else s
  | _ => s

def execInstructionFetch (uid : Nat) (s : State) : Out :=
  .next (s.onStrand uid (fun t => t.st == .active && t.waits.fetchMiss && t.waits.remote.isNone) (fun s => s.unlessDeferred State.fetchDone))

/-! ## TLBI (R193, R408, R419) -/

/-- A TLB lies in the scope of a TLBI from a core: scopes 0 STRAND, 1 CORE, 2 CLUSTER, 3 DIE, 4 MODULE, 5 DOMAIN. -/
def TlbHolder.inScope (h : TlbHolder) (x : StrandId) (scope : Nat) : Bool :=
  match h with
  | .l1 d c k => decide (4 ≤ scope) || (d == x.die && (scope == 3 || (c == x.cluster && (scope == 2 || k == x.core))))
  | .l2 d c => decide (4 ≤ scope) || (d == x.die && (scope == 3 || c == x.cluster))
  | .engine d _ => decide (4 ≤ scope) || (d == x.die && decide (2 ≤ scope))

/-- The entry is of the page, ASID or partition that the TLBI names. -/
def TlbEntry.named (e : TlbEntry) (part asid form : Nat) (x : Word) : Bool :=
  e.part == part &&
  (if form = 0 then e.covers part asid x.toNat else if form = 1 then e.asid == some (bits x 8 0) else true)

/-- Matching entries dropped; the pinned ones are marked stale instead (R410). -/
def State.tlbDrop (s : State) (p : TlbEntry → Bool) : State :=
  let l := s.m.tlb.filterMap (fun e => if p e then (if e.pin.isSome then some { e with stale := true } else none) else some e)
  { s with m := { s.m with tlb := l } }

/-- Remote accesses of the partition that this module has still outstanding. -/
def State.partRemote (s : State) (part : Nat) : Bool := s.host.outstanding.any (fun o => o.part == part)

/-- The entries that a strand's TLBI drops, or marks stale. -/
def Strand.drops (t : Strand) (scope form : Nat) (x : Word) (e : TlbEntry) : Bool :=
  e.holder.inScope t.id scope && e.named t.id.part t.ctl.asid.toNat form x

/-- An access that may have translated through an entry to be dropped has not been performed (R408): a request to another
module, or a store that a served memory port holds. -/
def State.translated (s : State) (part : Nat) (p : TlbEntry → Bool) : Bool :=
  let via (h : TlbHolder → Bool) (va : Nat) : Bool :=
    s.m.tlb.any (fun e => p e && e.pin.isNone && h e.holder && decide (e.vbase ≤ va) && decide (va < e.vbase + e.size))
  s.host.outstanding.any (fun o => o.part == part && via (fun _ => true) o.va.toNat) ||
    s.work.regions.any (fun r => r.site.part == part && r.image.served && r.elems.any (fun e => e.mp.win0.any (fun b =>
      b.glob && via (fun h => h == .l2 r.die r.cluster) b.addr.toNat)))

/-- What a TLBI waits for (R408, R419). -/
def State.tlbiWaits (s : State) (t : Strand) (scope form : Nat) (x : Word) : Bool :=
  s.unacked t.id.uid || (scope == 5 && s.partRemote t.id.part) || s.translated t.id.part (t.drops scope form x)

def execTlbiComplete (uid : Nat) (s : State) : Out :=
  match s.strand? uid with
  | none => .next s
  | some t => match t.waits.tlbi with
    | none => .next s
    | some (scope, form, x) =>
      if s.tlbiWaits t scope form x then .next s
      else .next ((s.tlbDrop (t.drops scope form x)).mapStrand uid (fun t => { t with waits := { t.waits with tlbi := none } }))

/-! ## Copies of a saved strand (R394) -/

/-- The copy touches the TCM of its strand's core: with its destination or barrier, and with its source, lest it reach the TCM of
another core (R394; log entry 135). -/
def Copy.inTcm (c : Copy) : Bool :=
  c.src.toNat / 2 ^ 60 == 0xC || c.dst.toNat / 2 ^ 60 == 0xC || (match c.bar with
    | some (a, _) => a.toNat / 2 ^ 60 == 0xC
    | none => false)

/-- The tail of a ring copy: that of its strand's ring while it is bound, else its own (R165). -/
def State.tailOf (s : State) (c : Copy) (q : Nat) (waits : Bool) (t : Nat) : Nat :=
  if waits then match s.strand? c.uid with
    | some x => (match x.ring q with
      | some r => r.tail
      | none => t)
    | none => t
  else t

/-- A ring copy waits for its next word to be EMPTY (R166). -/
def State.ringWaits (s : State) (c : Copy) : Bool := match c.ring with
  | some (q, loc, _, waits, t) => waits && s.isFull (loc + 8 * s.tailOf c q waits t)
  | none => false

/-- A burst of the copy is in flight (R394): it has writes at another module, has asked another module for its source, or has read
what it has not written. A ring copy has none at a word that is not EMPTY: no save waits for its strand to read it. -/
def State.inFlight (s : State) (c : Copy) : Bool :=
  !(s.ringWaits c) && (c.sent != 0 || !c.answers.isEmpty || !c.bytes.isEmpty || s.host.outstanding.any (fun o => o.copy == some c.cid))

/-! ## Saving a strand (R29, R34, R394) -/

/-- One strand's context leaves its slot for its save area, whose contents the model keeps in the strand itself. It
joins the tail of its cluster's spawn queue. -/
def State.saveOne (s : State) (uid order : Nat) : State :=
  let tcm := (s.copiesOf uid).any Copy.inTcm
  let s := ((s.quiesce uid true).onStrand uid (fun _ => true) (fun s => s.leaveCell s.self)).withdrawPackets uid
  let now := s.cycle
  match s.strand? uid with
  | none => s
  | some t =>
    ((s.liftSpills t.id.die t.id.cluster t.id.core).mapStrand uid (fun t =>
      let parked := t.st == .parked
      { t with st := .saved
               id := { t.id with copyBound := tcm, queuedAt := now, order := order }
               park := if parked then { t.park with woken := false, far := none, chase := none } else {}
               waits := { deferred := t.waits.deferred } })).laySpills t.id.die t.id.cluster t.id.core

/-- A strand saved, together with the other member of its gang: the leader first. -/
def State.saveStrand (s : State) (t : Strand) : State :=
  match s.gangMate t with
  | none => { s.saveOne t.id.uid s.fresh with fresh := s.fresh + 1 }
  | some m =>
    let (l, f) := if t.ctl.glead then (t, m) else (m, t)
    { (s.saveOne l.id.uid s.fresh).saveOne f.id.uid (s.fresh + 1) with fresh := s.fresh + 2 }

/-- A strand and its gang's other member can be saved now: each stands at a boundary, and no burst of a copy of theirs is on
its way to another module (step 2 of R394). -/
def State.canSave (s : State) (t : Strand) : Bool :=
  let ok (t : Strand) : Bool := t.savable && (s.copiesOf t.id.uid).all (fun c => !(s.inFlight c))
  ok t && (match s.gangMate t with
    | some m => ok m
    | none => true)

/-- STRAND_SAVE: a save that an agent asks for is made at the strand's boundary, at once where it stands at one, and is not
dropped otherwise (R29, R385). -/
def execStrandSave (uid : Nat) (s : State) : Out :=
  match s.strand? uid with
  | some t => .next (if s.canSave t then s.saveStrand t
      else s.mapStrand uid (fun t => if t.resident then { t with waits := { t.waits with saving := true } } else t))
  | none => .next s

/-! ## Placement (R11, R23, R24, R26, R27, R34, R384, R395) -/

/-- The strand stands in the spawn queue of a cluster. -/
def Strand.waitsIn (t : Strand) (die cluster : Nat) : Bool :=
  (t.st == .queued || t.st == .saved) && t.id.die == die && t.id.cluster == cluster

/-- The strand returns to one core only (R23, R27, R394). -/
def Strand.bound (t : Strand) : Bool := t.id.coreBound || t.id.copyBound

/-- A QUEUED or SAVED strand is bound to the core (R11). -/
def State.boundTo (s : State) (die cluster core : Nat) : Option Strand :=
  s.all.find? (fun t => t.waitsIn die cluster && t.bound && t.id.core == core)

/-- The SAVED follower of a SAVED leader (R34). -/
def State.savedFollower (s : State) (t : Strand) : Option Strand := s.all.find? t.savedPair

/-- The core may take an entry (R11): each of its strands that is bound to a core, a saved gang's follower with its leader,
is bound to this one (R27). -/
def State.coreTakes (s : State) (t : Strand) (core : Nat) : Bool :=
  let d := t.id.die
  let c := t.id.cluster
  (!t.bound || core == t.id.core) &&
  (match s.savedFollower t with
   | some f => !f.bound || core == f.id.core
   | none => true) &&
  (s.all.filter (fun x => x.onCore d c core)).all (fun x => x.id.part == t.id.part) &&
  (match s.boundTo d c core with
   | some b => (s.core d c core).lastPart != some b.id.part || b.id.part == t.id.part
   | none => true)

/-- A slot is free for a strand: nobody holds it, and it is not kept for another entry that still waits (R385). -/
def State.slotFree (s : State) (uid die cluster core slot : Nat) : Bool :=
  (s.inSlot? die cluster core slot).isNone &&
  (s.core die cluster core).kept.all (fun k => k.1 != slot || k.2 == uid ||
    !(s.all.any (fun x => x.id.uid == k.2 && x.waitsIn die cluster)))

/-- Strands that hold slots of a core. -/
def State.occupied (s : State) (die cluster core : Nat) : Nat := (s.all.filter (fun t => t.onCore die cluster core)).length

/-- The lowest free slot of a core that an entry may take; a gang takes slots 2k and 2k+1. -/
def State.slotFor (s : State) (t : Strand) (pair : Bool) (core : Nat) : Option Nat :=
  if !(s.coreTakes t core) then none
  else (List.range 8).find? (fun k => s.slotFree t.id.uid t.id.die t.id.cluster core k &&
    (!pair || (k % 2 == 0 && s.slotFree t.id.uid t.id.die t.id.cluster core (k + 1))))

/-- The SID that a strand has or receives on entering a position (R8, R26); none while all of the cluster's are held. -/
def State.sidFor (s : State) (t : Strand) (core slot : Nat) : Option (BitVec 16) :=
  match t.id.sid with
  | some x => some x
  | none =>
    let base := t.id.die * 2 ^ 13 + t.id.cluster * 2 ^ 7
    let free (n : Nat) : Bool := (s.bySid (BitVec.ofNat 16 (base + n))).isNone
    if free (core * 8 + slot) then some (BitVec.ofNat 16 (base + core * 8 + slot))
    else ((List.range 128).find? free).map (fun n => BitVec.ofNat 16 (base + n))

/-- The free slot that an entry takes: on the core with the fewest occupied slots, then the lowest number, that has one for
it; a failed cluster has none (R462). -/
def State.freeSlotFor (s : State) (t : Strand) : Option (Nat × Nat) :=
  if (s.cluster t.id.die t.id.cluster).failed then none
  else
    let pair := (s.savedFollower t).isSome
    let cands := (List.range 16).filterMap (fun k => (s.slotFor t pair k).map (fun f => (k, f)))
    let best (b : Nat × Nat) (x : Nat × Nat) : Nat × Nat :=
      if s.occupied t.id.die t.id.cluster x.1 < s.occupied t.id.die t.id.cluster b.1 then x else b
    match cands with
    | [] => none
    | c :: cs => some (cs.foldl best c)

/-- Where an entry is placed: the slot for it, while a SID is free for it too (R26). -/
def State.seatFor (s : State) (t : Strand) : Option (Nat × Nat) :=
  (s.freeSlotFor t).filter (fun p => (s.sidFor t p.1 p.2).isSome)

/-- Entries of a list that lie outside a range of locations. -/
def outside (lo n : Nat) (l : Nat) : Bool := decide (l < lo) || decide (lo + n ≤ l)

/-- Local storage written with zero, made FULL, and its error marks cleared (R59, R364). -/
def State.zeroLocal (s : State) (lo n : Nat) : State :=
  { s with m := { s.m with mem := s.m.mem.filter (fun c => outside lo n c.1)
                           empties := s.m.empties.filter (outside lo n)
                           poisoned := s.m.poisoned.filter (outside lo n) } }

/-- A core scrubbed (step 8 of R364): its TCM, its K8 table and its L1 TLB. -/
def State.scrubCore (s : State) (die cluster core : Nat) : State :=
  let s := s.zeroLocal (tcmLoc die cluster core 0) (2 ^ 16)
  let s := s.setCore { s.core die cluster core with table := none }
  { s with m := { s.m with tlb := s.m.tlb.filter (fun e => e.holder != .l1 die cluster core) } }

/-- The core passes to a partition: scrubbed when another had it. -/
def State.coreFor (s : State) (die cluster core part : Nat) : State :=
  let s := match (s.core die cluster core).lastPart with
    | some p => if p = part then s else s.scrubCore die cluster core
    | none => s
  s.setCore { s.core die cluster core with lastPart := some part }

/-- A ring in TCM names the TCM of the core where its strand runs (R27, R395). -/
def Ring.moved (r : Ring) (die cluster core : Nat) : Ring :=
  if r.base.toNat / 2 ^ 60 = 0xC then { r with loc := tcmLoc die cluster core (r.base.toNat % 2 ^ 16) } else r

/-- The rings of a strand on its core. -/
def Queues.moved (q : Queues) (die cluster core : Nat) : Queues :=
  let f (r : Ring) : Ring := r.moved die cluster core
  { q with q1 := q.q1.map f, q2 := q.q2.map f, q3 := q.q3.map f }

/-- The messages that wait for a pager carry its own SID as their sender (R413). -/
def Queues.addressed (q : Queues) (c : Context) (sid : Option (BitVec 16)) : Queues :=
  match c, sid with
  | .pager, some x => { q with q0 := q.q0.map (fun m => { m with sender := x }) }
  | _, _ => q

/-- An evaluator strand that enters a slot becomes the evaluator of its cell (R296, R298). -/
def State.evaluatorEnters (s : State) (uid : Nat) : State :=
  let fix (e : Eclosion) : Eclosion := if e.evaluator = .queued uid then { e with evaluator := .strand uid } else e
  { s with cells := { s.cells with eclosions := s.cells.eclosions.map fix } }

/-- A strand enters a slot. One that was stopped stays stopped; a gang's follower is FROZEN; any other park replays,
which is the instruction at the pc (R15, R395). -/
def State.enter (s : State) (t : Strand) (core slot : Nat) (frozen : Bool) : State :=
  let sid := s.sidFor t core slot
  let now := s.cycle
  let no := s.fresh
  let s := ({ s with fresh := s.fresh + 1 }.quiesce t.id.uid false).evaluatorEnters t.id.uid
  let s := s.mapStrand t.id.uid (fun t =>
    let stopped := t.st == .saved && t.park.reason == .stopped && t.park.operand != 0#64
    { t with st := if frozen then .frozen else if stopped then .parked else .active
             id := { t.id with sid := sid, core := core, slot := slot, enteredAt := now, entryNo := no }
             q := (t.q.moved t.id.die t.id.cluster core).addressed t.id.ctx sid
             park := if stopped then t.park else {} })
  match s.strand? t.id.uid with
  | some x => s.laySpill x
  | none => s

/-- Slots kept for an entry are kept no longer. -/
def State.unkeep (s : State) (uid : Nat) : State :=
  { s with cores := s.cores.map (fun c => { c with kept := c.kept.filter (fun k => k.2 != uid) }) }

/-- An entry placed at its seat. -/
def State.place (s : State) (t : Strand) (p : Nat × Nat) : State :=
  let f := s.savedFollower t
  let s := s.unkeep t.id.uid
  let s := (s.coreFor t.id.die t.id.cluster p.1 t.id.part).enter t p.1 p.2 false
  match f with
  | some x => s.enter x p.1 (p.2 + 1) true
  | none => s

/-- Spawn-queue entries of a cluster, oldest first; a saved follower waits with its leader. -/
def State.queueOf (s : State) (die cluster : Nat) : List Strand :=
  sortBy (fun t => t.id.order) (s.all.filter (fun t => t.waitsIn die cluster && !(s.all.any (fun l => l.savedPair t))))

def execStrandPlacement (die cluster : Nat) (s : State) : Out :=
  match (s.queueOf die cluster).findSome? (fun t => (s.seatFor t).map (fun p => (t, p))) with
  | some (t, p) => .next (s.place t p)
  | none => .next s

/-! ## Victims (R385) -/

/-- A resident strand that the scheduler may save for an entry: long enough in its slot and not parked on SERVE with its packet
injected. -/
def State.longEnough (s : State) (t : Strand) : Bool :=
  decide (t.id.enteredAt + 2 ^ 17 ≤ s.cycle) && !(t.parkedFor .serve && t.park.injected)

/-- `a` is taken before `b`: PARKED before ACTIVE, then the longest in its slot, then the lowest SID. -/
def beforeVictim (a b : Strand) : Bool :=
  let p (t : Strand) : Nat := if t.st = .parked then 0 else 1
  if p a != p b then decide (p a < p b)
  else if a.id.enteredAt != b.id.enteredAt then decide (a.id.enteredAt < b.id.enteredAt)
  else decide (a.sidNat ≤ b.sidNat)

/-- The slots that have been kept for an entry: core and slot. -/
def State.keptFor (s : State) (t : Strand) : List (Nat × Nat) :=
  (s.cores.filter (fun c => c.die == t.id.die && c.cluster == t.id.cluster)).flatMap
    (fun c => (c.kept.filter (fun k => k.2 == t.id.uid)).map (fun k => (c.core, k.1)))

/-- The slot is one that the entry seeks: of a gang for which a slot is kept already, the other slot of its pair. -/
def State.mayUse (s : State) (t : Strand) (core slot : Nat) : Bool :=
  match s.keptFor t with
  | [] => true
  | ks => ks.any (fun k => k.1 == core && k.2 / 2 == slot / 2)

/-- The victim of an entry (steps 1 and 2): of a gang with a slot kept, a candidate in the other slot of the pair where there is
one. -/
def State.victim (s : State) (t : Strand) : Option Strand :=
  let cands := s.all.filter (fun x => x.resident && x.id.die == t.id.die && x.id.cluster == t.id.cluster &&
    x.id.part == t.id.part && s.coreTakes t x.id.core && (x.st == .parked || x.st == .active) && s.longEnough x &&
    !((s.keptFor t).any (fun k => k.1 == x.id.core && k.2 == x.id.slot)))
  let pref := cands.filter (fun x => s.mayUse t x.id.core x.id.slot)
  match (if pref.isEmpty then cands else pref) with
  | [] => none
  | c :: cs => some (cs.foldl (fun b x => if beforeVictim b x then b else x) c)

/-- A core that may be vacated whole (step 3). -/
def State.vacatable (s : State) (die cluster core : Nat) : Bool :=
  let on := s.all.filter (fun x => x.onCore die cluster core)
  !on.isEmpty && on.all (fun x => s.longEnough x && !x.bound && !((s.copiesOf x.id.uid).any Copy.inTcm)) &&
    (s.boundTo die cluster core).isNone

/-- The core to vacate: the fewest occupied slots, then the lowest number. -/
def State.vacate? (s : State) (die cluster : Nat) : Option Nat :=
  match (List.range 16).filter (s.vacatable die cluster) with
  | [] => none
  | k :: ks => some (ks.foldl (fun b x => if s.occupied die cluster x < s.occupied die cluster b then x else b) k)

/-- Every strand of a core can be saved now. -/
def State.canVacate (s : State) (die cluster core : Nat) : Bool :=
  (s.all.filter (fun x => x.onCore die cluster core)).all s.canSave

/-- Every strand of a core saved. -/
def State.vacate (s : State) (die cluster core : Nat) : State :=
  (s.all.filter (fun x => x.onCore die cluster core)).foldl (fun s x =>
    match s.strand? x.id.uid with
    | some t => if t.resident then s.saveStrand t else s
    | none => s) s

/-- The slots of a victim and of the other member of its gang, which the entry takes (R385). -/
def State.keep (s : State) (uid : Nat) (v : Strand) : State :=
  let slots := v.id.slot :: (match s.gangMate v with
    | some m => [m.id.slot]
    | none => [])
  let c := s.core v.id.die v.id.cluster v.id.core
  s.setCore { c with kept := slots.map (fun k => (k, uid)) ++ c.kept }

/-- A waiting entry is placed when a seat has become free for it. -/
def State.placeIf (s : State) (uid : Nat) : State :=
  match s.strand? uid with
  | some t => (match s.seatFor t with
    | some p => s.place t p
    | none => s)
  | none => s

/-- The strand named is a spawn-queue entry (a saved follower waits with its leader, R34) that has waited 2^17 cycles while no slot it may use is free. The victim, or
a whole core, is saved, and the entry takes its place. A strand chosen that has not reached its boundary is waited for
(R29). -/
def execVictimPreempt (uid : Nat) (s : State) : Out :=
  match s.strand? uid with
  | none => .next s
  | some t =>
    if !(t.waitsIn t.id.die t.id.cluster) || s.all.any (fun l => l.savedPair t) || decide (s.cycle < t.id.queuedAt + 2 ^ 17) || (s.freeSlotFor t).isSome then .next s
    else match s.victim t with
      | some v => .next (if s.canSave v then ((s.keep uid v).saveStrand v).placeIf uid else s)
      | none =>
        if t.bound || (s.savedFollower t).any Strand.bound then .next s
        else match s.vacate? t.id.die t.id.cluster with
          | some k =>
            .next (if s.canVacate t.id.die t.id.cluster k then (s.vacate t.id.die t.id.cluster k).placeIf uid else s)
          | none => .next s

end Sys2Proof.Machine
end

