-- ==== Sys2Proof/Machine/Copies.lean ====
section
/-! DEFINITION. Copies as an engine performs them: bursts, ring words, bounces (R56, R61 to R66, R166, R168, R169, R336,
R396, R417, R439 to R441). -/
namespace Sys2Proof.Machine

/-! ## A copy's position -/

/-- A copy replaced. -/
def State.setCopy (s : State) (c : Copy) : State :=
  { s with work := { s.work with copies := s.work.copies.map (fun x => if x.cid = c.cid then c else x) } }

/-- A copy that has come to its end (R168); a strand bound to its core by copies is released with the last (R394). -/
def State.endCopy (s : State) (c : Copy) : State :=
  let s := { s with work := { s.work with copies := s.work.copies.filter (fun x => x.cid != c.cid) } }
  if (s.copiesOf c.uid).any Copy.inTcm then s
  else s.mapStrand c.uid (fun t => { t with id := { t.id with copyBound := false } })

/-- The copy after `n` more bytes have been delivered. -/
def Copy.advance (c : Copy) (n : Nat) : Copy :=
  let c := { c with answers := [], bytes := [], sent := 0, cut := 0 }
  if c.off + n < c.rowLen then { c with off := c.off + n }
  else { c with off := 0, rows := c.rows - 1, src := c.src + c.sstride, dst := c.dst + c.dstride }

/-- Bytes from an address to the end of its 4 KiB page; local spaces have no pages, and the bound does no harm there. -/
def pageRest (a : Word) : Nat := 4096 - a.toNat % 4096

/-- The next burst of a copy that is not a ring copy: up to 512 bytes from where the last ended, and to the ends of both pages (R168,
R396). A word that lies in two bursts is written in two parts, and neither makes it FULL (log entry 135). -/
def Copy.burst (c : Copy) : Nat :=
  min (min (if c.cut = 0 then 512 else c.cut) (c.rowLen - c.off)) (min (pageRest (c.src + w64 c.off)) (pageRest (c.dst + w64 c.off)))

/-- The barrier after `n` bytes have become visible (R63): its word less `n`, its bit unchanged. -/
def State.subtract (s : State) (bar : Option (Word × Nat)) (n : Nat) : State :=
  match bar with
  | none => s
  | some (_, l) => s.wrWake l (leBytes 8 ((BitVec.ofNat 64 (s.rd l 8)) - w64 n).toNat)

/-- `n` bytes of a copy have become visible: its barrier, its COPY budget, its position (R63, R393). -/
def State.delivered (s : State) (c : Copy) (n : Nat) : State :=
  let s := (s.subtract c.bar n).charge c.site.part c.site.die 4 n
  let c' := c.advance n
  if c'.rows = 0 then s.endCopy c else s.setCopy c'

/-! ## Bounces (R169, R336) -/

/-- TCAUSE of a COPYBNC. -/
def Copy.tcause (c : Copy) : Word :=
  let barrier : Nat := match c.bar with
    | none => 0
    | some (a, _) => 2 + 4 * b2n (a.toNat / 2 ^ 60 == 0xD) + 8 * (a.toNat % 2 ^ 21)
  ({ cause := 17, isDefer := true, arg := b2n c.is2 + barrier } : TrapRec).tcause

/-- The deferred trap of a bounced copy; `dst` is the next destination byte, or for a CPY2 the start of its row. -/
def Copy.record (c : Copy) (fault dst : Word) : Deferred :=
  { isCopy := true, who := c.cid, tcause := c.tcause, tinfo0 := fault
    tinfo1 := if c.is2 then c.src else c.src + w64 c.off
    tinfo2 := dst
    tinfo3 := w64 (if c.is2 then c.rows + 2 ^ 32 * c.off else c.rowLen - c.off) }

/-- The next destination byte of a copy. -/
def State.nextDst (s : State) (c : Copy) : Word :=
  match c.ring with
  | some (q, _, _, w, t) => c.dst + w64 (8 * s.tailOf c q w t)
  | none => if c.is2 then c.dst else c.dst + w64 c.off

/-- A copy bounces, on its source's or its destination's side: the remainder goes to its strand as a pending COPYBNC, or is counted as lost when it has retired. -/
def State.bounce (s : State) (c : Copy) (dstSide : Bool) (fault : Word) : State :=
  let d := c.record fault (s.nextDst c)
  match s.strand? c.uid with
  | some _ =>
    (s.setCopy { c with bounced := true, dstSide := dstSide, sent := 0, cut := 0, answers := [], bytes := [] }).mapStrand c.uid
      (fun t => { t with waits := { t.waits with deferred := t.waits.deferred ++ [d] } })
  | none => match c.site.ctx with
    | .launch die lid => (s.endCopy c).mapLaunch die lid (fun l => { l with lost := l.lost + 1 })
    | _ => s.endCopy c

/-! ## Where bytes come from and go to (R65, R66, R417) -/

/-- The location that a local address has for a site, resolved when the copy was issued (R66). -/
def Site.localLoc (x : Site) (a : Word) : Nat :=
  let n := a.toNat
  if n / 2 ^ 60 = 0xC then tcmLoc x.die x.cluster x.core (n % 2 ^ 16)
  else if n / 2 ^ 60 = 0xD then spLoc x.die x.cluster (x.spbase + n % 2 ^ 21)
  else if n / 2 ^ 60 = 0xE then
    meLoc x.die x.cluster (natBits n 59 58) (natBits n 57 55) (10 + natBits n 54 54) (n % 2 ^ 15)
  else swLoc x.die (x.swbase + n % 2 ^ 26)

/-- How one side of a burst is found. -/
inductive Side where
  | at (loc : Nat) (glob cpage remote : Bool)
  | bounce
deriving DecidableEq, Repr

/-- The place of one side of a burst of `n` bytes, within one page, through the TLB of copy engine `k` (R406), its lines shown
under the selector of the page. -/
def State.sideOf (s : State) (x : Site) (k : Nat) (a : Word) (n : Nat) (acc : Acc) : Side × State :=
  if a.toNat / 2 ^ 60 ≠ 0 then (.at (x.localLoc a) false false false, s)
  else match s.translate x [.engine x.die k] a.toNat with
    | (.hit e, s') =>
      let pa := e.pbase + (a.toNat - e.vbase)
      let remote := paModule pa != s.plant.modNum
      if e.permits acc x.sMode then (.at pa true e.c remote, if remote then s' else s'.useKeys x.part e.key pa n) else (.bounce, s')
    | (_, s') => (.bounce, s')

/-- The first byte of a range that a copy may not read: an error mark, or on a C page a cell that is not VALUE. -/
def State.srcStop (s : State) (l n : Nat) (cpage : Bool) : Option Nat :=
  match (unitsOf l n (eccUnit l)).find? s.isPoisoned with
  | some g => some (max g l)
  | none => if cpage then ((unitsOf l n 32).find? (fun g => s.tag g != .value)).map (max l) else none

/-- The first byte of a range that a copy may not write: a marked line that it does not cover, or on a C page a cell that
is not VALUE. -/
def State.dstStop (s : State) (l n : Nat) (cpage : Bool) : Option Nat :=
  match (unitsOf l n (eccUnit l)).find? (fun g => s.isPoisoned g && !(decide (l ≤ g) && decide (g + eccUnit g ≤ l + n))) with
  | some g => some (max g l)
  | none => if cpage then ((unitsOf l n 32).find? (fun g => s.tag g != .value)).map (max l) else none

/-- Bytes that a copy engine writes to local storage: each whole word becomes FULL and wakes its waiters (R56). -/
def State.copyLocal (s : State) (l : Nat) (bs : List Byte) : State :=
  let words := (unitsOf l bs.length 8).filter (fun w => decide (l ≤ w) && decide (w + 8 ≤ l + bs.length))
  let s := (s.wrWake l bs).clearPoison l bs.length
  words.foldl (fun s w => s.setFull w true) s

/-- The bytes of the line `g` that a range names, one bit for each (log entry 29). -/
def lineMask (g pa n : Nat) : Word :=
  let lo := max g pa
  w64 ((2 ^ (min (g + 64) (pa + n) - lo) - 1) * 2 ^ (lo - g))

/-- The lines of another module that a range meets and that have not been asked for. -/
def State.askLines (s : State) (c : Copy) (a : Word) (pa n : Nat) (cpage : Bool) : State :=
  (unitsOf pa n 64).foldl (fun s g =>
    if c.answers.any (fun x => x.1 == g) || s.host.outstanding.any (fun o => o.copy == some c.cid && o.pa == g) then s
    else s.ask 0 64 g (a + w64 g - w64 pa) 0#512 (lineMask g pa n) c.uid c.site.part c.site.die none (some c.cid) 2 cpage) s

/-- The bytes of a range of another module, from the lines that have come. -/
def Copy.lineBytes (c : Copy) (pa n : Nat) : List Byte :=
  (List.range n).map (fun i => match c.answers.find? (fun x => x.1 == (pa + i) / 64 * 64) with
    | some x => BitVec.ofNat 8 (x.2.toNat / 256 ^ ((pa + i) % 64))
    | none => 0#8)

/-- What reading the source gives. -/
inductive SrcRead where
  | bytes (bs : List Byte) | wait | stop (a : Word)
deriving DecidableEq, Repr

/-- A range of the source, within one page, read. Lines of another module are read once no store to them is outstanding, so
that the copy observes every access made before it (R168, R332). -/
def State.readSrc (s : State) (c : Copy) (a : Word) (n : Nat) : SrcRead × State :=
  match s.sideOf c.site c.engine a n .load with
  | (.bounce, s) => (.stop a, s)
  | (.at l glob cpage remote, s) =>
    if remote then
      if (unitsOf l n 64).all (fun g => c.answers.any (fun x => x.1 == g)) then (.bytes (c.lineBytes l n), s)
      else if (unitsOf l n 64).all (fun g => s.linkAdmits c.site.part c.site.die g && (s.buffered g 64).isNone) then
        (.wait, s.askLines c a l n cpage)
      else (.wait, s)
    else match s.srcStop l n cpage with
      | some x => (.stop (a + w64 (x - l)), s)
      | none =>
        if glob && !(s.admits c.site.part (paDie l) 2) then (.wait, s)
        else (.bytes (s.rdBytes l n), if glob then s.charge c.site.part (paDie l) 2 n else s)

/-- A burst's bytes sent to another module as 64-byte writes, one for each aligned line (R440). An edge line carries the bytes of
the burst only: the word beside the data has a bit for each byte that is written (log entry 29). -/
def State.sendLines (s : State) (c : Copy) (a : Word) (pa : Nat) (bs : List Byte) (cpage : Bool) : State :=
  (unitsOf pa bs.length 64).foldl (fun s g =>
    let lo := max g pa
    let part := (bs.drop (lo - pa)).take (g + 64 - lo)
    s.ask 1 64 g (a + w64 g - w64 pa) (BitVec.ofNat 512 (leNat part * 256 ^ (lo - g))) (lineMask g pa bs.length)
      c.uid c.site.part c.site.die none (some c.cid) 2 cpage) s

/-! ## Bursts -/

/-- Writes to another module that a copy still waits to have acknowledged. -/
def State.copyUnacked (s : State) (cid : Nat) : Bool := s.host.outstanding.any (fun o => o.copy == some cid && o.op == 1)

/-- A burst that has been read is written at its destination, up to the first byte that stops it there (R169); none where it
has to wait. -/
def State.writeBurst? (s : State) (c : Copy) (bs : List Byte) : Option State :=
  let a := c.dst + w64 c.off
  match s.sideOf c.site c.engine a bs.length .store with
  | (.bounce, s) => some (s.bounce c true a)
  | (.at l glob cpage remote, s) =>
    if remote then
      if (unitsOf l bs.length 64).all (s.linkAdmits c.site.part c.site.die) && (s.buffered l bs.length).isNone then
        some ((s.sendLines c a l bs cpage).setCopy { c with sent := bs.length, bytes := [] })
      else none
    else if s.dstStop l bs.length cpage = some l then some (s.bounce c true a)
    else
      let bs := bs.take (((s.dstStop l bs.length cpage).getD (l + bs.length)) - l)
      if glob then
        if s.admits c.site.part (paDie l) 2 then
          some (((s.charge c.site.part (paDie l) 2 bs.length).writeRange l bs).delivered c bs.length)
        else none
      else some ((s.copyLocal l bs).delivered c bs.length)

/-- A burst written; one that has to wait keeps what it has read, and its budgets are not charged again (R393). -/
def State.writeBurst (s : State) (c : Copy) (bs : List Byte) : State :=
  (s.writeBurst? c bs).getD (s.setCopy { c with bytes := bs, answers := [] })

/-- The copy of a number that an engine may carry on with: while a save of its strand is due, only a burst in flight (R394). -/
def State.copy? (s : State) (cid : Nat) : Option Copy :=
  s.work.copies.find? (fun c => c.cid == cid && !c.bounced && !c.quiesced &&
    (s.inFlight c || !(s.all.any (fun t => t.live && t.id.uid == c.uid && t.waits.saving))))

/-- The source of a burst read up to the first byte that stops it there: the copy bounces when that byte is its next one, so that
the faulting address is the next byte of its side, and the cell too (R169, R309, R396; log entry 134). -/
def State.readBurst (s : State) (c : Copy) (a : Word) (n : Nat) : SrcRead × State :=
  match s.readSrc c a n with
  | (.stop x, t) => if x = a then (.stop x, t) else s.readSrc c a (x - a).toNat
  | r => r

/-- A burst of a copy that is not a ring copy; the COPY budget is asked at its start (R393). A burst with writes to another module ends when they are acknowledged. -/
def execCopyBurst (cid : Nat) (s : State) : Out :=
  match s.copy? cid with
  | none => .next s
  | some c =>
    if c.ring.isSome then .next s
    else if c.sent ≠ 0 then .next (if s.copyUnacked cid then s else s.delivered c c.sent)
    else if !c.bytes.isEmpty then .next (s.writeBurst c c.bytes)
    else if !(s.inFlight c) && !(s.admits c.site.part c.site.die 4) then .next s
    else match s.readBurst c (c.src + w64 c.off) c.burst with
      | (.stop a, s) => .next (s.bounce c false a)
      | (.wait, s) => .next s
      | (.bytes bs, s) => .next (s.writeBurst c bs)

/-! ## Ring copies (R61, R165, R166) -/

/-- A ring word written whole, FULL, and the tail advanced. -/
def State.putRing (s : State) (c : Copy) (q loc n : Nat) (waits : Bool) (tail : Nat) (bs : List Byte) : State :=
  let s := s.copyLocal (loc + 8 * tail) (bs ++ List.replicate (8 - bs.length) 0#8)
  let next := (tail + 1) % 2 ^ n
  if waits then (s.mapStrand c.uid (fun t => match t.ring q with
      | some r => t.setRing q (some { r with tail := next })
      | none => t)).delivered c bs.length
  else s.delivered { c with ring := some (q, loc, n, false, next) } bs.length

/-- The next word of a ring copy, written once the word at the tail is EMPTY; a copy whose ring is no longer bound does
not wait. Its eight source bytes may lie on two pages: those of the first are read once. -/
def execCopyRingWordWrite (cid : Nat) (s : State) : Out :=
  match s.copy? cid with
  | none => .next s
  | some c => match c.ring with
    | none => .next s
    | some (q, loc, n, waits, t) =>
      let tail := s.tailOf c q waits t
      if s.ringWaits c || (!(s.inFlight c) && !(s.admits c.site.part c.site.die 4)) then .next s
      else
        let a := c.src + w64 c.off
        let k := min 8 (c.rowLen - c.off)
        let k1 := min k (pageRest a)
        match (if c.bytes.isEmpty then s.readSrc c a k1 else (.bytes c.bytes, s)) with
        | (.stop x, s) => .next (s.bounce c false x)
        | (.wait, s) => .next s
        | (.bytes b1, s) =>
          if k1 = k then .next (s.putRing c q loc n waits tail b1)
          else match s.readSrc c (a + w64 k1) (k - k1) with
            | (.stop x, s) => .next (s.bounce c false x)
            | (.wait, s) => .next (s.setCopy { (s.copy? cid).getD c with bytes := b1 })
            | (.bytes b2, s) => .next (s.putRing c q loc n waits tail (b1 ++ b2))

end Sys2Proof.Machine
end

