-- ==== Sys2Proof/Machine/Links.lean ====
section
/-! DEFINITION. UALink: requests of other modules at this one, answers to this module's own, ports and lanes (R53, R294, R418,
R439 to R441, R463). -/
namespace Sys2Proof.Machine

/-! ## Requests of other modules (R53, R294, R418) -/

/-- The identity under which a peer's accesses are made here (R418): the binding's ASID, PTB and TVEC. It reaches no local storage: all
its bounds are 0 (log entry 133). -/
def State.peerSite (s : State) (b : Peer) (pa : Nat) : Site :=
  { part := b.part, ctx := .evaluator, die := paDie pa, cluster := 0, core := 0, sMode := false
    asid := (s.part b.part).asidBase + b.asidx, ptb := b.ptb, tvec := b.tvec }

/-- An answer to another module, its data charged to the bound partition (R393). What the status says: 0 performed, 1 refused, 2
the access waits on an ECLOSING cell, whose CHAIN is the data, 3 POISON, 4 no entry for an eclosion, 5 CELLBUSY, 6 a copy
has met a cell, 8 a line with an error mark (log entry 29). -/
def State.answer (s : State) (b : Peer) (rq pa n x status : Nat) : Out :=
  .next ((s.send (.response b.remModule rq (BitVec.ofNat 512 x) status)).charge b.part (paDie pa) 3 n)

/-- A request of a module to which no binding is in force, or beyond the binding's reach, is refused (R418). -/
def State.refuseRequest (s : State) (m rq : Nat) : Out := .next (s.send (.response m rq 0#512 1))

/-- The binding in force under which a module of the domain reaches this one (R418); beyond the domain a binding grants no memory
reach (R442). -/
def State.remoteBound (s : State) (remModule remPart : Nat) : Option Peer :=
  if Config.inDomain remModule then
    s.host.peers.find? (fun b => b.remModule == remModule && b.remPart == remPart && b.mine && b.theirs)
  else none

/-- An access of another module's strand or memory port that meets a cell that is not VALUE (R292, R294): it waits as a
waiter of its eclosion, or is told why not. -/
def State.peerCell (s : State) (b : Peer) (rq pa : Nat) (va : Word) : Out :=
  let w : Waiter := .remote b.remModule rq
  match s.tag pa with
  | .chrysalis => match s.eclose (s.peerSite b pa) true pa va (some w) with
    | (.started _, s') => s'.answer b rq pa 0 (s'.chainOf pa) 2
    | (.poisoned, s') => s'.answer b rq pa 0 0 3
    | (.noEntry, s') => s'.answer b rq pa 0 0 4
  | .eclosing => match s.eclosionOf pa with
    | some e => match s.enqueue e w with
      | some s' => s'.answer b rq pa 0 (s'.chainOf pa) 2
      | none => s.answer b rq pa 0 0 4
    | none => .next s
  | _ => s.answer b rq pa 0 0 3

/-- A cell waits for the stores of another module that its check has let pass (log entry 65). -/
def State.await (s : State) (m rq pa n : Nat) : State :=
  { s with cells := { s.cells with awaited := s.cells.awaited ++ [(m, rq, pa / 32 * 32, n)] } }

/-- A check that is given up, its stores waited for no longer. -/
def State.giveUp (s : State) (m rq : Nat) : State :=
  { s with cells := { s.cells with awaited := s.cells.awaited.filter (fun x => !(x.1 == m && x.2.1 == rq)) } }

/-- A checked store has come. -/
def State.storeCame (s : State) (m rq : Nat) : State :=
  { s with cells := { s.cells with awaited := (s.cells.awaited.map (fun x =>
      if x.1 = m ∧ x.2.1 = rq then (x.1, x.2.1, x.2.2.1, x.2.2.2 - 1) else x)).filter (fun x => x.2.2.2 != 0) } }

/-- CSUS, CFRC and CTAG of another module: the answer is the tag that the step found. A check of a place
answers so too. A read of a link (R305) answers with the
cell on which the evaluator waits, if it waits on one, and the cell's CHAIN. -/
def State.peerCellOp (s : State) (b : Peer) (rq op pa : Nat) (va : Word) (data : BitVec 512) : Out :=
  let tag := s.tag pa
  if op = 19 then (match s.linkOf none pa with
    | .next pa' => s.answer b rq pa 0 (1 + 2 ^ 32 * s.chainOf pa + 2 ^ 64 * pa') 9
    | _ => s.answer b rq pa 0 0 9)
  else if s.isPoisoned pa then s.answer b rq pa 0 0 8
  else if op = 14 then
    (if tag = .eclosing then s else (s.wr pa 32 (data.toNat % 2 ^ 256)).setTag pa .chrysalis).answer b rq pa 0 tag.code 0
  else if op = 21 then
    (if tag = .eclosing then s else s.await b.remModule rq pa data.toNat).answer b rq pa 0 tag.code 0
  else if op = 15 then
    (if tag = .chrysalis then (s.eclose (s.peerSite b pa) true pa va none).2 else s).answer b rq pa 0 tag.code 0
  else s.answer b rq pa 0 tag.code 0

/-- What an access of another module meets on a C page that it may not pass: the first of its cells that is not VALUE
(R292). A store is stopped by an ECLOSING cell when a strand made it, and by every cell when a copy engine did; a strand's
store that has been checked before (`agent` 3) finds its cell as the check left it, or replaced (R146; log entry 65). -/
def State.peerStop (s : State) (op width pa agent : Nat) (cpage : Bool) : Option Nat :=
  let cells := (unitsOf pa width 32).filter (fun g => s.tag g != .value)
  if !cpage then none
  else if op = 1 ∨ op = 13 then
    (if agent = 2 then cells.head? else if agent = 0 then cells.find? (fun g => s.tag g == .eclosing) else none)
  else cells.head?

/-- The bytes that a copy's access to a line names: the first and how many (log entry 29). -/
def maskRange (m : Word) : Nat × Nat :=
  let on := (List.range 64).filter (fun i => m.getLsbD i)
  (on.headD 0, on.length)

/-- A request of another module at its home slice: 0 a load, 1 and 13 a store, 2 to 11 an atomic, 12 ACAS, 18 a fetch. A copy
engine names the bytes of its line. A store smaller than a marked line is told so, unless it has been checked (R459). -/
def State.peerAccess (s : State) (b : Peer) (rq op width pa : Nat) (va : Word) (data : BitVec 512) (expected : Word)
    (agent : Nat) (cpage : Bool) : Out :=
  let store := op == 1 || op == 13
  let at' := if agent == 2 then maskRange expected else (0, width)
  if (!store || (decide (at'.2 < 64) && agent != 3)) && (unitsOf pa width 64).any s.isPoisoned then s.answer b rq pa 0 0 8
  else match s.peerStop op at'.2 (pa + at'.1) agent (cpage && op != 18) with
    | some g =>
      if agent = 2 then s.answer b rq pa 0 (max g (pa + at'.1) - pa) 6
      else if store then s.answer b rq pa 0 0 5
      else s.peerCell b rq g (va + w64 (g - pa))
    | none =>
      if store then
        let s := s.writeRange (pa + at'.1) (leBytes at'.2 (data.toNat / 256 ^ at'.1))
        (if agent = 3 ∧ cpage = true then s.storeCame b.remModule expected.toNat else s).answer b rq pa 0 0 0
      else
        let old := s.rd pa width
        if op = 0 ∨ op = 18 then s.answer b rq pa width old 0
        else
          let q := atomicNew (op - 2) width old (data.toNat % 256 ^ width) (expected.toNat % 256 ^ width)
          (s.writeRange pa (leBytes width q.1)).answer b rq pa width old 0

/-- An access that would eclose a cell, or ask for its eclosion, comes later while a checked store is still to come to the cell (log
entry 65). -/
def State.mustWait (s : State) (ask : Nat × Nat × Bool) (width pa : Nat) : Bool :=
  (ask.1 == 15 || (ask.2.2 && ask.2.1 != 2 && decide (ask.1 ≤ 12) && ask.1 != 1)) && (unitsOf pa width 32).any s.cellHeld

/-- REMOTE_ACCESS_ARRIVAL: the home module checks the access again (R418); its DRAM budget admits it, and its LINK budget the
answer (R393). A waiter that has left its cell is taken out of its entry, and a check
that is given up holds its cell no longer. `ask` is the operation, the kind of agent that
asks (0 a strand, 1 a memory port, 2 a copy engine), and whether its page has C (log entry 65). -/
def execRemoteAccessArrival (rq remModule remPart : Nat) (ask : Nat × Nat × Bool) (width pa : Nat) (va : Word)
    (data : BitVec 512) (expected : Word) (s : State) : Out :=
  let op := ask.1
  match s.remoteBound remModule remPart with
  | none => s.refuseRequest remModule rq
  | some b =>
    if op = 17 then .next (s.dequeue (.remote remModule rq))
    else if op = 22 then .next (s.giveUp remModule rq)
    else if !(s.inGranules b.part pa width) || s.carved b.part pa width || pa % width != 0 then s.refuseRequest remModule rq
    else if !(s.admits b.part (paDie pa) 2) || !(s.admits b.part (paDie pa) 3) || s.mustWait ask width pa then .next s
    else
      let s := s.charge b.part (paDie pa) 2 width
      if 14 ≤ op ∧ op ≠ 18 then s.peerCellOp b rq op pa va data
      else s.peerAccess b rq op width pa va data expected ask.2.1 ask.2.2

/-! ## Answers to this module's requests (R439 to R441) -/

/-- The request of that number that is outstanding. -/
def State.request? (s : State) (rq : Nat) : Option Outstanding := s.host.outstanding.find? (fun o => o.rq == rq)

/-- A request no longer outstanding. -/
def State.endRequest (s : State) (rq : Nat) : State :=
  { s with host := { s.host with outstanding := s.host.outstanding.filter (fun o => o.rq != rq) } }

/-- How a request ends: with an answer of its home module, or without one after the time of R439. -/
inductive Ending where
  | data (x : BitVec 512) | refused | waits (chain : Nat) | poison | noEntry | busy | cell (off : Nat) | line
  | link (chain : Nat) (next : Option Nat)
deriving DecidableEq, Repr

/-- The ending that an answer's status and data tell; 7 is a wake, which ends no request. -/
def endingOf (status : Nat) (x : BitVec 512) : Ending :=
  match status with
  | 0 => .data x | 2 => .waits (x.toNat % 2 ^ 32) | 3 => .poison | 4 => .noEntry | 5 => .busy | 6 => .cell (x.toNat % 512)
  | 8 => .line
  | 9 => .link (x.toNat / 2 ^ 32 % 2 ^ 32) (if x.getLsbD 0 then some (x.toNat / 2 ^ 64 % 2 ^ 64) else none)
  | _ => .refused

/-- The spilled access of a memory port that waits for a request. -/
def Elem.asking (e : Elem) (rq : Nat) : Option (Nat × Spill) :=
  (List.range e.mp.spill.length).findSome? (fun i => match e.mp.spill[i]? with
    | some p => if p.asked = some rq then some (i, p) else none
    | none => none)

/-- The spilled access of a memory port that waits for a request fails with PROT (R419). -/
def State.portFails (s : State) (rid row rq : Nat) : State :=
  match s.region? rid with
  | none => s
  | some r => match r.elem? row 0 with
    | none => s
    | some e => match (e.asking rq).bind (fun q => (r.frameFor e q.2).map (fun f => (f, q))) with
      | some (f, i, p) => s.spillFault r e f i p { cause := 5, detail := p.addr }
      | none => s

/-- A request of a memory port ends: with its line, in a wait on a cell (R304), or as the fabric fault that the ending names
(R292, R439). -/
def State.portAnswer (s : State) (rid row : Nat) (o : Outstanding) (x : Ending) : State :=
  match s.region? rid with
  | none => s
  | some r => match r.elem? row 0 with
    | none => s
    | some e => match (e.asking o.rq).bind (fun q => (r.frameFor e q.2).map (fun f => (f, q))) with
      | some (f, i, p) =>
        let fault (c : Nat) : State := s.spillFault r e f i p { cause := c, detail := p.addr }
        (match x with
        | .data d => s.setRegion (r.setElem (e.respill i { p with answer := some d }))
        | .waits _ => s.setRegion (r.setElem (e.respill i { p with onCell := some s.cycle, loc := o.pa / 32 * 32 }))
        | .poison => fault 12
        | .line => fault 12
        | .noEntry => fault 7
        | _ => fault 5)
      | none => s

/-- A released store of a memory port that its home does not perform is a fabric fault (R439, R459): of the streamed residency while
it runs, saved or not, or of the served packet whose result the exit holds for it (log entry 131). -/
def State.portStoreFails (s : State) (rid row : Nat) (o : Outstanding) (x : Ending) : State :=
  let c := if x = .line then 12 else 5
  let q : ElemFault := { cause := c, detail := o.va }
  -- the packet whose result is held, also when its region has been evicted since; the request carries the site
  let pay := o.lane % 4096 + 2 ^ 12 * (0x80 + c)
  let spoil (p : Packet) : Packet := if p.acks.contains o.rq ∧ p.result.isSome then
    { p with result := none, poison := some (BitVec.ofNat 64 pay) } else p
  let s := { s with work := { s.work with packets := s.work.packets.map spoil } }
  match s.region? rid with
  | none =>
    -- a saved residency faults when it runs again
    let late (r : Region) : Region := match r.elem? row 0 with
      | some e => { r with faults := r.faults ++ [r.pend e ((r.frame? e).getD 0#256) q s.cycle] }
      | none => r
    let fix (y : Residency) : Residency :=
      if y.state = .running ∧ y.saved.any (fun r => r.rid == rid) then { y with saved := y.saved.map late } else y
    { s with work := { s.work with residencies := s.work.residencies.map fix } }
  | some r =>
    if r.served then s
    else match r.elem? row 0 with
      | some e => if r.phase == .frozen || !((s.holderOf r).any (fun y => y.state == .running)) then s
        else s.meetFault r e ((r.frame? e).getD 0#256) q
      | none => s

/-- A request of a copy ends: with its line, or the copy bounces (R292, R439). A cell that stops it further on ends the next burst
before it (R169). -/
def State.copyAnswer (s : State) (o : Outstanding) (cid : Nat) (x : Ending) : State :=
  match s.work.copies.find? (fun c => c.cid == cid && !c.bounced) with
  | none => s
  | some c =>
    let here : Word := if o.isStore then c.dst + w64 c.off else c.src + w64 c.off
    match x with
    | .data d => if o.isStore then s else s.setCopy { c with answers := c.answers ++ [(o.pa, d)] }
    | .cell off =>
      let x := o.va + w64 off
      if x.toNat ≤ here.toNat then s.bounce c o.isStore here
      else if c.ring.isSome then s.bounce c o.isStore x
      else
        let k := x.toNat - here.toNat
        s.setCopy { c with cut := if c.cut = 0 then k else min c.cut k, sent := 0, answers := [], bytes := [] }
    | _ => s.bounce c o.isStore here

/-- Another module has read a link of the check of a strand that waits on a cell (R305, R306). A wake that has come before takes
precedence. -/
def State.linkAnswer (s : State) (rq uid chain : Nat) (next : Option Nat) : State :=
  s.onStrand uid (fun t => t.parkedFor .cell && !t.park.woken && t.park.chase.map (·.rq) == some rq) (fun s =>
    match s.self.park.chase, next with
    | some c, some pa =>
      (match c.back with
      | none =>
        let path := c.path ++ [(c.pa, chain)]
        s.chaseOn (s.follow uid (4 - path.length) path pa)
      | some i => s.chaseOn (if (c.path[i + 1]?).map (·.1) = some pa then s.verify uid c.path i else .stop))
    | _, _ => s.chaseOn .stop)

/-- A request of a strand ends (R294, R419, R439): with its answer, in a park with reason CELL, or as a precise trap of the
instruction that waits. A check keeps what it has found until every lane has been checked (R146). -/
def State.strandAnswer (s : State) (o : Outstanding) (uid reason : Nat) (x : Ending) : State :=
  s.onStrand uid (fun t => t.waits.remote == some o.rq) (fun s =>
    let w := { s.self.waits with remote := none }
    let s' := { s with self := { s.self with waits := w } }
    match (if x = .line ∧ (o.op = 20 ∨ o.op = 21) then .data 4#512 else x) with
    | .data d =>
      if o.op = 18 then { s with self := { s.self with waits := { w with fetched := w.fetched ++ [(o.pa, d.truncate 64)] } } }
      else
        let a : Answer := { op := o.op, lane := o.lane, pa := o.pa, data := d.truncate 64 }
        { s with self := { s.self with waits := { w with answers := w.answers ++ [a] } } }
    | .waits chain =>
      let t := s'.parkFor .cell (cellVa o.va) (o.pa / 32 * 32) true o.lane
      { t with self := { t.self with park := { t.self.park with far := some (o.rq, chain) } } }.chaseOn
        (.ask (o.pa / 32 * 32) [] none)
    | .poison => s'.trap (poisonedTrap (cellVa o.va) o.lane false)
    | .line => s'.trap (poisonedTrap o.va o.lane true)
    | .noEntry => s'.trap (qovfTrap s.self.id.part 2 (cellVa o.va))
    | .busy => s'.trap (cellBusy (cellVa o.va) (Tag.code .eclosing))
    | _ => s'.trap (protTrap o.va reason o.lane))

/-- The home of a cell keeps a check that it has let pass, or may have (log entry 65). -/
def State.keepCheck (s : State) (o : Outstanding) (x : Ending) : State :=
  if o.op ≠ 21 ∨ x = .data 2#512 ∨ x = .line then s
  else { s with host := { s.host with kept := s.host.kept ++ [{ rq := o.rq, uid := o.uid, part := o.part, pa := o.pa }] } }

/-- A request ends; `reason` is PROT's where its ending is a PROT. -/
def State.endWith (s : State) (o : Outstanding) (reason : Nat) (x : Ending) : State :=
  let s := (s.endRequest o.rq).keepCheck o x
  match o.copy, o.waiter with
  | some cid, _ => s.copyAnswer o cid x
  | none, some (.strand uid) =>
    if o.op = 19 then (match x with
      | .link chain next => s.linkAnswer o.rq uid chain next
      | _ => s.linkAnswer o.rq uid 0 none)
    else s.strandAnswer o uid reason x
  | none, some (.mp rid row _) =>
    if !o.isStore then s.portAnswer rid row o x
    else (match x with
      | .data _ => s
      | x => s.portStoreFails rid row o x)
  | none, _ => s

/-- A wake from the home module of a cell (R294, R302): the strand or the memory port's access that waits there by that request
is ready to replay. -/
def State.farWake (s : State) (rq : Nat) : State :=
  let s := s.mapStrands (fun t => if t.parkedFor .cell && t.park.far.map (·.1) == some rq then t.wake else t)
  s.work.regions.foldl (fun s r => r.elems.foldl (fun s e => match e.asking rq with
    | some (_, p) => if p.onCell.isSome then s.wakePort r.rid e.row p.key else s
    | none => s) s) s

/-- The remote accesses of a partition to a module whose binding has ended (R419): plain stores in flight are discarded, all other
requests end with PROT, reason 3, precise at the instruction that waits, and so does a wait at a cell there. -/
def State.endAccesses (s : State) (part m : Nat) : State :=
  let there (o : Outstanding) : Bool := o.part == part && paModule o.pa == m
  let s := (s.host.outstanding.filter there).foldl (fun s o =>
    if o.isStore && o.copy.isNone && (match o.waiter with
      | some (.strand _) => false
      | _ => true) then s.endRequest o.rq
    else s.endWith o 3 .refused) s
  let s := (s.all.filter (fun t => t.parkedFor .cell && t.park.far.isSome && t.id.part == part && paModule t.park.loc == m)).foldl
    (fun s t => s.onStrand t.id.uid (fun _ => true) (fun s => s.trap (protTrap s.self.park.operand 3 s.self.park.lane))) s
  (s.work.regions.filter (fun r => r.site.part == part)).foldl (fun s r => r.elems.foldl (fun s e =>
    e.mp.spill.foldl (fun s p => match p.asked with
      | some rq => if p.onCell.isSome && paModule p.loc == m then s.portFails r.rid e.row rq else s
      | none => s) s) s) s

/-- REMOTE_RESPONSE. A store that nobody waits for is acknowledged by REMOTE_STORE_ACK. An access that the home module
refuses is PROT, reason 5 (R65, R439). -/
def execRemoteResponse (rq : Nat) (data : BitVec 512) (status : Nat) (s : State) : Out :=
  if status = 7 then .next (s.farWake rq)
  else match s.request? rq with
  | none => .next s
  | some o => if o.isStore && o.waiter == none && (o.copy == none || status == 0) then .next s
              else .next (s.endWith o 5 (endingOf status data))

/-- REMOTE_STORE_ACK (R441): a strand that waits for the store has its answer. -/
def execRemoteStoreAck (rq : Nat) (s : State) : Out :=
  match s.request? rq with
  | none => .next s
  | some o => if o.isStore then .next (s.endWith o 5 (.data 0#512)) else .next s

/-! ## Ports (R439, R463) -/

/-- A port changed. -/
def State.mapLink (s : State) (p : Nat) (f : Port → Port) : State :=
  { s with host := { s.host with ports := s.host.ports.setIfInBounds p (f (s.host.ports[p]?.getD {})) } }

/-- REQUEST_TIMEOUT (R439): 1 ms without a response. The port is mapped out, and a plain store is lost. -/
def execRequestTimeout (rq : Nat) (s : State) : Out :=
  match s.request? rq with
  | none => .next s
  | some o =>
    if s.plant.time.toNat < o.since.toNat + 1000000 || !o.sent then .next s
    else .next ((s.endWith o 5 .refused).mapLink o.port (fun p => { p with mapped := true }))

/-- LANE_FAILURE: a port goes on with three lanes; the loss of a second maps it out. -/
def execLaneFailure (port : Nat) (s : State) : Out :=
  .next (s.mapLink port (fun p =>
    if p.mapped then p else if p.lanes = 4 then { p with lanes := 3 } else { p with lanes := p.lanes - 1, mapped := true }))

end Sys2Proof.Machine
end

