-- ==== Sys2Proof/Machine/FrondSched.lean ====
section
/-! DEFINITION. The frond scheduler: bands of fronds, reservations, the waiting table, placing a holder (R194, R387 to
R391, R434). -/
namespace Sys2Proof.Machine

/-! ## Bands (R194, R390) -/

/-- Quarter units of a shape. -/
def Shape.units : Shape → Nat
  | .whole => 4 | .half => 2 | .quarter => 1

/-- North rows of the bands of a shape. -/
def Shape.bands : Shape → List Nat
  | .whole => [0] | .half => [0, 4] | .quarter => [0, 2, 4, 6]

/-- A quarter unit is held by no region. -/
def State.unitFree (s : State) (die cluster frond row : Nat) : Bool := (s.regionAt die cluster frond row).isNone

/-- Free quarter units of a frond. -/
def State.freeUnits (s : State) (die cluster frond : Nat) : Nat :=
  ([0, 2, 4, 6].filter (s.unitFree die cluster frond)).length

/-- The northmost free band of a shape in a frond. -/
def State.freeBand (s : State) (die cluster frond : Nat) (sh : Shape) : Option Nat :=
  sh.bands.find? (fun b => (List.range sh.units).all (fun i => s.unitFree die cluster frond (b + 2 * i)))

/-- Where a holder of a shape is placed (R390): the frond with the fewest free units among those with a free band, then
the lowest; its northmost free band. -/
def State.bandFor (s : State) (die cluster : Nat) (sh : Shape) : Option (Nat × Nat) :=
  if (s.cluster die cluster).failed then none
  else
    let cands := (List.range 4).filterMap (fun f => (s.freeBand die cluster f sh).map (fun b => (f, b)))
    match cands with
    | [] => none
    | c :: cs => some (cs.foldl (fun b x => if s.freeUnits die cluster x.1 < s.freeUnits die cluster b.1 then x else b) c)

/-! ## Reservations (R380, R387) -/

/-- Quarter units that a launch reserves in a cluster of its die. -/
def Launch.unitsIn (l : Launch) (die cluster : Nat) : Nat :=
  if l.die = die then ([Shape.whole, .half, .quarter].map (fun sh => sh.units * l.reserved cluster sh)).sum else 0

/-- Quarter units of a cluster that all launches reserve. -/
def State.unitsReserved (s : State) (die cluster : Nat) : Nat :=
  (s.work.launches.map (fun l => l.unitsIn die cluster)).sum

/-- The region counts against no launch's reservation where it lies: it holds evaluation packets, or a residency of
another cluster (R387, R391). -/
def Region.beyond (r : Region) : Bool :=
  match r.holder with
  | .served _ _ l => l.isNone
  | .stream d c _ => d != r.die || c != r.cluster

/-- Quarter units of a cluster that no launch has reserved and nobody holds. -/
def State.unitsSpare (s : State) (die cluster : Nat) : Nat :=
  let held := ((s.work.regions.filter (fun r => r.die == die && r.cluster == cluster && r.beyond)).map
    (fun r => r.shape.units)).sum
  16 - s.unitsReserved die cluster - held

/-- The launch of a region's holder. -/
def Region.launch (r : Region) : Option (Nat × Nat) :=
  match r.holder with
  | .served _ _ l => l
  | .stream .. => match r.site.ctx with
    | .launch d l => some (d, l)
    | _ => none

/-- Regions of a shape that count against a launch's reservation in a cluster: those it holds there, and those of its
residencies that have migrated from there, running or saved (R387, R391). -/
def State.heldOf (s : State) (lch : Nat × Nat) (die cluster : Nat) (sh : Shape) : Nat :=
  (s.work.regions.filter (fun r => r.launch == some lch && r.shape == sh && (match r.holder with
    | .served .. => r.die == die && r.cluster == cluster
    | .stream d c _ => d == die && c == cluster))).length +
  (s.work.residencies.filter (fun y => y.migrated && y.region.isNone && y.launch == lch && y.shape == sh &&
    y.die == die && y.cluster == cluster)).length

/-- A free region of a shape in a launch's reservation. -/
def State.hasRoom (s : State) (lch : Nat × Nat) (die cluster : Nat) (sh : Shape) : Bool :=
  match s.launch? lch.1 lch.2 with
  | none => false
  | some l => decide (s.heldOf lch die cluster sh < l.reserved cluster sh) && (s.bandFor die cluster sh).isSome

/-- A free region for a residency in its launch's reservation; a migrated one has kept its own there (R387). -/
def State.hasRoomFor (s : State) (y : Residency) : Bool :=
  if y.migrated then (s.bandFor y.die y.cluster y.shape).isSome else s.hasRoom y.launch y.die y.cluster y.shape

/-! ## Evicting a served configuration (R388, R389) -/

/-- A packet has been injected into the region and its result has not left. -/
def State.hasPacket (s : State) (rid : Nat) : Bool :=
  s.work.packets.any (fun p => p.region == some rid && p.result.isNone && p.poison.isNone)

/-- The launch's served configuration of a shape in a cluster without a packet, whose last injection is oldest. -/
def State.evictable (s : State) (lch : Nat × Nat) (die cluster : Nat) (sh : Shape) : Option Region :=
  let l := s.work.regions.filter (fun r => r.served && r.die == die && r.cluster == cluster && r.shape == sh &&
    r.launch == some lch && !(s.hasPacket r.rid))
  match l with
  | [] => none
  | r :: rs => some (rs.foldl (fun b x => if x.lastInj < b.lastInj then x else b) r)

/-- The configuration of a region and its users (R388). -/
def Waiting.of (w : Waiting) (p : Packet) : Bool :=
  p.die == w.die && p.cluster == w.cluster && p.cfg == w.cfg && p.site.part == w.part && p.launch == w.launch

/-- A packet waits to be injected. -/
def Packet.waits (p : Packet) : Bool := p.region.isNone && p.result.isNone && p.poison.isNone

/-- The region in which a packet's configuration is resident. -/
def State.resident (s : State) (p : Packet) : Option Region :=
  s.work.regions.find? (fun r => r.die == p.die && r.cluster == p.cluster && r.holder == .served p.cfg p.site.part p.launch)

/-- A configuration with waiting packets that is not resident waits: in the table of 32 while that has room, else
outside it (R388). -/
def State.enterWaiting (s : State) (p : Packet) : State :=
  if (s.resident p).isSome || s.work.waitings.any (fun w => w.of p) then s
  else
    let n := (s.work.waitings.filter (fun w => w.die == p.die && w.cluster == p.cluster && w.inTable)).length
    let w : Waiting := { die := p.die, cluster := p.cluster, cfg := p.cfg, part := p.site.part, launch := p.launch
                         order := s.fresh, age := 0, inTable := decide (n < 32) }
    let s := { s with work := { s.work with waitings := s.work.waitings ++ [w] }, fresh := s.fresh + 1 }
    if w.inTable then s.needDecision p.die p.cluster else s

/-- A configuration leaves the waiting list; the oldest that stands outside the cluster's table enters it, which is an
occasion for a decision. -/
def State.leaveWaiting (s : State) (w : Waiting) : State :=
  let l := s.work.waitings.filter (fun x => x.order != w.order)
  match l.find? (fun x => x.die == w.die && x.cluster == w.cluster && !x.inTable) with
  | none => { s with work := { s.work with waitings := l } }
  | some y =>
    let l := l.map (fun x => if x.order = y.order then { x with inTable := true } else x)
    { s with work := { s.work with waitings := l } }.needDecision w.die w.cluster

/-- The callers left waiting when a region of their configuration is evicted enter the waiting table again (R388). -/
def State.callersWait (s : State) (r : Region) : State :=
  (s.work.packets.filter (fun p => p.waits && p.die == r.die && p.cluster == r.cluster &&
    r.holder == .served p.cfg p.site.part p.launch)).foldl State.enterWaiting s

/-- A served configuration evicted: with callers that wait it enters the waiting table again (R388). Whoever evicts it
takes the region. -/
def State.evict (s : State) (r : Region) : State :=
  let t := s.freeRegion r.rid
  { t with work := { t.work with decisions := s.work.decisions } }.callersWait r

/-- A served configuration evicted with nothing to take its region, which is free: an occasion for a decision (R388). -/
def State.evictFree (s : State) (r : Region) : State := (s.freeRegion r.rid).callersWait r

/-! ## Making a region (R206, R218, R275) -/

/-- The CEs of an edge's row that take a slice of the row token with the CE that the edge names: every one that selects its
lane input and is named by no edge of its own (R196, log entry 38). -/
def Image.sharers (im : Image) (g : Edge) : List Edge :=
  if g.cport != 4 || decide (g.ccol < 2) || decide (9 < g.ccol) then []
  else (List.range 8).filterMap (fun i =>
    let c := i + 2
    let named := im.edges.any (fun x => x.plane == g.plane && x.crow == g.crow && x.ccol == c && x.cport == 4)
    match im.frame? g.plane g.crow c with
    | some f => if !named && bits f 3 0 == 0 && [0, 1, 2].any (fun j => ceIn f j == 5) then some { g with ccol := c } else none
    | none => none)

/-- An arc without a token. -/
def Edge.arc (g : Edge) (share : Option Nat) : Arc := { edge := g, queue := [], inReturn := 0, share := share }

/-- The arcs of an image: one for each edge, then one for each further consumer of a row lane, then its ordering chains. -/
def Image.arcs (im : Image) : List Arc :=
  im.edges.map (fun g => g.arc (if (im.sharers g).isEmpty then none else some g.ccol)) ++
    im.edges.flatMap (fun g => (im.sharers g).map (fun h => h.arc (some g.ccol))) ++
    (chainsOf im.frames).map (fun g => g.arc none)

/-- The waiters of words of a region's ME areas wake where the word now has the state they wait for (R57, R158). -/
def State.wakeAreas (s : State) (die cluster frond row0 rows : Nat) : State :=
  let inArea (l : Nat) : Bool := (List.range rows).any (fun i => [10, 11].any (fun c =>
    !(outside (meLoc die cluster frond (row0 + i) c 0) (2 ^ 15) l)))
  s.mapStrands (fun t => if t.parkedFor .fe && inArea t.park.loc && s.isFull t.park.loc == t.park.wantFull then t.wake else t)

/-- The ME words of a region zero and FULL, without marks (R275). -/
def State.clearAreas (s : State) (die cluster frond row0 rows : Nat) : State :=
  (List.range rows).foldl (fun s i =>
    [10, 11].foldl (fun s c => s.zeroLocal (meLoc die cluster frond (row0 + i) c 0) (2 ^ 15)) s) s

/-- A region made for a holder, in its plane 0, its areas cleared. -/
def State.makeRegion (s : State) (die cluster : Nat) (at' : Nat × Nat) (sh : Shape) (h : Holder) (im : Image) (site : Site) :
    Nat × State :=
  let r : Region :=
    { rid := s.fresh, die := die, cluster := cluster, frond := at'.1, row0 := at'.2, shape := sh, holder := h, image := im
      site := site, arcs := im.arcs, elems := im.sites.map (fun p => { row := p.1, col := p.2 }), loaded := 1
      phase := .running, lastMove := s.cycle, commits := 0, flags := 0#5, marks := [], binds := [], faults := []
      lastInj := s.cycle, psn := [], pflags := [], argNet := [] }
  let s := (s.clearAreas die cluster at'.1 at'.2 sh.rows).wakeAreas die cluster at'.1 at'.2 sh.rows
  (r.rid, { s with work := { s.work with regions := s.work.regions ++ [r] }, fresh := s.fresh + 1 })

/-- Every element enters plane 0. -/
def State.enterAll (s : State) (rid : Nat) : State :=
  match s.region? rid with
  | none => s
  | some r => r.elems.foldl (fun s e => s.enterPlane rid e.row e.col 0) s

/-! ## Decisions (R388, R434) -/

/-- The image of a waiting configuration. -/
def State.imageOf (s : State) (w : Waiting) : Option Image := s.image? w.part w.cfg

/-- The configuration can be placed. -/
def State.placeable (s : State) (w : Waiting) : Bool :=
  match s.imageOf w with
  | none => false
  | some im => s.servesImage im && s.admits w.part w.die 0 && !(s.cluster w.die w.cluster).failed &&
    (match w.launch with
     | some l => s.hasRoom l w.die w.cluster im.shape || (s.evictable l w.die w.cluster im.shape).isSome
     | none => decide (im.shape.units ≤ s.unitsSpare w.die w.cluster) && (s.bandFor w.die w.cluster im.shape).isSome)

/-- Callers parked for a configuration. -/
def State.callers (s : State) (w : Waiting) : Nat := (s.work.packets.filter (fun p => w.of p && p.waits)).length

/-- The entry that a decision chooses. -/
def State.chosen (s : State) (ps : List Waiting) : Option Waiting :=
  match ps.find? (fun w => decide (32 ≤ w.age)) with
  | some w => some w
  | none => match ps with
    | [] => none
    | w :: ws => some (ws.foldl (fun b x => if s.callers b < s.callers x then x else b) w)

/-- A cell named by an evaluation packet whose image cannot be fetched, or which was poisoned, becomes POISON (R299,
R434). -/
def State.poisonCell (s : State) (die cluster idx : Nat) : State :=
  let mine (p : Nat × Nat × Nat × Nat) : Bool := p.1 == die && p.2.1 == cluster && p.2.2.1 == idx
  match s.cells.cellPkts.find? mine with
  | none => s
  | some (_, _, _, eid) =>
    let s := { s with cells := { s.cells with cellPkts := s.cells.cellPkts.filter (fun p => !(mine p)) } }
    match s.cells.eclosions.find? (fun e => e.eid == eid) with
    | some e => (s.setTag e.cell .poison).endEclosion e
    | none => s

/-- A waiting configuration whose image cannot be fetched: its packets leave poisoned, with element id 0. -/
def State.fetchFailed (s : State) (w : Waiting) (cause : Nat) : State :=
  let cells := s.work.packets.filter (fun p => w.of p && p.waits && (match p.caller with
    | .cell _ => true
    | .strand _ => false))
  let fix (p : Packet) : Packet := if w.of p && p.waits then { p with poison := some (BitVec.ofNat 64 (2 ^ 12 * (0x80 + cause))) } else p
  let keep (p : Packet) : Bool := !(cells.any (fun c => c.pid == p.pid))
  let s := { s with work := { s.work with packets := (s.work.packets.filter keep).map fix } }
  let s := cells.foldl (fun s p => match p.caller with
    | .cell i => s.poisonCell w.die w.cluster i
    | .strand _ => s) s
  s.leaveWaiting w

/-- The site of a served region: the partition; each access is made as its packet's caller (R66). -/
def State.servedSite (s : State) (w : Waiting) : Site :=
  match s.work.packets.find? (fun p => w.of p) with
  | some p => p.site
  | none => { part := w.part, die := w.die, cluster := w.cluster }

/-- A waiting configuration placed. -/
def State.placeServed (s : State) (w : Waiting) (im : Image) : State :=
  let s := match w.launch with
    | some l => if s.hasRoom l w.die w.cluster im.shape then s else (match s.evictable l w.die w.cluster im.shape with
      | some r => s.evict r
      | none => s)
    | none => s
  match s.bandFor w.die w.cluster im.shape with
  | none => s
  | some b =>
    let (rid, s) := s.makeRegion w.die w.cluster b im.shape (.served w.cfg w.part w.launch) im (s.servedSite w)
    (s.enterAll rid).leaveWaiting w

/-- FROND_DECISION (R388): a decision is taken for each of its occasions. -/
def execFrondDecision (die cluster : Nat) (s : State) : Out :=
  if !(s.work.decisions.contains (die, cluster)) then .next s
  else
  let s := { s with work := { s.work with decisions := s.work.decisions.erase (die, cluster) } }
  let ps := s.work.waitings.filter (fun w => w.die == die && w.cluster == cluster && w.inTable && s.placeable w)
  match s.chosen ps with
  | none => .next s
  | some w => match s.imageOf w with
    | none => .next s
    | some im =>
      let older := s.work.waitings.map (fun x => if x.order != w.order && ps.any (fun y => y.order == x.order) then { x with age := x.age + 1 } else x)
      let s := { s with work := { s.work with waitings := older } }
      match s.fetchImage die (s.servedSite w) w.cfg with
      | .ok s' => .next (s'.placeServed w im)
      | .error (c, _) => .next (s.fetchFailed w c)

/-! ## Streamed residencies (R389 to R391, R395, R398, R399, R434) -/

/-- The residency waits to be placed. -/
def Residency.queued (y : Residency) : Bool := y.state == .running && y.region.isNone && y.waiting.isSome

/-- The launch of a residency has a region for it, or one it may empty. -/
def State.canPlace (s : State) (y : Residency) : Bool :=
  s.servesImage y.image && s.admits y.part y.die 0 &&
    (s.hasRoomFor y || (s.evictable y.launch y.die y.cluster y.shape).isSome)

/-- Saved ME areas written back to a region. -/
def State.restoreAreas (s : State) (r : Region) (l : List (Nat × Nat × List Host.Cell × List Nat)) : State :=
  l.foldl (fun s p =>
    let base := meLoc r.die r.cluster r.frond (r.row0 + p.1) p.2.1 0
    let s := p.2.2.1.foldl (fun s c => s.wrBytes (base + c.1) [c.2]) s
    p.2.2.2.foldl (fun s w => s.setBit (base + w) false) s) s

/-- A saved region set down at a band. -/
def State.restoreRegion (s : State) (y : Residency) (r : Region) (die cluster : Nat) (b : Nat × Nat) : State :=
  let r := { r with die := die, cluster := cluster, frond := b.1, row0 := b.2, phase := .running, lastMove := s.cycle
                    argNet := r.argNet ++ y.argPend }
  let s := s.clearAreas die cluster b.1 b.2 r.shape.rows
  let s := (s.restoreAreas r y.areas).wakeAreas die cluster b.1 b.2 r.shape.rows
  let s := { s with work := { s.work with regions := s.work.regions ++ [r] } }
  s.mapResidency y.die y.cluster y.entry (fun y => { y with
    region := some r.rid, waiting := none, saved := none, areas := [], save := .noSave, argPend := []
    migrated := decide (die ≠ y.die ∨ cluster ≠ y.cluster) })

/-- The constants that ARGW wrote before FRGO, in force from the first round (R176). -/
def Region.withConsts (r : Region) (cs : List (Nat × Nat × Bool × BitVec 32)) : Region :=
  cs.foldl (fun r c => match r.elem? c.1 c.2.1 with
    | none => r
    | some e => r.setElem { e with ce := if c.2.2.1 then { e.ce with c1 := some c.2.2.2 } else { e.ce with c0 := some c.2.2.2 } }) r

/-- A fresh residency set down at a band: its bindings and constants in force, every element in plane 0. -/
def State.startRegion (s : State) (y : Residency) (die cluster : Nat) (b : Nat × Nat) : State :=
  let (rid, s) := s.makeRegion die cluster b y.shape (.stream y.die y.cluster y.entry) y.image y.site
  let s := match s.region? rid with
    | some r => s.setRegion { r.withConsts y.consts with argNet := y.argPend }
    | none => s
  let s := s.mapResidency y.die y.cluster y.entry (fun y => { y with
    region := some rid, waiting := none, argPend := [], migrated := decide (die ≠ y.die ∨ cluster ≠ y.cluster) })
  s.enterAll rid

/-- The record of a residency whose first plane cannot be fetched (R434). -/
def firstFetchRecord (y : Residency) (cause : Nat) (a : Word) : List Word :=
  [ w64 (cause + 2 ^ 8 * (0x80 + cause) + 2 ^ 39 + 2 ^ 41 * b2n y.image.indep + 2 ^ 56 * y.handle), 0#64, 0#64, a
  , w64 (2 ^ 30 * 7 + 2 ^ 33 * 7), 0#64, y.image.replay, recordFlags y.flags false true ]

/-- A residency placed at a band. -/
def State.setDown (s : State) (y : Residency) (die cluster : Nat) (b : Nat × Nat) : State :=
  match y.saved with
  | some r => s.restoreRegion y r die cluster b
  | none => match s.fetchImage die y.site y.cfg with
    | .ok s' => s'.startRegion y die cluster b
    | .error (c, a) => s.faultResidency { y with waiting := none } (firstFetchRecord y c a)

/-- `a` is placed before `b`: the higher PRIO, then the earlier FRGO (R389). -/
def placedBefore (a b : Residency) : Bool :=
  decide (b.prio < a.prio) || (a.prio == b.prio && decide (a.goNo < b.goNo))

/-- RESIDENCY_PLACEMENT (R389). A region emptied for a residency whose first plane cannot be fetched is free, which is an occasion
for a decision (R388). -/
def execResidencyPlacement (die cluster : Nat) (s : State) : Out :=
  match s.work.residencies.filter (fun y => y.die == die && y.cluster == cluster && y.queued && s.canPlace y) with
  | [] => .next s
  | y :: ys =>
    let y := ys.foldl (fun b x => if placedBefore x b then x else b) y
    let emptied := if s.hasRoomFor y then none else s.evictable y.launch die cluster y.shape
    let s := match emptied with
      | some r => s.evict r
      | none => s
    let placed := match s.bandFor die cluster y.shape with
      | some b => s.setDown y die cluster b
      | none => s
    let held := (placed.residency? y.die y.cluster y.entry).any (fun z => z.region.isSome)
    .next (if emptied.isSome && !held then placed.needDecision die cluster else placed)

/-- Clusters of a die's grid that share an edge (R391). -/
def neighbours (a b : Nat) : Bool :=
  (a / 8 == b / 8 && (a % 8 + 1 == b % 8 || b % 8 + 1 == a % 8)) || (a % 8 == b % 8 && (a / 8 + 1 == b / 8 || b / 8 + 1 == a / 8))

/-- Two bands have a row of one frond in common. -/
def bandsMeet (a : Nat × Nat) (x : Shape) (b : Nat × Nat) (y : Shape) : Bool :=
  a.1 == b.1 && decide (a.2 < b.2 + y.rows) && decide (b.2 < a.2 + x.rows)

/-- A holder that waits in a cluster, and could be placed there, seeks a band: the one that it would be given meets it
(R391). -/
def State.sought (s : State) (die cluster : Nat) (b : Nat × Nat) (sh : Shape) : Bool :=
  let meets (x : Shape) : Bool := (s.bandFor die cluster x).any (fun c => bandsMeet b sh c x)
  s.work.waitings.any (fun w => w.die == die && w.cluster == cluster && (match s.imageOf w with
    | some im => meets im.shape && (match w.launch with
      | some l => s.hasRoom l die cluster im.shape
      | none => decide (im.shape.units ≤ s.unitsSpare die cluster))
    | none => false)) ||
  s.work.residencies.any (fun y => y.die == die && y.cluster == cluster && y.queued && s.hasRoomFor y && meets y.shape)

/-- RESIDENCY_MIGRATION (R391). -/
def execResidencyMigration (die cluster entry target : Nat) (s : State) : Out :=
  match s.residency? die cluster entry with
  | none => .next s
  | some y =>
    let long := decide ((y.waiting.getD (s.cycle, 0)).1 + y.migr * 1024 < s.cycle)
    let fits := neighbours cluster target && (decide (cluster < 48) == decide (target < 48)) &&
      decide (y.shape.units ≤ s.unitsSpare die target) && s.admits y.part die 0 && s.servesImage y.image
    if !y.queued || y.migr == 0 || !long || !fits || y.save == .freeze then .next s
    else match s.bandFor die target y.shape with
      | some b => .next (if s.sought die target b y.shape then s else s.setDown y die target b)
      | none => .next s

end Sys2Proof.Machine
end

