-- ==== Sys2Proof/Machine/Teardown.lean ====
section
/-! DEFINITION. Tear-down of a partition and its TDISP state (R364, R369, R379, R419). -/
namespace Sys2Proof.Machine

/-! ## The status FIFO (R379) -/

/-- A record enters a function's status FIFO and vector 1 is signalled (R368). -/
def State.post (s : State) (f : Nat) (r : StatusRec) : State :=
  let x := s.fn f
  (s.setFn f { x with fifo := x.fifo ++ [r] }).signal f 1

/-- A status record. -/
def statusRec (kind code lid die tag : Nat) (word1 : Nat := 0) : StatusRec :=
  { word0 := w64 (kind + 2 ^ 8 * code + 2 ^ 16 * lid + 2 ^ 24 * die + 2 ^ 32 * tag), word1 := w64 word1 }

/-- Live launches of a partition. -/
def State.launchesOf (s : State) (p : Nat) : List Launch := s.work.launches.filter (fun l => l.part == p)

/-- The record of a launch that completes (KIND 3) or is ended by tear-down (KIND 4). -/
def Launch.endRec (l : Launch) (kind : Nat) : StatusRec :=
  statusRec kind 0 l.lid l.die l.tag (min l.drops (2 ^ 32 - 1) + 2 ^ 32 * min l.lost 65535)

/-! ## Steps 1 to 4 (R364) -/

/-- The strand of a number retires, whatever its state. -/
def State.retire (s : State) (uid : Nat) : State := s.onStrand uid (fun _ => true) State.retireSeat

/-- Step 2: every strand of the partition retires; its copies stop. -/
def State.retirePart (s : State) (p : Nat) : State :=
  let s := (s.all.filter (fun t => t.live && t.id.part == p)).foldl (fun s t => s.retire t.id.uid) s
  { s with work := { s.work with copies := s.work.copies.filter (fun c => c.site.part != p) } }

/-- Step 3: its residencies and served configurations are freed, and its images leave the spore stores. -/
def State.freeFabric (s : State) (p : Nat) : State :=
  let s := (s.work.residencies.filter (fun y => y.part == p)).foldl State.freeResidency s
  let s := (s.work.regions.filter (fun r => r.site.part == p)).foldl (fun s r => s.freeRegion r.rid) s
  let w := { s.work with packets := s.work.packets.filter (fun q => q.site.part != p)
                         waitings := s.work.waitings.filter (fun q => q.part != p) }
  let s := { s with work := w, host := { s.host with circuits := s.host.circuits.filter (fun c => c.part != p) } }
  (List.range 8).foldl (fun s d =>
    let x := s.die d
    s.setDie d { x with spores := x.spores.filter (fun q => q.2 != p) }) s

/-- Step 4: its eclosions, cell packets and faults are freed. -/
def State.freeCells (s : State) (p : Nat) : State :=
  let mine (eid : Nat) : Bool := s.cells.eclosions.any (fun e => e.eid == eid && e.site.part == p)
  let s := s.awaitNone p none
  { s with cells := { awaited := s.cells.awaited
                      eclosions := s.cells.eclosions.filter (fun e => e.site.part != p)
                      faults := s.cells.faults.filter (fun m => m.part != p)
                      routers := s.cells.routers.filter (fun e => e.part != p)
                      replies := s.cells.replies.filter (fun m => m.part != p)
                      cellPkts := s.cells.cellPkts.filter (fun q => !(mine q.2.2.2)) } }

/-- The bindings of the partition end; the other modules are told (R419). -/
def State.endPeers (s : State) (p : Nat) : State :=
  let mine := s.host.peers.filter (fun b => b.part == p)
  let s := mine.foldl (fun s b => s.send (.peer p b.remModule b.remPart true)) s
  { s with host := { s.host with peers := s.host.peers.filter (fun b => b.part != p)
                                 outstanding := s.host.outstanding.filter (fun o => o.part != p)
                                 kept := s.host.kept.filter (fun k => k.part != p) } }

/-- Live launches end with records of KIND 4. -/
def State.endLaunches (s : State) (p : Nat) : State :=
  let s := (s.launchesOf p).foldl (fun s l => s.post p (l.endRec 4)) s
  { s with work := { s.work with launches := s.work.launches.filter (fun l => l.part != p) } }

/-- Steps 1 to 4. Step 1 follows from the partition's state, which admission tests (R383). -/
def State.tearDownWork (s : State) (p : Nat) : State :=
  ((((s.endPeers p).retirePart p).freeFabric p).freeCells p).endLaunches p

/-! ## Steps 5 to 9 -/

/-- Step 5: no translation of the partition is left. -/
def State.dropTlbs (s : State) (p : Nat) : State :=
  { s with m := { s.m with tlb := s.m.tlb.filter (fun e => e.part != p) } }

/-- Granules whose lines are now under a key that is not in force, or will not be (R364, R366). -/
def State.fillGranules (s : State) (x : DieShare) (d : Nat) (all : Bool) (key : DramKey) : State :=
  let gs := (List.range x.dcnt).map (fun i => s.dieBase d / 2 ^ 30 + x.dbase + i)
  let new := gs.filter (fun g => all || !(s.m.fills.any (fun f => f.1 == g)))
  { s with m := { s.m with fills := new.map (fun g => (g, key)) ++ s.m.fills.filter (fun f => !(new.contains f.1)) } }

/-- Step 7 on one die: the granules are zero under a key that is erased, and their tags are VALUE. -/
def State.zeroDram (s : State) (x : DieShare) (d : Nat) : State :=
  let lo := s.dieBase d + x.dbase * 2 ^ 30
  let n := x.dcnt * 2 ^ 30
  let s := s.zeroLocal lo n
  { s with m := { s.m with tags := s.m.tags.filter (fun t => outside lo n t.1)
                           keyed := s.m.keyed.filter (fun k => outside lo n k.line) } }

/-- Step 8 on one die: scratchpad windows of every cluster and the die SRAM window. -/
def State.zeroWindows (s : State) (x : DieShare) (d : Nat) : State :=
  let s := (List.range 64).foldl (fun s c => s.zeroLocal (spLoc d c (x.spb * 2 ^ 16)) (x.spl * 2 ^ 16)) s
  s.zeroLocal (swLoc d (x.swb * 2 ^ 20)) (x.swl * 2 ^ 20)

/-- Step 8: the cores that the partition held are scrubbed. -/
def State.scrubCores (s : State) (p : Nat) : State :=
  (s.cores.filter (fun c => c.lastPart == some p)).foldl (fun s c =>
    let s := s.scrubCore c.die c.cluster c.core
    s.setCore { s.core c.die c.cluster c.core with lastPart := none }) s

/-- Steps 5 to 9: the partition's storage is zero, and its entry is reset but for the key-generation count. Its budgets
are no part of the entry and stay. -/
def State.tearDownStore (s : State) (p : Nat) : State :=
  let x := s.part p
  let s := s.dropTlbs p
  let s := (List.range 8).foldl (fun s d =>
    let y := x.dies[d]?.getD {}
    (((s.zeroDram y d).fillGranules y d true (some (64 + p, x.keyGen.toNat))).zeroWindows y d)) s
  let s := s.scrubCores p
  let graphs := s.work.graphs.map (fun g => if g.part = p then { g with loaded := false, images := [], kernels := [] } else g)
  { s with work := { s.work with graphs := graphs } }.setPart p
    { keyGen := x.keyGen, budget := x.budget, avail := x.avail }

/-- A partition torn down in full. -/
def State.tearDown (s : State) (p : Nat) : State := (s.tearDownWork p).tearDownStore p

/-- A partition moves to ERROR: steps 1 to 4. -/
def State.toError (s : State) (p : Nat) : State :=
  let s := s.tearDownWork p
  s.setPart p { s.part p with tstate := .error, subs := [] }

/-- A partition in CONFIG_LOCKED or RUN moves to ERROR; in any other state it stays. -/
def State.disturb (s : State) (p : Nat) : State :=
  if (s.part p).tstate = .locked ∨ (s.part p).tstate = .run then s.toError p else s

end Sys2Proof.Machine
end

