-- ==== Sys2Proof/Machine/Spdm.lean ====
section
/-! DEFINITION. Attestation and the TDISP states of the interfaces (R369 to R371). Code numbers of answers are those of
SPDM 1.3 and TDISP 1.0. -/
namespace Sys2Proof.Machine

/-! ## Answers -/

/-- An answer of the responder. -/
def State.spdmAnswer (s : State) (code : Nat) (data : List Word) : Out := .next (s.send (.spdm code data))

/-- ERROR, with the SPDM error code: 1 invalid request, 4 unexpected request. -/
def State.spdmError (s : State) (e : Nat) : Out := s.spdmAnswer 0x7F [w64 e]

/-- Words of a digest or a signature, lowest first. -/
def digestWords {n : Nat} (d : BitVec n) : List Word := (List.range (n / 64)).map (fun i => d.extractLsb' (64 * i) 64)

/-- The responder answers from state SPDM on, and in RECOVERY (R464). -/
def State.spdmUp (s : State) : Bool := !(s.plant.bring == .rom || s.plant.bring == .verify || s.plant.bring == .train)

/-- A request that needs the negotiation at step `n`. -/
def State.atPhase (s : State) (n : Nat) (f : State → Out) : Out :=
  if !s.spdmUp then .next s else if s.host.spdm.phase < n then s.spdmError 4 else f s

def State.setSpdm (s : State) (x : Spdm) : State := { s with host := { s.host with spdm := x } }

/-! ## Sessions -/

def State.session? (s : State) (n : Nat) : Option Session := s.host.spdm.sessions.find? (fun x => x.num == n)

/-- A request on an established session. -/
def State.onSession (s : State) (n : Nat) (f : Session → Out) : Out :=
  s.atPhase 3 (fun s => match s.session? n with
    | some x => if x.up then f x else s.spdmError 4
    | none => s.spdmError 1)

/-! ## Negotiation (R370) -/

/-- GET_VERSION starts the negotiation afresh. The only version is 1.3. -/
def execGetVersion (s : State) : Out :=
  if !s.spdmUp then .next s
  else (s.setSpdm { s.host.spdm with phase := 1, sessions := [] }).spdmAnswer 0x04 [0x1300#64]

/-- The capability flags that the messages of R370 need: certificates, challenges, signed measurements, encrypted sessions
with message authentication, key exchange, heartbeat, key update (bit numbers of SPDM 1.3, log entry 116). -/
def capabilities : Word := 0x62D6#64

def execGetCapabilities (s : State) : Out :=
  s.atPhase 1 (fun s => (s.setSpdm { s.host.spdm with phase := max 2 s.host.spdm.phase }).spdmAnswer 0x61 [capabilities])

/-- The algorithms that the responder offers: SM2_ECC_SM2_P256 for signatures, SM3_256 for hashes, SM2_P256 for key exchange,
AEAD_SM4_GCM for sessions (bit masks of SPDM 1.3, log entry 116). -/
def algorithms : List (BitVec 32) := [0x200#32, 0x40#32, 0x40#32, 0x8#32]

/-- NEGOTIATE_ALGORITHMS: of what the request offers, the SM algorithms of R370 and no other. The four masks of the offer
are the requester's, a free value here (log entry 116). -/
def execNegotiateAlgorithms (s : State) : Out :=
  s.atPhase 2 (fun s =>
    let v := s.freeValue
    let offer := (List.range 4).map (fun i => v.1.extractLsb' (32 * i) 32)
    (v.2.setSpdm { s.host.spdm with phase := 3 }).spdmAnswer 0x63
      (List.zipWith (fun a b => (a &&& b).setWidth 64) algorithms offer))

/-- Words as one number, the first lowest. -/
def wordsNat : List Word → Nat
  | [] => 0
  | w :: ws => w.toNat + 2 ^ 64 * wordsNat ws

/-- The SM3 digest of the device identity certificate (R374). -/
def identityDigest : BitVec 256 := Config.sm3 (8 * Config.certificate.length) (wordsNat Config.certificate)

/-- GET_DIGESTS: slot 0 alone holds a certificate. -/
def execGetDigests (s : State) : Out := s.atPhase 3 (fun s => s.spdmAnswer 0x01 (1#64 :: digestWords identityDigest))

/-- GET_CERTIFICATE: slots 1 to 7 are empty. -/
def execGetCertificate (slot : Nat) (s : State) : Out :=
  s.atPhase 3 (fun s => if slot = 0 then s.spdmAnswer 0x02 Config.certificate else s.spdmError 1)

/-- CHALLENGE: a signature by the device identity key over the digest of the certificate's digest and the nonce. -/
def execChallenge (slot : Nat) (nonce : BitVec 256) (s : State) : Out :=
  s.atPhase 3 (fun s =>
    if slot = 0 then
      let d := Config.sm3 64 (identityDigest.toNat + 2 ^ 256 * nonce.toNat)
      s.spdmAnswer 0x03 (digestWords identityDigest ++ digestWords (Config.deviceSign d))
    else s.spdmError 1)

/-! ## Measurements (R371) -/

/-- Word 0 of a partition's table entry, with a TSTATE code (R359). -/
def TState.code : TState → Nat
  | .unlocked => 0 | .locked => 1 | .run => 2 | .error => 3

/-- Words 1 to 6 of an entry (R360). -/
def Partition.dieWords (p : Partition) : List Nat :=
  let x (d : Nat) : DieShare := p.dies[d]?.getD {}
  let g (d : Nat) : Nat := (x d).dbase + 2 ^ 6 * (x d).dcnt
  let w (d : Nat) : Nat := (x d).spb + 2 ^ 5 * (x d).spl + 2 ^ 11 * (x d).swb + 2 ^ 17 * (x d).swl
  [0, 4].map (fun b => g b + 2 ^ 16 * g (b + 1) + 2 ^ 32 * g (b + 2) + 2 ^ 48 * g (b + 3)) ++
    [0, 2, 4, 6].map (fun b => w b + 2 ^ 32 * w (b + 1))

/-- The eight words of a partition's table entry (R359, R360). -/
def Partition.entry (p : Partition) (tstate : Nat) : List Word :=
  let first := tstate + 2 ^ 2 * b2n p.valid + 2 ^ 4 * p.asidBase + 2 ^ 13 * p.asidCnt + 2 ^ 32 * p.cellWait
  let last := p.eovf + 2 ^ 32 * p.debugBits.toNat + 2 ^ 40 * (p.keyGen.toNat % 256)
  ([first] ++ p.dieWords ++ [last]).map w64

/-- The digest of the firmware image that runs, or that was rejected last (R464). -/
def State.firmware (s : State) : BitVec 256 := s.host.spdm.measured.headD 0#256

/-- The versions of the firmware that runs, as the cache key covers them (R371, R431). -/
def State.translatorVersion (s : State) : BitVec 32 := Config.translatorVersion s.firmware
def State.microcodeRevision (s : State) : BitVec 32 := Config.microcodeRevision s.firmware

/-- The clusters whose logical number the spare has taken, as bits 64 d + c of a number (R371, R462). -/
def State.spareMap (s : State) : Nat :=
  ((s.plant.clusters.filter (fun c => c.onSpare)).map (fun c => 2 ^ (64 * c.die + c.cluster))).sum

/-- A measurement block; blocks 6 to 8 exist on a session that has named a partition. In RECOVERY block 2 is the rejected
image's digest (R464). -/
def State.measurement (s : State) (part : Option Nat) (index : Nat) : Option (List Word) :=
  if index = 1 then some (digestWords Config.bootRom)
  else if index = 3 then some (digestWords (Config.sm3 4 s.translatorVersion.toNat))
  else if index = 4 then some (digestWords (Config.sm3 6 (s.microcodeRevision.toNat + 2 ^ 32)))
  else if index = 5 then some (digestWords (Config.fuseDigest s.spareMap))
  else if index = 2 then (s.host.spdm.measured.head?).map digestWords
  else match part with
    | none => none
    | some p =>
      let x := s.part p
      if index = 6 then some (digestWords (Config.sm3 64 (wordsNat (x.entry 0))))
      else if index = 7 then some (match x.policy with
        | some r => digestWords (Config.sm3 168 r.toNat)
        | none => digestWords (Config.sm3 32 0))
      else if index = 8 then some [w64 (x.debugBits.toNat + 2 ^ 8 * (x.keyGen.toNat % 256))]
      else none

/-- GET_MEASUREMENTS; session 0 stands for a request outside any session. -/
def execGetMeasurements (session index : Nat) (s : State) : Out :=
  let give (part : Option Nat) (s : State) : Out := match s.measurement part index with
    | some ws => s.spdmAnswer 0x60 (w64 index :: ws)
    | none => s.spdmError 1
  if session = 0 then s.atPhase 3 (give none) else s.onSession session (fun x => give x.part s)

/-! ## Session messages (R370) -/

/-- KEY_EXCHANGE: a session, with the partition it names. -/
def execKeyExchange (part : Option Nat) (s : State) : Out :=
  s.atPhase 3 (fun s =>
    let x := s.host.spdm
    (s.setSpdm { x with sessions := x.sessions ++ [{ num := x.nextNum, part := part, up := false }], nextNum := x.nextNum + 1 }).spdmAnswer
      0x64 [w64 x.nextNum])

/-- FINISH: the session is established. -/
def execFinish (session : Nat) (s : State) : Out :=
  s.atPhase 3 (fun s => match s.session? session with
    | none => s.spdmError 1
    | some _ =>
      let x := s.host.spdm
      (s.setSpdm { x with sessions := x.sessions.map (fun y => if y.num = session then { y with up := true } else y) }).spdmAnswer 0x65 [])

def execKeyUpdate (session : Nat) (s : State) : Out := s.onSession session (fun _ => s.spdmAnswer 0x69 [])
def execHeartbeat (session : Nat) (s : State) : Out := s.onSession session (fun _ => s.spdmAnswer 0x68 [])

/-- END_SESSION. -/
def execEndSession (session : Nat) (s : State) : Out :=
  s.onSession session (fun _ =>
    let x := s.host.spdm
    (s.setSpdm { x with sessions := x.sessions.filter (fun y => y.num != session) }).spdmAnswer 0x6C [])

/-! ## TDISP (R369) -/

/-- A TDISP answer, carried by VENDOR_DEFINED_RESPONSE. -/
def State.tdisp (s : State) (code : Nat) (data : List Word) : Out := s.spdmAnswer 0x7E (w64 code :: data)

/-- TDISP_ERROR: 3 invalid state, 0x101 invalid interface. -/
def State.tdispError (s : State) (e : Nat) : Out := s.tdisp 0x7F [w64 e]

/-- The PF has written a command that changes the partition's entry or debug policy, which firmware has not yet taken: it
is taken before a TDISP request for the partition (R369). -/
def State.pfWrites (s : State) (p : Nat) : Bool := match (s.fn 0).running with
  | some w => (bits w 7 0 == 1 || bits w 7 0 == 2 || bits w 7 0 == 3) && bits w 13 8 == p && bits w 63 14 == 0
  | none => false

/-- A TDISP request for partition `p` is accepted only on a session that has itself named `p`. Partition 0 is no
interface. -/
def State.onInterface (s : State) (session p : Nat) (f : Out) : Out :=
  if s.pfWrites p then .next s
  else s.onSession session (fun x => if p ≠ 0 ∧ x.part = some p then f else s.tdispError 0x101)

/-- LOCK_INTERFACE_REQUEST: the entry and the MSI-X table are frozen; the answer carries the interface report, the entry's
words 0 to 7 as it is now locked and DEBUG (log entry 116). When a PF write to the entry or debug policy arrives in the same step it is
taken first: the lock then fails if VALID is clear, and otherwise the partition moves to ERROR. -/
def execLockInterfaceRequest (session part : Nat) (s : State) : Out :=
  let x := s.part part
  let mine := part != 0 && (s.session? session).any (fun y => y.up && y.part == some part)
  if s.pfWrites part then .next (if mine then s.setPart part { x with raced := true } else s) else
  s.onInterface session part
    (if x.raced then (let s := s.setPart part { x with raced := false }
                      if x.tstate = .unlocked ∧ x.valid then (s.toError part).tdispError 3 else s.tdispError 3)
     else if x.tstate = .unlocked ∧ x.valid then (s.setPart part { x with tstate := .locked }).tdisp 0x03 (x.entry 1 ++ [w64 x.debugBits.toNat])
     else s.tdispError 3)

/-- START_INTERFACE_REQUEST: the IDE stream of the function is established. -/
def execStartInterfaceRequest (session part : Nat) (s : State) : Out :=
  let x := s.part part
  s.onInterface session part
    (if x.tstate = .locked ∧ (s.fn part).ide then (s.setPart part { x with tstate := .run }).tdisp 0x06 []
     else s.tdispError 3)

/-- STOP_INTERFACE_REQUEST: R364 in full, from any state. -/
def execStopInterfaceRequest (session part : Nat) (s : State) : Out :=
  s.onInterface session part ((s.tearDown part).tdisp 0x07 [])

end Sys2Proof.Machine
end

