-- ==== Sys2Proof/Machine/Mgmt.lean ====
section
/-! DEFINITION. The management mailbox (R437, R438) and its commands but for loading and debugging: PART_SET, PART_CLEAR,
BUDGET_SET, BUDGET_GET, PEER_SET, STRAND_RESUME, STRAND_KILL, PAGER_SET, GRAPH_UNLOAD, FEATURES, SUBSCRIBE. -/
namespace Sys2Proof.Machine

/-! ## The mailbox (R437, R438, R464) -/

/-- A command completes: response words, DONE with its CODE, vector 1. -/
def State.complete (s : State) (fn code : Nat) (rs : List Word) : State :=
  let x := s.fn fn
  let put (a : Vector Word 31 × Nat) (w : Word) : Vector Word 31 × Nat := (a.1.setIfInBounds a.2 w, a.2 + 1)
  (s.setFn fn { x with running := none, done := true, code := BitVec.ofNat 8 code
                       response := (rs.foldl put (x.response, 0)).1 }).signal fn 1

/-- What a command answers: its CODE, its response words, and the state it leaves. -/
structure Reply where
  code : Nat
  rs   : List Word
  s    : State

/-- A refused command changes nothing. -/
def State.refuse (s : State) (code : Nat) : Reply := { code := code, rs := [], s := s }

/-- A command that succeeds. -/
def State.accept (s : State) (rs : List Word := []) : Reply := { code := 0, rs := rs, s := s }

/-- Commands that only the PF may issue. -/
def pfOnly (op : Nat) : Bool := decide (1 ≤ op) && decide (op ≤ 7)

/-- The partition on which a command acts. -/
def commandPart (fn op : Nat) (w : Word) : Nat :=
  if fn ≠ 0 then fn else if op = 10 ∨ op = 11 ∨ op = 12 ∨ op = 14 then 0 else bits w 13 8

/-- The firmware takes commands: from state SPDM on. FEATURES is taken in every state. -/
def State.takesCommands (s : State) (op : Nat) : Bool := op == 13 || s.spdmUp

/-- The command word that a function waits on, once firmware takes it. -/
def State.pending (s : State) (fn : Nat) : Option Word :=
  match (s.fn fn).running with
  | some w => if s.takesCommands (bits w 7 0) then some w else none
  | none => none

/-- A management command: `body` gets its partition; none means that it is still being carried out. -/
def State.command (s : State) (fn op : Nat) (body : Nat → Option Reply) : Out :=
  match s.pending fn with
  | none => .next s
  | some w =>
    if bits w 7 0 ≠ op ∨ (pfOnly op ∧ fn ≠ 0) then .next s
    else if s.plant.bring = .recovery ∧ op ≠ 13 then .next (s.complete fn 1 [])
    else if bits w 63 14 ≠ 0 then .next (s.complete fn 2 [])
    else match body (commandPart fn op w) with
      | some r => .next (r.s.complete fn r.code r.rs)
      | none => .next s

/-- A request word. -/
def State.rq (s : State) (fn i : Nat) : Word := (s.fn fn).request[i]?.getD 0#64

/-- MANAGEMENT_COMMAND_OPCODE: an OP that is not listed, or that the function may not issue. -/
def execManagementCommandOpcode (fn : Nat) (s : State) : Out :=
  match s.pending fn with
  | none => .next s
  | some w =>
    let op := bits w 7 0
    if (decide (1 ≤ op) && decide (op ≤ 14)) && !(pfOnly op && fn != 0) then .next s
    else .next (s.complete fn (if s.plant.bring = .recovery then 1 else 12) [])

/-! ## PART_SET and PART_CLEAR (R359 to R362, R366, R369) -/

/-- A die's share as words 1 to 6 of an entry give it. -/
def shareOf (entry : Nat → Word) (d : Nat) : DieShare :=
  let g := bits (entry (1 + d / 4)) (16 * (d % 4) + 15) (16 * (d % 4))
  let w := bits (entry (3 + d / 2)) (32 * (d % 2) + 31) (32 * (d % 2))
  { dbase := natBits g 5 0, dcnt := natBits g 11 6, spb := natBits w 4 0, spl := natBits w 10 5
    swb := natBits w 16 11, swl := natBits w 23 17 }

/-- A field that must be zero is not. -/
def entryRsv (entry : Nat → Word) : Bool :=
  bits (entry 0) 3 3 != 0 || bits (entry 0) 31 23 != 0 || bits (entry 7) 63 48 != 0 ||
    (List.range 8).any (fun d =>
      bits (entry (1 + d / 4)) (16 * (d % 4) + 15) (16 * (d % 4) + 12) != 0 ||
      bits (entry (3 + d / 2)) (32 * (d % 2) + 31) (32 * (d % 2) + 24) != 0)

/-- A share is out of range, or needs a die that failed training (R464). -/
def State.shareBad (s : State) (x : DieShare) (d : Nat) : Bool :=
  decide (47 < x.dbase) || decide (48 < x.dbase + x.dcnt) || decide (32 < x.spb + x.spl) || decide (64 < x.swb + x.swl) ||
    (x.spl != 0 && x.dcnt == 0) || ((s.die d).failed && (x.dcnt != 0 || x.spl != 0))

/-- The new entry of a partition; RO fields keep their values. -/
def Partition.written (x : Partition) (entry : Nat → Word) : Partition :=
  { x with valid := bits (entry 0) 2 2 == 1
           asidBase := bits (entry 0) 12 4
           asidCnt := bits (entry 0) 22 13
           cellWait := bits (entry 0) 63 32
           eovf := bits (entry 7) 31 0
           dies := Vector.ofFn (fun d : Fin 8 => shareOf entry d.val) }

/-- Two entries claim the same granule, ASID or window. -/
def Partition.clashes (x y : Partition) : Bool :=
  overlaps x.asidBase x.asidCnt y.asidBase y.asidCnt ||
    (List.range 8).any (fun d =>
      let a := x.dies[d]?.getD {}
      let b := y.dies[d]?.getD {}
      overlaps a.dbase a.dcnt b.dbase b.dcnt || overlaps a.spb a.spl b.spb b.spl || overlaps a.swb a.swl b.swb b.swl)

/-- The code with which PART_SET refuses an entry. -/
def State.partSetCode (s : State) (p : Nat) (entry : Nat → Word) : Nat :=
  let y := (s.part p).written entry
  if entryRsv entry then 2
  else if decide (512 < y.asidCnt) || decide (512 < y.asidBase + y.asidCnt) || decide (2 ^ 22 < y.eovf) ||
      (List.range 8).any (fun d => s.shareBad (y.dies[d]?.getD {}) d) then 3
  else if (List.range 64).any (fun q => q != p && (s.part q).valid && y.clashes (s.part q)) then 4
  else 0

/-- An entry written: a new key when VALID rises (R366), no translation of its ASIDs left (R362); partition 0 moves to RUN
(R369). What the partition has stored so far stays under the key that it had. -/
def State.writeEntry (s : State) (p : Nat) (entry : Nat → Word) : State :=
  let x := s.part p
  let y := x.written entry
  let s := if x.valid then (List.range 8).foldl (fun s d =>
      s.fillGranules (x.dies[d]?.getD {}) d false (s.keyOf p 0)) s else s
  let s := { s with m := { s.m with tlb := s.m.tlb.filter (fun e => e.part != p && (match e.asid with
    | some a => decide (a < y.asidBase) || decide (y.asidBase + y.asidCnt ≤ a)
    | none => true)) } }
  s.setPart p { y with keyGen := if y.valid && !x.valid then x.keyGen + 1#64 else x.keyGen
                       tstate := if p = 0 ∧ y.valid then .run else x.tstate }

def execPartSet (fn : Nat) (s : State) : Out :=
  s.command fn 1 (fun p =>
    if (s.part p).tstate ≠ .unlocked then some ((if p = 0 then s else s.disturb p).refuse 1)
    else
      let entry (i : Nat) : Word := s.rq fn i
      some (match s.partSetCode p entry with
        | 0 => (s.writeEntry p entry).accept
        | c => s.refuse c))

def execPartClear (fn : Nat) (s : State) : Out := s.command fn 2 (fun p => some (s.tearDown p).accept)

/-! ## Budgets (R392) -/

/-- A field of a budget record; all ones is unlimited. -/
def budgetField (n x : Nat) : Option Nat := if x = 2 ^ n - 1 then none else some x

def execBudgetSet (fn : Nat) (s : State) : Out :=
  s.command fn 5 (fun p =>
    let w (i : Nat) : Word := s.rq fn i
    if [4, 5, 6, 7].any (fun i => w i != 0#64) then some (s.refuse 2)
    else
      let b : Vector (Option Nat) 5 := #v[budgetField 32 (bits (w 0) 31 0), budgetField 32 (bits (w 0) 63 32),
        budgetField 64 (w 1).toNat, budgetField 64 (w 2).toNat, budgetField 64 (w 3).toNat]
      let x := s.part p
      let fill (a : Avail) : Avail := { a with left := b.map (fun o => ((o.getD 0 : Nat) : Int)) }
      some (s.setPart p { x with budget := b, avail := x.avail.map fill }).accept)

/-- Five readings in the layout of a budget record. -/
def budgetWords (f : Nat → Nat) : List Word :=
  [w64 (f 0 % 2 ^ 32 + 2 ^ 32 * (f 1 % 2 ^ 32)), w64 (f 2), w64 (f 3), w64 (f 4)]

/-- What the dies report of a partition's budget together. -/
def Partition.total (x : Partition) (f : Avail → Int) : Int := (x.avail.toList.map f).sum

/-- A signed reading in a field of `n` bits, two's complement. -/
def fieldOf (n : Nat) (i : Int) : Nat := (BitVec.ofInt n i).toNat

def execBudgetGet (fn : Nat) (s : State) : Out :=
  s.command fn 6 (fun p =>
    let x := s.part p
    let n (i : Nat) : Nat := if i < 2 then 32 else 64
    let limit (i : Nat) : Option Nat := x.budget[i]?.getD none
    let set (i : Nat) : Nat := (limit i).getD (2 ^ n i - 1)
    let prev (i : Nat) : Nat := fieldOf (n i) (x.total (fun a => (a.prev[i]?.getD 0 : Nat)))
    let left (i : Nat) : Nat := match limit i with
      | none => 2 ^ n i - 1
      | some _ => fieldOf (n i) (x.total (fun a => a.left[i]?.getD 0))
    some (s.accept (budgetWords set ++ List.replicate 4 0#64 ++ budgetWords prev ++ budgetWords left)))

/-! ## Peer bindings (R418, R419) -/

/-- A binding between a partition and one of another module. -/
def Peer.of (b : Peer) (part remModule remPart : Nat) : Bool :=
  b.part == part && b.remModule == remModule && b.remPart == remPart

/-- A binding changed, or made. -/
def State.mapPeer (s : State) (part remModule remPart : Nat) (f : Peer → Peer) : State :=
  let old := (s.host.peers.find? (fun b => b.of part remModule remPart)).getD
    { part := part, remModule := remModule, remPart := remPart, asidx := 0, ptb := 0#64, tvec := 0#64
      mine := false, theirs := false, granules := [] }
  let rest := s.host.peers.filter (fun b => !(b.of part remModule remPart))
  { s with host := { s.host with peers := f old :: rest } }

def execPeerSet (fn : Nat) (s : State) : Out :=
  s.command fn 7 (fun p =>
    let m := (s.rq fn 0).toNat
    let q := (s.rq fn 1).toNat
    let asidx := (s.rq fn 2).toNat
    let x := s.part p
    if x.tstate ≠ .run then some (s.refuse 1)
    else if 512 ≤ m ∨ m = s.plant.modNum ∨ 64 ≤ q ∨ x.asidCnt ≤ asidx then some (s.refuse 3)
    else some ((s.mapPeer p m q (fun b =>
      { b with asidx := asidx, ptb := s.rq fn 3, tvec := s.rq fn 4, mine := true })).send (.peer p m q false)).accept)

/-- PEER_BINDING_REQUEST: the other module's matching request arrives, with the bound partition's granules. It counts only while
the local partition is in RUN (R418). -/
def execPeerBindingRequest (remModule remPart part : Nat) (granules : List (Nat × Nat)) (s : State) : Out :=
  if (s.part part).tstate ≠ .run then .next s else .next (s.mapPeer part remModule remPart (fun b => { b with theirs := true, granules := granules }))

/-- PEER_BINDING_END: the partition's translations go, its remote loads and atomics in flight end with PROT, reason 3, and its
plain stores in flight are discarded. -/
def execPeerBindingEnd (remModule remPart part : Nat) (s : State) : Out :=
  if !(s.host.peers.any (fun b => b.of part remModule remPart)) then .next s
  else
    let s := s.dropTlbs part
    let s := { s with host := { s.host with
      peers := s.host.peers.filter (fun b => !(b.of part remModule remPart))
      kept := s.host.kept.filter (fun k => k.part != part || paModule k.pa != remModule) } }
    .next ((s.awaitNone part (some remModule)).endAccesses part remModule)

/-! ## Stopped strands (R373) -/

/-- The stopped strand of a partition that a SID names, with the kind of its stop: 1 double trap, 2 HALT, 3 a stop by
DEBUG_CMD (R375). -/
def State.stoppedStrand (s : State) (p sid : Nat) : Option (Strand × Nat) :=
  match s.all.find? (fun t => t.live && t.id.part == p && t.id.sid == some (BitVec.ofNat 16 sid) && sid < 2 ^ 16 &&
      (t.st == .parked || t.st == .saved) && t.park.reason == .stopped && t.park.operand != 0#64) with
  | some t => some (t, t.park.operand.toNat)
  | none => none

/-- The PF lacks the HALT permission for another partition than 0. -/
def State.lacksHalt (s : State) (fn p : Nat) : Bool := fn == 0 && p != 0 && !((s.part p).debugBits.getLsbD 2)

/-- A stopped strand resumed, in its slot or in its saved state. -/
def Strand.resumed (t : Strand) (kind : Nat) : Strand :=
  { t with st := if t.st = .saved then .saved else .active
           park := {}
           pc := if kind = 2 then t.pc + 4#64 else t.pc
           ctl := if kind = 1 then { t.ctl with itr := false } else t.ctl }

def execStrandResume (fn : Nat) (s : State) : Out :=
  s.command fn 8 (fun p =>
    if s.lacksHalt fn p then some (s.refuse 6)
    else match s.stoppedStrand p (s.rq fn 0).toNat with
      | none => some (s.refuse 13)
      | some (t, k) => some (s.mapStrand t.id.uid (fun t => t.resumed k)).accept)

/-- STRAND_KILL: as EXIT, which waits for the acknowledgement of remote stores (R30, R441). -/
def execStrandKill (fn : Nat) (s : State) : Out :=
  s.command fn 9 (fun p =>
    if s.lacksHalt fn p then some (s.refuse 6)
    else match s.stoppedStrand p (s.rq fn 0).toNat with
      | none => some (s.refuse 13)
      | some (t, _) => if s.unacked t.id.uid then none else some (s.onStrand t.id.uid (fun _ => true) State.exitSeat).accept)

/-! ## PAGER_SET (R414) -/

def execPagerSet (fn : Nat) (s : State) : Out :=
  s.command fn 10 (fun p =>
    let x := s.part p
    if x.tstate ≠ .run then some (s.refuse 1)
    else if x.asidCnt ≤ (s.rq fn 1).toNat then some (s.refuse 3)
    else
      let y : PagerSet := { entry := s.rq fn 0, asidx := (s.rq fn 1).toNat, ptb := s.rq fn 2, tvec := s.rq fn 3 }
      some (s.setPart p { x with pager := some y }).accept)

/-! ## GRAPH_UNLOAD (R428) -/

/-- A configuration id names an image of a graph. -/
def Graph.names (g : Graph) (cfg : Nat) : Bool := cfg / 2 ^ 10 == g.gen % 2 ^ 15 * 2 ^ 6 + g.slot

/-- The graph is in use. An eclosion that is to have an evaluation packet of the graph counts from its request on. -/
def State.graphBusy (s : State) (g : Graph) : Bool :=
  s.work.launches.any (fun l => l.part == g.part && l.graph == g.gen * 256 + g.slot) ||
    s.work.waitings.any (fun w => w.part == g.part && g.names w.cfg) ||
    s.work.packets.any (fun q => q.site.part == g.part && g.names q.cfg) ||
    s.work.regions.any (fun r => r.site.part == g.part && (match r.holder with
      | .served c _ _ => g.names c
      | .stream _ _ _ => false)) ||
    s.work.residencies.any (fun y => y.part == g.part && g.names y.cfg) ||
    s.cells.eclosions.any (fun e => e.site.part == g.part && e.word0.getLsbD 0 && g.names (bits e.word0 63 1))

def execGraphUnload (fn : Nat) (s : State) : Out :=
  s.command fn 12 (fun p =>
    match s.work.graphs.find? (fun g => g.part == p && g.loaded && g.gen * 256 + g.slot == (s.rq fn 0).toNat) with
    | none => some (s.refuse 2)
    | some g =>
      if s.graphBusy g then some (s.refuse 11)
      else
        let gs := s.work.graphs.map (fun h =>
          if h.part = p ∧ h.slot = g.slot then { h with loaded := false, images := [], kernels := [] } else h)
        let s := { s with work := { s.work with graphs := gs } }
        some ((List.range 8).foldl (fun s d =>
          let x := s.die d
          s.setDie d { x with spores := x.spores.filter (fun q => !(q.2 == p && g.names q.1)) }) s).accept)

/-! ## FEATURES (R425, R464) -/

/-- The code of a bring-up state. -/
def BringUp.code : BringUp → Nat
  | .rom => 1 | .verify => 2 | .train => 3 | .spdm => 4 | .reduced => 5 | .full => 6 | .recovery => 7

/-- The feature vector of this device (R425). -/
def featureVector : Word := 0x7F#64

def execFeatures (fn : Nat) (s : State) : Out :=
  s.command fn 13 (fun _ => some (s.accept [featureVector, w64 s.plant.bring.code]))

/-! ## SUBSCRIBE (R452, R453) -/

/-- The module is throttled (R451). -/
def Power.isThrottled (p : Power) : Bool := decide (p.broadFrac < 16) || decide (p.narrowFrac < 16) || decide (0 < p.arbNotch)

/-- The hottest row of a die as last read. -/
def Die.hottestRow (d : Die) : Nat := d.temps.foldl (fun m t => max m t.2.2.2) 0

/-- The current reading of a source, quantised (R453). The stack sensors of a die are outside the model: what they read is a
free value. -/
def State.reading (s : State) (source die : Nat) : Nat × State :=
  if source = 1 then
    let v := s.freeValue
    (max (s.die die).hottestRow (v.1.toNat % 256), v.2)
  else if source = 2 then (s.plant.power.reading / 50, s)
  else if source = 3 then ((s.die die).droopPrev, s)
  else if source = 4 then (b2n s.plant.power.isThrottled, s)
  else if source = 10 then (s.plant.power.timeErr, s)
  else (0, s)

def execSubscribe (fn : Nat) (s : State) : Out :=
  s.command fn 14 (fun p =>
    let r0 := s.rq fn 0
    let r1 := s.rq fn 1
    let x := s.part p
    let b : Subscription :=
      { slot := bits r0 21 18, source := bits r0 7 0, die := bits r0 10 8, falling := bits r0 11 11 == 1
        vec := bits r0 17 12, cluster := bits r0 27 22, thresh := bits r1 31 0, notify := s.rq fn 2, beyond := false }
    let bad := bits r0 63 28 != 0 || bits r1 63 32 != 0 || decide (10 < b.source) || b.vec == 1 ||
      (b.source != 0 && (b.notify.toNat % 8 != 0 || (s.notifyLoc p b.die b.cluster b.notify).isNone))
    if x.tstate ≠ .run then some (s.refuse 1)
    else if bad then some (s.refuse 3)
    else
      let rest := x.subs.filter (fun y => y.slot != b.slot)
      let v := s.reading b.source b.die
      some ((v.2.setPart p { x with subs := if b.source = 0 then rest else rest ++ [b] }).accept [w64 v.1]))

end Sys2Proof.Machine
end

