-- ==== Sys2Proof/Machine/Debug.lean ====
section
/-! DEFINITION. Debug policies and requests (R374, R375), and the save record that a debugger reads (R396). -/
namespace Sys2Proof.Machine

/-! ## DEBUG_INSTALL (R374) -/

/-- The 168 bytes of a policy record, as a number. -/
def State.policyOf (s : State) (fn : Nat) : BitVec 1344 := BitVec.ofNat 1344 (wordsNat ((List.range 21).map (s.rq fn)))

/-- Bytes `off` to `off + n - 1` of a record, as a number. -/
def recField (r : BitVec 1344) (off n : Nat) : Nat := r.toNat / 2 ^ (8 * off) % 2 ^ (8 * n)

/-- A policy record is accepted for a partition. -/
def policyOk (p : Nat) (r : BitVec 1344) : Bool :=
  recField r 0 2 == 1 && recField r 2 1 == p && decide (recField r 3 1 < 32) && recField r 4 4 == 0 &&
    recField r 8 32 == identityDigest.toNat &&
    Config.sm2Verify (BitVec.ofNat 512 (recField r 40 64)) (Config.sm3 104 (recField r 0 104)) (BitVec.ofNat 512 (recField r 104 64))

/-- DEBUG_INSTALL. A record that fails leaves DEBUG at 0, and the record installed before it in place (R374, R437). -/
def execDebugInstall (fn : Nat) (s : State) : Out :=
  s.command fn 3 (fun p =>
    let x := s.part p
    let r := s.policyOf fn
    if x.tstate ≠ .unlocked then some ((if p = 0 then s else s.disturb p).refuse 1)
    else if policyOk p r then some (s.setPart p { x with debugBits := BitVec.ofNat 8 (recField r 3 1), policy := some r }).accept
    else some ((s.setPart p { x with debugBits := 0#8 }).refuse 5))

/-! ## Save records (R396) -/

/-- Words as bytes. -/
def wordBytes (l : List Nat) : List Byte := l.flatMap (leBytes 8)

/-- A copy record: the three words of R396. -/
def State.copyRecord (s : State) (c : Copy) : List Nat :=
  let bar : Nat := match c.bar with
    | none => 0
    | some (a, _) => 2 ^ 41 + 2 ^ 42 * b2n (a.toNat / 2 ^ 60 == 0xD) + 2 ^ 46 * (a.toNat % 2 ^ 21 / 8)
  let ring : Nat := match c.ring with
    | none => 0
    | some (q, _, _, _, _) => 2 ^ 43 + 2 ^ 44 * q
  [ (c.src + w64 c.off).toNat, (if c.ring.isSome then s.nextDst c else c.dst + w64 c.off).toNat
  , (c.rowLen - c.off) % 2 ^ 40 + 2 ^ 40 * b2n (c.bounced && c.dstSide) + bar + ring ]

/-- A bit for each of a list, the first lowest. -/
def bitsOf (l : List Bool) : Nat := l.foldr (fun b n => b2n b + 2 * n) 0

/-- The park that a record shows: its reason, whether it is in force, its operand; of a SAVED strand that the PF has
stopped, the park that was in force. -/
def Strand.parkWords (t : Strand) : List Nat :=
  let inForce := t.st == .parked || (t.st == .saved && t.park != {})
  match t.park.under with
  | some (code, w) => [code + 16, w.toNat]
  | none => if inForce then [t.park.reason.code + 16, if t.park.reason = .stopped then 0 else t.park.operand.toNat] else [0, 0]

/-- q1 to q3 of a record. -/
def ringWords (r : Option Ring) : List Nat := match r with
  | none => [0, 0]
  | some q => [q.base.toNat, q.n + 2 ^ 4 * q.head + 2 ^ 16 * q.tail + 2 ^ 28]

/-- A deferred trap's byte: its kind and its copy record or residency entry. -/
def deferredByte (cs : List Copy) (d : Deferred) : Byte :=
  if d.isCopy then BitVec.ofNat 8 ((cs.findIdx? (fun c => c.cid == d.who)).getD 0 % 16) else BitVec.ofNat 8 (64 + d.who % 16)

/-- A q0 message in 80 bytes (R62): payload, sender and width, sequence. -/
def msgBytes (m : Msg) (i : Nat) : List Byte := leBytes 64 m.payload.toNat ++ wordBytes [m.sender.toNat + 2 ^ 16 * b2n m.wide, i]

/-- `l` filled up to `n` bytes with zeros. -/
def padTo (n : Nat) (l : List Byte) : List Byte := l ++ List.replicate (n - l.length) 0#8

/-- The save record of a strand: 2 KiB, then the extension. -/
def State.saveRecord (s : State) (t : Strand) : List Byte :=
  let cs := (s.work.copies.filter (fun c => c.uid == t.id.uid)).take 16
  let c := t.ctl
  let ks := (List.range 8).map (fun i => (t.getK (BitVec.ofNat 3 i)).toNat)
  let k (i : Nat) : Nat := ks.getD i 0
  let ds := t.waits.deferred.take 32
  let word0 := t.sidNat + 2 ^ 16 * (2 ^ cs.length - 1) + 2 ^ 32 * bitsOf (cs.map (fun c => c.is2)) + 2 ^ 48 * bitsOf (cs.map (fun c => c.bounced))
  let gs := (List.range 63).map (fun i => (t.getG (BitVec.ofNat 6 (i + 1))).toNat)
  let vs := (List.range 16).flatMap (fun i => (t.getV (BitVec.ofNat 4 i)).toList.flatMap (fun l => leBytes 4 l.toNat))
  let fp := c.frm.toNat + 2 ^ 3 * c.fflags.toNat + 2 ^ 8 * c.tblnan.toNat
  let ctl := [fp, c.felim.toNat, c.tvec.toNat, c.tpc.toNat, c.tcause.toNat, c.tinfo0.toNat, c.tinfo1.toNat, c.tinfo2.toNat, c.tinfo3.toNat, 0]
  let kmask := [k 1 + 2 ^ 16 * k 2 + 2 ^ 32 * k 3 + 2 ^ 48 * k 4
               , k 5 + 2 ^ 16 * k 6 + 2 ^ 32 * k 7 + 2 ^ 48 * b2n c.ganged + 2 ^ 49 * b2n c.glead + 2 ^ 50 * t.q.q0.length + 2 ^ 58 * (ds.length % 64)]
  let area := wordBytes (word0 :: gs) ++ vs ++ wordBytes ([t.pc.toNat, c.stat.toNat] ++ t.parkWords ++ ctl ++ kmask) ++
    wordBytes (cs.flatMap s.copyRecord)
  let rings := wordBytes (ringWords t.q.q1 ++ ringWords t.q.q2 ++ ringWords t.q.q3)
  let twos := cs.flatMap (fun c => if c.is2 then [c.rowLen + 2 ^ 32 * (c.rows - 1), c.sstride.toNat, c.dstride.toNat] else [0, 0, 0])
  let ext := padTo 0x200 (padTo 0x60 (padTo 0x40 rings ++ ds.map (deferredByte cs)) ++ wordBytes twos)
  padTo 2048 area ++ ext ++ (List.range t.q.q0.length).flatMap (fun i => match t.q.q0[i]? with
    | some m => msgBytes m i
    | none => [])

/-! ## DEBUG_CMD (R375) -/

/-- The strand of a partition that a SID names. -/
def State.sidOf (s : State) (p sid : Nat) : Option Strand :=
  s.all.find? (fun t => t.live && t.id.part == p && t.id.sid == some (BitVec.ofNat 16 sid) && decide (sid < 2 ^ 16))

/-- A strand stopped by the PF, as by a HALT: its supervisor is told with KIND 2 (R372). It is taken out of what it waits
for, and replays it when it is resumed. -/
def State.haltStrand (s : State) (t : Strand) : State :=
  let s := (s.leaveCell t).withdrawPackets t.id.uid
  let s := s.onStrand t.id.uid (fun _ => true) State.endGang
  let now := s.cycle
  let s := s.mapStrand t.id.uid (fun t =>
    { t with st := if t.st = .saved then .saved else .parked
             park := { since := now, operand := 3#64, under := if t.st = .saved ∧ t.park ≠ {} then some (t.park.reason.code, t.park.operand) else none }
             waits := { t.waits with sending := none } })
  s.report t.id.part { word0 := w64 (2 + 2 ^ 16 * t.sidNat), pc := t.pc, info := 0#64, time := s.plant.time }

/-- The bytes of a partition's storage that a debug address names: a physical address, or a local window with the die in
bits 59..57, the cluster in 56..51, the core of a TCM in 50..47, and the offset below. -/
def State.debugLoc (s : State) (p : Nat) (a : Word) (n : Nat) : Option Nat :=
  let space := a.toNat / 2 ^ 60
  let d := bits a 59 57
  let c := bits a 56 51
  let k := bits a 50 47
  let off := bits a 46 0
  let x := (s.part p).dies[d]?.getD {}
  if space = 0 then (if s.inGranules p a.toNat n && !(s.carved p a.toNat n) then some a.toNat else none)
  else if space = 0xC then
    (if off + n ≤ 2 ^ 16 && (s.core d c k).lastPart == some p then some (tcmLoc d c k off) else none)
  else if space = 0xD then (if off + n ≤ x.spl * 2 ^ 16 then some (spLoc d c (x.spb * 2 ^ 16 + off)) else none)
  else if space = 0xE then
    (let f := bits a 46 45
     let row := bits a 44 42
     let col := 10 + bits a 41 41
     let o := bits a 40 0
     if o + n ≤ 2 ^ 15 && ((s.regionAt d c f row).any (fun r => r.site.part == p)) then some (meLoc d c f row col o) else none)
  else if space = 0xF then (if off + n ≤ x.swl * 2 ^ 20 then some (swLoc d (x.swb * 2 ^ 20 + off)) else none)
  else none

/-- Bytes as response words. -/
def replyWords (b : List Byte) : List Word := (List.range ((b.length + 7) / 8)).map (fun i => w64 (leNat ((b.drop (8 * i)).take 8)))

/-- An address inside the fault area of a scratchpad window: record blocks and the snapshot (R340). -/
def State.inFaultArea (s : State) (p : Nat) (a : Word) (n : Nat) : Bool :=
  let x := (s.part p).dies[bits a 59 57]?.getD {}
  a.toNat / 2 ^ 60 == 0xD && decide (x.spl * 2 ^ 16 ≤ bits a 46 0 + 2048) && decide (bits a 46 0 + n ≤ x.spl * 2 ^ 16)

/-- Bytes of a partition's storage read for a request, as plain text. -/
def State.debugRead (s : State) (p : Nat) (a : Word) (n : Nat) : Reply :=
  match s.debugLoc p a n with
  | some l => s.accept (replyWords ((if isDram l then s.plainKeys p l n else s).rdBytes l n))
  | none => s.refuse 3

/-- HALT: the strand of the SID is stopped unless it is, and `n` bytes of its save record from an offset are the data. -/
def State.debugHalt (s : State) (p : Nat) (a : Word) (n : Nat) : Option Reply :=
  match s.sidOf p (bits a 15 0) with
  | none => some (s.refuse 13)
  | some t =>
    let stopped := (s.stoppedStrand p (bits a 15 0)).isSome
    if !stopped && t.st != .saved && !t.savable then none
    else
      let s := if stopped then s else s.haltStrand t
      let r := match s.strand? t.id.uid with
        | some u => s.saveRecord u
        | none => []
      some (s.accept (replyWords ((r.drop (bits a 63 16)).take n)))

/-- WRITE: bytes from request word 3 on. -/
def State.debugWrite (s : State) (p fn : Nat) (a : Word) (n : Nat) : Reply :=
  match s.debugLoc p a n with
  | some l =>
    let bs := ((List.range 24).flatMap (fun i => leBytes 8 (s.rq fn (3 + i)).toNat)).take n
    (if isDram l then (s.plainKeys p l n).writeRange l bs else s.wrWake l bs).accept
  | none => s.refuse 3

/-- Activity counters: what they count is not given, so they read as free values. -/
def State.debugPerf (s : State) (n : Nat) : Reply :=
  let step (q : List Word × State) (_ : Nat) : List Word × State :=
    let v := q.2.freeValue
    (q.1 ++ [v.1.truncate 64], v.2)
  let q := (List.range ((n + 7) / 8)).foldl step ([], s)
  { code := 0, rs := q.1, s := q.2 }

/-- DEBUG_CMD: a request of the kind that request word 0 names. -/
def execDebugCmd (fn : Nat) (s : State) : Out :=
  s.command fn 4 (fun p =>
    let b := (s.rq fn 0).toNat
    let a := s.rq fn 1
    let n := (s.rq fn 2).toNat
    if 5 ≤ b || !((s.part p).debugBits.getLsbD b) then some (s.refuse 6)
    else if 192 < n then some (s.refuse 3)
    else if b = 0 then some (s.debugPerf n)
    else if b = 1 then some (if s.inFaultArea p a n then s.debugRead p a n else s.refuse 3)
    else if b = 2 then s.debugHalt p a n
    else if b = 3 then some (s.debugRead p a n)
    else some (s.debugWrite p fn a n))

end Sys2Proof.Machine
end

