-- ==== Sys2Proof/Machine/Serving.lean ====
section
/-! DEFINITION. SERVE and the way of a served packet (R171 to R173, R209 to R212, R338, R347). -/
namespace Sys2Proof.Machine

/-- The frond of a launch's graph. -/
def State.frondOf (s : State) (l : Launch) (f : Nat) : Option Image :=
  match s.work.graphs.find? (fun g => g.part == l.part && g.loaded && g.gen * 256 + g.slot == l.graph) with
  | some g => g.images[f]?
  | none => none

/-- The configuration id of a frond of a launch's graph (R427). -/
def Launch.cfgOf (l : Launch) (f : Nat) : Nat := (l.graph / 256) % 2 ^ 15 * 2 ^ 16 + l.graph % 256 * 2 ^ 10 + f

/-- The packet of a SERVE joins its cluster's. -/
def State.addPacket (s : State) (p : Packet) : State :=
  { s with work := { s.work with packets := s.work.packets ++ [p] }, fresh := s.fresh + 1 }.enterWaiting p

/-- SERVE (R171). -/
def execServe (d a : BitVec 6) (h : BitVec 4) (n : BitVec 8) (s : State) : Out :=
  let t := s.self
  let ill : Out := .next (s.trap (illRun (w64 h.toNat) (insWord (.serve d a h n))))
  match s.launchOf t.id.ctx with
  | none => ill
  | some l => match l.kernel.servers.getD h.toNat none with
    | none => ill
    | some v =>
      if n.toNat ≠ v.args ∨ 63 < d.toNat + v.res - 1 then ill
      else match s.frondOf l v.frond with
        | none => ill
        | some im =>
          if l.reserved t.id.cluster im.shape = 0 ∨ l.die ≠ t.id.die then .next (s.trap (qovfTrap im.shape.code 3))
          else
            let tag := t.id.core * 8 + t.id.slot
            let p : Packet :=
              { pid := s.fresh, die := t.id.die, cluster := t.id.cluster, caller := .strand t.id.uid, tag := tag
                handle := h.toNat, cfg := l.cfgOf v.frond, launch := some (l.die, l.lid), site := t.site
                args := (List.range n.toNat).map (fun i => s.getGn (a.toNat + i)), since := s.cycle
                dst := d.toNat, res := v.res, region := none, result := none, poison := none }
            .next ((s.addPacket p).parkFor .serve (w64 (h.toNat + 2 ^ 8 * tag)))

/-! ## Injection (R209, R210, R347) -/

/-- The packet of that number. -/
def State.packet? (s : State) (pid : Nat) : Option Packet := s.work.packets.find? (fun p => p.pid == pid)

/-- A packet replaced. -/
def State.setPacket (s : State) (p : Packet) : State :=
  { s with work := { s.work with packets := s.work.packets.map (fun x => if x.pid = p.pid then p else x) } }

/-- A packet gone. -/
def State.dropPacket (s : State) (pid : Nat) : State :=
  { s with work := { s.work with packets := s.work.packets.filter (fun x => x.pid != pid) } }

/-- `a` is injected before `b`: the order of issue; in one cycle, ascending core. -/
def Packet.before (a b : Packet) : Bool :=
  decide (a.since < b.since) || (a.since == b.since && (decide (a.tag / 8 < b.tag / 8) || (a.tag / 8 == b.tag / 8 && decide (a.pid < b.pid))))

/-- The packet stands first among those that wait for its configuration. -/
def State.firstWaiting (s : State) (p : Packet) : Bool :=
  s.work.packets.all (fun q => !(q.waits && q.die == p.die && q.cluster == p.cluster && q.cfg == p.cfg &&
    q.site.part == p.site.part && q.launch == p.launch) || !(q.before p))

/-- The element and port of argument or result `j` in a row: the MP carries 0 to 3, the AG 4 to 7. -/
def portElem (r : Region) (row j : Nat) : Option Elem := r.elem? row (j / 4)

/-- SERVE_INJECT (R210): every argument is placed in one step, when every arc of them has room. The cycle of its SERVE is
over, so that every packet before it in the order of R347 waits with it. What an earlier packet of the tag has left at the region is
not the new one's (R77, R211; log entry 135). -/
def execServeInject (pid : Nat) (s : State) : Out :=
  match s.packet? pid with
  | none => .next s
  | some p => match s.resident p with
    | none => .next s
    | some r =>
      let js := List.range p.args.length
      let room := js.all (fun j => match portElem r 0 j with
        | some e => r.accepts e (2 ^ (j % 4))
        | none => false)
      if !p.waits || decide (s.cycle ≤ p.since) || r.phase != .running || !(s.firstWaiting p) || !room then .next s
      else
        let r := (p.args.zipIdx).foldl (fun r a => match portElem r 0 a.2 with
          | some e => r.placeTok e { mask := 2 ^ (a.2 % 4), tok := { kind := 0, payload := a.1.zeroExtend 512, par := false, tag := p.tag } }
          | none => r) r
        let r := { r with psn := r.psn.filter (fun q => q.1 != p.tag), pflags := r.pflags.filter (fun q => q.1 != p.tag) }
        let s := (s.setRegion { r with lastInj := s.cycle, lastMove := s.cycle }).setPacket { p with region := some r.rid }
        match p.caller with
        | .strand u => .next (s.mapStrand u (fun t => { t with park := { t.park with injected := true } }))
        | .cell _ => .next s

/-! ## The exit (R209 to R212) -/

/-- The element of the exit at which result `i` stands. -/
def Region.exitElem (r : Region) (i : Nat) : Elem := { row := r.shape.rows - 1, col := i / 4 }

/-- The head of result `i` at the exit. -/
def Region.resultHead (r : Region) (i : Nat) : Option Token := r.headAt (r.exitElem i) (i % 4)

/-- What is wrong with a result's token at the exit, as the payload of a poisoned packet: a kind that is no result's, or one that
its arc's class does not carry (R199, R201). A NIL, a CRD and a REF are delivered by their payload as a VAL is (log entry 130). -/
def Region.exitFault (r : Region) (hs : List Token) : Option (BitVec 64) :=
  (hs.zipIdx).findSome? (fun p =>
    let e := r.exitElem p.2
    let pay (q : ElemFault) : BitVec 64 := BitVec.ofNat 64 (r.siteId e.row e.col % 4096 + 2 ^ 12 * q.fcode)
    match kindFault (fun k => decide (k ≤ 3) || k == 6) [(p.2 % 4, p.1)] with
    | some q => some (pay q)
    | none => (r.classFault e [p.2 % 4]).map pay)

/-- What a poisoned or delivered tag leaves behind is dropped: its stores, recorded PSNs and flags. -/
def Region.dropTag (r : Region) (tag : Nat) : Region :=
  { r with elems := r.elems.map (fun e => { e with mp := { e.mp with win0 := e.mp.win0.filter (fun b => b.tag != tag) } })
           psn := r.psn.filter (fun p => p.1 != tag), pflags := r.pflags.filter (fun p => p.1 != tag) }

/-- The stores of a tag, each port's in the order it buffered them (R212). -/
def Region.tagStores (r : Region) (tag : Nat) : List BufStore :=
  mergeStores ((sortBy (fun e => e.row) r.ports).flatMap (fun e => e.mp.win0.filter (fun b => b.tag == tag)))

/-- An access or an update of the tag's packet has begun and has not been performed (R216, R279). -/
def Region.underWay (r : Region) (tag : Nat) : Bool :=
  r.elems.any (fun e => e.mp.spill.any (fun p => p.tag == tag) || e.me.pipe.any (fun u => u.2.2 == tag))

/-- The stores of a tag performed (R212). -/
def State.releaseTag (s : State) (r : Region) (tag : Nat) : State :=
  (r.tagStores tag).foldl (fun s b => s.commitStore r b) s

/-- Heads of different tags (R210): every injected packet leaves poisoned with the exit MP's id, and the configuration
is evicted; packets not injected wait again. -/
def State.lostStep (s : State) (r : Region) : State :=
  let site := r.siteId (r.shape.rows - 1) 0 % 4096
  let fix (p : Packet) : Packet := if p.region = some r.rid ∧ p.result.isNone ∧ p.poison.isNone then
    { p with poison := some (BitVec.ofNat 64 (site + 2 ^ 12 * 4)) } else p
  let s := { s with work := { s.work with packets := s.work.packets.map fix } }
  let s := s.freeRegion r.rid
  (s.work.packets.filter Packet.waits).foldl State.enterWaiting s

/-- A packet's result leaves the exit. It is held there until its stores on other modules, which the machine has requested
from a number on, have been acknowledged (R212, R441). -/
def State.leaveExit (s : State) (p : Packet) (ws : List Word) (flags : BitVec 5) (before : Nat) : State :=
  let acks := (s.host.outstanding.filter (fun o => o.isStore && decide (before ≤ o.rq))).map (fun o => o.rq)
  s.setPacket { p with result := some (ws, flags), acks := acks }

/-- The exit still holds a packet's result. -/
def State.heldAtExit (s : State) (p : Packet) : Bool := p.acks.any (fun k => s.host.outstanding.any (fun o => o.rq == k))

/-- A served configuration's last packet has left its region: an occasion for a decision (R388). -/
def State.packetLeft (s : State) (r : Region) : State :=
  if s.hasPacket r.rid then s else s.needDecision r.die r.cluster

/-- The payload with which a tag's packet leaves poisoned: the first that an element has recorded at the exit, else of a PSN among the
results, else of a token that is no result, else of a store that meets an error mark (R201, R211, R459). -/
def State.exitPoison (s : State) (r : Region) (tag : Nat) (hs : List Token) : Option (BitVec 64) :=
  match r.psn.find? (fun q => q.1 == tag) with
  | some q => some q.2
  | none => ((hs.find? (fun (t : Token) => t.kind == 6)).map (fun (t : Token) => t.payload.truncate 64)).or
      ((r.exitFault hs).or ((s.marred (r.tagStores tag)).map (fun b =>
        BitVec.ofNat 64 (r.siteId b.row 0 % 4096 + 2 ^ 12 * 0x8C))))

/-- SERVED_EXIT (R210 to R212): all results of one tag stand at the exit, and nothing of its packet is under way. -/
def execServedExit (rid : Nat) (s : State) : Out :=
  match s.region? rid with
  | none => .next s
  | some r =>
    match ((List.range r.image.res).mapM r.resultHead : Option (List Token)) with
    | none => .next s
    | some hs =>
      let tag := (hs.map (fun t => t.tag)).headD 0
      if !r.served || hs.isEmpty || r.underWay tag then .next s
      else if hs.any (fun t => t.tag != tag) then .next (s.lostStep r)
      else match s.work.packets.find? (fun p => p.region == some rid && p.tag == tag && p.result.isNone && p.poison.isNone) with
        | none => .next s
        | some p =>
          let bad := s.exitPoison r tag hs
          let flags := match r.pflags.find? (fun q => q.1 == tag) with
            | some q => q.2
            | none => 0#5
          let taken := (List.range r.image.res).foldl (fun r i =>
            r.takeTok (r.exitElem i) (i % 4)) r
          let s' := s.setRegion { taken.dropTag tag with lastMove := s.cycle }
          match bad with
          | some x => .next ((s'.setPacket { p with poison := some x }).packetLeft r)
          | none =>
            if !((r.tagStores tag).all (s.releases r)) then .next s
            else
              let ws := hs.map (fun (t : Token) => t.payload.truncate 64)
              .next (((s'.releaseTag r tag).leaveExit p ws flags s.fresh).packetLeft r)

/-! ## The result at its caller (R171, R172, R338) -/

/-- The record of a poisoned packet: WINOVF for FCODE 0x92, else SERVEP. The exit completes the element id. -/
def Packet.servep (p : Packet) (x : BitVec 64) : TrapRec :=
  let fcode := bits x 19 12
  let id := if p.region.isNone then 0 else p.cluster * 512 + bits x 8 0
  { cause := if fcode = 0x92 then 18 else 8, fcode := fcode, info0 := w64 (id + 2 ^ 16 * fcode)
    info1 := w64 (p.handle + 2 ^ 8 * p.tag) }

/-- SERVE_RESULT_ARRIVAL, once the exit holds the result no longer (R212). -/
def execServeResultArrival (pid : Nat) (s : State) : Out :=
  match s.packet? pid with
  | none => .next s
  | some p => if s.heldAtExit p then .next s else match p.caller with
    | .cell _ => .next s
    | .strand u =>
      match p.result, p.poison with
      | none, none => .next s
      | some (ws, fl), _ =>
        .next ((s.dropPacket pid).onStrand u (fun t => t.parkedFor .serve) (fun s =>
          (((s.setGs p.dst ws).mergeFlags fl).unpark).adv))
      | none, some x =>
        .next ((s.dropPacket pid).onStrand u (fun t => t.parkedFor .serve) (fun s => s.trap (p.servep x)))

end Sys2Proof.Machine
end

