-- ==== Sys2Proof/Machine/Evals.lean ====
section
/-! DEFINITION. Requests for evaluators and the results of evaluation packets (R297 to R299). -/
namespace Sys2Proof.Machine

/-- PRIO of an eclosion's record. -/
def Eclosion.prio (e : Eclosion) : Nat := bits e.word2 9 8

/-- The clusters among which a rule HOME or ANY chooses: for a packet, those of its image's kind (R467). -/
def State.clustersFor (s : State) (e : Eclosion) : List Nat :=
  if e.word0.getLsbD 0 then match s.image? e.site.part (bits e.word0 63 1) with
    | some im => (List.range 64).filter im.kind.runsIn
    | none => List.range 64
  else List.range 64

/-- The die and cluster that an eclosion's rule names when its request is released (R294, R297). Where the partition has SPL 0
on that die it is the launching agent's die (R383); an agent on another module has none here, and the packet of
one runs on the lowest die with a window, which stands for its die too (log entry 115). -/
def State.evalPlace (s : State) (e : Eclosion) : Nat × Nat :=
  let home := paDie e.cell
  let rule := if e.remote && (bits e.word2 1 0 == 0 || bits e.word2 1 0 == 3) then 1 else bits e.word2 1 0
  let die := if rule = 0 ∨ rule = 3 then e.site.die else home
  let other := if !e.remote && s.windowOn e.site.part e.site.die then e.site.die
    else ((List.range 8).find? (s.windowOn e.site.part)).getD die
  let die := if s.windowOn e.site.part die then die else other
  if rule = 0 then (die, e.site.cluster)
  else if rule = 2 then (die, bits e.word2 7 2)
  else (die, s.mostFree die (s.clustersFor e))

/-- The lowest free entry of a cluster's cell-packet table (R299). -/
def State.freeCellPkt (s : State) (die cluster : Nat) : Option Nat :=
  (List.range 128).find? (fun i => !(s.cells.cellPkts.any (fun p => p.1 == die && p.2.1 == cluster && p.2.2.1 == i)))

/-- The EVAL budget releases a request (R297): every request was charged at its eclosion (R295), so those that wait do not
count against the next. -/
def State.evalAdmits (s : State) (die part : Nat) : Bool :=
  match (s.part part).budget[1]?.getD none with
  | none => true
  | some _ =>
    let waiting := (s.cells.eclosions.filter (fun e => paDie e.cell == die && e.site.part == part && !e.released)).length
    decide (0 < (((s.part part).avail[die]?.getD {}).left[1]?.getD 0) + (waiting : Int))

/-- The evaluator strand of an eclosion (R298). -/
def State.evalStrand (s : State) (e : Eclosion) (die cluster : Nat) : State :=
  let uid := s.fresh
  let ctl := s.newCtl e.site.part die e.site.asid e.site.ptb e.site.tvec false
  let s := s.newStrand .evaluator e.site.part die cluster 0 false e.word0 [e.va, e.word1, e.word3, e.word2] ctl 0
  s.mapEclosion e.eid (fun e => { e with evaluator := .queued uid, released := true })

/-- The evaluation packet of an eclosion (R299). Its local addresses name what those of the access that launched it name (log entry
133). -/
def State.evalPacket (s : State) (e : Eclosion) (die cluster idx : Nat) : State :=
  let cfg := bits e.word0 63 1
  let res := match s.image? e.site.part cfg with
    | some im => im.res
    | none => 0
  let p : Packet :=
    { pid := s.fresh, die := die, cluster := cluster, caller := .cell idx, tag := 128 + idx, handle := 0, cfg := cfg
      launch := none, site := e.site, args := [e.va, e.word1, e.word3], since := s.cycle, dst := 0, res := res
      region := none, result := none, poison := none }
  let s := { s with cells := { s.cells with cellPkts := s.cells.cellPkts ++ [(die, cluster, idx, e.eid)] } }
  let on (e : Eclosion) : Eclosion := { e with evaluator := .packet die cluster idx, released := true, queuedAt := none }
  (s.addPacket p).mapEclosion e.eid on

/-- A packet that waits for an entry of a cluster's cell-packet table, before every other of that cluster, when an entry is
free (R299): its eclosion, place and entry. -/
def State.nextPacket (s : State) (e : Eclosion) : Option (Nat × Nat × Nat) :=
  match e.queuedAt with
  | none => none
  | some (d, c, n) =>
    if s.cells.eclosions.any (fun x => x.queuedAt.any (fun q => q.1 == d && q.2.1 == c && decide (q.2.2 < n))) then none
    else (s.freeCellPkt d c).map (fun i => (d, c, i))

/-- A request enters its cluster: a strand its spawn queue, a packet the cell-packet table or, behind others or with every
entry in use, the same order (R297, R299). -/
def State.release (s : State) (e : Eclosion) : State :=
  let p := s.evalPlace e
  if !(e.word0.getLsbD 0) then s.evalStrand e p.1 p.2
  else
    let e' := { e with released := true, queuedAt := some (p.1, p.2, s.fresh) }
    let s := { s.mapEclosion e.eid (fun _ => e') with fresh := s.fresh + 1 }
    match s.nextPacket e' with
    | some (d, c, i) => s.evalPacket e' d c i
    | none => s

/-- A request may be released. One for a strand where the partition has no window stays at its home slice: the partition
cannot hold strands there (R360, log entry 115). -/
def State.releasable (s : State) (e : Eclosion) : Bool :=
  !e.released && (e.word0.getLsbD 0 || s.windowOn e.site.part (s.evalPlace e).1)

/-- EVAL_REQUEST_RELEASE (R297): of a partition's requests at the home slices of a die, the one of the highest PRIO, and of
those the first, is released while the EVAL budget admits it. A released packet that waited for an entry goes first. -/
def execEvalRequestRelease (die part : Nat) (s : State) : Out :=
  let mine := s.cells.eclosions.filter (fun e => paDie e.cell == die && e.site.part == part)
  match mine.findSome? (fun e => (s.nextPacket e).map (fun q => (e, q))) with
  | some (e, d, c, i) => .next (s.evalPacket e d c i)
  | none => match mine.filter s.releasable with
    | [] => .next s
    | e :: es =>
      if !(s.evalAdmits die part) then .next s
      else .next (s.release (es.foldl (fun b x => if b.prio < x.prio ∨ (b.prio = x.prio ∧ x.eid < b.eid) then x else b) e))

/-- The result of an evaluation packet fills its cell as CFIL does; that of a detached one is discarded (R293, R299). -/
def State.fillCell (s : State) (die cluster idx : Nat) (ws : List Word) : State :=
  let mine (p : Nat × Nat × Nat × Nat) : Bool := p.1 == die && p.2.1 == cluster && p.2.2.1 == idx
  match s.cells.cellPkts.find? mine with
  | none => s
  | some (_, _, _, eid) =>
    let s := { s with cells := { s.cells with cellPkts := s.cells.cellPkts.filter (fun p => !(mine p)) } }
    match s.cells.eclosions.find? (fun e => e.eid == eid) with
    | some e => (((s.wr e.cell 32 0).wrBytes e.cell (ws.flatMap (fun w => leBytes 8 w.toNat))).setTag e.cell .value).endEclosion e
    | none => s

/-- EVAL_PACKET_RESULT (R299). -/
def execEvalPacketResult (pid : Nat) (s : State) : Out :=
  match s.packet? pid with
  | none => .next s
  | some p => if s.heldAtExit p then .next s else match p.caller with
    | .strand _ => .next s
    | .cell i =>
      match p.result, p.poison with
      | none, none => .next s
      | some (ws, _), _ => .next ((s.dropPacket pid).fillCell p.die p.cluster i ws)
      | none, some _ => .next ((s.dropPacket pid).poisonCell p.die p.cluster i)

end Sys2Proof.Machine
end

