-- ==== Sys2Proof/Machine/FrameRules.lean ====
section
/-! DEFINITION. What an image must satisfy to be loaded: code IMAGE of R427, by the rules of fronds, frames and elements (R194
to R288, R321, R322, R346, R429, R467). -/
namespace Sys2Proof.Machine

/-! ## Frames -/


/-- Bits `hi..lo` are zero. -/
def zeroBits (f : BitVec 256) (hi lo : Nat) : Bool := fld f hi lo == 0

/-- No value but 0 stands twice. -/
def distinctSels (l : List Nat) : Bool := let m := l.filter (fun x => x != 0); m.eraseDups.length == m.length

/-- A select of a scalar port, or none. -/
def scalarSel (x : Nat) : Bool := decide (x ≤ 4)

/-- Levels that are present are contiguous from level 0 (R226, R244). -/
def contiguous (l : List Nat) : Bool := (l.dropWhile (fun n => n != 0)).all (fun n => n == 0)

/-- FMT codes of integer formats (R223). -/
def intFmt (n : Nat) : Bool := n == 4 || n == 5 || n == 6

/-- The kind, its column and its index agree (R220). -/
def frameSite (sh : Shape) (f : Frame) : Bool :=
  let k := frameKind f
  let c := frameCol f
  let r := frameRow f
  let i := frameIdx f
  fld f.bits 7 4 == 1 && bits f.addr 1 0 == 0 && bits f.addr 31 16 == 0 && decide (r < sh.rows) &&
    (if k = 0 then decide (2 ≤ c) && decide (c ≤ 9) && i == 0
     else if k = 1 then (c == 10 || c == 11) && i == 0
     else if k = 2 then (c == 12 || c == 13) && i == 0
     else if k = 3 then c == 14 && r % 2 == 0 && i == 0
     else if k = 4 then c == 1 && i == 0
     else if k = 5 then c == 0 && i == 0
     else if k = 7 then c == 0 && r == 0 && framePlane f == 0 && i == 31
     else if k = 8 then c == 14 && r % 2 == 0 && (decide (i ≤ 21) || i == 31)
     else false)

/-! ## CE frames (R222 to R235) -/

/-- The operands that an operation reads: A, B, C. -/
def uopReads (op : Nat) : Option (Bool × Bool × Bool) :=
  if op = 0 ∨ op = 8 ∨ op = 9 ∨ (0x0A ≤ op ∧ op ≤ 0x10) then some (true, false, false)
  else if op = 4 ∨ op = 5 ∨ op = 0x26 ∨ op = 0x28 then some (true, true, true)
  else if op ≤ 0x25 then some (true, true, false)
  else if op = 0x27 ∨ op = 0x29 ∨ op = 0x2B ∨ op = 0x2C then some (true, false, false)
  else if op = 0x2A then some (false, false, false)
  else none

/-- Fields of a micro-operation (R231). -/
def uopOp (u : BitVec 16) : Nat := bits u 15 10
def uopDst (u : BitVec 16) : Nat := bits u 9 8
def uopA (u : BitVec 16) : Nat := bits u 7 5
def uopB (u : BitVec 16) : Nat := bits u 4 2
def uopC (u : BitVec 16) : Nat := bits u 1 0

/-- The inputs, 0 to 2, that a micro-operation names. -/
def uopInputs (u : BitVec 16) : List Nat :=
  match uopReads (uopOp u) with
  | none => []
  | some (a, b, c) =>
    (if a && decide (3 ≤ uopA u) && decide (uopA u ≤ 5) then [uopA u - 3] else []) ++
    (if b && decide (3 ≤ uopB u) && decide (uopB u ≤ 5) then [uopB u - 3] else []) ++
    (if c && uopC u == 3 then [2] else [])

/-- A micro-operation is well formed in its frame (R223, R231, R232, R233). -/
def uopOk (f : BitVec 256) (served : Bool) (u : BitVec 16) : Bool :=
  let op := uopOp u
  let level (l : Nat) : Bool := decide (l < 4) && !served && (ceCnts f).getD l 0 != 0
  let float := (decide (1 ≤ op) && decide (op ≤ 0x0E)) || (decide (0x11 ≤ op) && decide (op ≤ 0x14))
  let int := intFmt (ceFmt f)
  let outs := fld f 31 28
  !(float && int) && (match uopReads op with
    | none => false
    | some (a, b, c) =>
      if op = 0x27 then level (uopB u) && uopDst u != 3 && (if uopC u = 0 then !int else if uopC u = 1 then int else true)
      else if op = 0x29 then uopDst u == 0 && decide (uopB u < 4) && natBit outs (uopB u) && natBit outs (uopC u)
      else if op = 0x2A then uopA u == 0 && level (uopB u) && uopDst u != 3 && uopC u == 0
      else if op = 0x2B then uopDst u == 0 && level (uopB u) && uopC u == 0
      else if op = 0x2C then uopDst u == 0 && uopB u == 0 && uopC u == 0
      else a && (b || uopB u == 0) && (c || uopC u == 0))

/-- A CE frame. -/
def ceFrameOk (served : Bool) (f : BitVec 256) : Bool :=
  let ins := [ceIn f 0, ceIn f 1, ceIn f 2]
  let any := ins.any (fun x => x != 0)
  let us := (List.range (ceUcnt f)).map (fun i => ceUop f i)
  let named := us.flatMap uopInputs
  let cnts := ceCnts f
  decide (ceFmt f ≤ 7) && ins.all (fun x => decide (x ≤ 5)) && distinctSels ins &&
    [0, 1, 2].all (fun i => named.contains i == (ceIn f i != 0)) &&
    contiguous cnts && (!served || cnts.all (fun n => n == 0)) &&
    decide (ceAck f ≤ 2) && (ceAck f == 0 || (cnts.getD 0 0 != 0 && ceIn f 2 != 0)) &&
    decide (ceTrim f ≤ 2) &&
    (if ceEor f = 0 then any else decide (ceEor f ≤ 4) && !any && cnts.getD (ceEor f - 1) 0 != 0) &&
    (!(isComm 2 f) || (ins.filter (fun x => x != 0)).length == 1) &&
    zeroBits f 159 151 && decide (1 ≤ ceUcnt f) && decide (ceUcnt f ≤ 6) &&
    (List.range 6).all (fun i => if i < ceUcnt f then uopOk f served (ceUop f i) else ceUop f i == 0#16)

/-! ## ME frames (R236, R275 to R281) -/

/-- An ME frame. Its ORDOUT port stands in no OUTMASK (log entry 110). -/
def meFrameOk (served : Bool) (f : BitVec 256) : Bool :=
  let m := meMode f
  let slot := if meRow f then 8 else 1
  let data (x : Nat) : Bool := if meRow f then x == 0 || x == 5 else scalarSel x
  let ins := [meInd f, meInk f, ordIn 10 f]
  let outs := fld f 23 20
  let unused := meRmwop f == 0 && !(meSat f) && meFmt f == 0
  decide (m ≤ 4) && data (meInd f) && scalarSel (meInk f) && scalarSel (ordIn 10 f) && decide (ordOut 10 f ≤ 4) &&
    distinctSels ins && (ordOut 10 f == 0 || !(natBit outs (ordOut 10 f - 1))) &&
    decide (1 ≤ meSize f) && decide (meBase f + meSize f ≤ 4096) &&
    (!(meRow f) || (meBase f % 8 == 0 && meSize f % 8 == 0 && outs == 0)) && decide (meInit f ≤ 2) && zeroBits f 255 77 &&
    (!served || m == 2 || m == 3) && (!(fbit f 76) || m == 3) &&
    (if m = 0 then unused && meMdepth f != 0 && meSize f % (meMdepth f * slot) == 0
     else if m = 1 then meInd f != 0 && meInk f == 0 && unused && meMdepth f != 0 && decide (meMdepth f * slot ≤ meSize f)
     else if m = 2 then meInd f != 0 && meInk f != 0 && !(meRow f) && meMdepth f == 0 && decide (meRmwop f ≤ 9) && decide (meFmt f ≤ 7) &&
       ((meRmwop f == 9) == !(intFmt (meFmt f))) && (!(meSat f) || meRmwop f == 0)
     else if m = 3 then meInd f == 0 && meInk f != 0 && unused && meMdepth f == 0
     else meInk f == 0 && unused && meMdepth f == 0 && (meInd f == 0 || (outs == 0)))

/-! ## FE frames (R237, R261, R262, R266, R267, R274) -/

/-- An FE frame. A PAIRED SCAN has no second stream, and one whose AUXMASK names ports for it is refused (R262; log entry 135). -/
def feFrameOk (served : Bool) (f : BitVec 256) : Bool :=
  let m := feMode f
  let a := feIn f 0 != 0
  let b := feIn f 1 != 0
  let c := feIn f 2 != 0
  let c0 := feC0 f
  !served && decide (m ≤ 9) && decide (1 ≤ feDepth f) && decide (feLevel f < feDepth f) && (feLevel f == 0 || m == 4 || m == 7) &&
    [0, 1, 2].all (fun i => scalarSel (feIn f i)) && distinctSels [feIn f 0, feIn f 1, feIn f 2] &&
    (feOut f &&& feAux f) == 0 && decide (feFmt f ≤ 7) && decide (feOp f ≤ 4) && decide (feTrim f ≤ 2) && zeroBits f 255 92 &&
    (fbit f 59 == (m == 0 || m == 8)) && (m == 0 || m == 8 || (feSorted f == (m == 1 || m == 2))) &&
    (if m = 0 then !b && !c && (a || feDepth f == 1) && decide (c0 < 8) && (!(natBit c0 0) || feAux f == 0)
     else if m = 1 ∨ m = 2 then a && b && !c && decide (c0 < 2) && feTrim f != 2
     else if m = 3 then a && !b && !c && feAux f == 0
     else if m = 4 then a && !b && !c && feAux f == 0 && c0 == 0 && (feOp f != 0 || !(intFmt (feFmt f))) &&
       (feOp f != 1 || intFmt (feFmt f)) && (!(feComm f) || feLevel f + 1 == feDepth f)
     else if m = 5 then a && b && !c && decide (c0 ≤ 32)
     else if m = 6 then a && b && c && feAux f == 0
     else if m = 7 then a && b && !c && feAux f == 0 && decide (c0 < 2)
     else if m = 8 then a && !b && !c && feAux f == 0 && (c0 == 0 || c0 == 4)
     else a && b && !c && c0 == 0)

/-! ## XE frames and tables (R238, R241, R242, R282, R283) -/

def rowSel (x : Nat) : Bool := x == 0 || x == 5 || x == 6

def xeFrameOk (served : Bool) (f : BitVec 256) : Bool :=
  let m := xeMode f
  let af := xeAfmt f
  let cf := xeCfmt f
  let on (i : Nat) : Bool := xeIn f i != 0
  let pair := if af = 3 then cf == 0 || cf == 3 else decide (cf ≤ 2)
  let two := af == 2 || af == 3
  !served && !(fbit f 8) && decide (af ≤ 4) && decide (cf ≤ 3) && [0, 1, 3, 4].all (fun i => rowSel (xeIn f i)) && scalarSel (xeIn f 2) &&
    zeroBits f 42 39 && zeroBits f 255 46 &&
    (if m = 0 then af != 4 && pair && on 0 && !(on 2) && !(on 4) && (if two then on 1 == on 3 && xeRowout f == 3 else !(on 1) && xeRowout f != 0)
     else if m = 1 then af == 4 && pair && on 0 && on 2 && (!(on 4) || (on 1 && on 3)) && (xeRowout f == (if on 1 then 3 else 1))
     else if m = 2 then cf == 0 && !(on 0) && !(on 1) && !(on 2) && !(on 3) && on 4 && xeRowout f == 0
     else cf == 0 && !(on 0) && !(on 1) && !(on 2) && !(on 3) && !(on 4) && xeRowout f == 1)

/-- An XTBL frame; a narrow XE's control frame has PRED 0, and its second entry frame ends at code 15. -/
def xtblOk (narrow : Bool) (f : Frame) : Bool :=
  let b := f.bits
  if frameIdx f = 31 then zeroBits b 15 8 && zeroBits b 255 33 && (!narrow || zeroBits b 32 31)
  else zeroBits b 15 8 && zeroBits b 255 244 &&
    (if frameIdx f = 21 ∨ (narrow ∧ frameIdx f = 1) then zeroBits b 243 92 else true)

/-! ## AG and MP frames (R243 to R249, R346, R443) -/

def agFrameOk (served : Bool) (f : BitVec 256) : Bool :=
  zeroBits f 12 10 && zeroBits f 31 31 && scalarSel (agIni f) &&
    (if agInd f then served || agIni f != 0
     else !served && agIni f == 0 && contiguous (agCounts f) && (agCounts f).getD 0 0 != 0)

/-- A streamed MP without an address is a circuit port: range 0 alone is valid (R443), and no ORD reaches or leaves it
(R329). -/
def circuitForm (f : BitVec 256) : Bool :=
  natBit (mpRange f 0) 0 && ordIn 0 f == 0 && ordOut 0 f == 0 && (List.range 8).all (fun i => i == 0 || !(natBit (mpRange f i) 0)) && mpMode f != 2

def mpFrameOk (served : Bool) (f : BitVec 256) : Bool :=
  let m := mpMode f
  let w := fld f 13 11
  let data := mpData f
  m != 3 && decide (w ≤ 4) && (w != 4 || m != 2) && (m != 2 || w == 2 || w == 3) && (!(mpZero f) || (m == 0 && decide (w ≤ 2))) &&
    ((m == 0) == (data == 0)) && (!served || (List.range 8).all (fun i => !(natBit (mpRange f i) 0))) &&
    decide (mpAmo f ≤ 9) && decide (fld f 21 19 ≤ 5) && scalarSel (mpAddr f) &&
    (if m = 1 ∧ w = 4 then data == 5 else scalarSel data || (m == 1 && mpAddr f == 0 && data == 5)) &&
    scalarSel (ordIn 0 f) && decide (ordOut 0 f ≤ 4) && distinctSels [mpAddr f, data, ordIn 0 f] &&
    (ordOut 0 f == 0 || !(natBit (fld f 33 30) (ordOut 0 f - 1))) && zeroBits f 43 42 && zeroBits f 255 133 &&
    (mpAddr f != 0 || (if served then m == 0 else circuitForm f))

/-! ## ROWCTL (R204, R240) -/

/-- The field of a row. -/
def rowCtl (f : BitVec 256) (r : Nat) : Nat := fld f (8 + 3 * r + 2) (8 + 3 * r)

def rowctlOk (im : Image) (f : BitVec 256) : Bool :=
  zeroBits f 255 32 && (List.range 8).all (fun r => decide (r < im.shape.rows) || rowCtl f r == 0) &&
    (List.range 4).all (fun j => rowCtl f (2 * j) % 4 == rowCtl f (2 * j + 1) % 4) &&
    im.frames.all (fun g => decide (5 < frameKind g) || natBit (rowCtl f (frameRow g)) 2)

/-! ## Kind (R467) -/

def frameBroad (f : Frame) : Bool :=
  let b := f.bits
  let k := frameKind f
  (k == 3 && (xeMode b == 0 || (xeMode b != 1 && xeAfmt b != 4))) || (k == 0 && ceFmt b == 7) ||
    (k == 1 && meFmt b == 7) || (k == 2 && feFmt b == 7)

def frameNarrow (f : Frame) : Bool := frameKind f == 3 && (xeMode f.bits == 1 || (xeMode f.bits != 0 && xeAfmt f.bits == 4))

/-- The kind of an image; none when it would be both broad and narrow. -/
def imageKind (frames : List Frame) : Option ImageKind :=
  match frames.any frameBroad, frames.any frameNarrow with
  | true, true => none
  | true, false => some .broad
  | false, true => some .narrow
  | false, false => some .either

/-! ## Edges (R195 to R199, R221, R222) -/

/-- A port of the row lane. -/
def rowPort (p : Nat) : Bool := p == 4 || p == 5

/-- An element has that input, or output, port (R196). -/
def portFits (col port : Nat) (out : Bool) (f : BitVec 256) : Bool :=
  if port < 4 then true
  else if port = 5 then col == 14
  else if col = 14 then true
  else if col = 0 then true
  else if col = 10 ∨ col = 11 then meRow f
  else decide (2 ≤ col) && decide (col ≤ 9) && !out

/-- The frame is a circuit port's. -/
def Image.isCircuit (im : Image) (f : BitVec 256) : Bool := !im.served && bits f 3 0 == 5 && mpAddr f == 0

/-- An edge between sites that have its ports. No class 1 edge meets a circuit port (R329). -/
def Image.edgeOk (im : Image) (g : Edge) : Bool :=
  decide (g.plane < im.nplanes) && decide (g.prow < im.shape.rows) && decide (g.crow < im.shape.rows) &&
    (match im.frame? g.plane g.prow g.pcol, im.frame? g.plane g.crow g.ccol with
     | some p, some c => portFits g.pcol g.pport true p && portFits g.ccol g.cport false c &&
         rowPort g.pport == rowPort g.cport && !(g.cls1 && (rowPort g.pport || im.isCircuit p || im.isCircuit c)) &&
         !(bits p 3 0 == 1 && meMode p == 4 && meInd p != 0 && rowPort g.pport) &&
         (bits p 3 0 != 0 || decide (g.depth ≤ fld p 35 32 + 1))
     | _, _ => false)

/-- Two edges leave one output port. -/
def Edge.together (a b : Edge) : Bool := a.plane == b.plane && a.prow == b.prow && a.pcol == b.pcol && a.pport == b.pport

/-- Two edges end at one input port. -/
def Edge.meets (a b : Edge) : Bool := a.plane == b.plane && a.crow == b.crow && a.ccol == b.ccol && a.cport == b.cport

/-- At most four arcs leave a port (R119), and only class 1 arcs share an input (R430). -/
def Image.fansOk (im : Image) : Bool :=
  im.edges.all (fun g => decide ((im.edges.filter (fun x => x.together g)).length ≤ 4) &&
    ((im.edges.filter (fun x => x.meets g)).length ≤ 1 || (im.edges.filter (fun x => x.meets g)).all (fun x => x.cls1)))

/-- Every arc of an image: its edges and its ordering chains. -/
def Image.allEdges (im : Image) : List Edge := im.edges ++ chainsOf im.frames

/-- Slots that the arcs of a plane draw from one switch's pool (R197). -/
def Image.poolUse (im : Image) (plane row col : Nat) (rowLane : Bool) : Nat :=
  ((im.allEdges.filter (fun g => g.plane == plane && g.crow + b2n (g.cport == 5) == row && g.ccol == col &&
    rowPort g.cport == rowLane)).map (fun g => g.depth)).sum

/-- The pools hold the declared depths (R197, R217). -/
def Image.poolsOk (im : Image) : Bool :=
  im.allEdges.all (fun g => decide (im.poolUse g.plane (g.crow + b2n (g.cport == 5)) g.ccol (rowPort g.cport) ≤
    (if rowPort g.cport then 16 else 48)))

/-! ## Switches (R239) -/

/-- A route entry of a SW frame: valid with a face or the own element to enter by, some face or the own element to leave
by, and a depth where and only where it ends here; otherwise all zero. -/
def routeOk (e : BitVec 16) : Bool :=
  if e.getLsbD 0 then
    decide (bits e 4 2 ≤ 4) && bits e 9 5 != 0 && decide (bits e 14 10 ≤ 16) && (e.getLsbD 9 == (bits e 14 10 != 0))
  else e == 0#16

/-- Route entry `j` of a SW frame. -/
def swEntry (f : BitVec 256) (j : Nat) : BitVec 16 := f.extractLsb' (16 + 16 * j) 16

/-- A SW frame at its frame address (R219, R239). -/
def swFrameOk (f : Frame) : Bool :=
  bits f.addr 1 0 == 0 && bits f.addr 31 16 == 0 && frameKind f == 6 && fld f.bits 7 4 == 1 && decide (frameIdx f < 4) && zeroBits f.bits 15 8 &&
    (List.range 15).all (fun j => routeOk (swEntry f.bits j))

/-- The entries of the switch of a site in a plane. -/
def switchEntries (fs : List Frame) (plane row col : Nat) : List (BitVec 16) :=
  (fs.filter (fun f => framePlane f == plane && frameRow f == row && frameCol f == col)).flatMap
    (fun f => (List.range 15).map (swEntry f.bits))

/-- The sum of SDEPTH over the entries of a lane. -/
def laneDepth (es : List (BitVec 16)) (row : Bool) : Nat :=
  ((es.filter (fun e => e.getLsbD 1 == row)).map (fun e => bits e 14 10)).sum

/-- What a route entry says of the arc that ends with it, and what an arc says: lane, depth and class. -/
def swEnd (e : BitVec 16) : Nat := 4 * bits e 14 10 + 2 * b2n (e.getLsbD 1) + b2n (e.getLsbD 15)
def Edge.swEnd (g : Edge) : Nat := 4 * g.depth + 2 * b2n (rowPort g.cport) + b2n g.cls1

/-- The switch at which an arc ends: that of its consuming site, or of the row south of it for a south row input. -/
def Edge.endsAt (g : Edge) (plane row col : Nat) : Bool :=
  g.plane == plane && g.crow + b2n (g.cport == 5) == row && g.ccol == col

/-- The switch next to one through a face (0 n, 1 e, 2 s, 3 w), inside `rows` rows, with the face by which an arc enters it. -/
def beside (rows row col face : Nat) : Option (Nat × Nat × Nat) :=
  if face = 0 then (if row = 0 then none else some (row - 1, col, 2))
  else if face = 1 then (if col = 15 then none else some (row, col + 1, 3))
  else if face = 2 then (if row + 1 < rows then some (row + 1, col, 0) else none)
  else if col = 0 then none else some (row, col - 1, 1)

/-- The entries of a switch that an arc of a lane and class entering by a face (4: from the own element) may follow. -/
def entriesFrom (es : List (BitVec 16)) (lane cls : Bool) (face : Nat) : List (BitVec 16) :=
  es.filter (fun e => e.getLsbD 0 && e.getLsbD 1 == lane && e.getLsbD 15 == cls && bits e 4 2 == face)

/-- The places (switch, face entered by) that the entries lead to from some places, `n` switches away at most. -/
def leadsTo (rows : Nat) (es : Nat → Nat → List (BitVec 16)) (lane cls : Bool) : Nat → List (Nat × Nat × Nat) → List (Nat × Nat × Nat)
  | 0, l => l
  | n + 1, l =>
    let more := l.flatMap (fun q => (entriesFrom (es q.1 q.2.1) lane cls q.2.2).flatMap (fun e =>
      (List.range 4).filterMap (fun d => if e.getLsbD (5 + d) then beside rows q.1 q.2.1 d else none)))
    leadsTo rows es lane cls n (l ++ more).eraseDups

/-- An arc has a route of its lane and class: from the switch of its producing site it comes, entry by entry, to the switch at
which it ends, and leaves it there with its depth (R239, R429 item 2). -/
def routeFound (rows : Nat) (es : Nat → Nat → List (BitVec 16)) (g : Edge) : Bool :=
  (leadsTo rows es (rowPort g.cport) g.cls1 (16 * rows) [(g.prow + b2n (g.pport == 5), g.pcol, 4)]).any (fun q =>
    q.1 == g.crow + b2n (g.cport == 5) && q.2.1 == g.ccol &&
      (entriesFrom (es q.1 q.2.1) (rowPort g.cport) g.cls1 q.2.2).any (fun e => e.getLsbD 9 && bits e 14 10 == g.depth))

/-- An entry belongs to an arc: it starts at a site that produces on its lane and class or goes on from an entry of the switch
beside it, and each face by which it leaves leads to an entry there (R195, R239). -/
def entryTied (rows : Nat) (es : Nat → Nat → List (BitVec 16)) (edges : List Edge) (row col : Nat) (e : BitVec 16) : Bool :=
  let lane := e.getLsbD 1
  let cls := e.getLsbD 15
  (if bits e 4 2 = 4 then
     edges.any (fun g => g.prow + b2n (g.pport == 5) == row && g.pcol == col && rowPort g.cport == lane && g.cls1 == cls)
   else match beside rows row col (bits e 4 2) with
     | none => false
     | some (r, c, back) => (es r c).any (fun x => x.getLsbD 0 && x.getLsbD 1 == lane && x.getLsbD 15 == cls && x.getLsbD (5 + back))) &&
  (List.range 4).all (fun d => !(e.getLsbD (5 + d)) || (match beside rows row col d with
    | none => false
    | some (r, c, face) => !((entriesFrom (es r c) lane cls face).isEmpty)))

/-- The SW frames of an image: at most one for each INDEX of a switch, in the image's planes and shape; at each switch the
entries that end there are those of the arcs that end there, lane, depth and class; no pool is overdrawn; every arc has a route,
and every entry belongs to one. -/
def Image.switchesOk (im : Image) (fs : List Frame) : Bool :=
  fs.all (fun f => swFrameOk f && decide (framePlane f < im.nplanes) && decide (frameRow f < im.shape.rows)) &&
  (fs.map (fun f => (framePlane f, frameRow f, frameCol f, frameIdx f))).eraseDups.length == fs.length &&
  (List.range im.nplanes).all (fun p => ((im.allEdges.filter (fun g => g.plane == p)).all
    (routeFound im.shape.rows (switchEntries fs p)))) &&
  (List.range im.nplanes).all (fun p => (List.range im.shape.rows).all (fun r => (List.range 16).all (fun c =>
    ((switchEntries fs p r c).filter (fun e => e.getLsbD 0)).all
      (entryTied im.shape.rows (switchEntries fs p) (im.allEdges.filter (fun g => g.plane == p)) r c)))) &&
  (List.range im.nplanes).all (fun p => (List.range im.shape.rows).all (fun r => (List.range 16).all (fun c =>
    let es := switchEntries fs p r c
    let ends := (es.filter (fun e => e.getLsbD 9)).map swEnd
    sortBy id ends == sortBy id ((im.allEdges.filter (fun g => g.endsAt p r c)).map Edge.swEnd) &&
      decide (laneDepth es false ≤ 48) && decide (laneDepth es true ≤ 16))))

/-! ## Ordering chains (R321, R322, R429 item 3) -/

/-- No two writes have more than four loads between them, and no node of a class has its ORDIN or ORDOUT used by a class 1 edge of
the container or is a port without an address, which makes no access (R329, R429). -/
def chainsOk (frames : List Frame) (edges : List Edge) : Bool :=
  (List.range 4).all (fun p => (List.range 15).all (fun c => (chainWalk none [] (classNodes frames p (c + 1))).2)) &&
    frames.all (fun f => f.aclass == 0 || frameKind f != 5 || (mpAddr f.bits != 0 && !(edges.any (fun g =>
      g.cls1 && g.plane == framePlane f &&
      ((g.crow == frameRow f && g.ccol == frameCol f && g.cport + 1 == ordIn 0 f.bits) ||
       (g.prow == frameRow f && g.pcol == frameCol f && g.pport + 1 == ordOut 0 f.bits))))))

/-- The sites that class 1 arcs of a plane lead to from a set of sites, `n` arcs away at most. -/
def reach (edges : List Edge) (plane : Nat) : Nat → List (Nat × Nat) → List (Nat × Nat)
  | 0, l => l
  | n + 1, l =>
    let more := (edges.filter (fun g => g.cls1 && g.plane == plane && l.contains (g.prow, g.pcol))).map (fun g => (g.crow, g.ccol))
    reach edges plane n (l ++ more).eraseDups

/-- No class 1 path leads from an STS to an LDS or AMS at another MP (R322). -/
def Image.pathsOk (im : Image) (edges : List Edge) : Bool :=
  im.frames.all (fun f => frameKind f != 5 || mpMode f.bits != 1 ||
    (reach edges (framePlane f) im.frames.length [(frameRow f, frameCol f)]).all (fun q =>
      q.2 != 0 || q == (frameRow f, frameCol f) || (match im.frame? (framePlane f) q.1 q.2 with
        | some g => mpMode g == 1
        | none => true)))

/-! ## Served images (R209, R245, R346) -/

/-- The frame at an entry or exit site is a port frame with that OUTMASK; an AG that carries nothing may be idle. -/
def Image.portAt (im : Image) (row col mask : Nat) (needed : Bool) : Bool :=
  match im.frame? 0 row col with
  | some f => portFrame col f && (if col = 0 then fld f 33 30 else fld f 26 23) == mask || (!needed && !(portFrame col f))
  | none => !needed

def Image.servedOk (im : Image) : Bool :=
  let last := im.shape.rows - 1
  let low (n : Nat) : Nat := 2 ^ min n 4 - 1
  im.nplanes == 1 &&
    im.portAt 0 0 (low im.args) true && im.portAt 0 1 (low (im.args - 4)) (decide (4 < im.args)) &&
    im.portAt last 0 0 true && im.portAt last 1 0 (decide (4 < im.res)) &&
    im.frames.all (fun f => decide (5 < frameKind f) || decide (1 < frameCol f) || !(portFrame (frameCol f) f.bits) ||
      frameRow f == 0 || frameRow f == last) &&
    (List.range im.args).all (fun j => im.edges.any (fun g => g.prow == 0 && g.pcol == j / 4 && g.pport == j % 4)) &&
    (List.range im.res).all (fun i => im.edges.any (fun g => g.crow == last && g.ccol == i / 4 && g.cport == i % 4))

/-! ## The image -/

/-- An element frame by the rules of its kind. -/
def elemFrameOk (served : Bool) (narrow : Bool) (f : Frame) : Bool :=
  let k := frameKind f
  let b := f.bits
  (decide (5 < k) || isServed (frameCol f) b == served) &&
    (if k = 0 then ceFrameOk served b else if k = 1 then meFrameOk served b else if k = 2 then feFrameOk served b
     else if k = 3 then xeFrameOk served b else if k = 4 then agFrameOk served b else if k = 5 then mpFrameOk served b
     else if k = 8 then xtblOk narrow f else true)

/-- The planes of the frames rise. -/
def planesRise : List Frame → Bool
  | f :: g :: fs => decide (framePlane f ≤ framePlane g) && planesRise (g :: fs)
  | _ => true

/-- An image as its container gives it breaks no rule (code IMAGE). -/
def Image.ok (im : Image) : Bool :=
  let narrow := im.frames.any frameNarrow
  (imageKind im.frames).isSome && im.frames.all (fun f => frameSite im.shape f && decide (framePlane f < im.nplanes)) &&
    (im.frames.map (fun f => f.addr)).eraseDups.length == im.frames.length && planesRise im.frames &&
    im.frames.all (elemFrameOk im.served narrow) &&
    im.frames.all (fun f => frameKind f != 7 || rowctlOk im f.bits) &&
    im.edges.all im.edgeOk && im.fansOk && chainsOk im.frames im.edges && im.pathsOk im.allEdges &&
    im.frames.all (fun f => frameKind f != 2 || !(fbit f.bits 59) || (im.frame? (framePlane f) (frameRow f) 0).isSome) &&
    (if im.served then im.servedOk else im.frames.any (fun f => frameKind f == 4 && agGovern f.bits))

/-! ## Translation (R429) -/

/-- A memory node's frame with its place on a chain. An FE frame has no fields for it, so the translated frame keeps them
in its unused bits. -/
def chained (chain : List Edge) (f : Frame) : Frame :=
  let here (r c : Nat) : Bool := r == frameRow f && c == frameCol f
  let ins := chain.any (fun g => g.plane == framePlane f && here g.crow g.ccol)
  let outs := chain.any (fun g => g.plane == framePlane f && here g.prow g.pcol)
  let put (on : Bool) (lo : Nat) (b : BitVec 256) : BitVec 256 := if on then b ||| (7#256 <<< lo) else b
  { f with bits := if frameKind f = 5 then put outs 38 (put ins 34 f.bits) else put outs 228 (put ins 224 f.bits) }

/-- A CE's frame with DEPTH for the deepest arc that leaves the element (R222, R429 item 2). -/
def Image.withDepth (im : Image) (f : Frame) : Frame :=
  let outs := im.edges.filter (fun g => g.plane == framePlane f && g.prow == frameRow f && g.pcol == frameCol f)
  let d := outs.foldl (fun m g => max m (g.depth - 1)) 0
  if frameKind f = 0 then { f with bits := (f.bits &&& ~~~(0xF#256 <<< 32)) ||| (BitVec.ofNat 256 (d % 16) <<< 32) } else f

/-- The micro-operations of a CE carry no register into the next round: every read of a register follows a write of it in
the same firing, or is an ACC's (R429 item 6). -/
def uopsFresh : List (BitVec 16) → List Nat → Bool
  | [], _ => true
  | u :: us, written =>
    let reads := match uopReads (uopOp u) with
      | none => []
      | some (a, b, c) => (if a then [uopA u] else []) ++ (if b then [uopB u] else []) ++ (if c then [uopC u] else [])
    let writes := if uopOp u = 0x29 ∨ uopOp u = 0x2B ∨ uopOp u = 0x2C then [] else [uopDst u]
    (uopOp u == 0x27 || reads.all (fun r => decide (2 < r) || written.contains r)) && uopsFresh us (written ++ writes)

/-- The image is round-independent. -/
def roundFree (frames : List Frame) : Bool :=
  frames.all (fun f =>
    let k := frameKind f
    let b := f.bits
    if k = 0 then uopsFresh ((List.range (ceUcnt b)).map (fun i => ceUop b i)) []
    else if k = 1 then meMode b == 1 || meMode b == 3
    else if k = 2 then feMode b != 8
    else if k = 3 then xeMode b != 2
    else true)

/-- The translated image: its kind, its mark, its chains, the depths of its CEs. -/
def Image.translated (im : Image) (replay : Word) (switches : List Frame) : Image :=
  let chain := chainsOf im.frames
  { im with kind := (imageKind im.frames).getD .either
            indep := !im.served && roundFree im.frames
            replay := replay
            switches := switches
            frames := im.frames.map (fun f => im.withDepth (if f.aclass = 0 then f else chained chain f)) }

end Sys2Proof.Machine
end

