-- ==== Sys2Proof/Machine/Graphs.lean ====
section
/-! DEFINITION. GRAPH_LOAD: containers, their checks, and the load (R420 to R433, R467). -/
namespace Sys2Proof.Machine

/-! ## Containers (R420) -/

/-- A little-endian field of a byte string. -/
def byteField (c : List Byte) (off n : Nat) : Nat := leNat ((c.drop off).take n)

/-- Bytes of a byte string. -/
def sliceOf (c : List Byte) (off n : Nat) : List Byte := (c.drop off).take n

/-- An entry of the section table. -/
structure Section where
  kind  : Nat
  off   : Nat
  len   : Nat
  vaddr : Nat
deriving DecidableEq, Repr

def sectionAt (c : List Byte) (i : Nat) : Section :=
  let o := 64 + 32 * i
  { kind := byteField c o 2, off := byteField c (o + 4) 4, len := byteField c (o + 8) 4, vaddr := byteField c (o + 12) 8 }

def sectionsOf (c : List Byte) : List Section := (List.range (byteField c 6 2)).map (sectionAt c)

/-- The bytes of a section. -/
def Section.bytes (x : Section) (c : List Byte) : List Byte := sliceOf c x.off x.len

/-- Placed at a virtual address: TEXT, DATA, CELLS. -/
def Section.placed (x : Section) : Bool := x.kind == 1 || x.kind == 2 || x.kind == 3

/-- Sections of a type, in table order. -/
def ofKind (l : List Section) (k : Nat) : List Section := l.filter (fun x => x.kind == k)

/-- Two placed sections overlap. -/
def Section.crosses (x y : Section) : Bool := overlaps x.vaddr x.len y.vaddr y.len

/-- An address lies in a section of a type. -/
def inKind (l : List Section) (k a n : Nat) : Bool :=
  (ofKind l k).any (fun x => decide (x.vaddr ≤ a) && decide (a + n ≤ x.vaddr + x.len))

/-- No two of a list cross. -/
def noneCross : List Section → Bool
  | [] => true
  | x :: xs => xs.all (fun y => !(x.crosses y)) && noneCross xs

/-- Header and section table (R420). -/
def headerOk (c : List Byte) (given : Nat) : Bool :=
  let n := byteField c 6 2
  let len := byteField c 20 4
  decide (64 ≤ given) && byteField c 0 4 == 0x47445648 && byteField c 4 2 == 1 && decide (1 ≤ n) && decide (n ≤ 4096) &&
    byteField c 18 2 == 0 && (sliceOf c 24 40).all (fun b => b == 0#8) && decide (len ≤ given) && decide (64 + 32 * n ≤ len)

def sectionOk (c : List Byte) (i : Nat) : Bool :=
  let o := 64 + 32 * i
  let x := sectionAt c i
  decide (1 ≤ x.kind) && decide (x.kind ≤ 7) && byteField c (o + 2) 2 == 0 && (sliceOf c (o + 20) 12).all (fun b => b == 0#8) &&
    x.off % 8 == 0 && decide (x.off + x.len ≤ byteField c 20 4) && decide (x.vaddr + x.len ≤ 2 ^ 64) &&
    (x.placed || x.vaddr == 0) && (x.kind != 1 || (x.vaddr % 4 == 0 && x.len % 4 == 0)) &&
    (x.kind != 3 || (x.vaddr % 32 == 0 && x.len % 32 == 0))

/-! ## Images (R421) -/

/-- A node record. -/
def nodeAt (c : List Byte) (o : Nat) : Frame :=
  { addr := BitVec.ofNat 32 (byteField c o 4), aclass := byteField c (o + 4) 1 % 16, bits := BitVec.ofNat 256 (byteField c (o + 8) 32) }

/-- An edge record. -/
def edgeAt (c : List Byte) (o : Nat) : Edge :=
  let x := byteField c o 8
  { plane := natBits x 1 0, prow := natBits x 4 2, pcol := natBits x 8 5, pport := natBits x 11 9
    crow := natBits x 14 12, ccol := natBits x 18 15, cport := natBits x 21 19, depth := natBits x 26 22, cls1 := natBit x 27 }

/-- Node and edge counts of a FROND section. -/
def nodesIn (b : List Byte) : Nat := byteField b 4 2
def edgesIn (b : List Byte) : Nat := byteField b 6 2

/-- The image of a FROND section, not yet translated. -/
def imageOf (b : List Byte) : Image :=
  let a := byteField b 3 1
  let sh := byteField b 1 1
  { served := byteField b 0 1 == 1, shape := if sh = 0 then .whole else if sh = 1 then .half else .quarter
    nplanes := byteField b 2 1, args := a % 16, res := a / 16
    frames := (List.range (nodesIn b)).map (fun i => nodeAt b (16 + 40 * i))
    edges := (List.range (edgesIn b)).map (fun i => edgeAt b (16 + 40 * nodesIn b + 8 * i))
    kind := .either, indep := false, replay := 0#64 }

/-- The layout of a FROND section. A frame is of a KIND of R220, SW apart. ACLASS belongs to MPs and to FEs with BINDEN. -/
def frondOk (b : List Byte) : Bool :=
  let n := nodesIn b
  let m := edgesIn b
  let a := byteField b 3 1
  let served := byteField b 0 1 == 1
  let arity (x : Nat) : Bool := decide (1 ≤ x) && decide (x ≤ 8)
  decide (16 ≤ b.length) && decide (byteField b 0 1 ≤ 1) && decide (byteField b 1 1 ≤ 2) && decide (1 ≤ byteField b 2 1) &&
    decide (byteField b 2 1 ≤ (if served then 1 else 4)) && (if served then arity (a % 16) && arity (a / 16) else a == 0) &&
    (sliceOf b 8 8).all (fun x => x == 0#8) && b.length == 16 + 40 * n + 8 * m &&
    (List.range n).all (fun i =>
      let o := 16 + 40 * i
      let f := nodeAt b o
      byteField b (o + 5) 3 == 0 && decide (byteField b (o + 4) 1 < 16) && frameKind f != 6 && decide (frameKind f ≤ 8) &&
        (f.aclass == 0 || frameKind f == 5 || (frameKind f == 2 && fbit f.bits 59))) &&
    (List.range m).all (fun i =>
      let x := byteField b (16 + 40 * n + 8 * i) 8
      let g := edgeAt b (16 + 40 * n + 8 * i)
      decide (x < 2 ^ 28) && decide (g.pport ≤ 5) && decide (g.cport ≤ 5) && decide (1 ≤ g.depth) && decide (g.depth ≤ 16))

/-! ## Kernels and relocations (R422, R423) -/

/-- A server field. -/
def serverOf (x : Nat) : Option Server :=
  if natBit x 31 then some { frond := natBits x 25 16, args := natBits x 3 0, res := natBits x 11 8 } else none

/-- A kernel record. Bit 6 of PLACE belongs to no field (log entry 107). -/
def kernelAt (b : List Byte) (o : Nat) : Kernel :=
  let p := byteField b (o + 12) 1
  { entry := w64 (byteField b o 8), roots := byteField b (o + 8) 2, max := byteField b (o + 10) 2, onDie := natBit p 7
    cluster := p % 64, q0 := byteField b (o + 14) 2, cells := byteField b (o + 16) 4
    whole := byteField b (o + 20) 1, half := byteField b (o + 21) 1, quarter := byteField b (o + 22) 1
    servers := (List.range 16).map (fun i => serverOf (byteField b (o + 32 + 4 * i) 4)) }

def kernelsIn (b : List Byte) : List Kernel := (List.range (b.length / 96)).map (fun i => kernelAt b (96 * i))

/-- A bound server names a served image of its own arity. -/
def serverOk (ims : List Image) (v : Server) : Bool :=
  match ims[v.frond]? with
  | some im => im.served && im.args == v.args && im.res == v.res
  | none => false

def kernelOk (l : List Section) (ims : List Image) (b : List Byte) (i : Nat) : Bool :=
  let k := kernelAt b (96 * i)
  inKind l 1 k.entry.toNat 1 && decide (1 ≤ k.roots) && decide (k.roots ≤ k.max) && byteField b (96 * i + 13) 1 == 0 &&
    (sliceOf b (96 * i + 23) 9).all (fun x => x == 0#8) && (k.servers.filterMap id).all (serverOk ims)

/-- A relocation: kind, frond index, address. -/
def relocAt (b : List Byte) (i : Nat) : Nat × Nat × Nat := (byteField b (16 * i) 1, byteField b (16 * i + 2) 2, byteField b (16 * i + 8) 8)

def relocsIn (b : List Byte) : List (Nat × Nat × Nat) := (List.range (b.length / 16)).map (relocAt b)

/-- The 32-bit word at a virtual address of a TEXT section. -/
def textWord (c : List Byte) (l : List Section) (a : Nat) : BitVec 32 :=
  match (ofKind l 1).find? (fun x => decide (x.vaddr ≤ a) && decide (a + 4 ≤ x.vaddr + x.len)) with
  | some x => BitVec.ofNat 32 (byteField c (x.off + (a - x.vaddr)) 4)
  | none => 0#32

/-- The word is the first of a LIMM.n. -/
def isLimmN (w : BitVec 32) : Bool := match decode w 0#32 with
  | .ok (.limmN _ _) => true
  | _ => false

def relocOk (c : List Byte) (l : List Section) (ims : List Image) (b : List Byte) (i : Nat) : Bool :=
  let (k, f, a) := relocAt b i
  byteField b (16 * i + 1) 1 == 0 && byteField b (16 * i + 4) 4 == 0 && (match ims[f]? with
    | none => false
    | some im =>
      if k = 1 then decide (4 ≤ a) && inKind l 1 (a - 4) 8 && a % 4 == 0 && isLimmN (textWord c l (a - 4))
      else k == 2 && a % 32 == 0 && inKind l 3 a 32 && im.served && im.args == 3 && decide (1 ≤ im.res) && decide (im.res ≤ 4))

/-! ## What a container holds -/

/-- A container taken apart. -/
structure Container where
  bytes    : List Byte
  sections : List Section
  images   : List Image
  kernels  : List Kernel
  relocs   : List (Nat × Nat × Nat)
deriving DecidableEq, Repr

def containerOf (c : List Byte) : Container :=
  let l := sectionsOf c
  { bytes := c, sections := l, images := (ofKind l 4).map (fun x => imageOf (x.bytes c))
    kernels := (ofKind l 5).flatMap (fun x => kernelsIn (x.bytes c))
    relocs := (ofKind l 6).flatMap (fun x => relocsIn (x.bytes c)) }

/-- Code FORMAT: R420 to R423. -/
def containerOk (c : List Byte) (given : Nat) : Bool :=
  let k := containerOf c
  let l := k.sections
  headerOk c given && (List.range l.length).all (sectionOk c) && noneCross (l.filter Section.placed) &&
    decide (k.images.length ≤ 1024) && (ofKind l 4).all (fun x => frondOk (x.bytes c)) &&
    (ofKind l 5).all (fun x => decide (0 < x.len) && x.len % 96 == 0 &&
      (List.range (x.len / 96)).all (kernelOk l k.images (x.bytes c))) &&
    (ofKind l 6).all (fun x => x.len % 16 == 0 && (List.range (x.len / 16)).all (relocOk c l k.images (x.bytes c)))

/-! ## TEXT (R424) -/

/-- Every word of a TEXT section is of the base strand set, or zero. -/
def textOk : List (BitVec 32) → Bool
  | [] => true
  | w :: ws =>
    if w = 0#32 then textOk ws
    else if isPair w then match ws with
      | [] => false
      | w2 :: rest => (match decode w w2 with
        | .ok _ => true
        | .error _ => false) && textOk rest
    else (match decode w 0#32 with
      | .ok _ => true
      | .error _ => false) && textOk ws

/-- The 32-bit words of a byte string. -/
def wordsOf (b : List Byte) : List (BitVec 32) := (List.range (b.length / 4)).map (fun i => BitVec.ofNat 32 (byteField b (4 * i) 4))

/-! ## Mappings (code MAP of R427) -/

/-- Pages that a range touches. -/
def pagesOf (a n : Nat) : List Nat :=
  if n = 0 then [] else (List.range ((a % 4096 + n + 4095) / 4096)).map (fun i => a / 4096 * 4096 + 4096 * i)

/-- Every page of a range is mapped on this module with the bits that a section type needs; type 0 is the cache window. -/
def State.mapOk (s : State) (x : Site) (kind a n : Nat) : Bool :=
  (pagesOf a n).all (fun p => match s.leafOf x p with
    | none => false
    | some e => e.u &&
      (if kind = 1 then e.x else if kind = 2 then e.r && e.w else if kind = 3 then e.c && e.r && e.w
       else e.r && e.x && !e.w && !e.c))

/-- Bytes written through a mapping (R292, R427). -/
def State.writeVa (s : State) (x : Site) : Nat → Nat → List Byte → State
  | 0, _, _ => s
  | n + 1, a, bs =>
    if bs.isEmpty then s
    else
      let k := 4096 - a % 4096
      let s' := match s.leafOf x a with
        | some e =>
          let pa := e.pbase + (a - e.vbase)
          (s.useKeys x.part e.key pa (min k bs.length)).writeRange pa (bs.take k)
        | none => s
      s'.writeVa x n (a + k) (bs.drop k)

/-- Bytes written through a mapping, all of them. -/
def State.putVa (s : State) (x : Site) (a : Nat) (bs : List Byte) : State := s.writeVa x (bs.length / 4096 + 2) a bs

/-! ## The translation cache (R431 to R433) -/

/-- The cache key of a container, under the firmware that runs. -/
def State.cacheKey (s : State) (c : List Byte) : BitVec 256 :=
  let tail := leBytes 4 s.translatorVersion.toNat ++ leBytes 8 featureVector.toNat ++ leBytes 4 s.microcodeRevision.toNat ++ leBytes 2 1
  Config.sm3 (c.length + 18) (leNat (c ++ tail))

/-- An entry of the index that is in force: place in the index, key, OFFSET, SIZE, stamp. -/
structure CacheEntry where
  idx   : Nat
  key   : BitVec 256
  off   : Nat
  size  : Nat
  stamp : Nat
deriving DecidableEq, Repr

/-- The entries of a window that hold. One whose MAC fails is absent. -/
def State.cacheEntries (s : State) (x : Site) (window : Nat) : List CacheEntry :=
  (List.range 64).filterMap (fun i =>
    let e := s.peek x (window + 64 * i) 48
    let c : CacheEntry := { idx := i, key := BitVec.ofNat 256 (byteField e 0 32), off := byteField e 32 4, size := byteField e 36 4, stamp := byteField e 40 8 }
    if c.size != 0 && s.macHolds x window c.off c.size c.key then some c else none)

/-- The lowest place in a window where `n` bytes fit beside entries. -/
def placeFor (es : List CacheEntry) (wlen n : Nat) : Option Nat :=
  (sortBy id (4096 :: es.map (fun e => e.off + e.size))).find? (fun o =>
    decide (o + n ≤ wlen) && es.all (fun e => !(overlaps o n e.off e.size)))

/-- The entry of a window with the oldest stamp that no loaded graph of the partition uses. -/
def State.oldestEntry (s : State) (part : Nat) (es : List CacheEntry) : Option CacheEntry :=
  match es.filter (fun e => !(s.work.graphs.any (fun g => g.part == part && g.loaded && g.key == e.key))) with
  | [] => none
  | e :: rest => some (rest.foldl (fun b y => if y.stamp < b.stamp then y else b) e)

/-- Where a new entry goes: its place in the index and in the window, with the entries evicted for it. -/
def State.cachePlan (s : State) (part wlen n : Nat) : Nat → List CacheEntry → List CacheEntry → Option (Nat × Nat × List CacheEntry)
  | 0, _, _ => none
  | fuel + 1, es, gone =>
    match (List.range 64).find? (fun i => es.all (fun e => e.idx != i)), placeFor es wlen n with
    | some i, some o => some (i, o, gone)
    | _, _ => match s.oldestEntry part es with
      | some e => s.cachePlan part wlen n fuel (es.filter (fun y => y.idx != e.idx)) (e :: gone)
      | none => none

/-- The translation cache's use by a load: the key's entry is there, or there is a place for it. -/
inductive CacheUse where
  | hit (e : CacheEntry) | store (idx off : Nat) (gone : List CacheEntry)
deriving DecidableEq, Repr

def State.cacheUse (s : State) (x : Site) (window wlen : Nat) (key : BitVec 256) : Option CacheUse :=
  let es := s.cacheEntries x window
  match es.find? (fun e => e.key == key) with
  | some e => some (.hit e)
  | none => (s.cachePlan x.part wlen (s.entryBytes x.part key).length 65 es []).map (fun p => .store p.1 p.2.1 p.2.2)

/-- The index entry written with a stamp, and a new entry's bytes. -/
def State.cacheWrite (s : State) (x : Site) (window : Nat) (key : BitVec 256) (u : CacheUse) : State :=
  let stamp := leBytes 8 s.plant.time.toNat
  match u with
  | .hit e => s.putVa x (window + 64 * e.idx + 40) stamp
  | .store i off gone =>
    let body := s.entryBytes x.part key
    let s := gone.foldl (fun s e => s.putVa x (window + 64 * e.idx) (List.replicate 64 0#8)) s
    let entry := leBytes 32 key.toNat ++ leBytes 4 off ++ leBytes 4 body.length ++ stamp ++ List.replicate 16 0#8
    (s.putVa x (window + off) body).putVa x (window + 64 * i) entry

/-! ## The load (R427) -/

/-- The configuration id of a frond index. -/
def cfgId (gen slot f : Nat) : Nat := gen % 2 ^ 15 * 2 ^ 16 + slot * 2 ^ 10 + f

/-- Bytes with others laid over them at an offset. -/
def patchAt (b : List Byte) (o : Nat) (p : List Byte) : List Byte := b.take o ++ p ++ b.drop (o + p.length)

/-- A section's bytes with the RELOC words of the ids. -/
def patched (k : Container) (gen slot : Nat) (x : Section) : List Byte :=
  k.relocs.foldl (fun b r =>
    let p := if r.1 = 1 then leBytes 4 (cfgId gen slot r.2.1) else leBytes 8 (cfgId gen slot r.2.1 * 2 + 1)
    if decide (x.vaddr ≤ r.2.2) && decide (r.2.2 + p.length ≤ x.vaddr + x.len) && (r.1 == 1) == (x.kind == 1) then
      patchAt b (r.2.2 - x.vaddr) p else b) (x.bytes k.bytes)

/-- A granule of a CELLS section that a `.cell` directive emitted: those of KIND 2 relocations, and those that the
container's maker knows. -/
def isRecord (k : Container) (key : BitVec 256) (a : Nat) : Bool :=
  k.relocs.any (fun r => r.1 == 2 && r.2.2 == a) || Config.cellGranule key a

/-- A CELLS section written granule by granule: a record with tag CHRYSALIS and its CREATOR and CHAIN zero, other granules
VALUE (R291, R355). -/
def State.writeCellsSection (s : State) (x : Site) (k : Container) (key : BitVec 256) (y : Section) (b : List Byte) : State :=
  (List.range (y.len / 32)).foldl (fun s i =>
    let a := y.vaddr + 32 * i
    let bs := sliceOf b (32 * i) 32
    if isRecord k key a then
      let s := s.putVa x a (bs.take 18 ++ List.replicate 6 0#8 ++ bs.drop 24)
      match s.paOf x a with
      | some pa => s.setTag pa .chrysalis
      | none => s
    else s.putVa x a bs) s

/-- A placed section written. -/
def State.writeSection (s : State) (x : Site) (k : Container) (key : BitVec 256) (gen slot : Nat) (y : Section) : State :=
  let b := patched k gen slot y
  if y.kind = 3 then s.writeCellsSection x k key y b
  else if y.placed then s.putVa x y.vaddr b
  else s

/-- The generation that a slot of a partition's graph table has used last. -/
def State.genOf (s : State) (part slot : Nat) : Nat :=
  match s.work.graphs.find? (fun g => g.part == part && g.slot == slot) with
  | some g => g.gen
  | none => 0

/-- The lowest free slot. -/
def State.freeSlot (s : State) (part : Nat) : Option Nat :=
  (List.range 64).find? (fun n => !(s.work.graphs.any (fun g => g.part == part && g.slot == n && g.loaded)))

/-- The SW frames of an image. -/
def switchFrames (key : BitVec 256) (f : Nat) : List Frame :=
  (Config.swFrames key f).map (fun p => { addr := p.1, aclass := 0, bits := p.2 })

/-- Where the entry that a load uses begins in the cache window. -/
def CacheUse.place : CacheUse → Nat
  | .hit e => e.off
  | .store _ off _ => off

/-- The images of a loaded graph whose entry in the cache window begins at an address. The replay kernels lie in the entry
(R432). -/
def loadedImages (k : Container) (key : BitVec 256) (entry : Nat) : List Image :=
  (List.range k.images.length).filterMap (fun f =>
    (k.images[f]?).map (fun im => im.translated (w64 (entry + Config.replayOffset key f)) (switchFrames key f)))

/-- The edges of the images can be routed within the pools (code ROUTE of R427). -/
def routed (k : Container) (key : BitVec 256) : Bool :=
  k.images.all Image.poolsOk && (List.range k.images.length).all (fun f => Config.routable key f &&
    (match k.images[f]? with
     | some im => im.switchesOk (switchFrames key f)
     | none => false))

/-- The checks of R427 in code order: the first that fails. `len` is the length given, `window` and `wlen` the cache
window. -/
def State.loadCode (s : State) (x : Site) (pa len asidx window wlen : Nat) (k : Container) : Nat :=
  let key := s.cacheKey k.bytes
  let c := k.bytes
  if (s.part x.part).tstate ≠ .run then 1
  else if !(s.inGranules x.part pa len) || !(containerOk c len) then 2
  else if BitVec.ofNat 64 (byteField c 8 8) &&& ~~~featureVector ≠ 0#64 then 3
  else if 1 < byteField c 16 2 then 4
  else if !((ofKind k.sections 1).all (fun y => textOk (wordsOf (y.bytes c)))) then 5
  else if !(k.images.all Image.ok) then 6
  else if !(routed k key) then 7
  else if (s.part x.part).asidCnt ≤ asidx || !((k.sections.filter Section.placed).all (fun y => s.mapOk x y.kind y.vaddr y.len)) ||
      !(s.mapOk x 0 window wlen) then 8
  else if (s.freeSlot x.part).isNone then 9
  else if wlen < 2 ^ 16 || (s.cacheUse x window wlen key).isNone then 10
  else 0

/-- The steps of a load that passes: TEXT and DATA sections are written before CELLS sections. -/
def State.loadGraph (s : State) (x : Site) (window wlen : Nat) (k : Container) : Reply :=
  let key := s.cacheKey k.bytes
  match s.freeSlot x.part, s.cacheUse x window wlen key with
  | some slot, some u =>
    let gen := (s.genOf x.part slot + 1) % 2 ^ 24
    let s := s.cacheWrite x window key u
    let (cells, first) := k.sections.partition (fun y => y.kind == 3)
    let s := (first ++ cells).foldl (fun s y => s.writeSection x k key gen slot y) s
    let g : Graph := { part := x.part, slot := slot, gen := gen, loaded := true, key := key, window := w64 window, wlen := wlen
                       images := loadedImages k key (window + u.place), kernels := k.kernels }
    let rest := s.work.graphs.filter (fun h => !(h.part == x.part && h.slot == slot))
    { code := 0, rs := [w64 (gen * 2 ^ 8 + slot)], s := { s with work := { s.work with graphs := g :: rest } } }
  | _, _ => s.refuse 10

/-- GRAPH_LOAD. -/
def execGraphLoad (fn : Nat) (s : State) : Out :=
  s.command fn 11 (fun p =>
    let pa := (s.rq fn 0).toNat
    let len := (s.rq fn 1).toNat
    let asidx := (s.rq fn 2).toNat
    let window := (s.rq fn 4).toNat
    let wlen := (s.rq fn 5).toNat
    let x := siteOf p ((s.part p).asidBase + asidx) (s.rq fn 3)
    let all := if s.inGranules p pa len then s.rdBytes pa len else []
    let k := containerOf (all.take (byteField all 20 4))
    some (match s.loadCode x pa len asidx window wlen k with
      | 0 => s.loadGraph x window wlen k
      | c => s.refuse c))

end Sys2Proof.Machine
end

