-- ==== Sys2Proof/Machine/Hosts.lean ====
section
/-! DEFINITION. The host port: BARs, MSI-X, status FIFO, launches, event queue, host DMA, resets (R367, R368, R372, R376 to
R383, R435 to R437). -/
namespace Sys2Proof.Machine

/-- A function that the module does not enumerate: a VF in state RECOVERY (R464). -/
def State.absent (s : State) (fn : Nat) : Bool := s.plant.bring == .recovery && fn != 0

/-- A function that drops writes: its partition is in ERROR (R369), or there is no such function (R464). -/
def State.dead (s : State) (fn : Nat) : Bool := (s.part fn).tstate == .error || s.absent fn

/-- The completion of a host read: its bytes. -/
def State.reply (s : State) (fn : Nat) (bs : List Byte) : State := s.send (.completion fn bs 0)

/-! ## Launch messages (R376, R377) -/

/-- A word of a launch message. -/
def msgWord (m : BitVec 512) (i : Nat) : Word := m.extractLsb' (64 * i) 64

/-- Room for a FULL refusal: none that is kept for completions of live launches and for the record of KIND 5. -/
def State.roomForFull (s : State) (fn : Nat) : Bool :=
  decide ((s.fn fn).fifo.length + (s.launchesOf fn).length + 2 ≤ 512)

/-- LAUNCH_MESSAGE: a write that covers the whole window is queued, with whether the partition is in RUN as it reaches the
mailbox (R369), or refused with FULL; any other is discarded. -/
def execLaunchMessage (fn : Nat) (msg : BitVec 512) (whole : Bool) (s : State) : Out :=
  let x := s.fn fn
  if s.dead fn || !whole then .next s
  else if x.mailbox.length < 16 then .next (s.setFn fn { x with mailbox := x.mailbox ++ [(msg, (s.part fn).tstate == .run)] })
  else if s.roomForFull fn && x.fullCount == 0 then
    .next (s.post fn (statusRec 2 11 0 (bits (msgWord msg 0) 10 8) (bits (msgWord msg 0) 63 32)))
  else .next (s.setFn fn { x with fullCount := min (x.fullCount + 1) (2 ^ 32 - 1) })

/-- The oldest status record is popped. When FULL refusals were not posted, the room that frees takes their record of
KIND 5 (R379). -/
def State.statusRead (s : State) (fn : Nat) : State :=
  let x := s.fn fn
  if s.absent fn then s.send (.completion fn [] 2)
  else if s.dead fn then s.reply fn (List.replicate 16 0xFF#8)
  else match x.fifo with
    | [] => s.reply fn (List.replicate 16 0#8)
    | r :: rest =>
      let s := (s.setFn fn { x with fifo := rest }).reply fn (leBytes 8 r.word0.toNat ++ leBytes 8 r.word1.toNat)
      if x.fullCount = 0 then s
      else (s.setFn fn { s.fn fn with fullCount := 0 }).post fn (statusRec 5 0 0 0 0 x.fullCount)

/-- STATUS_READ: a read of the 16 bytes of the status register. -/
def execStatusRead (fn : Nat) (s : State) : Out := .next (s.statusRead fn)

/-! ## Admission (R378 to R383) -/

/-- A message breaks R377. -/
def badFormat (m : BitVec 512) : Bool :=
  let w := msgWord m
  bits (w 0) 7 0 != 1 || bits (w 0) 15 11 != 0 || bits (w 0) 21 16 == 1 || bits (w 0) 31 22 != 0 || bits (w 2) 63 25 != 0 ||
    bits (w 3) 11 0 != 0 || bits (w 3) 63 52 != 0 || bits (w 4) 1 0 != 0 || w 7 != 0#64

/-- Bytes of save records and residency save records that a kernel reserves (R380). -/
def Kernel.saveBytes (k : Kernel) : Nat :=
  k.max * (2560 + 80 * k.q0) + k.whole * 2 ^ 20 + k.half * 2 ^ 19 + k.quarter * 2 ^ 18

/-- Quarter units that a kernel declares. -/
def Kernel.units (k : Kernel) : Nat := 4 * k.whole + 2 * k.half + k.quarter

/-- The graph that a handle names for a partition. -/
def State.graphOf (s : State) (part : Nat) (handle : Word) : Option Graph :=
  s.work.graphs.find? (fun g => g.part == part && g.loaded && g.gen * 256 + g.slot == handle.toNat)

/-- Images of a kernel's bound servers. -/
def Kernel.served (k : Kernel) (g : Graph) : List Image :=
  k.servers.filterMap (fun v => match v with
    | some v => g.images[v.frond]?
    | none => none)

/-- The refusal codes of R383 that a message meets, lowest first, once its graph and kernel are known. -/
def State.refusals (s : State) (fn die : Nat) (m : BitVec 512) (g : Graph) (k : Kernel) : List Nat :=
  let p := s.part fn
  let live := s.launchesOf fn
  let hasRegions := decide (0 < k.units) || k.servers.any Option.isSome
  let bytes := ((live.filter (fun l => l.die == die)).map (fun l => l.kernel.saveBytes)).sum + k.saveBytes
  let spl := (p.dies[die]?.getD {}).spl
  let checks : List (Nat × Bool) :=
    [ (4, decide (2 ^ 28 < bytes)), (5, decide (104 < k.q0))
    , (6, (!k.onDie && decide (16 < s.unitsReserved die k.cluster + k.units)) ||
        (k.served g).any (fun im => decide (k.declared im.shape = 0)))
    , (7, decide (2 ^ 18 < (live.map (fun l => l.kernel.cells)).sum + k.cells))
    , (8, spl == 0 || (!k.onDie && decide (64 ≤ k.cluster)) || (!k.onDie && (s.cluster die k.cluster).failed) || (k.onDie && hasRegions) || (!k.onDie && (k.served g).any (fun im => !(im.kind.runsIn k.cluster))))
    , (9, decide (p.asidCnt ≤ bits (msgWord m 2) 24 16))
    , (10, decide (256 ≤ (s.work.launches.filter (fun l => l.die == die)).length) || decide (256 ≤ live.length)) ]
  (checks.filter Prod.snd).map Prod.fst

/-- The lowest launch number of a die that no live launch has. -/
def State.freshLid (s : State) (die : Nat) : Nat :=
  ((List.range 256).find? (fun n => (s.launch? die n).isNone)).getD 0

/-- The root strands of a launch join the spawn queues (R118, R378). -/
def State.startRoots (s : State) (l : Launch) (arg0 arg1 : Word) : State :=
  (List.range l.kernel.roots).foldl (fun s i =>
    let c := if l.kernel.onDie then s.mostFree l.die (List.range 64) else l.kernel.cluster
    s.newStrand (.launch l.die l.lid) l.part l.die c 0 false l.kernel.entry [w64 i, arg0, arg1, w64 l.lid]
      (s.newCtl l.part l.die l.asid l.ptb l.tvec false) l.kernel.q0) s

/-- A launch admitted. -/
def State.admitLaunch (s : State) (fn die : Nat) (m : BitVec 512) (k : Kernel) : State :=
  let w := msgWord m
  let l : Launch := { die := die, lid := s.freshLid die, part := fn, tag := bits (w 0) 63 32, vec := bits (w 0) 21 16
                      graph := (w 1).toNat, kernel := k, asid := (s.part fn).asidBase + bits (w 2) 24 16
                      ptb := w 3, tvec := w 4, drops := 0, lost := 0 }
  let s := { s with work := { s.work with launches := s.work.launches ++ [l] } }
  (s.post fn (statusRec 1 0 l.lid die l.tag)).startRoots l (w 5) (w 6)

/-- Room in the FIFO for everything that R379 keeps. -/
def State.roomToAdmit (s : State) (fn : Nat) : Bool :=
  decide ((s.fn fn).fifo.length + (s.launchesOf fn).length + 3 ≤ 512)

/-- LAUNCH_ADMISSION: the oldest message of the mailbox is admitted or refused with the lowest code. One whose die has not
trained waits (R465). -/
def execLaunchAdmission (fn : Nat) (s : State) : Out :=
  let x := s.fn fn
  match x.mailbox with
  | [] => .next s
  | (m, running) :: rest =>
    let die := bits (msgWord m 0) 10 8
    let tag := bits (msgWord m 0) 63 32
    let done := s.setFn fn { x with mailbox := rest }
    let refuse (c : Nat) : Out := .next (done.post fn (statusRec 2 c 0 die tag))
    if !(s.roomToAdmit fn) then .next s
    else if !running || (s.part fn).tstate != .run then refuse 1
    else if badFormat m then refuse 2
    else if !(s.die die).trained then .next s
    else match s.graphOf fn (msgWord m 1) with
      | none => refuse 3
      | some g => match g.kernels[bits (msgWord m 2) 15 0]? with
        | none => refuse 3
        | some k => match s.refusals fn die m g k with
          | c :: _ => refuse c
          | [] => .next (done.admitLaunch fn die m k)

/-- LAUNCH_COMPLETE (R30, R379): every strand has retired, every copy has completed, every residency has been freed. -/
def execLaunchComplete (die lid : Nat) (s : State) : Out :=
  match s.launch? die lid with
  | none => .next s
  | some l =>
    let busy := s.liveOf (.launch die lid) != 0 || s.work.copies.any (fun c => c.site.ctx == .launch die lid) ||
      s.work.residencies.any (fun y => y.launch == (die, lid))
    if busy then .next s
    else
      let s := (s.work.regions.filter (fun r => r.launch == some (die, lid))).foldl (fun s r => s.freeRegion r.rid) s
      let w := { s.work with launches := s.work.launches.filter (fun x => !(x.die == die && x.lid == lid))
                             packets := s.work.packets.filter (fun q => q.launch != some (die, lid))
                             waitings := s.work.waitings.filter (fun q => q.launch != some (die, lid)) }
      let s := { s with work := w }.post l.part (l.endRec 3)
      .next (if l.vec = 0 then s else s.signal l.part l.vec)

/-! ## Event queue and MSI-X (R368, R372) -/

def execEqheadWrite (fn : Nat) (value : Word) (s : State) : Out :=
  if s.dead fn then .next s else .next (s.setFn fn { s.fn fn with eqHead := value.truncate 8 })

/-- EVENT_QUEUE_APPEND: a waiting report enters the queue while it is not full, and vector 0 is signalled. -/
def execEventQueueAppend (fn : Nat) (s : State) : Out :=
  let x := s.fn fn
  match x.reports with
  | [] => .next s
  | r :: rest =>
    if x.eqTail + 1#8 = x.eqHead then .next s
    else .next ((s.setFn fn { x with reports := rest, eqTail := x.eqTail + 1#8
                                     events := x.events.setIfInBounds x.eqTail.toNat r }).signal fn 0)

/-- A write of an MSI-X entry. One that clears the mask sends what is pending. In CONFIG_LOCKED and later it moves the
partition to ERROR instead (R368, R369). -/
def State.writeMsix (s : State) (fn idx : Nat) (value : BitVec 128) : State :=
  let t := (s.part fn).tstate
  if t = .error ∨ s.absent fn then s
  else if fn ≠ 0 ∧ t ≠ .unlocked then s.toError fn
  else
    let x := s.fn fn
    let s := s.setFn fn { x with msix := x.msix.setIfInBounds idx value }
    if !(value.getLsbD 96) && x.pba.getLsbD idx then
      (s.setFn fn { s.fn fn with pba := x.pba &&& ~~~(1#64 <<< idx) }).signal fn idx
    else s

def execMsixTableWrite (fn idx : Nat) (value : BitVec 128) (s : State) : Out := .next (s.writeMsix fn idx value)

/-! ## Registers (R436, R437) -/

/-- REGISTER_WRITE: an aligned 8-byte write to a function's BAR. -/
def execRegisterWrite (fn offset : Nat) (value : Word) (s : State) : Out :=
  let x := s.fn fn
  if s.dead fn || offset % 8 != 0 then .next s
  else if offset = 0x80 then execEqheadWrite fn value s
  else if offset = 0x100 then
    .next (if x.done then s.setFn fn { x with running := some value, done := false } else s)
  else if 0x108 ≤ offset ∧ offset < 0x200 then
    .next (s.setFn fn { x with request := x.request.setIfInBounds ((offset - 0x108) / 8) value })
  else if 0x1000 ≤ offset ∧ offset < 0x1400 then
    let i := (offset - 0x1000) / 16
    let old := x.msix[i]?.getD 0#128
    let new : BitVec 128 := if offset % 16 = 0 then (old.extractLsb' 64 64) ++ value else value ++ (old.truncate 64)
    .next (s.writeMsix fn i new)
  else .next s

/-- An aligned word of eight bytes of a function's BAR as a read shows it (R436); 0 where nothing can be read. -/
def State.barWord (s : State) (fn off : Nat) : Word :=
  let x := s.fn fn
  if off = 0x80 then x.eqHead.setWidth 64
  else if off = 0x88 then x.eqTail.setWidth 64
  else if off = 0x200 then w64 (b2n x.done + 2 ^ 8 * x.code.toNat)
  else if 0x208 ≤ off ∧ off < 0x300 then (x.response[(off - 0x208) / 8]?).getD 0#64
  else if 0x1000 ≤ off ∧ off < 0x1400 then
    let e := x.msix[(off - 0x1000) / 16]?.getD 0#128
    if off % 16 = 0 then e.setWidth 64 else e.extractLsb' 64 64
  else if off = 0x1800 then x.pba
  else if 0x2000 ≤ off ∧ off < 0x4000 then match x.events[(off - 0x2000) / 32]? with
    | some r => [r.word0, r.pc, r.info, r.time].getD (off % 32 / 8) 0#64
    | none => 0#64
  else 0#64

/-- A byte of a function's BAR. -/
def State.barByte (s : State) (fn off : Nat) : Byte := (leBytes 8 (s.barWord fn (off / 8 * 8)).toNat).getD (off % 8) 0#8

/-- A host read of a function's BAR (R436). One of exactly the 16 bytes of the status register pops a record; any other
shows nothing of it and pops nothing. In ERROR it returns all ones; a function that is not enumerated answers Unsupported
Request. -/
def State.barRead (s : State) (fn off len : Nat) : State :=
  if s.absent fn then s.send (.completion fn [] 2)
  else if s.dead fn then s.reply fn (List.replicate len 0xFF#8)
  else if off = 0x40 ∧ len = 16 then s.statusRead fn
  else s.reply fn ((List.range len).map (fun i => s.barByte fn (off + i)))

/-- UNSUPPORTED_REQUEST (R435). -/
def execUnsupportedRequest (fn : Nat) (s : State) : Out := .next (s.send (.completion fn [] 2))

/-! ## Host DMA (R65, R367) -/

/-- A host request cut at pages: physical address, KEY of its page, and length of each part. -/
def dmaParts (fn : Nat) : Nat → Nat → Nat → List (Nat × Nat × Nat)
  | 0, _, _ => []
  | fuel + 1, a, n =>
    if n = 0 then []
    else
      let k := min n (4096 - a % 4096)
      let p := Config.dmaWindow fn a
      (p.1, p.2, k) :: dmaParts fn fuel (a + k) (n - k)

/-- Every part lies in the partition's granules on a page that the request may reach: with T a KEY of 0 or 1, without it
1. T counts only on the function's IDE stream. -/
def State.dmaAllowed (s : State) (fn : Nat) (trusted : Bool) (ps : List (Nat × Nat × Nat)) : Bool :=
  let t := trusted && (s.fn fn).ide
  ps.all (fun p => s.inGranules fn p.1 p.2.2 && !(s.carved fn p.1 p.2.2) && (p.2.1 == 1 || (t && p.2.1 == 0)))

/-- The DRAM budgets of the die of every part allow it. -/
def State.dmaAdmits (s : State) (fn : Nat) (ps : List (Nat × Nat × Nat)) : Bool := ps.all (fun p => s.admits fn (paDie p.1) 2)

/-- The parts charged. -/
def State.dmaCharge (s : State) (fn : Nat) (ps : List (Nat × Nat × Nat)) : State :=
  ps.foldl (fun s p => s.charge fn (paDie p.1) 2 p.2.2) s

/-- HOST_DMA_READ: the bytes as held (R292); a marked line answers poisoned (R459). -/
def execHostDmaRead (fn : Nat) (trusted : Bool) (addr len : Nat) (s : State) : Out :=
  let ps := dmaParts fn 3 addr len
  if !(s.dmaAllowed fn trusted ps) then .next (s.send (.completion fn [] 1))
  else if !(s.dmaAdmits fn ps) then .next s
  else
    let s := ps.foldl (fun s p => s.useKeys fn p.2.1 p.1 p.2.2) (s.dmaCharge fn ps)
    let bad := ps.any (fun p => (unitsOf p.1 p.2.2 64).any s.isPoisoned)
    .next (s.send (.completion fn (ps.flatMap (fun p => s.rdBytes p.1 p.2.2)) (if bad then 3 else 0)))

/-- HOST_DMA_WRITE: a write meets cells as R292 says. -/
def execHostDmaWrite (fn : Nat) (trusted : Bool) (addr : Nat) (data : List (BitVec 8)) (s : State) : Out :=
  let ps := dmaParts fn 3 addr data.length
  if !(s.dmaAllowed fn trusted ps) then .next (s.send (.completion fn [] 1))
  else if !(s.dmaAdmits fn ps) then .next s
  else
    let write (a : State × List Byte) (p : Nat × Nat × Nat) : State × List Byte :=
      ((a.1.useKeys fn p.2.1 p.1 p.2.2).writeRange p.1 (a.2.take p.2.2), a.2.drop p.2.2)
    .next ((ps.foldl write (s.dmaCharge fn ps, data)).1)

/-! ## Resets and IDE (R369, R435) -/

/-- FUNCTION_LEVEL_RESET: the function's partition moves to ERROR. -/
def execFunctionLevelReset (fn : Nat) (s : State) : Out := .next (s.disturb fn)

/-- IDE_STREAM_LOSS. Partition 0 is no TDISP interface. -/
def execIdeStreamLoss (fn : Nat) (s : State) : Out :=
  let s := s.setFn fn { s.fn fn with ide := false }
  .next (if fn = 0 then s else s.disturb fn)

/-- IDE_KEY_MANAGEMENT: the function's stream is established. -/
def execIdeKeyManagement (fn : Nat) (s : State) : Out := .next (s.setFn fn { s.fn fn with ide := true })

end Sys2Proof.Machine
end

