-- ==== Sys2Proof/Machine/Paging.lean ====
section
/-! DEFINITION. Messages between strands as they arrive, the rhizoid tree, the pager, and walks (R28, R162, R407, R411 to
R416). -/
namespace Sys2Proof.Machine

/-! ## The pager (R413, R414) -/

/-- The pager strand of a partition on a die. -/
def State.pagerOf (s : State) (part die : Nat) : Option Strand :=
  s.all.find? (fun t => t.live && t.id.ctx == .pager && t.id.part == part && t.id.die == die)

/-- The message of a fault (R413). -/
def RouterEntry.msg (e : RouterEntry) (die : Nat) (sid : BitVec 16) : Msg :=
  let w0 := e.fid + 2 ^ 16 * die + 2 ^ 19 * e.kinds + 2 ^ 22 * b2n e.mp + 2 ^ 32 * e.asid
  { sender := sid, wide := true, payload := BitVec.ofNat 512 (w0 + 2 ^ 64 * e.page) }

/-- A strand parked on its empty q0 wakes when a message has come. -/
def Strand.wakeQ0 (t : Strand) : Strand := if t.parkedFor .qrecv && t.park.operand == 0#64 then t.wake else t

/-- A message appended to a strand's q0; one beyond the eighth of a resident strand goes into its spill area (R62). -/
def State.appendQ0 (s : State) (uid : Nat) (m : Msg) : State :=
  match s.strand? uid with
  | none => s
  | some t =>
    let m := { m with seqNo := t.q.q0seq }
    let s := s.mapStrand uid (fun t => { t with q := { t.q with q0 := t.q.q0 ++ [m], q0seq := t.q.q0seq + 1 } }.wakeQ0)
    if t.resident && decide (8 ≤ t.q.q0.length) then s.wrBytes (s.spillLoc t m) m.spillBytes else s

/-! ## Faults on their way up (R411, R412) -/

/-- Where a router passes a fault on, and the port at which it arrives there. -/
def Router.parent : Router → Option (Router × Nat)
  | .cluster d c => some (.row d (c / 8), c % 8)
  | .row d r => some (.root d, r)
  | .root _ => none

/-- The routers that a fault passes after one. -/
def Router.above : Router → List Router
  | .cluster d c => [.row d (c / 8), .root d] | .row d _ => [.root d] | .root _ => []

/-- The die of a router. -/
def Router.die : Router → Nat
  | .cluster d _ => d | .row d _ => d | .root d => d

/-- The router can take a new entry for a partition. -/
def State.routerRoom (s : State) (r : Router) (part : Nat) : Bool :=
  match r with
  | .root _ => decide ((s.cells.routers.filter (fun e => e.router == r && e.part == part)).length < 64)
  | _ => decide ((s.cells.routers.filter (fun e => e.router == r)).length < 32)

/-- The lowest fault id that no unanswered fault of the partition on the die has. -/
def State.freshFid (s : State) (r : Router) (part : Nat) : Nat :=
  ((List.range 65).find? (fun n => !(s.cells.routers.any (fun e => e.router == r && e.part == part && e.fid == n)))).getD 0

/-- The entry of a fault. -/
def RouterEntry.is (e : RouterEntry) (r : Router) (part asid page : Nat) : Bool :=
  e.router == r && e.part == part && e.asid == asid && e.page == page

/-- The faults are for one page. -/
def FaultMsg.like (m : FaultMsg) (part asid page : Nat) : Bool := m.part == part && m.asid == asid && m.page == page

/-- Another fault for an entry's page is on its way up on the die, and a router takes it, so it will merge before the root
delivers. -/
def State.faultComing (s : State) (e : RouterEntry) : Bool :=
  s.cells.faults.any (fun m => m.like e.part e.asid e.page && m.router.die == e.router.die &&
    (s.routerRoom m.router m.part || s.cells.routers.any (fun x => x.is m.router m.part m.asid m.page)))

/-- The root delivers a partition's faults of a die that have not been delivered, once all that are on their way have merged,
to the pager, which it makes when there is none (R413, R414). A partition without a scratchpad window on the die holds no strand
there (R360). -/
def State.deliverFaults (s : State) (part die : Nat) : State :=
  let mine (e : RouterEntry) : Bool := e.router == .root die && e.part == part && !e.delivered && !(s.faultComing e)
  let due := s.cells.routers.filter mine
  if due.isEmpty || !(s.windowOn part die) then s
  else
    let s1 := match s.pagerOf part die, (s.part part).pager with
      | none, some g =>
        s.newStrand .pager part die (s.mostFree die (List.range 64)) 0 false g.entry [w64 die]
          (s.newCtl part die ((s.part part).asidBase + g.asidx) g.ptb g.tvec true) 64
      | _, _ => s
    match s1.pagerOf part die with
    | none => s1
    | some t =>
      let s2 := due.foldl (fun s e => s.appendQ0 t.id.uid (e.msg die (t.id.sid.getD 0#16))) s1
      { s2 with cells := { s2.cells with routers := s2.cells.routers.map (fun e => if mine e then { e with delivered := true } else e) } }

/-- The root of a die delivers what it may deliver, of every partition. -/
def State.deliverAll (s : State) (die : Nat) : State :=
  (((s.cells.routers.filter (fun e => e.router == .root die && !e.delivered)).map (fun e => e.part)).eraseDups).foldl
    (fun s p => s.deliverFaults p die) s

/-- A fault merged at a router that has an entry for its page: its port is set, and its kinds count for what the root has
still to deliver, wherever on the way that stands (R411, R413). -/
def State.mergeFault (s : State) (m : FaultMsg) : State :=
  let up (r : Router) : Bool := m.router.above.contains r
  let add (e : RouterEntry) : RouterEntry :=
    let more : RouterEntry := { e with kinds := e.kinds ||| m.kinds, mp := e.mp || m.mp }
    if e.is m.router m.part m.asid m.page then
      { more with ports := if e.ports.contains m.port then e.ports else e.ports ++ [m.port] }
    else if up e.router && e.is e.router m.part m.asid m.page && !e.delivered then more else e
  let lift (x : FaultMsg) : FaultMsg :=
    if up x.router && x.like m.part m.asid m.page then { x with kinds := x.kinds ||| m.kinds, mp := x.mp || m.mp } else x
  { s with cells := { s.cells with routers := s.cells.routers.map add, faults := s.cells.faults.map lift } }

/-- A fault at a router: it merges, waits for an entry, or takes one and goes up, or to the pager. While it waits the root does not
wait for it. -/
def execPageFaultMessage (idx : Nat) (s : State) : Out :=
  match s.cells.faults[idx]? with
  | none => .next s
  | some m =>
    let s' := { s with cells := { s.cells with faults := s.cells.faults.eraseIdx idx } }
    if s.cells.routers.any (fun e => e.is m.router m.part m.asid m.page) then
      .next ((s'.mergeFault m).deliverFaults m.part m.router.die)
    else if !(s.routerRoom m.router m.part) then .next (s.deliverAll m.router.die)
    else
      let e : RouterEntry := { router := m.router, part := m.part, asid := m.asid, page := m.page, ports := [m.port]
                               kinds := m.kinds, mp := m.mp, fid := s.freshFid m.router m.part, delivered := false }
      let s := { s' with cells := { s'.cells with routers := s'.cells.routers ++ [e] } }
      match m.router.parent with
      | some (r, p) => .next { s with cells := { s.cells with faults := s.cells.faults ++ [{ m with router := r, port := p }] } }
      | none => .next (s.deliverFaults m.part m.router.die)

/-! ## Replies on their way down (R415) -/

/-- The strands that wait on a page at a core. -/
def State.pageWaiters (s : State) (die c k part asid page : Nat) : List Strand :=
  s.all.filter (fun t => t.parkedFor .page && t.onCore die c k && t.id.part == part && t.ctl.asid.toNat == asid &&
    t.park.operand.toNat / 4096 * 4096 == page)

/-- A reply reaches a strand: it wakes and replays, or takes PAGEF with the return word. -/
def State.replyStrand (s : State) (m : ReplyMsg) (uid : Nat) : State :=
  if m.fatal then s.onStrand uid (fun t => t.parkedFor .page) (fun s =>
    s.unlessDeferred (fun s =>
      s.trap { cause := 4, info0 := s.self.park.operand, info1 := w64 s.self.park.lane, info2 := w64 m.ret.toNat }))
  else s.mapStrand uid Strand.wake

/-- The accesses of a memory port that wait on the page: positions in its spill queue. -/
def State.portWaits (s : State) (r : Region) (e : Elem) (m : ReplyMsg) : List Nat :=
  (List.range e.mp.spill.length).filter (fun i => match e.mp.spill[i]? with
    | some p => let x := s.mpSite r p.tag
                p.onPage && x.part == m.part && x.asid == m.asid && p.addr.toNat / 4096 * 4096 == m.page
    | none => false)

/-- A reply reaches a memory port: its accesses are ready to replay, or fault (R216). The last in the queue goes first,
so that the others keep their positions. -/
def State.replyPort (s : State) (m : ReplyMsg) (rid row : Nat) : State :=
  match s.region? rid with
  | none => s
  | some r => match r.elem? row 0 with
    | none => s
    | some e =>
      let is := s.portWaits r e m
      if m.fatal then
        is.reverse.foldl (fun s i => match s.region? rid with
          | none => s
          | some r => match r.elem? row 0 with
            | none => s
            | some e => match e.mp.spill[i]?.bind (fun p => (r.frameFor e p).map (fun f => (f, p))) with
              | some (f, p) => s.spillFault r e f i p { cause := 4, detail := p.addr }
              | none => s) s
      else
        let sp := e.mp.spill.mapIdx (fun i p => if is.contains i then { p with onPage := false } else p)
        s.setRegion (r.setElem { e with mp := { e.mp with spill := sp } })

/-- A reply sent from a router to one of its child ports. -/
def State.replyChild (s : State) (m : ReplyMsg) (p : Nat) : State :=
  match m.router with
  | .root d => { s with cells := { s.cells with replies := s.cells.replies ++ [{ m with router := .row d p }] } }
  | .row d r => { s with cells := { s.cells with replies := s.cells.replies ++ [{ m with router := .cluster d (r * 8 + p) }] } }
  | .cluster d c =>
    if p < 16 then (s.pageWaiters d c p m.part m.asid m.page).foldl (fun s t => s.replyStrand m t.id.uid) s
    else (s.work.regions.filter (fun r => r.die == d && r.cluster == c && r.frond == p - 16)).foldl
      (fun s r => (List.range 8).foldl (fun s row => s.replyPort m r.rid row) s) s

/-- The faults for a reply's page that stand at its router are registered first (R412). -/
def State.registerFaults (s : State) (m : ReplyMsg) : State :=
  if s.cells.routers.any (fun e => e.is m.router m.part m.asid m.page) then
    let at' (x : FaultMsg) : Bool := x.router == m.router && x.like m.part m.asid m.page
    (s.cells.faults.filter at').foldl State.mergeFault
      { s with cells := { s.cells with faults := s.cells.faults.filter (fun x => !(at' x)) } }
  else s

/-- A reply at a router: the faults that meet it are registered, it goes to the ports in the entry's mask, and the entry is
freed. -/
def execPagerReplyDescent (idx : Nat) (s : State) : Out :=
  match s.cells.replies[idx]? with
  | none => .next s
  | some m =>
    let s := s.registerFaults m
    let ports := match s.cells.routers.find? (fun e => e.is m.router m.part m.asid m.page) with
      | some e => e.ports
      | none => []
    let s := { s with cells := { s.cells with replies := s.cells.replies.eraseIdx idx
                                              routers := s.cells.routers.filter (fun e => !(e.is m.router m.part m.asid m.page)) } }
    .next (ports.foldl (fun s p => s.replyChild m p) s)

/-- A pager's reply (R415): a word with a reserved bit set, or one that names no unanswered fault, is discarded. -/
def State.pagerReply (s : State) (t : Strand) (x : Word) : State :=
  match s.cells.routers.find? (fun e => e.router == .root t.id.die && e.part == t.id.part && e.fid == bits x 15 0) with
  | none => s
  | some e =>
    if bits x 31 17 ≠ 0 ∨ s.answered e then s
    else
      let m : ReplyMsg := { router := .root t.id.die, part := e.part, asid := e.asid, page := e.page
                            fatal := x.getLsbD 16, ret := x.extractLsb' 32 32 }
      { s with cells := { s.cells with replies := s.cells.replies ++ [m] } }

/-! ## Messages (R28, R162) -/

/-- The seat's SEND completes. -/
def State.sent (s : State) : State :=
  let s := s.unpark.adv
  { s with self := { s.self with waits := { s.self.waits with sending := none } } }

/-- The recipient's cluster answers the seat's SEND. -/
def State.answerSend (s : State) : State :=
  let t := s.self
  match t.waits.sending with
  | none => s
  | some (sid, m) =>
    if t.id.ctx = .pager ∧ t.id.sid = some sid then (s.pagerReply t (m.payload.truncate 64)).sent
    else match s.bySid sid with
      | none => (s.countDrops t.id.ctx 1).sent
      | some x =>
        if x.id.ctx != t.id.ctx || t.id.ctx == .evaluator || t.id.ctx == .pager then (s.countDrops t.id.ctx 1).sent
        else if x.q.q0max ≤ x.q.q0.length then
          { s with self := { s.self with waits := { s.self.waits with sending := none } } }.trap (qovfTrap sid.toNat 0)
        else (s.appendQ0 x.id.uid m).sent

/-- MESSAGE_DELIVERY. -/
def execMessageDelivery (uid : Nat) (s : State) : Out :=
  .next (s.onStrand uid (fun t => t.parkedFor .qsend && t.waits.sending.isSome) State.answerSend)

/-! ## Walks (R407) -/

/-- WALK_COMPLETE: a walk for a strand fills its TLBs. -/
def execWalkComplete (uid : Nat) (va : Word) (s : State) : Out :=
  match s.strand? uid with
  | none => .next s
  | some t => if t.resident then .next (s.translate t.site t.site.tlbs va.toNat).2 else .next s

end Sys2Proof.Machine
end

