-- ==== Sys2Proof/Machine/Saves.lean ====
section
/-! DEFINITION. Saving a streamed residency (R397 to R401). -/
namespace Sys2Proof.Machine

/-- The residency of an entry with the region that it runs in. -/
def State.runningAt (s : State) (die cluster entry : Nat) : Option (Residency × Region) :=
  match s.residency? die cluster entry with
  | none => none
  | some y => match y.region with
    | none => none
    | some rid => match s.region? rid with
      | some r => if y.state = .running then some (y, r) else none
      | none => none

/-- A region halts for a freeze save: nothing begins any more. -/
def State.halt (s : State) (y : Residency) (r : Region) : State :=
  (s.mapResidency y.die y.cluster y.entry (fun y => { y with save := .freeze })).setRegion { r with phase := .halting }

/-- Every ME of the image in BUF, RMW, LUT or STASH mode has PERSIST (R397). -/
def Image.persists (im : Image) : Bool :=
  im.frames.all (fun f => bits f.bits 3 0 != 1 || meMode f.bits == 1 || mePersist f.bits)

/-- RESIDENCY_SAVE_REQUEST (R397, R401): a boundary save is tried; without PERSIST everywhere the region stops for a freeze
save. Behind a plane change that has begun, either waits until every element has entered the new plane. -/
def execResidencySaveRequest (die cluster entry : Nat) (s : State) : Out :=
  match s.runningAt die cluster entry with
  | none => .next s
  | some (y, r) =>
    if y.save != .noSave || r.phase != .running || !r.faults.isEmpty then .next s
    else if y.image.persists || r.wave then
      .next ((s.mapResidency die cluster entry (fun y => { y with save := .requested s.cycle })).setRegion
        { r with phase := if r.wave then .crossing else .draining })
    else .next (s.halt y r)

/-- The words of a saved ME: bytes that are not zero and words that are EMPTY, by their offset. -/
def State.saveArea1 (s : State) (r : Region) (row col : Nat) : Nat × Nat × List Host.Cell × List Nat :=
  let base := meLoc r.die r.cluster r.frond (r.row0 + row) col 0
  let inside (l : Nat) : Bool := decide (base ≤ l) && decide (l < base + 2 ^ 15)
  (row, col, (s.m.mem.filter (fun c => inside c.1)).map (fun c => (c.1 - base, c.2))
  , (s.m.empties.filter inside).map (fun l => l - base))

/-- The ME areas of a region that a save keeps: all, or those of frames with PERSIST. -/
def State.saveAreas (s : State) (r : Region) (all : Bool) : List (Nat × Nat × List Host.Cell × List Nat) :=
  (r.elems.filter (fun e => (e.col == 10 || e.col == 11) && (all || r.image.frames.any (fun f =>
    bits f.addr 10 7 == e.col && bits f.addr 13 11 == e.row && bits f.bits 3 0 == 1 && mePersist f.bits)))).map
    (fun e => s.saveArea1 r e.row e.col)

/-- A region leaves its place for the residency save record, and its residency waits to be placed again (R389). -/
def State.saveRegion (s : State) (y : Residency) (r : Region) (kind : SaveKind) : State :=
  let areas := s.saveAreas r (kind == .freeze)
  let s := { s with work := { s.work with regions := s.work.regions.filter (fun x => x.rid != r.rid) } }
  let s := s.mapResidency y.die y.cluster y.entry (fun y => { y with
    saved := some r, areas := areas, save := kind, region := none, waiting := some (s.cycle, s.fresh) })
  { s with fresh := s.fresh + 1 }.needDecision r.die r.cluster

/-- BOUNDARY_SAVE (R398). -/
def execBoundarySave (die cluster entry : Nat) (s : State) : Out :=
  match s.runningAt die cluster entry with
  | none => .next s
  | some (y, r) =>
    if y.image.persists && (r.phase == .draining || r.phase == .crossing) && r.faults.isEmpty && r.atBoundary && !r.sinksDone then
      .next (s.saveRegion y r .boundary)
    else .next s

/-- BOUNDARY_SAVE_TIMEOUT (R397): 65,536 cycles after the request the region stops for a freeze save, but not within a plane
change (R401). -/
def execBoundarySaveTimeout (die cluster entry : Nat) (s : State) : Out :=
  match s.runningAt die cluster entry with
  | none => .next s
  | some (y, r) => match y.save with
    | .requested since =>
      if decide (s.cycle < since + 65536) || !r.faults.isEmpty || r.phase == .frozen || (r.phase == .crossing && !r.crossed) then .next s
      else .next (s.halt y r)
    | _ => .next s

/-- A spilled access of a stopped region is taken again at resumption (R308, R399). -/
def Spill.withdrawn (p : Spill) : Spill :=
  { p with onPage := false, onCell := none, asked := if p.onCell.isSome then none else p.asked }

/-- FREEZE_SAVE (R399): when everything that has begun has completed, the region leaves with all it holds. A save that has
waited for a plane change halts the region first (R401). -/
def execFreezeSave (die cluster entry : Nat) (s : State) : Out :=
  match s.runningAt die cluster entry with
  | none => .next s
  | some (y, r) =>
    if r.phase == .crossing && r.crossed && !(y.image.persists) then .next (s.halt y r)
    else if y.save != .freeze || r.phase != .halting || r.begun || !r.faults.isEmpty then .next s
    else
      let fix (e : Elem) : Elem := { e with mp := { e.mp with spill := e.mp.spill.map Spill.withdrawn } }
      .next ((s.leaveSpills r).saveRegion y { r with elems := r.elems.map fix } .freeze)

end Sys2Proof.Machine
end

