-- ==== Sys2Proof/Machine/Plant.lean ====
section
/-! DEFINITION. Periods, power, droop and temperature, reliability and bring-up (R393, R445 to R466). -/
namespace Sys2Proof.Machine

/-- The state that an event leaves. -/
def State.doing (s : State) (f : State → Out) : State := match f s with
  | .next t => t
  | _ => s

/-! ## Periods (R393, R453) -/

/-- Availability at a period's start: the limit with at most the limit carried over, or less an overrun. -/
def refill (limit : Nat) (left : Int) : Int := if left < 0 then limit + left else limit + min (limit : Int) left

/-- A die's budgets at a period boundary; `told` is the set of those that start at or below 0. -/
def Avail.period (a : Avail) (b : Vector (Option Nat) 5) : Avail :=
  let left := Vector.ofFn (fun i : Fin 5 => match b.get i with
    | some n => refill n (a.left.get i)
    | none => 0)
  { left := left, used := Vector.replicate 5 0, prev := a.used
    told := Vector.ofFn (fun i : Fin 5 => (b.get i).isSome && decide (left.get i ≤ 0)) }

/-- An occasion for a decision in every cluster of a die where a configuration of the partition waits (R388). -/
def State.needAll (s : State) (p die : Nat) : State :=
  ((s.work.waitings.filter (fun w => w.part == p && w.die == die)).map (fun w => w.cluster)).eraseDups.foldl
    (fun s c => s.needDecision die c) s

/-- The budgets of a partition at a period boundary, with the events of those that start exhausted. A FROND availability
that is restored is an occasion for decisions. -/
def State.refillPart (s : State) (p : Nat) : State :=
  let x := s.part p
  let s := s.setPart p { x with avail := x.avail.map (fun a => a.period x.budget) }
  (List.range 8).foldl (fun s d =>
    let told := (((s.part p).avail[d]?.getD {}).told)
    let was : Int := (((x.avail[d]?.getD {}).left)[0]?).getD 0
    let s := if x.budget[0].isSome && decide (was ≤ 0) && s.admits p d 0 then s.needAll p d else s
    (List.range 5).foldl (fun s i => if told[i]?.getD false then s.raiseAll p (5 + i) d 0 else s) s) s

/-- Streamed residencies still held with the FROND budget spent are asked to save (R393, R397). -/
def State.askFrond (s : State) : State :=
  (s.work.regions.filter (fun r => !(s.admits r.site.part r.die 0))).foldl (fun s r => match r.holder with
    | .stream d c e => s.doing (execResidencySaveRequest d c e)
    | .served _ _ _ => s) s

/-- The sources sampled at period boundaries. -/
def sampled (source : Nat) : Bool := (decide (1 ≤ source) && decide (source ≤ 4)) || source == 10

/-- One subscription sampled: an event when the sample lies beyond THRESH and the one before it did not. -/
def State.sampleSub (s : State) (p : Nat) (b : Subscription) : State :=
  if !(sampled b.source) then s
  else
    let v := s.reading b.source b.die
    let now := if b.falling then decide (v.1 < b.thresh) else decide (b.thresh < v.1)
    let mark (y : Subscription) : Subscription := if y.slot = b.slot then { y with beyond := now } else y
    let x := v.2.part p
    let s := v.2.setPart p { x with subs := x.subs.map mark }
    if now && !b.beyond then s.raise p b v.1 else s

/-- Detections counted for the period that ends (R453). -/
def State.closeDroop (s : State) : State :=
  { s with plant := { s.plant with dies := s.plant.dies.map (fun d => { d with droopPrev := d.droopNow, droopNow := 0 }) } }

/-- A period boundary has been reached and not yet acted on. -/
def State.periodDue (s : State) : Bool := decide (s.plant.power.periods < s.plant.time.toNat / 64000)

/-- PERIOD_BOUNDARY: TIME mod 64,000 = 0. -/
def execPeriodBoundary (s : State) : Out :=
  if !s.periodDue then .next s
  else
    let s := { s with plant := { s.plant with power := { s.plant.power with periods := s.plant.power.periods + 1 } } }
    let s := s.askFrond.closeDroop
    let s := (List.range 64).foldl State.refillPart s
    .next ((List.range 64).foldl (fun s p => (s.part p).subs.foldl (fun s b => s.sampleSub p b) s) s)

/-! ## Notches, the arbiter and the slack controller (R445, R451, R455, R466) -/

/-- The module's notch: 8 before full service; then the higher request, above which it falls step by step from 8. -/
def Power.settle (p : Power) (b : BringUp) : Power :=
  let want := max p.arbNotch p.slackNotch
  if b ≠ .full then { p with notch := 8 }
  else if p.fallLast.isSome && decide (want < p.notch) then p
  else { p with notch := want, fallLast := none }

def State.setPower (s : State) (p : Power) : State :=
  { s with plant := { s.plant with power := p.settle s.plant.bring } }

/-- The arbiter's step when P exceeds PLIM: 0 broad, 1 narrow, 2 notch. -/
def Power.lower (p : Power) (broadFirst : Bool) : Power :=
  let broad : Power := { p with broadFrac := p.broadFrac - 1, steps := 0 :: p.steps }
  let narrow : Power := { p with narrowFrac := p.narrowFrac - 1, steps := 1 :: p.steps }
  if broadFirst && decide (1 < p.broadFrac) then broad
  else if decide (1 < p.narrowFrac) then narrow
  else if decide (1 < p.broadFrac) then broad
  else if p.arbNotch < 7 then { p with arbNotch := p.arbNotch + 1, steps := 2 :: p.steps }
  else p

/-- The last step undone. -/
def Power.undo (p : Power) : Power := match p.steps with
  | [] => p
  | n :: rest =>
    if n = 0 then { p with broadFrac := p.broadFrac + 1, steps := rest }
    else if n = 1 then { p with narrowFrac := p.narrowFrac + 1, steps := rest }
    else { p with arbNotch := p.arbNotch - 1, steps := rest }

/-- ARBITER_INTERVAL: every 10 µs one step, by the estimate of P and the draw of each kind of cluster. -/
def execArbiterInterval (power broadDraw narrowDraw : Nat) (s : State) : Out :=
  let p := s.plant.power
  if s.plant.time.toNat / 10000 ≤ p.intervals then .next s
  else
    let p := { p with intervals := p.intervals + 1, reading := power }
    .next (s.setPower (if p.plim < power then p.lower (decide (narrowDraw ≤ broadDraw))
      else if power + 100 < p.plim then p.undo else p))

/-- The slack controller's change for the busy time of the module and the smallest of its throttled peers. -/
def slackChange (own : Nat) (peer : Option Nat) (n : Nat) : Nat :=
  match peer with
  | none => n - 1
  | some b => if 100 * own < 95 * b then min 7 (n + 1) else if 105 * b < 100 * own then n - 1 else n

/-- The smallest busy time among throttled peers. -/
def Power.slowest (p : Power) : Option Nat :=
  match (p.peers.filter (fun x => x.2.1)).map (fun x => x.2.2) with
  | [] => none
  | b :: bs => some (bs.foldl min b)

/-- A module is a peer: it stands at the far end of an open circuit of this one (R455). -/
def State.slackPeer (s : State) (m : Nat) : Bool :=
  m != s.plant.modNum && s.work.regions.any (fun r => (List.range 8).any (fun row => match r.circuitAt row with
    | some (e, _, b) => e.mp.isOpen && !e.done && bits b 23 15 == m
    | none => false))

/-- The smallest busy time among the throttled peers of the module. -/
def State.slowestPeer (s : State) : Option Nat :=
  let p := s.plant.power
  ({ p with peers := p.peers.filter (fun x => s.slackPeer x.1) } : Power).slowest

/-- A slack window has ended and has not yet been evaluated. -/
def State.windowDue (s : State) : Bool := decide (s.plant.power.windows < s.plant.time.toNat / 1000000)

/-- The module's busy time in the window that ends: its length less the time in which a receive port's residency waited. -/
def State.ownBusy (s : State) : Nat := 1000000 - s.plant.power.waited

/-- A receive port of one of the module's open circuits to another module holds an empty queue while its residency waits on
it: the port is not done (R455). -/
def State.waitsOnPeer (s : State) (r : Region) : Bool :=
  s.runs r && (List.range 8).any (fun row => match r.circuitAt row with
    | some (e, _, b) => !(b.getLsbD 24) && e.mp.isOpen && !e.done && e.mp.reseq.isEmpty && bits b 23 15 != s.plant.modNum
    | none => false)

/-- Of the next `n` cycles, those in which a region waits so; a cycle in which it has moved a token is none. -/
def State.peerCycles (s : State) (n : Nat) : Nat :=
  (s.work.regions.filter s.waitsOnPeer).foldl (fun k r => max k (s.cycle + n - max s.cycle (r.lastMove + 1))) 0

/-- SLACK_WINDOW: at a window's end the module reports its busy time to its peers and evaluates its request. An event that
names another busy time than the module's is none of its windows. -/
def execSlackWindow (busy : Nat) (s : State) : Out :=
  let p := s.plant.power
  let at' := (p.windows + 1) * 1000000
  if !s.windowDue || busy != s.ownBusy then .next s
  else
    let n := slackChange busy s.slowestPeer p.slackNotch
    let p := { p with windows := p.windows + 1, peers := [], waited := 0, slackNotch := n
                      slackLast := if n = p.slackNotch then p.slackLast else w64 at' }
    .next ((s.setPower p).send (.slack p.isThrottled busy))

/-- SLACK_PEER_REPORT. -/
def execSlackPeerReport (peer : Nat) (throttled : Bool) (busy : Nat) (s : State) : Out :=
  let p := s.plant.power
  .next (s.setPower { p with peers := (peer, throttled, busy) :: p.peers.filter (fun x => x.1 != peer) })

/-! ## Droop and temperature (R447 to R449) -/

/-- The freeze length in force. -/
def Die.freezeCycles (d : Die) : Nat := max 16 (min 1024 d.droopLen)

/-- DROOP_DETECTION: a drop of THRESH or more below nominal starts or restarts a freeze. -/
def execDroopDetection (die cluster drop : Nat) (s : State) : Out :=
  let d := s.die die
  if !d.droopEn || decide (drop < d.droopMv) then .next s
  else
    let s := s.setDie die { d with droopCount := d.droopCount + 1#32, droopNow := d.droopNow + 1 }
    let x := s.cluster die cluster
    .next (s.setCluster { x with freeze := s.cycle + d.freezeCycles })

/-- DROOP_FREEZE_END: the count has expired. -/
def execDroopFreezeEnd (die cluster : Nat) (s : State) : Out :=
  let x := s.cluster die cluster
  if s.cycle < x.freeze then .next s else .next (s.setCluster { x with freeze := 0 })

/-- ROW_TEMP_SAMPLE: a row becomes hot at HOT, and stops being hot below HOT − HYST. Each
sensor is read once in an interval of 10 µs. -/
def execRowTempSample (die cluster frond row temp : Nat) (s : State) : Out :=
  let d := s.die die
  let now := s.plant.time.toNat / 10000
  let seen := d.sampledAt.any (fun x => x.1 == cluster && x.2.1 == frond && x.2.2.1 == row && x.2.2.2 == now)
  let hot := if d.credHot ≤ temp then (cluster, frond, row) :: d.hotRows.filter (fun x => x != (cluster, frond, row))
    else if temp + d.credHyst < d.credHot then d.hotRows.filter (fun x => x != (cluster, frond, row)) else d.hotRows
  let temps := (cluster, frond, row, temp) :: d.temps.filter (fun x => !(x.1 == cluster && x.2.1 == frond && x.2.2.1 == row))
  let at' := (cluster, frond, row, now) :: d.sampledAt.filter (fun x => !(x.1 == cluster && x.2.1 == frond && x.2.2.1 == row))
  .next (if seen then s else s.setDie die { d with hotRows := hot, temps := temps, sampledAt := at' })

/-! ## Registers of the management cores (R447, R449, R451, R458) -/

/-- DROOPCTL as it reads. -/
def Die.droopctl (d : Die) : Word :=
  w64 (b2n d.droopEn + 2 * (d.droopLen % 2 ^ 11) + 2 ^ 12 * (d.droopMv % 2 ^ 8) + 2 ^ 32 * d.droopCount.toNat)

/-- DROOPCTL written: COUNT and the reserved bits keep their values. -/
def Die.withDroopctl (d : Die) (v : Word) : Die :=
  { d with droopEn := v.getLsbD 0, droopLen := bits v 11 1, droopMv := bits v 19 12 }

/-- CREDDLY as it reads. -/
def Die.creddly (d : Die) : Word :=
  w64 (d.credDelay % 2 ^ 8 + 2 ^ 8 * (d.credHot % 2 ^ 8) + 2 ^ 16 * (d.credHyst % 2 ^ 4))

/-- CREDDLY written. -/
def Die.withCreddly (d : Die) (v : Word) : Die :=
  { d with credDelay := bits v 7 0, credHot := bits v 15 8, credHyst := bits v 19 16 }

/-- Firmware sets PLIM, which is never more than 3,600 W (R451). -/
def State.setLimit (s : State) (watts : Nat) : State := s.setPower { s.plant.power with plim := min watts 3600 }

/-- The timebase takes a rate at most 200 ppm from the nominal one (R458). -/
def State.setRate (s : State) (ppm : Int) : State := { s with plant := { s.plant with ppm := max (-200) (min 200 ppm) } }

/-! ## Reliability (R459, R461, R462) -/

/-- An uncorrectable error shows in a word of eight bytes of local storage, which then acts as a poisoned line (R460). -/
def State.markWord (s : State) (l : Nat) : State :=
  let a := l / 8 * 8
  if isDram l || s.m.poisoned.contains a then s else { s with m := { s.m with poisoned := a :: s.m.poisoned } }

/-- DRAM_SCRUB: a line found uncorrectable is marked; corrections are silent. -/
def execDramScrub (die line : Nat) (uncorrectable : Bool) (s : State) : Out :=
  let a := s.dieBase die + 64 * line
  if uncorrectable && !(s.m.poisoned.contains a) then .next { s with m := { s.m with poisoned := a :: s.m.poisoned } } else .next s

/-- A partition has a strand, a residency, a served configuration or a scratchpad window in a cluster. -/
def State.usesCluster (s : State) (p die cluster : Nat) : Bool :=
  s.all.any (fun t => t.live && t.id.part == p && t.id.die == die && t.id.cluster == cluster) ||
    s.work.residencies.any (fun y => y.part == p && y.die == die && y.cluster == cluster) ||
    s.work.regions.any (fun r => r.site.part == p && r.die == die && r.cluster == cluster) ||
    ((s.part p).valid && ((s.part p).dies[die]?.getD {}).spl != 0)

/-- CLUSTER_HARD_FAILURE: the cluster leaves service, and its partitions move to ERROR. -/
def execClusterHardFailure (die cluster : Nat) (s : State) : Out :=
  let hit := (List.range 64).filter (fun p => s.usesCluster p die cluster)
  let s := s.setCluster { s.cluster die cluster with failed := true }
  .next (hit.foldl State.disturb s)

/-- Everything of a cluster that can be saved now is saved or asked to save, and served configurations without packets
are evicted (R461, step 1). -/
def State.clearCluster (s : State) (die cluster : Nat) : State :=
  let here (t : Strand) : Bool := t.resident && t.id.die == die && t.id.cluster == cluster
  let s := (s.all.filter here).foldl (fun s t => s.doing (execStrandSave t.id.uid)) s
  (s.work.regions.filter (fun r => r.die == die && r.cluster == cluster)).foldl (fun s r => match r.holder with
    | .stream d c e => s.doing (execResidencySaveRequest d c e)
    | .served _ _ _ => if s.hasPacket r.rid then s else s.evictFree r) s

/-- Nothing is left in a cluster. -/
def State.clusterClear (s : State) (die cluster : Nat) : Bool :=
  !(s.all.any (fun t => t.resident && t.id.die == die && t.id.cluster == cluster)) &&
    !(s.work.regions.any (fun r => r.die == die && r.cluster == cluster))

/-- CLUSTER_MAP_OUT: with the spare idle the cluster is emptied and the spare takes its logical number, its TCMs, its
scratchpad and its ME areas; without, the cluster fails (R462). The step comes again until the cluster is empty. -/
def execClusterMapOut (die cluster : Nat) (s : State) : Out :=
  if (s.cluster die cluster).failed then .next s
  else if (s.die die).spareUsed then execClusterHardFailure die cluster s
  else
    let s := s.clearCluster die cluster
    if !(s.clusterClear die cluster) then .next s
    else .next ((s.setDie die { s.die die with spareUsed := true }).setCluster { s.cluster die cluster with onSpare := true })

/-! ## Bring-up (R458, R464 to R466) -/

/-- COLD_RESET: every state element takes its value of reset. What has been sent is sent, the module keeps its number, and
the model's own counters go on. -/
def execColdReset (s : State) : Out :=
  .next { State.reset with
    host := { State.reset.host with outbox := s.host.outbox }
    plant := { State.reset.plant with modNum := s.plant.modNum }
    fresh := s.fresh, free := s.free, agenda := s.agenda }

/-- FIRMWARE_VERIFY: the digest signed by the key whose digest is fused, and the security version; TRAIN, or RECOVERY. The
digest is recorded as measurement 2, and the boot's value of R432 is drawn: a free value. -/
def execFirmwareVerify (digest : BitVec 256) (key sig : BitVec 512) (version : Nat) (s : State) : Out :=
  if s.plant.bring = .rom ∨ s.plant.bring = .verify then
    let good := Config.sm3 64 key.toNat == Config.fusedKeyDigest && Config.sm2Verify key digest sig && decide (Config.fusedMinVersion ≤ version)
    let s := s.setSpdm { s.host.spdm with measured := [digest] }
    let v := s.freeValue
    .next { v.2 with plant := { v.2.plant with bring := if good then .train else .recovery
                                               bootRandom := v.1.setWidth 256 } }
  else .next s

/-- The timebase joins the domain (R458): TIME steps forward once, to the domain's time, and an error bound of at most 100 ns
is reported. Both are free values. Boundaries that the step passes over do not occur. -/
def State.joinDomain (s : State) : State :=
  let v := s.freeValue
  let t := s.plant.time.toNat + v.1.toNat % (2 ^ 64 - s.plant.time.toNat)
  let e := v.1.toNat / 2 ^ 64 % 101
  let p := { s.plant.power with timeErr := e, periods := t / 64000, intervals := t / 10000, windows := t / 1000000, waited := 0 }
  { v.2 with plant := { v.2.plant with time := w64 t, power := p } }

/-- DIE_TRAINING: a die passes, with a spare for a cluster that failed its self-test, or stays out of service. Once die 0
has trained, the module leaves TRAIN. -/
def execDieTraining (die : Nat) (passed : Bool) (spareFor : Option Nat) (s : State) : Out :=
  let d := s.die die
  let started := s.plant.bring == .train || s.spdmUp && s.plant.bring != .recovery
  if !started || d.trained || d.failed then .next s
  else if !passed then .next (s.setDie die { d with failed := true })
  else
    let s := match spareFor with
      | some c => (s.setDie die { d with trained := true, spareUsed := true }).setCluster { s.cluster die c with onSpare := true }
      | none => s.setDie die { d with trained := true }
    if die = 0 ∧ s.plant.bring = .train then
      let s := s.joinDomain
      .next { s with plant := { s.plant with bring := .spdm } }
    else .next s

/-- FULL_SERVICE: every die has trained; the notch begins to fall, and the images that wait are placed: a decision falls due in
their clusters (R388, R466). -/
def execFullService (s : State) : Out :=
  if s.plant.bring = .reduced ∧ (s.plant.dies.toList.all (fun d => d.trained)) then
    let p := { s.plant.power with fallLast := some s.plant.time }
    let s := { s with plant := { s.plant with bring := .full, power := p } }
    .next ((s.work.waitings.map (fun w => (w.die, w.cluster))).eraseDups.foldl (fun s c => s.needDecision c.1 c.2) s)
  else .next s

/-- FULL_SERVICE_NOTCH_STEP: one step per millisecond, down to the higher request. -/
def execFullServiceNotchStep (s : State) : Out :=
  let p := s.plant.power
  match p.fallLast with
  | none => .next s
  | some t =>
    if s.plant.time.toNat < t.toNat + 1000000 then .next s
    else .next (s.setPower { p with notch := p.notch - 1, fallLast := some s.plant.time })

/-- The passing of a core cycle ends the work of the states ROM and SPDM (R464). -/
def BringUp.onward : BringUp → BringUp
  | .rom => .verify
  | .spdm => .reduced
  | b => b

end Sys2Proof.Machine
end

