-- ==== Sys2Proof/Machine/ResidencyCmds.lean ====
section
/-! DEFINITION. The residency commands of a strand (R174 to R179), and resumption after a fault (R344). -/
namespace Sys2Proof.Machine

/-- The live residency of the seat's cluster that a handle names, when the seat owns it (R174, R180). -/
def State.owned (s : State) (h : Word) : Option Residency :=
  let t := s.self
  s.work.residencies.find? (fun y => y.die == t.id.die && y.cluster == t.id.cluster && y.handle == h.toNat &&
    y.owner == t.id.uid && !y.orphan)

/-- A residency replaced. -/
def State.setResidency (s : State) (y : Residency) : State := s.mapResidency y.die y.cluster y.entry (fun _ => y)

/-- A command on the residency that g[a] names, or ILL with the handle in TINFO0. -/
def State.onOwned (s : State) (a : BitVec 6) (i : Instr) (f : Residency → State → State) : Out :=
  match s.owned (s.getG a) with
  | none => .next (s.trap (illRun (s.getG a) (insWord i)))
  | some y => .next (f y s)

/-! ## FRLD (R175) -/

/-- The word g[b] of FRLD is laid out as it must be. -/
def frldWord (x : Word) : Bool := bits x 1 0 != 3 && bits x 3 2 == 0 && bits x 7 6 == 0 && bits x 63 16 == 0

/-- The shape of a code. -/
def shapeOf (n : Nat) : Shape := if n = 0 then .whole else if n = 1 then .half else .quarter

/-- The streamed image of the launch's graph that an id names, of a kind that runs in the cluster. -/
def State.streamImage (s : State) (l : Launch) (cluster : Nat) (id : Word) : Option Image :=
  match s.graphOfId l.part id.toNat with
  | none => none
  | some (g, f) =>
    if g.gen * 256 + g.slot ≠ l.graph then none
    else match g.images[f]? with
      | some im => if im.served || !(im.kind.runsIn cluster) then none else some im
      | none => none

/-- The generation that an entry of a cluster takes next; an entry's first is 0 (log entry 135). -/
def State.nextGen (s : State) (die cluster entry : Nat) : Nat :=
  match s.work.resGens.find? (fun g => g.1 == die && g.2.1 == cluster && g.2.2.1 == entry) with
  | some g => g.2.2.2
  | none => 0

/-- The entry's generation advanced for its next use. -/
def State.bumpGen (s : State) (die cluster entry gen : Nat) : State :=
  let rest := s.work.resGens.filter (fun g => !(g.1 == die && g.2.1 == cluster && g.2.2.1 == entry))
  { s with work := { s.work with resGens := (die, cluster, entry, (gen + 1) % 16) :: rest } }

/-- A residency made in a free entry, its record block zero (R340). -/
def State.makeResidency (s : State) (d : BitVec 6) (l : Launch) (im : Image) (id x : Word) (entry : Nat) : State :=
  let t := s.self
  let gen := s.nextGen t.id.die t.id.cluster entry
  let y : Residency :=
    { die := t.id.die, cluster := t.id.cluster, entry := entry, gen := gen, owner := t.id.uid, orphan := false
      part := t.id.part, launch := (l.die, l.lid), cfg := id.toNat, shape := im.shape, prio := bits x 5 4, migr := bits x 15 8
      state := .loaded, site := t.site, binds := [], pends := [], frbar := false, barAt := none, waiting := none, region := none
      planes := 0, flags := 0#5, save := .noSave, saved := none, areas := [], image := im, consts := [], argPend := [], record := [] }
  let s := s.bumpGen t.id.die t.id.cluster entry gen
  let s := { s with work := { s.work with residencies := s.work.residencies ++ [y] } }
  (s.wrBytes (s.recordLoc y) (List.replicate 64 0#8)).setG d (w64 y.handle)

def execFrld (d a b : BitVec 6) (s : State) : Out :=
  let t := s.self
  let x := s.getG b
  let w := insWord (.frld d a b)
  if !(frldWord x) then .next (s.trap (illRun x w))
  else match s.launchOf t.id.ctx with
    | none => .next (s.trap (qovfTrap (bits x 1 0) 3))
    | some l => match s.streamImage l t.id.cluster (s.getG a) with
      | none => .next (s.trap (protTrap (s.getG a) 6))
      | some im =>
        let sh := shapeOf (bits x 1 0)
        let mine := (s.work.residencies.filter (fun y => y.die == t.id.die && y.cluster == t.id.cluster &&
          y.launch == (l.die, l.lid) && y.shape == sh)).length
        let reserved := if l.die = t.id.die then l.reserved t.id.cluster sh else 0
        if im.shape ≠ sh then .next (s.trap (illRun x w))
        else if reserved ≤ mine then .next (s.trap (qovfTrap sh.code 3))
        else match (List.range 16).find? (fun e => (s.residency? t.id.die t.id.cluster e).isNone) with
          | none => .next (s.trap (qovfTrap t.id.cluster 4))
          | some e => .next ((s.makeResidency d l im (s.getG a) x e).markBusy [.g d]).adv

/-! ## FRBIND, ARGW and FRGO (R176, R177) -/

/-- A value for a binding: at once in LOADED, else held pending (R176, R400). -/
def Residency.bind (y : Residency) (n : Nat) (v : Word) : Residency :=
  if y.state = .loaded then { y with binds := setBind y.binds n v }
  else { y with pends := y.pends.filter (fun p => p.1 != n) ++ [(n, v, y.frbar)] }

def execFrbind (d a b : BitVec 6) (s : State) : Out :=
  s.onOwned a (.frbind d a b) (fun y s =>
    let n := (s.getG d).toNat
    if 15 < n || !(y.image.declares n) then s.trap (illRun (s.getG d) (insWord (.frbind d a b)))
    else (s.setResidency (y.bind n (s.getG b))).adv)

/-- The position word of ARGW names a CE of the shape. -/
def argwWord (x : Word) (sh : Shape) : Bool :=
  decide (2 ≤ bits x 3 0) && decide (bits x 3 0 ≤ 9) && bits x 7 7 == 0 && bits x 63 9 == 0 && decide (bits x 6 4 < sh.rows)

/-- A value for a constant: written at once in LOADED, else sent over the argument network, or kept pending while the
residency has no region (R176, R228, R400). -/
def State.sendConst (s : State) (y : Residency) (c : Nat × Nat × Bool × BitVec 32) : State :=
  if y.state = .loaded then
    s.setResidency { y with consts := y.consts.filter (fun k => !(k.1 == c.1 && k.2.1 == c.2.1 && k.2.2.1 == c.2.2.1)) ++ [c] }
  else match y.region with
    | none => s.setResidency { y with argPend := y.argPend ++ [c] }
    | some rid => match s.region? rid with
      | some r => s.setRegion { r with argNet := r.argNet ++ [c] }
      | none => s

def execArgw (d a b : BitVec 6) (s : State) : Out :=
  s.onOwned a (.argw d a b) (fun y s =>
    let x := s.getG d
    if !(argwWord x y.shape) then s.trap (illRun x (insWord (.argw d a b)))
    else (s.sendConst y (bits x 6 4, bits x 3 0, x.getLsbD 8, (s.getG b).truncate 32)).adv)

def execFrgo (a : BitVec 6) (s : State) : Out :=
  s.onOwned a (.frgo a) (fun y s =>
    if y.state ≠ .loaded then s.trap (illRun (s.getG a) (insWord (.frgo a)))
    else
      let s := s.setResidency { y with state := .running, waiting := some (s.cycle, s.fresh), goNo := s.fresh }
      { s with fresh := s.fresh + 1 }.adv)

/-! ## Resumption (R344) -/

/-- The plane of a fault record. -/
def Residency.faultPlane (y : Residency) : Nat := bits (y.record.headD 0#64) 35 34

/-- The plane holds an element whose state a resumption cannot restore. -/
def Image.noResume (im : Image) (p : Nat) : Bool :=
  im.frames.any (fun f => bits f.addr 15 14 == p &&
    ((bits f.bits 3 0 == 1 && (meMode f.bits == 2 || (meMode f.bits == 4 && meInd f.bits != 0))) ||
     (bits f.bits 3 0 == 3 && xeMode f.bits == 2)))

/-- The round at which a region resumes: the start of the oldest discarded window; without memory ports, the oldest
round of any element. -/
def Region.resumeAt (r : Region) : Nat :=
  match r.ports with
  | _ :: _ => r.oldest
  | [] => match r.active with
    | [] => 0
    | e :: es => es.foldl (fun n x => min n x.round) e.round

/-- An element as it was at the start of a round. A circuit port keeps its credits and numbers. -/
def Region.rewound (r : Region) (k : Nat) (e : Elem) : Elem :=
  let b := match r.marks.find? (fun m => m.row == e.row && m.col == e.col && m.round == k) with
    | some m => m
    | none => { e with round := k, par := e.par ^^ decide ((e.round + k) % 2 = 1), roundIn := e.roundIn + k - e.round }
  { b with todo := [], done := false, mp := { e.mp with win0 := [], win1 := [], spill := [], rounds := 0 }
           me := { b.me with fifo := [], fifoHd := 0, pass := none, pipe := [] } }

/-- A source of one round in its plane: a root SCAN, an XE that drains, an ME that replays a stash (R205, R281, R288). -/
def oneRound (col : Nat) (f : BitVec 256) : Bool :=
  ((col == 12 || col == 13) && feMode f == 0 && feIn f 0 == 0) || (col == 14 && xeMode f == 3) ||
    ((col == 10 || col == 11) && meMode f == 4 && meInd f == 0)

/-- A source advanced by one outer iteration: its outer counter, and whether that was the last. An AG in IND mode is no
source: its outer counter is the number of EORs that it has passed (R352), and the data that pass it say which is the last. -/
def Region.skipped (r : Region) (e : Elem) : List Nat × Bool :=
  match r.frame? e with
  | none => (e.ctr, false)
  | some f =>
    if oneRound e.col f then (e.ctr, true) else
    let cnts := if e.col = 1 ∧ !(agInd f) then agCnts r e f else if 2 ≤ e.col ∧ e.col < 10 ∧ 1 ≤ ceEor f then ceCnts f else []
    let o := outermost cnts
    if cnts.isEmpty then (e.ctr, false)
    else if e.ctr.getD o 0 + 1 < cnts.getD o 0 then (e.ctr.set o (e.ctr.getD o 0 + 1), false) else ([0, 0, 0, 0], true)

/-- The element that tells which round is the last: the governing AG, or for one in IND mode the first source. -/
def Region.leads (r : Region) : Option Elem :=
  let source (e : Elem) : Bool := (r.frame? e).any (fun f =>
    (e.col == 1 && !(agInd f)) || (decide (2 ≤ e.col) && decide (e.col < 10) && decide (1 ≤ ceEor f)) || oneRound e.col f)
  match r.governor with
  | some g => if source g then some g else r.active.find? source
  | none => r.active.find? source

/-- A region made to run again, from the oldest discarded window or the one after it. -/
def Region.resumed (r : Region) (skip : Bool) (now : Nat) : Region :=
  let k := r.resumeAt
  let es := r.elems.map (r.rewound k)
  let last := match r.leads with
    | some g => (r.skipped (r.rewound k g)).2
    | none => false
  let next (e : Elem) : Elem :=
    if (r.frame? e).isNone || e.atEnd then e
    else if (e.col == 1 || (2 ≤ e.col && e.col < 10)) then { e.endRound last with ctr := (if (insOf e.col ((r.frame? e).getD 0#256)).isEmpty then (r.skipped e).1 else [0, 0, 0, 0]) }
    else e.endRound last
  let es := if skip then es.map next else es
  { r with arcs := r.arcs.map (fun a => { a with queue := [], inReturn := 0 }), elems := es, marks := es, faults := []
           phase := .running, lastMove := now }

/-- An FRBAR that completes at once: values pending now apply from the next fabric load (R176). -/
def Residency.barred (y : Residency) : Residency :=
  { y with barAt := none, frbar := true, pends := y.pends.map (fun q => (q.1, q.2.1, true)) }

/-- FRBAR on a FAULTED residency (R344). -/
def State.resume (s : State) (a : BitVec 6) (y : Residency) : State :=
  let skip := natBit (s.rd (s.recordLoc y) 8) 43
  if y.image.noResume y.faultPlane || (skip && !y.image.indep) then s.trap (illRun (s.getG a) (insWord (.frbar a)))
  else
    let y : Residency := { y.barred with state := .running, record := [] }
    match y.region with
    | none => { s.setResidency { y with waiting := some (s.cycle, s.fresh) } with fresh := s.fresh + 1 }.adv
    | some rid => match s.region? rid with
      | some r => ((s.setResidency y).setRegion (r.resumed skip s.cycle)).adv
      | none => (s.setResidency y).adv

/-! ## FRBAR and FRWAIT (R178, R179) -/

def execFrbar (a : BitVec 6) (s : State) : Out :=
  s.onOwned a (.frbar a) (fun y s =>
    match y.state with
    | .faulted => s.resume a y
    | .running =>
      (match y.barAt with
       | some b => if b < y.planes then (s.setResidency { y with barAt := none }).adv
                   else s.parkFor .frwait (s.getG a)
       | none => (s.setResidency { y with barAt := some y.planes }).parkFor .frwait (s.getG a))
    | _ => (s.setResidency y.barred).adv)

/-- FRWAIT; on a DRAINED residency it waits for the acknowledgement of its remote stores (R441). -/
def execFrwait (a : BitVec 6) (s : State) : Out :=
  s.onOwned a (.frwait a) (fun y s =>
    if y.state = .running then s.parkFor .frwait (s.getG a)
    else if (y.state == .drained || y.state == .faulted) && y.region.any s.storesOut then s
    else (s.freeResidency y).adv)

end Sys2Proof.Machine
end

