-- ==== Sys2Proof/Machine/Dispatch.lean ====
section
/-! DEFINITION. One arm per constructor of Instr. -/
namespace Sys2Proof.Machine

def exec (i : Instr) (s : State) : Host.Outcome State Fault Refusal :=
  match i with
  | .add d a b m => Sys2Proof.Machine.execAdd d a b m s
  | .addN d a b m => Sys2Proof.Machine.execAddN d a b m s
  | .sub d a b m => Sys2Proof.Machine.execSub d a b m s
  | .subN d a b m => Sys2Proof.Machine.execSubN d a b m s
  | .mul d a b m => Sys2Proof.Machine.execMul d a b m s
  | .mulN d a b m => Sys2Proof.Machine.execMulN d a b m s
  | .mulh d a b m => Sys2Proof.Machine.execMulh d a b m s
  | .mulhN d a b m => Sys2Proof.Machine.execMulhN d a b m s
  | .div d a b m => Sys2Proof.Machine.execDiv d a b m s
  | .divN d a b m => Sys2Proof.Machine.execDivN d a b m s
  | .rem d a b m => Sys2Proof.Machine.execRem d a b m s
  | .remN d a b m => Sys2Proof.Machine.execRemN d a b m s
  | .and d a b => Sys2Proof.Machine.execAnd d a b s
  | .or d a b => Sys2Proof.Machine.execOr d a b s
  | .xor d a b => Sys2Proof.Machine.execXor d a b s
  | .andn d a b => Sys2Proof.Machine.execAndn d a b s
  | .shl d a b m => Sys2Proof.Machine.execShl d a b m s
  | .shr d a b m => Sys2Proof.Machine.execShr d a b m s
  | .sha d a b m => Sys2Proof.Machine.execSha d a b m s
  | .ror d a b m => Sys2Proof.Machine.execRor d a b m s
  | .shlImm d a n m => Sys2Proof.Machine.execShlImm d a n m s
  | .shrImm d a n m => Sys2Proof.Machine.execShrImm d a n m s
  | .shaImm d a n m => Sys2Proof.Machine.execShaImm d a n m s
  | .rorImm d a n m => Sys2Proof.Machine.execRorImm d a n m s
  | .clz d a m => Sys2Proof.Machine.execClz d a m s
  | .ctz d a m => Sys2Proof.Machine.execCtz d a m s
  | .popc d a m => Sys2Proof.Machine.execPopc d a m s
  | .brev d a m => Sys2Proof.Machine.execBrev d a m s
  | .bswp d a m => Sys2Proof.Machine.execBswp d a m s
  | .min d a b m => Sys2Proof.Machine.execMin d a b m s
  | .minN d a b m => Sys2Proof.Machine.execMinN d a b m s
  | .max d a b m => Sys2Proof.Machine.execMax d a b m s
  | .maxN d a b m => Sys2Proof.Machine.execMaxN d a b m s
  | .sel d a b => Sys2Proof.Machine.execSel d a b s
  | .shadd1 d a b m => Sys2Proof.Machine.execShadd1 d a b m s
  | .shadd2 d a b m => Sys2Proof.Machine.execShadd2 d a b m s
  | .shadd3 d a b m => Sys2Proof.Machine.execShadd3 d a b m s
  | .shadd4 d a b m => Sys2Proof.Machine.execShadd4 d a b m s
  | .cmpEq d a b m => Sys2Proof.Machine.execCmpEq d a b m s
  | .cmpNe d a b m => Sys2Proof.Machine.execCmpNe d a b m s
  | .cmpLt d a b m => Sys2Proof.Machine.execCmpLt d a b m s
  | .cmpGe d a b m => Sys2Proof.Machine.execCmpGe d a b m s
  | .cmpLtn d a b m => Sys2Proof.Machine.execCmpLtn d a b m s
  | .cmpGen d a b m => Sys2Proof.Machine.execCmpGen d a b m s
  | .addImm d a imm => Sys2Proof.Machine.execAddImm d a imm s
  | .addWImm d a imm => Sys2Proof.Machine.execAddWImm d a imm s
  | .mulImm d a imm => Sys2Proof.Machine.execMulImm d a imm s
  | .andImm d a imm => Sys2Proof.Machine.execAndImm d a imm s
  | .orImm d a imm => Sys2Proof.Machine.execOrImm d a imm s
  | .xorImm d a imm => Sys2Proof.Machine.execXorImm d a imm s
  | .bfx d a l p => Sys2Proof.Machine.execBfx d a l p s
  | .bfxN d a l p => Sys2Proof.Machine.execBfxN d a l p s
  | .bfi d a l p => Sys2Proof.Machine.execBfi d a l p s
  | .hmix d a b s0 => Sys2Proof.Machine.execHmix d a b s0 s
  | .movi d imm => Sys2Proof.Machine.execMovi d imm s
  | .movhi d imm => Sys2Proof.Machine.execMovhi d imm s
  | .addpc d imm => Sys2Proof.Machine.execAddpc d imm s
  | .limm d imm => Sys2Proof.Machine.execLimm d imm s
  | .limmN d imm => Sys2Proof.Machine.execLimmN d imm s
  | .bCond c a b o => Sys2Proof.Machine.execBCond c a b o s
  | .jmp imm => Sys2Proof.Machine.execJmp imm s
  | .call imm => Sys2Proof.Machine.execCall imm s
  | .jr a => Sys2Proof.Machine.execJr a s
  | .callr a => Sys2Proof.Machine.execCallr a s
  | .fadd d a b r p => Sys2Proof.Machine.execFadd d a b r p s
  | .fsub d a b r p => Sys2Proof.Machine.execFsub d a b r p s
  | .fmul d a b r p => Sys2Proof.Machine.execFmul d a b r p s
  | .fdiv d a b r p => Sys2Proof.Machine.execFdiv d a b r p s
  | .fsqrt d a r p => Sys2Proof.Machine.execFsqrt d a r p s
  | .fmaFma d a b r p => Sys2Proof.Machine.execFmaFma d a b r p s
  | .fmaFms d a b r p => Sys2Proof.Machine.execFmaFms d a b r p s
  | .fmaFnma d a b r p => Sys2Proof.Machine.execFmaFnma d a b r p s
  | .fmin d a b p => Sys2Proof.Machine.execFmin d a b p s
  | .fmax d a b p => Sys2Proof.Machine.execFmax d a b p s
  | .fcmp d a b c p => Sys2Proof.Machine.execFcmp d a b c p s
  | .fcls d a p => Sys2Proof.Machine.execFcls d a p s
  | .fmvCp d a p => Sys2Proof.Machine.execFmvCp d a p s
  | .fmvNeg d a p => Sys2Proof.Machine.execFmvNeg d a p s
  | .fmvAbs d a p => Sys2Proof.Machine.execFmvAbs d a p s
  | .fmvSgn d a b p => Sys2Proof.Machine.execFmvSgn d a b p s
  | .fcvt d a s0 r u t => Sys2Proof.Machine.execFcvt d a s0 r u t s
  | .vadd d a b k => Sys2Proof.Machine.execVadd d a b k s
  | .vsub d a b k => Sys2Proof.Machine.execVsub d a b k s
  | .vmul d a b k => Sys2Proof.Machine.execVmul d a b k s
  | .vmin d a b k => Sys2Proof.Machine.execVmin d a b k s
  | .vminN d a b k => Sys2Proof.Machine.execVminN d a b k s
  | .vmax d a b k => Sys2Proof.Machine.execVmax d a b k s
  | .vmaxN d a b k => Sys2Proof.Machine.execVmaxN d a b k s
  | .vlogAnd d a b k => Sys2Proof.Machine.execVlogAnd d a b k s
  | .vlogOr d a b k => Sys2Proof.Machine.execVlogOr d a b k s
  | .vlogXor d a b k => Sys2Proof.Machine.execVlogXor d a b k s
  | .vshShl d a b k => Sys2Proof.Machine.execVshShl d a b k s
  | .vshShr d a b k => Sys2Proof.Machine.execVshShr d a b k s
  | .vshSha d a b k => Sys2Proof.Machine.execVshSha d a b k s
  | .vaddSat d a b k => Sys2Proof.Machine.execVaddSat d a b k s
  | .vaddNSat d a b k => Sys2Proof.Machine.execVaddNSat d a b k s
  | .vsubSat d a b k => Sys2Proof.Machine.execVsubSat d a b k s
  | .vsubNSat d a b k => Sys2Proof.Machine.execVsubNSat d a b k s
  | .vredSum d a k => Sys2Proof.Machine.execVredSum d a k s
  | .vredMax d a k => Sys2Proof.Machine.execVredMax d a k s
  | .vredMin d a k => Sys2Proof.Machine.execVredMin d a k s
  | .vscan d a k => Sys2Proof.Machine.execVscan d a k s
  | .vdot d a b k => Sys2Proof.Machine.execVdot d a b k s
  | .vsel d a b k => Sys2Proof.Machine.execVsel d a b k s
  | .vcmp d a b k c => Sys2Proof.Machine.execVcmp d a b k c s
  | .vaddS d a b k => Sys2Proof.Machine.execVaddS d a b k s
  | .vsubS d a b k => Sys2Proof.Machine.execVsubS d a b k s
  | .vmulS d a b k => Sys2Proof.Machine.execVmulS d a b k s
  | .vfmaS d a b k => Sys2Proof.Machine.execVfmaS d a b k s
  | .vminS d a b k => Sys2Proof.Machine.execVminS d a b k s
  | .vmaxS d a b k => Sys2Proof.Machine.execVmaxS d a b k s
  | .vredSumS d a k => Sys2Proof.Machine.execVredSumS d a k s
  | .vredMaxS d a k => Sys2Proof.Machine.execVredMaxS d a k s
  | .vredMinS d a k => Sys2Proof.Machine.execVredMinS d a k s
  | .vscanS d a k => Sys2Proof.Machine.execVscanS d a k s
  | .vdotS d a b k => Sys2Proof.Machine.execVdotS d a b k s
  | .vsfuRcp d a k => Sys2Proof.Machine.execVsfuRcp d a k s
  | .vsfuRsq d a k => Sys2Proof.Machine.execVsfuRsq d a k s
  | .vsfuEx2 d a k => Sys2Proof.Machine.execVsfuEx2 d a k s
  | .vsfuLg2 d a k => Sys2Proof.Machine.execVsfuLg2 d a k s
  | .vsfuTnh d a k => Sys2Proof.Machine.execVsfuTnh d a k s
  | .vcmpS d a b k c => Sys2Proof.Machine.execVcmpS d a b k c s
  | .vperm d a b k => Sys2Proof.Machine.execVperm d a b k s
  | .vsplat d a k => Sys2Proof.Machine.execVsplat d a k s
  | .vget d a b => Sys2Proof.Machine.execVget d a b s
  | .vins d a b => Sys2Proof.Machine.execVins d a b s
  | .vcmpr d a k => Sys2Proof.Machine.execVcmpr d a k s
  | .vexpd d a k => Sys2Proof.Machine.execVexpd d a k s
  | .vdec d a j k => Sys2Proof.Machine.execVdec d a j k s
  | .venc d a j k => Sys2Proof.Machine.execVenc d a j k s
  | .tblw a b => Sys2Proof.Machine.execTblw a b s
  | .tblr d a => Sys2Proof.Machine.execTblr d a s
  | .kopAnd d a b => Sys2Proof.Machine.execKopAnd d a b s
  | .kopOr d a b => Sys2Proof.Machine.execKopOr d a b s
  | .kopXor d a b => Sys2Proof.Machine.execKopXor d a b s
  | .kopAndn d a b => Sys2Proof.Machine.execKopAndn d a b s
  | .kopSet d a => Sys2Proof.Machine.execKopSet d a s
  | .kopGet d a => Sys2Proof.Machine.execKopGet d a s
  | .kcnt d a => Sys2Proof.Machine.execKcnt d a s
  | .gang => Sys2Proof.Machine.execGang s
  | .split => Sys2Proof.Machine.execSplit s
  | .vcvt d a s0 t k u r => Sys2Proof.Machine.execVcvt d a s0 t k u r s
  | .ld d a w n o => Sys2Proof.Machine.execLd d a w n o s
  | .st s0 a w o => Sys2Proof.Machine.execSt s0 a w o s
  | .vld d a w n o => Sys2Proof.Machine.execVld d a w n o s
  | .vst s0 a w o => Sys2Proof.Machine.execVst s0 a w o s
  | .ldx d a b n w => Sys2Proof.Machine.execLdx d a b n w s
  | .stx s0 a b w => Sys2Proof.Machine.execStx s0 a b w s
  | .ldAcq d a s0 n w => Sys2Proof.Machine.execLdAcq d a s0 n w s
  | .stRel s0 a scope w => Sys2Proof.Machine.execStRel s0 a scope w s
  | .vlds d a b k n w => Sys2Proof.Machine.execVlds d a b k n w s
  | .vsts s0 a b k w => Sys2Proof.Machine.execVsts s0 a b k w s
  | .vgth d a b k n w => Sys2Proof.Machine.execVgth d a b k n w s
  | .vsct s0 a b k w => Sys2Proof.Machine.execVsct s0 a b k w s
  | .pref a => Sys2Proof.Machine.execPref a s
  | .fence s0 m => Sys2Proof.Machine.execFence s0 m s
  | .cwb a => Sys2Proof.Machine.execCwb a s
  | .cinv a => Sys2Proof.Machine.execCinv a s
  | .amoAdd d a b s0 w => Sys2Proof.Machine.execAmoAdd d a b s0 w s
  | .amoAnd d a b s0 w => Sys2Proof.Machine.execAmoAnd d a b s0 w s
  | .amoOr d a b s0 w => Sys2Proof.Machine.execAmoOr d a b s0 w s
  | .amoXor d a b s0 w => Sys2Proof.Machine.execAmoXor d a b s0 w s
  | .amoMin d a b s0 w => Sys2Proof.Machine.execAmoMin d a b s0 w s
  | .amoMax d a b s0 w => Sys2Proof.Machine.execAmoMax d a b s0 w s
  | .amoMinn d a b s0 w => Sys2Proof.Machine.execAmoMinn d a b s0 w s
  | .amoMaxn d a b s0 w => Sys2Proof.Machine.execAmoMaxn d a b s0 w s
  | .amoSwp d a b s0 w => Sys2Proof.Machine.execAmoSwp d a b s0 w s
  | .amoFadd d a b s0 w => Sys2Proof.Machine.execAmoFadd d a b s0 w s
  | .acas d a b s0 w => Sys2Proof.Machine.execAcas d a b s0 w s
  | .ldfe d a o => Sys2Proof.Machine.execLdfe d a o s
  | .ldff d a o => Sys2Proof.Machine.execLdff d a o s
  | .stef s0 a o => Sys2Proof.Machine.execStef s0 a o s
  | .stff s0 a o => Sys2Proof.Machine.execStff s0 a o s
  | .feget d a => Sys2Proof.Machine.execFeget d a s
  | .fesetEmpty a => Sys2Proof.Machine.execFesetEmpty a s
  | .fesetFull a => Sys2Proof.Machine.execFesetFull a s
  | .send a b => Sys2Proof.Machine.execSend a b s
  | .sendv a b => Sys2Proof.Machine.execSendv a b s
  | .recvG d q b => Sys2Proof.Machine.execRecvG d q b s
  | .recvV d q b => Sys2Proof.Machine.execRecvV d q b s
  | .qpoll d q => Sys2Proof.Machine.execQpoll d q s
  | .qbind q a n => Sys2Proof.Machine.execQbind q a n s
  | .qfree q => Sys2Proof.Machine.execQfree q s
  | .cpy d a b x => Sys2Proof.Machine.execCpy d a b x s
  | .cpy2 d a b x => Sys2Proof.Machine.execCpy2 d a b x s
  | .bwait a => Sys2Proof.Machine.execBwait a s
  | .serve d a h n => Sys2Proof.Machine.execServe d a h n s
  | .frld d a b => Sys2Proof.Machine.execFrld d a b s
  | .frbind d a b => Sys2Proof.Machine.execFrbind d a b s
  | .frgo a => Sys2Proof.Machine.execFrgo a s
  | .frbar a => Sys2Proof.Machine.execFrbar a s
  | .frwait a => Sys2Proof.Machine.execFrwait a s
  | .argw d a b => Sys2Proof.Machine.execArgw d a b s
  | .spawnCore a b => Sys2Proof.Machine.execSpawnCore a b s
  | .spawnCluster a b => Sys2Proof.Machine.execSpawnCluster a b s
  | .spawnNamed d a b => Sys2Proof.Machine.execSpawnNamed d a b s
  | .spawnDie a b => Sys2Proof.Machine.execSpawnDie a b s
  | .exit => Sys2Proof.Machine.execExit s
  | .yield => Sys2Proof.Machine.execYield s
  | .twait a => Sys2Proof.Machine.execTwait a s
  | .csus a b => Sys2Proof.Machine.execCsus a b s
  | .cfrc a => Sys2Proof.Machine.execCfrc a s
  | .cfil n a b => Sys2Proof.Machine.execCfil n a b s
  | .ccan a => Sys2Proof.Machine.execCcan a s
  | .ccanP a => Sys2Proof.Machine.execCcanP a s
  | .ctag d a => Sys2Proof.Machine.execCtag d a s
  | .trap c => Sys2Proof.Machine.execTrap c s
  | .eret => Sys2Proof.Machine.execEret s
  | .brk => Sys2Proof.Machine.execBrk s
  | .halt => Sys2Proof.Machine.execHalt s
  | .ctlr d imm => Sys2Proof.Machine.execCtlr d imm s
  | .ctlw a imm => Sys2Proof.Machine.execCtlw a imm s
  | .tlbiPage a s0 => Sys2Proof.Machine.execTlbiPage a s0 s
  | .tlbiAsid a s0 => Sys2Proof.Machine.execTlbiAsid a s0 s
  | .tlbiPart s0 => Sys2Proof.Machine.execTlbiPart s0 s
  | .resultLands uid => Sys2Proof.Machine.execResultLands uid s
  | .strandWake uid => Sys2Proof.Machine.execStrandWake uid s
  | .fewaitExpiry uid => Sys2Proof.Machine.execFewaitExpiry uid s
  | .twaitDeadline uid => Sys2Proof.Machine.execTwaitDeadline uid s
  | .celltmoExpiry uid => Sys2Proof.Machine.execCelltmoExpiry uid s
  | .mpCellWaitExpiry rid row idx => Sys2Proof.Machine.execMpCellWaitExpiry rid row idx s
  | .deferredTrap uid => Sys2Proof.Machine.execDeferredTrap uid s
  | .strandPlacement die cluster => Sys2Proof.Machine.execStrandPlacement die cluster s
  | .victimPreempt uid => Sys2Proof.Machine.execVictimPreempt uid s
  | .strandSave uid => Sys2Proof.Machine.execStrandSave uid s
  | .copyBurst cid => Sys2Proof.Machine.execCopyBurst cid s
  | .copyRingWordWrite cid => Sys2Proof.Machine.execCopyRingWordWrite cid s
  | .messageDelivery uid => Sys2Proof.Machine.execMessageDelivery uid s
  | .serveInject pid => Sys2Proof.Machine.execServeInject pid s
  | .servedExit rid => Sys2Proof.Machine.execServedExit rid s
  | .serveResultArrival pid => Sys2Proof.Machine.execServeResultArrival pid s
  | .frondDecision die cluster => Sys2Proof.Machine.execFrondDecision die cluster s
  | .residencyPlacement die cluster => Sys2Proof.Machine.execResidencyPlacement die cluster s
  | .residencyMigration die cluster entry target => Sys2Proof.Machine.execResidencyMigration die cluster entry target s
  | .planePrefetch rid => Sys2Proof.Machine.execPlanePrefetch rid s
  | .planeEntry rid => Sys2Proof.Machine.execPlaneEntry rid s
  | .argwDelivery rid => Sys2Proof.Machine.execArgwDelivery rid s
  | .creditReturn rid arc => Sys2Proof.Machine.execCreditReturn rid arc s
  | .ceFire rid row col => Sys2Proof.Machine.execCeFire rid row col s
  | .ceGeneratorFire rid row col => Sys2Proof.Machine.execCeGeneratorFire rid row col s
  | .ceStopStep rid row col => Sys2Proof.Machine.execCeStopStep rid row col s
  | .roundBoundary rid row col => Sys2Proof.Machine.execRoundBoundary rid row col s
  | .elementDone rid row col => Sys2Proof.Machine.execElementDone rid row col s
  | .agAffFire rid row => Sys2Proof.Machine.execAgAffFire rid row s
  | .agIndFire rid row => Sys2Proof.Machine.execAgIndFire rid row s
  | .mpLdsFire rid row => Sys2Proof.Machine.execMpLdsFire rid row s
  | .mpStsFire rid row => Sys2Proof.Machine.execMpStsFire rid row s
  | .mpAmsFire rid row => Sys2Proof.Machine.execMpAmsFire rid row s
  | .mpSpillComplete rid row idx => Sys2Proof.Machine.execMpSpillComplete rid row idx s
  | .windowCommit rid => Sys2Proof.Machine.execWindowCommit rid s
  | .residencyDrained die cluster entry => Sys2Proof.Machine.execResidencyDrained die cluster entry s
  | .feScanFire rid row col => Sys2Proof.Machine.execFeScanFire rid row col s
  | .feIsectFire rid row col => Sys2Proof.Machine.execFeIsectFire rid row col s
  | .feUnionFire rid row col => Sys2Proof.Machine.execFeUnionFire rid row col s
  | .feReptFire rid row col => Sys2Proof.Machine.execFeReptFire rid row col s
  | .feReduFire rid row col => Sys2Proof.Machine.execFeReduFire rid row col s
  | .feFiltFire rid row col => Sys2Proof.Machine.execFeFiltFire rid row col s
  | .feExpdFire rid row col => Sys2Proof.Machine.execFeExpdFire rid row col s
  | .feJoinFire rid row col => Sys2Proof.Machine.execFeJoinFire rid row col s
  | .feLvlwFire rid row col => Sys2Proof.Machine.execFeLvlwFire rid row col s
  | .feCdropFire rid row col => Sys2Proof.Machine.execFeCdropFire rid row col s
  | .meBufWrite rid row col => Sys2Proof.Machine.execMeBufWrite rid row col s
  | .meBufPass rid row col => Sys2Proof.Machine.execMeBufPass rid row col s
  | .meFifoFire rid row col => Sys2Proof.Machine.execMeFifoFire rid row col s
  | .meRmwFire rid row col => Sys2Proof.Machine.execMeRmwFire rid row col s
  | .meRmwUpdateWrite rid row col => Sys2Proof.Machine.execMeRmwUpdateWrite rid row col s
  | .meLutFire rid row col => Sys2Proof.Machine.execMeLutFire rid row col s
  | .meStashAppend rid row col => Sys2Proof.Machine.execMeStashAppend rid row col s
  | .meStashReplay rid row col => Sys2Proof.Machine.execMeStashReplay rid row col s
  | .xeMmbFire rid row => Sys2Proof.Machine.execXeMmbFire rid row s
  | .xeMmnFire rid row => Sys2Proof.Machine.execXeMmnFire rid row s
  | .xeBldFire rid row => Sys2Proof.Machine.execXeBldFire rid row s
  | .xeDrnFire rid row => Sys2Proof.Machine.execXeDrnFire rid row s
  | .fabricFaultFreeze rid row col => Sys2Proof.Machine.execFabricFaultFreeze rid row col s
  | .rstall rid => Sys2Proof.Machine.execRstall rid s
  | .residencySaveRequest die cluster entry => Sys2Proof.Machine.execResidencySaveRequest die cluster entry s
  | .boundarySave die cluster entry => Sys2Proof.Machine.execBoundarySave die cluster entry s
  | .boundarySaveTimeout die cluster entry => Sys2Proof.Machine.execBoundarySaveTimeout die cluster entry s
  | .freezeSave die cluster entry => Sys2Proof.Machine.execFreezeSave die cluster entry s
  | .evalRequestRelease die part => Sys2Proof.Machine.execEvalRequestRelease die part s
  | .evalPacketResult pid => Sys2Proof.Machine.execEvalPacketResult pid s
  | .walkComplete uid va => Sys2Proof.Machine.execWalkComplete uid va s
  | .tlbiComplete uid => Sys2Proof.Machine.execTlbiComplete uid s
  | .pageFaultMessage idx => Sys2Proof.Machine.execPageFaultMessage idx s
  | .pagerReplyDescent idx => Sys2Proof.Machine.execPagerReplyDescent idx s
  | .remoteAccessArrival rq remModule remPart op width pa va data expected => Sys2Proof.Machine.execRemoteAccessArrival rq remModule remPart op width pa va data expected s
  | .remoteResponse rq data status => Sys2Proof.Machine.execRemoteResponse rq data status s
  | .remoteStoreAck rq => Sys2Proof.Machine.execRemoteStoreAck rq s
  | .requestTimeout rq => Sys2Proof.Machine.execRequestTimeout rq s
  | .laneFailure port => Sys2Proof.Machine.execLaneFailure port s
  | .circuitOpen rid row => Sys2Proof.Machine.execCircuitOpen rid row s
  | .circuitTokenArrival rid row seqNo kind par payload => Sys2Proof.Machine.execCircuitTokenArrival rid row seqNo kind par payload s
  | .launchMessage fn msg whole => Sys2Proof.Machine.execLaunchMessage fn msg whole s
  | .launchAdmission fn => Sys2Proof.Machine.execLaunchAdmission fn s
  | .launchComplete die lid => Sys2Proof.Machine.execLaunchComplete die lid s
  | .statusRead fn => Sys2Proof.Machine.execStatusRead fn s
  | .eqheadWrite fn value => Sys2Proof.Machine.execEqheadWrite fn value s
  | .eventQueueAppend fn => Sys2Proof.Machine.execEventQueueAppend fn s
  | .msixTableWrite fn idx value => Sys2Proof.Machine.execMsixTableWrite fn idx value s
  | .registerWrite fn offset value => Sys2Proof.Machine.execRegisterWrite fn offset value s
  | .hostDmaRead fn trusted addr len => Sys2Proof.Machine.execHostDmaRead fn trusted addr len s
  | .hostDmaWrite fn trusted addr data => Sys2Proof.Machine.execHostDmaWrite fn trusted addr data s
  | .unsupportedRequest fn => Sys2Proof.Machine.execUnsupportedRequest fn s
  | .functionLevelReset fn => Sys2Proof.Machine.execFunctionLevelReset fn s
  | .ideStreamLoss fn => Sys2Proof.Machine.execIdeStreamLoss fn s
  | .lockInterfaceRequest session part => Sys2Proof.Machine.execLockInterfaceRequest session part s
  | .startInterfaceRequest session part => Sys2Proof.Machine.execStartInterfaceRequest session part s
  | .stopInterfaceRequest session part => Sys2Proof.Machine.execStopInterfaceRequest session part s
  | .getVersion => Sys2Proof.Machine.execGetVersion s
  | .getCapabilities => Sys2Proof.Machine.execGetCapabilities s
  | .negotiateAlgorithms => Sys2Proof.Machine.execNegotiateAlgorithms s
  | .getDigests => Sys2Proof.Machine.execGetDigests s
  | .getCertificate slot => Sys2Proof.Machine.execGetCertificate slot s
  | .challenge slot nonce => Sys2Proof.Machine.execChallenge slot nonce s
  | .getMeasurements session index => Sys2Proof.Machine.execGetMeasurements session index s
  | .keyExchange part => Sys2Proof.Machine.execKeyExchange part s
  | .finish session => Sys2Proof.Machine.execFinish session s
  | .keyUpdate session => Sys2Proof.Machine.execKeyUpdate session s
  | .heartbeat session => Sys2Proof.Machine.execHeartbeat session s
  | .endSession session => Sys2Proof.Machine.execEndSession session s
  | .partSet fn => Sys2Proof.Machine.execPartSet fn s
  | .partClear fn => Sys2Proof.Machine.execPartClear fn s
  | .debugInstall fn => Sys2Proof.Machine.execDebugInstall fn s
  | .debugCmd fn => Sys2Proof.Machine.execDebugCmd fn s
  | .budgetSet fn => Sys2Proof.Machine.execBudgetSet fn s
  | .budgetGet fn => Sys2Proof.Machine.execBudgetGet fn s
  | .peerSet fn => Sys2Proof.Machine.execPeerSet fn s
  | .strandResume fn => Sys2Proof.Machine.execStrandResume fn s
  | .strandKill fn => Sys2Proof.Machine.execStrandKill fn s
  | .pagerSet fn => Sys2Proof.Machine.execPagerSet fn s
  | .graphLoad fn => Sys2Proof.Machine.execGraphLoad fn s
  | .graphUnload fn => Sys2Proof.Machine.execGraphUnload fn s
  | .features fn => Sys2Proof.Machine.execFeatures fn s
  | .subscribe fn => Sys2Proof.Machine.execSubscribe fn s
  | .periodBoundary => Sys2Proof.Machine.execPeriodBoundary s
  | .arbiterInterval power broadDraw narrowDraw => Sys2Proof.Machine.execArbiterInterval power broadDraw narrowDraw s
  | .slackWindow busy => Sys2Proof.Machine.execSlackWindow busy s
  | .slackPeerReport peer throttled busy => Sys2Proof.Machine.execSlackPeerReport peer throttled busy s
  | .droopDetection die cluster drop => Sys2Proof.Machine.execDroopDetection die cluster drop s
  | .droopFreezeEnd die cluster => Sys2Proof.Machine.execDroopFreezeEnd die cluster s
  | .rowTempSample die cluster frond row temp => Sys2Proof.Machine.execRowTempSample die cluster frond row temp s
  | .dramScrub die line uncorrectable => Sys2Proof.Machine.execDramScrub die line uncorrectable s
  | .registerParityError uid => Sys2Proof.Machine.execRegisterParityError uid s
  | .clusterMapOut die cluster => Sys2Proof.Machine.execClusterMapOut die cluster s
  | .clusterHardFailure die cluster => Sys2Proof.Machine.execClusterHardFailure die cluster s
  | .coldReset => Sys2Proof.Machine.execColdReset s
  | .firmwareVerify digest key sig version => Sys2Proof.Machine.execFirmwareVerify digest key sig version s
  | .dieTraining die passed spareFor => Sys2Proof.Machine.execDieTraining die passed spareFor s
  | .fullService => Sys2Proof.Machine.execFullService s
  | .fullServiceNotchStep => Sys2Proof.Machine.execFullServiceNotchStep s
  | .illegalInstruction word word2 => Sys2Proof.Machine.execIllegalInstruction word word2 s
  | .instructionFetch uid => Sys2Proof.Machine.execInstructionFetch uid s
  | .managementCommandOpcode fn => Sys2Proof.Machine.execManagementCommandOpcode fn s
  | .ideKeyManagement fn => Sys2Proof.Machine.execIdeKeyManagement fn s
  | .peerBindingRequest remModule remPart part granules => Sys2Proof.Machine.execPeerBindingRequest remModule remPart part granules s
  | .peerBindingEnd remModule remPart part => Sys2Proof.Machine.execPeerBindingEnd remModule remPart part s
  | .circuitOtherEndLost rid row => Sys2Proof.Machine.execCircuitOtherEndLost rid row s

end Sys2Proof.Machine
end

