-- ==== Sys2Proof/Machine/Turn.lean ====
section
/-! DEFINITION. A core's turn, the issue of an instruction, the passing of core cycles, and what happens when nothing is
appointed. -/
namespace Sys2Proof.Machine

/-- The seat issues the instruction at its pc (R97, R100). -/
def State.issue (s : State) : Out :=
  match s.codeOf s.self with
  | .trap r => .next (s.trap r)
  | .miss _ => .next { s with self := { s.self with waits := { s.self.waits with fetchMiss := true } } }
  | .have w w2 => match decode w w2 with
    | .error _ => execIllegalInstruction w w2 s
    | .ok i => exec i s

/-- The slot whose half of the seat's next instruction follows in a reserved cycle (R19, R32). -/
def State.secondOf (s : State) : Option Nat :=
  if s.self.ctl.glead then match s.codeOf s.self with
    | .have w w2 => match decode w w2 with
      | .ok i => if twoCycles i then some (s.self.id.slot + 1) else none
      | .error _ => none
    | _ => none
  else none

/-- A strand takes its core's turn: a pending deferred trap comes first (R334), else its instruction issues. -/
def State.turnOf (s : State) (c : Core) (t : Strand) : Out :=
  let s := s.seat t.id.uid
  match s.deferTaker with
  | some u => .next (((s.issued c t.id.slot none).seat u).takeDeferred)
  | none => (s.issued c t.id.slot s.secondOf).issue

/-- A core's turn in the present cycle (R19). -/
def State.turn (s : State) (die cluster core : Nat) : Out :=
  let c := s.core die cluster core
  if c.spent s.cycle then .next s
  else match c.reserved s.cycle with
    | some k => .next (s.issued c k none)
    | none => match s.choose c with
      | some t => s.turnOf c t
      | none => .next s

/-- The units of 1/2162160 ns that a core cycle takes at a notch (R445). -/
def cycleUnits (notch : Nat) : Nat := 32 * 720720 / (16 - notch)

/-- Every region held is charged for the cycles to its partition's FROND budget, in quarter units (R392, R393). -/
def State.chargeFronds (s : State) (n : Nat) : State :=
  s.work.regions.foldl (fun s r => s.charge r.site.part r.die 0 (n * r.shape.units)) s

/-- The units of 1/2162160000000 ns of TIME that a core cycle takes at the present notch and rate of the timebase (R458). -/
def State.cycleTicks (s : State) : Nat := cycleUnits s.plant.power.notch * (1000000 + s.plant.ppm).toNat

/-- Units in a nanosecond. -/
def nsTicks : Nat := 2162160000000

/-- Core cycles pass, and time with them (R445, R456, R458); cycles in which a region waits on a receive port of a circuit are
counted for the slack window (R455); the ports send what they held and may send now (R393, R463); the bring-up states without
an event of their own end (R464). -/
def State.cycles (s : State) (n : Nat) : State :=
  let f := s.plant.frac + n * s.cycleTicks
  let p := s.plant.power
  let before := (s.plant.frac + (n - s.peerCycles n) * s.cycleTicks) / nsTicks
  let p := { p with waited := p.waited + (f / nsTicks - before) }
  let s := s.stallClock n
  let s := { s with plant := { s.plant with
    cycle := s.plant.cycle + n, frac := f % nsTicks, power := p
    bring := if n = 0 then s.plant.bring else s.plant.bring.onward
    time := s.plant.time + BitVec.ofNat 64 (f / nsTicks) } }
  (s.chargeFronds n).flushLinks

/-- Core cycles until TIME reaches the next period boundary or window end, at least one. -/
def State.toBoundary (s : State) : Nat :=
  let p := s.plant.power
  let b := min ((p.periods + 1) * 64000) ((p.windows + 1) * 1000000)
  max 1 (((b - s.plant.time.toNat) * nsTicks - s.plant.frac + s.cycleTicks - 1) / s.cycleTicks)

/-- A period boundary that is due, then a slack window that has ended. -/
def State.boundary (s : State) : Option Out :=
  if s.periodDue then some (execPeriodBoundary s)
  else if s.windowDue then some (execSlackWindow s.ownBusy s)
  else none

/-- Core cycles that the agenda appoints, `rest` coming after them. Boundaries on the way occur in their cycles. -/
def State.pass (s : State) (n : Nat) (rest : List Activity) : Out :=
  match s.boundary with
  | some o => o
  | none =>
    let k := min n s.toBoundary
    .next ({ s with agenda := if k < n then .cycles (n - k) :: rest else rest }.cycles k)

/-- The unit that an act from outside the opcode table names exists; a host read takes at most 4 KiB. -/
def Outside.real : Outside → Bool
  | .droopctl d _ | .creddly d _ => decide (d < 8)
  | .barRead fn _ n => decide (fn < 64) && decide (n ≤ 4096)
  | _ => true

/-- An act from outside the opcode table. -/
def State.outside (s : State) : Outside → State
  | .droopctl d v => s.setDie d ((s.die d).withDroopctl v)
  | .creddly d v => s.setDie d ((s.die d).withCreddly v)
  | .powerLimit w => s.setLimit w
  | .barRead fn off n => s.barRead fn off n
  | .wordError l => s.markWord l
  | .timeRate r => s.setRate r

/-- A core that can use the present cycle: the first among the cores of the strands, the seat's first. -/
def State.busyCore (s : State) : Option (Nat × Nat × Nat) :=
  s.all.findSome? (fun t =>
    let c := s.core t.id.die t.id.cluster t.id.core
    if t.resident && !(c.spent s.cycle) && ((c.reserved s.cycle).isSome || (s.choose c).isSome) then
      some (t.id.die, t.id.cluster, t.id.core) else none)

/-- What a strand waits for that comes about inside the device, next in order. -/
def State.dueOf (s : State) (t : Strand) : Option Out :=
  if !t.live then none
  else if !t.waits.busy.isEmpty then some (execResultLands t.id.uid s)
  else if t.wakeReady then some (execStrandWake t.id.uid s)
  else if t.st == .active && t.waits.fetchMiss && t.waits.remote.isNone then some (execInstructionFetch t.id.uid s)
  else if t.waits.sending.isSome then some (execMessageDelivery t.id.uid s)
  else if t.waits.tlbi.any (fun q => !(s.tlbiWaits t q.1 q.2.1 q.2.2)) then some (execTlbiComplete t.id.uid s)
  else if t.waits.saving && s.canSave t then some (execStrandSave t.id.uid s)
  else if (t.st == .parked || t.st == .frozen) && s.canDefer t then some (execDeferredTrap t.id.uid s)
  else if (t.st == .queued || t.st == .saved) && (s.seatFor t).isSome then
    some (execStrandPlacement t.id.die t.id.cluster s)
  else none

/-- With nothing appointed, a boundary that is due comes first; then every core takes its turn of the cycle; then what
is due to strands comes about; then a cycle passes. -/
def State.idle (s : State) : Out :=
  match s.boundary with
  | some o => o
  | none => match s.busyCore with
    | some (d, c, k) => s.turn d c k
    | none => match s.all.findSome? s.dueOf with
      | some o => o
      | none => .next (s.cycles 1)

end Sys2Proof.Machine
end

