-- ==== Sys2Proof/Machine/Step.lean ====
section
/-! DEFINITION. One step of the machine, and the state in which a given instruction is the next to be fetched. -/
namespace Sys2Proof.Machine

/-- One step. The agenda says who acts; with none the cores take their turns in order. An agenda entry that is not a
well-formed event names a unit that the module does not have. -/
def step (s : State) : Host.Outcome State Fault Refusal :=
  match s.agenda with
  | [] => s.idle
  | .turn d c k :: rest => { s with agenda := rest }.turn d c k
  | .event i :: rest =>
    if i.wellFormed && !i.isStrand then exec i { s with agenda := rest } else .fault .noSuchUnit
  | .cycles n :: rest => s.pass n rest
  | .outside o :: rest => if o.real then .next ({ s with agenda := rest }.outside o) else .fault .noSuchUnit

/-- The strand that fetches next: the seat when it is ACTIVE, else a strand in slot 0 of core 0 of cluster 0 of die 0
(log entry 1). It waits for nothing. -/
def State.fetcher (s : State) : Strand :=
  let t : Strand := if s.self.st = .active then s.self
    else { id := { uid := s.fresh, sid := some 0#16 }, st := .active }
  { t with waits := {}, ctl := { t.ctl with glead := false, ganged := false } }

/-- A translation of the 4 KiB page of an address for the strand, at its core's L1 TLB. -/
def State.fetchEntry (s : State) (t : Strand) (a : Nat) : TlbEntry :=
  let v := a / 4096 * 4096
  { holder := .l1 t.id.die t.id.cluster t.id.core, part := t.id.part, asid := none, vbase := v, size := 4096
    pbase := s.dieBase 0 + v % 2 ^ 39, r := true, w := false, x := true, u := true, c := false, key := 0 }

/-- The state with the bytes of an opcode-table word where `step` fetches its next instruction: the core of the strand that
fetches has the next turn. -/
def State.withFetchWord (s : State) (nbits w : Nat) : State :=
  let t := s.fetcher
  let a := t.pc.toNat
  let loc := s.dieBase 0 + a % 2 ^ 39
  let c := s.core t.id.die t.id.cluster t.id.core
  let s := { s with self := t, others := [], agenda := [.turn t.id.die t.id.cluster t.id.core], fresh := s.fresh + 1
                    plant := { s.plant with power := { s.plant.power with broadFrac := 16, narrowFrac := 16 } } }
  let s := s.setCore { c with last := (t.id.slot + 7) % 8, lastAt := none, second := none }
  let s := s.wrBytes loc (tableBytes nbits w)
  { s with m := { s.m with poisoned := []
                           keyed := s.m.keyed.filter (fun k => decide (k.line + 64 ≤ loc) || decide (loc + 8 ≤ k.line))
                           tlb := s.fetchEntry t a :: s.fetchEntry t (a + 4) :: s.m.tlb } }

end Sys2Proof.Machine
end

