-- ==== Sys2Proof/Safety.lean ====
section
/-! DEFINITION. The terms in which claims about the machine are stated: sound states, what an instruction leaves as it was,
and the arithmetic of the spec written a second time, on plain integers and bits. -/
namespace Sys2Proof.Machine

/-! ## Sound states -/

/-- The memory is in its canonical form. -/
def State.memOk (s : State) : Prop := memWf s.m.mem = true

/-- A gang's leader has its follower, the FROZEN strand of the next slot (R31). -/
def State.gangOk (s : State) : Prop := s.self.ctl.glead = true → s.follower.isSome = true

/-! ## Frames -/

/-- Every byte of memory reads as before. -/
def SameBytes (s t : State) : Prop := ∀ a, t.byteAt a = s.byteAt a

/-- Every byte outside the `n` bytes at `l` reads as before. -/
def SameBytesBut (l n : Nat) (s t : State) : Prop := ∀ a, (a < l ∨ l + n ≤ a) → t.byteAt a = s.byteAt a

/-- The full/empty bits, tags, error marks, TLBs and the lines' keys are as before. -/
def SameMarks (s t : State) : Prop :=
  t.m.empties = s.m.empties ∧ t.m.tags = s.m.tags ∧ t.m.poisoned = s.m.poisoned ∧ t.m.tlb = s.m.tlb ∧
  t.m.keyed = s.m.keyed ∧ t.m.fills = s.m.fills

/-- Everything but the strands and memory is as before: cores, work, cells, hosts, clocks and power. -/
def SameRest (s t : State) : Prop :=
  t.cores = s.cores ∧ t.work = s.work ∧ t.cells = s.cells ∧ t.host = s.host ∧ t.plant = s.plant

/-- The strand is the same but for its general registers, its pc and the marks of registers that await results. -/
def SameButG (t u : Strand) : Prop :=
  u.id = t.id ∧ u.st = t.st ∧ u.v = t.v ∧ u.k = t.k ∧ u.ctl = t.ctl ∧ u.q = t.q ∧ u.park = t.park

/-- The state after a one-word instruction whose only result is general register `d`; a write to g0 is discarded (R94). -/
def State.wrote (s : State) (d : BitVec 6) (x : Word) : State :=
  { s with self := { s.self with g := if d = 0#6 then s.self.g else s.self.g.set d.toNat x d.isLt
                                 pc := s.self.pc + 4#64 } }

/-- The same, with flags that join FFLAGS (R76). -/
def State.wroteF (s : State) (d : BitVec 6) (x : Word) (f : BitVec 5) : State :=
  let t := s.wrote d x
  { t with self := { t.self with ctl := { t.self.ctl with fflags := t.self.ctl.fflags ||| f } } }

/-- The state after an instruction that only transfers control (R97, R129). -/
def State.wentTo (s : State) (pc : Word) : State := { s with self := { s.self with pc := pc } }

/-- The state after a trap of a seat that is in no trap handler (R33, R35): the gang that it leads has ended; the saved
registers, S mode, ITR, the pc at TVEC; what its instruction waited for and had from other modules is dropped. -/
def State.trapped (s : State) (tpc : Word) (r : TrapRec) : State :=
  let s := s.endGang
  { s with self := { s.self with
      st := .active
      park := {}
      waits := { s.self.waits with answers := [], holds := [] }
      pc := s.self.ctl.tvec
      ctl := { s.self.ctl with
        tpc := tpc, tcause := r.tcause, tinfo0 := r.info0, tinfo1 := r.info1, tinfo2 := r.info2, tinfo3 := r.info3
        pmode := s.self.ctl.sMode, sMode := true, itr := true } } }

/-- What the running seat's instruction waits for once it is parked: the data answers that it has from other modules are
dropped, since it is carried out again in full when the park ends (R147). -/
def State.parkWaits (s : State) : Waits :=
  { s.self.waits with answers := s.self.waits.answers.filter (fun a => !a.isRead) }

/-- The seat can take a trap: it is in no trap handler (R36). -/
def State.canTrap (s : State) : Prop := s.self.ctl.itr = false

end Sys2Proof.Machine

namespace Sys2Proof.Spec
open Sys2Proof.Machine

/-- Val of R124: the low 32 or all 64 bits, unsigned or in two's complement. -/
def val (w32 u : Bool) (x : Word) : Int :=
  match w32, u with
  | true, true => ((x.setWidth 32).toNat : Int)
  | true, false => (x.setWidth 32).toInt
  | false, true => (x.toNat : Int)
  | false, false => x.toInt

/-- The end of R124: the exact result clamped under .sat to the range of the form, cut to the width, and extended. -/
def fit (w32 sat u : Bool) (r : Int) : Word :=
  let lo : Int := if u then 0 else if w32 then -2147483648 else -9223372036854775808
  let hi : Int := match w32, u with
    | true, true => 4294967295
    | true, false => 2147483647
    | false, true => 18446744073709551615
    | false, false => 9223372036854775807
  let r := if sat then (if r < lo then lo else if hi < r then hi else r) else r
  match w32, u with
  | true, true => (BitVec.ofInt 32 r).zeroExtend 64
  | true, false => (BitVec.ofInt 32 r).signExtend 64
  | false, _ => BitVec.ofInt 64 r

/-- The width of a form. -/
def width (w32 : Bool) : Nat := if w32 then 32 else 64

/-- Cond of R129. -/
def holds (c : BitVec 3) (x y : Word) : Prop :=
  (c = 0#3 ∧ x = y) ∨ (c = 1#3 ∧ x ≠ y) ∨ (c = 2#3 ∧ x.toInt < y.toInt) ∨ (c = 3#3 ∧ y.toInt ≤ x.toInt)
    ∨ (c = 4#3 ∧ x.toNat < y.toNat) ∨ (c = 5#3 ∧ y.toNat ≤ x.toNat)

/-! ## Floating point by fields (R69, R70) -/

/-- Bits of a scalar operand: .s or .d. -/
def fbits (p : BitVec 1) : Nat := if p = 0#1 then 32 else 64
/-- Fraction bits. -/
def fracBits (p : BitVec 1) : Nat := if p = 0#1 then 23 else 52
/-- The pattern of an operand. -/
def fpat (p : BitVec 1) (x : Word) : Nat := x.toNat % 2 ^ fbits p
/-- Its sign bit. -/
def fsign (p : BitVec 1) (x : Word) : Bool := decide (2 ^ (fbits p - 1) ≤ fpat p x)
/-- Its bits below the sign. -/
def fmag (p : BitVec 1) (x : Word) : Nat := fpat p x % 2 ^ (fbits p - 1)
/-- The magnitude pattern of infinity; greater ones are NaNs. -/
def finf (p : BitVec 1) : Nat := if p = 0#1 then 0x7F800000 else 0x7FF0000000000000
/-- A NaN. -/
def fnan (p : BitVec 1) (x : Word) : Bool := decide (finf p < fmag p x)
/-- A signalling NaN: its top fraction bit is 0. -/
def fsnan (p : BitVec 1) (x : Word) : Bool := fnan p x && decide (fmag p x < finf p + 2 ^ (fracBits p - 1))
/-- The canonical NaN (R69). -/
def canonicalNan (p : BitVec 1) : Word := if p = 0#1 then 0x7FC00000#64 else 0x7FF8000000000000#64
/-- The order of values: both zeros are 0, a pattern with a sign is the negated magnitude. -/
def fkey (p : BitVec 1) (x : Word) : Int := if fsign p x then -(fmag p x : Int) else fmag p x
/-- The order of R88, with -0 below +0. -/
def fkeyZ (p : BitVec 1) (x : Word) : Int := if fsign p x then -(fmag p x : Int) - 1 else fmag p x
/-- The value of a finite pattern (R70). -/
def fvalue (p : BitVec 1) (x : Word) : ℚ :=
  let e := fmag p x / 2 ^ fracBits p
  let f := fmag p x % 2 ^ fracBits p
  let bias : Int := if p = 0#1 then 127 else 1023
  let m : ℚ := if e = 0 then f * (2 : ℚ) ^ (1 - bias - fracBits p) else (2 ^ fracBits p + f) * (2 : ℚ) ^ (e - bias - fracBits p)
  if fsign p x then -m else m
/-- The bit of FCLS that is set (R132). -/
def fclass (p : BitVec 1) (x : Word) : Nat :=
  if fsnan p x then 8 else if fnan p x then 9
  else if fmag p x = finf p then (if fsign p x then 0 else 7)
  else if fmag p x = 0 then (if fsign p x then 3 else 4)
  else if fmag p x < 2 ^ fracBits p then (if fsign p x then 2 else 5)
  else (if fsign p x then 1 else 6)

/-- The pattern is that of a finite value. -/
def ffinite (p : BitVec 1) (x : Word) : Prop := fmag p x < finf p

/-- NV. -/
def nv : BitVec 5 := 16#5

/-! ## Trees and running sums of lanes (R90, R91, R137) -/

/-- Node `i` of a level of the tree of R90 over leaves in order, with the flags of every node at and below it: neighbours of
the level below, combined and rounded once. -/
def tree (f : FVal → FVal → FRes) (leaf : Nat → FVal) : Nat → Nat → FVal × BitVec 5
  | 0, i => (leaf i, 0#5)
  | l + 1, i =>
    let x := tree f leaf l (2 * i)
    let y := tree f leaf l (2 * i + 1)
    let r := f x.1 y.1
    (f32.unpack r.1, x.2 ||| y.2 ||| r.2)

/-- The accumulator of VSCAN.s before lane `j`: -0, and then one rounding at each active lane (R137). -/
def runningSum (mode : Nat) (on : Nat → Bool) (x : Nat → FVal) : Nat → Lane
  | 0 => 0x80000000#32
  | j + 1 =>
    let acc := runningSum mode on x j
    if on j then BitVec.ofNat 32 (f32.add mode (f32.unpack acc.toNat) (x j)).1 else acc

end Sys2Proof.Spec

namespace Sys2Proof.Machine

/-! ## Frames of vector instructions -/

/-- Only vector register `d` of the strand or gang, FFLAGS of the seat by `f`, and the pc have changed (R32, R134). -/
def VecOnly (d : BitVec 4) (f : BitVec 5) (s t : State) : Prop :=
  t = { s with self := { s.self with v := t.self.v, pc := s.self.pc + 4#64
                                     ctl := { s.self.ctl with fflags := s.self.ctl.fflags ||| f } }
               others := t.others } ∧
  (∀ r, r ≠ d → t.lanes r = s.lanes r) ∧
  t.others.map (fun u => { u with v := default }) = s.others.map (fun u => { u with v := default }) ∧
  (s.self.ctl.glead = false → t.others = s.others)

/-- Only mask register `d` of the strand or gang, FFLAGS of the seat by `f`, and the pc have changed. -/
def MaskOnly (d : BitVec 3) (f : BitVec 5) (s t : State) : Prop :=
  t = { s with self := { s.self with k := t.self.k, pc := s.self.pc + 4#64
                                     ctl := { s.self.ctl with fflags := s.self.ctl.fflags ||| f } }
               others := t.others } ∧
  (∀ r, r ≠ d → t.mask r = s.mask r) ∧
  t.others.map (fun u => { u with k := default }) = s.others.map (fun u => { u with k := default }) ∧
  (s.self.ctl.glead = false → t.others = s.others)

/-- A flag of the result is set exactly when some active lane raises it (R77). -/
def LaneFlags (s : State) (k : BitVec 3) (f : BitVec 5) (of : Nat → BitVec 5) : Prop :=
  ∀ j, f.getLsbD j = true ↔ ∃ i, i < s.laneCount ∧ (s.mask k).getLsbD i = true ∧ (of i).getLsbD j = true

/-- The instruction completes as a lane-wise form of R134: active lanes of v[d] take `f` with its flags, the others keep
their values, and all else is unchanged. -/
def Lanewise (i : Instr) (d : BitVec 4) (k : BitVec 3) (s : State) (f : Nat → Lane × BitVec 5) : Prop :=
  ∃ t fl, exec i s = .next t ∧ VecOnly d fl s t ∧ LaneFlags s k fl (fun j => (f j).2) ∧
    ∀ j, j < s.laneCount → lane (t.lanes d) j = if (s.mask k).getLsbD j then (f j).1 else lane (s.lanes d) j

/-- The instruction completes as a comparison of R135 or R136: bits of active lanes of k[d] take `f`, the others 0. -/
def LaneCompare (i : Instr) (d : BitVec 3) (k : BitVec 3) (s : State) (f : Nat → Bool × BitVec 5) : Prop :=
  ∃ t fl, exec i s = .next t ∧ MaskOnly d fl s t ∧ LaneFlags s k fl (fun j => (f j).2) ∧
    ∀ j, j < s.laneCount → (t.mask d).getLsbD j = ((s.mask k).getLsbD j && (f j).1)

/-! ## Events -/

/-- The event completes: its step answers a next state, and that state has the property. -/
def Does (i : Instr) (s : State) (P : State → Prop) : Prop := ∃ t, exec i s = .next t ∧ P t

/-- The act from outside the opcode table takes place when the agenda appoints it: its step answers a next state, and that state
has the property. -/
def Acted (o : Outside) (s : State) (P : State → Prop) : Prop :=
  ∀ rest, s.agenda = .outside o :: rest → ∃ t, step s = .next t ∧ t.agenda = rest ∧ P t

/-- The registers of a strand as they were: general, vector and mask. -/
def SameRegisters (t u : Strand) : Prop := u.g = t.g ∧ u.v = t.v ∧ u.k = t.k

/-- The strand has taken a trap at `tpc` with a cause and the first of its record (R35). -/
def TookTrap (t u : Strand) (tpc : Word) (cause : Nat) (info0 : Word) : Prop :=
  u.st = .active ∧ u.pc = t.ctl.tvec ∧ u.ctl.tpc = tpc ∧ bits u.ctl.tcause 7 0 = cause ∧ u.ctl.tinfo0 = info0 ∧
    u.ctl.pmode = t.ctl.sMode ∧ u.ctl.sMode = true ∧ u.ctl.itr = true ∧ SameRegisters t u

/-! ## Elements of the fabric -/

/-- What a step of an element does to the arcs: those that end at a consumed port lose their head, whose credit is on its
way back, a row-lane arc that several CEs share when all of them have consumed their slices (R196-R198); those that leave
from an output gain its token. -/
def Moved (r u : Region) (e : Elem) (take : List Nat) (put : List Emit) : Prop :=
  u.arcs = (take.foldl (fun r p => r.takeTok e p) r).arcs.map (fun a => { a with
    queue := a.queue ++ (put.filter (fun m => a.leaves e.plane e.row e.col m.mask)).map (fun m => m.tok) })

/-- The head at each input of the element is a token of its arc's class: ORD on arcs of class 1 and nothing else there
(R199, R201). -/
def Region.classed (r : Region) (e : Elem) : Prop :=
  ∀ p t a, r.headAt e p = some t → a ∈ r.arcs → a.ends e.plane e.row e.col p = true → a.edge.cls1 = (t.kind == 4)

/-- The element of a streamed region stands at its site with a frame, free to act, with nothing left to place, before heads
of the classes of their arcs. -/
def State.stands (s : State) (r : Region) (e : Elem) (f : BitVec 256) : Prop :=
  s.region? r.rid = some r ∧ r.elem? e.row e.col = some e ∧ r.frame? e = some f ∧ r.free e = true ∧ e.todo = [] ∧
    r.served = false ∧ r.classed e

/-- Moreover it has not ended its plane, and its outputs have room (R202): it may begin a firing. -/
def State.mayFire (s : State) (r : Region) (e : Elem) (f : BitVec 256) : Prop :=
  s.stands r e f ∧ e.atEnd = false ∧ r.roomFor e f = true

/-- The region and the element after a step: tokens consumed, tokens placed in order as far as there is room, the rest kept
to be placed, at least one placed where the outputs accept it; other elements and regions as before. -/
def ElementMoved (s t : State) (r : Region) (e e' : Elem) (take : List Nat) (put : List Emit) : Prop :=
  ∃ u n, t.region? r.rid = some u ∧ Moved r u e take (put.take n) ∧
    u.elem? e.row e.col = some { e' with todo := put.drop n } ∧
    (∀ m ∈ put.head?, (take.foldl (fun r p => r.takeTok e p) r).accepts e m.mask = true → 0 < n) ∧
    (∀ a b, (a ≠ e.row ∨ b ≠ e.col) → u.elem? a b = r.elem? a b) ∧
    (∀ q, q ≠ r.rid → t.region? q = s.region? q)

/-- The event is a step of the element that touches nothing but its region. -/
def Steps (i : Instr) (s : State) (r : Region) (e e' : Elem) (take : List Nat) (put : List Emit) : Prop :=
  Does i s (fun t => ElementMoved s t r e e' take put ∧
    t = { s with work := { s.work with regions := t.work.regions } })

/-- A token on the ports of a mask, where there are any. -/
def onPorts (mask : Nat) (t : Token) : List Emit := if mask = 0 then [] else [{ mask := mask, tok := t }]

end Sys2Proof.Machine
end

