-- ==== Sys2Proof/Certificates/Slice0/Obligations.lean ====
section
/-! DEFINITION. The statements about this model for the provers, in the order of OBLIGATIONS.json. -/
open Sys2Proof Sys2Proof.Machine

/-- Sums, differences, products, quotients, extremes and SHADD of opcode 0x01 complete with the exact integer result of
R124, clamped under .sat, and change nothing but g[d] and the pc. -/
def Obligations.IntegerArithmetic : Prop :=
  ∀ (s : State) (d a b : BitVec 6) (m : BitVec 2) (w : BitVec 1),
    let p := m.getLsbD 0
    let sat := m.getLsbD 1
    let q := w.getLsbD 0
    let x (n u : Bool) : Int := Spec.val n u (s.getG a)
    let y (n u : Bool) : Int := Spec.val n u (s.getG b)
    let top : Int := 2 ^ Spec.width q
    let least : Int := -(2 ^ (Spec.width q - 1))
    exec (.add d a b m) s = .next (s.wrote d (Spec.fit p sat false (x p false + y p false))) ∧
    exec (.addN d a b m) s = .next (s.wrote d (Spec.fit p sat true (x p true + y p true))) ∧
    exec (.sub d a b m) s = .next (s.wrote d (Spec.fit p sat false (x p false - y p false))) ∧
    exec (.subN d a b m) s = .next (s.wrote d (Spec.fit p sat true (x p true - y p true))) ∧
    exec (.mul d a b m) s = .next (s.wrote d (Spec.fit p sat false (x p false * y p false))) ∧
    exec (.mulN d a b m) s = .next (s.wrote d (Spec.fit p sat true (x p true * y p true))) ∧
    exec (.mulh d a b w) s = .next (s.wrote d (Spec.fit q false false (x q false * y q false / top))) ∧
    exec (.mulhN d a b w) s = .next (s.wrote d (Spec.fit q false true (x q true * y q true / top))) ∧
    exec (.div d a b w) s = .next (s.wrote d (Spec.fit q false false
      (if y q false = 0 then top - 1 else if x q false = least ∧ y q false = -1 then x q false
       else (x q false).tdiv (y q false)))) ∧
    exec (.divN d a b w) s = .next (s.wrote d (Spec.fit q false true
      (if y q true = 0 then top - 1 else x q true / y q true))) ∧
    exec (.rem d a b w) s = .next (s.wrote d (Spec.fit q false false
      (if y q false = 0 then x q false else if x q false = least ∧ y q false = -1 then 0
       else (x q false).tmod (y q false)))) ∧
    exec (.remN d a b w) s = .next (s.wrote d (Spec.fit q false true
      (if y q true = 0 then x q true else x q true % y q true))) ∧
    exec (.min d a b w) s = .next (s.wrote d (Spec.fit q false false
      (if x q false ≤ y q false then x q false else y q false))) ∧
    exec (.minN d a b w) s = .next (s.wrote d (Spec.fit q false true
      (if x q true ≤ y q true then x q true else y q true))) ∧
    exec (.max d a b w) s = .next (s.wrote d (Spec.fit q false false
      (if y q false ≤ x q false then x q false else y q false))) ∧
    exec (.maxN d a b w) s = .next (s.wrote d (Spec.fit q false true
      (if y q true ≤ x q true then x q true else y q true))) ∧
    exec (.shadd1 d a b w) s = .next (s.wrote d (Spec.fit q false false (x q false * 2 + y q false))) ∧
    exec (.shadd2 d a b w) s = .next (s.wrote d (Spec.fit q false false (x q false * 4 + y q false))) ∧
    exec (.shadd3 d a b w) s = .next (s.wrote d (Spec.fit q false false (x q false * 8 + y q false))) ∧
    exec (.shadd4 d a b w) s = .next (s.wrote d (Spec.fit q false false (x q false * 16 + y q false)))

/-- Logic, SEL, shifts and rotates of opcode 0x01 complete with the result of R124; a register count is taken from the low
6 bits of g[b], or the low 5 in a .w form. Nothing but g[d] and the pc changes. CLZ, CTZ, POPC, BREV, BSWP and
CMP.cond complete with the result of R124 on W bits; the results of BREV.w and BSWP.w are sign-extended. Nothing but
g[d] and the pc changes. -/
def Obligations.IntegerLogicShiftsAndCounts : Prop :=
  (∀ (s : State) (d a b n : BitVec 6) (m : BitVec 2) (w : BitVec 1),
    let x := s.getG a
    let y := s.getG b
    let q := w.getLsbD 0
    let cnt (w32 : Bool) : Nat := if w32 then y.toNat % 32 else y.toNat % 64
    let shr (k : Nat) : Word := Spec.fit q false false (Spec.val q true x / 2 ^ k)
    let sha (k : Nat) : Word := Spec.fit q false false (Spec.val q false x / 2 ^ k)
    let ror (k : Nat) : Word :=
      if q then ((x.setWidth 32 : BitVec 32).rotateRight k).signExtend 64 else x.rotateRight k
    exec (.and d a b) s = .next (s.wrote d (x &&& y)) ∧
    exec (.or d a b) s = .next (s.wrote d (x ||| y)) ∧
    exec (.xor d a b) s = .next (s.wrote d (x ^^^ y)) ∧
    exec (.andn d a b) s = .next (s.wrote d (x &&& ~~~y)) ∧
    exec (.sel d a b) s = .next (s.wrote d (if s.getG d = 0#64 then y else x)) ∧
    exec (.shl d a b m) s = .next (s.wrote d (Spec.fit (m.getLsbD 0) (m.getLsbD 1) false
      (Spec.val (m.getLsbD 0) false x * 2 ^ cnt (m.getLsbD 0)))) ∧
    exec (.shr d a b w) s = .next (s.wrote d (shr (cnt q))) ∧
    exec (.sha d a b w) s = .next (s.wrote d (sha (cnt q))) ∧
    exec (.ror d a b w) s = .next (s.wrote d (ror (cnt q))) ∧
    exec (.shlImm d a n m) s = .next (s.wrote d (Spec.fit (m.getLsbD 0) (m.getLsbD 1) false
      (Spec.val (m.getLsbD 0) false x * 2 ^ n.toNat))) ∧
    exec (.shrImm d a n w) s = .next (s.wrote d (shr n.toNat)) ∧
    exec (.shaImm d a n w) s = .next (s.wrote d (sha n.toNat)) ∧
    ((q = true → n.toNat < 32) → exec (.rorImm d a n w) s = .next (s.wrote d (ror n.toNat)))) ∧
  (∀ (s : State) (d a b : BitVec 6) (w : BitVec 1),
    let q := w.getLsbD 0
    let W := Spec.width q
    let x := s.getG a
    (∃ n, exec (.clz d a w) s = .next (s.wrote d (w64 n)) ∧ n ≤ W ∧
      (∀ i, W - n ≤ i → i < W → x.getLsbD i = false) ∧ (n < W → x.getLsbD (W - 1 - n) = true)) ∧
    (∃ n, exec (.ctz d a w) s = .next (s.wrote d (w64 n)) ∧ n ≤ W ∧
      (∀ i, i < n → x.getLsbD i = false) ∧ (n < W → x.getLsbD n = true)) ∧
    exec (.popc d a w) s = .next (s.wrote d (w64 ((List.range W).filter (fun i => x.getLsbD i)).length)) ∧
    (∃ r, exec (.brev d a w) s = .next (s.wrote d r) ∧ (∀ i, i < W → r.getLsbD i = x.getLsbD (W - 1 - i)) ∧
      (q = true → r = (r.setWidth 32).signExtend 64)) ∧
    (∃ r, exec (.bswp d a w) s = .next (s.wrote d r) ∧
      (∀ i, i < W / 8 → r.extractLsb' (8 * i) 8 = x.extractLsb' (W - 8 - 8 * i) 8) ∧
      (q = true → r = (r.setWidth 32).signExtend 64)) ∧
    (let sx := Spec.val q false x
     let sy := Spec.val q false (s.getG b)
     let ux := Spec.val q true x
     let uy := Spec.val q true (s.getG b)
     exec (.cmpEq d a b w) s = .next (s.wrote d (if ux = uy then 1#64 else 0#64)) ∧
     exec (.cmpNe d a b w) s = .next (s.wrote d (if ux = uy then 0#64 else 1#64)) ∧
     exec (.cmpLt d a b w) s = .next (s.wrote d (if sx < sy then 1#64 else 0#64)) ∧
     exec (.cmpGe d a b w) s = .next (s.wrote d (if sx < sy then 0#64 else 1#64)) ∧
     exec (.cmpLtn d a b w) s = .next (s.wrote d (if ux < uy then 1#64 else 0#64)) ∧
     exec (.cmpGen d a b w) s = .next (s.wrote d (if ux < uy then 0#64 else 1#64))))

/-- The immediate forms of opcodes 0x02 to 0x07 (R125): ADD and MUL keep the low 64 bits, ADD.w sign-extends a 32-bit sum,
AND, OR and XOR act on all 64 bits with the sign-extended immediate. -/
def Obligations.ImmediateForms : Prop :=
  ∀ (s : State) (d a : BitVec 6) (j : BitVec 14),
    let x := s.getG a
    let i := j.signExtend 64
    exec (.addImm d a j) s = .next (s.wrote d (BitVec.ofInt 64 (x.toInt + j.toInt))) ∧
    exec (.mulImm d a j) s = .next (s.wrote d (BitVec.ofInt 64 (x.toInt * j.toInt))) ∧
    exec (.addWImm d a j) s = .next (s.wrote d
      ((x.setWidth 32 + i.setWidth 32 : BitVec 32).signExtend 64)) ∧
    exec (.andImm d a j) s = .next (s.wrote d (x &&& i)) ∧
    exec (.orImm d a j) s = .next (s.wrote d (x ||| i)) ∧
    exec (.xorImm d a j) s = .next (s.wrote d (x ^^^ i))

/-- BFX, BFX.n and BFI with position p and length l (R126): the field of g[a] sign- or zero-extended, or written into g[d]
with every other bit of g[d] kept. HMIX (R127), and the constants MOVI, MOVHI, ADDPC, LIMM and LIMM.n (R101, R128): an
L pair is eight bytes long. -/
def Obligations.BitFieldsMixAndConstants : Prop :=
  (∀ (s : State) (d a l p : BitVec 6), p.toNat + l.toNat + 1 ≤ 64 →
    let n := l.toNat + 1
    let f := (s.getG a).extractLsb' p.toNat n
    exec (.bfx d a l p) s = .next (s.wrote d (f.signExtend 64)) ∧
    exec (.bfxN d a l p) s = .next (s.wrote d (f.zeroExtend 64)) ∧
    (∃ r, exec (.bfi d a l p) s = .next (s.wrote d r) ∧
      ∀ i, i < 64 → r.getLsbD i =
        if p.toNat ≤ i ∧ i < p.toNat + n then (s.getG a).getLsbD (i - p.toNat) else (s.getG d).getLsbD i)) ∧
  (∀ (s : State) (d a b n : BitVec 6) (j : BitVec 20) (c : BitVec 32),
    let x := s.getG a
    exec (.hmix d a b n) s = .next (s.wrote d
      (BitVec.ofNat 64 ((x.toNat ^^^ x.toNat / 2 ^ n.toNat) * (s.getG b).toNat))) ∧
    exec (.movi d j) s = .next (s.wrote d (BitVec.ofInt 64 j.toInt)) ∧
    (∃ r, exec (.movhi d j) s = .next (s.wrote d r) ∧ r.setWidth 32 = (s.getG d).setWidth 32 ∧
      r.extractLsb' 32 32 = BitVec.ofInt 32 j.toInt) ∧
    exec (.addpc d j) s = .next (s.wrote d (s.self.pc + BitVec.ofInt 64 j.toInt)) ∧
    exec (.limm d c) s = .next ((s.wrote d (BitVec.ofInt 64 c.toInt)).wentTo (s.self.pc + 8#64)) ∧
    exec (.limmN d c) s = .next ((s.wrote d (BitVec.ofNat 64 c.toNat)).wentTo (s.self.pc + 8#64)))

/-- The control transfers of R129: A is the pc of the instruction, offsets count words, CALLR with a = 63 jumps to the old
g63, and a JR or CALLR target with bit 1 or bit 0 set raises ALIGN with the pc as TPC and g63 unchanged. -/
def Obligations.ControlTransfers : Prop :=
  ∀ (s : State) (c : BitVec 3) (a b : BitVec 6) (o : BitVec 11) (j : BitVec 26),
    let A := s.self.pc
    let t := s.getG a
    let linked := (s.wrote 63#6 (A + 4#64))
    (c.toNat < 6 → (Spec.holds c t (s.getG b) →
        exec (.bCond c a b o) s = .next (s.wentTo (A + BitVec.ofInt 64 (o.toInt * 4)))) ∧
      (¬ Spec.holds c t (s.getG b) → exec (.bCond c a b o) s = .next (s.wentTo (A + 4#64)))) ∧
    exec (.jmp j) s = .next (s.wentTo (A + BitVec.ofInt 64 (j.toInt * 4))) ∧
    exec (.call j) s = .next (linked.wentTo (A + BitVec.ofInt 64 (j.toInt * 4))) ∧
    (t.toNat % 4 = 0 → exec (.jr a) s = .next (s.wentTo t) ∧ exec (.callr a) s = .next (linked.wentTo t)) ∧
    (t.toNat % 4 ≠ 0 → s.canTrap →
      exec (.jr a) s = .next (s.trapped A { cause := 3, info0 := t }) ∧
      exec (.callr a) s = .next (s.trapped A { cause := 3, info0 := t }))

/-- FADD, FSUB, FMUL, FDIV, FSQRT and the FMA forms complete (R130): the exact result of the operands' values rounded once
by the mode of the rounding field, or of FRM under code 7; FMIN, FMAX and FCVT complete with the results of R88 and
R133. The destination and FFLAGS change, nothing else. -/
def Obligations.ScalarFloatCompletes : Prop :=
  ∀ (s : State) (d a b : BitVec 6) (r : BitVec 3) (p : BitVec 1) (src dst : BitVec 4) (u : BitVec 1), roundOk r = true →
    let F := precFmt p
    let mode := if r = 7#3 then s.self.ctl.frm.toNat else r.toNat
    let v (g : BitVec 6) := F.unpack (Spec.fpat p (s.getG g))
    let wrote (x : FRes) : Out := .next (s.wroteF d (w64 x.1) x.2)
    exec (.fadd d a b r p) s = wrote (F.add mode (v a) (v b)) ∧
    exec (.fsub d a b r p) s = wrote (F.add mode (v a) (v b).negate) ∧
    exec (.fmul d a b r p) s = wrote (F.mul mode (v a) (v b)) ∧
    exec (.fdiv d a b r p) s = wrote (F.div mode (v a) (v b)) ∧
    exec (.fsqrt d a r p) s = wrote (F.sqrt mode (v a)) ∧
    exec (.fmaFma d a b r p) s = wrote (F.fma mode (v a) (v b) (v d)) ∧
    exec (.fmaFms d a b r p) s = wrote (F.fma mode (v a) (v b) (v d).negate) ∧
    exec (.fmaFnma d a b r p) s = wrote (F.fma mode (v a).negate (v b) (v d)) ∧
    exec (.fmin d a b p) s = wrote (F.minMax false (Spec.fpat p (s.getG a)) (Spec.fpat p (s.getG b))) ∧
    exec (.fmax d a b p) s = wrote (F.minMax true (Spec.fpat p (s.getG a)) (Spec.fpat p (s.getG b))) ∧
    (let c := fcvtVal mode (u == 1#1) src.toNat dst.toNat (s.getG a).toNat
     exec (.fcvt d a src r u dst) s = .next (s.wroteF d c.1 c.2))

/-- NaNs of scalar arithmetic (R72): a result that is a NaN is the canonical NaN of its format, and is zero above its
field; a NaN operand makes the result a NaN; a signalling NaN operand sets NV. An exact sum, difference or product
that the format holds is the result in every rounding mode, and no flag is set (R75): the operands and the value named
by pattern `z` are finite, and that value is not zero. -/
def Obligations.FloatResults : Prop :=
  (∀ (s : State) (d a b : BitVec 6) (r : BitVec 3) (p : BitVec 1) (i : Instr), roundOk r = true →
    (i = .fadd d a b r p ∨ i = .fsub d a b r p ∨ i = .fmul d a b r p ∨ i = .fdiv d a b r p) →
    ∃ x f, exec i s = .next (s.wroteF d x f) ∧ x.toNat < 2 ^ Spec.fbits p ∧
      (Spec.fnan p x = true → x = Spec.canonicalNan p) ∧
      (Spec.fnan p (s.getG a) = true ∨ Spec.fnan p (s.getG b) = true → x = Spec.canonicalNan p ∧
        f = if Spec.fsnan p (s.getG a) || Spec.fsnan p (s.getG b) then Spec.nv else 0#5)) ∧
  (∀ (s : State) (d a b : BitVec 6) (r : BitVec 3) (p : BitVec 1) (z : Word), roundOk r = true →
    z.toNat < 2 ^ Spec.fbits p → Spec.ffinite p (s.getG a) → Spec.ffinite p (s.getG b) → Spec.ffinite p z →
    Spec.fvalue p z ≠ 0 →
    let x := Spec.fvalue p (s.getG a)
    let y := Spec.fvalue p (s.getG b)
    (Spec.fvalue p z = x + y → exec (.fadd d a b r p) s = .next (s.wroteF d z 0#5)) ∧
    (Spec.fvalue p z = x - y → exec (.fsub d a b r p) s = .next (s.wroteF d z 0#5)) ∧
    (Spec.fvalue p z = x * y → exec (.fmul d a b r p) s = .next (s.wroteF d z 0#5)))

/-- FMIN and FMAX by the order of R88 on patterns, and FCMP by R131 with its NV: conditions 0 to 5 are EQ, NE, LT, GE, LE
and UN. -/
def Obligations.FloatOrder : Prop :=
  ∀ (s : State) (d a b : BitVec 6) (p : BitVec 1) (c : BitVec 3),
    let x := s.getG a
    let y := s.getG b
    let un := Spec.fnan p x || Spec.fnan p y
    let quiet : BitVec 5 := if Spec.fsnan p x || Spec.fsnan p y then Spec.nv else 0#5
    let loud : BitVec 5 := if un then Spec.nv else 0#5
    let low (z : Word) : Word := w64 (Spec.fpat p z)
    let pick (less : Prop) [Decidable less] : Word :=
      if Spec.fnan p x && Spec.fnan p y then Spec.canonicalNan p else if Spec.fnan p x then low y
      else if Spec.fnan p y then low x else if less then low x else low y
    exec (.fmin d a b p) s = .next (s.wroteF d (pick (Spec.fkeyZ p x < Spec.fkeyZ p y)) quiet) ∧
    exec (.fmax d a b p) s = .next (s.wroteF d (pick (Spec.fkeyZ p y < Spec.fkeyZ p x)) quiet) ∧
    (let answer (h : Bool) (f : BitVec 5) : Prop :=
       exec (.fcmp d a b c p) s = .next (s.wroteF d (if h then 1#64 else 0#64) f)
     (c = 0#3 → answer (!un && decide (Spec.fkey p x = Spec.fkey p y)) quiet) ∧
     (c = 1#3 → answer (un || decide (Spec.fkey p x ≠ Spec.fkey p y)) quiet) ∧
     (c = 2#3 → answer (!un && decide (Spec.fkey p x < Spec.fkey p y)) loud) ∧
     (c = 3#3 → answer (!un && decide (Spec.fkey p y ≤ Spec.fkey p x)) loud) ∧
     (c = 4#3 → answer (!un && decide (Spec.fkey p x ≤ Spec.fkey p y)) loud) ∧
     (c = 5#3 → answer un quiet))

/-- FCLS sets exactly the bit of its operand's class, and FMV copies, flips, clears or takes the sign bit (R132); none of
them sets a flag, and the rest of g[d] is zero. The words of FMIN, FMAX and FCLS have fn<7..5> = 0. -/
def Obligations.ClassAndSign : Prop :=
  ∀ (s : State) (d a b : BitVec 6) (p : BitVec 1),
    let x := s.getG a
    let sign := 2 ^ (Spec.fbits p - 1)
    let signed (n : Bool) : Word := w64 (Spec.fmag p x + if n then sign else 0)
    exec (.fcls d a p) s = .next (s.wrote d (w64 (2 ^ Spec.fclass p x))) ∧
    exec (.fmvCp d a p) s = .next (s.wrote d (w64 (Spec.fpat p x))) ∧
    exec (.fmvNeg d a p) s = .next (s.wrote d (signed !(Spec.fsign p x))) ∧
    exec (.fmvAbs d a p) s = .next (s.wrote d (signed false)) ∧
    exec (.fmvSgn d a b p) s = .next (s.wrote d (signed (Spec.fsign p (s.getG b)))) ∧
    (∀ (v v2 : BitVec 32) (i : Instr), decode v v2 = .ok i → i = .fcls d a p ∨ i = .fmin d a b p ∨ i = .fmax d a b p →
      v.extractLsb' 5 3 = 0#3)

/-- Conversions of FCVT by R86 and R87: an integer into an integer wraps, or clamps under .sat, and sets no flag; a NaN
into an integer is 0 with NV, an infinity the bound of its side with NV. Integer formats 0 to 3 are signed of 8 to 64
bits, 4 to 7 unsigned; floats 8 and 9 are F64 and F32. -/
def Obligations.Conversions : Prop :=
  ∀ (s : State) (d a : BitVec 6) (r : BitVec 3) (src dst : BitVec 4) (u : BitVec 1), roundOk r = true →
    dst.toNat < 8 →
    let w (c : Nat) : Nat := 8 * 2 ^ (c % 4)
    let n := w dst.toNat
    let lo : Int := if dst.toNat < 4 then -(2 ^ (n - 1)) else 0
    let hi : Int := if dst.toNat < 4 then 2 ^ (n - 1) - 1 else 2 ^ n - 1
    let out (v : Int) : Word :=
      if dst.toNat < 4 then (BitVec.ofInt n v).signExtend 64 else (BitVec.ofInt n v).zeroExtend 64
    (src.toNat < 8 →
      let y := (s.getG a).setWidth (w src.toNat)
      let v : Int := if src.toNat < 4 then y.toInt else y.toNat
      exec (.fcvt d a src r u dst) s = .next (s.wroteF d
        (out (if u = 1#1 then (if v < lo then lo else if hi < v then hi else v) else v)) 0#5)) ∧
    (∀ p : BitVec 1, src = (if p = 0#1 then 9#4 else 8#4) →
      let x := s.getG a
      (Spec.fnan p x = true → exec (.fcvt d a src r u dst) s = .next (s.wroteF d 0#64 Spec.nv)) ∧
      (Spec.fmag p x = Spec.finf p → exec (.fcvt d a src r u dst) s =
        .next (s.wroteF d (out (if Spec.fsign p x then lo else hi)) Spec.nv)))

/-- The integer lane forms of opcode 0x15 (R134, R135): active lanes of v[d] take the result, the others keep their
values, in a strand and in a gang of 32 lanes; VSEL writes every lane; VCMP writes k[d], with 0 for lanes masked off.
No flag is set and nothing else changes. -/
def Obligations.VectorIntegerLanes : Prop :=
  ∀ (s : State) (d a b : BitVec 4) (k e c : BitVec 3), s.gangOk →
    let x (j : Nat) : Lane := lane (s.lanes a) j
    let y (j : Nat) : Lane := lane (s.lanes b) j
    let is (i : Instr) (f : Lane → Lane → Lane) : Prop := Lanewise i d k s (fun j => (f (x j) (y j), 0#5))
    let sat (v : Int) : Lane := BitVec.ofInt 32 (if v < -2147483648 then -2147483648 else if 2147483647 < v then 2147483647 else v)
    let satN (v : Int) : Lane := BitVec.ofInt 32 (if v < 0 then 0 else if 4294967295 < v then 4294967295 else v)
    is (.vadd d a b k) (fun x y => x + y) ∧ is (.vsub d a b k) (fun x y => x - y) ∧ is (.vmul d a b k) (fun x y => x * y) ∧
    is (.vmin d a b k) (fun x y => if x.toInt ≤ y.toInt then x else y) ∧
    is (.vminN d a b k) (fun x y => if x.toNat ≤ y.toNat then x else y) ∧
    is (.vmax d a b k) (fun x y => if x.toInt ≤ y.toInt then y else x) ∧
    is (.vmaxN d a b k) (fun x y => if x.toNat ≤ y.toNat then y else x) ∧
    is (.vlogAnd d a b k) (fun x y => x &&& y) ∧ is (.vlogOr d a b k) (fun x y => x ||| y) ∧
    is (.vlogXor d a b k) (fun x y => x ^^^ y) ∧
    is (.vshShl d a b k) (fun x y => x <<< (y.toNat % 32)) ∧
    is (.vshShr d a b k) (fun x y => x >>> (y.toNat % 32)) ∧
    is (.vshSha d a b k) (fun x y => BitVec.ofInt 32 (x.toInt / 2 ^ (y.toNat % 32))) ∧
    is (.vaddSat d a b k) (fun x y => sat (x.toInt + y.toInt)) ∧
    is (.vaddNSat d a b k) (fun x y => satN (x.toNat + y.toNat)) ∧
    is (.vsubSat d a b k) (fun x y => sat (x.toInt - y.toInt)) ∧
    is (.vsubNSat d a b k) (fun x y => satN (x.toNat - y.toNat : Int)) ∧
    (∃ t, exec (.vsel d a b k) s = .next t ∧ VecOnly d 0#5 s t ∧
      ∀ j, j < s.laneCount → lane (t.lanes d) j = if (s.mask k).getLsbD j then x j else y j) ∧
    (e ≠ 0#3 →
      (c = 0#3 → LaneCompare (.vcmp e a b k c) e k s (fun j => (x j == y j, 0#5))) ∧
      (c = 1#3 → LaneCompare (.vcmp e a b k c) e k s (fun j => (x j != y j, 0#5))) ∧
      (c = 2#3 → LaneCompare (.vcmp e a b k c) e k s (fun j => (decide ((x j).toInt < (y j).toInt), 0#5))) ∧
      (c = 3#3 → LaneCompare (.vcmp e a b k c) e k s (fun j => (decide ((y j).toInt ≤ (x j).toInt), 0#5))) ∧
      (c = 4#3 → LaneCompare (.vcmp e a b k c) e k s (fun j => (decide ((x j).toNat < (y j).toNat), 0#5))) ∧
      (c = 5#3 → LaneCompare (.vcmp e a b k c) e k s (fun j => (decide ((y j).toNat ≤ (x j).toNat), 0#5))))

/-- The F32 lane forms of opcode 0x16 (R136): each active lane rounds once by FRM, its flags join FFLAGS, and lanes masked
off raise none; VCMP.S writes k[d] with 0 for lanes masked off. -/
def Obligations.VectorFloatLanes : Prop :=
  ∀ (s : State) (d a b : BitVec 4) (k e c : BitVec 3), s.gangOk →
    let m := s.self.ctl.frm.toNat
    let x (j : Nat) : Nat := (lane (s.lanes a) j).toNat
    let y (j : Nat) : Nat := (lane (s.lanes b) j).toNat
    let z (j : Nat) : Nat := (lane (s.lanes d) j).toNat
    let v (n : Nat) : FVal := f32.unpack n
    let is (i : Instr) (f : Nat → FRes) : Prop := Lanewise i d k s (fun j => (BitVec.ofNat 32 (f j).1, (f j).2))
    is (.vaddS d a b k) (fun j => f32.add m (v (x j)) (v (y j))) ∧
    is (.vsubS d a b k) (fun j => f32.add m (v (x j)) (v (y j)).negate) ∧
    is (.vmulS d a b k) (fun j => f32.mul m (v (x j)) (v (y j))) ∧
    is (.vfmaS d a b k) (fun j => f32.fma m (v (x j)) (v (y j)) (v (z j))) ∧
    is (.vminS d a b k) (fun j => f32.minMax false (x j) (y j)) ∧
    is (.vmaxS d a b k) (fun j => f32.minMax true (x j) (y j)) ∧
    is (.vsfuRcp d a k) (fun j => f32.sfu 0 m (x j)) ∧ is (.vsfuRsq d a k) (fun j => f32.sfu 1 m (x j)) ∧
    is (.vsfuEx2 d a k) (fun j => f32.sfu 2 m (x j)) ∧ is (.vsfuLg2 d a k) (fun j => f32.sfu 3 m (x j)) ∧
    is (.vsfuTnh d a k) (fun j => f32.sfu 4 m (x j)) ∧
    (e ≠ 0#3 → LaneCompare (.vcmpS e a b k c) e k s (fun j => fcmpVal c.toNat (v (x j)) (v (y j))))

/-- The reductions, the dot products and the scans of R137 complete, on 16 lanes or on the 32 of a gang. VRED.sum and VDOT
give the exact signed sum over the active lanes as a 64-bit value; VRED.max and VRED.min the extreme that an active
lane attains, or the bound of their side when no lane is active; VSCAN gives active lanes the sum of the active lanes
at or below them. VRED.sum.s, VRED.max.s, VRED.min.s and VDOT.s give the root of the tree of R90 and R91 over the
lanes in lane order, each node rounded by FRM or taken by R88, with the identity in lanes masked off and the exact
products as the leaves of VDOT.s; with no active lane a sum is -0, a maximum -infinity and a minimum +infinity.
VSCAN.s gives active lanes the running sum from -0. Flags of the nodes and of the active lanes join FFLAGS; nothing
else changes. -/
def Obligations.Reductions : Prop :=
  (∀ (s : State) (d : BitVec 6) (e a b : BitVec 4) (k : BitVec 3), s.gangOk →
    let on (j : Nat) : Prop := j < s.laneCount ∧ (s.mask k).getLsbD j = true
    let x (j : Nat) : Int := (lane (s.lanes a) j).toInt
    let y (j : Nat) : Int := (lane (s.lanes b) j).toInt
    let total (n : Nat) (f : Nat → Int) : Int :=
      ((List.range n).map (fun j => if (s.mask k).getLsbD j then f j else 0)).sum
    exec (.vredSum d a k) s = .next (s.wrote d (BitVec.ofInt 64 (total s.laneCount x))) ∧
    exec (.vdot d a b k) s = .next (s.wrote d (BitVec.ofInt 64 (total s.laneCount (fun j => x j * y j)))) ∧
    (∃ m : Int, exec (.vredMax d a k) s = .next (s.wrote d (BitVec.ofInt 64 m)) ∧ (∀ j, on j → x j ≤ m) ∧
      ((∃ j, on j ∧ x j = m) ∨ ((∀ j, ¬ on j) ∧ m = -2147483648))) ∧
    (∃ m : Int, exec (.vredMin d a k) s = .next (s.wrote d (BitVec.ofInt 64 m)) ∧ (∀ j, on j → m ≤ x j) ∧
      ((∃ j, on j ∧ x j = m) ∨ ((∀ j, ¬ on j) ∧ m = 2147483647))) ∧
    Lanewise (.vscan e a k) e k s (fun j => (BitVec.ofInt 32 (total (j + 1) x), 0#5))) ∧
  (∀ (s : State) (d : BitVec 6) (e a b : BitVec 4) (k : BitVec 3), s.gangOk →
    let m := s.self.ctl.frm.toNat
    let on (j : Nat) : Bool := (s.mask k).getLsbD j
    let x (j : Nat) : FVal := f32.unpack (lane (s.lanes a) j).toNat
    let y (j : Nat) : FVal := f32.unpack (lane (s.lanes b) j).toNat
    let levels : Nat := if s.self.ctl.glead then 5 else 4
    let masked (identity : FVal) (f : Nat → FVal) (j : Nat) : FVal := if on j then f j else identity
    let product (j : Nat) : FVal × BitVec 5 := leafProduct (x j) (y j)
    let productFlags : BitVec 5 := (List.range s.laneCount).foldl (fun f j => if on j then f ||| (product j).2 else f) 0#5
    let result (i : Instr) (t : FVal × BitVec 5) (f : BitVec 5) : Prop :=
      exec i s = .next (s.wroteF d (w64 (f32.ofVal 0 t.1).1) (t.2 ||| f)) ∧ (f32.ofVal 0 t.1).1 < 2 ^ 32
    let empty : Prop := ∀ j, j < s.laneCount → on j = false
    result (.vredSumS d a k) (Spec.tree (f32.add m) (masked (.fin true 0 0) x) levels 0) 0#5 ∧
    result (.vredMaxS d a k) (Spec.tree (nodeMinMax true) (masked (.inf true) x) levels 0) 0#5 ∧
    result (.vredMinS d a k) (Spec.tree (nodeMinMax false) (masked (.inf false) x) levels 0) 0#5 ∧
    result (.vdotS d a b k) (Spec.tree (f32.add m) (masked (.fin true 0 0) (fun j => (product j).1)) levels 0) productFlags ∧
    (empty → exec (.vredSumS d a k) s = .next (s.wroteF d 0x80000000#64 0#5) ∧
      exec (.vredMaxS d a k) s = .next (s.wroteF d 0xFF800000#64 0#5) ∧
      exec (.vredMinS d a k) s = .next (s.wroteF d 0x7F800000#64 0#5) ∧
      exec (.vdotS d a b k) s = .next (s.wroteF d 0x80000000#64 0#5)) ∧
    Lanewise (.vscanS e a k) e k s (fun j =>
      (Spec.runningSum m on x (j + 1), (f32.add m (f32.unpack (Spec.runningSum m on x j).toNat) (x j)).2)))

/-- Lane movement and conversion (R138, R139): VPERM, VSPLAT, VGET, VINS, VCMPR, VEXPD and VCVT complete with the lanes
that the table gives; an index is taken modulo the number of lanes. VCMPR followed by VEXPD with the same mask
restores the active lanes to their places (R138). The mask forms (R142): KOP on masks of 16 bits, or 32 in a gang,
KOP.set from g[a], KOP.get and KCNT into g[d]. -/
def Obligations.LaneMovementAndMasks : Prop :=
  (∀ (s : State) (d : BitVec 6) (e a b : BitVec 4) (k src dst : BitVec 3) (g h : BitVec 6) (u : BitVec 1) (r : BitVec 3),
    s.gangOk →
    let L := s.laneCount
    let x (j : Nat) : Lane := lane (s.lanes a) j
    let at' := (s.getG h).toNat % L
    Lanewise (.vperm e a b k) e k s (fun j => (x ((lane (s.lanes b) j).toNat % L), 0#5)) ∧
    Lanewise (.vsplat e g k) e k s (fun _ => ((s.getG g).setWidth 32, 0#5)) ∧
    exec (.vget d a h) s = .next (s.wrote d ((x at').zeroExtend 64)) ∧
    (∃ t, exec (.vins e g h) s = .next t ∧ VecOnly e 0#5 s t ∧
      ∀ j, j < L → lane (t.lanes e) j = if j = at' then (s.getG g).setWidth 32 else lane (s.lanes e) j) ∧
    (∃ t, exec (.vcmpr e a k) s = .next t ∧ VecOnly e 0#5 s t ∧
      (let on := (List.range L).filter (fun j => (s.mask k).getLsbD j)
       ∀ j, j < L → lane (t.lanes e) j = if h : j < on.length then x on[j] else 0#32)) ∧
    Lanewise (.vexpd e a k) e k s (fun j =>
      (x ((List.range j).filter (fun i => (s.mask k).getLsbD i)).length, 0#5)) ∧
    Lanewise (.vcvt e a src dst k u r) e k s (fun j =>
      let y := fcvtVal (if r = 7#3 then s.self.ctl.frm.toNat else r.toNat) (u == 1#1) (laneCode src) (laneCode dst) (x j).toNat
      (y.1.setWidth 32, y.2))) ∧
  (∀ (s : State) (e a : BitVec 4) (k : BitVec 3), s.gangOk →
    ∃ t t', exec (.vcmpr e a k) s = .next t ∧ exec (.vexpd e e k) t = .next t' ∧
      ∀ j, j < s.laneCount → (s.mask k).getLsbD j = true → lane (t'.lanes e) j = lane (s.lanes a) j) ∧
  (∀ (s : State) (d : BitVec 6) (e a b : BitVec 3) (g : BitVec 6), s.gangOk → e ≠ 0#3 →
    let is (i : Instr) (f : Nat → Bool) : Prop := ∃ t, exec i s = .next t ∧ MaskOnly e 0#5 s t ∧
      ∀ j, j < s.laneCount → (t.mask e).getLsbD j = f j
    let x (j : Nat) : Bool := (s.mask a).getLsbD j
    let y (j : Nat) : Bool := (s.mask b).getLsbD j
    is (.kopAnd e a b) (fun j => x j && y j) ∧ is (.kopOr e a b) (fun j => x j || y j) ∧
    is (.kopXor e a b) (fun j => x j != y j) ∧ is (.kopAndn e a b) (fun j => x j && !(y j)) ∧
    is (.kopSet e g) (fun j => (s.getG g).getLsbD j) ∧
    exec (.kopGet d a) s = .next (s.wrote d ((s.mask a).zeroExtend 64)) ∧
    exec (.kcnt d a) s = .next (s.wrote d (w64 ((List.range s.laneCount).filter (fun j => x j)).length)))

/-- K8 on lanes and the core's table (R78, R80, R140, R141): VDEC gives the canonical W19 NaN above TOP and the table's
entry otherwise; VENC writes its byte and keeps the other three; TBLW replaces one entry or the whole table and TBLR
reads an entry as stored; a whole-table load by selector 3 raises ILL, whose TINFO0, the value of g[b], is the model's
choice (log entry 17). -/
def Obligations.TableCodes : Prop :=
  ∀ (s : State) (d g h : BitVec 6) (e a : BitVec 4) (j : BitVec 2) (k : BitVec 3), s.gangOk →
    let core := s.core s.self.id.die s.self.id.cluster s.self.id.core
    let top := s.self.ctl.tblnan.toNat / 256
    let ncode := s.self.ctl.tblnan.toNat % 256
    let code (i : Nat) : Nat := (lane (s.lanes a) i).toNat / 2 ^ (8 * j.toNat) % 256
    let x := s.getG g
    let y := s.getG h
    Lanewise (.vdec e a j k) e k s (fun i =>
      (if top < code i % 128 then 0x7FC00000#32 else tableAt core.table (code i), 0#5)) ∧
    (∃ t f, exec (.venc e a j k) s = .next t ∧ VecOnly e f s t ∧
      ∀ i, i < s.laneCount → ∀ n, n < 4 → (lane (t.lanes e) i).extractLsb' (8 * n) 8 =
        if (s.mask k).getLsbD i ∧ n = j.toNat
        then BitVec.ofNat 8 (k8Encode core.table top ncode f32 (lane (s.lanes a) i).toNat).1
        else (lane (s.lanes e) i).extractLsb' (8 * n) 8) ∧
    exec (.tblr d g) s = .next (s.wrote d ((tableAt core.table (x.toNat % 256)).zeroExtend 64)) ∧
    (x.getLsbD 8 = false → ∃ t, exec (.tblw g h) s = .next t ∧ t.self = (s.wentTo (s.self.pc + 4#64)).self ∧
      (let core' := t.core s.self.id.die s.self.id.cluster s.self.id.core
       ∀ i, i < 256 → tableAt core'.table i =
         if i = x.toNat % 256 then BitVec.ofNat 32 (y.toNat / 2 ^ 13 % 2 ^ 19 * 2 ^ 13) else tableAt core.table i)) ∧
    (x.getLsbD 8 = true → y.toNat % 4 < 3 → ∃ t, exec (.tblw g h) s = .next t ∧
      t.self = (s.wentTo (s.self.pc + 4#64)).self ∧
      (let core' := t.core s.self.id.die s.self.id.cluster s.self.id.core
       ∀ i, i < 256 → tableAt core'.table i = predefined (y.toNat % 4) i)) ∧
    (x.getLsbD 8 = true → y.toNat % 4 = 3 → s.canTrap → exec (.tblw g h) s =
      .next (s.trapped s.self.pc { cause := 1, arg := 1, info0 := y, info1 := w64 (insWord (.tblw g h)).toNat }))

/-- For a monotone-signed table the code that encode gives lies nearest to a finite operand among the codes up to TOP,
whatever the table (R80): `value` gives each entry's value. -/
def Obligations.EncodeIsNearest : Prop :=
  ∀ (tab : Option Table) (top ncode x : Nat) (value : Nat → ℚ), top ≤ 127 → x < 2 ^ 32 →
    Spec.ffinite 0#1 (w64 x) →
    (∀ i, i ≤ top → (tableAt tab i).toNat % 2 ^ 13 = 0 ∧ Spec.ffinite 0#1 ((tableAt tab i).zeroExtend 64) ∧
      Spec.fsign 0#1 ((tableAt tab i).zeroExtend 64) = false ∧ value i = Spec.fvalue 0#1 ((tableAt tab i).zeroExtend 64)) →
    (∀ i j, i < j → j ≤ top → value i < value j) →
    ∃ c, (k8Encode tab top ncode f32 x).1 = c + (if Spec.fsign 0#1 (w64 x) then 128 else 0) ∧ c ≤ top ∧
      ∀ i, i ≤ top → abs (value c - abs (Spec.fvalue 0#1 (w64 x))) ≤ abs (value i - abs (Spec.fvalue 0#1 (w64 x)))

/-- GANG and SPLIT (R31, R33, R34, R143): a GANG parks with reason GANG until the strand of the partner slot of the same
launch waits in GANG too; then the even slot leads, the odd one is FROZEN, and both are past their GANG. SPLIT by the
leader lets both go on, a SAVED follower once it is restored. A GANG by a member and a SPLIT by another strand raise
ILL with a zero operand. -/
def Obligations.Gangs : Prop :=
  ∀ (s : State) (die lid : Nat),
    let slot := s.self.id.slot
    (s.self.ctl.ganged = false →
      (s.gangPartner = none → exec .gang s = .next { s with self := { s.self with
          st := .parked, park := { reason := .gang, operand := w64 (slot ^^^ 1), since := s.cycle }, waits := s.parkWaits
          ctl := { s.self.ctl with parkCode := 10#4 } } }) ∧
      (∀ p, s.gangPartner = some p → s.self.id.ctx = .launch die lid → (s.others.map (·.id.uid)).Nodup →
        ∃ t, exec .gang s = .next t ∧ p.id.ctx = .launch die lid ∧ p.park.reason = .gang ∧ p.id.slot = slot ^^^ 1 ∧
          t.self.pc = s.self.pc + 4#64 ∧ t.self.ctl.ganged = true ∧ t.self.ctl.glead = decide (slot % 2 = 0) ∧
          t.self.st = (if slot % 2 = 0 then .active else .frozen) ∧
          ∃ u ∈ t.others, u.id = p.id ∧ u.pc = p.pc + 4#64 ∧ u.ctl.ganged = true ∧ u.ctl.glead = decide (slot % 2 = 1) ∧
            u.st = (if slot % 2 = 1 then .active else .frozen))) ∧
    (s.self.ctl.ganged = true → s.canTrap → exec .gang s =
      .next (s.trapped s.self.pc { cause := 1, arg := 1, info1 := 0x5C000011#64 })) ∧
    (s.self.ctl.glead = true → ∀ u, s.follower = some u → ∃ t u', exec .split s = .next t ∧
      t.self = { s.self with pc := s.self.pc + 4#64, ctl := { s.self.ctl with ganged := false, glead := false } } ∧
      u' ∈ t.others ∧ u' = { u with st := if u.st = .saved then .saved else .active, ctl := { u.ctl with ganged := false, glead := false, split := true } }) ∧
    (s.self.ctl.glead = false → s.canTrap → exec .split s =
      .next (s.trapped s.self.pc { cause := 1, arg := 1, info1 := 0x5C000012#64 }))

/-- The checks of an access (R146) touch no data: checks that do not pass change nothing but TLBs and what the access
waits for (R14), and checks that pass, for a partition without budgets, nothing but those and what the partition has
used in the period. -/
def Obligations.AccessChecksTouchNoData : Prop :=
  ∀ (s : State) (x : Site) (rule : SpaceRule) (acc : Acc) (n align : Nat) (ls : List (Nat × Word)) (t : State),
    let waits (hs : List Hold) : State := { s with self := { s.self with waits := { s.self.waits with holds := hs } } }
    ((∀ ps, s.check x rule acc n align ls ≠ (.ok ps, t)) → (s.check x rule acc n align ls).2 = t →
      t = { waits t.self.waits.holds with m := { s.m with tlb := t.m.tlb } }) ∧
    ((s.part x.part).budget = Vector.replicate 5 none → (s.check x rule acc n align ls).2 = t →
      t = { waits t.self.waits.holds with
        m := { s.m with tlb := t.m.tlb }, host := { s.host with parts := t.host.parts } })

/-- A scalar load from local storage (R44 to R47, R146, R148): within its bounds it completes with the bytes, sign- or
zero-extended; beyond the extent or the limit it raises PROT with reason 2, with a must-be-zero bit set or in a space
0x1 to 0xB PROT with reason 1, at an ME that no region of the strand holds PROT with reason 4, and unaligned, but
within its bounds, ALIGN. U-mode TCM accesses stop at TCMLIM. Every scalar load form completes (R145, R148): once its
checks pass at a place of this module whose bytes can be read, g[d] holds the bytes extended, as the key selector of
the page shows them (R367), and awaits them, and nothing else changes but what the checks do. -/
def Obligations.LoadsComplete : Prop :=
  (∀ (s : State) (d a : BitVec 6) (w : BitVec 2) (n : BitVec 1) (o : BitVec 11),
    let size : Nat := 2 ^ w.toNat
    let A := s.getG a + BitVec.ofInt 64 (o.toInt * size)
    let sp := A.toNat / 2 ^ 60
    let off := A.toNat % 2 ^ 60
    let i : Instr := .ld d a w n o
    let id := s.self.id
    let ctl := s.self.ctl
    let loads (l : Nat) : Prop := s.isPoisoned l = false →
      exec i s = .next ((s.clearHolds.dropAnswers.wrote d (if n = 1#1 then BitVec.ofNat 64 (s.rd l size)
        else (BitVec.ofNat (8 * size) (s.rd l size)).signExtend 64)).markBusy [.g d])
    let prot (reason : Nat) : Prop := s.canTrap →
      exec i s = .next (s.trapped s.self.pc { cause := 5, info0 := A, info2 := w64 reason })
    let align : Prop := s.canTrap → exec i s = .next (s.trapped s.self.pc { cause := 3, info0 := A })
    let bounded (limit l : Nat) : Prop :=
      (off + size ≤ limit → A.toNat % size = 0 → loads l) ∧ (off + size ≤ limit → A.toNat % size ≠ 0 → align) ∧
      (limit < off + size → prot 2)
    (1 ≤ sp → sp ≤ 0xB → prot 1) ∧
    (sp = 0xC → (off < 2 ^ 16 → bounded (if ctl.sMode then 2 ^ 16 else s.tcmLim id.die id.cluster id.core)
        (tcmLoc id.die id.cluster id.core off)) ∧ (2 ^ 16 ≤ off → prot 1)) ∧
    (sp = 0xD → (off < 2 ^ 21 → bounded (min (2 ^ 21) ctl.splim.toNat) (spLoc id.die id.cluster (ctl.spbase.toNat + off))) ∧
      (2 ^ 21 ≤ off → prot 1)) ∧
    (sp = 0xF → (off < 2 ^ 26 → bounded (min (2 ^ 26) ctl.swlim.toNat) (swLoc id.die (ctl.swbase.toNat + off))) ∧
      (2 ^ 26 ≤ off → prot 1)) ∧
    (sp = 0xE → off % 2 ^ 54 < 2 ^ 15 →
      let held : Option Region := (s.regionAt id.die id.cluster (A.toNat / 2 ^ 58 % 4) (A.toNat / 2 ^ 55 % 8)).filter
        (fun r => r.heldFor s.self.site)
      (2 ^ 15 < off % 2 ^ 15 + size → prot 2) ∧
      (off % 2 ^ 15 + size ≤ 2 ^ 15 → (held = none → prot 4) ∧ (held.isSome = true →
        (A.toNat % size = 0 → loads (meLoc id.die id.cluster (A.toNat / 2 ^ 58 % 4) (A.toNat / 2 ^ 55 % 8)
          (10 + A.toNat / 2 ^ 54 % 2) (off % 2 ^ 15))) ∧ (A.toNat % size ≠ 0 → align)))) ∧
    (sp = 0xE → 2 ^ 15 ≤ off % 2 ^ 54 → prot 1) ∧
    (sp = 0 → 2 ^ 56 ≤ off → prot 1)) ∧
  (∀ (s t₀ : State) (d a b : BitVec 6) (w : BitVec 2) (n : BitVec 1) (o : BitVec 11) (scope : BitVec 3) (p : Place)
    (i : Instr) (A : Word),
    (i = .ld d a w n o ∧ A = s.getG a + BitVec.ofInt 64 (o.toInt * 2 ^ w.toNat) ∨
     i = .ldx d a b n w ∧ A = s.getG a + s.getG b ∨ i = .ldAcq d a scope n w ∧ A = s.getG a) →
    s.check s.self.site .any .load (2 ^ w.toNat) (2 ^ w.toNat) [(0, A)] = (.ok [(0, A, p)], t₀) →
    let t : State := t₀.underKeys [(0, A, p)]
    p.remote = false → t.blocked (0, A, p) = false →
    let x := t.rd p.loc (2 ^ w.toNat)
    exec i s = .next ((t.dropAnswers.wrote d (if n = 1#1 then BitVec.ofNat 64 x
      else (BitVec.ofNat (8 * 2 ^ w.toNat) x).signExtend 64)).markBusy [.g d]))

/-- Every scalar store form completes (R145, R148): once its checks pass at a place of this module, the low bytes of g[r]
stand at that place in little-endian order, every other byte, tag and full/empty bit is as before, and only the pc of
the strand changes; other strands that wait for a barrier word in local storage are woken when the store brings it to
zero or less (R18). ST.rel at DOMAIN scope is held while the stores to other modules that its partition had
outstanding are unacknowledged (R318, R441). A store that meets a suspended or poisoned cell replaces it, and one that
meets an ECLOSING cell raises CELLBUSY (R153): the bytes of the cell that the store does not write become zero and the
tag becomes VALUE. -/
def Obligations.StoresComplete : Prop :=
  ∀ (s t₀ : State) (r a b : BitVec 6) (w : BitVec 2) (o : BitVec 11) (scope : BitVec 3) (p : Place) (i : Instr) (A : Word),
    let n : Nat := 2 ^ w.toNat
    let t : State := (t₀.underKeys [(0, A, p)]).dropAnswers
    let stored (u : State) : Prop := ∀ j, j < n → u.byteAt (p.loc + j) = (s.getG r).extractLsb' (8 * j) 8
    (s.holdOver s.self.site s.releaseHold = false →
      exec (.stRel r a 5#3 w) s = .next { s with self := { s.self with waits := { s.self.waits with holds := [s.releaseHold] } } }) ∧
    ((i = .st r a w o ∧ A = s.getG a + BitVec.ofInt 64 (o.toInt * n) ∨ i = .stx r a b w ∧ A = s.getG a + s.getG b ∨
     i = .stRel r a scope w ∧ A = s.getG a ∧ (scope = 5#3 → s.holdOver s.self.site s.releaseHold = true)) →
    s.check s.self.site .any .store n n [(0, A)] = (.ok [(0, A, p)], t₀) →
    t.memOk → p.remote = false → t.isPoisoned p.loc = false →
    ((p.glob = true → t.tag p.loc = .value) →
      ∃ u, exec i s = .next u ∧ stored u ∧ SameBytesBut p.loc n t u ∧
        u = { t with self := { t.self with pc := t.self.pc + 4#64 }, m := { t.m with mem := u.m.mem }
                     others := if p.glob then t.others else t.others.map (u.wokenBy p.loc n) }) ∧
    (p.glob = true → p.cpage = true → p.loc % n = 0 →
      let c := p.loc / 32 * 32
      (t.tag p.loc = .chrysalis ∨ t.tag p.loc = .poison →
        ∃ u, exec i s = .next u ∧ stored u ∧ SameBytesBut c 32 t u ∧ u.tag p.loc = .value ∧
          (∀ q, c ≤ q → q < c + 32 → (q < p.loc ∨ p.loc + n ≤ q) → u.byteAt q = 0#8) ∧
          u.self = { t.self with pc := t.self.pc + 4#64 } ∧ u.others = t.others ∧ u.m.empties = t.m.empties) ∧
      (t.tag p.loc = .eclosing → t.self.ctl.itr = false → ∃ u, exec i s = .next u ∧ SameBytes t u ∧
        u.self.pc = t.self.ctl.tvec ∧ u.self.ctl.tcause = 9#64 ∧ u.self.ctl.tinfo0 = w64 (A.toNat / 32 * 32))))

/-- The vector loads complete (R145, R151): once the checks of every active lane pass at places of this module whose bytes
can be read, each active lane of v[d] holds its element extended, the other lanes keep their values, v[d] awaits the
data, and nothing else changes but what the checks do. The vector stores complete (R145, R151): once the checks of
every active lane pass at places of this module, each byte written holds the value of the highest lane that writes it,
every other byte is as before, only the pc of the strand changes, and of the other strands only waiters in BWAIT may
be woken (R18). -/
def Obligations.VectorMemoryCompletes : Prop :=
  (∀ (s t₀ : State) (d : BitVec 4) (a b : BitVec 6) (iv : BitVec 4) (k : BitVec 3) (n : BitVec 1) (w : BitVec 2)
    (o : BitVec 11) (i : Instr) (A : Nat → Word) (on : Nat → Bool) (ps : List (Nat × Word × Place)),
    let e : Nat := 2 ^ w.toNat
    s.gangOk → e ≤ 4 →
    (i = .vld d a w n o ∧ (∀ j, A j = s.getG a + BitVec.ofInt 64 (o.toInt * (16 * e)) + w64 (j * e)) ∧ (∀ j, on j = true) ∨
     i = .vlds d a b k n w ∧ (∀ j, A j = s.getG a + w64 j * s.getG b) ∧ on = (s.mask k).getLsbD ∨
     i = .vgth d a iv k n w ∧ (∀ j, A j = s.getG a + (lane (s.lanes iv) j).signExtend 64) ∧ on = (s.mask k).getLsbD) →
    s.check s.self.site .any .load e e (((List.range s.laneCount).filter on).map (fun j => (j, A j))) = (.ok ps, t₀) →
    let t : State := (t₀.underKeys ps).dropAnswers
    (∀ q, q ∈ ps → q.2.2.remote = false ∧ t.blocked q = false) →
    ∃ u, exec i s = .next (u.markBusy [.v d]) ∧ VecOnly d 0#5 t u ∧ ps.map (·.1) = (List.range s.laneCount).filter on ∧
      (∀ q, q ∈ ps → lane (u.lanes d) q.1 = (if n = 1#1 then BitVec.ofNat 32 (t.rd q.2.2.loc e)
        else (BitVec.ofNat (8 * e) (t.rd q.2.2.loc e)).signExtend 32)) ∧
      (∀ j, j < s.laneCount → on j = false → lane (u.lanes d) j = lane (s.lanes d) j)) ∧
  (∀ (s t₀ : State) (r : BitVec 4) (a b : BitVec 6) (iv : BitVec 4) (k : BitVec 3) (w : BitVec 2)
    (o : BitVec 11) (i : Instr) (A : Nat → Word) (on : Nat → Bool) (ps : List (Nat × Word × Place)),
    let e : Nat := 2 ^ w.toNat
    (i = .vst r a w o ∧ (∀ j, A j = s.getG a + BitVec.ofInt 64 (o.toInt * (16 * e)) + w64 (j * e)) ∧ (∀ j, on j = true) ∨
     i = .vsts r a b k w ∧ (∀ j, A j = s.getG a + w64 j * s.getG b) ∧ on = (s.mask k).getLsbD ∨
     i = .vsct r a iv k w ∧ (∀ j, A j = s.getG a + (lane (s.lanes iv) j).signExtend 64) ∧ on = (s.mask k).getLsbD) →
    s.check s.self.site .any .store e e (((List.range s.laneCount).filter on).map (fun j => (j, A j))) = (.ok ps, t₀) →
    let t : State := (t₀.underKeys ps).dropAnswers
    t.memOk → (∀ q, q ∈ ps → q.2.2.remote = false ∧ t.isPoisoned q.2.2.loc = false ∧ (q.2.2.glob = true → t.tag q.2.2.loc = .value)) →
    ∃ u, exec i s = .next u ∧ ps.map (·.1) = (List.range s.laneCount).filter on ∧
      u = { t with self := { t.self with pc := t.self.pc + 4#64 }, m := { t.m with mem := u.m.mem }, others := u.others } ∧
      u.others.length = t.others.length ∧
      (∀ x ∈ t.others.zip u.others, x.2 = x.1 ∨ x.1.parkedFor .bwait = true ∧ x.2 = x.1.wake) ∧
      ∀ c, u.byteAt c = match (ps.filter (fun q => decide (q.2.2.loc ≤ c) && decide (c < q.2.2.loc + e))).getLast? with
        | some q => BitVec.ofNat 8 ((lane (s.lanes r) q.1).toNat / 256 ^ (c - q.2.2.loc))
        | none => t.byteAt c)

/-- The atomics complete (R154, R155): once the checks pass at a place of this module that can be read, the word receives
the new value, g[d] the old one extended as the table says, AMO.fadd's flags join FFLAGS, and nothing else changes but
what the checks do and waiters of a local barrier word that it brings to zero or less, which wake (R18). ACAS writes
when the old value is the expected one. At DOMAIN scope an atomic is held while the stores to other modules that its
partition had outstanding are unacknowledged (R156, R318, R441). -/
def Obligations.AtomicsComplete : Prop :=
  ∀ (s t₀ : State) (d a b : BitVec 6) (c : BitVec 3) (w : BitVec 1) (p : Place),
    let W := if w = 0#1 then 32 else 64
    let A := s.getG a
    let t : State := t₀.underKeys [(0, A, p)]
    let held (i : Instr) : Prop :=
      exec i s = .next { s with self := { s.self with waits := { s.self.waits with holds := [s.releaseHold] } } }
    (c = 5#3 → s.holdOver s.self.site s.releaseHold = false →
      held (.amoAdd d a b c w) ∧ held (.amoAnd d a b c w) ∧ held (.amoOr d a b c w) ∧ held (.amoXor d a b c w) ∧
      held (.amoMin d a b c w) ∧ held (.amoMax d a b c w) ∧ held (.amoMinn d a b c w) ∧ held (.amoMaxn d a b c w) ∧
      held (.amoSwp d a b c w) ∧ held (.amoFadd d a b c w) ∧ held (.acas d a b c w)) ∧
    ((c = 5#3 → s.holdOver s.self.site s.releaseHold = true) →
    s.check s.self.site .any .atomic (W / 8) (W / 8) [(0, A)] = (.ok [(0, A, p)], t₀) →
    t.memOk → p.remote = false → t.blocked (0, A, p) = false → (p.glob = true → t.tag p.loc = .value) →
    let old := BitVec.ofNat W (t.rd p.loc (W / 8))
    let x := (s.getG b).setWidth W
    let e := (s.getG d).setWidth W
    let sext := old.signExtend 64
    let zext := old.zeroExtend 64
    let is (i : Instr) (new : BitVec W) (got : Word) (f : BitVec 5) : Prop :=
      ∃ u, exec i s = .next ((u.wroteF d got f).markBusy [.g d, .flags]) ∧
        u = { t with m := { t.m with mem := u.m.mem }
                     others := if p.glob then t.others else t.others.map (u.wokenBy p.loc (W / 8)) } ∧
        u.rd p.loc (W / 8) = new.toNat ∧ SameBytesBut p.loc (W / 8) t u
    let F := if w = 0#1 then f32 else f64
    let sum := F.add 0 (F.unpack old.toNat) (F.unpack x.toNat)
    is (.amoAdd d a b c w) (old + x) sext 0#5 ∧ is (.amoAnd d a b c w) (old &&& x) sext 0#5 ∧
    is (.amoOr d a b c w) (old ||| x) sext 0#5 ∧ is (.amoXor d a b c w) (old ^^^ x) sext 0#5 ∧
    is (.amoMin d a b c w) (if x.toInt < old.toInt then x else old) sext 0#5 ∧
    is (.amoMax d a b c w) (if old.toInt < x.toInt then x else old) sext 0#5 ∧
    is (.amoMinn d a b c w) (if x.toNat < old.toNat then x else old) zext 0#5 ∧
    is (.amoMaxn d a b c w) (if old.toNat < x.toNat then x else old) zext 0#5 ∧
    is (.amoSwp d a b c w) x sext 0#5 ∧ is (.amoFadd d a b c w) (BitVec.ofNat W sum.1) zext sum.2 ∧
    is (.acas d a b c w) (if old = e then x else old) sext 0#5)

/-- The full/empty forms complete at a local word (R56, R157, R158): LDFE empties a FULL word, LDFF keeps it, STEF fills
an EMPTY one, STFF fills any; each waits as R56 says by parking with reason FE and changing no data; FEGET reads the
bit and FESET sets it. A word whose bit enters a state wakes every strand registered for that state, and a store that
brings a barrier word to zero or less its BWAIT waiters (R18). An access to global space raises PROT with reason 1, and
one to a local word within its bounds that is not aligned to 8 bytes ALIGN, by each of the six forms (R58, R336). -/
def Obligations.FullEmptyForms : Prop :=
  ∀ (s t : State) (d a : BitVec 6) (o : BitVec 11) (p : Place),
    let A := s.getG a + BitVec.ofInt 64 (o.toInt * 8)
    let done (u : State) : Out := .next (u.wentTo (u.self.pc + 4#64))
    let got (u : State) (x : Word) : Out := .next ((u.wrote d x).markBusy [.g d])
    let parked (full : Bool) : Out := .next { t with self := { t.self with
        st := .parked, ctl := { t.self.ctl with parkCode := 2#4 }, waits := t.parkWaits
        park := { reason := .fe, operand := A, since := t.cycle, loc := p.loc, wantFull := full } } }
    let l := p.loc
    let x := w64 (t.rd l 8)
    let ok (A : Word) : Prop := s.check s.self.site .localOnly .load 8 8 [(0, A)] = (.ok [(0, A, p)], t) ∧ t.isPoisoned l = false
    (ok A →
      (t.isFull l = true → exec (.ldfe d a o) s = got (t.setFull l false) x ∧ exec (.ldff d a o) s = got t x ∧
        exec (.stef d a o) s = parked false) ∧
      (t.isFull l = false → exec (.ldfe d a o) s = parked true ∧ exec (.ldff d a o) s = parked true ∧
        exec (.stef d a o) s = done (((t.wr l 8 (s.getG d).toNat).wakeOthers l 8).setFull l true)) ∧
      exec (.stff d a o) s = done (((t.wr l 8 (s.getG d).toNat).wakeOthers l 8).setFull l true)) ∧
    (ok (s.getG a) → exec (.feget d a) s = got t (if t.isFull l then 1#64 else 0#64) ∧
      exec (.fesetEmpty a) s = done (t.setFull l false) ∧ exec (.fesetFull a) s = done (t.setFull l true)) ∧
    (∀ full, (t.setFull l full).m = { t.m with empties := (t.setFull l full).m.empties } ∧
      (t.m.empties.Nodup → ∀ q, (t.setFull l full).isFull q = if q = l then full else t.isFull q) ∧
      (∀ u, u ∈ t.others → u.parkedFor .fe = true ∨ u.parkedFor .qrecv = true → u.park.loc = l → u.park.wantFull = full →
        u.wake ∈ (t.setFull l full).others)) ∧
    (∀ (i : Instr) (B : Word), s.canTrap →
      (i = .ldfe d a o ∨ i = .ldff d a o ∨ i = .stef d a o ∨ i = .stff d a o) ∧ B = A ∨
        (i = .feget d a ∨ i = .fesetEmpty a ∨ i = .fesetFull a) ∧ B = s.getG a →
      (B.toNat / 2 ^ 60 = 0 → exec i s = .next (s.trapped s.self.pc { cause := 5, info0 := B, info2 := 1#64 })) ∧
      (s.space s.self.site .localOnly B 8 = .ok (some l) → B.toNat % 8 ≠ 0 →
        exec i s = .next (s.trapped s.self.pc { cause := 3, info0 := B })))

/-- TRAP and BRK take their traps (R35, R190): TPC receives the address of the next instruction, TCAUSE and TINFO the
record, PMODE the mode, the mode becomes S, ITR is set, and the pc becomes TVEC. -/
def Obligations.TrapInstructions : Prop :=
  ∀ (s : State) (c : BitVec 6), s.canTrap →
    exec (.trap c) s = .next (s.trapped (s.self.pc + 4#64) { cause := 16, info0 := w64 c.toNat }) ∧
    exec .brk s = .next (s.trapped (s.self.pc + 4#64) { cause := 15 }) ∧
    ∃ t, exec (.trap c) s = .next t ∧ t.self.pc = s.self.ctl.tvec ∧ t.self.ctl.tpc = s.self.pc + 4#64 ∧
      t.self.ctl.tinfo0 = c.zeroExtend 64 ∧ t.self.ctl.pmode = s.self.ctl.sMode ∧ t.self.ctl.sMode = true ∧
      t.self.ctl.itr = true ∧ t.self.g = s.self.g ∧ t.self.v = s.self.v ∧ t.self.k = s.self.k ∧ t.m = s.m

/-- A trap while ITR is set is a double trap (R36): the strand is PARKED with reason 0 and keeps its slot, its trap
registers stay, and its supervisor is told. ERET returns to TPC in the mode PMODE with ITR clear, HALT leaves the
strand PARKED with reason 0 in its slot and reports it; in U mode both raise PRIV (R35, R191). An ERET to a TPC with
bit 1 or 0 set raises ALIGN (R365). That such a stop leaves STAT.PARK as it was is the model's choice (log entry 16). -/
def Obligations.DoubleTrapReturnAndHalt : Prop :=
  (∀ (s : State) (c : BitVec 6), s.self.ctl.itr = true → s.self.ctl.glead = false → s.self.id.part < 64 →
    ∃ t, exec (.trap c) s = .next t ∧ t.self.st = .parked ∧ t.self.park.reason = .stopped ∧ t.self.id = s.self.id ∧
      t.self.ctl = s.self.ctl ∧ t.self.pc = s.self.pc ∧ t.self.g = s.self.g ∧ t.m = s.m ∧
      ∃ r, (t.fn s.self.id.part).reports = (s.fn s.self.id.part).reports ++ [r] ∧ bits r.word0 7 0 = 1 ∧
        bits r.word0 15 8 = 16 ∧ r.pc = s.self.pc) ∧
  (∀ (s : State),
    (s.self.ctl.sMode = true →
      (s.self.ctl.tpc.toNat % 4 = 0 → exec .eret s = .next { s with self := { s.self with
        pc := s.self.ctl.tpc, ctl := { s.self.ctl with sMode := s.self.ctl.pmode, itr := false } } }) ∧
      (s.self.ctl.tpc.toNat % 4 ≠ 0 → s.canTrap →
        exec .eret s = .next (s.trapped s.self.pc { cause := 3, info0 := s.self.ctl.tpc })) ∧
      (s.self.id.part < 64 → ∃ t, exec .halt s = .next t ∧ t.self.st = .parked ∧ t.self.park.reason = .stopped ∧
        t.self.id = s.self.id ∧ t.self.pc = s.self.pc ∧ t.self.g = s.self.g ∧ t.self.ctl = s.self.ctl ∧ t.m = s.m ∧
        ∃ r, (t.fn s.self.id.part).reports = (s.fn s.self.id.part).reports ++ [r] ∧ bits r.word0 7 0 = 2)) ∧
    (s.self.ctl.sMode = false → s.canTrap →
      exec .eret s = .next (s.trapped s.self.pc { cause := 2, info0 := 0xA8000001#64 }) ∧
      exec .halt s = .next (s.trapped s.self.pc { cause := 2, info0 := 0xA8000003#64 })))

/-- CTLR reads each register of R95, in U mode those that U may read and in S mode all; a register marked with a dash for
U raises PRIV in U mode with the index in TINFO1. CTLW (R37, R74, R95, R96): each writable register takes the value,
reserved bits are ignored, TVEC keeps bits 1..0 zero; a rounding mode of 5 to 7 and, in S mode, a MODE of 2 or 3 raise
ILL at run time; U mode writes STAT only to clear SPLIT, and raises PRIV for FELIM and the registers from 0x100; a
read-only register raises ILL in S mode, and SID, TIME, CYC and PART in both modes. Two points are the model's choice:
that a U-mode CTLW of STAT that sets a reserved bit raises PRIV (log entry 20), and that CYC is the module's count of core
cycles (log entry 11). -/
def Obligations.ControlRegisters : Prop :=
  (∀ (s : State) (d : BitVec 6) (i : BitVec 12),
    let c := s.self.ctl
    let id := s.self.id
    let reads (i : BitVec 12) (x : Word) : Prop := exec (.ctlr d i) s = .next (s.wrote d x)
    reads 0x000#12 (w64 ((if c.sMode then 1 else 0) + (if c.itr then 4 else 0) + (if c.pmode then 8 else 0)
      + (if c.ganged then 16 else 0) + (if c.glead then 32 else 0) + (if c.split then 64 else 0) + 256 * c.parkCode.toNat)) ∧
    reads 0x001#12 (match id.sid with
      | some x => x.zeroExtend 64
      | none => 0#64) ∧
    reads 0x002#12 s.plant.time ∧ reads 0x003#12 (w64 s.plant.cycle) ∧ reads 0x004#12 (c.frm.zeroExtend 64) ∧
    reads 0x005#12 (c.fflags.zeroExtend 64) ∧ reads 0x006#12 (c.tblnan.zeroExtend 64) ∧ reads 0x007#12 c.felim ∧
    reads 0x008#12 (w64 id.part) ∧
    (c.sMode = true →
      reads 0x100#12 c.tvec ∧ reads 0x101#12 c.tpc ∧ reads 0x102#12 c.tcause ∧ reads 0x103#12 c.tinfo0 ∧
      reads 0x104#12 c.tinfo1 ∧ reads 0x105#12 c.tinfo2 ∧ reads 0x106#12 c.tinfo3 ∧
      reads 0x107#12 (c.asid.zeroExtend 64) ∧ reads 0x108#12 c.ptb ∧ reads 0x109#12 c.spbase ∧ reads 0x10A#12 c.splim ∧
      reads 0x10B#12 c.swbase ∧ reads 0x10C#12 c.swlim ∧ reads 0x10D#12 (w64 (s.tcmLim id.die id.cluster id.core))) ∧
    (c.sMode = false → s.canTrap → 0x100 ≤ i.toNat → i.toNat ≤ 0x10D →
      exec (.ctlr d i) s = .next (s.trapped s.self.pc
        { cause := 2, info0 := w64 (insWord (.ctlr d i)).toNat, info1 := w64 i.toNat }))) ∧
  (∀ (s : State) (a : BitVec 6) (i : BitVec 12),
    let x := s.getG a
    let c := s.self.ctl
    let sets (i : BitVec 12) (c' : Ctl) : Prop := exec (.ctlw a i) s =
      .next { s with self := { s.self with pc := s.self.pc + 4#64, ctl := c' } }
    let raises (i : BitVec 12) (r : TrapRec) : Prop := s.canTrap → exec (.ctlw a i) s = .next (s.trapped s.self.pc r)
    let word (i : BitVec 12) : Word := w64 (insWord (.ctlw a i)).toNat
    (x.toNat % 8 ≤ 4 → sets 0x004#12 { c with frm := x.setWidth 3 }) ∧
    (5 ≤ x.toNat % 8 → raises 0x004#12 { cause := 1, arg := 1, info0 := x, info1 := word 0x004#12 }) ∧
    sets 0x005#12 { c with fflags := x.setWidth 5 } ∧ sets 0x006#12 { c with tblnan := x.setWidth 15 } ∧
    (i = 0x001#12 ∨ i = 0x002#12 ∨ i = 0x003#12 ∨ i = 0x008#12 → raises i { cause := 1, info0 := word i }) ∧
    (c.sMode = true →
      sets 0x007#12 { c with felim := x } ∧ sets 0x100#12 { c with tvec := x &&& ~~~3#64 } ∧
      sets 0x101#12 { c with tpc := x } ∧ sets 0x102#12 { c with tcause := x } ∧ sets 0x103#12 { c with tinfo0 := x } ∧
      sets 0x104#12 { c with tinfo1 := x } ∧ sets 0x105#12 { c with tinfo2 := x } ∧ sets 0x106#12 { c with tinfo3 := x } ∧
      (x.toNat % 4 ≤ 1 → sets 0x000#12 { c with sMode := x.getLsbD 0, itr := x.getLsbD 2, pmode := x.getLsbD 3
                                                split := c.split && !(x.getLsbD 6) }) ∧
      (2 ≤ x.toNat % 4 → raises 0x000#12 { cause := 1, arg := 1, info0 := x, info1 := word 0x000#12 }) ∧
      (0x107 ≤ i.toNat → i.toNat ≤ 0x10D → raises i { cause := 1, info0 := word i })) ∧
    (c.sMode = false →
      (x &&& ~~~0x40#64 = c.stat &&& ~~~0x40#64 → sets 0x000#12 { c with split := c.split && !(x.getLsbD 6) }) ∧
      (x &&& ~~~0x40#64 ≠ c.stat &&& ~~~0x40#64 → raises 0x000#12 { cause := 2, info0 := word 0x000#12 }) ∧
      (i = 0x007#12 ∨ (0x100 ≤ i.toNat ∧ i.toNat ≤ 0x10D) →
        raises i { cause := 2, info0 := word i, info1 := w64 i.toNat })))

/-- TLBI (R193) is privileged: in S mode the strand goes on to the next instruction and waits until its TLBs have dropped
the entries, an ASID outside the partition raises PROT, and in U mode every form raises PRIV. The end of a TLBI and of
a walk (R193, R406 to R408, R410): once the strand's remote stores are acknowledged, no access that any agent of the
partition made under the translations it drops is outstanding, and for DOMAIN no remote access of the partition is, the
TLBs in scope hold no entry that the TLBI names, pinned ones excepted, which are stale, and the strand waits no longer.
A walk for a strand changes nothing but TLBs: what it finds enters the L1 TLB of the strand's core and the L2 TLB of its
cluster, what the L2 TLB holds already enters the L1 TLB, entries of other TLBs and pinned ones stay, and a walk that
finds no leaf, or one that ends malformed, leaves every TLB as it was. -/
def Obligations.TlbInvalidationAndEvents : Prop :=
  (∀ (s : State) (a : BitVec 6) (c : BitVec 3) (i : Instr),
    let x := s.getG a
    let p := s.part s.self.id.part
    let issued (form : Nat) (y : Word) : Out := .next { s with self := { s.self with
      pc := s.self.pc + 4#64, waits := { s.self.waits with tlbi := some (c.toNat, form, y) } } }
    (s.self.ctl.sMode = true → exec (.tlbiPage a c) s = issued 0 x ∧ exec (.tlbiPart c) s = issued 2 0#64 ∧
      (p.asidBase ≤ x.toNat % 512 ∧ x.toNat % 512 < p.asidBase + p.asidCnt → exec (.tlbiAsid a c) s = issued 1 x) ∧
      (¬ (p.asidBase ≤ x.toNat % 512 ∧ x.toNat % 512 < p.asidBase + p.asidCnt) → s.canTrap →
        exec (.tlbiAsid a c) s = .next (s.trapped s.self.pc { cause := 5, info0 := x, info2 := 7#64 }))) ∧
    (s.self.ctl.sMode = false → s.canTrap → i = .tlbiPage a c ∨ i = .tlbiAsid a c ∨ i = .tlbiPart c →
      exec i s = .next (s.trapped s.self.pc { cause := 2, info0 := w64 (insWord i).toNat }))) ∧
  (∀ (s : State) (uid : Nat) (t : Strand) (scope form : Nat) (x va : Word), s.strand? uid = some t →
    (t.waits.tlbi = some (scope, form, x) → s.tlbiWaits t scope form x = false →
      Does (.tlbiComplete uid) s (fun u =>
        (∀ e, e ∈ u.m.tlb → e.holder.inScope t.id scope = true → e.named t.id.part t.ctl.asid.toNat form x = true →
          e.pin.isSome = true ∧ e.stale = true) ∧
        (∀ e, e ∈ s.m.tlb → e.holder.inScope t.id scope = false → e ∈ u.m.tlb) ∧
        u.m.mem = s.m.mem ∧ ∃ y, u.strand? uid = some y ∧ y.waits.tlbi = none ∧ y.pc = t.pc ∧ SameRegisters t y)) ∧
    (t.resident = true →
      let hit (h : TlbHolder) (y : TlbEntry) : Bool := y.holder == h && !y.stale && y.covers t.site.part t.site.asid va.toNat
      let l1 := TlbHolder.l1 t.site.die t.site.cluster t.site.core
      let l2 := TlbHolder.l2 t.site.die t.site.cluster
      let filled (new : List TlbEntry) : Prop := Does (.walkComplete uid va) s (fun u =>
        u = { s with m := { s.m with tlb := u.m.tlb } } ∧ (∀ e ∈ new, e ∈ u.m.tlb) ∧ (∀ y ∈ u.m.tlb, y ∈ new ∨ y ∈ s.m.tlb) ∧
        ∀ y ∈ s.m.tlb, y.pin.isSome = true ∨ (∀ e ∈ new, e.holder ≠ y.holder) → y ∈ u.m.tlb)
      Does (.walkComplete uid va) s (fun u => u = { s with m := { s.m with tlb := u.m.tlb } }) ∧
      ((∃ y ∈ s.m.tlb, hit l1 y = true) → filled []) ∧
      ((∀ y ∈ s.m.tlb, hit l1 y = false) →
        (∀ e, s.m.tlb.find? (hit l2) = some e → filled [{ e with pin := none, holder := l1 }]) ∧
        ((∀ y ∈ s.m.tlb, hit l2 y = false) →
          (∀ e, s.walk t.site va.toNat = .found e → filled [{ e with holder := l1 }, { e with holder := l2 }]) ∧
          (s.walk t.site va.toNat = .absent ∨ s.walk t.site va.toNat = .malformed → filled [])))))

/-- Messages (R62, R162 to R164): SEND and SENDV park with reason QSEND and carry the sender's SID and the payload; the
delivery, among strands of distinct SIDs, appends it to the q0 of a live strand of the launch that has room and
completes the SEND, raises QOVF at a full one, and drops it for nobody and for a live strand of another launch, counting
the drop in the launch's counter (R28); RECV takes the oldest message of q0, the others moving up as the spill area
holds those beyond the eighth, or parks with QRECV; QPOLL counts. Two points are the model's choice: the layout of the
spill area from which messages move up (log entry 39), and that RECV with one register for payload and sender leaves the
sender there (log entry 128). -/
def Obligations.Messages : Prop :=
  ∀ (s : State) (d a b : BitVec 6) (v : BitVec 4) (m : Msg) (rest : List Msg) (uid : Nat) (t : Strand) (sid : BitVec 16)
    (die lid : Nat),
    let dest : BitVec 16 := (s.getG a).setWidth 16
    let sends (w : Bool) (x : BitVec 512) : Out := .next { s with self := { s.self with
      st := .parked, ctl := { s.self.ctl with parkCode := 4#4 }
      park := { reason := .qsend, operand := dest.zeroExtend 64, since := s.cycle }
      waits := { s.parkWaits with sending := some (dest, { sender := BitVec.ofNat 16 s.self.sidNat, wide := w, payload := x }) } } }
    let popped : State := { s with self := { s.self with q := { s.self.q with q0 := (s.heldMsgs s.self).drop 1 } } }
    exec (.send a b) s = sends false ((s.getG b).zeroExtend 512) ∧
    (∃ x, exec (.sendv a v) s = sends true x ∧ ∀ j, j < 16 → x.extractLsb' (32 * j) 32 = (s.self.getV v)[j]!) ∧
    (s.self.q.q0 = m :: rest →
      exec (.recvG d 0#2 b) s = .next ((((popped.wrote d (m.payload.setWidth 64)).wentTo s.self.pc).wrote b
        (m.sender.zeroExtend 64)).markBusy [.g d, .g b]) ∧
      (∃ u : State, exec (.recvV v 0#2 b) s = .next ((u.wrote b (m.sender.zeroExtend 64)).markBusy [.v v, .g b]) ∧
        u = { popped with self := { popped.self with v := u.self.v } } ∧
        (∀ j, j < 16 → (u.self.getV v)[j]! = m.payload.extractLsb' (32 * j) 32) ∧
        ∀ r, r ≠ v → u.self.getV r = s.self.getV r)) ∧
    (s.self.q.q0 = [] → ∀ i, i = .recvG d 0#2 b ∨ i = .recvV v 0#2 b → exec i s = .next { s with self := { s.self with
      st := .parked, ctl := { s.self.ctl with parkCode := 3#4 }, waits := s.parkWaits
      park := { reason := .qrecv, since := s.cycle } } }) ∧
    exec (.qpoll d 0#2) s = .next ((s.wrote d (w64 s.self.q.q0.length)).markBusy [.g d]) ∧
    (s.strand? uid = some t → t.parkedFor .qsend = true → t.waits.sending = some (sid, m) → t.id.ctx = .launch die lid →
      (s.all.map (·.id.uid)).Nodup → (∀ x ∈ s.all, ∀ y ∈ s.all, x.id.sid = some sid → y.id.sid = some sid → x = y) →
      (∀ y, s.bySid sid = some y → y.id.ctx = t.id.ctx → y.q.q0max ≤ y.q.q0.length → t.ctl.itr = false →
        ∃ u, exec (.messageDelivery uid) s = .next u ∧ u.self.id.uid = uid ∧ u.self.pc = t.ctl.tvec ∧ u.self.ctl.tcause = 7#64 ∧
          u.self.ctl.tinfo0 = sid.zeroExtend 64 ∧ u.self.ctl.tpc = t.pc) ∧
      (∀ y, s.bySid sid = some y → y.id.ctx = t.id.ctx → y.id.uid ≠ uid → y.q.q0.length < y.q.q0max →
        ∃ u, exec (.messageDelivery uid) s = .next u ∧ u.self.id.uid = uid ∧ u.self.st = .active ∧ u.self.pc = t.pc + 4#64 ∧
          ∃ z ∈ u.others, z.id = y.id ∧ z.q.q0 = y.q.q0 ++ [{ m with seqNo := y.q.q0seq }]) ∧
      (s.bySid sid = none ∨ (∃ y, s.bySid sid = some y ∧ y.id.ctx ≠ t.id.ctx) →
        ∃ u, exec (.messageDelivery uid) s = .next u ∧ u.self.id.uid = uid ∧ u.self.st = .active ∧
          u.self.pc = t.pc + 4#64 ∧ u.m = s.m ∧ (∀ x ∈ s.all, x.id.uid ≠ uid → x ∈ u.all) ∧
          ∀ l, s.launch? die lid = some l → u.launch? die lid = some { l with drops := min (l.drops + 1) 4294967295 }))

/-- Stream registers (R61, R163 to R165): QBIND of a base in TCM or scratchpad that is a multiple of the ring's size and
within the bounds binds with head and tail 0, a base outside TCM and scratchpad raises PROT with reason 1, a misaligned
one ALIGN, and a ring beyond the bounds PROT with reason 2; QFREE unbinds; RECV from a ring, whose head word passes the
checks of LDFE, takes its FULL head word, or eight, empties it and advances the head; while one of the words is EMPTY it
parks with reason QRECV and the register's number; a check that fails raises its trap; QPOLL gives the head's bit; an
unbound register raises ILL. Three points are the model's choice: that the ILL of an unbound register carries the
register's number in TINFO0, and the order of QBIND's checks (log entry 19), and that RECV with one register for payload and sender leaves the sender
there (log entry 128). -/
def Obligations.StreamRegisters : Prop :=
  ∀ (s : State) (q : BitVec 2) (d a b : BitVec 6) (v : BitVec 4) (n : BitVec 6) (l : Nat) (r : Ring),
    let base := s.getG a
    let size := 8 * 2 ^ n.toNat
    q ≠ 0#2 →
    (s.space s.self.site .barrier base size = .ok (some l) → base.toNat % size = 0 →
      ∃ t, exec (.qbind q a n) s = .next t ∧ t.self.pc = s.self.pc + 4#64 ∧ t.self.g = s.self.g ∧ t.m = s.m ∧
        t.self.ring q.toNat = some { base := base, loc := l, n := n.toNat, head := 0, tail := 0 }) ∧
    (s.space s.self.site .barrier base size = .ok (some l) → base.toNat % size ≠ 0 → s.canTrap →
      exec (.qbind q a n) s = .next (s.trapped s.self.pc { cause := 3, info0 := base })) ∧
    (∀ e, s.space s.self.site .barrier base size = .error e → s.canTrap →
      (e = 1 ∨ base.toNat % size = 0 →
        exec (.qbind q a n) s = .next (s.trapped s.self.pc { cause := 5, info0 := base, info2 := w64 e })) ∧
      (e ≠ 1 → base.toNat % size ≠ 0 → exec (.qbind q a n) s = .next (s.trapped s.self.pc { cause := 3, info0 := base }))) ∧
    (base.toNat / 2 ^ 60 ≠ 0xC → base.toNat / 2 ^ 60 ≠ 0xD → s.space s.self.site .barrier base size = .error 1) ∧
    (∃ t, exec (.qfree q) s = .next t ∧ t.self.pc = s.self.pc + 4#64 ∧ t.self.g = s.self.g ∧ t.m = s.m ∧
      t.self.ring q.toNat = none) ∧
    (s.self.ring q.toNat = some r →
      exec (.qpoll d q) s = .next ((s.wrote d (if s.isFull (r.loc + r.head % 2 ^ r.n * 8) then 1#64 else 0#64)).markBusy [.g d]) ∧
      (∀ x, s.ringFault r 0 = some x → s.canTrap → exec (.recvG d q b) s = .next (s.trapped s.self.pc x)) ∧
      (s.ringFault r 0 = none → s.isFull (r.loc + r.head % 2 ^ r.n * 8) = true →
        ∃ t, exec (.recvG d q b) s = .next t ∧ t.self.pc = s.self.pc + 4#64 ∧ SameBytes s t ∧
          (d ≠ 0#6 → d ≠ b → t.getG d = w64 (s.rd (r.loc + r.head % 2 ^ r.n * 8) 8)) ∧ t.getG b = 0#64 ∧
          t.isFull (r.loc + r.head % 2 ^ r.n * 8) = false ∧
          t.self.ring q.toNat = some { r with head := (r.head + 1) % 2 ^ r.n }) ∧
      (∀ k, k < 8 → s.isFull (r.loc + (r.head + k) % 2 ^ r.n * 8) = false →
        (∀ j, j < k → s.isFull (r.loc + (r.head + j) % 2 ^ r.n * 8) = true) →
        let parked : Out := .next { s with self := { s.self with
          st := .parked, ctl := { s.self.ctl with parkCode := 3#4 }, waits := s.parkWaits
          park := { reason := .qrecv, operand := q.zeroExtend 64, since := s.cycle, loc := r.loc + (r.head + k) % 2 ^ r.n * 8 } } }
        (k = 0 → s.ringFault r 0 = none → exec (.recvG d q b) s = parked) ∧
        ((∀ j, j < 8 → s.ringFault r j = none) → exec (.recvV v q b) s = parked)) ∧
      ((∀ j, j < 8 → s.ringFault r j = none ∧ s.isFull (r.loc + (r.head + j) % 2 ^ r.n * 8) = true) →
        ∃ t, exec (.recvV v q b) s = .next t ∧ t.self.pc = s.self.pc + 4#64 ∧ SameBytes s t ∧
          (∀ j, j < 16 → (t.self.getV v)[j]! =
            BitVec.ofNat 32 (s.rd (r.loc + (r.head + j / 2) % 2 ^ r.n * 8) 8 / 2 ^ (32 * (j % 2)))) ∧
          (∀ j, j < 8 → t.isFull (r.loc + (r.head + j) % 2 ^ r.n * 8) = false) ∧
          t.self.ring q.toNat = some { r with head := (r.head + 8) % 2 ^ r.n })) ∧
    (s.self.ring q.toNat = none → s.canTrap →
      exec (.qpoll d q) s = .next (s.trapped s.self.pc
        { cause := 1, arg := 1, info0 := q.zeroExtend 64, info1 := w64 (insWord (.qpoll d q)).toNat }) ∧
      exec (.recvG d q b) s = .next (s.trapped s.self.pc
        { cause := 1, arg := 1, info0 := q.zeroExtend 64, info1 := w64 (insWord (.recvG d q b)).toNat }) ∧
      exec (.recvV v q b) s = .next (s.trapped s.self.pc
        { cause := 1, arg := 1, info0 := q.zeroExtend 64, info1 := w64 (insWord (.recvV v q b)).toNat }))

/-- CPY and CPY2 (R167, R168): with fewer than 16 copies outstanding, bounced ones among them, lengths below their limits,
a sound barrier and ranges within reach, a copy of the operands joins those in progress, on one of the die's eight
engines, and the strand goes on; a length or row count of 0 copies nothing; with 16 outstanding the strand stays. CPY
of 2^40 bytes or more, and CPY2 of a row length or row count of 2^32 or more, raise ILL; a copy to a ring that no longer
lies within the bounds raises PROT. BWAIT goes on when the barrier word holds zero or less, and parks with reason BWAIT
otherwise (R170). Bursts and ring words (R56, R61, R63, R165 to R169, R393). A burst read at the source is written at
a local destination, its bytes are counted off the barrier, and the copy advances; a ring copy writes its next word,
padded with zeros, at the tail, which becomes FULL, and the tail advances: while its ring is bound the ring's tail, and it
waits while the word there is FULL; after that its own tail, and it does not wait. A source whose next byte may not be read
bounces the copy, which is then pending at its strand. Four points are the model's choice: that a copy of length 0 makes no
range check (log entry 27), that a CPY2 whose destination is the base of a bound ring is a ring copy like a CPY, so that its
rows need only fit the ring (log entry 117), that bounced copies count among the 16 (log entry 120), and that a CPY2 with
both numbers too large names its row length (log entry 128). -/
def Obligations.CopiesAndBarriers : Prop :=
  (∀ (s t : State) (d a b x : BitVec 6) (bar : Option (Word × Nat)) (p : Place),
    let len := (s.getG b).toNat
    let rows := (s.getG (b + 1#6)).toNat
    let free : Prop := ((s.work.copies.filter (fun c => c.uid == s.self.id.uid)).length < 16)
    let next : State := s.wentTo (s.self.pc + 4#64)
    let issued (is2 : Bool) (rows : Nat) (ss ds : Word) (u : State) : Prop := ∃ c,
      u = { next with fresh := s.fresh + 1, work := { s.work with copies := s.work.copies ++ [c] } } ∧
      c.cid = s.fresh ∧ c.engine < 8 ∧ c.uid = s.self.id.uid ∧ c.site = s.self.site ∧ c.is2 = is2 ∧ c.src = s.getG a ∧ c.dst = s.getG d ∧
      c.rowLen = len ∧ c.off = 0 ∧ c.rows = rows ∧ c.sstride = ss ∧ c.dstride = ds ∧ c.bar = bar
    let reaches (ds : Word) (rows : Nat) : Prop :=
      (s.ringFor (s.getG d) = none → s.rangeFault (s.getG d) ds len rows = none) ∧
      ∀ r, s.ringFor (s.getG d) = some r → ∃ l, s.space s.self.site .barrier (s.getG d) (8 * 2 ^ r.2.2.1) = .ok l
    (free → s.barrierAt x = .ok bar →
      (len < 2 ^ 40 → len ≠ 0 → s.rangeFault (s.getG a) 0#64 len 1 = none → reaches 0#64 1 →
        ∃ u, exec (.cpy d a b x) s = .next u ∧ issued false 1 0#64 0#64 u) ∧
      (len = 0 → exec (.cpy d a b x) s = .next next) ∧
      (b.toNat ≤ 60 → len < 2 ^ 32 → rows < 2 ^ 32 →
        (len ≠ 0 → rows ≠ 0 → s.rangeFault (s.getG a) (s.getG (b + 2#6)) len rows = none → reaches (s.getG (b + 3#6)) rows →
          ∃ u, exec (.cpy2 d a b x) s = .next u ∧ issued true rows (s.getG (b + 2#6)) (s.getG (b + 3#6)) u) ∧
        (len = 0 ∨ rows = 0 → exec (.cpy2 d a b x) s = .next next)) ∧
      (len < 2 ^ 40 → len ≠ 0 → s.rangeFault (s.getG a) 0#64 len 1 = none → s.canTrap → ∀ r e, s.ringFor (s.getG d) = some r →
        s.space s.self.site .barrier (s.getG d) (8 * 2 ^ r.2.2.1) = .error e →
        exec (.cpy d a b x) s = .next (s.trapped s.self.pc { cause := 5, info0 := s.getG d, info2 := w64 e }))) ∧
    (free → s.canTrap →
      (2 ^ 40 ≤ len → exec (.cpy d a b x) s = .next (s.trapped s.self.pc
        { cause := 1, arg := 1, info0 := s.getG b, info1 := w64 (insWord (.cpy d a b x)).toNat })) ∧
      (b.toNat ≤ 60 → 2 ^ 32 ≤ len ∨ 2 ^ 32 ≤ rows → exec (.cpy2 d a b x) s = .next (s.trapped s.self.pc
        { cause := 1, arg := 1, info0 := if 2 ^ 32 ≤ len then s.getG b else s.getG (b + 1#6)
          info1 := w64 (insWord (.cpy2 d a b x)).toNat }))) ∧
    (¬ free → exec (.cpy d a b x) s = .next s ∧ exec (.cpy2 d a b x) s = .next s) ∧
    (s.check s.self.site .barrier .load 8 8 [(0, s.getG a)] = (.ok [(0, s.getG a, p)], t) → t.isPoisoned p.loc = false →
      ((w64 (t.rd p.loc 8)).toInt ≤ 0 → exec (.bwait a) s = .next (t.wentTo (t.self.pc + 4#64))) ∧
      (0 < (w64 (t.rd p.loc 8)).toInt → exec (.bwait a) s = .next { t with self := { t.self with
        st := .parked, ctl := { t.self.ctl with parkCode := 7#4 }, waits := t.parkWaits
        park := { reason := .bwait, operand := s.getG a, since := t.cycle, loc := p.loc } } }))) ∧
  (∀ (s s' : State) (cid : Nat) (c : Copy) (bs : List (BitVec 8)), s.copy? cid = some c →
    s.admits c.site.part c.site.die 4 = true → s'.memOk → (s'.part c.site.part).budget[4]?.getD none = none →
    let src := c.src + w64 c.off
    let dst := c.dst + w64 c.off
    let l := c.site.localLoc dst
    let moved (t : State) : Prop := if (c.advance bs.length).rows = 0 then ∀ x ∈ t.work.copies, x.cid ≠ cid
      else c.advance bs.length ∈ t.work.copies
    (c.ring = none → c.sent = 0 → c.bytes = [] → s.readBurst c src c.burst = (.bytes bs, s') → dst.toNat / 2 ^ 60 ≠ 0 →
      s'.dstStop l bs.length false = none → s'.work.copies = s.work.copies →
      (c.bar = none → Does (.copyBurst cid) s (fun t => t.rdBytes l bs.length = bs ∧ SameBytesBut l bs.length s' t ∧ moved t)) ∧
      (∀ a b, c.bar = some (a, b) → (b + 8 ≤ l ∨ l + bs.length ≤ b) → Does (.copyBurst cid) s (fun t =>
        t.rdBytes l bs.length = bs ∧ moved t ∧
        t.rd b 8 = (BitVec.ofNat 64 (s'.rd b 8) - w64 bs.length).toNat))) ∧
    (∀ q loc n waits tail0, c.ring = some (q, loc, n, waits, tail0) → c.bytes = [] →
      min 8 (c.rowLen - c.off) ≤ pageRest src → bs.length ≤ 8 → loc % 8 = 0 → s'.m.empties.Nodup → s'.work.copies = s.work.copies →
      s.readSrc c src (min 8 (c.rowLen - c.off)) = (.bytes bs, s') →
      let w (tail : Nat) : Nat := loc + 8 * tail
      let apart (tail : Nat) : Prop := ∀ a b, c.bar = some (a, b) → b + 8 ≤ w tail ∨ w tail + 8 ≤ b
      let wrote (tail : Nat) (t : State) : Prop :=
        t.rdBytes (w tail) 8 = bs ++ List.replicate (8 - bs.length) 0#8 ∧ t.isFull (w tail) = true ∧
        (c.bar = none → SameBytesBut (w tail) 8 s' t) ∧
        ∀ a b, c.bar = some (a, b) → t.rd b 8 = (BitVec.ofNat 64 (s'.rd b 8) - w64 bs.length).toNat
      (waits = false → apart tail0 → Does (.copyRingWordWrite cid) s (fun t => wrote tail0 t ∧
        if (c.advance bs.length).rows = 0 then ∀ x ∈ t.work.copies, x.cid ≠ cid
        else { c.advance bs.length with ring := some (q, loc, n, false, (tail0 + 1) % 2 ^ n) } ∈ t.work.copies)) ∧
      (∀ x r, waits = true → s.strand? c.uid = some x → x.ring q = some r →
        (s.isFull (w r.tail) = true → exec (.copyRingWordWrite cid) s = .next s) ∧
        (s.isFull (w r.tail) = false → apart r.tail → Does (.copyRingWordWrite cid) s (fun t => wrote r.tail t ∧ moved t ∧
          ∃ y, t.strand? c.uid = some y ∧ y.ring q = some { r with tail := (r.tail + 1) % 2 ^ n })))) ∧
    (∀ t, c.ring = none → c.sent = 0 → c.bytes = [] → s.readSrc c src c.burst = (.stop src, s') → s'.strand? c.uid = some t →
      Does (.copyBurst cid) s (fun u => u.m = s'.m ∧ ∃ x d, u.strand? c.uid = some x ∧ x.waits.deferred = t.waits.deferred ++ [d] ∧
        d.isCopy = true ∧ bits d.tcause 7 0 = 17 ∧ d.tinfo0 = src ∧ d.tinfo1 = (if c.is2 = true then c.src else src))))

/-- SPAWN (R25, R181): while the launch has fewer live strands than it declares, a strand joins the queue of its cluster
with its pc at g[a], U mode, g1 and g2 as R181 says, every other register zero and the control registers of R95; a
misaligned entry raises ALIGN, a full launch QOVF that names the cluster (the strand's own for the core and cluster
forms, the named one, the one with the most free slots for the die form), and SPAWN into a cluster beyond 63 ILL, before
its entry is looked at, which is the model's choice (log entry 128). -/
def Obligations.Spawning : Prop :=
  ∀ (s : State) (d a b : BitVec 6) (l : Launch) (i : Instr),
    let me := s.self
    let entry := s.getG a
    let win := (s.part me.id.part).dies[me.id.die]?.getD {}
    let made (cluster : Nat) (bound : Bool) (i : Instr) : Prop := ∃ t u, exec i s = .next u ∧
      u = { s.wentTo (me.pc + 4#64) with others := s.others ++ [t], fresh := s.fresh + 1 } ∧
      t.st = .queued ∧ t.pc = entry ∧ t.id.die = me.id.die ∧ t.id.cluster = cluster ∧ t.id.coreBound = bound ∧
      (bound = true → t.id.core = me.id.core) ∧ t.id.ctx = me.id.ctx ∧ t.id.part = me.id.part ∧ t.id.sid = none ∧
      t.getG 1#6 = s.getG b ∧ t.getG 2#6 = w64 me.sidNat ∧ (∀ r : BitVec 6, r ≠ 1#6 → r ≠ 2#6 → t.getG r = 0#64) ∧
      t.v = Vector.replicate 16 (Vector.replicate 16 0#32) ∧ t.k = Vector.replicate 8 0#16 ∧
      t.q = { q0max := l.kernel.q0 } ∧
      t.ctl = { tvec := l.tvec &&& ~~~3#64, asid := BitVec.ofNat 9 l.asid, ptb := l.ptb &&& 0x000FFFFFFFFFF000#64
                spbase := w64 (win.spb * 2 ^ 16), splim := w64 (win.spl * 2 ^ 16)
                swbase := w64 (win.swb * 2 ^ 20), swlim := w64 (win.swl * 2 ^ 20) }
    (s.launchOf me.id.ctx = some l → entry.toNat % 4 = 0 → s.liveOf me.id.ctx < l.kernel.max →
      made me.id.cluster true (.spawnCore a b) ∧ made me.id.cluster false (.spawnCluster a b) ∧
      ((s.getG d).toNat < 64 → made (s.getG d).toNat false (.spawnNamed d a b)) ∧
      (∃ c, c < 64 ∧ made c false (.spawnDie a b) ∧
        ∀ c', c' < 64 → (s.cluster me.id.die c').failed = false → s.freeSlots me.id.die c' ≤ s.freeSlots me.id.die c)) ∧
    (s.canTrap → i = .spawnCore a b ∨ i = .spawnCluster a b ∨ i = .spawnDie a b ∨ i = .spawnNamed d a b ∧ (s.getG d).toNat < 64 →
      entry.toNat % 4 ≠ 0 → exec i s = .next (s.trapped me.pc { cause := 3, info0 := entry })) ∧
    (s.canTrap → entry.toNat % 4 = 0 → s.launchOf me.id.ctx = some l → l.kernel.max ≤ s.liveOf me.id.ctx →
      let full (i : Instr) (c : Nat) : Prop := exec i s = .next (s.trapped me.pc { cause := 7, info0 := w64 c, info1 := 1#64 })
      full (.spawnCore a b) me.id.cluster ∧ full (.spawnCluster a b) me.id.cluster ∧
      ((s.getG d).toNat < 64 → full (.spawnNamed d a b) (s.getG d).toNat) ∧
      ∃ c, c < 64 ∧ full (.spawnDie a b) c ∧
        ∀ c', c' < 64 → (s.cluster me.id.die c').failed = false → s.freeSlots me.id.die c' ≤ s.freeSlots me.id.die c) ∧

    (s.canTrap → 64 ≤ (s.getG d).toNat → exec (.spawnNamed d a b) s = .next (s.trapped me.pc
      { cause := 1, arg := 1, info0 := s.getG d, info1 := w64 (insWord (.spawnNamed d a b)).toNat }))

/-- EXIT retires the strand and drops the messages of its q0 (R30, R182), after its remote stores are acknowledged (R441);
memory stays as it was, but that spilled messages of other strands may move in their TCM (R46); YIELD changes nothing
but the pc (R183); TWAIT goes on at its deadline and parks with reason TIME before (R184). FENCE, PREF, CWB and CINV
complete and change nothing but the pc (R160, R161); a FENCE at DOMAIN scope that orders earlier stores, or earlier loads
before later stores, which it makes a release, is held while the stores to other modules that its partition had
outstanding are unacknowledged (R316, R318, R441), and its hold ends with it. -/
def Obligations.ExitYieldWaitAndFences : Prop :=
  (∀ (s : State) (a : BitVec 6) (die lid : Nat),
    (s.unacked s.self.id.uid = true → exec .exit s = .next s) ∧
    (s.unacked s.self.id.uid = false → ∃ t, exec .exit s = .next t ∧ t.self.st = .retired ∧ t.self.q = {} ∧
      t.self.live = false ∧ t.self.g = s.self.g ∧
      ((∀ x ∈ s.all, x.q.q0.length ≤ 8) → t.m.mem = s.m.mem) ∧
      (s.self.id.ctx = .launch die lid → ∀ l, s.launch? die lid = some l → ∃ l', t.launch? die lid = some l' ∧
        l'.drops = min (l.drops + s.self.q.q0.length) 4294967295)) ∧
    exec .yield s = .next (s.wentTo (s.self.pc + 4#64)) ∧
    ((s.getG a).toNat ≤ s.plant.time.toNat → exec (.twait a) s = .next (s.wentTo (s.self.pc + 4#64))) ∧
    (s.plant.time.toNat < (s.getG a).toNat → exec (.twait a) s = .next { s with self := { s.self with
      st := .parked, ctl := { s.self.ctl with parkCode := 9#4 }, waits := s.parkWaits
      park := { reason := .time, operand := s.getG a, since := s.cycle } } })) ∧
  (∀ (s : State) (a : BitVec 6) (c : BitVec 3) (m : BitVec 4),
    let done : Out := .next (s.wentTo (s.self.pc + 4#64))
    exec (.pref a) s = done ∧ exec (.cwb a) s = done ∧ exec (.cinv a) s = done ∧
    let waits (hs : List Hold) : Strand := { s.self with waits := { s.self.waits with holds := hs } }
    (m.extractLsb' 1 3 = 0#3 → exec (.fence c m) s = done) ∧
    (m.extractLsb' 1 3 ≠ 0#3 → c ≠ 5#3 ∨ s.holdOver s.self.site s.releaseHold = true →
      exec (.fence c m) s = .next { s with self := { waits [] with pc := s.self.pc + 4#64 } }) ∧
    (m.extractLsb' 1 3 ≠ 0#3 → c = 5#3 → s.holdOver s.self.site s.releaseHold = false →
      exec (.fence c m) s = .next { s with self := waits [s.releaseHold] }))

/-- The cell instructions at a cell of this module (R186 to R189): CSUS writes the record with the issuer's SID as CREATOR
and makes the cell CHRYSALIS, or raises CELLBUSY at an ECLOSING one; CFRC changes no cell but a CHRYSALIS one, which
it makes ECLOSING, or POISON when its record names no evaluator, and leaves as it is when no entry is free, and which it
waits for while a checked store of another module is still to come to the cell, which is the model's choice (log entry 65); CFIL, CCAN
and CCAN.p by the evaluator of an ECLOSING cell end the eclosion with VALUE, CHRYSALIS and POISON, and otherwise raise
CELLBUSY; CTAG reads the tag. A CFIL whose registers go past g63 raises ILL (R424); that n stands in TINFO0 then is the
model's choice (log entry 121). -/
def Obligations.CellInstructions : Prop :=
  ∀ (s t₀ : State) (d a b n : BitVec 6) (p : Place) (e : Eclosion),
    let va := s.getG a
    let ok (acc : Acc) : Prop := s.check s.self.site .globalOnly acc 32 32 [(0, va)] = (.ok [(0, va, p)], t₀)
    let t : State := t₀.underKeys [(0, va, p)]
    let pa := p.loc
    let done (u : State) : State := u.wentTo (u.self.pc + 4#64)
    let busy (i : Instr) (tag : Nat) : Prop := t.canTrap →
      exec i s = .next (t.trapped t.self.pc { cause := 9, info0 := va, info1 := w64 tag })
    pa % 32 = 0 → t.memOk → p.remote = false → t.isPoisoned pa = false →
    (ok .csus → b.toNat ≤ 60 →
      (t.tag pa ≠ .eclosing → ∃ u, exec (.csus a b) s = .next (done u) ∧ u.tag pa = .chrysalis ∧ SameBytesBut pa 32 t u ∧
        w64 (u.rd pa 8) = s.getG b ∧ w64 (u.rd (pa + 8) 8) = s.getG (b + 1#6) ∧
        w64 (u.rd (pa + 16) 8) = (s.getG (b + 2#6) &&& 0xFFFFFFFF000003FF#64) ||| w64 (2 ^ 16 * s.self.sidNat) ∧
        w64 (u.rd (pa + 24) 8) = s.getG (b + 3#6) ∧ u.self = t.self) ∧
      (t.tag pa = .eclosing → busy (.csus a b) 2)) ∧
    (ok .cellRead →
      exec (.ctag d a) s = .next ((t.wrote d (w64 (match t.tag pa with
        | .value => 0 | .chrysalis => 1 | .eclosing => 2 | .poison => 3))).markBusy [.g d]) ∧
      (t.tag pa ≠ .chrysalis → exec (.cfrc a) s = .next (done t)) ∧
      (t.tag pa = .chrysalis → t.cellHeld pa = true → exec (.cfrc a) s = .next t) ∧
      (t.tag pa = .chrysalis → t.cellHeld pa = false → ∃ u, exec (.cfrc a) s = .next (done u) ∧ { u.self with park := t.self.park } = t.self ∧
        u.tag pa = (if t.entryInvalid s.self.site false (w64 (t.rd pa 8)) (w64 (t.rd (pa + 16) 8)) then .poison
          else if t.sliceFull pa && decide (t.overflowCap s.self.id.part ≤ t.overflowUsed s.self.id.part) then .chrysalis
          else .eclosing)) ∧
      (t.tag pa = .eclosing → t.eclosionOf pa = some e → e.evaluator = .strand s.self.id.uid →
        (∃ u, exec (.ccan a) s = .next (done u) ∧ u.tag pa = .chrysalis ∧ SameBytes t u ∧ u.self.pc = t.self.pc) ∧
        (∃ u, exec (.ccanP a) s = .next (done u) ∧ u.tag pa = .poison ∧ SameBytes t u ∧ u.self.pc = t.self.pc) ∧
        (1 ≤ n.toNat → n.toNat ≤ 4 → b.toNat + n.toNat ≤ 64 →
          ∃ u, exec (.cfil n a b) s = .next (done u) ∧ u.tag pa = .value ∧ SameBytesBut pa 32 t u ∧ u.self.pc = t.self.pc ∧
            ∀ j, j < 4 → w64 (u.rd (pa + 8 * j) 8) = if j < n.toNat then s.getG (b + BitVec.ofNat 6 j) else 0#64)) ∧
      (∀ i, i = .ccan a ∨ i = .ccanP a ∨ (i = .cfil n a b ∧ b.toNat + n.toNat ≤ 64) →
        (t.tag pa ≠ .eclosing → busy i (match t.tag pa with
          | .value => 0 | .chrysalis => 1 | .eclosing => 2 | .poison => 3)) ∧
        (t.tag pa = .eclosing → t.eclosionOf pa = some e → e.evaluator ≠ .strand s.self.id.uid → busy i 2))) ∧
    (64 < b.toNat + n.toNat → s.canTrap → exec (.cfil n a b) s = .next (s.trapped s.self.pc
      { cause := 1, arg := 1, info0 := w64 n.toNat, info1 := w64 (insWord (.cfil n a b)).toNat }))

/-- SERVE (R171): with a bound handle of the right argument count and a region of its shape reserved in the cluster, a
packet of the arguments joins the cluster's and the strand parks with reason SERVE; an unbound handle, a wrong count and
results that would go past g63 raise ILL, and without such a region SERVE raises QOVF of kind 3. That the ILL of a wrong
count or of results past g63 has the handle in TINFO0 too is the model's choice (log entry 63). -/
def Obligations.Serving : Prop :=
  ∀ (s : State) (d a : BitVec 6) (h : BitVec 4) (n : BitVec 8) (l : Launch) (v : Server) (im : Image),
    let me := s.self
    s.launchOf me.id.ctx = some l →
    (l.kernel.servers.getD h.toNat none = some v → n.toNat = v.args → d.toNat + v.res ≤ 64 →
      s.frondOf l v.frond = some im → l.reserved me.id.cluster im.shape ≠ 0 → l.die = me.id.die →
      ∃ t p, exec (.serve d a h n) s = .next t ∧ t.work.packets = s.work.packets ++ [p] ∧ p.caller = .strand me.id.uid ∧
        p.args = (List.range n.toNat).map (fun i => s.getGn (a.toNat + i)) ∧ p.dst = d.toNat ∧ p.res = v.res ∧
        p.cfg = l.cfgOf v.frond ∧ p.result = none ∧ p.poison = none ∧ p.region = none ∧
        t.self.st = .parked ∧ t.self.park.reason = .serve ∧ t.self.pc = me.pc ∧ t.self.g = me.g ∧ t.m = s.m) ∧
    (l.kernel.servers.getD h.toNat none = none ∨
        (l.kernel.servers.getD h.toNat none = some v ∧ (n.toNat ≠ v.args ∨ 64 < d.toNat + v.res)) →
      s.canTrap → exec (.serve d a h n) s = .next (s.trapped me.pc
        { cause := 1, arg := 1, info0 := h.zeroExtend 64, info1 := w64 (insWord (.serve d a h n)).toNat })) ∧
    (l.kernel.servers.getD h.toNat none = some v → n.toNat = v.args → d.toNat + v.res ≤ 64 → s.frondOf l v.frond = some im →
      l.reserved me.id.cluster im.shape = 0 ∨ l.die ≠ me.id.die → s.canTrap → exec (.serve d a h n) s =
        .next (s.trapped me.pc { cause := 7, info0 := w64 im.shape.code, info1 := 3#64 }))

/-- FRLD (R175): a streamed image of the launch's graph, of the shape that the word names, in a cluster where the launch
has an unused reservation of that shape and an entry is free, makes a LOADED residency owned by the strand and writes
its handle; SHAPE 3, a reserved bit and a SHAPE other than the image's raise ILL, an id of no such configuration PROT with
reason 6, no unused reservation QOVF of kind 3 and no free entry QOVF of kind 4. The commands on a residency (R174, R176
to R179, R344): FRBIND and ARGW of a LOADED residency set a declared binding and a constant; of a RUNNING one the binding
is held pending, marked with whether an FRBAR has completed since the plane counter advanced, and the constant goes out
over the argument network, or is kept pending while the residency has no region; a binding that is not declared and a
position that names no CE of the shape raise ILL. FRGO starts a LOADED one and raises ILL on another. FRBAR completes at
once on a LOADED or DRAINED one, parks on a RUNNING one until a plane of it has ended, and resumes a FAULTED one with its
arcs empty, or raises ILL where a resumption cannot restore the plane or SKIP is set for a kernel that does not allow it.
FRWAIT frees it with the fault trap that still awaits its owner, parks while it runs, and stays on a DRAINED or FAULTED
one whose stores to other modules are unacknowledged (R441). A handle that names no residency of the strand raises ILL
with the handle in TINFO0. Three points are the model's choice: that a residency freed by FRWAIT takes the fault trap that
still awaits its owner with it (log entry 113), that FRWAIT stays without parking in that case (log entry 69), and that an FRBAR that is issued again compares with the plane counter at its first issue (log entry 118). -/
def Obligations.Residencies : Prop :=
  (∀ (s : State) (d a b : BitVec 6) (l : Launch) (im : Image) (en : Nat),
    let me := s.self
    let x := s.getG b
    let sound : Prop := x.toNat % 4 ≠ 3 ∧ x.toNat / 4 % 4 = 0 ∧ x.toNat / 64 % 4 = 0 ∧ x.toNat / 65536 = 0
    (sound → s.launchOf me.id.ctx = some l → s.streamImage l me.id.cluster (s.getG a) = some im →
      im.shape.code = x.toNat % 4 → l.die = me.id.die →
      (s.work.residencies.filter (fun y => y.die == me.id.die && y.cluster == me.id.cluster && y.launch == (l.die, l.lid) &&
        y.shape == im.shape)).length < l.reserved me.id.cluster im.shape →
      en < 16 → s.residency? me.id.die me.id.cluster en = none →
      (∀ k, k < en → s.residency? me.id.die me.id.cluster k ≠ none) →
      ∃ t y, exec (.frld d a b) s = .next t ∧ t.work.residencies = s.work.residencies ++ [y] ∧ y.state = .loaded ∧
        y.entry = en ∧ y.owner = me.id.uid ∧ y.cfg = (s.getG a).toNat ∧ y.prio = x.toNat / 16 % 4 ∧
        y.migr = x.toNat / 256 % 256 ∧ t.self.pc = me.pc + 4#64 ∧
        t.self.g = (s.wrote d (w64 (en + 16 * (s.nextGen me.id.die me.id.cluster en % 16)))).self.g) ∧
    (¬ sound → s.canTrap → exec (.frld d a b) s = .next (s.trapped me.pc
      { cause := 1, arg := 1, info0 := x, info1 := w64 (insWord (.frld d a b)).toNat })) ∧
    (sound → s.launchOf me.id.ctx = some l → s.streamImage l me.id.cluster (s.getG a) = none → s.canTrap →
      exec (.frld d a b) s = .next (s.trapped me.pc { cause := 5, info0 := s.getG a, info2 := 6#64 })) ∧
    (sound → s.launchOf me.id.ctx = some l → s.streamImage l me.id.cluster (s.getG a) = some im → s.canTrap →
      (im.shape.code ≠ x.toNat % 4 → exec (.frld d a b) s = .next (s.trapped me.pc
        { cause := 1, arg := 1, info0 := x, info1 := w64 (insWord (.frld d a b)).toNat })) ∧
      (im.shape.code = x.toNat % 4 →
        let used : Nat := (s.work.residencies.filter (fun y => y.die == me.id.die && y.cluster == me.id.cluster &&
          y.launch == (l.die, l.lid) && y.shape == im.shape)).length
        (l.die ≠ me.id.die ∨ l.reserved me.id.cluster im.shape ≤ used →
          exec (.frld d a b) s = .next (s.trapped me.pc { cause := 7, info0 := w64 im.shape.code, info1 := 3#64 })) ∧
        (l.die = me.id.die → used < l.reserved me.id.cluster im.shape →
          (∀ k, k < 16 → s.residency? me.id.die me.id.cluster k ≠ none) →
          exec (.frld d a b) s = .next (s.trapped me.pc { cause := 7, info0 := w64 me.id.cluster, info1 := 4#64 }))))) ∧
  (∀ (s : State) (d a b : BitVec 6) (y : Residency) (i : Instr),
    let me := s.self
    let done (u : State) : State := u.wentTo (u.self.pc + 4#64)
    let replaced (z : Residency) : State := s.mapResidency y.die y.cluster y.entry (fun _ => z)
    let parked (u : State) : State := { u with self := { u.self with
      st := .parked, ctl := { u.self.ctl with parkCode := 8#4 }, waits := u.parkWaits
      park := { reason := .frwait, operand := s.getG a, since := s.cycle } } }
    let x := s.getG d
    let bind : Nat := x.toNat
    let placed : Prop := 2 ≤ x.toNat % 16 ∧ x.toNat % 16 ≤ 9 ∧ x.toNat / 128 % 2 = 0 ∧ x.toNat / 512 = 0 ∧
      x.toNat / 16 % 8 < y.shape.rows
    (s.owned (s.getG a) = some y →
      (y.state = .loaded → bind ≤ 15 → y.image.declares bind = true →
        exec (.frbind d a b) s = .next (done (replaced { y with binds := setBind y.binds bind (s.getG b) }))) ∧
      (y.state = .loaded → placed → ∃ z, exec (.argw d a b) s = .next (done (replaced z)) ∧
        (x.toNat / 16 % 8, x.toNat % 16, x.getLsbD 8, (s.getG b).setWidth 32) ∈ z.consts ∧ z = { y with consts := z.consts }) ∧
      (y.state = .running → bind ≤ 15 → y.image.declares bind = true → exec (.frbind d a b) s = .next (done
        (replaced { y with pends := y.pends.filter (fun p => p.1 != bind) ++ [(bind, s.getG b, y.frbar)] }))) ∧
      (15 < bind ∨ y.image.declares bind = false → s.canTrap → exec (.frbind d a b) s = .next (s.trapped me.pc
        { cause := 1, arg := 1, info0 := x, info1 := w64 (insWord (.frbind d a b)).toNat })) ∧
      (y.state = .running → placed →
        let c : Nat × Nat × Bool × BitVec 32 := (x.toNat / 16 % 8, x.toNat % 16, x.getLsbD 8, (s.getG b).setWidth 32)
        (y.region = none → exec (.argw d a b) s = .next (done (replaced { y with argPend := y.argPend ++ [c] }))) ∧
        (∀ rid r, y.region = some rid → s.region? rid = some r →
          exec (.argw d a b) s = .next (done (s.setRegion { r with argNet := r.argNet ++ [c] })))) ∧
      (¬ placed → s.canTrap → exec (.argw d a b) s = .next (s.trapped me.pc
        { cause := 1, arg := 1, info0 := x, info1 := w64 (insWord (.argw d a b)).toNat })) ∧
      (y.state = .faulted →
        let skip : Bool := (s.rd (s.recordLoc y) 8).testBit 43
        let refused : Prop := y.image.noResume y.faultPlane = true ∨ (skip = true ∧ y.image.indep = false)
        let z : Residency := { y.barred with state := .running, record := [] }
        (refused → s.canTrap → exec (.frbar a) s = .next (s.trapped me.pc
          { cause := 1, arg := 1, info0 := s.getG a, info1 := w64 (insWord (.frbar a)).toNat })) ∧
        (¬ refused → y.region = none → exec (.frbar a) s = .next (done
          { replaced { z with waiting := some (s.cycle, s.fresh) } with fresh := s.fresh + 1 })) ∧
        (¬ refused → ∀ rid r, y.region = some rid → s.region? rid = some r →
          ∃ r', exec (.frbar a) s = .next (done ((replaced z).setRegion r')) ∧ r'.rid = r.rid ∧ r'.phase = .running ∧
            r'.faults = [] ∧ (∀ c ∈ r'.arcs, c.queue = []) ∧ r'.elems.length = r.elems.length)) ∧
      (y.state = .loaded → exec (.frgo a) s = .next (done { replaced { y with state := .running, waiting := some (s.cycle, s.fresh), goNo := s.fresh }
        with fresh := s.fresh + 1 })) ∧
      (y.state ≠ .loaded → s.canTrap → exec (.frgo a) s = .next (s.trapped me.pc
        { cause := 1, arg := 1, info0 := s.getG a, info1 := w64 (insWord (.frgo a)).toNat })) ∧
      (y.state = .loaded ∨ y.state = .drained → ∃ z, exec (.frbar a) s = .next (done (replaced z)) ∧ z.state = y.state) ∧
      (y.state = .running → y.barAt = none →
        exec (.frbar a) s = .next (parked (replaced { y with barAt := some y.planes }))) ∧
      (∀ n, y.state = .running → y.barAt = some n →
        (n < y.planes → exec (.frbar a) s = .next (done (replaced { y with barAt := none }))) ∧
        (y.planes ≤ n → exec (.frbar a) s = .next (parked s))) ∧
      (y.state = .running → exec (.frwait a) s = .next (parked s)) ∧
      (y.state = .drained ∨ y.state = .faulted → y.region.any s.storesOut = true → exec (.frwait a) s = .next s) ∧
      (y.state = .loaded ∨ ((y.state = .drained ∨ y.state = .faulted) ∧ y.region.any s.storesOut = false) →
        ∃ u, exec (.frwait a) s = .next (done u) ∧ u.residency? y.die y.cluster y.entry = none ∧
          u.self = { s.self with waits := { s.self.waits with
            deferred := s.self.waits.deferred.filter (fun q => q.isCopy || q.who != y.entry) } } ∧
          u.m.mem = s.m.mem ∧ ∀ rid, y.region = some rid → ∀ r, r ∈ u.work.regions → r.rid ≠ rid)) ∧
    (s.owned (s.getG a) = none → s.canTrap →
      i = .frbind d a b ∨ i = .argw d a b ∨ i = .frgo a ∨ i = .frbar a ∨ i = .frwait a →
      exec i s = .next (s.trapped me.pc { cause := 1, arg := 1, info0 := s.getG a, info1 := w64 (insWord i).toNat })))

/-- What ends a strand's waits (R15 to R17, R39, R122, R184, R303, R333, R334): a result lands and its registers await no
more; a parked strand whose condition is true becomes ACTIVE at its parking instruction; FELIM raises FEWAIT and the
cell-wait limit CELLTMO; a TWAIT at its deadline goes on; a deferred trap is taken with its record, before a precise trap
of the same boundary; a missed fetch takes place again; a word that is no instruction raises ILL; a parity error stops an ACTIVE strand. Slots (R15, R23,
R24, R26, R27, R29, R384, R385, R394): the oldest entry of a cluster's queue that a core may take enters the lowest
free slot of the core that has one for it, ACTIVE, with a SID; a strand that can be saved leaves its slot with all its
registers and joins the tail of the queue, and one that cannot yet is marked for its boundary; for an entry that has
waited 2^17 cycles while no slot is free for it a victim is saved, a PARKED one before an ACTIVE one; the SAVED follower of a
gang waits with its leader, and gets none. Four points are the
model's choice: that a strand which cannot be saved yet is marked and saved at its boundary (log entry 124), the layout of
the spill area from which a saved strand's messages are taken (log entry 39), that a strand which enters a slot is ACTIVE at
its pc, so that one saved while parked tests its condition again (log entry 40), and that the event of a word that is no
instruction gives the trap that issuing it gives (log entry 100). -/
def Obligations.StrandEventsAndSlots : Prop :=
  (∀ (s : State) (uid : Nat) (t : Strand) (df : Deferred) (rest : List Deferred) (w w2 : BitVec 32), s.strand? uid = some t →
    let stays (u : State) : Prop := u.self.id = t.id ∧ SameRegisters t u.self ∧ u.m = s.m
    (s.self = t → Does (.resultLands uid) s (fun u => u.self.waits.busy = s.self.waits.busy.drop 1 ∧
      u.self.g = s.self.g ∧ u.self.pc = s.self.pc ∧ u.m = s.m)) ∧
    (t.st = .parked → t.park.woken = true → Does (.strandWake uid) s (fun u => u.self.st = .active ∧ u.self.pc = t.pc ∧
      u.self.ctl = t.ctl ∧ stays u)) ∧
    (s.felimOut t = true → t.ctl.itr = false → (s.seat uid).deferTaker = none → Does (.fewaitExpiry uid) s (fun u =>
      TookTrap t u.self t.pc 6 t.park.operand ∧ u.self.ctl.tinfo1 = w64 t.park.reason.code ∧ u.m = s.m)) ∧
    (t.parkedFor .time = true → t.park.operand.toNat ≤ s.plant.time.toNat → Does (.twaitDeadline uid) s (fun u =>
      u.self.st = .active ∧ u.self.pc = t.pc ∧ stays u)) ∧
    (s.cellOut t = true → t.ctl.itr = false → (s.seat uid).deferTaker = none → Does (.celltmoExpiry uid) s (fun u =>
      TookTrap t u.self t.pc 11 t.park.operand ∧ u.m = s.m ∧
      (t.park.far = none → ∀ e, e ∈ u.cells.eclosions → Waiter.strand uid ∉ e.waiters))) ∧
    (s.canDefer t = true → t.waits.deferred = df :: rest → Does (.deferredTrap uid) s (fun u =>
      u.self.pc = t.ctl.tvec ∧ u.self.ctl.tpc = t.pc ∧ u.self.ctl.tcause = df.tcause ∧ u.self.ctl.tinfo0 = df.tinfo0 ∧
      u.self.ctl.tinfo1 = df.tinfo1 ∧ u.self.ctl.tinfo2 = df.tinfo2 ∧ u.self.ctl.tinfo3 = df.tinfo3 ∧
      u.self.waits.deferred = rest ∧ SameRegisters t u.self ∧ u.m = s.m)) ∧
    (s.canDefer t = true → t.waits.deferred = df :: rest →
      ∀ i, i = .fewaitExpiry uid ∧ s.felimOut t = true ∨ i = .celltmoExpiry uid ∧ s.cellOut t = true →
        Does i s (fun u => u.self.pc = t.ctl.tvec ∧ u.self.ctl.tpc = t.pc ∧ u.self.ctl.tcause = df.tcause ∧
          u.self.waits.deferred = rest ∧ SameRegisters t u.self ∧ u.m = s.m)) ∧
    (t.st = .active → t.waits.fetchMiss = true → t.waits.remote = none → (s.seat uid).deferTaker = none → Does (.instructionFetch uid) s (fun u =>
      u.self.waits.fetchMiss = false ∧ u.self.id = t.id ∧ SameRegisters t u.self)) ∧
    (t.st = .active → t.id.part < 64 → Does (.registerParityError uid) s (fun u => u.self.st = .parked ∧
      u.self.park.reason = .stopped ∧ stays u ∧
      ∃ r, (u.fn t.id.part).reports = ((s.seat uid).fn t.id.part).reports ++ [r] ∧ bits r.word0 7 0 = 1)) ∧
    (s.self.ctl.itr = false → Does (.illegalInstruction w w2) s (fun u =>
      TookTrap s.self u.self s.self.pc 1 (w.zeroExtend 64) ∧ u.m = s.m))) ∧
  (∀ (s : State) (die cluster uid : Nat) (t v : Strand) (ts : List Strand) (core slot : Nat),
    let alive (u : State) (x : Strand) : Prop := ∃ y ∈ u.all, y.id.uid = x.id.uid ∧ SameRegisters x y ∧ y.pc = x.pc
    (s.queueOf die cluster = t :: ts → s.seatFor t = some (core, slot) → (s.all.map (·.id.uid)).Nodup →
      s.savedFollower t = none → t.st = .queued →
      Does (.strandPlacement die cluster) s (fun u => ∃ y ∈ u.all, y.id.uid = t.id.uid ∧ y.st = .active ∧ y.id.core = core ∧
        y.id.slot = slot ∧ y.id.sid.isSome = true ∧ y.pc = t.pc ∧ SameRegisters t y)) ∧
    (s.seatFor t = some (core, slot) → core < 16 ∧ slot < 8 ∧ s.slotFree t.id.uid t.id.die t.id.cluster core slot = true ∧
      s.coreTakes t core = true ∧ ∀ k, k < slot → s.savedFollower t = none → s.slotFree t.id.uid t.id.die t.id.cluster core k = false) ∧
    (s.strand? uid = some t → s.canSave t = true → s.gangMate t = none → (s.all.map (·.id.uid)).Nodup →
      Does (.strandSave uid) s (fun u => ((∀ x ∈ s.all, x.q.q0.length ≤ 8) → u.m = s.m) ∧ ∃ y ∈ u.all, y.id.uid = uid ∧
        y.st = .saved ∧ y.ctl = t.ctl ∧ y.pc = t.pc ∧ y.q = { t.q with q0 := s.heldMsgs t } ∧ SameRegisters t y ∧
        y.id.order = s.fresh)) ∧
    (s.strand? uid = some t → s.canSave t = false → t.resident = true → Does (.strandSave uid) s (fun u => u.m = s.m ∧
      ∃ y, u.strand? uid = some y ∧ y = { t with waits := { t.waits with saving := true } })) ∧
    (s.strand? uid = some t → t.waitsIn t.id.die t.id.cluster = true → t.id.queuedAt + 2 ^ 17 ≤ s.cycle →
      s.freeSlotFor t = none → (∀ l ∈ s.all, l.savedPair t = false) → s.victim t = some v → s.gangMate v = none → v.ctl.ganged = false → (s.all.map (·.id.uid)).Nodup →
      Does (.victimPreempt uid) s (fun u => alive u v ∧ alive u t ∧ v.id.enteredAt + 2 ^ 17 ≤ s.cycle ∧
        v.id.part = t.id.part ∧ (s.canSave v = true → ∃ y ∈ u.all, y.id.uid = v.id.uid ∧ y.st = .saved) ∧
        ∀ x ∈ s.all, x.st = .parked → s.longEnough x = true → x.id.die = t.id.die →
          x.id.cluster = t.id.cluster → x.id.part = t.id.part → s.coreTakes t x.id.core = true →
          s.mayUse t x.id.core x.id.slot = true → (x.id.core, x.id.slot) ∉ s.keptFor t → v.st = .parked)) ∧
    (s.strand? uid = some t → (∃ l ∈ s.all, l.savedPair t = true) → exec (.victimPreempt uid) s = .next s))

/-- Compute elements (R207, R226, R227, R229 to R234). An ordinary CE with data or NIL at every input fires: it consumes
them, inc at the end of its iteration, steps the counters and places at most one token; a program of one iadd to OUT
in I64 places the sum of its inputs' values; a generator fires without inputs, and ends its round at the level EOR
names; stops of one level at every input are consumed and passed on; EORs that agree on LAST at every input, with the
counters at 0, end the round and pass on. The end of an element's work (R207, R213): an element that has passed the
last EOR of its last plane, with DONE on every input that it reads, consumes them, places DONE on its outputs, and is
done; before it, that is EARLY and faults. Two points are the model's choice: that EARLY is raised as soon as DONE is
seen before the last EOR (log entry 70), and that DONE is taken at either parity (log entry 111). -/
def Obligations.ComputeElements : Prop :=
  (∀ (s : State) (r : Region) (e : Elem) (f : BitVec 256), s.mayFire r e f → bits f 3 0 = 0 → 2 ≤ e.col → e.col < 10 →
    let outs := outsOf e.col f
    let next : Elem := { e with ctr := ctrStep e.ctr (ceCnts f) }
    let sel : List Nat := (List.range 3).filter (fun i => ceIn f i != 0)
    (∀ hs : List (Nat × Token), ceEor f = 0 → hs.map (·.1) = sel → (∀ h ∈ hs, ceInput r e f h.1 = some h.2 ∧ h.2.kind ≤ 3) →
      ∃ e' put, Steps (.ceFire r.rid e.row e.col) s r e e'
        (ceTakes e f (hs.filter (fun h => h.1 != 2 || ceAck f == 0 || (ceAck f == 1 && wrapsAt e.ctr (ceCnts f) 0) ||
          (ceAck f != 1 && wrapsAt e.ctr (ceCnts f) (outermost (ceCnts f)))))).1 put ∧
        put.length ≤ 1 ∧ e'.ctr = next.ctr ∧ e'.par = e.par ∧ e'.round = e.round ∧ ∀ m ∈ put, m.tok.par = e.par) ∧
    (∀ a b, ceEor f = 0 → ceUcnt f = 1 → ceUop f 0 = 0x5770#16 → ceFmt f = 6 → ceSat f = false → ceIn f 0 ≠ 5 → ceIn f 1 ≠ 5 →
      ceIn f 2 = 0 → r.inp e (ceIn f 0) = some a → r.inp e (ceIn f 1) = some b → a.kind = 0 → b.kind = 0 →
      Steps (.ceFire r.rid e.row e.col) s r e next [ceIn f 0 - 1, ceIn f 1 - 1]
        (onPorts outs (e.tok 0 ((a.payload.truncate 64 : Word) + b.payload.truncate 64).toNat a.tag))) ∧
    (1 ≤ ceEor f → r.mayBegin e = true → ∃ e' put, Steps (.ceGeneratorFire r.rid e.row e.col) s r e e' [] put ∧
      put.length ≤ 2 ∧ e'.ctr = next.ctr ∧ (wrapsAt e.ctr (ceCnts f) (ceEor f - 1) = false → e'.par = e.par ∧ e'.round = e.round) ∧
      (wrapsAt e.ctr (ceCnts f) (ceEor f - 1) = true → e'.par = !e.par ∧ e'.round = e.round + 1 ∧
        (outs ≠ 0 → ∃ m, put.getLast? = some m ∧ m.mask = outs ∧ m.tok.kind = 5 ∧ m.tok.par = e.par))) ∧
    (∀ kind, ceEor f = 0 → sel ≠ [] → incHeld e f = false → 8 ≤ kind → kind < 15 →
      (∀ i ∈ sel, ∃ t, ceInput r e f i = some t ∧ t.kind = kind) → ∃ e', e'.ctr = e.ctr ∧
      Steps (.ceStopStep r.rid e.row e.col) s r e e' (sel.map (fun i => ceIn f i - 1)) (onPorts outs (e.tok kind))) ∧
    (∀ last, ceEor f = 0 → sel ≠ [] → isServed e.col f = false → (∀ c ∈ e.ctr, c = 0) →
      (∀ i ∈ sel, ∃ t, ceInput r e f i = some t ∧ t.kind = 5 ∧ t.last = last) →
      Steps (.roundBoundary r.rid e.row e.col) s r e ({ e with ce := { e.ce with sub := 0 } }.endRound last)
        (sel.map (fun i => ceIn f i - 1)) (e.eor outs last))) ∧
  (∀ (s : State) (r : Region) (e : Elem) (f : BitVec 256), s.stands r e f → xeRow e.row e.col = e.row → xeCol e.col = e.col →
    let ports := ((insOf e.col f).map (fun x => x - 1)).eraseDups
    let outs := outsOf e.col f
    ports ≠ [] → r.accepts e outs = true → State.doneCase r e f = .ok true →
    (e.atEnd = true → e.plane + 1 = r.image.nplanes →
      Steps (.elementDone r.rid e.row e.col) s r e { e with done := true } ports (onPorts outs (e.tok 15))) ∧
    (¬(e.atEnd = true ∧ e.plane + 1 = r.image.nplanes) → Does (.elementDone r.rid e.row e.col) s (fun t =>
      ∃ q, t.region? r.rid = some { r with faults := r.faults ++ [q] } ∧ q.cause = 13 ∧ q.fcode = 6 ∧ q.row = e.row ∧
        q.col = e.col)))

/-- Address generators and memory ports (R212, R214, R216, R226, R244 to R250, R304). An AFF places the address of its
counters; an IND makes an index token a REF; an LDS places what it reads, its own buffered stores over memory; an STS
buffers its store, and memory stays; an AMS performs its operation at once and places the old value; an access that
another module answered leaves the spill queue; one that waits longer for a cell than CELL_WAIT_LIMIT faults with
CELLTMO. Two points are the model's choice: that a 64-byte LDS with ROWOUT clear places a 512-bit VAL (log entry 110), and
that reads of other modules wait in the spill queue (log entry 62). -/
def Obligations.AddressGeneratorsAndPorts : Prop :=
  ∀ (s s' : State) (r : Region) (e : Elem) (f : BitVec 256) (a d : Token) (p : Place),
    let n := mpBytes f
    let va : Word := a.payload.truncate 64
    let outs := outsOf 0 f
    let s₁ : State := { s with fresh := s.fresh + 1 }
    let fits (op : Nat) : Prop := s.mayFire r e f ∧ e.col = 0 ∧ bits f 3 0 = 5 ∧ mpMode f = op ∧ mpAddr f ≠ 0 ∧
      r.inp e (mpAddr f) = some a ∧ a.isData = true ∧ mpCircuit r e f = none ∧ e.mp.spill = [] ∧ e.mp.rounds ≠ 2 ∧
      ordIn 0 f = 0 ∧ ordOut 0 f = 0
    (s.mayFire r e f → e.col = 1 → bits f 3 0 = 4 → agInd f = false → r.mayBegin e = true →
      let cnts := agCnts r e f
      let o := outermost cnts
      let ends := o == 0 || wrapsAt e.ctr cnts (o - 1)
      let last := wrapsAt e.ctr cnts o
      let next : Elem := { e with ctr := ctrStep e.ctr cnts }
      let at' : Word := r.binding e.plane (agBase f) + agOffset f + w64 (e.ctr.getD 0 0) * agStride f 0 +
        w64 (e.ctr.getD 1 0) * agStride f 1 + w64 (e.ctr.getD 2 0) * agStride f 2 + w64 (e.ctr.getD 3 0) * agStride f 3
      Steps (.agAffFire r.rid e.row) s r e (if ends then { next.endRound last with ctr := next.ctr } else next) []
        ({ mask := outsOf 1 f, tok := e.tok 2 at'.toNat } :: (if ends then e.eor (outsOf 1 f) last else []))) ∧
    (s.mayFire r e f → e.col = 1 → bits f 3 0 = 4 → agInd f = true → agIni f ≠ 0 → r.inp e (agIni f) = some a →
      (a.isData = true → Steps (.agIndFire r.rid e.row) s r e e [agIni f - 1] (onPorts (outsOf 1 f)
        (e.tok 2 (r.binding e.plane (agBase f) + agOffset f + va * agStride f 0).toNat a.tag))) ∧
      (a.kind = 3 ∨ a.isStop = true → Steps (.agIndFire r.rid e.row) s r e e [agIni f - 1]
        (onPorts (outsOf 1 f) (e.tok a.kind 0 a.tag)))) ∧
    (fits 0 → s₁.mpGo r e f (s.mpSite r a.tag) .load va n = (.go p, s') → p.remote = false →
      let x := leNat (overlayBytes (e.mp.win0 ++ e.mp.win1) va.toNat (s'.rdBytes p.loc n))
      Does (.mpLdsFire r.rid e.row) s (fun t => t.m = s'.m ∧ t.self = s'.self ∧ t.others = s'.others ∧
        ElementMoved s t r e e [mpAddr f - 1] (onPorts outs (e.tok 0 (if n = 64 then x else (loadExt n (mpZero f) x).toNat) a.tag)))) ∧
    (∀ e', fits 1 → r.inp e (mpData f) = some d → d.isData = true →
      s₁.mpGo r e f (s.mpSite r a.tag) .store va n = (.go p, s') →
      e.buffer false { addr := va, loc := p.loc, glob := p.glob, remote := p.remote, key := p.key
                       bytes := leBytes n d.payload.toNat, tag := a.tag } = some e' →
      Does (.mpStsFire r.rid e.row) s (fun t => t.m = s'.m ∧ t.self = s'.self ∧ t.others = s'.others ∧
        ElementMoved s t r e e' [mpAddr f - 1, mpData f - 1] [])) ∧
    (fits 2 → r.inp e (mpData f) = some d → d.isData = true → s'.memOk →
      s₁.mpGo r e f (s.mpSite r a.tag) .atomic va n = (.go p, s') → p.remote = false → (p.glob = true → s'.tag p.loc = .value) →
      let old := s'.rd p.loc n
      Does (.mpAmsFire r.rid e.row) s (fun t =>
        t.rd p.loc n = (atomicNew (mpAmo f) n old (d.payload.toNat % 256 ^ n) 0).1 % 256 ^ n ∧
        ElementMoved s t r e e [mpAddr f - 1, mpData f - 1] (onPorts outs (e.tok 0 (atomicOld (mpAmo f) n old).toNat a.tag)))) ∧
    (∀ q x, s.stands r e f → e.col = 0 → r.roomFor e f = true → e.mp.spill = [q] → q.op = 0 → q.onPage = false →
      q.onCell = none → q.answer = some x → ordOut 0 f = 0 → outs ≠ 0 →
      s.mpGo r e f (s.mpSite r q.tag) .load q.addr n (answered := true) = (.go p, s') →
      Does (.mpSpillComplete r.rid e.row 0) s (fun t => t.m = s'.m ∧
        ElementMoved s t r e { e with mp := { e.mp with spill := [] } } []
          (onPorts outs (e.tok 0 (mpValue f n (leNat (overlayBytes (e.mp.win0 ++ e.mp.win1) q.addr.toNat (leBytes n x.toNat)))) q.tag)))) ∧
    (∀ q since idx, s.stands r e f → e.col = 0 → e.mp.spill[idx]? = some q → q.op ≤ 2 ∨ q.plane = e.plane → q.onCell = some since →
      (s.part r.site.part).cellWait ≠ 0 → (s.part r.site.part).cellWait < s.cycle - since →
      Does (.mpCellWaitExpiry r.rid e.row idx) s (fun t => t.m = s.m ∧ ∃ g, t.region? r.rid = some { r with faults := r.faults ++ [g] } ∧
        g.cause = 11 ∧ g.detail = q.addr ∧ g.spilled = true ∧ g.row = e.row ∧ g.col = 0))

/-- Fibre elements off any ordering chain: a step of each mode (R253, R256, R263 to R272). SCAN of a counted level: a
parent REF begins the fibre of its children, as many as the binding says; a child places its number in the fibre and
its REF; after the last the fibre ends and its stop is held back. ISECT and UNION: of two CRDs the lower is consumed,
or both where they are equal, and placed where C0 asks for it, under ISECT only a common one; the REFs that follow are
consumed together and pass, one alone under UNION with NIL beside it and under ISECT not at all. REPT replaces an
entry by a REF of its constant, and keeps NIL. REDU adds an I64 entry to its group, and a stop of its level ends the
group of a count, which it places, with the rest of the stop. FILT passes an entry of A with its index where that of B
is not zero. EXPD places the entry of A whose index stands at B where the template's position has come to it. JOIN
passes an entry of A while it reads A. LVLW, once its port's checks have let the write into the window, writes a CRD
there and places the REF of its entry. CDROP passes a CRD and its companion, and drops them where that is NIL. Two points
are the model's choice: that the value inputs of FILT, REDU, EXPD and CDROP take any data kind (log entry 58), and that a
counted level's binding value is taken as it stands, none for 0 (log entry 130). -/
def Obligations.FibreElements : Prop :=
  ∀ (s s' : State) (r : Region) (e : Elem) (f : BitVec 256) (a b c : Token), s.mayFire r e f → e.col = 12 ∨ e.col = 13 →
    bits f 3 0 = 2 → ordIn e.col f = 0 → ordOut e.col f = 0 →
    let A := r.inp e (feIn f 0) = some a
    let B := r.inp e (feIn f 1) = some b
    let C := r.inp e (feIn f 2) = some c
    let on (i : Nat) (t : Token) : Elem := e.opened i (feDepth f) t
    let pa := fePort f 0
    let pb := fePort f 1
    let w := levelBytes f
    let one (t : Token) : List Emit := feEmit f (some t) none
    (feMode f = 0 → natBit (feC0 f) 1 = true →
      (feIn f 0 ≠ 0 → e.fe.scan = none → e.fe.held = false → A → a.kind = 2 →
        let m := (r.binding e.plane (feCrd f)).toNat
        let e1 := e.opened 0 (feDepth f - 1) a
        Steps (.feScanFire r.rid e.row e.col) s r e { e1 with fe := { e1.fe with
          scan := some (a.num * m, a.num * m + m, a.num * m), held := false, started := true, lastA := none } } [pa] []) ∧
      (∀ j z first, e.fe.scan = some (j, z, first) → j < z → feSorted f = false → natBit (feC0 f) 0 = false →
        Steps (.feScanFire r.rid e.row e.col) s r e { e with fe := { e.fe with scan := some (j + 1, z, first), lastA := some (j - first) } }
          [] (feEmit f (some (e.tok 1 (j - first))) (some (e.tok 2 j)))) ∧
      (∀ j z first, e.fe.scan = some (j, z, first) → z ≤ j → feIn f 0 ≠ 0 →
        Steps (.feScanFire r.rid e.row e.col) s r e { e with fe := { e.fe with scan := none, held := true } } [] [])) ∧
    (∀ (union : Bool), feMode f = (if union then 2 else 1) →
      let ev := if union then Instr.feUnionFire r.rid e.row e.col else Instr.feIsectFire r.rid e.row e.col
      (A → B → a.kind = 1 → b.kind = 1 → e.fe.crdA = none → e.fe.crdB = none → e.fe.lastA = none → e.fe.lastB = none →
        ∃ e', Steps ev s r e e' ((if a.num ≤ b.num then [pa] else []) ++ (if b.num ≤ a.num then [pb] else []))
            (if (a.num = b.num ∨ union = true) ∧ natBit (feC0 f) 0 = true then one (e.tok 1 (min a.num b.num)) else []) ∧
          e'.fe.crdA = (if a.num ≤ b.num then some a.num else none) ∧ e'.fe.crdB = (if b.num ≤ a.num then some b.num else none)) ∧
      (A → B → a.kind = 2 → b.kind = 2 → e.fe.crdA.isSome = true → e.fe.crdB.isSome = true →
        Steps ev s r e { e with fe := { e.fe with crdA := none, crdB := none } } [pa, pb] (feEmit f (some a) (some b))) ∧
      (A → a.kind = 2 → e.fe.crdA.isSome = true → e.fe.crdB = none →
        Steps ev s r e { e with fe := { e.fe with crdA := none, crdB := none } } [pa]
          (if union = true then feEmit f (some a) (some (e.tok 3)) else []))) ∧
    (feMode f = 3 → A → a.kind ≤ 3 → Steps (.feReptFire r.rid e.row e.col) s r e (on 0 a) [pa]
      (one (if a.kind = 3 then e.tok 3 else e.tok 2 (feC0 f)))) ∧
    (feMode f = 4 → A →
      (∀ x, a.isData = true → feOp f = 1 → feFmt f = 6 → e.fe.acc = some x →
        let e1 : Elem := if feComm f = true ∧ e.fe.started = true then e else on 0 a
        Steps (.feReduFire r.rid e.row e.col) s r e { e1 with fe := { e1.fe with acc := some (x + w64 a.num), count := e.fe.count + 1 } }
          [pa] []) ∧
      (a.isStop = true → levelFault f 0 (feDepth f) a = none → feOp f = 4 → feComm f = false → feLevel f ≤ a.kind - 8 →
        Steps (.feReduFire r.rid e.row e.col) s r e { on 0 a with fe := { (on 0 a).fe with acc := none, count := 0 } } [pa]
          (one (e.tok 0 e.fe.count) ++ (if feLevel f < a.kind - 8 then one (e.tok (8 + (a.kind - 8 - feLevel f - 1))) else [])))) ∧
    (feMode f = 5 → A → B → a.kind ≤ 3 → b.kind ≤ 3 →
      let pass := b.isData && b.num != 0
      ∃ e', Steps (.feFiltFire r.rid e.row e.col) s r e e' [pa, pb] (if pass then feEmit f (some a) (some (e.tok 1 e.fe.idx)) else []) ∧
        e'.fe.idx = e.fe.idx + 1 ∧ e'.fe.passed = e.fe.passed + (if pass then 1 else 0)) ∧
    (feMode f = 6 → A → B → C → a.kind ≤ 3 → b.kind = 1 → c.kind ≤ 3 → b.num = e.fe.idx →
      ∃ e', Steps (.feExpdFire r.rid e.row e.col) s r e e' [pa, pb, fePort f 2] (one a) ∧ e'.fe.idx = e.fe.idx + 1) ∧
    (feMode f = 7 → e.fe.fromB = false → A → a.kind ≤ 3 →
      (∀ t, r.inp e (feIn f 1) = some t → t.kind ≠ 15 ∧ (t.kind = 5 → e.fe.openB = false)) →
      ∃ e', Steps (.feJoinFire r.rid e.row e.col) s r e e' [pa] (one a) ∧ e'.fe.fromB = false ∧ e'.fe.started = true) ∧
    (feMode f = 8 → A → a.kind = 1 → e.fe.lvlInit = true → feSorted f = false → a.num < 2 ^ 32 → ∀ m,
      s.feWrite r e (r.binding e.plane (feCrd f) + w64 (e.fe.lvlN * w)) w a.num = .done m s' →
      Does (.feLvlwFire r.rid e.row e.col) s (fun t => t.m = s'.m ∧ ∃ u n, t.region? r.rid = some u ∧
        Moved r u e [pa] ((one (e.tok 2 e.fe.lvlN)).take n) ∧ u.elem? e.row 0 = some m ∧
        ((∀ port q, r.elem? e.row 0 = some port → q ∈ port.mp.spill → q.op = 4 →
            q.addr ≠ r.binding e.plane (feCrd f) + w64 (e.fe.lvlN * w)) →
          ∃ z ∈ m.mp.win0 ++ m.mp.win1, z.addr = r.binding e.plane (feCrd f) + w64 (e.fe.lvlN * w) ∧ z.bytes = leBytes w a.num) ∧
        ∃ e', u.elem? e.row e.col = some e' ∧ e'.fe.lvlN = e.fe.lvlN + 1 ∧ e'.fe.lastA = some a.num)) ∧
    (feMode f = 9 → A → B → a.kind = 1 → b.kind ≤ 3 →
      ∃ e', Steps (.feCdropFire r.rid e.row e.col) s r e e' [pa, pb] (if b.kind = 3 then [] else feEmit f (some a) (some b)))

/-- Memory elements off any ordering chain (R275 to R281, R350). A BUF write fills the next slot, when it is EMPTY, and
makes it FULL; a BUF pass begins with its token and reads the buffer's FULL slots in order; an empty FIFO takes a
token in, and a FIFO without a new one gives its oldest out and empties the slot; an RMW reads the word that its key
names and takes the new value into its pipeline, the update is written when it leaves it, and equal stops at both inputs
are consumed; a LUT places the FULL
slot that its index names; a STASH keeps the tokens of its round other than EOR in order with their kinds, and in the
next plane replays them. What they read carries no error mark. Two points are the model's choice: that the FIFO takes
tokens of every kind but 7 and of any parity (log entry 49), and that a STASH append leaves its slot's full bits as they
are (log entry 130). -/
def Obligations.MemoryElements : Prop :=
  ∀ (s : State) (r : Region) (e : Elem) (f : BitVec 256) (a b : Token), s.mayFire r e f → e.col = 10 ∨ e.col = 11 →
    bits f 3 0 = 1 → ordIn e.col f = 0 → ordOut e.col f = 0 → s.memOk → s.m.empties.Nodup →
    let outs := outsOf e.col f
    let K := r.inp e (meInk f) = some a
    let D := r.inp e (meInd f) = some b
    let pk := meInk f - 1
    let pd := meInd f - 1
    let big := 2 ^ (64 * meWords f)
    let n := bufSlots f
    let kept (t : State) : Prop := t.m = s.m ∧ t.self = s.self ∧ t.others = s.others
    (meMode f = 0 → D → b.kind = 0 →
      let ls := meSlot r e f (e.me.wbuf * n + e.me.wslot)
      s.slotEmpty ls = true → Does (.meBufWrite r.rid e.row e.col) s (fun t =>
        t.slotValue ls = b.payload.toNat % big ∧ t.slotFull ls = true ∧
        ∃ e', ElementMoved s t r e e' [pd] [] ∧ e'.me.wslot = (if e.me.wslot + 1 < n then e.me.wslot + 1 else 0) ∧
          e'.me.wbuf = (if e.me.wslot + 1 < n then e.me.wbuf else (e.me.wbuf + 1) % meMdepth f))) ∧
    (meMode f = 0 → e.me.pass = none → K → a.kind = 0 →
      Steps (.meBufPass r.rid e.row e.col) s r e { e with me := { e.me with pass := some (0, a.payload.getLsbD 0) } } [pk] []) ∧
    (∀ i keep, meMode f = 0 → e.me.pass = some (i, keep) → s.slotFull (meSlot r e f (e.me.rbuf * n + i)) = true →
      s.slotMark (meSlot r e f (e.me.rbuf * n + i)) = false → i + 1 < n →
      Steps (.meBufPass r.rid e.row e.col) s r e { e with me := { e.me with pass := some (i + 1, keep) } } []
        (onPorts outs (e.tok 0 (s.slotValue (meSlot r e f (e.me.rbuf * n + i)))))) ∧
    (meMode f = 1 → e.me.fifo = [] → 0 < meMdepth f → r.headAt e pd = some b → b.kind ≠ 7 →
      let ls := meSlot r e f (e.me.fifoHd % meMdepth f)
      Does (.meFifoFire r.rid e.row e.col) s (fun t => t.slotValue ls = b.payload.toNat % big ∧ t.slotFull ls = true ∧
        ElementMoved s t r e { e with me := { e.me with fifo := [(b.kind, b.par)] } } [pd] [])) ∧
    (∀ kind par rest, meMode f = 1 → e.me.fifo = (kind, par) :: rest → r.headAt e pd = none → kind ≠ 5 → kind ≠ 15 →
      s.slotMark (meSlot r e f e.me.fifoHd) = false →
      let ls := meSlot r e f e.me.fifoHd
      Does (.meFifoFire r.rid e.row e.col) s (fun t => t.slotEmpty ls = true ∧
        ElementMoved s t r e { e with me := { e.me with fifo := rest, fifoHd := (e.me.fifoHd + 1) % meMdepth f } } []
          (onPorts outs { kind := kind, par := par, payload := BitVec.ofNat 512 (s.slotValue ls), tag := 0 }))) ∧
    (meMode f = 2 → K → D → a.kind ≤ 2 → b.kind ≤ 2 → a.num < meSize f → e.me.pipe = [] →
      s.isPoisoned (meWordLoc r e (meBase f + a.num)) = false →
      let q := rmwNew (r.xeOf e.row) f (s.rd (meWordLoc r e (meBase f + a.num)) 8) b.num
      Does (.meRmwFire r.rid e.row e.col) s (fun t => kept t ∧
        ElementMoved s t r e { e with me := { e.me with pipe := [(a.num, w64 q.1, a.tag)] } } [pk, pd] [])) ∧
    (meMode f = 2 → K → D → a.isStop = true → b.kind = a.kind → Steps (.meRmwFire r.rid e.row e.col) s r e e [pk, pd] []) ∧
    (∀ u rest, e.me.pipe = u :: rest → Does (.meRmwUpdateWrite r.rid e.row e.col) s (fun t =>
      t.rd (meWordLoc r e (meBase f + u.1)) 8 = u.2.1.toNat ∧
      ∃ x y, t.region? r.rid = some x ∧ x.elem? e.row e.col = some y ∧ y.me.pipe = rest ∧ x.arcs = r.arcs)) ∧
    (meMode f = 3 → K → a.kind ≤ 2 → a.num < meSize f / meWords f → s.slotFull (meSlot r e f a.num) = true →
      s.slotMark (meSlot r e f a.num) = false →
      Does (.meLutFire r.rid e.row e.col) s (fun t => kept t ∧
        ElementMoved s t r e e [pk] (onPorts outs (e.tok 0 (s.slotValue (meSlot r e f a.num)) a.tag)))) ∧
    (meMode f = 4 → meInd f ≠ 0 → D → b.kind ≠ 5 → b.kind ≠ 7 → b.kind ≠ 15 → e.me.stash.length < meSize f / meWords f →
      let ls := meSlot r e f e.me.stash.length
      Does (.meStashAppend r.rid e.row e.col) s (fun t => t.slotValue ls = b.payload.toNat % big ∧
        ElementMoved s t r e { e with me := { e.me with stash := e.me.stash ++ [b.kind] } } [pd] [])) ∧
    (∀ k, meMode f = 4 → meInd f = 0 → r.mayBegin e = true → e.me.stash[e.me.replay]? = some k →
      s.slotMark (meSlot r e f e.me.replay) = false →
      Does (.meStashReplay r.rid e.row e.col) s (fun t => kept t ∧
        ElementMoved s t r e { e with me := { e.me with replay := e.me.replay + 1 } } []
          (onPorts outs (e.tok k (s.slotValue (meSlot r e f e.me.replay))))))

/-- Matrix elements that no droop freeze or issue fraction withholds (R90, R282 to R288). A BLD puts a token into the next
place of its B buffer, zeros for a NIL; a DRN emits the buffer token by token and then ends its round; an MMB places
the C rows of its A rows, and a NIL row as NIL; an MMN places for each lane the columns of its C row, or NIL for a NIL
row, with CFMT F32 columns 0 to 15 first, for which it keeps its A rows and scale, and then 16 to 31, its flags raised with
the second. Which token of a row port that several selects share belongs to which is the model's choice (log entry
129). -/
def Obligations.MatrixElements : Prop :=
  ∀ (s : State) (r : Region) (e : Elem) (f : BitVec 256) (a : Token), s.mayFire r e f → e.col = 14 → e.row / 2 * 2 = e.row →
    bits f 3 0 = 3 → s.pipeHeld r.die r.cluster = false → a.par = e.par →
    let north (t : Token) : List Emit := if natBit (xeRowout f) 0 then [{ mask := 16, tok := t }] else []
    let south (t : Token) : List Emit := if natBit (xeRowout f) 1 then [{ mask := 32, tok := t }] else []
    (xeMode f = 2 → xeHeads r e f = some [(4, a)] → a.kind = 0 ∨ a.kind = 3 →
      Does (.xeBldFire r.rid e.row) s (fun t => t.m = s.m ∧ t.self = s.self ∧ ∃ e', ElementMoved s t r e e' [xePort f 4] [] ∧
        e'.xe.pos = (e.xe.pos + 1) % tileTokens (xeAfmt f) ∧ ∀ j, j < 32 →
          (xeB e' f)[j]! = if j = e.xe.pos then (if a.kind = 3 then 0#512 else a.payload) else (xeB e f)[j]!)) ∧
    (xeMode f = 3 → r.mayBegin e = true →
      (e.xe.pos < tileTokens (xeAfmt f) → e.xe.pos < 32 →
        Steps (.xeDrnFire r.rid e.row) s r e { e with xe := { e.xe with pos := e.xe.pos + 1 } } []
          (north (e.tok 0 ((xeB e f)[e.xe.pos]!).toNat))) ∧
      (tileTokens (xeAfmt f) ≤ e.xe.pos →
        Steps (.xeDrnFire r.rid e.row) s r e (e.endRound true) [] (e.eor (16 * xeRowout f) true))) ∧
    (∀ hs, xeMode f = 0 → xeHeads r e f = some hs → (∀ h ∈ hs, h.2.kind = 0) →
      let two := xeAfmt f = 2 ∨ xeAfmt f = 3
      let pay (i : Nat) : BitVec 512 := (xePay hs i).getD 0#512
      let c0 := (mmbRow e f (fun k => rowField (pay 0) (aBits (xeAfmt f)) k) (xePay hs 3)).1
      let c1 := if two then (mmbRow e f (fun k => rowField (pay 0) (aBits (xeAfmt f)) (32 + k)) (xePay hs 1)).1 else c0
      Steps (.xeMmbFire r.rid e.row) s r e e (hs.map (fun h => xePort f h.1))
        (north (e.tok 0 c0.toNat) ++ south (e.tok 0 c1.toNat))) ∧
    (∀ hs, xeMode f = 0 → xeHeads r e f = some hs → (∀ h ∈ hs, h.2.kind = 0 ∨ h.2.kind = 3) → (∃ h ∈ hs, h.1 = 0 ∧ h.2.kind = 3) →
      Steps (.xeMmbFire r.rid e.row) s r e e (hs.map (fun h => xePort f h.1)) (north (e.tok 3) ++ south (e.tok 3))) ∧
    (∀ hs, xeMode f = 1 → xeHeads r e f = some hs → (∀ h ∈ hs, h.2.kind = 0 ∨ h.2.kind = 3) →
      (∀ h ∈ hs, h.1 ∈ mmnNeeds hs → h.2.kind = 0) → (e.xe.half = true → ∀ h ∈ hs, h.1 = 3 ∨ h.1 = 4 → h.2.kind = 0) →
      let wide : Bool := xeCfmt f == 0
      let lo : Nat := if e.xe.half then 16 else 0
      let n : Nat := if wide then 16 else 32
      let first : Bool := wide && !e.xe.half
      let flags : BitVec 5 := (mmnLane e f hs 0 lo n).2 ||| (mmnLane e f hs 1 lo n).2 ||| e.xe.halfFlags
      Steps (.xeMmnFire r.rid e.row) s r e { e with xe := { e.xe with half := first, halfFlags := if first then flags else 0#5 } }
        ((hs.filter (fun h => !first || h.1 == 3 || h.1 == 4)).map (fun h => xePort f h.1))
        ((mmnLane e f hs 0 lo n).1 ++ (mmnLane e f hs 1 lo n).1))

/-- Served packets and evaluation (R171, R172, R209 to R212, R297 to R299, R338, R347). A packet's arguments enter the
region together, one on each port, once the cycle of its SERVE is over, and what an earlier packet of its tag has left
there is not theirs; results of one tag at the exit leave with the
packet when every buffered store of the tag may be released, and are held there until the stores that went to other
modules are acknowledged; a tag with a recorded PSN leaves poisoned; heads of different tags poison every injected
packet and the region is gone; the caller takes the results and the flags and goes on, or traps where the packet was
poisoned; the request of the highest PRIO, then the oldest, becomes a queued evaluator strand, or an evaluation
packet, which waits where its cluster has no free entry and goes before later requests when one is free; the results
of a packet fill the cell, which becomes VALUE. Three points are the model's choice: that an evaluator starts at its entry
with bits 1 and 0 dropped (log entry 109), that what an earlier packet of the tag has left goes when the next is injected (log
entry 135), and that a result token of any data kind is delivered as its payload (log
entry 130). -/
def Obligations.ServedPackets : Prop :=
  ∀ (s : State) (pid : Nat) (p : Packet) (r : Region) (e : Eclosion) (ws : List Word) (fl : BitVec 5),
    let gone (t : State) : Prop := t.packet? pid = none
    (∀ u, s.packet? pid = some p → s.resident p = some r → p.waits = true → r.phase = .running → s.firstWaiting p = true →
      p.since < s.cycle → p.caller = .strand u → (∀ j, j < p.args.length → ∃ x, portElem r 0 j = some x ∧ r.accepts x (2 ^ (j % 4)) = true) →
      let enters (a : Arc) (j : Nat) : Bool := match portElem r 0 j with
        | some x => a.leaves x.plane x.row x.col (2 ^ (j % 4))
        | none => false
      let token (q : Word × Nat) : Token := { kind := 0, payload := q.1.zeroExtend 512, par := false, tag := p.tag }
      Does (.serveInject pid) s (fun t => t.m = s.m ∧ t.packet? pid = some { p with region := some r.rid } ∧
        (∀ y, s.strand? u = some y → t.strand? u = some { y with park := { y.park with injected := true } }) ∧
        ∃ x, t.region? r.rid = some x ∧ (∀ q ∈ x.psn, q.1 ≠ p.tag) ∧ (∀ q ∈ x.pflags, q.1 ≠ p.tag) ∧
          x.arcs = r.arcs.map (fun a => { a with queue := a.queue ++ (p.args.zipIdx.filter (fun q => enters a q.2)).map token }))) ∧
    (∀ hs tag, s.region? r.rid = some r → r.served = true → hs ≠ [] → r.underWay ((hs.map (fun h => h.tag)).headD 0) = false →
      (List.range r.image.res).mapM (m := Option) r.resultHead = some hs →
      ((∃ h ∈ hs, h.tag ≠ (hs.map (fun h => h.tag)).headD 0) → Does (.servedExit r.rid) s (fun t =>
        let x : BitVec 64 := BitVec.ofNat 64 (r.siteId (r.shape.rows - 1) 0 % 4096 + 2 ^ 12 * 4)
        SameBytes s t ∧ t.region? r.rid = none ∧ t.work.packets = s.work.packets.map (fun q =>
          if q.region = some r.rid ∧ q.result.isNone ∧ q.poison.isNone then { q with poison := some x } else q))) ∧
      ((∀ h ∈ hs, h.tag = tag) →
      s.work.packets.find? (fun p => p.region == some r.rid && p.tag == tag && p.result.isNone && p.poison.isNone) = some p →
      (s.exitPoison r tag hs = none → ((r.tagStores tag).all (s.releases r)) = true →
      Does (.servedExit r.rid) s (fun t => (r.tagStores tag = [] → t.m = s.m) ∧
        ∃ q f, t.packet? p.pid = some q ∧ q.poison = none ∧ q.caller = p.caller ∧
          q.result = some (hs.map (fun h => h.payload.truncate 64), f) ∧
          q.acks = (t.host.outstanding.filter (fun o => o.isStore && decide (s.fresh ≤ o.rq))).map (fun o => o.rq) ∧
          (r.pflags.find? (fun q => q.1 == tag) = none → f = 0#5))) ∧
      (∀ x, r.psn.find? (fun q => q.1 == tag) = some (tag, x) → Does (.servedExit r.rid) s (fun t =>
        t.m = s.m ∧ t.packet? p.pid = some { p with poison := some x })))) ∧
    (s.packet? pid = some p → s.heldAtExit p = false → p.caller = .strand s.self.id.uid → s.strand? s.self.id.uid = some s.self →
      s.self.parkedFor .serve = true →
      (p.result = some (ws, fl) → p.dst + ws.length ≤ 64 → Does (.serveResultArrival pid) s (fun t => gone t ∧ t.m = s.m ∧
        t.self.st = .active ∧ t.self.pc = s.self.pc + 4#64 ∧ t.self.ctl.fflags = s.self.ctl.fflags ||| fl ∧
        (∀ i, i < ws.length → p.dst + i ≠ 0 → t.getGn (p.dst + i) = ws.getD i 0#64) ∧
        (∀ i, i < 64 → (i < p.dst ∨ p.dst + ws.length ≤ i) → t.getGn i = s.getGn i) ∧
        t.self.v = s.self.v ∧ t.self.k = s.self.k)) ∧
      (∀ x, p.result = none → p.poison = some x → s.canTrap → Does (.serveResultArrival pid) s (fun t => gone t ∧ t.m = s.m ∧
        TookTrap s.self t.self s.self.pc (if bits x 19 12 = 0x92 then 18 else 8) (p.servep x).info0))) ∧
    (∀ die part,
      let mine := s.cells.eclosions.filter (fun e => paDie e.cell == die && e.site.part == part)
      let next := mine.findSome? (fun x => (s.nextPacket x).map (fun q => (x, q)))
      let packet (t : State) (d c i : Nat) : Prop := (∃ q, t.work.packets = s.work.packets ++ [q] ∧ q.caller = .cell i ∧
          q.args = [e.va, e.word1, e.word3] ∧ q.cfg = bits e.word0 63 1 ∧ q.site.part = e.site.part ∧ q.die = d ∧ q.cluster = c) ∧
        t.cells.cellPkts = s.cells.cellPkts ++ [(d, c, i, e.eid)]
      (∀ d c i, next = some (e, d, c, i) → Does (.evalRequestRelease die part) s (fun t => packet t d c i)) ∧
      (next = none → e ∈ mine → s.releasable e = true → s.evalAdmits die part = true →
        (∀ x ∈ mine, s.releasable x = true → x ≠ e → x.prio < e.prio ∨ (x.prio = e.prio ∧ e.eid < x.eid)) →
        let out (t : State) : Prop := ∀ x ∈ t.cells.eclosions, x.eid = e.eid → x.released = true
        (e.word0.getLsbD 0 = false → Does (.evalRequestRelease die part) s (fun t => out t ∧ t.m = s.m ∧
          ∃ y, t.others = s.others ++ [y] ∧ y.st = .queued ∧ y.id.ctx = .evaluator ∧ y.id.part = e.site.part ∧
          y.pc = e.word0 &&& ~~~3#64 ∧ y.g = regsFrom [e.va, e.word1, e.word3, e.word2])) ∧
        (∀ d c, e.word0.getLsbD 0 = true → s.evalPlace e = (d, c) → (∀ x ∈ s.cells.eclosions, x.queuedAt = none) →
          (∀ i, s.freeCellPkt d c = some i → Does (.evalRequestRelease die part) s (fun t => out t ∧ packet t d c i)) ∧
          (s.freeCellPkt d c = none → Does (.evalRequestRelease die part) s (fun t => out t ∧
            t.work.packets = s.work.packets ∧ ∀ x ∈ t.cells.eclosions, x.eid = e.eid → x.queuedAt = some (d, c, s.fresh)))))) ∧
    (∀ i, s.packet? pid = some p → s.heldAtExit p = false → p.caller = .cell i → p.result = some (ws, fl) → ws.length ≤ 4 → e.cell % 32 = 0 → s.memOk →
      s.cells.cellPkts.find? (fun q => q.1 == p.die && q.2.1 == p.cluster && q.2.2.1 == i) = some (p.die, p.cluster, i, e.eid) →
      s.cells.eclosions.find? (fun x => x.eid == e.eid) = some e →
      Does (.evalPacketResult pid) s (fun t => gone t ∧ t.tag e.cell = .value ∧ (∀ x ∈ t.cells.eclosions, x.eid ≠ e.eid) ∧
        (∀ j, j < 4 → t.rd (e.cell + 8 * j) 8 = (ws.getD j 0#64).toNat) ∧ SameBytesBut e.cell 32 s t))

/-- Placing holders (R174, R206, R214, R387 to R391, R434). Where an occasion for a decision has come, the decision places
the configuration that it chooses in a free band of its launch's reservation, or, where that has none, takes the
region of the configuration that it evicts; the streamed residency of the highest PRIO, then the earliest FRGO, is
placed in the band that the placement rule names, afresh or with all that its save kept; one that has waited longer
than its limit migrates to a neighbour cluster where no holder seeks that band; the next plane of a residency is
loaded behind the current one. Two points are the model's choice: that each occasion of a decision gives one decision of
its own (log entry 73), and that a residency for which no band is free, or whose launch has no room, does not block those
behind it (log entry 74). -/
def Obligations.PlacingHolders : Prop :=
  ∀ (s : State) (die cluster : Nat) (b : Nat × Nat) (y : Residency), (∀ r ∈ s.work.regions, r.rid < s.fresh) →
    let set (t : State) (c entry : Nat) : Prop := ∃ r ∈ t.work.regions, r.holder = .stream die cluster entry ∧ r.die = die ∧
      r.cluster = c ∧ r.frond = b.1 ∧ r.row0 = b.2 ∧ r.phase = .running ∧
      ∃ z, t.residency? die cluster entry = some z ∧ z.region = some r.rid ∧ z.waiting = none
    (∀ w im lch,
      let ps := s.work.waitings.filter (fun w => w.die == die && w.cluster == cluster && w.inTable && s.placeable w)
      (die, cluster) ∈ s.work.decisions → s.chosen ps = some w → s.imageOf w = some im → w.launch = some lch →
      (s.die die).spores.contains (w.cfg, (s.servedSite w).part) = true →
      (∀ r, s.hasRoom lch die cluster im.shape = false → s.evictable lch die cluster im.shape = some r →
        Does (.frondDecision die cluster) s (fun t => t.region? r.rid = none)) ∧
      (s.hasRoom lch die cluster im.shape = true → s.bandFor die cluster im.shape = some b →
      Does (.frondDecision die cluster) s (fun t => t.work.decisions = s.work.decisions.erase (die, cluster) ∧ (∀ x ∈ t.work.waitings, x.order ≠ w.order) ∧
        ∃ r ∈ t.work.regions, r.holder = .served w.cfg w.part w.launch ∧ r.image = im ∧ r.die = die ∧ r.cluster = cluster ∧
          r.frond = b.1 ∧ r.row0 = b.2 ∧ r.phase = .running))) ∧
    (∀ l, l = s.work.residencies.filter (fun y => y.die == die && y.cluster == cluster && y.queued && s.canPlace y) →
      y ∈ l → (∀ x ∈ l, x ≠ y → x.prio < y.prio ∨ (x.prio = y.prio ∧ y.goNo < x.goNo)) → s.hasRoomFor y = true →
      s.bandFor die cluster y.shape = some b →
      (y.saved = none → (s.die die).spores.contains (y.cfg, y.site.part) = true →
        Does (.residencyPlacement die cluster) s (fun t => set t cluster y.entry)) ∧
      (∀ x, y.saved = some x → Does (.residencyPlacement die cluster) s (fun t =>
        ∃ r ∈ t.work.regions, r.rid = x.rid ∧ r.die = die ∧ r.cluster = cluster ∧ r.frond = b.1 ∧ r.row0 = b.2 ∧
          r.phase = .running ∧ r.arcs = x.arcs ∧ r.elems = x.elems ∧ r.argNet = x.argNet ++ y.argPend))) ∧
    (∀ target, s.residency? die cluster y.entry = some y → y.queued = true → y.migr ≠ 0 → y.save ≠ .freeze →
      (∀ w, y.waiting = some w → w.1 + y.migr * 1024 < s.cycle) → neighbours cluster target = true →
      (cluster < 48 ↔ target < 48) → s.servesImage y.image = true → y.shape.units ≤ s.unitsSpare die target → s.admits y.part die 0 = true →
      s.bandFor die target y.shape = some b → s.sought die target b y.shape = false → y.saved = none →
      (s.die die).spores.contains (y.cfg, y.site.part) = true →
      Does (.residencyMigration die cluster y.entry target) s (fun t => set t target y.entry)) ∧
    (∀ r, s.region? r.rid = some r → s.holderOf r = some y → r.loaded < r.image.nplanes →
      (s.die r.die).spores.contains (y.cfg, r.site.part) = true →
      Does (.planePrefetch r.rid) s (fun t => t.m = s.m ∧ t.region? r.rid = some { r with loaded := r.loaded + 1 }))

/-- Planes, windows, credits and completion (R176, R197, R206 to R208, R213 to R215, R228, R339 to R342). An element that
has ended its plane enters the next, when no store of its region is still under way to another module; a value of ARGW
reaches its pending register; a credit comes back; a window of one store, whose round every memory port has ended, is
performed, in local storage at once and as a request to another module; a residency whose sinks have DONE, with
nothing left, is DRAINED; a fault, or 4,096 cycles without movement in a running region, those not counted that are
excused, freezes the region, discards
its windows, and is recorded for the owner, whose one deferred trap of the residency it is; that it takes the place of one
that a resumption has left pending is the model's choice (log entry 113). -/
def Obligations.RegionEvents : Prop :=
  ∀ (s : State) (r : Region) (e : Elem) (y : Residency), s.region? r.rid = some r →
    let faulted (t : State) (ws : List Word) : Prop :=
      (∃ u, t.region? r.rid = some u ∧ u.phase = .frozen ∧ ∀ x ∈ u.elems, x.mp.win0 = [] ∧ x.mp.win1 = [] ∧ x.mp.spill = []) ∧
      (∃ z, t.residency? y.die y.cluster y.entry = some z ∧ z.state = .faulted ∧ z.record = ws) ∧
      (∀ w, s.strand? y.owner = some w → ∃ w' d, t.strand? y.owner = some w' ∧
        w'.waits.deferred = w.waits.deferred.filter (fun q => q.isCopy || q.tinfo0 != w64 y.handle) ++ [d] ∧
        d.isCopy = false ∧ d.tinfo0 = w64 y.handle ∧ d.tinfo2 = ws.headD 0#64 ∧ d.tinfo3 = ws.getD 1 0#64)
    (r.served = false → r.phase ≠ .frozen → r.phase ≠ .halting → s.storesOut r.rid = false → r.active.filter r.mayEnter = [e] →
      Does (.planeEntry r.rid) s (fun t => ∃ u x, t.region? r.rid = some u ∧ u.elem? e.row e.col = some x ∧ e.plane + 1 ≤ x.plane ∧ x.roundIn = 0 ∧ x.atEnd = false ∧
        x.ctr = [0, 0, 0, 0])) ∧
    (∀ c1 v rest, r.argNet = (e.row, e.col, c1, v) :: rest → r.elem? e.row e.col = some e → Does (.argwDelivery r.rid) s (fun t =>
      t.m = s.m ∧ ∃ u, t.region? r.rid = some u ∧ u.argNet = rest ∧ u.elem? e.row e.col = some { e with ce :=
        if c1 = true then { e.ce with pend1 := some v } else { e.ce with pend0 := some v } })) ∧
    (∀ i a, r.arcs[i]? = some a → a.inReturn ≠ 0 → Does (.creditReturn r.rid i) s (fun t => t.m = s.m ∧
      t.region? r.rid = some { r with arcs := r.arcs.set i { a with inReturn := a.inReturn - 1 } })) ∧
    (∀ b, r.served = false → r.phase ≠ .frozen → r.phase ≠ .halting → r.faults = [] → r.windowPorts.Nodup → e ∈ r.windowPorts →
      (∀ x ∈ r.windowPorts, x.plane = r.windowPlane ∧ x.mp.rounds ≠ 0 ∧ (x ≠ e → x.mp.win0 = [])) →
      e.mp.win0 = [b] → s.releases r b = true → s.marred [b] = none → s.memOk → Does (.windowCommit r.rid) s (fun t =>
        (b.glob = false → b.remote = false → t.rdBytes b.loc b.bytes.length = b.bytes ∧ SameBytesBut b.loc b.bytes.length s t) ∧
        (b.remote = true → (∀ o ∈ s.host.outstanding, o.rq ≠ s.fresh) → SameBytes s t ∧ ∃ o, t.host.outstanding = s.host.outstanding ++ [o] ∧ o.isStore = true) ∧
        ∃ u, t.region? r.rid = some u ∧ u.commits = r.commits + 1 ∧ u.arcs = r.arcs ∧
          u.elems = r.elems.map Elem.commitWindow)) ∧
    (s.residency? y.die y.cluster y.entry = some y → y.region = some r.rid → y.state = .running → r.phase ≠ .frozen →
      r.phase ≠ .halting → r.faults = [] → r.sinksDone = true → y.planes + 1 = r.image.nplanes → (∀ a ∈ r.arcs, a.queue = []) →
      r.quiet = true → y.orphan = false → s.memOk → Does (.residencyDrained y.die y.cluster y.entry) s (fun t =>
        t.rd (s.recordLoc y + 56) 8 = (r.flags ||| y.flags).toNat + 32 ∧ SameBytesBut (s.recordLoc y + 56) 8 s t ∧
        ∃ z, t.residency? y.die y.cluster y.entry = some z ∧ z.state = .drained ∧ z.flags = r.flags ||| y.flags)) ∧
    (∀ f, s.holderOf r = some y → y.orphan = false → r.deciding = some f → r.phase ≠ .frozen →
      Does (.fabricFaultFreeze r.rid f.row f.col) s (fun t => faulted t (recordWords r y f false))) ∧
    (s.holderOf r = some y → y.orphan = false → y.state = .running → r.toMove = true → r.faults = [] → r.sinksDone = false →
      r.stalled = some e → r.lastMove + r.excusedNow + 4096 ≤ s.cycle →
      Does (.rstall r.rid) s (fun t => ∃ ws, faulted t ws ∧ bits (ws.headD 0#64) 7 0 = 14 ∧
        bits (ws.headD 0#64) 30 16 = r.siteOf e.row e.col))

/-- Saving residencies (R397 to R399, R401). A request drains the region, or halts it where an ME lacks PERSIST; behind a
plane change that has begun it waits until every element has entered the new plane; a drained region is saved at its
boundary; 65,536 cycles after the request it halts; one that halts is saved, with all it holds, when everything that
has begun has completed, and the residency waits to be placed again. What counts as begun is the model's choice (log entry
122). -/
def Obligations.SavingResidencies : Prop :=
  ∀ (s : State) (die cluster entry : Nat) (y : Residency) (r : Region), s.runningAt die cluster entry = some (y, r) → r.faults = [] →
    let now (t : State) (sv : SaveKind) (ph : RegionPhase) : Prop := t.m = s.m ∧ t.region? r.rid = some { r with phase := ph } ∧
      t.residency? die cluster entry = some { y with save := sv }
    let away (t : State) (sv : SaveKind) (x : Region) : Prop := t.m = s.m ∧ t.region? r.rid = none ∧ ∃ z,
      t.residency? die cluster entry = some z ∧ z.saved = some x ∧ z.save = sv ∧ z.region = none ∧ z.waiting.isSome = true ∧
      z.state = .running ∧ z.areas = s.saveAreas r (sv == .freeze)
    (y.save = .noSave → r.phase = .running →
      (r.wave = true → Does (.residencySaveRequest die cluster entry) s (fun t => now t (.requested s.cycle) .crossing)) ∧
      (r.wave = false → y.image.persists = true →
        Does (.residencySaveRequest die cluster entry) s (fun t => now t (.requested s.cycle) .draining)) ∧
      (r.wave = false → y.image.persists = false →
        Does (.residencySaveRequest die cluster entry) s (fun t => now t .freeze .halting))) ∧
    (r.phase = .draining ∨ (r.phase = .crossing ∧ r.crossed = true) → y.image.persists = true → r.atBoundary = true →
      r.sinksDone = false → Does (.boundarySave die cluster entry) s (fun t => away t .boundary r)) ∧
    (∀ since, y.save = .requested since → since + 65536 ≤ s.cycle → r.phase ≠ .frozen → (r.phase = .crossing → r.crossed = true) →
      Does (.boundarySaveTimeout die cluster entry) s (fun t => now t .freeze .halting)) ∧
    (r.phase = .crossing → r.crossed = true → y.image.persists = false →
      Does (.freezeSave die cluster entry) s (fun t => now t .freeze .halting)) ∧
    (y.save = .freeze → r.phase = .halting → r.begun = false →
      Does (.freezeSave die cluster entry) s (fun t => away t .freeze { r with elems := r.elems.map (fun e =>
        { e with mp := { e.mp with spill := e.mp.spill.map Spill.withdrawn } }) }))

/-- Page faults and replies in the rhizoid tree (R411 to R416). A fault merges with one for its page, or takes an entry
and goes up; a fault that merges adds its kinds to what the root has still to deliver; the root gives it in a 64-byte
message to the pager, here one whose q0 holds fewer than eight, once no other fault of its page is on its way up; a
reply goes down to every child that waits, those whose faults stand at its router among them, and strands wake. -/
def Obligations.Paging : Prop :=
  ∀ (s : State) (idx : Nat) (m : FaultMsg) (p : ReplyMsg) (e : RouterEntry) (y : Strand) (die : Nat),
    let here := fun (x : RouterEntry) => x.is m.router m.part m.asid m.page
    (s.cells.faults[idx]? = some m →
      (s.cells.routers.any here = true → Does (.pageFaultMessage idx) s (fun t =>
        let above (r : Router) : Prop := r ∈ m.router.above
        ((∀ x ∈ s.cells.routers, x.router = .root m.router.die → x.part = m.part → x.delivered = true) → t.m = s.m ∧ t.self = s.self) ∧
        t.cells.faults.map (fun x => { x with kinds := 0, mp := false }) =
          (s.cells.faults.eraseIdx idx).map (fun x => { x with kinds := 0, mp := false }) ∧
        (∀ x ∈ t.cells.faults, above x.router → x.like m.part m.asid m.page = true →
          x.kinds ||| m.kinds = x.kinds ∧ (m.mp = true → x.mp = true)) ∧
        (∀ x ∈ t.cells.routers, here x = true → m.port ∈ x.ports) ∧
        ∀ x ∈ t.cells.routers, above x.router → x.is x.router m.part m.asid m.page = true → x.delivered = false →
          x.kinds ||| m.kinds = x.kinds ∧ (m.mp = true → x.mp = true))) ∧
      (∀ up port, s.cells.routers.any here = false → s.routerRoom m.router m.part = true → m.router.parent = some (up, port) →
        Does (.pageFaultMessage idx) s (fun t => t.m = s.m ∧ t.self = s.self ∧
          t.cells.faults = s.cells.faults.eraseIdx idx ++ [{ m with router := up, port := port }] ∧
          ∃ x, t.cells.routers = s.cells.routers ++ [x] ∧ here x = true ∧ x.ports = [m.port])) ∧
      (m.router = .root die → s.cells.routers.any here = false → s.routerRoom m.router m.part = true →
        s.windowOn m.part die = true → s.pagerOf m.part die = some y → s.strand? y.id.uid = some y →
        (∀ x ∈ s.cells.routers, x.router = .root die → x.part = m.part → x.delivered = true) → y.q.q0.length < 8 →
        (∀ x ∈ s.cells.faults.eraseIdx idx, x.like m.part m.asid m.page = false) →
        Does (.pageFaultMessage idx) s (fun t => t.m = s.m ∧ t.cells.faults = s.cells.faults.eraseIdx idx ∧ ∃ z fid,
          t.strand? y.id.uid = some z ∧ (∀ x ∈ s.cells.routers, x.router = .root die → x.part = m.part → x.fid ≠ fid) ∧
          z.q.q0 = y.q.q0 ++ [Msg.mk (y.id.sid.getD 0#16) true (BitVec.ofNat 512
            (fid + 2 ^ 16 * die + 2 ^ 19 * m.kinds + 2 ^ 22 * (if m.mp then 1 else 0) + 2 ^ 32 * m.asid + 2 ^ 64 * m.page)) y.q.q0seq]))) ∧
    (s.cells.replies[idx]? = some p → s.cells.routers.find? (fun x => x.is p.router p.part p.asid p.page) = some e →
      let freed (t : State) : Prop := (∀ x ∈ t.cells.routers, x.is p.router p.part p.asid p.page = false) ∧
        ∀ x ∈ t.cells.faults, x.router = p.router → x.like p.part p.asid p.page = false
      let alone : Prop := ∀ x ∈ s.cells.faults, x.router = p.router → x.like p.part p.asid p.page = false
      (p.router = .root die → Does (.pagerReplyDescent idx) s (fun t => freed t ∧ t.m = s.m ∧
        ∀ c, (c ∈ e.ports ∨ ∃ x ∈ s.cells.faults, x.router = p.router ∧ x.like p.part p.asid p.page = true ∧ x.port = c) →
          { p with router := .row die c } ∈ t.cells.replies)) ∧
      (p.router = .root die → alone → Does (.pagerReplyDescent idx) s (fun t => freed t ∧ t.m = s.m ∧
        t.cells.replies = s.cells.replies.eraseIdx idx ++ e.ports.map (fun c => { p with router := .row die c }))) ∧
      (∀ cluster core x, p.router = .cluster die cluster → e.ports = [core] → alone → core < 16 → p.fatal = false →
        x ∈ s.pageWaiters die cluster core p.part p.asid p.page → x.live = true →
        Does (.pagerReplyDescent idx) s (fun t => freed t ∧ t.m = s.m ∧ ∃ z, t.strand? x.id.uid = some z ∧ z.park.woken = true)))

/-- Links (R53, R292, R294, R418, R439 to R441, R463). A read of a bound peer within its partition's granules is answered
with the bytes, or, where it meets an ECLOSING cell, waits there; a store of a bound peer is performed and answered; a
copy's access to a line meets the cells of the bytes that it names alone;
an access without a binding is refused; an answer reaches the strand that waits for it, which parks where its access
waits at a cell, and traps where it was refused or met POISON; a wake of a cell's home readies the strand that waits
there; an acknowledged store leaves the outbound buffer; a request that is not answered in a millisecond ends, and its
port is mapped out, once it has gone out on it; a port goes on with three lanes, not with two. Circuits (R443, R444). A circuit opens when its
other end runs; a receive port emits the tokens of its circuit in sequence, with a credit back for each by the circuit's carrier, and holds one that
comes early; a circuit whose other end is FAULTED or gone before DONE was emitted is a fault of the port. A peer beyond
the domain reaches no memory (R442). Three points are the model's choice: the forms of requests and answers between modules
(log entry 29), that a request which the home module turns away ends with PROT, reason 5, at the strand, as one without a
response does (log entry 66), and what a request says of the agent and its page, by which its home decides on a C page
(log entry 65). -/
def Obligations.LinksAndCircuits : Prop :=
  (∀ (s : State) (rq remModule remPart width pa : Nat) (va expected : Word) (data : BitVec 512) (b : Peer) (o : Outstanding),
    let bound (b : Peer) : Bool := b.remModule == remModule && b.remPart == remPart && b.mine && b.theirs
    let answers (t s : State) (x status n : Nat) : Prop :=
      t = (s.send (.response b.remModule rq (BitVec.ofNat 512 x) status)).charge b.part (paDie pa) 3 n
    (∀ op agent cpage, s.host.peers.find? bound = none ∨ Config.inDomain remModule = false →
      Does (.remoteAccessArrival rq remModule remPart (op, agent, cpage) width pa va data expected) s (fun t =>
        t = s.send (.response remModule rq 0#512 1))) ∧
    (s.host.peers.find? bound = some b → Config.inDomain remModule = true → s.inGranules b.part pa width = true → s.carved b.part pa width = false →
      0 < width → width ≤ 64 → pa % width = 0 → s.admits b.part (paDie pa) 2 = true → s.admits b.part (paDie pa) 3 = true →
      let c := s.charge b.part (paDie pa) 2 width
      let values := ∀ g ∈ unitsOf pa width 32, c.tag g = .value
      ∀ agent cpage, c.memOk →
      ((∀ g ∈ unitsOf pa width 64, c.isPoisoned g = false) →
        (cpage = false ∨ (values ∧ (agent ≠ 2 ∨ width = 64)) → Does (.remoteAccessArrival rq remModule remPart (0, agent, cpage) width pa va data expected) s (fun t =>
          answers t c (c.rd pa width) 0 width)) ∧
        (∀ x c', cpage = true → agent ≠ 2 → pa % 32 = 0 → width ≤ 32 → c.tag pa = .eclosing → c.eclosionOf pa = some x →
          c.enqueue x (.remote b.remModule rq) = some c' →
          Does (.remoteAccessArrival rq remModule remPart (0, agent, cpage) width pa va data expected) s (fun t =>
            answers t c' (c'.chainOf pa) 2 0))) ∧
      (values → agent ≠ 2 → agent = 3 ∨ width = 64 ∨ (∀ g ∈ unitsOf pa width 64, c.isPoisoned g = false) →
        Does (.remoteAccessArrival rq remModule remPart (1, agent, cpage) width pa va data expected) s (fun t =>
          ∃ u, answers t u 0 0 0 ∧ u.rd pa width = data.toNat % 256 ^ width ∧ SameBytesBut pa width c u)) ∧
      (∀ lo n, 0 < n → lo + n ≤ width → expected = w64 ((2 ^ n - 1) * 2 ^ lo) →
        (∀ g ∈ unitsOf pa width 64, c.isPoisoned g = false) → cpage = true →
        let stop := (unitsOf (pa + lo) n 32).find? (fun g => c.tag g != .value)
        (stop = none → Does (.remoteAccessArrival rq remModule remPart (0, 2, cpage) width pa va data expected) s (fun t =>
          answers t c (c.rd pa width) 0 width)) ∧
        (∀ g op, stop = some g → op = 0 ∨ op = 1 →
          Does (.remoteAccessArrival rq remModule remPart (op, 2, cpage) width pa va data expected) s (fun t =>
            answers t c (max g (pa + lo) - pa) 6 0))) ∧
      (∀ lo n, values → 0 < n → lo + n ≤ width → expected = w64 ((2 ^ n - 1) * 2 ^ lo) →
        n = 64 ∨ (∀ g ∈ unitsOf pa width 64, c.isPoisoned g = false) →
        Does (.remoteAccessArrival rq remModule remPart (1, 2, cpage) width pa va data expected) s (fun t =>
          ∃ u, answers t u 0 0 0 ∧ u.rd (pa + lo) n = data.toNat / 256 ^ lo % 256 ^ n ∧ SameBytesBut (pa + lo) n c u))) ∧
    (Does (.remoteResponse rq data 7) s (fun t => t.m = s.m ∧ ∀ y, s.strand? y.id.uid = some y → y.parkedFor .cell = true →
      y.park.far.map (·.1) = some rq → ∃ z, t.strand? y.id.uid = some z ∧ z.park.woken = true)) ∧
    (s.request? rq = some o → o.op ≠ 19 →
      let ended (t : State) : Prop := ∀ x ∈ t.host.outstanding, x.rq ≠ rq
      let left := s.host.outstanding.filter (fun x => x.rq != rq)
      (o.isStore = false → o.copy = none → o.waiter = some (.strand s.self.id.uid) → s.strand? s.self.id.uid = some s.self →
        s.self.waits.remote = some rq →
        (o.op ≠ 18 → Does (.remoteResponse rq data 0) s (fun t => ended t ∧ t.m = s.m ∧ t.self = { s.self with waits := { s.self.waits with
          remote := none, answers := s.self.waits.answers ++ [Answer.mk o.op o.lane o.pa (data.truncate 64)] } })) ∧
        (o.op = 18 → Does (.remoteResponse rq data 0) s (fun t => ended t ∧ t.m = s.m ∧ t.self = { s.self with waits := { s.self.waits with
          remote := none, fetched := s.self.waits.fetched ++ [(o.pa, data.truncate 64)] } })) ∧
        (rq ≠ s.fresh → Does (.remoteResponse rq data 2) s (fun t => ended t ∧ t.m = s.m ∧ t.self.parkedFor .cell = true ∧
          t.self.park.operand = w64 (o.va.toNat / 32 * 32) ∧ t.self.park.far = some (rq, data.toNat % 2 ^ 32) ∧ t.self.pc = s.self.pc ∧
          SameRegisters s.self t.self)) ∧
        (s.canTrap → Does (.remoteResponse rq data 1) s (fun t => ended t ∧ t.m = s.m ∧
          TookTrap s.self t.self s.self.pc 5 o.va ∧ t.self.ctl.tinfo2 = 5#64) ∧
          Does (.remoteResponse rq data 3) s (fun t => ended t ∧ t.m = s.m ∧
            TookTrap s.self t.self s.self.pc 12 (w64 (o.va.toNat / 32 * 32))))) ∧
      (o.isStore = true → (∀ u, o.waiter ≠ some (.strand u)) → Does (.remoteStoreAck rq) s (fun t =>
        t = { s with host := { s.host with outstanding := left } })) ∧
      (o.sent = false → Does (.requestTimeout rq) s (fun t => t = s)) ∧
      (o.sent = true → o.since.toNat + 1000000 ≤ s.plant.time.toNat → o.port < 36 → o.copy = none → o.waiter = none →
        Does (.requestTimeout rq) s (fun t => ended t ∧ t.m = s.m ∧ (t.host.ports[o.port]?.getD {}).mapped = true))) ∧
    (∀ port, port < 36 → let x := s.host.ports[port]?.getD {}
      Does (.laneFailure port) s (fun t => t.m = s.m ∧ t.host.ports = s.host.ports.setIfInBounds port
        (if x.mapped = true then x else if x.lanes = 4 then { x with lanes := 3 } else { x with lanes := x.lanes - 1, mapped := true })))) ∧
  (∀ (s : State) (r : Region) (e : Elem) (f : BitVec 256) (b : Word) (q : Nat) (tok : Token),
    s.region? r.rid = some r → e.col = 0 → r.elem? e.row 0 = some e → r.circuitAt e.row = some (e, f, b) →
    let far := bits b 23 15 ≠ s.plant.modNum
    (s.runs r = true → e.mp.isOpen = false →
      (far → s.circuitReach r.site.part (bits b 23 15) = true → Does (.circuitOpen r.rid e.row) s (fun t => t.m = s.m ∧ ∃ u x, t.region? r.rid = some u ∧ u.elem? e.row 0 = some x ∧
        x = { e with mp := { e.mp with isOpen := true } })) ∧
      (∀ y row, ¬far → s.otherEnd r b = some (y, row) → Does (.circuitOpen r.rid e.row) s (fun t => t.m = s.m ∧
        ∃ u x, t.region? r.rid = some u ∧ u.elem? e.row 0 = some x ∧ x.mp.isOpen = true))) ∧
    (far → b.getLsbD 24 = false → e.mp.isOpen = true → tok.tag = 0 →
      let ev := Instr.circuitTokenArrival r.rid e.row q tok.kind tok.par tok.payload
      (q ≠ e.mp.expect → (q + 65536 - e.mp.expect) % 65536 < 64 → (∀ p ∈ e.mp.reseq, p.1 ≠ q ∧ p.1 ≠ e.mp.expect) →
        Does ev s (fun t => t.m = s.m ∧ ∃ u, t.region? r.rid = some u ∧ u.arcs = r.arcs ∧
          u.elem? e.row 0 = some { e with mp := { e.mp with reseq := e.mp.reseq ++ [(q, tok)] } })) ∧
      (q = e.mp.expect → e.mp.reseq = [] → e.mp.rounds ≠ 2 → r.free e = true → e.atEnd = false → e.todo = [] →
        r.accepts e (outsOf 0 f) = true → tok.kind ≤ 2 → outsOf 0 f ≠ 0 →
        let via := s.carrier r.site.part (bits b 11 0) 65536 (bits b 23 15)
        s.linkFree r.site.part r.die via.2 = true →
        Does ev s (fun t => t.m = s.m ∧ t.host.outbox = s.host.outbox ++ [.credit r.site.part (bits b 11 0) (bits b 14 12) (bits b 23 15) via.1] ∧
          ∃ u x, t.region? r.rid = some u ∧ Moved r u e [] [{ mask := outsOf 0 f, tok := tok }] ∧ u.elem? e.row 0 = some x ∧
            x.mp.expect = (q + 1) % 65536 ∧ x.mp.reseq = []))) ∧
    (s.runs r = true → e.mp.isOpen = true → circuitClosed e b = false → r.phase ≠ .frozen → r.hasFaulted e = false →
      (far ∨ s.endLives r b = false) →
      Does (.circuitOtherEndLost r.rid e.row) s (fun t => t.m = s.m ∧ ∃ g, t.region? r.rid = some { r with faults := r.faults ++ [g] } ∧
        g.cause = 5 ∧ g.detail = b ∧ g.row = e.row ∧ g.col = 0)))

/-- Launches (R22, R30, R376 to R383). A whole message enters the mailbox with whether the partition is in RUN, or is
refused FULL; the oldest message is refused with code 1 where the partition was not or is not in RUN, 2 where its
format is wrong, 3 where it names no graph or kernel, else with the lowest further code that it meets, or admitted,
with its root strands queued at the kernel's entry, bits 1 and 0 of the pc zero (log entry 109); a launch whose
strands, copies and residencies are gone ends with a record of KIND 3; a read pops the oldest record. -/
def Obligations.Launches : Prop :=
  ∀ (s : State) (fn : Nat) (msg : BitVec 512), fn < 64 →
    let x := s.fn fn
    let die := bits (msgWord msg 0) 10 8
    let tag := bits (msgWord msg 0) 63 32
    let posts (t : State) (r : StatusRec) : Prop := (t.fn fn).fifo = x.fifo ++ [r]
    (s.dead fn = false →
      (x.mailbox.length < 16 → Does (.launchMessage fn msg true) s (fun t => t.m = s.m ∧ 
        (t.fn fn).mailbox = x.mailbox ++ [(msg, (s.part fn).tstate == .run)] ∧ (t.fn fn).fifo = x.fifo)) ∧
      (16 ≤ x.mailbox.length → s.roomForFull fn = true → x.fullCount = 0 → Does (.launchMessage fn msg true) s (fun t =>
        (t.fn fn).mailbox = x.mailbox ∧ posts t (statusRec 2 11 0 die tag))) ∧
      (∀ r rest, x.fifo = r :: rest → x.fullCount = 0 → Does (.statusRead fn) s (fun t => t.m = s.m ∧ (t.fn fn).fifo = rest ∧
        t.host.outbox = s.host.outbox ++ [.completion fn (leBytes 8 r.word0.toNat ++ leBytes 8 r.word1.toNat) 0]))) ∧
    (∀ up rest, x.mailbox = (msg, up) :: rest → s.roomToAdmit fn = true →
      let refuses (code : Nat) : Prop := Does (.launchAdmission fn) s (fun t => (t.fn fn).mailbox = rest ∧
        posts t (statusRec 2 code 0 die tag) ∧ t.work.launches = s.work.launches)
      (up = false ∨ (s.part fn).tstate ≠ .run → refuses 1) ∧
      (up = true → (s.part fn).tstate = .run → badFormat msg = true → refuses 2) ∧
      (up = true → (s.part fn).tstate = .run → badFormat msg = false → (s.die die).trained = true →
        s.graphOf fn (msgWord msg 1) = none → refuses 3) ∧
      (∀ g, up = true → (s.part fn).tstate = .run → badFormat msg = false → (s.die die).trained = true →
        s.graphOf fn (msgWord msg 1) = some g →
        (g.kernels[bits (msgWord msg 2) 15 0]? = none → refuses 3) ∧
        ∀ k, g.kernels[bits (msgWord msg 2) 15 0]? = some k →
        (∀ c cs, s.refusals fn die msg g k = c :: cs → refuses c) ∧
        (s.refusals fn die msg g k = [] → Does (.launchAdmission fn) s (fun t => (t.fn fn).mailbox = rest ∧ t.m = s.m ∧
          ∃ l ys, t.work.launches = s.work.launches ++ [l] ∧ l.die = die ∧ l.part = fn ∧ l.kernel = k ∧ l.tag = tag ∧
            l.ptb = msgWord msg 3 ∧ l.tvec = msgWord msg 4 ∧ l.asid = (s.part fn).asidBase + bits (msgWord msg 2) 24 16 ∧
            posts t (statusRec 1 0 l.lid die tag) ∧ t.others = s.others ++ ys ∧ ys.length = k.roots ∧
            ∀ i y, ys[i]? = some y → y.st = .queued ∧ y.id.ctx = .launch die l.lid ∧ y.pc = k.entry &&& ~~~3#64 ∧
              y.g = regsFrom [w64 i, msgWord msg 5, msgWord msg 6, w64 l.lid])))) ∧
    (∀ lid l, s.launch? die lid = some l → l.part = fn → s.liveOf (.launch die lid) = 0 →
      (∀ c ∈ s.work.copies, c.site.ctx ≠ .launch die lid) → (∀ y ∈ s.work.residencies, y.launch ≠ (die, lid)) →
      Does (.launchComplete die lid) s (fun t => t.launch? die lid = none ∧ posts t (l.endRec 3)))

/-- BARs, event queue, MSI-X, host DMA, resets and IDE (R65, R292, R367 to R369, R372, R435 to R437, R459, R464). A write of
EQHEAD sets its low byte; one of the command word, when none is under way, hands it over and clears DONE; one of a
request word sets it; one of an MSI-X entry, for the PF or while the partition is UNLOCKED, sets it, and where it clears
the mask of a pending vector the message is sent and the pending bit cleared. While the partition of a VF is LOCKED or in
RUN, a write of an MSI-X entry, a function-level reset and the loss of its IDE stream each put it into ERROR and end its
launches. IDE key management brings the stream up. A request that the device does not support is answered with status 2.
While the event queue is not full, the oldest report takes the record at EQTAIL, which advances. A host read of eight
bytes shows EQHEAD, EQTAIL, the response word with DONE and CODE, a response word, a half of an MSI-X entry, the pending
bits or a word of an event record, and zero at an offset that the map does not list; one of the status register of
another size than its 16 bytes shows zero, and none of these changes anything but its answer; in ERROR a read gives all
ones; a VF in RECOVERY, which is not enumerated, answers as unsupported (log entry 132). A host DMA access that the
partition's state and granules do not allow is answered with status 1; one that they allow gives the bytes of lines
without error marks, as the page's key shows them, or, where every cell is VALUE, stores its bytes and changes no other. -/
def Obligations.HostPort : Prop :=
  ∀ (s : State) (fn : Nat) (value : Word) (v : BitVec 128), fn < 64 →
    let x := s.fn fn
    (s.dead fn = false →
      Does (.eqheadWrite fn value) s (fun t => t = s.setFn fn { x with eqHead := value.truncate 8 }) ∧
      (x.done = true → Does (.registerWrite fn 0x100 value) s (fun t => t = s.setFn fn { x with running := some value, done := false })) ∧
      (∀ i, i < 31 → Does (.registerWrite fn (0x108 + 8 * i) value) s (fun t =>
        t = s.setFn fn { x with request := x.request.setIfInBounds i value })) ∧
      (∀ off n bs, off % 8 = 0 → n = 8 → bs = leBytes 8 (
          if off = 0x80 then x.eqHead.toNat else if off = 0x88 then x.eqTail.toNat
          else if off = 0x200 then (if x.done then 1 else 0) + 2 ^ 8 * x.code.toNat
          else if 0x208 ≤ off ∧ off < 0x300 then (x.response[(off - 0x208) / 8]?.getD 0#64).toNat
          else if 0x1000 ≤ off ∧ off < 0x1400 then (x.msix[(off - 0x1000) / 16]?.getD 0#128).toNat / 2 ^ (8 * (off % 16)) % 2 ^ 64
          else if off = 0x1800 then x.pba.toNat
          else if 0x2000 ≤ off ∧ off < 0x4000 then (match x.events[(off - 0x2000) / 32]? with
            | some r => ([r.word0, r.pc, r.info, r.time].getD (off % 32 / 8) 0#64).toNat
            | none => 0)
          else 0) →
        Acted (.barRead fn off n) s (fun t => t.fn fn = x ∧ t.m = s.m ∧ t.host.outbox = s.host.outbox ++ [.completion fn bs 0])) ∧
      (∀ n, n ≤ 4096 → n ≠ 16 → Acted (.barRead fn 0x40 n) s (fun t => t.fn fn = x ∧ t.m = s.m ∧
        ∃ bs, t.host.outbox = s.host.outbox ++ [.completion fn bs 0] ∧ bs.length = n ∧ ∀ i, i < n → i < 16 → bs[i]? = some 0#8)) ∧
      (∀ idx, idx < 64 → (fn = 0 ∨ (s.part fn).tstate = .unlocked) →
        (v.getLsbD 96 = true ∨ x.pba.getLsbD idx = false → Does (.msixTableWrite fn idx v) s (fun t =>
          t = s.setFn fn { x with msix := x.msix.setIfInBounds idx v })) ∧
        (v.getLsbD 96 = false → x.pba.getLsbD idx = true → Does (.msixTableWrite fn idx v) s (fun t => t.m = s.m ∧
          (t.fn fn).pba.getLsbD idx = false ∧ t.host.outbox = s.host.outbox ++ [.msix fn (v.truncate 64) (v.extractLsb' 64 32)])))) ∧
    (∀ off n, n ≤ 4096 →
      (s.absent fn = true → Acted (.barRead fn off n) s (fun t => t.fn fn = x ∧ t.host.outbox = s.host.outbox ++ [.completion fn [] 2])) ∧
      (s.absent fn = false → (s.part fn).tstate = .error → Acted (.barRead fn off n) s (fun t => t.fn fn = x ∧
        t.host.outbox = s.host.outbox ++ [.completion fn (List.replicate n 0xFF#8) 0]))) ∧
    (∀ idx, fn ≠ 0 → s.absent fn = false → (s.part fn).tstate = .locked ∨ (s.part fn).tstate = .run →
      let lost (t : State) : Prop := (t.part fn).tstate = .error ∧ ∀ l ∈ t.work.launches, l.part ≠ fn
      Does (.msixTableWrite fn idx v) s lost ∧ Does (.functionLevelReset fn) s lost ∧ Does (.ideStreamLoss fn) s lost) ∧
    Does (.ideKeyManagement fn) s (fun t => t = s.setFn fn { x with ide := true }) ∧
    Does (.unsupportedRequest fn) s (fun t => t = s.send (.completion fn [] 2)) ∧
    (∀ r rest, x.reports = r :: rest → x.eqTail + 1#8 ≠ x.eqHead → Does (.eventQueueAppend fn) s (fun t => t.m = s.m ∧
      (t.fn fn).reports = rest ∧ (t.fn fn).eqTail = x.eqTail + 1#8 ∧ (t.fn fn).events[x.eqTail.toNat]? = some r)) ∧
    (∀ trusted addr len (data : List (BitVec 8)) p,
      (s.dmaAllowed fn trusted (dmaParts fn 3 addr len) = false → Does (.hostDmaRead fn trusted addr len) s (fun t =>
        t = s.send (.completion fn [] 1))) ∧
      (data.length = len → s.dmaAllowed fn trusted (dmaParts fn 3 addr len) = false → Does (.hostDmaWrite fn trusted addr data) s (fun t =>
        t = s.send (.completion fn [] 1))) ∧
      (dmaParts fn 3 addr len = [p] → s.dmaAllowed fn trusted [p] = true → s.dmaAdmits fn [p] = true →
        let c := (s.charge fn (paDie p.1) 2 p.2.2).useKeys fn p.2.1 p.1 p.2.2
        ((∀ g ∈ unitsOf p.1 p.2.2 64, c.isPoisoned g = false) → Does (.hostDmaRead fn trusted addr len) s (fun t => t.m = c.m ∧
          t.host.outbox = c.host.outbox ++ [.completion fn (c.rdBytes p.1 p.2.2) 0])) ∧
        (data.length = len → p.2.2 = len → c.memOk → (∀ g ∈ unitsOf p.1 p.2.2 32, c.tag g = .value) →
          Does (.hostDmaWrite fn trusted addr data) s (fun t => t.rdBytes p.1 len = data ∧ SameBytesBut p.1 len c t))))

/-- The SPDM responder and the TDISP states (R369 to R371), in codes of SPDM 1.3 and TDISP 1.0 (log entry 116). Each
request of the negotiation answers and advances it, the algorithms being what the request and the four SM algorithms
have in common; a request out of order answers an error; the certificate, its digest, a signed challenge and
measurements 1 to 5 are given out; session requests act on their session; an interface is locked, with its report,
started and torn down only on a session that has named its partition, when no command of the PF for the partition is
before it; a lock that came in the step of such a command fails once that is done, and where the entry is VALID still the
partition is in ERROR. Three points are the model's choice: the numbers of the answers (log entry 75), that GET_VERSION ends the
sessions (log entry 77), and that KEY_EXCHANGE names the session's partition (log entry 32). -/
def Obligations.Attestation : Prop :=
  ∀ (s : State) (n p : Nat) (x : Session), s.spdmUp = true →
    let d := s.host.spdm
    let is (i : Instr) (d' : Spdm) (code : Nat) (ws : List Word) : Prop :=
      Does i s (fun t => t = (s.setSpdm d').send (.spdm code ws))
    let named := s.session? n = some x ∧ x.up = true ∧ d.phase = 3
    is .getVersion { d with phase := 1, sessions := [] } 0x04 [0x1300#64] ∧
    (1 ≤ d.phase → is .getCapabilities { d with phase := max 2 d.phase } 0x61 [0x62D6#64]) ∧
    (2 ≤ d.phase → Does .negotiateAlgorithms s (fun t => ∃ asym hash dhe aead : BitVec 32,
      t = ({ s with free := s.free + 1 }.setSpdm { d with phase := 3 }).send (.spdm 0x63
        [(0x200#32 &&& asym).setWidth 64, (0x40#32 &&& hash).setWidth 64, (0x40#32 &&& dhe).setWidth 64, (0x8#32 &&& aead).setWidth 64]))) ∧
    (d.phase < 3 → is .getDigests d 0x7F [4#64] ∧ is (.keyExchange none) d 0x7F [4#64] ∧ is (.finish n) d 0x7F [4#64]) ∧
    (d.phase = 3 →
      is .getDigests d 0x01 (1#64 :: digestWords identityDigest) ∧
      is (.getCertificate 0) d 0x02 Config.certificate ∧
      (∀ nonce, is (.challenge 0 nonce) d 0x03 (digestWords identityDigest ++
        digestWords (Config.deviceSign (Config.sm3 64 (identityDigest.toNat + 2 ^ 256 * nonce.toNat))))) ∧
      is (.getMeasurements 0 1) d 0x60 (1#64 :: digestWords Config.bootRom) ∧
      (∀ i dg, (i = 2 ∧ d.measured.head? = some dg) ∨ (i = 3 ∧ dg = Config.sm3 4 s.translatorVersion.toNat) ∨
        (i = 4 ∧ dg = Config.sm3 6 (s.microcodeRevision.toNat + 2 ^ 32)) ∨ (i = 5 ∧ dg = Config.fuseDigest s.spareMap) →
        is (.getMeasurements 0 i) d 0x60 (w64 i :: digestWords dg)) ∧
      (∀ part, is (.keyExchange part) { d with
        sessions := d.sessions ++ [{ num := d.nextNum, part := part, up := false }], nextNum := d.nextNum + 1 } 0x64 [w64 d.nextNum]) ∧
      (s.session? n = some x → is (.finish n) { d with
        sessions := d.sessions.map (fun y => if y.num = n then { y with up := true } else y) } 0x65 [])) ∧
    (named →
      is (.keyUpdate n) d 0x69 [] ∧ is (.heartbeat n) d 0x68 [] ∧
      is (.endSession n) { d with sessions := d.sessions.filter (fun y => y.num != n) } 0x6C [] ∧
      (n ≠ 0 → x.part = some p → is (.getMeasurements n 8) d 0x60
        [8#64, w64 ((s.part p).debugBits.toNat + 2 ^ 8 * ((s.part p).keyGen.toNat % 256))])) ∧
    (named → p ≠ 0 → p < 64 → s.pfWrites p = false → x.part ≠ some p →
      is (.lockInterfaceRequest n p) d 0x7E [0x7F#64, 0x101#64] ∧ is (.startInterfaceRequest n p) d 0x7E [0x7F#64, 0x101#64] ∧
      is (.stopInterfaceRequest n p) d 0x7E [0x7F#64, 0x101#64]) ∧
    (named → p ≠ 0 → p < 64 → s.pfWrites p = true → x.part = some p → Does (.lockInterfaceRequest n p) s (fun t =>
      t = s.setPart p { s.part p with raced := true })) ∧
    (named → p ≠ 0 → p < 64 → s.pfWrites p = false → x.part = some p →
      let done (i : Instr) (ws : List Word) (st : TState) : Prop := Does i s (fun t => t.m = s.m ∧
        t.part p = { s.part p with tstate := st } ∧ t.host.outbox = s.host.outbox ++ [.spdm 0x7E ws])
      ((s.part p).tstate = .unlocked → (s.part p).valid = true → (s.part p).raced = false →
        done (.lockInterfaceRequest n p) (3#64 :: ((s.part p).entry 1 ++ [w64 (s.part p).debugBits.toNat])) .locked) ∧
      ((s.part p).raced = true → Does (.lockInterfaceRequest n p) s (fun t => (t.part p).raced = false ∧
        (t.part p).tstate = (if (s.part p).tstate = .unlocked ∧ (s.part p).valid = true then .error else (s.part p).tstate))) ∧
      ((s.part p).tstate = .locked → (s.fn p).ide = true → done (.startInterfaceRequest n p) [6#64] .run) ∧
      ((s.part p).tstate ≠ .locked → Does (.startInterfaceRequest n p) s (fun t => t.part p = s.part p)) ∧
      Does (.stopInterfaceRequest n p) s (fun t => (t.part p).tstate = .unlocked ∧ (t.part p).valid = false ∧
        (t.part p).keyGen = (s.part p).keyGen ∧ (∀ l ∈ t.work.launches, l.part ≠ p) ∧ ∀ e ∈ t.m.tlb, e.part ≠ p))

/-- Management commands (R359 to R375, R392, R414, R418, R419, R425, R428, R437, R438, R452). Each command that firmware
takes with a sound word and sound request words acts on its partition and completes with CODE 0; one that is not
listed completes with CODE 12; a DEBUG_INSTALL whose record is not sound completes with CODE 5 and leaves DEBUG at 0 and
all else as it was. Peer bindings from outside (R418, R419): the other module's request counts while the partition is in
RUN, with its granules; at the end of a binding no translation of the partition is left, and none of its accesses to that
module. Three points are the model's choice: that all the partition's bindings lose their translations (log entry 83), and,
of debugging, that STRAND_RESUME of a strand stopped by DEBUG_CMD keeps its pc, and how DEBUG_CMD names a location (log
entry 84). -/
def Obligations.ManagementCommands : Prop :=
  (∀ (s : State) (fn : Nat) (w : Word), fn < 64 → s.pending fn = some w → s.plant.bring ≠ .recovery →
    let op := bits w 7 0
    let P := commandPart fn op w
    let x := s.part P
    let req (i : Nat) : Word := s.rq fn i
    let ok (n : Nat) : Prop := op = n ∧ bits w 63 14 = 0 ∧ (n ≤ 7 → fn = 0)
    let ended (t : State) (code : Nat) (rs : List Word) : Prop := (t.fn fn).done = true ∧ (t.fn fn).running = none ∧
      (t.fn fn).code = BitVec.ofNat 8 code ∧ ∀ i, i < 31 → i < rs.length → (t.fn fn).response[i]? = rs[i]?
    let does (i : Instr) (rs : List Word) (Q : State → Prop) : Prop := Does i s (fun t => ended t 0 rs ∧ Q t)
    ((op = 0 ∨ 14 < op ∨ (op ≤ 7 ∧ fn ≠ 0)) → Does (.managementCommandOpcode fn) s (fun t => ended t 12 [] ∧ t.m = s.m)) ∧
    (ok 1 → x.tstate = .unlocked → s.partSetCode P req = 0 → does (.partSet fn) [] (fun t =>
      t.part P = { x.written req with keyGen := if (x.written req).valid && !x.valid then x.keyGen + 1#64 else x.keyGen
                                      tstate := if P = 0 ∧ (x.written req).valid then .run else x.tstate } ∧
      ∀ e ∈ t.m.tlb, e.part ≠ P ∧ ∀ a, e.asid = some a → a < (x.written req).asidBase ∨
        (x.written req).asidBase + (x.written req).asidCnt ≤ a)) ∧
    (∀ c, ok 1 → x.tstate = .unlocked → s.partSetCode P req = c → c ≠ 0 → Does (.partSet fn) s (fun t => ended t c [] ∧
      t.part P = x ∧ t.m = s.m)) ∧
    (ok 2 → does (.partClear fn) [] (fun t => (t.part P).valid = false ∧ (t.part P).tstate = .unlocked ∧
      (t.part P).keyGen = x.keyGen ∧ (∀ l ∈ t.work.launches, l.part ≠ P) ∧ ∀ e ∈ t.m.tlb, e.part ≠ P)) ∧
    (ok 3 → x.tstate = .unlocked → policyOk P (s.policyOf fn) = true → does (.debugInstall fn) [] (fun t =>
      t.part P = { x with debugBits := BitVec.ofNat 8 (recField (s.policyOf fn) 3 1), policy := some (s.policyOf fn) } ∧ t.m = s.m)) ∧
    (ok 3 → x.tstate = .unlocked → policyOk P (s.policyOf fn) = false → Does (.debugInstall fn) s (fun t => ended t 5 [] ∧
      t.part P = { x with debugBits := 0#8 } ∧ t.m = s.m)) ∧
    (∀ l, ok 4 → req 0 = 3#64 → x.debugBits.getLsbD 3 = true → (req 2).toNat ≤ 192 → s.debugLoc P (req 1) (req 2).toNat = some l →
      does (.debugCmd fn) (replyWords ((if isDram l then s.plainKeys P l (req 2).toNat else s).rdBytes l (req 2).toNat)) (fun t => t.m = s.m)) ∧
    (ok 4 → req 0 = 3#64 → x.debugBits.getLsbD 3 = false → Does (.debugCmd fn) s (fun t => ended t 6 [] ∧ t.m = s.m)) ∧
    (ok 5 → (∀ i, 4 ≤ i → i < 8 → req i = 0#64) → does (.budgetSet fn) [] (fun t => t.m = s.m ∧ (t.part P).budget =
      #v[budgetField 32 (bits (req 0) 31 0), budgetField 32 (bits (req 0) 63 32), budgetField 64 (req 1).toNat,
         budgetField 64 (req 2).toNat, budgetField 64 (req 3).toNat])) ∧
    (ok 6 → does (.budgetGet fn)
      (let f (i n : Nat) : Nat := (x.budget[i]?.getD none).getD (2 ^ n - 1)
       [w64 (f 0 32 % 2 ^ 32 + 2 ^ 32 * (f 1 32 % 2 ^ 32)), w64 (f 2 64), w64 (f 3 64), w64 (f 4 64), 0#64, 0#64, 0#64, 0#64])
      (fun t => t.m = s.m ∧ t.part P = x)) ∧
    (ok 7 → x.tstate = .run → (req 0).toNat < 512 → (req 0).toNat ≠ s.plant.modNum → (req 1).toNat < 64 → (req 2).toNat < x.asidCnt →
      does (.peerSet fn) [] (fun t => t.m = s.m ∧ ∃ b ∈ t.host.peers, b.part = P ∧ b.remModule = (req 0).toNat ∧
        b.remPart = (req 1).toNat ∧ b.asidx = (req 2).toNat ∧ b.ptb = req 3 ∧ b.tvec = req 4 ∧ b.mine = true)) ∧
    (∀ y k, s.lacksHalt fn P = false → s.stoppedStrand P (req 0).toNat = some (y, k) → s.strand? y.id.uid = some y →
      (ok 8 → does (.strandResume fn) [] (fun t => t.m = s.m ∧ ∃ z, t.strand? y.id.uid = some z ∧
        z.st = (if y.st = .saved then .saved else .active) ∧ z.pc = (if k = 2 then y.pc + 4#64 else y.pc) ∧
        z.ctl = (if k = 1 then { y.ctl with itr := false } else y.ctl) ∧ SameRegisters y z)) ∧
      (ok 9 → s.unacked y.id.uid = false → (s.all.map (·.id.uid)).Nodup → does (.strandKill fn) [] (fun t =>
        t.strand? y.id.uid = none))) ∧
    (ok 10 → x.tstate = .run → (req 1).toNat < x.asidCnt → does (.pagerSet fn) [] (fun t => t.m = s.m ∧
      (t.part P).pager = some { entry := req 0, asidx := (req 1).toNat, ptb := req 2, tvec := req 3 })) ∧
    (ok 11 → let k := containerOf ((s.rdBytes (req 0).toNat (req 1).toNat).take
        (byteField (s.rdBytes (req 0).toNat (req 1).toNat) 20 4))
      let site := siteOf P (x.asidBase + (req 2).toNat) (req 3)
      s.inGranules P (req 0).toNat (req 1).toNat = true →
      s.loadCode site (req 0).toNat (req 1).toNat (req 2).toNat (req 4).toNat (req 5).toNat k = 0 →
      Does (.graphLoad fn) s (fun t => ∃ g ∈ t.work.graphs, g.part = P ∧ g.loaded = true ∧ g.kernels = k.kernels ∧
        g.key = s.cacheKey k.bytes ∧ ended t 0 [w64 (g.gen * 2 ^ 8 + g.slot)])) ∧
    (∀ g, ok 12 → s.work.graphs.find? (fun g => g.part == P && g.loaded && g.gen * 256 + g.slot == (req 0).toNat) = some g →
      (s.graphBusy g = false → does (.graphUnload fn) [] (fun t => t.m = s.m ∧
        ∀ h ∈ t.work.graphs, h.part = P → h.slot = g.slot → h.loaded = false)) ∧
      (s.graphBusy g = true → Does (.graphUnload fn) s (fun t => ended t 11 [] ∧ t.work.graphs = s.work.graphs))) ∧
    (ok 13 → does (.features fn) [featureVector, w64 s.plant.bring.code] (fun t => t.m = s.m)) ∧
    (ok 14 → x.tstate = .run → bits (req 0) 63 28 = 0 → bits (req 1) 63 32 = 0 → bits (req 0) 7 0 = 0 → bits (req 0) 17 12 ≠ 1 →
      does (.subscribe fn) [0#64] (fun t => t.m = s.m ∧ ∀ b ∈ (t.part P).subs, b.slot ≠ bits (req 0) 21 18)) ∧
    (∀ src, ok 14 → x.tstate = .run → bits (req 0) 63 28 = 0 → bits (req 1) 63 32 = 0 → bits (req 0) 7 0 = src → 0 < src → src ≤ 10 →
      bits (req 0) 17 12 ≠ 1 → (req 2).toNat % 8 = 0 → (s.notifyLoc P (bits (req 0) 10 8) (bits (req 0) 27 22) (req 2)).isSome = true →
      Does (.subscribe fn) s (fun t => ended t 0 [] ∧ t.m = s.m ∧ ∃ b ∈ (t.part P).subs, b.slot = bits (req 0) 21 18 ∧ b.source = src ∧
        b.die = bits (req 0) 10 8 ∧ b.vec = bits (req 0) 17 12 ∧ b.thresh = bits (req 1) 31 0 ∧ b.notify = req 2))) ∧
  (∀ (s : State) (remModule remPart part : Nat) (gs : List (Nat × Nat)),
    ((s.part part).tstate = .run → Does (.peerBindingRequest remModule remPart part gs) s (fun t => t.m = s.m ∧ ∃ b ∈ t.host.peers,
      b.of part remModule remPart = true ∧ b.theirs = true ∧ b.granules = gs)) ∧
    ((s.part part).tstate ≠ .run → Does (.peerBindingRequest remModule remPart part gs) s (fun t => t = s)) ∧
    (s.host.peers.any (fun b => b.of part remModule remPart) = true →
      Does (.peerBindingEnd remModule remPart part) s (fun t =>
        (∀ b ∈ t.host.peers, b.of part remModule remPart = false) ∧ (∀ e ∈ t.m.tlb, e.part ≠ part) ∧
        ∀ o ∈ t.host.outstanding, o.part = part → paModule o.pa ≠ remModule)))

/-- Periods, the arbiter, the slack controller, droop and temperature (R393, R445, R447 to R449, R451, R455). Reliability
and bring-up (R458, R459, R461, R462, R464 to R466). A scrub marks a line; a failed cluster leaves service with its
partitions in ERROR; an empty one is replaced by an idle spare; the bring-up goes from firmware to dies to full
service, where the images that wait have a decision due and the notch falls a step a millisecond; a cold reset gives the
state of reset. Firmware writes DROOPCTL, CREDDLY and PLIM, which is never above 3,600 W, the timebase takes a rate within
200 ppm, and a local word shows an uncorrectable error (R447, R449, R451, R458, R460). Four points are the model's choice:
which kind of cluster is lowered when both drew the same (log entry 87), which peers the slack controller compares
with (log entry 98), that a cold reset leaves memory as it is in the reset state (log entries 91 and 3), and, read from R462
by inference, which partitions use a failed cluster (log entry 89). -/
def Obligations.PowerPeriodsAndReliability : Prop :=
  (∀ (s : State) (die cluster : Nat),
    let p := s.plant.power
    let now := s.plant.time.toNat
    (p.periods < now / 64000 → Does (.periodBoundary) s (fun t => t.plant.power.periods = p.periods + 1 ∧ t.plant.time = s.plant.time ∧
      ∀ q d, q < 64 → d < 8 → ∀ i : Fin 5,
        let a : Avail := (s.part q).avail[d]?.getD {}
        let b : Avail := (t.part q).avail[d]?.getD {}
        b.prev.get i = a.used.get i ∧ b.used.get i = 0 ∧ ∀ n, (s.part q).budget.get i = some n →
          b.left.get i = (n : Int) + (if a.left.get i < 0 then a.left.get i else min (n : Int) (a.left.get i)))) ∧
    (∀ power broad narrow, p.intervals < now / 10000 → Does (.arbiterInterval power broad narrow) s (fun t => t.m = s.m ∧
      t.plant.power.reading = power ∧ t.plant.power.intervals = p.intervals + 1 ∧
      (power ≤ p.plim → p.plim ≤ power + 100 → t.plant.power.broadFrac = p.broadFrac ∧ t.plant.power.narrowFrac = p.narrowFrac ∧
        t.plant.power.arbNotch = p.arbNotch) ∧
      (p.plim < power → narrow ≤ broad → 1 < p.broadFrac → t.plant.power.broadFrac = p.broadFrac - 1 ∧
        t.plant.power.narrowFrac = p.narrowFrac ∧ t.plant.power.arbNotch = p.arbNotch) ∧
      (p.plim < power → broad < narrow → 1 < p.narrowFrac → t.plant.power.narrowFrac = p.narrowFrac - 1 ∧
        t.plant.power.broadFrac = p.broadFrac ∧ t.plant.power.arbNotch = p.arbNotch) ∧
      (p.plim < power → p.broadFrac = 1 → p.narrowFrac = 1 → p.arbNotch < 7 → t.plant.power.arbNotch = p.arbNotch + 1))) ∧
    (∀ busy, s.windowDue = false ∨ busy ≠ s.ownBusy → Does (.slackWindow busy) s (fun t => t = s)) ∧
    (∀ busy, p.windows < now / 1000000 → busy = 1000000 - p.waited → Does (.slackWindow busy) s (fun t => t.m = s.m ∧ t.plant.power.windows = p.windows + 1 ∧
      t.plant.power.peers = [] ∧ (∃ h, t.host.outbox = s.host.outbox ++ [.slack h busy]) ∧
      (s.slowestPeer = none → t.plant.power.slackNotch = p.slackNotch - 1) ∧
      (∀ b, s.slowestPeer = some b → 100 * busy < 95 * b → t.plant.power.slackNotch = min 7 (p.slackNotch + 1)) ∧
      (∀ b, s.slowestPeer = some b → 95 * b ≤ 100 * busy → 100 * busy ≤ 105 * b → t.plant.power.slackNotch = p.slackNotch))) ∧
    (∀ peer throttled busy, Does (.slackPeerReport peer throttled busy) s (fun t => t.m = s.m ∧
      (peer, throttled, busy) ∈ t.plant.power.peers ∧ ∀ x ∈ t.plant.power.peers, x.1 = peer → x = (peer, throttled, busy))) ∧
    (∀ drop, die < 8 → let d := s.die die
      d.droopEn = true → d.droopMv ≤ drop → Does (.droopDetection die cluster drop) s (fun t => t.m = s.m ∧
        (t.cluster die cluster).freeze = s.cycle + d.freezeCycles ∧ (t.die die).droopCount = d.droopCount + 1#32)) ∧
    ((s.cluster die cluster).freeze ≤ s.cycle → Does (.droopFreezeEnd die cluster) s (fun t => t.m = s.m ∧
      (t.cluster die cluster).freeze = 0)) ∧
    (∀ frond row temp, die < 8 → let d := s.die die
      let seen : Bool := d.sampledAt.any (fun x => x.1 == cluster && x.2.1 == frond && x.2.2.1 == row && x.2.2.2 == now / 10000)
      (seen = true → Does (.rowTempSample die cluster frond row temp) s (fun t => t = s)) ∧
      (seen = false → Does (.rowTempSample die cluster frond row temp) s (fun t => t.m = s.m ∧
        (d.credHot ≤ temp → (cluster, frond, row) ∈ (t.die die).hotRows) ∧
        (temp + d.credHyst < d.credHot → (cluster, frond, row) ∉ (t.die die).hotRows) ∧
        (temp < d.credHot → d.credHot ≤ temp + d.credHyst → (t.die die).hotRows = d.hotRows)))) ∧
    (∀ v, die < 8 → let d := s.die die
      Acted (.droopctl die v) s (fun t => t.m = s.m ∧ t.die die = { d with
        droopEn := v.getLsbD 0, droopLen := v.toNat / 2 % 2 ^ 11, droopMv := v.toNat / 2 ^ 12 % 2 ^ 8 }) ∧
      Acted (.creddly die v) s (fun t => t.m = s.m ∧ t.die die = { d with
        credDelay := v.toNat % 2 ^ 8, credHot := v.toNat / 2 ^ 8 % 2 ^ 8, credHyst := v.toNat / 2 ^ 16 % 2 ^ 4 })) ∧
    (∀ w, Acted (.powerLimit w) s (fun t => t.m = s.m ∧ t.plant.power = { p with plim := min w 3600 })) ∧
    (∀ r : Int, Acted (.timeRate r) s (fun t => t.m = s.m ∧ t.plant = { s.plant with ppm := max (-200) (min 200 r) })) ∧
    (∀ l, isDram l = false → Acted (.wordError l) s (fun t => t.isPoisoned l = true ∧ SameBytes s t ∧
      ∀ k, k / 8 ≠ l / 8 → t.isPoisoned k = s.isPoisoned k))) ∧
  (∀ (s : State) (die cluster : Nat), die < 8 →
    let set (t : State) (b : BringUp) : Prop := t.m = s.m ∧ t.work = s.work ∧ t.plant.bring = b
    (∀ line, Does (.dramScrub die line true) s (fun t => t.isPoisoned (s.dieBase die + 64 * line) = true) ∧ Does (.dramScrub die line false) s (fun t => t = s)) ∧
    Does (.clusterHardFailure die cluster) s (fun t => (t.cluster die cluster).failed = true ∧ ∀ p, p < 64 →
      s.usesCluster p die cluster = true → (s.part p).tstate = .run ∨ (s.part p).tstate = .locked → (t.part p).tstate = .error) ∧
    ((s.cluster die cluster).failed = false → (s.die die).spareUsed = false → s.clusterClear die cluster = true →
      Does (.clusterMapOut die cluster) s (fun t => t.m = s.m ∧ (t.die die).spareUsed = true ∧ (t.cluster die cluster).onSpare = true ∧
        (t.cluster die cluster).failed = false)) ∧
    Does .coldReset s (fun t => t.m = State.reset.m ∧ t.work = State.reset.work ∧ t.cells = State.reset.cells ∧
      t.self = State.reset.self ∧ t.others = [] ∧ t.cores = [] ∧ t.plant.bring = .rom ∧ t.plant.time = 0#64 ∧
      t.plant.power = State.reset.plant.power ∧ ∀ p, p < 64 → (t.part p).valid = false ∧ (t.part p).tstate = .unlocked ∧ (t.part p).keyGen = 0#64) ∧
    (∀ digest key sig version, s.plant.bring = .rom ∨ s.plant.bring = .verify →
      let good := Config.sm3 64 key.toNat = Config.fusedKeyDigest ∧ Config.sm2Verify key digest sig = true ∧
        Config.fusedMinVersion ≤ version
      (good → Does (.firmwareVerify digest key sig version) s (fun t => set t .train ∧ t.host.spdm.measured = [digest])) ∧
      (¬good → Does (.firmwareVerify digest key sig version) s (fun t => set t .recovery ∧ t.host.spdm.measured = [digest]))) ∧
    (s.plant.bring = .train ∨ s.plant.bring = .spdm → (s.die die).trained = false → (s.die die).failed = false →
      Does (.dieTraining die false none) s (fun t => set t s.plant.bring ∧ (t.die die).failed = true ∧ (t.die die).trained = false) ∧
      (∀ spare, Does (.dieTraining die true spare) s (fun t => t.m = s.m ∧ (t.die die).trained = true ∧
        t.plant.bring = (if die = 0 ∧ s.plant.bring = .train then .spdm else s.plant.bring) ∧
        s.plant.time.toNat ≤ t.plant.time.toNat ∧ (die ≠ 0 → t.plant.time = s.plant.time) ∧
        ∀ c, spare = some c → (t.die die).spareUsed = true ∧ (t.cluster die c).onSpare = true))) ∧
    (s.plant.bring = .reduced → (∀ d, d < 8 → (s.die d).trained = true) → Does .fullService s (fun t => t.m = s.m ∧ t.plant.bring = .full ∧
      t.plant.power.fallLast = some s.plant.time ∧ t.work = { s.work with decisions := t.work.decisions } ∧
      (∀ c ∈ s.work.decisions, c ∈ t.work.decisions) ∧ ∀ w ∈ s.work.waitings, (w.die, w.cluster) ∈ t.work.decisions)) ∧
    (∀ since, s.plant.bring = .full → s.plant.power.fallLast = some since → since.toNat + 1000000 ≤ s.plant.time.toNat →
      let want := max s.plant.power.arbNotch s.plant.power.slackNotch
      Does .fullServiceNotchStep s (fun t => t.m = s.m ∧
        (want < s.plant.power.notch - 1 → t.plant.power.notch = s.plant.power.notch - 1) ∧
        (s.plant.power.notch - 1 ≤ want → t.plant.power.notch = want))))

/-- DECODE AND ENCODE AGREE (R97 to R112): the bytes of every well-formed instruction of the opcode map, every operand at
every value that its encoding admits, with any bytes behind them, decode to that instruction. -/
def Obligations.DecodeOfEncode : Prop :=
  ∀ (i : Instr) (rest : List (BitVec 8)), i.isStrand = true → i.wellFormed = true →
    (encode i).length = (if isPair ((encode i).headD 0#32) then 2 else 1) ∧
    decodeBytes ((encode i).flatMap Sys2Proof.wordBytes ++ rest) = .ok i

/-- Each word has one meaning (R97 to R112): what decodes is a well-formed instruction of the opcode map whose encoding is
that word, or those two of an L-format pair. So no reserved bit is ignored and no two instructions share a word. -/
def Obligations.EncodeOfDecode : Prop :=
  ∀ (w w2 : BitVec 32) (i : Instr), decode w w2 = .ok i →
    i.isStrand = true ∧ i.wellFormed = true ∧ encode i = (if isPair w then [w, w2] else [w])

/-- Words written out from the encodings of the spec decode to what they stand for (R97 to R112, R123 to R193). -/
def Obligations.DecodedWords : Prop :=
  decode 0x2C40000A#32 0#32 = .ok (.movi 4#6 10#20) ∧ decode 0x04514400#32 0#32 = .ok (.add 5#6 5#6 4#6 0#2) ∧
  decode 0x38900000#32 0x12345678#32 = .ok (.limm 9#6 0x12345678#32) ∧ decode 0x480FC000#32 0#32 = .ok (.jr 63#6) ∧
  decode 0x54108340#32 0#32 = .ok (.vadd 1#4 2#4 3#4 0#3) ∧ decode 0xA0000010#32 0#32 = .ok .exit ∧
  decode 0xA8000500#32 0#32 = .ok (.trap 5#6) ∧ decode 0xAC400005#32 0#32 = .ok (.ctlr 4#6 5#12) ∧
  decode 0x9C054002#32 0#32 = .ok (.frgo 21#6) ∧ (∃ e, decode 0#32 0#32 = .error e) ∧ ∃ e, decode 0xFFFFFFFF#32 0#32 = .error e

/-- A step runs the decoded instruction (R19, R97, R100). When the agenda gives the turn to a core that has not issued in
the cycle, and its search chooses the strand in the seat, which has no deferred trap to take, and the bytes at its pc,
as its page's key shows them (R367), decode to an instruction, the step is exec of that instruction on the state in
which the core has noted the issue. -/
def Obligations.StepRunsDecoded : Prop :=
  ∀ (s : State) (die cluster core : Nat) (rest : List Activity) (i : Instr) (w w2 : BitVec 32) (e : TlbEntry),
    let s0 : State := { s with agenda := rest }
    let c := s.core die cluster core
    let t := s.self
    let pa := e.pbase + (t.pc.toNat - e.vbase)
    let noted := s0.issued c t.id.slot s0.secondOf
    let bytes := (s.useKey t.id.part e.key pa).rdBytes pa 4
    s.agenda = .turn die cluster core :: rest → c.spent s.cycle = false → c.reserved s.cycle = none →
    s0.choose c = some t → t.live = true → s0.deferTaker = none →
    (s0.codeOf t = .have w w2 → decode w w2 = .ok i → step s = exec i noted) ∧
    ((∃ r, s0.space t.site .globalOnly t.pc 4 = .ok r) → t.pc.toNat % 4 = 0 →
      t.site.tlbs.findSome? (fun h => s.m.tlb.find? (fun e =>
        e.holder == h && !e.stale && e.covers t.site.part t.site.asid t.pc.toNat)) = some e →
      e.permits .fetch t.site.sMode = true → paModule pa = s.plant.modNum → s.isPoisoned pa = false →
      isPair (bytesWord bytes) = false → decodeBytes bytes = .ok i → step s = exec i noted)

/-- A well-formed event that the agenda appoints happens, and so does an act from outside the opcode table; an activity that
names a unit outside the module is a fault. That an agenda in the state says who acts next is the model's choice (log
entry 9). -/
def Obligations.StepPerformsEvents : Prop :=
  ∀ (s : State) (i : Instr) (rest : List Activity), s.agenda = .event i :: rest →
    (i.wellFormed = true → i.isStrand = false → step s = exec i { s with agenda := rest }) ∧
    (i.wellFormed = false ∨ i.isStrand = true → step s = .fault .noSuchUnit) ∧
    ∀ o, (o.real = true → step { s with agenda := .outside o :: rest } = .next ({ s with agenda := rest }.outside o)) ∧
      (o.real = false → step { s with agenda := .outside o :: rest } = .fault .noSuchUnit)

/-- The state after reset (R19, R20, R359, R360, R366, R447, R449, R451, R458, R464, R465): the boot ROMs run, no strand
is live, no partition is VALID, every field has the value that its map gives, the notch is 8, PLIM is 3,600 W, TIME is
0. -/
def Obligations.ResetState : Prop :=
  let s := State.reset
  s.plant.bring = .rom ∧ s.plant.power.notch = 8 ∧ s.plant.power.plim = 3600 ∧ s.plant.time = 0#64 ∧
  (∀ t ∈ s.all, t.live = false) ∧ s.work = {} ∧ s.cells = {} ∧ s.m.tags = [] ∧ s.m.empties = [] ∧ s.m.tlb = [] ∧
  (∀ d c k, (s.core d c k).last = 7 ∧ (s.core d c k).table = none) ∧
  (∀ d, d < 8 → (s.die d).trained = false ∧ (s.die d).droopEn = true ∧ (s.die d).droopLen = 64 ∧ (s.die d).droopMv = 20 ∧
    (s.die d).droopCount = 0#32) ∧
  ∀ p, p < 64 → (s.part p).valid = false ∧ (s.part p).tstate = .unlocked ∧ (s.part p).asidBase = 0 ∧ (s.part p).asidCnt = 0 ∧
    (s.part p).cellWait = 0x10000000 ∧ (s.part p).eovf = 1024 ∧ (s.part p).debugBits = 0#8 ∧ (s.part p).keyGen = 0#64 ∧
    (s.fn p).mailbox = [] ∧ (s.fn p).fifo = [] ∧ (s.fn p).eqHead = 0#8 ∧ (s.fn p).eqTail = 0#8

/-- The memory of the reset state has its canonical form, and every byte of it reads as nothing written (zero: for local
storage R59, for DRAM the model's choice of log entry 3). -/
def Obligations.ResetMemOk : Prop :=
  State.reset.memOk ∧ ∀ a, State.reset.byteAt a = 0#8

/-- AN INVARIANT THAT EVERY STEP KEEPS: memory keeps its canonical form, so that equal memories are equal data. -/
def Obligations.StepKeepsMemOk : Prop :=
  ∀ (s t : State), s.memOk → step s = .next t → t.memOk
end

