-- ==== Sys2Proof/Laws/Mem.lean ====
section
/-! SUPPORT. Laws of memory: reads after writes, what a write leaves alone, and that every memory operation keeps the
canonical form. -/
namespace Sys2Proof.Machine

/-! ## One byte -/

theorem memGet_cons (k : Nat) (c : Byte) (t : List Host.Cell) (a : Nat) :
    memGet ((k, c) :: t) a = if k = a then c else memGet t a := rfl

/-- Every address of the list lies above `k`. -/
def memAbove (k : Nat) (m : List Host.Cell) : Prop := ∀ c ∈ m, k < c.1

theorem memWf_cons (k : Nat) (b : Byte) (t : List Host.Cell) :
    memWf ((k, b) :: t) = true ↔ b ≠ unlisted ∧ memAbove k t ∧ memWf t = true := by
  induction t generalizing k b with
  | nil => simp [memWf, memAbove]
  | cons c t ih =>
    obtain ⟨k', b'⟩ := c
    simp only [memWf, Bool.and_eq_true, bne_iff_ne, decide_eq_true_eq, ih]
    constructor
    · rintro ⟨⟨h1, h2⟩, h3, h4, h5⟩
      refine ⟨h1, ?_, h3, h4, h5⟩
      intro c hc
      rcases List.mem_cons.mp hc with rfl | hc
      · exact h2
      · exact lt_trans h2 (h4 c hc)
    · rintro ⟨h1, h2, h3, h4, h5⟩
      exact ⟨⟨h1, h2 _ (List.mem_cons_self ..)⟩, h3, h4, h5⟩

theorem memGet_above {k a : Nat} {m : List Host.Cell} (h : memAbove k m) (ha : a ≤ k) : memGet m a = unlisted := by
  induction m with
  | nil => rfl
  | cons c t ih =>
    obtain ⟨k', b'⟩ := c
    have hk := h _ (List.mem_cons_self ..)
    rw [memGet_cons, if_neg (by simp only at hk; omega)]
    exact ih (fun c hc => h c (List.mem_cons_of_mem _ hc))

theorem memAbove_memSet {k a : Nat} {b : Byte} {m : List Host.Cell} (h : memAbove k m) (ha : k < a) :
    memAbove k (memSet m a b) := by
  induction m with
  | nil => simp only [memSet]; split <;> simp [memAbove, ha]
  | cons c t ih =>
    obtain ⟨k', b'⟩ := c
    have ht : memAbove k t := fun c hc => h c (List.mem_cons_of_mem _ hc)
    have hk := h _ (List.mem_cons_self ..)
    have put : ∀ l, memAbove k l → ∀ x, k < x → ∀ y : Byte, memAbove k ((x, y) :: l) := by
      intro l hl x hx y c hc
      rcases List.mem_cons.mp hc with rfl | hc
      · exact hx
      · exact hl c hc
    simp only [memSet]
    split
    · split
      · exact h
      · exact put _ h _ ha _
    · split
      · split
        · exact ht
        · exact put _ ht _ ha _
      · exact put _ (ih ht) _ hk _

/-- Writing a byte keeps the canonical form. -/
theorem memWf_memSet {m : List Host.Cell} (h : memWf m = true) (a : Nat) (b : Byte) : memWf (memSet m a b) = true := by
  induction m with
  | nil => simp only [memSet]; split <;> simp_all [memWf]
  | cons c t ih =>
    obtain ⟨k, x⟩ := c
    obtain ⟨h1, h2, h3⟩ := (memWf_cons ..).mp h
    simp only [memSet]
    split
    · split
      · exact h
      · next hk hb =>
        refine (memWf_cons ..).mpr ⟨hb, ?_, h⟩
        intro c hc
        rcases List.mem_cons.mp hc with rfl | hc
        · exact hk
        · exact lt_trans hk (h2 c hc)
    · split
      · next hk =>
        subst hk
        split
        · exact h3
        · next hb => exact (memWf_cons ..).mpr ⟨hb, h2, h3⟩
      · exact (memWf_cons ..).mpr ⟨h1, memAbove_memSet h2 (by omega), ih h3⟩

/-- A byte reads as it was last written, and a write leaves every other byte alone. -/
theorem memGet_memSet {m : List Host.Cell} (h : memWf m = true) (a a' : Nat) (b : Byte) :
    memGet (memSet m a b) a' = if a' = a then b else memGet m a' := by
  induction m with
  | nil =>
    simp only [memSet]
    split
    · next hb => subst hb; simp [memGet]
    · simp only [memGet, eq_comm (a := a')]
  | cons c t ih =>
    obtain ⟨k, x⟩ := c
    obtain ⟨h1, h2, h3⟩ := (memWf_cons ..).mp h
    have low : ∀ y, y ≤ k → memGet t y = unlisted := fun y hy => memGet_above h2 hy
    simp only [memSet]
    split
    · next hk =>
      split
      · next hb =>
        by_cases e : a' = a
        · subst e
          rw [if_pos rfl, hb, memGet_cons, if_neg (by omega), low _ (by omega)]
        · rw [if_neg e]
      · rw [memGet_cons]; simp only [eq_comm (a := a)]
    · split
      · next hk =>
        subst hk
        split
        · next hb =>
          by_cases e : a' = a
          · subst e
            rw [if_pos rfl, hb, low _ (le_refl _)]
          · rw [if_neg e, memGet_cons, if_neg (fun q => e q.symm)]
        · rw [memGet_cons, memGet_cons]
          by_cases e : a' = a
          · subst e; simp
          · rw [if_neg (Ne.symm e), if_neg (Ne.symm e), if_neg e]
      · rw [memGet_cons, memGet_cons, ih h3]
        by_cases e : a' = a
        · subst e
          rw [if_neg (by omega), if_pos rfl, if_pos rfl]
        · simp [e]

/-! ## Bytes -/

theorem memWf_memWrite (bs : List Byte) : ∀ {m : List Host.Cell}, memWf m = true → ∀ a, memWf (memWrite m a bs) = true := by
  induction bs with
  | nil => intro m h a; exact h
  | cons b bs ih => intro m h a; exact ih (memWf_memSet h a b) (a + 1)

/-- Bytes read as written within the range, as before outside it. -/
theorem memGet_memWrite (bs : List Byte) : ∀ {m : List Host.Cell}, memWf m = true → ∀ a x,
    memGet (memWrite m a bs) x = if a ≤ x ∧ x < a + bs.length then bs.getD (x - a) 0#8 else memGet m x := by
  induction bs with
  | nil => intro m _ a x; simp [memWrite]
  | cons b bs ih =>
    intro m h a x
    rw [memWrite, ih (memWf_memSet h a b), memGet_memSet h]
    simp only [List.length_cons]
    by_cases e : x = a
    · subst e; simp
    · by_cases e2 : a + 1 ≤ x ∧ x < a + 1 + bs.length
      · rw [if_pos e2, if_pos (by omega)]
        obtain ⟨n, rfl⟩ : ∃ n, x = a + 1 + n := ⟨x - (a + 1), by omega⟩
        rw [show a + 1 + n - (a + 1) = n by omega, show a + 1 + n - a = n + 1 by omega]
        rfl
      · rw [if_neg e2, if_neg e, if_neg (by omega)]

@[simp] theorem memBytes_length (m : List Host.Cell) (a n : Nat) : (memBytes m a n).length = n := by
  induction n generalizing a with
  | zero => rfl
  | succ n ih => simp [memBytes, ih]

theorem memBytes_eq (m : List Host.Cell) (a n : Nat) : memBytes m a n = (List.range n).map (fun i => memGet m (a + i)) := by
  induction n generalizing a with
  | zero => rfl
  | succ n ih =>
    rw [memBytes, ih, List.range_succ_eq_map, List.map_cons, List.map_map]
    simp [Function.comp_def, Nat.add_comm, Nat.add_left_comm]

theorem memBytes_congr {m m' : List Host.Cell} {a n : Nat} (h : ∀ x, a ≤ x → x < a + n → memGet m x = memGet m' x) :
    memBytes m a n = memBytes m' a n := by
  rw [memBytes_eq, memBytes_eq]
  apply List.map_congr_left
  intro i hi
  rw [List.mem_range] at hi
  exact h _ (by omega) (by omega)

/-- What was written at a place is read there. -/
theorem memBytes_memWrite {m : List Host.Cell} (h : memWf m = true) (a : Nat) (bs : List Byte) :
    memBytes (memWrite m a bs) a bs.length = bs := by
  rw [memBytes_eq]
  apply List.ext_getElem (by simp)
  intro i h1 h2
  simp only [List.getElem_map, List.getElem_range, memGet_memWrite bs h]
  rw [if_pos (by omega), show a + i - a = i by omega]
  simp [h2]

/-- What lies apart from a write is read as before. -/
theorem memBytes_memWrite_apart {m : List Host.Cell} (h : memWf m = true) (a : Nat) (bs : List Byte) {a' n : Nat}
    (ha : a' + n ≤ a ∨ a + bs.length ≤ a') : memBytes (memWrite m a bs) a' n = memBytes m a' n := by
  apply memBytes_congr
  intro x h1 h2
  rw [memGet_memWrite bs h, if_neg (by omega)]

@[simp] theorem leBytes_length (n x : Nat) : (leBytes n x).length = n := by
  induction n generalizing x with
  | zero => rfl
  | succ n ih => simp [leBytes, ih]

theorem leNat_leBytes (n x : Nat) : leNat (leBytes n x) = x % 256 ^ n := by
  induction n generalizing x with
  | zero => simp [leBytes, leNat, Nat.mod_one]
  | succ n ih =>
    rw [leBytes, leNat, ih, BitVec.toNat_ofNat, pow_succ' 256 n, Nat.mod_mul]

theorem leNat_lt (l : List Byte) : leNat l < 256 ^ l.length := by
  induction l with
  | nil => simp [leNat]
  | cons b t ih =>
    have := b.isLt
    simp only [leNat, List.length_cons, pow_succ']
    omega

theorem leBytes_getD (n x i : Nat) (h : i < n) : (leBytes n x).getD i 0#8 = BitVec.ofNat 8 (x / 256 ^ i) := by
  induction n generalizing x i with
  | zero => omega
  | succ n ih =>
    cases i with
    | zero => simp [leBytes]
    | succ i =>
      have := ih (x / 256) i (by omega)
      simp only [leBytes, List.getD_cons_succ, this, pow_succ', Nat.div_div_eq_div_mul]

theorem leBytes_leNat (l : List Byte) : leBytes l.length (leNat l) = l := by
  induction l with
  | nil => rfl
  | cons b t ih =>
    have hb := b.isLt
    rw [List.length_cons, leBytes, leNat]
    congr 1
    · apply BitVec.eq_of_toNat_eq; simp; omega
    · rw [show (b.toNat + 256 * leNat t) / 256 = leNat t by omega, ih]

/-- A word read where it was written is the word written. -/
theorem memNat_memWrite {m : List Host.Cell} (h : memWf m = true) (a n x : Nat) :
    memNat (memWrite m a (leBytes n x)) a n = x % 256 ^ n := by
  have := memBytes_memWrite h a (leBytes n x)
  rw [leBytes_length] at this
  rw [memNat, this, leNat_leBytes]

theorem memNat_lt (m : List Host.Cell) (a n : Nat) : memNat m a n < 256 ^ n := by
  have := leNat_lt (memBytes m a n)
  rwa [memBytes_length] at this

/-- Memories in canonical form that read alike are equal. -/
theorem mem_ext : ∀ {m m' : List Host.Cell}, memWf m = true → memWf m' = true → (∀ a, memGet m a = memGet m' a) → m = m'
  | [], [], _, _, _ => rfl
  | [], (k, b) :: t, _, h', e => by
    have := e k
    simp only [memGet, if_true] at this
    exact absurd this.symm ((memWf_cons ..).mp h').1
  | (k, b) :: t, [], h, _, e => by
    have := e k
    simp only [memGet, if_true] at this
    exact absurd this ((memWf_cons ..).mp h).1
  | (k, b) :: t, (k', b') :: t', h, h', e => by
    obtain ⟨h1, h2, h3⟩ := (memWf_cons ..).mp h
    obtain ⟨h1', h2', h3'⟩ := (memWf_cons ..).mp h'
    have hk : k = k' := by
      rcases lt_trichotomy k k' with hlt | heq | hgt
      · have := e k
        rw [memGet_cons, if_pos rfl, memGet_cons, if_neg (by omega), memGet_above h2' (by omega)] at this
        exact absurd this h1
      · exact heq
      · have := e k'
        rw [memGet_cons, if_neg (by omega), memGet_above h2 (by omega), memGet_cons, if_pos rfl] at this
        exact absurd this.symm h1'
    subst hk
    have hb : b = b' := by simpa [memGet] using e k
    subst hb
    rw [mem_ext h3 h3' (fun a => by
      by_cases q : a ≤ k
      · rw [memGet_above h2 q, memGet_above h2' q]
      · have := e a
        rwa [memGet_cons, if_neg (by omega), memGet_cons, if_neg (by omega)] at this)]

/-- Removing entries keeps the canonical form. -/
theorem memWf_filter {m : List Host.Cell} (h : memWf m = true) (p : Host.Cell → Bool) : memWf (m.filter p) = true := by
  induction m with
  | nil => rfl
  | cons c t ih =>
    obtain ⟨k, b⟩ := c
    obtain ⟨h1, h2, h3⟩ := (memWf_cons ..).mp h
    rw [List.filter_cons]
    split
    · exact (memWf_cons ..).mpr ⟨h1, fun c hc => h2 c (List.mem_filter.mp hc).1, ih h3⟩
    · exact ih h3

/-! ## The state's memory -/

theorem State.memOk_wrBytes {s : State} (h : s.memOk) (l : Nat) (bs : List Byte) : (s.wrBytes l bs).memOk :=
  memWf_memWrite bs h l

theorem State.memOk_wr {s : State} (h : s.memOk) (l n x : Nat) : (s.wr l n x).memOk := s.memOk_wrBytes h l _

theorem State.byteAt_wrBytes {s : State} (h : s.memOk) (l : Nat) (bs : List Byte) (a : Nat) :
    (s.wrBytes l bs).byteAt a = if l ≤ a ∧ a < l + bs.length then bs.getD (a - l) 0#8 else s.byteAt a :=
  memGet_memWrite bs h l a

theorem State.sameBytesBut_wrBytes {s : State} (h : s.memOk) (l : Nat) (bs : List Byte) :
    SameBytesBut l bs.length s (s.wrBytes l bs) := by
  intro a ha
  rw [s.byteAt_wrBytes h, if_neg (by omega)]

theorem State.sameBytesBut_wr {s : State} (h : s.memOk) (l n x : Nat) : SameBytesBut l n s (s.wr l n x) := by
  have := s.sameBytesBut_wrBytes h l (leBytes n x)
  rwa [leBytes_length] at this

theorem State.rdBytes_wrBytes {s : State} (h : s.memOk) (l : Nat) (bs : List Byte) :
    (s.wrBytes l bs).rdBytes l bs.length = bs := memBytes_memWrite h l bs

theorem State.rdBytes_wrBytes_apart {s : State} (h : s.memOk) (l : Nat) (bs : List Byte) {a n : Nat}
    (ha : a + n ≤ l ∨ l + bs.length ≤ a) : (s.wrBytes l bs).rdBytes a n = s.rdBytes a n :=
  memBytes_memWrite_apart h l bs ha

theorem State.rd_wr {s : State} (h : s.memOk) (l n x : Nat) : (s.wr l n x).rd l n = x % 256 ^ n := memNat_memWrite h l n x

theorem State.rd_wr_apart {s : State} (h : s.memOk) (l n x : Nat) {a k : Nat} (ha : a + k ≤ l ∨ l + n ≤ a) :
    (s.wr l n x).rd a k = s.rd a k := by
  simp only [State.rd, memNat]
  exact congrArg leNat (memBytes_memWrite_apart h l (leBytes n x) (by rwa [leBytes_length]))

theorem State.byteAt_wr {s : State} (h : s.memOk) (l n x a : Nat) :
    (s.wr l n x).byteAt a = if l ≤ a ∧ a < l + n then BitVec.ofNat 8 (x / 256 ^ (a - l)) else s.byteAt a := by
  rw [State.wr, s.byteAt_wrBytes h, leBytes_length]
  split
  · rw [leBytes_getD _ _ _ (by omega)]
  · rfl

theorem State.rd_lt (s : State) (l n : Nat) : s.rd l n < 256 ^ n := memNat_lt s.m.mem l n

@[simp] theorem State.reset_memOk : State.reset.memOk := rfl

end Sys2Proof.Machine
end

