-- ==== Sys2Proof/Laws/State.lean ====
section
/-! SUPPORT. One lemma per field per update of the state, so that no proof unfolds a record update. -/
namespace Sys2Proof.Machine

variable (s : State)

/-! `setCtl` -/
@[simp] theorem State.setCtl_self (c : Ctl) : (s.setCtl c).self = { s.self with ctl := c } := rfl
@[simp] theorem State.setCtl_others (c : Ctl) : (s.setCtl c).others = s.others := rfl
@[simp] theorem State.setCtl_cores (c : Ctl) : (s.setCtl c).cores = s.cores := rfl
@[simp] theorem State.setCtl_m (c : Ctl) : (s.setCtl c).m = s.m := rfl
@[simp] theorem State.setCtl_work (c : Ctl) : (s.setCtl c).work = s.work := rfl
@[simp] theorem State.setCtl_cells (c : Ctl) : (s.setCtl c).cells = s.cells := rfl
@[simp] theorem State.setCtl_host (c : Ctl) : (s.setCtl c).host = s.host := rfl
@[simp] theorem State.setCtl_plant (c : Ctl) : (s.setCtl c).plant = s.plant := rfl
@[simp] theorem State.setCtl_fresh (c : Ctl) : (s.setCtl c).fresh = s.fresh := rfl
@[simp] theorem State.setCtl_free (c : Ctl) : (s.setCtl c).free = s.free := rfl
@[simp] theorem State.setCtl_agenda (c : Ctl) : (s.setCtl c).agenda = s.agenda := rfl

/-! `setPc` -/
@[simp] theorem State.setPc_self (x : Word) : (s.setPc x).self = { s.self with pc := x } := rfl
@[simp] theorem State.setPc_others (x : Word) : (s.setPc x).others = s.others := rfl
@[simp] theorem State.setPc_cores (x : Word) : (s.setPc x).cores = s.cores := rfl
@[simp] theorem State.setPc_m (x : Word) : (s.setPc x).m = s.m := rfl
@[simp] theorem State.setPc_work (x : Word) : (s.setPc x).work = s.work := rfl
@[simp] theorem State.setPc_cells (x : Word) : (s.setPc x).cells = s.cells := rfl
@[simp] theorem State.setPc_host (x : Word) : (s.setPc x).host = s.host := rfl
@[simp] theorem State.setPc_plant (x : Word) : (s.setPc x).plant = s.plant := rfl
@[simp] theorem State.setPc_fresh (x : Word) : (s.setPc x).fresh = s.fresh := rfl
@[simp] theorem State.setPc_free (x : Word) : (s.setPc x).free = s.free := rfl
@[simp] theorem State.setPc_agenda (x : Word) : (s.setPc x).agenda = s.agenda := rfl

/-! `adv` -/
@[simp] theorem State.adv_self : (s.adv).self = { s.self with pc := s.self.pc + 4#64 } := rfl
@[simp] theorem State.adv_others : (s.adv).others = s.others := rfl
@[simp] theorem State.adv_cores : (s.adv).cores = s.cores := rfl
@[simp] theorem State.adv_m : (s.adv).m = s.m := rfl
@[simp] theorem State.adv_work : (s.adv).work = s.work := rfl
@[simp] theorem State.adv_cells : (s.adv).cells = s.cells := rfl
@[simp] theorem State.adv_host : (s.adv).host = s.host := rfl
@[simp] theorem State.adv_plant : (s.adv).plant = s.plant := rfl
@[simp] theorem State.adv_fresh : (s.adv).fresh = s.fresh := rfl
@[simp] theorem State.adv_free : (s.adv).free = s.free := rfl
@[simp] theorem State.adv_agenda : (s.adv).agenda = s.agenda := rfl

/-! `adv8` -/
@[simp] theorem State.adv8_self : (s.adv8).self = { s.self with pc := s.self.pc + 8#64 } := rfl
@[simp] theorem State.adv8_others : (s.adv8).others = s.others := rfl
@[simp] theorem State.adv8_cores : (s.adv8).cores = s.cores := rfl
@[simp] theorem State.adv8_m : (s.adv8).m = s.m := rfl
@[simp] theorem State.adv8_work : (s.adv8).work = s.work := rfl
@[simp] theorem State.adv8_cells : (s.adv8).cells = s.cells := rfl
@[simp] theorem State.adv8_host : (s.adv8).host = s.host := rfl
@[simp] theorem State.adv8_plant : (s.adv8).plant = s.plant := rfl
@[simp] theorem State.adv8_fresh : (s.adv8).fresh = s.fresh := rfl
@[simp] theorem State.adv8_free : (s.adv8).free = s.free := rfl
@[simp] theorem State.adv8_agenda : (s.adv8).agenda = s.agenda := rfl

/-! `setG` -/
@[simp] theorem State.setG_self (r : BitVec 6) (x : Word) : (s.setG r x).self = s.self.setG r x := rfl
@[simp] theorem State.setG_others (r : BitVec 6) (x : Word) : (s.setG r x).others = s.others := rfl
@[simp] theorem State.setG_cores (r : BitVec 6) (x : Word) : (s.setG r x).cores = s.cores := rfl
@[simp] theorem State.setG_m (r : BitVec 6) (x : Word) : (s.setG r x).m = s.m := rfl
@[simp] theorem State.setG_work (r : BitVec 6) (x : Word) : (s.setG r x).work = s.work := rfl
@[simp] theorem State.setG_cells (r : BitVec 6) (x : Word) : (s.setG r x).cells = s.cells := rfl
@[simp] theorem State.setG_host (r : BitVec 6) (x : Word) : (s.setG r x).host = s.host := rfl
@[simp] theorem State.setG_plant (r : BitVec 6) (x : Word) : (s.setG r x).plant = s.plant := rfl
@[simp] theorem State.setG_fresh (r : BitVec 6) (x : Word) : (s.setG r x).fresh = s.fresh := rfl
@[simp] theorem State.setG_free (r : BitVec 6) (x : Word) : (s.setG r x).free = s.free := rfl
@[simp] theorem State.setG_agenda (r : BitVec 6) (x : Word) : (s.setG r x).agenda = s.agenda := rfl

/-! `mergeFlags` -/
@[simp] theorem State.mergeFlags_self (f : BitVec 5) : (s.mergeFlags f).self = { s.self with ctl := { s.self.ctl with fflags := s.self.ctl.fflags ||| f } } := rfl
@[simp] theorem State.mergeFlags_others (f : BitVec 5) : (s.mergeFlags f).others = s.others := rfl
@[simp] theorem State.mergeFlags_cores (f : BitVec 5) : (s.mergeFlags f).cores = s.cores := rfl
@[simp] theorem State.mergeFlags_m (f : BitVec 5) : (s.mergeFlags f).m = s.m := rfl
@[simp] theorem State.mergeFlags_work (f : BitVec 5) : (s.mergeFlags f).work = s.work := rfl
@[simp] theorem State.mergeFlags_cells (f : BitVec 5) : (s.mergeFlags f).cells = s.cells := rfl
@[simp] theorem State.mergeFlags_host (f : BitVec 5) : (s.mergeFlags f).host = s.host := rfl
@[simp] theorem State.mergeFlags_plant (f : BitVec 5) : (s.mergeFlags f).plant = s.plant := rfl
@[simp] theorem State.mergeFlags_fresh (f : BitVec 5) : (s.mergeFlags f).fresh = s.fresh := rfl
@[simp] theorem State.mergeFlags_free (f : BitVec 5) : (s.mergeFlags f).free = s.free := rfl
@[simp] theorem State.mergeFlags_agenda (f : BitVec 5) : (s.mergeFlags f).agenda = s.agenda := rfl

/-! `markBusy` -/
@[simp] theorem State.markBusy_self (l : List BusyMark) : (s.markBusy l).self = { s.self with waits := { s.self.waits with busy := s.self.waits.busy ++ [l] } } := rfl
@[simp] theorem State.markBusy_others (l : List BusyMark) : (s.markBusy l).others = s.others := rfl
@[simp] theorem State.markBusy_cores (l : List BusyMark) : (s.markBusy l).cores = s.cores := rfl
@[simp] theorem State.markBusy_m (l : List BusyMark) : (s.markBusy l).m = s.m := rfl
@[simp] theorem State.markBusy_work (l : List BusyMark) : (s.markBusy l).work = s.work := rfl
@[simp] theorem State.markBusy_cells (l : List BusyMark) : (s.markBusy l).cells = s.cells := rfl
@[simp] theorem State.markBusy_host (l : List BusyMark) : (s.markBusy l).host = s.host := rfl
@[simp] theorem State.markBusy_plant (l : List BusyMark) : (s.markBusy l).plant = s.plant := rfl
@[simp] theorem State.markBusy_fresh (l : List BusyMark) : (s.markBusy l).fresh = s.fresh := rfl
@[simp] theorem State.markBusy_free (l : List BusyMark) : (s.markBusy l).free = s.free := rfl
@[simp] theorem State.markBusy_agenda (l : List BusyMark) : (s.markBusy l).agenda = s.agenda := rfl

/-! `parkFor` -/
@[simp] theorem State.parkFor_others (r : Reason) (op : Word) (loc : Nat) (full : Bool) (ln : Nat) : (s.parkFor r op loc full ln).others = s.others := rfl
@[simp] theorem State.parkFor_cores (r : Reason) (op : Word) (loc : Nat) (full : Bool) (ln : Nat) : (s.parkFor r op loc full ln).cores = s.cores := rfl
@[simp] theorem State.parkFor_m (r : Reason) (op : Word) (loc : Nat) (full : Bool) (ln : Nat) : (s.parkFor r op loc full ln).m = s.m := rfl
@[simp] theorem State.parkFor_work (r : Reason) (op : Word) (loc : Nat) (full : Bool) (ln : Nat) : (s.parkFor r op loc full ln).work = s.work := rfl
@[simp] theorem State.parkFor_cells (r : Reason) (op : Word) (loc : Nat) (full : Bool) (ln : Nat) : (s.parkFor r op loc full ln).cells = s.cells := rfl
@[simp] theorem State.parkFor_host (r : Reason) (op : Word) (loc : Nat) (full : Bool) (ln : Nat) : (s.parkFor r op loc full ln).host = s.host := rfl
@[simp] theorem State.parkFor_plant (r : Reason) (op : Word) (loc : Nat) (full : Bool) (ln : Nat) : (s.parkFor r op loc full ln).plant = s.plant := rfl
@[simp] theorem State.parkFor_fresh (r : Reason) (op : Word) (loc : Nat) (full : Bool) (ln : Nat) : (s.parkFor r op loc full ln).fresh = s.fresh := rfl
@[simp] theorem State.parkFor_free (r : Reason) (op : Word) (loc : Nat) (full : Bool) (ln : Nat) : (s.parkFor r op loc full ln).free = s.free := rfl
@[simp] theorem State.parkFor_agenda (r : Reason) (op : Word) (loc : Nat) (full : Bool) (ln : Nat) : (s.parkFor r op loc full ln).agenda = s.agenda := rfl

/-! `unpark` -/
@[simp] theorem State.unpark_self : (s.unpark).self = { s.self with st := .active, park := {} } := rfl
@[simp] theorem State.unpark_others : (s.unpark).others = s.others := rfl
@[simp] theorem State.unpark_cores : (s.unpark).cores = s.cores := rfl
@[simp] theorem State.unpark_m : (s.unpark).m = s.m := rfl
@[simp] theorem State.unpark_work : (s.unpark).work = s.work := rfl
@[simp] theorem State.unpark_cells : (s.unpark).cells = s.cells := rfl
@[simp] theorem State.unpark_host : (s.unpark).host = s.host := rfl
@[simp] theorem State.unpark_plant : (s.unpark).plant = s.plant := rfl
@[simp] theorem State.unpark_fresh : (s.unpark).fresh = s.fresh := rfl
@[simp] theorem State.unpark_free : (s.unpark).free = s.free := rfl
@[simp] theorem State.unpark_agenda : (s.unpark).agenda = s.agenda := rfl

/-! `mapStrands` -/
@[simp] theorem State.mapStrands_self (f : Strand → Strand) : (s.mapStrands f).self = f s.self := rfl
@[simp] theorem State.mapStrands_others (f : Strand → Strand) : (s.mapStrands f).others = s.others.map f := rfl
@[simp] theorem State.mapStrands_cores (f : Strand → Strand) : (s.mapStrands f).cores = s.cores := rfl
@[simp] theorem State.mapStrands_m (f : Strand → Strand) : (s.mapStrands f).m = s.m := rfl
@[simp] theorem State.mapStrands_work (f : Strand → Strand) : (s.mapStrands f).work = s.work := rfl
@[simp] theorem State.mapStrands_cells (f : Strand → Strand) : (s.mapStrands f).cells = s.cells := rfl
@[simp] theorem State.mapStrands_host (f : Strand → Strand) : (s.mapStrands f).host = s.host := rfl
@[simp] theorem State.mapStrands_plant (f : Strand → Strand) : (s.mapStrands f).plant = s.plant := rfl
@[simp] theorem State.mapStrands_fresh (f : Strand → Strand) : (s.mapStrands f).fresh = s.fresh := rfl
@[simp] theorem State.mapStrands_free (f : Strand → Strand) : (s.mapStrands f).free = s.free := rfl
@[simp] theorem State.mapStrands_agenda (f : Strand → Strand) : (s.mapStrands f).agenda = s.agenda := rfl

/-! `setBit` -/
@[simp] theorem State.setBit_self (l : Nat) (full : Bool) : (s.setBit l full).self = s.self := rfl
@[simp] theorem State.setBit_others (l : Nat) (full : Bool) : (s.setBit l full).others = s.others := rfl
@[simp] theorem State.setBit_cores (l : Nat) (full : Bool) : (s.setBit l full).cores = s.cores := rfl
@[simp] theorem State.setBit_work (l : Nat) (full : Bool) : (s.setBit l full).work = s.work := rfl
@[simp] theorem State.setBit_cells (l : Nat) (full : Bool) : (s.setBit l full).cells = s.cells := rfl
@[simp] theorem State.setBit_host (l : Nat) (full : Bool) : (s.setBit l full).host = s.host := rfl
@[simp] theorem State.setBit_plant (l : Nat) (full : Bool) : (s.setBit l full).plant = s.plant := rfl
@[simp] theorem State.setBit_fresh (l : Nat) (full : Bool) : (s.setBit l full).fresh = s.fresh := rfl
@[simp] theorem State.setBit_free (l : Nat) (full : Bool) : (s.setBit l full).free = s.free := rfl
@[simp] theorem State.setBit_agenda (l : Nat) (full : Bool) : (s.setBit l full).agenda = s.agenda := rfl

/-! `wakeWord` -/
@[simp] theorem State.wakeWord_cores (l : Nat) (full : Bool) : (s.wakeWord l full).cores = s.cores := rfl
@[simp] theorem State.wakeWord_m (l : Nat) (full : Bool) : (s.wakeWord l full).m = s.m := rfl
@[simp] theorem State.wakeWord_work (l : Nat) (full : Bool) : (s.wakeWord l full).work = s.work := rfl
@[simp] theorem State.wakeWord_cells (l : Nat) (full : Bool) : (s.wakeWord l full).cells = s.cells := rfl
@[simp] theorem State.wakeWord_host (l : Nat) (full : Bool) : (s.wakeWord l full).host = s.host := rfl
@[simp] theorem State.wakeWord_plant (l : Nat) (full : Bool) : (s.wakeWord l full).plant = s.plant := rfl
@[simp] theorem State.wakeWord_fresh (l : Nat) (full : Bool) : (s.wakeWord l full).fresh = s.fresh := rfl
@[simp] theorem State.wakeWord_free (l : Nat) (full : Bool) : (s.wakeWord l full).free = s.free := rfl
@[simp] theorem State.wakeWord_agenda (l : Nat) (full : Bool) : (s.wakeWord l full).agenda = s.agenda := rfl

/-! `setFull` -/
@[simp] theorem State.setFull_cores (l : Nat) (full : Bool) : (s.setFull l full).cores = s.cores := rfl
@[simp] theorem State.setFull_m (l : Nat) (full : Bool) : (s.setFull l full).m = (s.setBit l full).m := rfl
@[simp] theorem State.setFull_work (l : Nat) (full : Bool) : (s.setFull l full).work = s.work := rfl
@[simp] theorem State.setFull_cells (l : Nat) (full : Bool) : (s.setFull l full).cells = s.cells := rfl
@[simp] theorem State.setFull_host (l : Nat) (full : Bool) : (s.setFull l full).host = s.host := rfl
@[simp] theorem State.setFull_plant (l : Nat) (full : Bool) : (s.setFull l full).plant = s.plant := rfl
@[simp] theorem State.setFull_fresh (l : Nat) (full : Bool) : (s.setFull l full).fresh = s.fresh := rfl
@[simp] theorem State.setFull_free (l : Nat) (full : Bool) : (s.setFull l full).free = s.free := rfl
@[simp] theorem State.setFull_agenda (l : Nat) (full : Bool) : (s.setFull l full).agenda = s.agenda := rfl

/-! `setTag` -/
@[simp] theorem State.setTag_self (a : Nat) (x : Tag) : (s.setTag a x).self = s.self := rfl
@[simp] theorem State.setTag_others (a : Nat) (x : Tag) : (s.setTag a x).others = s.others := rfl
@[simp] theorem State.setTag_cores (a : Nat) (x : Tag) : (s.setTag a x).cores = s.cores := rfl
@[simp] theorem State.setTag_work (a : Nat) (x : Tag) : (s.setTag a x).work = s.work := rfl
@[simp] theorem State.setTag_cells (a : Nat) (x : Tag) : (s.setTag a x).cells = s.cells := rfl
@[simp] theorem State.setTag_host (a : Nat) (x : Tag) : (s.setTag a x).host = s.host := rfl
@[simp] theorem State.setTag_plant (a : Nat) (x : Tag) : (s.setTag a x).plant = s.plant := rfl
@[simp] theorem State.setTag_fresh (a : Nat) (x : Tag) : (s.setTag a x).fresh = s.fresh := rfl
@[simp] theorem State.setTag_free (a : Nat) (x : Tag) : (s.setTag a x).free = s.free := rfl
@[simp] theorem State.setTag_agenda (a : Nat) (x : Tag) : (s.setTag a x).agenda = s.agenda := rfl

/-! `clearPoison` -/
@[simp] theorem State.clearPoison_self (l n : Nat) : (s.clearPoison l n).self = s.self := rfl
@[simp] theorem State.clearPoison_others (l n : Nat) : (s.clearPoison l n).others = s.others := rfl
@[simp] theorem State.clearPoison_cores (l n : Nat) : (s.clearPoison l n).cores = s.cores := rfl
@[simp] theorem State.clearPoison_work (l n : Nat) : (s.clearPoison l n).work = s.work := rfl
@[simp] theorem State.clearPoison_cells (l n : Nat) : (s.clearPoison l n).cells = s.cells := rfl
@[simp] theorem State.clearPoison_host (l n : Nat) : (s.clearPoison l n).host = s.host := rfl
@[simp] theorem State.clearPoison_plant (l n : Nat) : (s.clearPoison l n).plant = s.plant := rfl
@[simp] theorem State.clearPoison_fresh (l n : Nat) : (s.clearPoison l n).fresh = s.fresh := rfl
@[simp] theorem State.clearPoison_free (l n : Nat) : (s.clearPoison l n).free = s.free := rfl
@[simp] theorem State.clearPoison_agenda (l n : Nat) : (s.clearPoison l n).agenda = s.agenda := rfl

/-! `wrBytes` -/
@[simp] theorem State.wrBytes_self (l : Nat) (bs : List Byte) : (s.wrBytes l bs).self = s.self := rfl
@[simp] theorem State.wrBytes_others (l : Nat) (bs : List Byte) : (s.wrBytes l bs).others = s.others := rfl
@[simp] theorem State.wrBytes_cores (l : Nat) (bs : List Byte) : (s.wrBytes l bs).cores = s.cores := rfl
@[simp] theorem State.wrBytes_m (l : Nat) (bs : List Byte) : (s.wrBytes l bs).m = { s.m with mem := memWrite s.m.mem l bs } := rfl
@[simp] theorem State.wrBytes_work (l : Nat) (bs : List Byte) : (s.wrBytes l bs).work = s.work := rfl
@[simp] theorem State.wrBytes_cells (l : Nat) (bs : List Byte) : (s.wrBytes l bs).cells = s.cells := rfl
@[simp] theorem State.wrBytes_host (l : Nat) (bs : List Byte) : (s.wrBytes l bs).host = s.host := rfl
@[simp] theorem State.wrBytes_plant (l : Nat) (bs : List Byte) : (s.wrBytes l bs).plant = s.plant := rfl
@[simp] theorem State.wrBytes_fresh (l : Nat) (bs : List Byte) : (s.wrBytes l bs).fresh = s.fresh := rfl
@[simp] theorem State.wrBytes_free (l : Nat) (bs : List Byte) : (s.wrBytes l bs).free = s.free := rfl
@[simp] theorem State.wrBytes_agenda (l : Nat) (bs : List Byte) : (s.wrBytes l bs).agenda = s.agenda := rfl

/-! `wr` -/
@[simp] theorem State.wr_self (l n x : Nat) : (s.wr l n x).self = s.self := rfl
@[simp] theorem State.wr_others (l n x : Nat) : (s.wr l n x).others = s.others := rfl
@[simp] theorem State.wr_cores (l n x : Nat) : (s.wr l n x).cores = s.cores := rfl
@[simp] theorem State.wr_m (l n x : Nat) : (s.wr l n x).m = { s.m with mem := memWrite s.m.mem l (leBytes n x) } := rfl
@[simp] theorem State.wr_work (l n x : Nat) : (s.wr l n x).work = s.work := rfl
@[simp] theorem State.wr_cells (l n x : Nat) : (s.wr l n x).cells = s.cells := rfl
@[simp] theorem State.wr_host (l n x : Nat) : (s.wr l n x).host = s.host := rfl
@[simp] theorem State.wr_plant (l n x : Nat) : (s.wr l n x).plant = s.plant := rfl
@[simp] theorem State.wr_fresh (l n x : Nat) : (s.wr l n x).fresh = s.fresh := rfl
@[simp] theorem State.wr_free (l n x : Nat) : (s.wr l n x).free = s.free := rfl
@[simp] theorem State.wr_agenda (l n x : Nat) : (s.wr l n x).agenda = s.agenda := rfl

/-! `report` -/
@[simp] theorem State.report_self (p : Nat) (r : Report) : (s.report p r).self = s.self := rfl
@[simp] theorem State.report_others (p : Nat) (r : Report) : (s.report p r).others = s.others := rfl
@[simp] theorem State.report_cores (p : Nat) (r : Report) : (s.report p r).cores = s.cores := rfl
@[simp] theorem State.report_m (p : Nat) (r : Report) : (s.report p r).m = s.m := rfl
@[simp] theorem State.report_work (p : Nat) (r : Report) : (s.report p r).work = s.work := rfl
@[simp] theorem State.report_cells (p : Nat) (r : Report) : (s.report p r).cells = s.cells := rfl
@[simp] theorem State.report_plant (p : Nat) (r : Report) : (s.report p r).plant = s.plant := rfl
@[simp] theorem State.report_fresh (p : Nat) (r : Report) : (s.report p r).fresh = s.fresh := rfl
@[simp] theorem State.report_free (p : Nat) (r : Report) : (s.report p r).free = s.free := rfl
@[simp] theorem State.report_agenda (p : Nat) (r : Report) : (s.report p r).agenda = s.agenda := rfl

/-! `setPart` -/
@[simp] theorem State.setPart_self (p : Nat) (x : Partition) : (s.setPart p x).self = s.self := rfl
@[simp] theorem State.setPart_others (p : Nat) (x : Partition) : (s.setPart p x).others = s.others := rfl
@[simp] theorem State.setPart_cores (p : Nat) (x : Partition) : (s.setPart p x).cores = s.cores := rfl
@[simp] theorem State.setPart_m (p : Nat) (x : Partition) : (s.setPart p x).m = s.m := rfl
@[simp] theorem State.setPart_work (p : Nat) (x : Partition) : (s.setPart p x).work = s.work := rfl
@[simp] theorem State.setPart_cells (p : Nat) (x : Partition) : (s.setPart p x).cells = s.cells := rfl
@[simp] theorem State.setPart_host (p : Nat) (x : Partition) : (s.setPart p x).host = { s.host with parts := s.host.parts.setIfInBounds p x } := rfl
@[simp] theorem State.setPart_plant (p : Nat) (x : Partition) : (s.setPart p x).plant = s.plant := rfl
@[simp] theorem State.setPart_fresh (p : Nat) (x : Partition) : (s.setPart p x).fresh = s.fresh := rfl
@[simp] theorem State.setPart_free (p : Nat) (x : Partition) : (s.setPart p x).free = s.free := rfl
@[simp] theorem State.setPart_agenda (p : Nat) (x : Partition) : (s.setPart p x).agenda = s.agenda := rfl

/-! `setFn` -/
@[simp] theorem State.setFn_self (p : Nat) (x : HostFn) : (s.setFn p x).self = s.self := rfl
@[simp] theorem State.setFn_others (p : Nat) (x : HostFn) : (s.setFn p x).others = s.others := rfl
@[simp] theorem State.setFn_cores (p : Nat) (x : HostFn) : (s.setFn p x).cores = s.cores := rfl
@[simp] theorem State.setFn_m (p : Nat) (x : HostFn) : (s.setFn p x).m = s.m := rfl
@[simp] theorem State.setFn_work (p : Nat) (x : HostFn) : (s.setFn p x).work = s.work := rfl
@[simp] theorem State.setFn_cells (p : Nat) (x : HostFn) : (s.setFn p x).cells = s.cells := rfl
@[simp] theorem State.setFn_host (p : Nat) (x : HostFn) : (s.setFn p x).host = { s.host with fns := s.host.fns.setIfInBounds p x } := rfl
@[simp] theorem State.setFn_plant (p : Nat) (x : HostFn) : (s.setFn p x).plant = s.plant := rfl
@[simp] theorem State.setFn_fresh (p : Nat) (x : HostFn) : (s.setFn p x).fresh = s.fresh := rfl
@[simp] theorem State.setFn_free (p : Nat) (x : HostFn) : (s.setFn p x).free = s.free := rfl
@[simp] theorem State.setFn_agenda (p : Nat) (x : HostFn) : (s.setFn p x).agenda = s.agenda := rfl

/-! `setDie` -/
@[simp] theorem State.setDie_self (d : Nat) (x : Die) : (s.setDie d x).self = s.self := rfl
@[simp] theorem State.setDie_others (d : Nat) (x : Die) : (s.setDie d x).others = s.others := rfl
@[simp] theorem State.setDie_cores (d : Nat) (x : Die) : (s.setDie d x).cores = s.cores := rfl
@[simp] theorem State.setDie_m (d : Nat) (x : Die) : (s.setDie d x).m = s.m := rfl
@[simp] theorem State.setDie_work (d : Nat) (x : Die) : (s.setDie d x).work = s.work := rfl
@[simp] theorem State.setDie_cells (d : Nat) (x : Die) : (s.setDie d x).cells = s.cells := rfl
@[simp] theorem State.setDie_host (d : Nat) (x : Die) : (s.setDie d x).host = s.host := rfl
@[simp] theorem State.setDie_plant (d : Nat) (x : Die) : (s.setDie d x).plant = { s.plant with dies := s.plant.dies.setIfInBounds d x } := rfl
@[simp] theorem State.setDie_fresh (d : Nat) (x : Die) : (s.setDie d x).fresh = s.fresh := rfl
@[simp] theorem State.setDie_free (d : Nat) (x : Die) : (s.setDie d x).free = s.free := rfl
@[simp] theorem State.setDie_agenda (d : Nat) (x : Die) : (s.setDie d x).agenda = s.agenda := rfl

/-! `send` -/
@[simp] theorem State.send_self (x : OutMsg) : (s.send x).self = s.self := rfl
@[simp] theorem State.send_others (x : OutMsg) : (s.send x).others = s.others := rfl
@[simp] theorem State.send_cores (x : OutMsg) : (s.send x).cores = s.cores := rfl
@[simp] theorem State.send_m (x : OutMsg) : (s.send x).m = s.m := rfl
@[simp] theorem State.send_work (x : OutMsg) : (s.send x).work = s.work := rfl
@[simp] theorem State.send_cells (x : OutMsg) : (s.send x).cells = s.cells := rfl
@[simp] theorem State.send_host (x : OutMsg) : (s.send x).host = { s.host with outbox := s.host.outbox ++ [x] } := rfl
@[simp] theorem State.send_plant (x : OutMsg) : (s.send x).plant = s.plant := rfl
@[simp] theorem State.send_fresh (x : OutMsg) : (s.send x).fresh = s.fresh := rfl
@[simp] theorem State.send_free (x : OutMsg) : (s.send x).free = s.free := rfl
@[simp] theorem State.send_agenda (x : OutMsg) : (s.send x).agenda = s.agenda := rfl

/-! `mapLaunch` -/
@[simp] theorem State.mapLaunch_self (d l : Nat) (f : Launch → Launch) : (s.mapLaunch d l f).self = s.self := rfl
@[simp] theorem State.mapLaunch_others (d l : Nat) (f : Launch → Launch) : (s.mapLaunch d l f).others = s.others := rfl
@[simp] theorem State.mapLaunch_cores (d l : Nat) (f : Launch → Launch) : (s.mapLaunch d l f).cores = s.cores := rfl
@[simp] theorem State.mapLaunch_m (d l : Nat) (f : Launch → Launch) : (s.mapLaunch d l f).m = s.m := rfl
@[simp] theorem State.mapLaunch_cells (d l : Nat) (f : Launch → Launch) : (s.mapLaunch d l f).cells = s.cells := rfl
@[simp] theorem State.mapLaunch_host (d l : Nat) (f : Launch → Launch) : (s.mapLaunch d l f).host = s.host := rfl
@[simp] theorem State.mapLaunch_plant (d l : Nat) (f : Launch → Launch) : (s.mapLaunch d l f).plant = s.plant := rfl
@[simp] theorem State.mapLaunch_fresh (d l : Nat) (f : Launch → Launch) : (s.mapLaunch d l f).fresh = s.fresh := rfl
@[simp] theorem State.mapLaunch_free (d l : Nat) (f : Launch → Launch) : (s.mapLaunch d l f).free = s.free := rfl
@[simp] theorem State.mapLaunch_agenda (d l : Nat) (f : Launch → Launch) : (s.mapLaunch d l f).agenda = s.agenda := rfl

/-! `setCore` -/
@[simp] theorem State.setCore_self (c : Core) : (s.setCore c).self = s.self := rfl
@[simp] theorem State.setCore_others (c : Core) : (s.setCore c).others = s.others := rfl
@[simp] theorem State.setCore_m (c : Core) : (s.setCore c).m = s.m := rfl
@[simp] theorem State.setCore_work (c : Core) : (s.setCore c).work = s.work := rfl
@[simp] theorem State.setCore_cells (c : Core) : (s.setCore c).cells = s.cells := rfl
@[simp] theorem State.setCore_host (c : Core) : (s.setCore c).host = s.host := rfl
@[simp] theorem State.setCore_plant (c : Core) : (s.setCore c).plant = s.plant := rfl
@[simp] theorem State.setCore_fresh (c : Core) : (s.setCore c).fresh = s.fresh := rfl
@[simp] theorem State.setCore_free (c : Core) : (s.setCore c).free = s.free := rfl
@[simp] theorem State.setCore_agenda (c : Core) : (s.setCore c).agenda = s.agenda := rfl

/-! `holdFor` -/
@[simp] theorem State.holdFor_self (hs : List Hold) : (s.holdFor hs).self = { s.self with waits := { s.self.waits with holds := hs } } := rfl
@[simp] theorem State.holdFor_others (hs : List Hold) : (s.holdFor hs).others = s.others := rfl
@[simp] theorem State.holdFor_cores (hs : List Hold) : (s.holdFor hs).cores = s.cores := rfl
@[simp] theorem State.holdFor_m (hs : List Hold) : (s.holdFor hs).m = s.m := rfl
@[simp] theorem State.holdFor_work (hs : List Hold) : (s.holdFor hs).work = s.work := rfl
@[simp] theorem State.holdFor_cells (hs : List Hold) : (s.holdFor hs).cells = s.cells := rfl
@[simp] theorem State.holdFor_host (hs : List Hold) : (s.holdFor hs).host = s.host := rfl
@[simp] theorem State.holdFor_plant (hs : List Hold) : (s.holdFor hs).plant = s.plant := rfl
@[simp] theorem State.holdFor_fresh (hs : List Hold) : (s.holdFor hs).fresh = s.fresh := rfl
@[simp] theorem State.holdFor_free (hs : List Hold) : (s.holdFor hs).free = s.free := rfl
@[simp] theorem State.holdFor_agenda (hs : List Hold) : (s.holdFor hs).agenda = s.agenda := rfl

/-! `clearHolds` -/
@[simp] theorem State.clearHolds_self : (s.clearHolds).self = { s.self with waits := { s.self.waits with holds := [] } } := rfl
@[simp] theorem State.clearHolds_others : (s.clearHolds).others = s.others := rfl
@[simp] theorem State.clearHolds_cores : (s.clearHolds).cores = s.cores := rfl
@[simp] theorem State.clearHolds_m : (s.clearHolds).m = s.m := rfl
@[simp] theorem State.clearHolds_work : (s.clearHolds).work = s.work := rfl
@[simp] theorem State.clearHolds_cells : (s.clearHolds).cells = s.cells := rfl
@[simp] theorem State.clearHolds_host : (s.clearHolds).host = s.host := rfl
@[simp] theorem State.clearHolds_plant : (s.clearHolds).plant = s.plant := rfl
@[simp] theorem State.clearHolds_fresh : (s.clearHolds).fresh = s.fresh := rfl
@[simp] theorem State.clearHolds_free : (s.clearHolds).free = s.free := rfl
@[simp] theorem State.clearHolds_agenda : (s.clearHolds).agenda = s.agenda := rfl

/-! `dropAnswers` -/
@[simp] theorem State.dropAnswers_self : (s.dropAnswers).self = { s.self with waits := { s.self.waits with answers := [] } } := rfl
@[simp] theorem State.dropAnswers_others : (s.dropAnswers).others = s.others := rfl
@[simp] theorem State.dropAnswers_cores : (s.dropAnswers).cores = s.cores := rfl
@[simp] theorem State.dropAnswers_m : (s.dropAnswers).m = s.m := rfl
@[simp] theorem State.dropAnswers_work : (s.dropAnswers).work = s.work := rfl
@[simp] theorem State.dropAnswers_cells : (s.dropAnswers).cells = s.cells := rfl
@[simp] theorem State.dropAnswers_host : (s.dropAnswers).host = s.host := rfl
@[simp] theorem State.dropAnswers_plant : (s.dropAnswers).plant = s.plant := rfl
@[simp] theorem State.dropAnswers_fresh : (s.dropAnswers).fresh = s.fresh := rfl
@[simp] theorem State.dropAnswers_free : (s.dropAnswers).free = s.free := rfl
@[simp] theorem State.dropAnswers_agenda : (s.dropAnswers).agenda = s.agenda := rfl

/-! `wakeOthers` -/
@[simp] theorem State.wakeOthers_self (l n : Nat) : (s.wakeOthers l n).self = s.self := rfl
@[simp] theorem State.wakeOthers_others (l n : Nat) : (s.wakeOthers l n).others = s.others.map (s.wokenBy l n) := rfl
@[simp] theorem State.wakeOthers_cores (l n : Nat) : (s.wakeOthers l n).cores = s.cores := rfl
@[simp] theorem State.wakeOthers_m (l n : Nat) : (s.wakeOthers l n).m = s.m := rfl
@[simp] theorem State.wakeOthers_work (l n : Nat) : (s.wakeOthers l n).work = s.work := rfl
@[simp] theorem State.wakeOthers_cells (l n : Nat) : (s.wakeOthers l n).cells = s.cells := rfl
@[simp] theorem State.wakeOthers_host (l n : Nat) : (s.wakeOthers l n).host = s.host := rfl
@[simp] theorem State.wakeOthers_plant (l n : Nat) : (s.wakeOthers l n).plant = s.plant := rfl
@[simp] theorem State.wakeOthers_fresh (l n : Nat) : (s.wakeOthers l n).fresh = s.fresh := rfl
@[simp] theorem State.wakeOthers_free (l n : Nat) : (s.wakeOthers l n).free = s.free := rfl
@[simp] theorem State.wakeOthers_agenda (l n : Nat) : (s.wakeOthers l n).agenda = s.agenda := rfl

/-! `wakeBars` -/
@[simp] theorem State.wakeBars_self (l n : Nat) : (s.wakeBars l n).self = s.wokenBy l n s.self := rfl
@[simp] theorem State.wakeBars_others (l n : Nat) : (s.wakeBars l n).others = s.others.map (s.wokenBy l n) := rfl
@[simp] theorem State.wakeBars_cores (l n : Nat) : (s.wakeBars l n).cores = s.cores := rfl
@[simp] theorem State.wakeBars_m (l n : Nat) : (s.wakeBars l n).m = s.m := rfl
@[simp] theorem State.wakeBars_work (l n : Nat) : (s.wakeBars l n).work = s.work := rfl
@[simp] theorem State.wakeBars_cells (l n : Nat) : (s.wakeBars l n).cells = s.cells := rfl
@[simp] theorem State.wakeBars_host (l n : Nat) : (s.wakeBars l n).host = s.host := rfl
@[simp] theorem State.wakeBars_plant (l n : Nat) : (s.wakeBars l n).plant = s.plant := rfl
@[simp] theorem State.wakeBars_fresh (l n : Nat) : (s.wakeBars l n).fresh = s.fresh := rfl
@[simp] theorem State.wakeBars_free (l n : Nat) : (s.wakeBars l n).free = s.free := rfl
@[simp] theorem State.wakeBars_agenda (l n : Nat) : (s.wakeBars l n).agenda = s.agenda := rfl

/-! `wrWake` -/
@[simp] theorem State.wrWake_cores (l : Nat) (bs : List Byte) : (s.wrWake l bs).cores = s.cores := rfl
@[simp] theorem State.wrWake_m (l : Nat) (bs : List Byte) : (s.wrWake l bs).m = { s.m with mem := memWrite s.m.mem l bs } := rfl
@[simp] theorem State.wrWake_work (l : Nat) (bs : List Byte) : (s.wrWake l bs).work = s.work := rfl
@[simp] theorem State.wrWake_cells (l : Nat) (bs : List Byte) : (s.wrWake l bs).cells = s.cells := rfl
@[simp] theorem State.wrWake_host (l : Nat) (bs : List Byte) : (s.wrWake l bs).host = s.host := rfl
@[simp] theorem State.wrWake_plant (l : Nat) (bs : List Byte) : (s.wrWake l bs).plant = s.plant := rfl
@[simp] theorem State.wrWake_fresh (l : Nat) (bs : List Byte) : (s.wrWake l bs).fresh = s.fresh := rfl
@[simp] theorem State.wrWake_free (l : Nat) (bs : List Byte) : (s.wrWake l bs).free = s.free := rfl
@[simp] theorem State.wrWake_agenda (l : Nat) (bs : List Byte) : (s.wrWake l bs).agenda = s.agenda := rfl

/-! `setCluster` -/
@[simp] theorem State.setCluster_self (x : ClusterSt) : (s.setCluster x).self = s.self := rfl
@[simp] theorem State.setCluster_others (x : ClusterSt) : (s.setCluster x).others = s.others := rfl
@[simp] theorem State.setCluster_cores (x : ClusterSt) : (s.setCluster x).cores = s.cores := rfl
@[simp] theorem State.setCluster_m (x : ClusterSt) : (s.setCluster x).m = s.m := rfl
@[simp] theorem State.setCluster_work (x : ClusterSt) : (s.setCluster x).work = s.work := rfl
@[simp] theorem State.setCluster_cells (x : ClusterSt) : (s.setCluster x).cells = s.cells := rfl
@[simp] theorem State.setCluster_host (x : ClusterSt) : (s.setCluster x).host = s.host := rfl
@[simp] theorem State.setCluster_fresh (x : ClusterSt) : (s.setCluster x).fresh = s.fresh := rfl
@[simp] theorem State.setCluster_free (x : ClusterSt) : (s.setCluster x).free = s.free := rfl
@[simp] theorem State.setCluster_agenda (x : ClusterSt) : (s.setCluster x).agenda = s.agenda := rfl

/-! `setPower` -/
@[simp] theorem State.setPower_self (p : Power) : (s.setPower p).self = s.self := rfl
@[simp] theorem State.setPower_others (p : Power) : (s.setPower p).others = s.others := rfl
@[simp] theorem State.setPower_cores (p : Power) : (s.setPower p).cores = s.cores := rfl
@[simp] theorem State.setPower_m (p : Power) : (s.setPower p).m = s.m := rfl
@[simp] theorem State.setPower_work (p : Power) : (s.setPower p).work = s.work := rfl
@[simp] theorem State.setPower_cells (p : Power) : (s.setPower p).cells = s.cells := rfl
@[simp] theorem State.setPower_host (p : Power) : (s.setPower p).host = s.host := rfl
@[simp] theorem State.setPower_plant (p : Power) : (s.setPower p).plant = { s.plant with power := p.settle s.plant.bring } := rfl
@[simp] theorem State.setPower_fresh (p : Power) : (s.setPower p).fresh = s.fresh := rfl
@[simp] theorem State.setPower_free (p : Power) : (s.setPower p).free = s.free := rfl
@[simp] theorem State.setPower_agenda (p : Power) : (s.setPower p).agenda = s.agenda := rfl

/-! `setSpdm` -/
@[simp] theorem State.setSpdm_self (x : Spdm) : (s.setSpdm x).self = s.self := rfl
@[simp] theorem State.setSpdm_others (x : Spdm) : (s.setSpdm x).others = s.others := rfl
@[simp] theorem State.setSpdm_cores (x : Spdm) : (s.setSpdm x).cores = s.cores := rfl
@[simp] theorem State.setSpdm_m (x : Spdm) : (s.setSpdm x).m = s.m := rfl
@[simp] theorem State.setSpdm_work (x : Spdm) : (s.setSpdm x).work = s.work := rfl
@[simp] theorem State.setSpdm_cells (x : Spdm) : (s.setSpdm x).cells = s.cells := rfl
@[simp] theorem State.setSpdm_host (x : Spdm) : (s.setSpdm x).host = { s.host with spdm := x } := rfl
@[simp] theorem State.setSpdm_plant (x : Spdm) : (s.setSpdm x).plant = s.plant := rfl
@[simp] theorem State.setSpdm_fresh (x : Spdm) : (s.setSpdm x).fresh = s.fresh := rfl
@[simp] theorem State.setSpdm_free (x : Spdm) : (s.setSpdm x).free = s.free := rfl
@[simp] theorem State.setSpdm_agenda (x : Spdm) : (s.setSpdm x).agenda = s.agenda := rfl

/-! `endRequest` -/
@[simp] theorem State.endRequest_self (rq : Nat) : (s.endRequest rq).self = s.self := rfl
@[simp] theorem State.endRequest_others (rq : Nat) : (s.endRequest rq).others = s.others := rfl
@[simp] theorem State.endRequest_cores (rq : Nat) : (s.endRequest rq).cores = s.cores := rfl
@[simp] theorem State.endRequest_m (rq : Nat) : (s.endRequest rq).m = s.m := rfl
@[simp] theorem State.endRequest_work (rq : Nat) : (s.endRequest rq).work = s.work := rfl
@[simp] theorem State.endRequest_cells (rq : Nat) : (s.endRequest rq).cells = s.cells := rfl
@[simp] theorem State.endRequest_host (rq : Nat) : (s.endRequest rq).host = { s.host with outstanding := s.host.outstanding.filter (fun o => o.rq != rq) } := rfl
@[simp] theorem State.endRequest_plant (rq : Nat) : (s.endRequest rq).plant = s.plant := rfl
@[simp] theorem State.endRequest_fresh (rq : Nat) : (s.endRequest rq).fresh = s.fresh := rfl
@[simp] theorem State.endRequest_free (rq : Nat) : (s.endRequest rq).free = s.free := rfl
@[simp] theorem State.endRequest_agenda (rq : Nat) : (s.endRequest rq).agenda = s.agenda := rfl

/-! `needDecision` -/
@[simp] theorem State.needDecision_self (d c : Nat) : (s.needDecision d c).self = s.self := rfl
@[simp] theorem State.needDecision_others (d c : Nat) : (s.needDecision d c).others = s.others := rfl
@[simp] theorem State.needDecision_cores (d c : Nat) : (s.needDecision d c).cores = s.cores := rfl
@[simp] theorem State.needDecision_m (d c : Nat) : (s.needDecision d c).m = s.m := rfl
@[simp] theorem State.needDecision_work (d c : Nat) : (s.needDecision d c).work = { s.work with decisions := s.work.decisions ++ [(d, c)] } := rfl
@[simp] theorem State.needDecision_cells (d c : Nat) : (s.needDecision d c).cells = s.cells := rfl
@[simp] theorem State.needDecision_host (d c : Nat) : (s.needDecision d c).host = s.host := rfl
@[simp] theorem State.needDecision_plant (d c : Nat) : (s.needDecision d c).plant = s.plant := rfl
@[simp] theorem State.needDecision_fresh (d c : Nat) : (s.needDecision d c).fresh = s.fresh := rfl
@[simp] theorem State.needDecision_free (d c : Nat) : (s.needDecision d c).free = s.free := rfl
@[simp] theorem State.needDecision_agenda (d c : Nat) : (s.needDecision d c).agenda = s.agenda := rfl

/-! `setCopy` -/
@[simp] theorem State.setCopy_self (c : Copy) : (s.setCopy c).self = s.self := rfl
@[simp] theorem State.setCopy_others (c : Copy) : (s.setCopy c).others = s.others := rfl
@[simp] theorem State.setCopy_cores (c : Copy) : (s.setCopy c).cores = s.cores := rfl
@[simp] theorem State.setCopy_m (c : Copy) : (s.setCopy c).m = s.m := rfl
@[simp] theorem State.setCopy_cells (c : Copy) : (s.setCopy c).cells = s.cells := rfl
@[simp] theorem State.setCopy_host (c : Copy) : (s.setCopy c).host = s.host := rfl
@[simp] theorem State.setCopy_plant (c : Copy) : (s.setCopy c).plant = s.plant := rfl
@[simp] theorem State.setCopy_fresh (c : Copy) : (s.setCopy c).fresh = s.fresh := rfl
@[simp] theorem State.setCopy_free (c : Copy) : (s.setCopy c).free = s.free := rfl
@[simp] theorem State.setCopy_agenda (c : Copy) : (s.setCopy c).agenda = s.agenda := rfl

/-! `setRegion` -/
@[simp] theorem State.setRegion_self (r : Region) : (s.setRegion r).self = s.self := rfl
@[simp] theorem State.setRegion_others (r : Region) : (s.setRegion r).others = s.others := rfl
@[simp] theorem State.setRegion_cores (r : Region) : (s.setRegion r).cores = s.cores := rfl
@[simp] theorem State.setRegion_m (r : Region) : (s.setRegion r).m = s.m := rfl
@[simp] theorem State.setRegion_cells (r : Region) : (s.setRegion r).cells = s.cells := rfl
@[simp] theorem State.setRegion_host (r : Region) : (s.setRegion r).host = s.host := rfl
@[simp] theorem State.setRegion_plant (r : Region) : (s.setRegion r).plant = s.plant := rfl
@[simp] theorem State.setRegion_fresh (r : Region) : (s.setRegion r).fresh = s.fresh := rfl
@[simp] theorem State.setRegion_free (r : Region) : (s.setRegion r).free = s.free := rfl
@[simp] theorem State.setRegion_agenda (r : Region) : (s.setRegion r).agenda = s.agenda := rfl

/-! `mapResidency` -/
@[simp] theorem State.mapResidency_self (d c e : Nat) (f : Residency → Residency) : (s.mapResidency d c e f).self = s.self := rfl
@[simp] theorem State.mapResidency_others (d c e : Nat) (f : Residency → Residency) : (s.mapResidency d c e f).others = s.others := rfl
@[simp] theorem State.mapResidency_cores (d c e : Nat) (f : Residency → Residency) : (s.mapResidency d c e f).cores = s.cores := rfl
@[simp] theorem State.mapResidency_m (d c e : Nat) (f : Residency → Residency) : (s.mapResidency d c e f).m = s.m := rfl
@[simp] theorem State.mapResidency_cells (d c e : Nat) (f : Residency → Residency) : (s.mapResidency d c e f).cells = s.cells := rfl
@[simp] theorem State.mapResidency_host (d c e : Nat) (f : Residency → Residency) : (s.mapResidency d c e f).host = s.host := rfl
@[simp] theorem State.mapResidency_plant (d c e : Nat) (f : Residency → Residency) : (s.mapResidency d c e f).plant = s.plant := rfl
@[simp] theorem State.mapResidency_fresh (d c e : Nat) (f : Residency → Residency) : (s.mapResidency d c e f).fresh = s.fresh := rfl
@[simp] theorem State.mapResidency_free (d c e : Nat) (f : Residency → Residency) : (s.mapResidency d c e f).free = s.free := rfl
@[simp] theorem State.mapResidency_agenda (d c e : Nat) (f : Residency → Residency) : (s.mapResidency d c e f).agenda = s.agenda := rfl

/-! `setPacket` -/
@[simp] theorem State.setPacket_self (p : Packet) : (s.setPacket p).self = s.self := rfl
@[simp] theorem State.setPacket_others (p : Packet) : (s.setPacket p).others = s.others := rfl
@[simp] theorem State.setPacket_cores (p : Packet) : (s.setPacket p).cores = s.cores := rfl
@[simp] theorem State.setPacket_m (p : Packet) : (s.setPacket p).m = s.m := rfl
@[simp] theorem State.setPacket_cells (p : Packet) : (s.setPacket p).cells = s.cells := rfl
@[simp] theorem State.setPacket_host (p : Packet) : (s.setPacket p).host = s.host := rfl
@[simp] theorem State.setPacket_plant (p : Packet) : (s.setPacket p).plant = s.plant := rfl
@[simp] theorem State.setPacket_fresh (p : Packet) : (s.setPacket p).fresh = s.fresh := rfl
@[simp] theorem State.setPacket_free (p : Packet) : (s.setPacket p).free = s.free := rfl
@[simp] theorem State.setPacket_agenda (p : Packet) : (s.setPacket p).agenda = s.agenda := rfl

/-! `dropPacket` -/
@[simp] theorem State.dropPacket_self (pid : Nat) : (s.dropPacket pid).self = s.self := rfl
@[simp] theorem State.dropPacket_others (pid : Nat) : (s.dropPacket pid).others = s.others := rfl
@[simp] theorem State.dropPacket_cores (pid : Nat) : (s.dropPacket pid).cores = s.cores := rfl
@[simp] theorem State.dropPacket_m (pid : Nat) : (s.dropPacket pid).m = s.m := rfl
@[simp] theorem State.dropPacket_cells (pid : Nat) : (s.dropPacket pid).cells = s.cells := rfl
@[simp] theorem State.dropPacket_host (pid : Nat) : (s.dropPacket pid).host = s.host := rfl
@[simp] theorem State.dropPacket_plant (pid : Nat) : (s.dropPacket pid).plant = s.plant := rfl
@[simp] theorem State.dropPacket_fresh (pid : Nat) : (s.dropPacket pid).fresh = s.fresh := rfl
@[simp] theorem State.dropPacket_free (pid : Nat) : (s.dropPacket pid).free = s.free := rfl
@[simp] theorem State.dropPacket_agenda (pid : Nat) : (s.dropPacket pid).agenda = s.agenda := rfl

/-! `mapEclosion` -/
@[simp] theorem State.mapEclosion_self (eid : Nat) (f : Eclosion → Eclosion) : (s.mapEclosion eid f).self = s.self := rfl
@[simp] theorem State.mapEclosion_others (eid : Nat) (f : Eclosion → Eclosion) : (s.mapEclosion eid f).others = s.others := rfl
@[simp] theorem State.mapEclosion_cores (eid : Nat) (f : Eclosion → Eclosion) : (s.mapEclosion eid f).cores = s.cores := rfl
@[simp] theorem State.mapEclosion_m (eid : Nat) (f : Eclosion → Eclosion) : (s.mapEclosion eid f).m = s.m := rfl
@[simp] theorem State.mapEclosion_work (eid : Nat) (f : Eclosion → Eclosion) : (s.mapEclosion eid f).work = s.work := rfl
@[simp] theorem State.mapEclosion_host (eid : Nat) (f : Eclosion → Eclosion) : (s.mapEclosion eid f).host = s.host := rfl
@[simp] theorem State.mapEclosion_plant (eid : Nat) (f : Eclosion → Eclosion) : (s.mapEclosion eid f).plant = s.plant := rfl
@[simp] theorem State.mapEclosion_fresh (eid : Nat) (f : Eclosion → Eclosion) : (s.mapEclosion eid f).fresh = s.fresh := rfl
@[simp] theorem State.mapEclosion_free (eid : Nat) (f : Eclosion → Eclosion) : (s.mapEclosion eid f).free = s.free := rfl
@[simp] theorem State.mapEclosion_agenda (eid : Nat) (f : Eclosion → Eclosion) : (s.mapEclosion eid f).agenda = s.agenda := rfl

/-! `dequeue` -/
@[simp] theorem State.dequeue_self (w : Waiter) : (s.dequeue w).self = s.self := rfl
@[simp] theorem State.dequeue_others (w : Waiter) : (s.dequeue w).others = s.others := rfl
@[simp] theorem State.dequeue_cores (w : Waiter) : (s.dequeue w).cores = s.cores := rfl
@[simp] theorem State.dequeue_m (w : Waiter) : (s.dequeue w).m = s.m := rfl
@[simp] theorem State.dequeue_work (w : Waiter) : (s.dequeue w).work = s.work := rfl
@[simp] theorem State.dequeue_host (w : Waiter) : (s.dequeue w).host = s.host := rfl
@[simp] theorem State.dequeue_plant (w : Waiter) : (s.dequeue w).plant = s.plant := rfl
@[simp] theorem State.dequeue_fresh (w : Waiter) : (s.dequeue w).fresh = s.fresh := rfl
@[simp] theorem State.dequeue_free (w : Waiter) : (s.dequeue w).free = s.free := rfl
@[simp] theorem State.dequeue_agenda (w : Waiter) : (s.dequeue w).agenda = s.agenda := rfl

/-! `unpin` -/
@[simp] theorem State.unpin_self (rid : Nat) : (s.unpin rid).self = s.self := rfl
@[simp] theorem State.unpin_others (rid : Nat) : (s.unpin rid).others = s.others := rfl
@[simp] theorem State.unpin_cores (rid : Nat) : (s.unpin rid).cores = s.cores := rfl
@[simp] theorem State.unpin_work (rid : Nat) : (s.unpin rid).work = s.work := rfl
@[simp] theorem State.unpin_cells (rid : Nat) : (s.unpin rid).cells = s.cells := rfl
@[simp] theorem State.unpin_host (rid : Nat) : (s.unpin rid).host = s.host := rfl
@[simp] theorem State.unpin_plant (rid : Nat) : (s.unpin rid).plant = s.plant := rfl
@[simp] theorem State.unpin_fresh (rid : Nat) : (s.unpin rid).fresh = s.fresh := rfl
@[simp] theorem State.unpin_free (rid : Nat) : (s.unpin rid).free = s.free := rfl
@[simp] theorem State.unpin_agenda (rid : Nat) : (s.unpin rid).agenda = s.agenda := rfl

/-! `dropKept` -/
@[simp] theorem State.dropKept_self : (s.dropKept).self = s.self := rfl
@[simp] theorem State.dropKept_others : (s.dropKept).others = s.others := rfl
@[simp] theorem State.dropKept_cores : (s.dropKept).cores = s.cores := rfl
@[simp] theorem State.dropKept_m : (s.dropKept).m = s.m := rfl
@[simp] theorem State.dropKept_work : (s.dropKept).work = s.work := rfl
@[simp] theorem State.dropKept_cells : (s.dropKept).cells = s.cells := rfl
@[simp] theorem State.dropKept_host : (s.dropKept).host = { s.host with kept := s.host.kept.filter (fun k => k.uid != s.self.id.uid) } := rfl
@[simp] theorem State.dropKept_plant : (s.dropKept).plant = s.plant := rfl
@[simp] theorem State.dropKept_fresh : (s.dropKept).fresh = s.fresh := rfl
@[simp] theorem State.dropKept_free : (s.dropKept).free = s.free := rfl
@[simp] theorem State.dropKept_agenda : (s.dropKept).agenda = s.agenda := rfl

/-! `await` -/
@[simp] theorem State.await_self (m rq pa n : Nat) : (s.await m rq pa n).self = s.self := rfl
@[simp] theorem State.await_others (m rq pa n : Nat) : (s.await m rq pa n).others = s.others := rfl
@[simp] theorem State.await_cores (m rq pa n : Nat) : (s.await m rq pa n).cores = s.cores := rfl
@[simp] theorem State.await_m (m rq pa n : Nat) : (s.await m rq pa n).m = s.m := rfl
@[simp] theorem State.await_work (m rq pa n : Nat) : (s.await m rq pa n).work = s.work := rfl
@[simp] theorem State.await_cells (m rq pa n : Nat) : (s.await m rq pa n).cells = { s.cells with awaited := s.cells.awaited ++ [(m, rq, pa / 32 * 32, n)] } := rfl
@[simp] theorem State.await_host (m rq pa n : Nat) : (s.await m rq pa n).host = s.host := rfl
@[simp] theorem State.await_plant (m rq pa n : Nat) : (s.await m rq pa n).plant = s.plant := rfl
@[simp] theorem State.await_fresh (m rq pa n : Nat) : (s.await m rq pa n).fresh = s.fresh := rfl
@[simp] theorem State.await_free (m rq pa n : Nat) : (s.await m rq pa n).free = s.free := rfl
@[simp] theorem State.await_agenda (m rq pa n : Nat) : (s.await m rq pa n).agenda = s.agenda := rfl

/-! `giveUp` -/
@[simp] theorem State.giveUp_self (m rq : Nat) : (s.giveUp m rq).self = s.self := rfl
@[simp] theorem State.giveUp_others (m rq : Nat) : (s.giveUp m rq).others = s.others := rfl
@[simp] theorem State.giveUp_cores (m rq : Nat) : (s.giveUp m rq).cores = s.cores := rfl
@[simp] theorem State.giveUp_m (m rq : Nat) : (s.giveUp m rq).m = s.m := rfl
@[simp] theorem State.giveUp_work (m rq : Nat) : (s.giveUp m rq).work = s.work := rfl
@[simp] theorem State.giveUp_host (m rq : Nat) : (s.giveUp m rq).host = s.host := rfl
@[simp] theorem State.giveUp_plant (m rq : Nat) : (s.giveUp m rq).plant = s.plant := rfl
@[simp] theorem State.giveUp_fresh (m rq : Nat) : (s.giveUp m rq).fresh = s.fresh := rfl
@[simp] theorem State.giveUp_free (m rq : Nat) : (s.giveUp m rq).free = s.free := rfl
@[simp] theorem State.giveUp_agenda (m rq : Nat) : (s.giveUp m rq).agenda = s.agenda := rfl

/-! `storeCame` -/
@[simp] theorem State.storeCame_self (m rq : Nat) : (s.storeCame m rq).self = s.self := rfl
@[simp] theorem State.storeCame_others (m rq : Nat) : (s.storeCame m rq).others = s.others := rfl
@[simp] theorem State.storeCame_cores (m rq : Nat) : (s.storeCame m rq).cores = s.cores := rfl
@[simp] theorem State.storeCame_m (m rq : Nat) : (s.storeCame m rq).m = s.m := rfl
@[simp] theorem State.storeCame_work (m rq : Nat) : (s.storeCame m rq).work = s.work := rfl
@[simp] theorem State.storeCame_host (m rq : Nat) : (s.storeCame m rq).host = s.host := rfl
@[simp] theorem State.storeCame_plant (m rq : Nat) : (s.storeCame m rq).plant = s.plant := rfl
@[simp] theorem State.storeCame_fresh (m rq : Nat) : (s.storeCame m rq).fresh = s.fresh := rfl
@[simp] theorem State.storeCame_free (m rq : Nat) : (s.storeCame m rq).free = s.free := rfl
@[simp] theorem State.storeCame_agenda (m rq : Nat) : (s.storeCame m rq).agenda = s.agenda := rfl

/-! `awaitNone` -/
@[simp] theorem State.awaitNone_self (p : Nat) (m : Option Nat) : (s.awaitNone p m).self = s.self := rfl
@[simp] theorem State.awaitNone_others (p : Nat) (m : Option Nat) : (s.awaitNone p m).others = s.others := rfl
@[simp] theorem State.awaitNone_cores (p : Nat) (m : Option Nat) : (s.awaitNone p m).cores = s.cores := rfl
@[simp] theorem State.awaitNone_m (p : Nat) (m : Option Nat) : (s.awaitNone p m).m = s.m := rfl
@[simp] theorem State.awaitNone_work (p : Nat) (m : Option Nat) : (s.awaitNone p m).work = s.work := rfl
@[simp] theorem State.awaitNone_host (p : Nat) (m : Option Nat) : (s.awaitNone p m).host = s.host := rfl
@[simp] theorem State.awaitNone_plant (p : Nat) (m : Option Nat) : (s.awaitNone p m).plant = s.plant := rfl
@[simp] theorem State.awaitNone_fresh (p : Nat) (m : Option Nat) : (s.awaitNone p m).fresh = s.fresh := rfl
@[simp] theorem State.awaitNone_free (p : Nat) (m : Option Nat) : (s.awaitNone p m).free = s.free := rfl
@[simp] theorem State.awaitNone_agenda (p : Nat) (m : Option Nat) : (s.awaitNone p m).agenda = s.agenda := rfl

/-! `wakeAreas` -/
@[simp] theorem State.wakeAreas_cores (d c f r n : Nat) : (s.wakeAreas d c f r n).cores = s.cores := rfl
@[simp] theorem State.wakeAreas_m (d c f r n : Nat) : (s.wakeAreas d c f r n).m = s.m := rfl
@[simp] theorem State.wakeAreas_work (d c f r n : Nat) : (s.wakeAreas d c f r n).work = s.work := rfl
@[simp] theorem State.wakeAreas_cells (d c f r n : Nat) : (s.wakeAreas d c f r n).cells = s.cells := rfl
@[simp] theorem State.wakeAreas_host (d c f r n : Nat) : (s.wakeAreas d c f r n).host = s.host := rfl
@[simp] theorem State.wakeAreas_plant (d c f r n : Nat) : (s.wakeAreas d c f r n).plant = s.plant := rfl
@[simp] theorem State.wakeAreas_fresh (d c f r n : Nat) : (s.wakeAreas d c f r n).fresh = s.fresh := rfl
@[simp] theorem State.wakeAreas_free (d c f r n : Nat) : (s.wakeAreas d c f r n).free = s.free := rfl
@[simp] theorem State.wakeAreas_agenda (d c f r n : Nat) : (s.wakeAreas d c f r n).agenda = s.agenda := rfl

/-! `wrote` -/
@[simp] theorem State.wrote_self (r : BitVec 6) (x : Word) : (s.wrote r x).self = { s.self.setG r x with pc := s.self.pc + 4#64 } := by
  simp only [State.wrote, Strand.setG]; split <;> rfl
@[simp] theorem State.wrote_others (r : BitVec 6) (x : Word) : (s.wrote r x).others = s.others := rfl
@[simp] theorem State.wrote_cores (r : BitVec 6) (x : Word) : (s.wrote r x).cores = s.cores := rfl
@[simp] theorem State.wrote_m (r : BitVec 6) (x : Word) : (s.wrote r x).m = s.m := rfl
@[simp] theorem State.wrote_work (r : BitVec 6) (x : Word) : (s.wrote r x).work = s.work := rfl
@[simp] theorem State.wrote_cells (r : BitVec 6) (x : Word) : (s.wrote r x).cells = s.cells := rfl
@[simp] theorem State.wrote_host (r : BitVec 6) (x : Word) : (s.wrote r x).host = s.host := rfl
@[simp] theorem State.wrote_plant (r : BitVec 6) (x : Word) : (s.wrote r x).plant = s.plant := rfl
@[simp] theorem State.wrote_fresh (r : BitVec 6) (x : Word) : (s.wrote r x).fresh = s.fresh := rfl
@[simp] theorem State.wrote_free (r : BitVec 6) (x : Word) : (s.wrote r x).free = s.free := rfl
@[simp] theorem State.wrote_agenda (r : BitVec 6) (x : Word) : (s.wrote r x).agenda = s.agenda := rfl

/-! `wroteF` -/
@[simp] theorem State.wroteF_others (r : BitVec 6) (x : Word) (f : BitVec 5) : (s.wroteF r x f).others = s.others := rfl
@[simp] theorem State.wroteF_cores (r : BitVec 6) (x : Word) (f : BitVec 5) : (s.wroteF r x f).cores = s.cores := rfl
@[simp] theorem State.wroteF_m (r : BitVec 6) (x : Word) (f : BitVec 5) : (s.wroteF r x f).m = s.m := rfl
@[simp] theorem State.wroteF_work (r : BitVec 6) (x : Word) (f : BitVec 5) : (s.wroteF r x f).work = s.work := rfl
@[simp] theorem State.wroteF_cells (r : BitVec 6) (x : Word) (f : BitVec 5) : (s.wroteF r x f).cells = s.cells := rfl
@[simp] theorem State.wroteF_host (r : BitVec 6) (x : Word) (f : BitVec 5) : (s.wroteF r x f).host = s.host := rfl
@[simp] theorem State.wroteF_plant (r : BitVec 6) (x : Word) (f : BitVec 5) : (s.wroteF r x f).plant = s.plant := rfl
@[simp] theorem State.wroteF_fresh (r : BitVec 6) (x : Word) (f : BitVec 5) : (s.wroteF r x f).fresh = s.fresh := rfl
@[simp] theorem State.wroteF_free (r : BitVec 6) (x : Word) (f : BitVec 5) : (s.wroteF r x f).free = s.free := rfl
@[simp] theorem State.wroteF_agenda (r : BitVec 6) (x : Word) (f : BitVec 5) : (s.wroteF r x f).agenda = s.agenda := rfl

/-! `wentTo` -/
@[simp] theorem State.wentTo_self (x : Word) : (s.wentTo x).self = { s.self with pc := x } := rfl
@[simp] theorem State.wentTo_others (x : Word) : (s.wentTo x).others = s.others := rfl
@[simp] theorem State.wentTo_cores (x : Word) : (s.wentTo x).cores = s.cores := rfl
@[simp] theorem State.wentTo_m (x : Word) : (s.wentTo x).m = s.m := rfl
@[simp] theorem State.wentTo_work (x : Word) : (s.wentTo x).work = s.work := rfl
@[simp] theorem State.wentTo_cells (x : Word) : (s.wentTo x).cells = s.cells := rfl
@[simp] theorem State.wentTo_host (x : Word) : (s.wentTo x).host = s.host := rfl
@[simp] theorem State.wentTo_plant (x : Word) : (s.wentTo x).plant = s.plant := rfl
@[simp] theorem State.wentTo_fresh (x : Word) : (s.wentTo x).fresh = s.fresh := rfl
@[simp] theorem State.wentTo_free (x : Word) : (s.wentTo x).free = s.free := rfl
@[simp] theorem State.wentTo_agenda (x : Word) : (s.wentTo x).agenda = s.agenda := rfl

/-! Registers -/
@[simp] theorem Strand.getG_zero (t : Strand) : t.getG 0#6 = 0#64 := rfl
@[simp] theorem Strand.setG_zero (t : Strand) (x : Word) : t.setG 0#6 x = t := rfl
@[simp] theorem Strand.setG_id (t : Strand) (r : BitVec 6) (x : Word) : (t.setG r x).id = t.id := by
  simp only [Strand.setG]; split <;> rfl
@[simp] theorem Strand.setG_st (t : Strand) (r : BitVec 6) (x : Word) : (t.setG r x).st = t.st := by
  simp only [Strand.setG]; split <;> rfl
@[simp] theorem Strand.setG_pc (t : Strand) (r : BitVec 6) (x : Word) : (t.setG r x).pc = t.pc := by
  simp only [Strand.setG]; split <;> rfl
@[simp] theorem Strand.setG_v (t : Strand) (r : BitVec 6) (x : Word) : (t.setG r x).v = t.v := by
  simp only [Strand.setG]; split <;> rfl
@[simp] theorem Strand.setG_k (t : Strand) (r : BitVec 6) (x : Word) : (t.setG r x).k = t.k := by
  simp only [Strand.setG]; split <;> rfl
@[simp] theorem Strand.setG_ctl (t : Strand) (r : BitVec 6) (x : Word) : (t.setG r x).ctl = t.ctl := by
  simp only [Strand.setG]; split <;> rfl
@[simp] theorem Strand.setG_q (t : Strand) (r : BitVec 6) (x : Word) : (t.setG r x).q = t.q := by
  simp only [Strand.setG]; split <;> rfl
@[simp] theorem Strand.setG_park (t : Strand) (r : BitVec 6) (x : Word) : (t.setG r x).park = t.park := by
  simp only [Strand.setG]; split <;> rfl
@[simp] theorem Strand.setG_waits (t : Strand) (r : BitVec 6) (x : Word) : (t.setG r x).waits = t.waits := by
  simp only [Strand.setG]; split <;> rfl

/-- A register reads as it was written; g0 reads zero whatever was written (R94). -/
theorem Strand.getG_setG (t : Strand) (r r' : BitVec 6) (x : Word) :
    (t.setG r x).getG r' = if r' = r ∧ r ≠ 0#6 then x else t.getG r' := by
  unfold Strand.setG Strand.getG
  by_cases h : r = 0#6
  · simp [h]
  · by_cases h' : r' = 0#6
    · simp [h, h', Ne.symm h]
    · by_cases e : r' = r
      · subst e; simp [h, Vector.get]
      · have : r.toNat ≠ r'.toNat := fun q => e (BitVec.eq_of_toNat_eq q.symm)
        simp [h, h', e, Vector.get, Array.getElem_set, this]

theorem State.getG_def (r : BitVec 6) : s.getG r = s.self.getG r := rfl
@[simp] theorem State.getG_zero : s.getG 0#6 = 0#64 := rfl
@[simp] theorem State.setG_zero (x : Word) : s.setG 0#6 x = s := rfl
theorem State.getG_setG (r r' : BitVec 6) (x : Word) :
    (s.setG r x).getG r' = if r' = r ∧ r ≠ 0#6 then x else s.getG r' := s.self.getG_setG r r' x

/-- A one-word instruction that writes its result and advances (the shape of most meanings). -/
theorem State.setG_adv (r : BitVec 6) (x : Word) : (s.setG r x).adv = s.wrote r x := by
  simp only [State.setG, State.adv, State.setPc, State.wrote, Strand.setG]; split <;> rfl

theorem State.wroteF_eq (r : BitVec 6) (x : Word) (f : BitVec 5) : s.wroteF r x f = (s.wrote r x).mergeFlags f := rfl
theorem State.adv_eq : s.adv = s.wentTo (s.self.pc + 4#64) := rfl
theorem State.adv8_eq : s.adv8 = s.wentTo (s.self.pc + 8#64) := rfl
theorem State.setPc_eq (x : Word) : s.setPc x = s.wentTo x := rfl
@[simp] theorem State.wrote_zero (x : Word) : s.wrote 0#6 x = s.adv := rfl
theorem State.getG_wrote (r r' : BitVec 6) (x : Word) :
    (s.wrote r x).getG r' = if r' = r ∧ r ≠ 0#6 then x else s.getG r' := by
  rw [← State.setG_adv]; exact s.getG_setG r r' x
@[simp] theorem State.getG_wentTo (r : BitVec 6) (x : Word) : (s.wentTo x).getG r = s.getG r := rfl
@[simp] theorem State.getG_setCtl (r : BitVec 6) (c : Ctl) : (s.setCtl c).getG r = s.getG r := rfl
@[simp] theorem State.getG_mergeFlags (r : BitVec 6) (f : BitVec 5) : (s.mergeFlags f).getG r = s.getG r := rfl
@[simp] theorem State.getG_markBusy (r : BitVec 6) (l : List BusyMark) : (s.markBusy l).getG r = s.getG r := rfl

/-! Host tables -/
theorem State.part_setPart (p q : Nat) (x : Partition) (h : p < 64) :
    (s.setPart p x).part q = if q = p then x else s.part q := by
  simp only [State.part, State.setPart]
  by_cases e : q = p
  · subst e; simp [h]
  · simp [e, Ne.symm e]
theorem State.fn_setFn (p q : Nat) (x : HostFn) (h : p < 64) : (s.setFn p x).fn q = if q = p then x else s.fn q := by
  simp only [State.fn, State.setFn]
  by_cases e : q = p
  · subst e; simp [h]
  · simp [e, Ne.symm e]
theorem State.die_setDie (p q : Nat) (x : Die) (h : p < 8) : (s.setDie p x).die q = if q = p then x else s.die q := by
  simp only [State.die, State.setDie]
  by_cases e : q = p
  · subst e; simp [h]
  · simp [e, Ne.symm e]
@[simp] theorem State.part_setFn (p q : Nat) (x : HostFn) : (s.setFn p x).part q = s.part q := rfl
@[simp] theorem State.fn_setPart (p q : Nat) (x : Partition) : (s.setPart p x).fn q = s.fn q := rfl

/-! Lines shown under a key (R367): nothing but memory changes, and nothing at all where no line is keyed or every place is
local. -/
theorem foldl_keeps {σ α β : Type} {f : σ → α → σ} {g : σ → β} (h : ∀ x a, g (f x a) = g x) :
    ∀ (l : List α) (x : σ), g (l.foldl f x) = g x
  | [], _ => rfl
  | a :: l, x => (foldl_keeps h l (f x a)).trans (h x a)

theorem State.useKey_only (part sel pa : Nat) : ∃ x, s.useKey part sel pa = { s with m := x } := by
  simp only [State.useKey]; split
  · exact ⟨s.m, rfl⟩
  · exact ⟨_, rfl⟩
theorem State.useKey_plain (h : s.m.keyed = []) (hf : s.m.fills = []) (part pa : Nat) : s.useKey part 0 pa = s := by
  simp only [State.useKey]
  rw [if_pos (by simp [State.seenUnder, State.fillKey, h, hf])]
theorem State.underKeys_only (ps : List (Nat × Word × Place)) : ∃ x, s.underKeys ps = { s with m := x } := by
  induction ps generalizing s with
  | nil => exact ⟨s.m, rfl⟩
  | cons q ps ih =>
    simp only [State.underKeys, List.foldl_cons] at *
    split
    · obtain ⟨x, e⟩ := s.useKey_only s.self.id.part q.2.2.key q.2.2.loc
      rw [e]
      exact ih { s with m := x }
    · exact ih s
theorem State.underKeys_local (ps : List (Nat × Word × Place)) (h : ∀ q ∈ ps, q.2.2.glob = false) : s.underKeys ps = s := by
  induction ps with
  | nil => rfl
  | cons q ps ih =>
    simp only [State.underKeys, List.foldl_cons] at *
    rw [h q (List.mem_cons_self ..), if_neg (by simp)]
    exact ih (fun q hq => h q (List.mem_cons_of_mem _ hq))
theorem State.underKeys_plain (hk : s.m.keyed = []) (hf : s.m.fills = []) (ps : List (Nat × Word × Place)) (h : ∀ q ∈ ps, q.2.2.key = 0) :
    s.underKeys ps = s := by
  induction ps with
  | nil => rfl
  | cons q ps ih =>
    simp only [State.underKeys, List.foldl_cons] at *
    rw [h q (List.mem_cons_self ..), s.useKey_plain hk hf, ite_self]
    exact ih (fun q hq => h q (List.mem_cons_of_mem _ hq))
@[simp] theorem State.useKey_self (part sel pa : Nat) : (s.useKey part sel pa).self = s.self := by
  obtain ⟨x, e⟩ := s.useKey_only part sel pa; rw [e]
@[simp] theorem State.useKeys_self (part sel pa n : Nat) : (s.useKeys part sel pa n).self = s.self :=
  foldl_keeps (fun t l => t.useKey_self part sel l) _ s
@[simp] theorem State.underKeys_self (ps : List (Nat × Word × Place)) : (s.underKeys ps).self = s.self := by
  obtain ⟨x, e⟩ := s.underKeys_only ps; rw [e]
@[simp] theorem State.useKey_others (part sel pa : Nat) : (s.useKey part sel pa).others = s.others := by
  obtain ⟨x, e⟩ := s.useKey_only part sel pa; rw [e]
@[simp] theorem State.useKeys_others (part sel pa n : Nat) : (s.useKeys part sel pa n).others = s.others :=
  foldl_keeps (fun t l => t.useKey_others part sel l) _ s
@[simp] theorem State.underKeys_others (ps : List (Nat × Word × Place)) : (s.underKeys ps).others = s.others := by
  obtain ⟨x, e⟩ := s.underKeys_only ps; rw [e]
@[simp] theorem State.useKey_cores (part sel pa : Nat) : (s.useKey part sel pa).cores = s.cores := by
  obtain ⟨x, e⟩ := s.useKey_only part sel pa; rw [e]
@[simp] theorem State.useKeys_cores (part sel pa n : Nat) : (s.useKeys part sel pa n).cores = s.cores :=
  foldl_keeps (fun t l => t.useKey_cores part sel l) _ s
@[simp] theorem State.underKeys_cores (ps : List (Nat × Word × Place)) : (s.underKeys ps).cores = s.cores := by
  obtain ⟨x, e⟩ := s.underKeys_only ps; rw [e]
@[simp] theorem State.useKey_work (part sel pa : Nat) : (s.useKey part sel pa).work = s.work := by
  obtain ⟨x, e⟩ := s.useKey_only part sel pa; rw [e]
@[simp] theorem State.useKeys_work (part sel pa n : Nat) : (s.useKeys part sel pa n).work = s.work :=
  foldl_keeps (fun t l => t.useKey_work part sel l) _ s
@[simp] theorem State.underKeys_work (ps : List (Nat × Word × Place)) : (s.underKeys ps).work = s.work := by
  obtain ⟨x, e⟩ := s.underKeys_only ps; rw [e]
@[simp] theorem State.useKey_cells (part sel pa : Nat) : (s.useKey part sel pa).cells = s.cells := by
  obtain ⟨x, e⟩ := s.useKey_only part sel pa; rw [e]
@[simp] theorem State.useKeys_cells (part sel pa n : Nat) : (s.useKeys part sel pa n).cells = s.cells :=
  foldl_keeps (fun t l => t.useKey_cells part sel l) _ s
@[simp] theorem State.underKeys_cells (ps : List (Nat × Word × Place)) : (s.underKeys ps).cells = s.cells := by
  obtain ⟨x, e⟩ := s.underKeys_only ps; rw [e]
@[simp] theorem State.useKey_host (part sel pa : Nat) : (s.useKey part sel pa).host = s.host := by
  obtain ⟨x, e⟩ := s.useKey_only part sel pa; rw [e]
@[simp] theorem State.useKeys_host (part sel pa n : Nat) : (s.useKeys part sel pa n).host = s.host :=
  foldl_keeps (fun t l => t.useKey_host part sel l) _ s
@[simp] theorem State.underKeys_host (ps : List (Nat × Word × Place)) : (s.underKeys ps).host = s.host := by
  obtain ⟨x, e⟩ := s.underKeys_only ps; rw [e]
@[simp] theorem State.useKey_plant (part sel pa : Nat) : (s.useKey part sel pa).plant = s.plant := by
  obtain ⟨x, e⟩ := s.useKey_only part sel pa; rw [e]
@[simp] theorem State.useKeys_plant (part sel pa n : Nat) : (s.useKeys part sel pa n).plant = s.plant :=
  foldl_keeps (fun t l => t.useKey_plant part sel l) _ s
@[simp] theorem State.underKeys_plant (ps : List (Nat × Word × Place)) : (s.underKeys ps).plant = s.plant := by
  obtain ⟨x, e⟩ := s.underKeys_only ps; rw [e]
@[simp] theorem State.useKey_fresh (part sel pa : Nat) : (s.useKey part sel pa).fresh = s.fresh := by
  obtain ⟨x, e⟩ := s.useKey_only part sel pa; rw [e]
@[simp] theorem State.useKeys_fresh (part sel pa n : Nat) : (s.useKeys part sel pa n).fresh = s.fresh :=
  foldl_keeps (fun t l => t.useKey_fresh part sel l) _ s
@[simp] theorem State.underKeys_fresh (ps : List (Nat × Word × Place)) : (s.underKeys ps).fresh = s.fresh := by
  obtain ⟨x, e⟩ := s.underKeys_only ps; rw [e]
@[simp] theorem State.useKey_free (part sel pa : Nat) : (s.useKey part sel pa).free = s.free := by
  obtain ⟨x, e⟩ := s.useKey_only part sel pa; rw [e]
@[simp] theorem State.useKeys_free (part sel pa n : Nat) : (s.useKeys part sel pa n).free = s.free :=
  foldl_keeps (fun t l => t.useKey_free part sel l) _ s
@[simp] theorem State.underKeys_free (ps : List (Nat × Word × Place)) : (s.underKeys ps).free = s.free := by
  obtain ⟨x, e⟩ := s.underKeys_only ps; rw [e]
@[simp] theorem State.useKey_agenda (part sel pa : Nat) : (s.useKey part sel pa).agenda = s.agenda := by
  obtain ⟨x, e⟩ := s.useKey_only part sel pa; rw [e]
@[simp] theorem State.useKeys_agenda (part sel pa n : Nat) : (s.useKeys part sel pa n).agenda = s.agenda :=
  foldl_keeps (fun t l => t.useKey_agenda part sel l) _ s
@[simp] theorem State.underKeys_agenda (ps : List (Nat × Word × Place)) : (s.underKeys ps).agenda = s.agenda := by
  obtain ⟨x, e⟩ := s.underKeys_only ps; rw [e]

/-! Memory is kept by updates of other fields -/
theorem State.memOk_of_mem {s t : State} (h : s.memOk) (e : t.m.mem = s.m.mem) : t.memOk := by
  unfold State.memOk at *; rw [e]; exact h

end Sys2Proof.Machine
end

