-- ==== Sys2Proof/Laws/Ops.lean ====
section
/-! SUPPORT. What the shared operations do, each said once: traps, control transfers, privilege, the seat, words and their
waiters. -/
namespace Sys2Proof.Machine

variable (s : State)

/-! ## Traps -/

@[simp] theorem State.mapFollower_self (f : Strand → Strand) : (s.mapFollower f).self = s.self := by
  simp only [State.mapFollower]; split <;> rfl
@[simp] theorem State.mapFollower_m (f : Strand → Strand) : (s.mapFollower f).m = s.m := by
  simp only [State.mapFollower]; split <;> rfl

/-- The end of a gang changes no more of the leader than that it is in no gang. -/
theorem State.endGang_self : s.endGang.self =
    if s.self.ctl.glead then { s.self with ctl := { s.self.ctl with ganged := false, glead := false } } else s.self := by
  simp only [State.endGang]; split <;> simp
@[simp] theorem State.endGang_m : s.endGang.m = s.m := by
  simp only [State.endGang]; split <;> simp
theorem State.endGang_none (h : s.self.ctl.glead = false) : s.endGang = s := by simp [State.endGang, h]
@[simp] theorem State.endGang_itr : s.endGang.self.ctl.itr = s.self.ctl.itr := by
  rw [s.endGang_self]; split <;> rfl
@[simp] theorem State.endGang_sMode : s.endGang.self.ctl.sMode = s.self.ctl.sMode := by
  rw [s.endGang_self]; split <;> rfl
@[simp] theorem State.endGang_tvec : s.endGang.self.ctl.tvec = s.self.ctl.tvec := by
  rw [s.endGang_self]; split <;> rfl
@[simp] theorem State.endGang_pc : s.endGang.self.pc = s.self.pc := by
  rw [s.endGang_self]; split <;> rfl

/-- Taking a trap outside a handler (R35). -/
theorem State.enterTrap_eq (h : s.canTrap) (tpc : Word) (r : TrapRec) : s.enterTrap tpc r = s.trapped tpc r := by
  have e : s.endGang.self.ctl.itr = false := by rw [s.endGang_itr]; exact h
  simp only [State.enterTrap, e]
  rfl

/-- A trap in a handler stops the strand (R36). -/
theorem State.enterTrap_double (h : s.self.ctl.itr = true) (tpc : Word) (r : TrapRec) :
    s.enterTrap tpc r = s.endGang.stop 1 r.cause s.self.pc r.info0 := by
  have e : s.endGang.self.ctl.itr = true := by rw [s.endGang_itr]; exact h
  simp only [State.enterTrap, e, if_true, s.endGang_pc]

theorem State.trap_eq (h : s.canTrap) (r : TrapRec) : s.trap r = s.trapped s.self.pc r := s.enterTrap_eq h _ r

/-- What a trap writes, and that it keeps the registers and memory. -/
theorem State.trapped_frame (tpc : Word) (r : TrapRec) :
    (s.trapped tpc r).self.pc = s.self.ctl.tvec ∧ (s.trapped tpc r).self.ctl.tpc = tpc ∧
    (s.trapped tpc r).self.ctl.tcause = r.tcause ∧ (s.trapped tpc r).self.ctl.sMode = true ∧
    (s.trapped tpc r).self.ctl.itr = true ∧ (s.trapped tpc r).self.ctl.pmode = s.self.ctl.sMode ∧
    (s.trapped tpc r).self.g = s.self.g ∧ (s.trapped tpc r).self.v = s.self.v ∧ (s.trapped tpc r).self.k = s.self.k ∧
    (s.trapped tpc r).m = s.m := by
  simp only [State.trapped, s.endGang_tvec, s.endGang_sMode, s.endGang_m, true_and, and_true]
  rw [s.endGang_self]
  split <;> exact ⟨rfl, rfl, rfl⟩

@[simp] theorem State.stop_m (k c : Nat) (pc i : Word) : (s.stop k c pc i).m = s.m := rfl
@[simp] theorem State.enterTrap_m (tpc : Word) (r : TrapRec) : (s.enterTrap tpc r).m = s.m := by
  simp only [State.enterTrap]; split <;> simp
@[simp] theorem State.trap_m (r : TrapRec) : (s.trap r).m = s.m := s.enterTrap_m _ r

/-- A privileged instruction: its effect in S mode, PRIV in U mode. -/
theorem State.privileged_cases (w : BitVec 32) (f : State → State) :
    (s.self.ctl.sMode = true → s.privileged w f = f s) ∧
    (s.self.ctl.sMode = false → s.privileged w f = s.trap (privTrap w)) := by
  constructor <;> intro h <;> simp [State.privileged, h]

theorem bits_low (x : Word) : bits x 1 0 = x.toNat % 4 := by simp [bits, natBits]

/-- A control transfer: to an aligned target, or ALIGN. -/
theorem State.jumpTo_cases (x : Word) (f : State → State) :
    (x.toNat % 4 = 0 → s.jumpTo x f = (f s).setPc x) ∧ (x.toNat % 4 ≠ 0 → s.jumpTo x f = s.trap (alignTrap x)) := by
  constructor <;> intro h <;> simp [State.jumpTo, bits_low, h]

/-! ## The seat -/

theorem State.seat_self {uid : Nat} (h : s.self.live = true) (e : s.self.id.uid = uid) : s.seat uid = s := by
  simp [State.seat, h, e]
@[simp] theorem State.seat_m (uid : Nat) : (s.seat uid).m = s.m := by
  simp only [State.seat]; split
  · rfl
  · split <;> rfl
@[simp] theorem State.seat_plant (uid : Nat) : (s.seat uid).plant = s.plant := by
  simp only [State.seat]; split
  · rfl
  · split <;> rfl
@[simp] theorem State.seat_host (uid : Nat) : (s.seat uid).host = s.host := by
  simp only [State.seat]; split
  · rfl
  · split <;> rfl

/-- The strand that a number names sits in the seat once it has taken it. -/
theorem State.seat_strand {uid : Nat} {t : Strand} (h : s.strand? uid = some t) : (s.seat uid).self = t := by
  simp only [State.strand?, State.all, List.find?_cons] at h
  simp only [State.seat]
  split at h
  · next e => rw [if_pos e]; exact Option.some.inj h
  · next e => rw [if_neg (by simpa using e), h]

theorem State.onStrand_some {uid : Nat} {t : Strand} {c : Strand → Bool} {f : State → State}
    (h : s.strand? uid = some t) (hc : c t = true) : s.onStrand uid c f = f (s.seat uid) := by
  simp [State.onStrand, h, hc]

/-! ## Words and waiters -/

theorem State.setBit_isFull (h : s.m.empties.Nodup) (l q : Nat) (full : Bool) :
    (s.setBit l full).isFull q = if q = l then full else s.isFull q := by
  simp only [State.isFull, State.setBit]
  by_cases e : q = l
  · subst e
    cases full
    · by_cases m : q ∈ s.m.empties <;> simp [m]
    · simp [List.Nodup.not_mem_erase h]
  · cases full
    · by_cases m : l ∈ s.m.empties <;> simp [m, e]
    · simp [e, List.mem_erase_of_ne e]

theorem State.tag_setTag (a b : Nat) (x : Tag) : (s.setTag a x).tag b = if b / 32 = a / 32 then x else s.tag b := by
  have filt : ∀ l : List (Nat × Tag), b / 32 ≠ a / 32 →
      (l.filter (fun p => p.1 != a / 32 * 32)).find? (fun p => p.1 == b / 32 * 32) = l.find? (fun p => p.1 == b / 32 * 32) := by
    intro l e
    induction l with
    | nil => rfl
    | cons p l ih =>
      by_cases h1 : p.1 = a / 32 * 32
      · have h2 : ¬ p.1 = b / 32 * 32 := by omega
        simp [h1, ih, show ¬ a / 32 * 32 = b / 32 * 32 by omega]
      · by_cases h2 : p.1 = b / 32 * 32
        · simp [h2, show ¬ b / 32 * 32 = a / 32 * 32 by omega]
        · simp [h1, h2, ih]
  simp only [State.tag, State.setTag]
  by_cases e : b / 32 = a / 32
  · rw [if_pos e, e]
    by_cases v : x = .value
    · rw [if_pos v, v]
      have : (s.m.tags.filter (fun p => p.1 != a / 32 * 32)).find? (fun p => p.1 == a / 32 * 32) = none := by
        rw [List.find?_eq_none]; intro p hp; simp [List.mem_filter] at hp; simp [hp.2]
      rw [this]
    · rw [if_neg v]; simp
  · rw [if_neg e]
    by_cases v : x = .value
    · rw [if_pos v, filt _ e]
    · rw [if_neg v, List.find?_cons, show ((a / 32 * 32 == b / 32 * 32) = false) by simp; omega, filt _ e]

/-- What changes only other fields keeps memory's canonical form. -/
theorem State.memOk_setBit (h : s.memOk) (l : Nat) (f : Bool) : (s.setBit l f).memOk := h
theorem State.memOk_setFull (h : s.memOk) (l : Nat) (f : Bool) : (s.setFull l f).memOk := h
theorem State.memOk_setTag (h : s.memOk) (a : Nat) (x : Tag) : (s.setTag a x).memOk := h
theorem State.memOk_clearPoison (h : s.memOk) (l n : Nat) : (s.clearPoison l n).memOk := h
theorem State.memOk_wrWake (h : s.memOk) (l : Nat) (bs : List Byte) : (s.wrWake l bs).memOk := memWf_memWrite bs h l
theorem State.memOk_showLine (h : s.memOk) (l x : Nat) (k : List KeyedLine) : (s.showLine l x k).memOk := by
  unfold State.memOk State.showLine
  generalize leBytes 64 x = bs
  exact memWf_memWrite bs h l
theorem State.memOk_useKey (h : s.memOk) (part sel pa : Nat) : (s.useKey part sel pa).memOk := by
  simp only [State.useKey]; split
  · exact h
  · exact s.memOk_showLine h _ _ _
theorem State.memOk_useKeys (h : s.memOk) (part sel pa n : Nat) : (s.useKeys part sel pa n).memOk := by
  suffices g : ∀ (l : List Nat) (t : State), t.memOk → (l.foldl (fun s l => s.useKey part sel l) t).memOk from g _ s h
  intro l
  induction l with
  | nil => exact fun t ht => ht
  | cons a l ih => exact fun t ht => ih _ (t.memOk_useKey ht part sel a)
theorem State.memOk_enterTrap (h : s.memOk) (tpc : Word) (r : TrapRec) : (s.enterTrap tpc r).memOk := by
  unfold State.memOk; rw [s.enterTrap_m]; exact h
theorem State.memOk_seat (h : s.memOk) (uid : Nat) : (s.seat uid).memOk := by
  unfold State.memOk; rw [s.seat_m]; exact h

end Sys2Proof.Machine
end

