-- ==== Sys2Proof/Tests/Slice0.lean ====
section
/-! SUPPORT. The tests: witnesses that the hypotheses of the statements can be met, ill-formed terms, words of the encoding, and
single steps against the worked examples of the spec. -/
namespace Sys2Proof.Tests
open Sys2Proof Sys2Proof.Machine
set_option Elab.async false

/-! ## Witnesses: states and operands that meet the hypotheses of the statements, clause by clause -/

/-- A strand in U mode in the seat, at address 0, able to take a trap; no other strand. -/
def st : State := State.reset.withFetchWord 32 0
/-- The same in S mode. -/
def stS : State := st.setCtl { st.self.ctl with sMode := true }
/-- A gang: the leader in slot 0 has the seat, the follower in slot 1 is FROZEN. -/
def follower : Strand :=
  { st.self with id := { st.self.id with uid := 7, slot := 1, sid := some 1#16 }, st := .frozen, ctl := { st.self.ctl with ganged := true } }
def stGang : State :=
  { st.setCtl { st.self.ctl with ganged := true, glead := true } with others := [follower] }

theorem test_witness_shifts : ((1#1).getLsbD 0 = true → (31#6).toNat < 32) ∧ ((0#1).getLsbD 0 = true → (63#6).toNat < 32) := by
  decide
theorem test_witness_bitFields : (63#6).toNat + (0#6).toNat + 1 ≤ 64 ∧ (0#6).toNat + (63#6).toNat + 1 ≤ 64 := by decide
theorem test_witness_controlTransfers :
    let s := st.setG 5#6 0x2000#64
    let u := st.setG 5#6 0x2001#64
    (5#3).toNat < 6 ∧ Spec.holds 5#3 (s.getG 5#6) (s.getG 0#6) ∧ ¬ Spec.holds 0#3 (s.getG 5#6) (s.getG 0#6) ∧
      (s.getG 5#6).toNat % 4 = 0 ∧ (u.getG 5#6).toNat % 4 ≠ 0 ∧ u.canTrap := by
  unfold Spec.holds State.canTrap; decide
theorem test_witness_scalarFloat : roundOk 7#3 = true ∧ roundOk 4#3 = true := by decide
/-- 1.0, 2.0 and 0.5 in F32, a quiet and a signalling NaN. -/
def stF : State :=
  ((((st.setG 1#6 0x3F800000#64).setG 2#6 0x40000000#64).setG 3#6 0x3F000000#64).setG 4#6 0x7FC00001#64).setG 5#6 0x7F800001#64
theorem test_witness_floatResults :
    roundOk 0#3 = true ∧ Spec.fnan 0#1 (stF.getG 4#6) = true ∧ Spec.fsnan 0#1 (stF.getG 5#6) = true ∧
      (0x40400000#64).toNat < 2 ^ Spec.fbits 0#1 ∧ Spec.ffinite 0#1 (stF.getG 1#6) ∧ Spec.ffinite 0#1 (stF.getG 2#6) ∧
      Spec.ffinite 0#1 0x40400000#64 ∧ Spec.fvalue 0#1 0x40400000#64 ≠ 0 ∧
      Spec.fvalue 0#1 0x40400000#64 = Spec.fvalue 0#1 (stF.getG 1#6) + Spec.fvalue 0#1 (stF.getG 2#6) ∧
      Spec.fvalue 0#1 0xBF800000#64 ≠ 0 ∧
      Spec.fvalue 0#1 0xBF800000#64 = Spec.fvalue 0#1 (stF.getG 1#6) - Spec.fvalue 0#1 (stF.getG 2#6) ∧
      Spec.fvalue 0#1 0x40000000#64 = Spec.fvalue 0#1 (stF.getG 1#6) * Spec.fvalue 0#1 (stF.getG 2#6) := by
  unfold Spec.ffinite; decide +kernel
theorem test_witness_classAndSign : decode 0x4C41000B#32 0#32 = .ok (.fcls 4#6 4#6 0#1) := by decide
theorem test_witness_conversions :
    roundOk 7#3 = true ∧ (7#4).toNat < 8 ∧ (0#4).toNat < 8 ∧ (9#4) = (if (0#1) = 0#1 then 9#4 else 8#4) ∧
      Spec.fnan 0#1 (stF.getG 5#6) = true ∧ Spec.fmag 0#1 0xFF800000#64 = Spec.finf 0#1 := by decide
theorem test_witness_gangOk : st.gangOk ∧ stGang.gangOk ∧ stGang.self.ctl.glead = true ∧ st.self.ctl.glead = false ∧ (1#3) ≠ 0#3 := by
  refine ⟨?_, ?_, rfl, rfl, by decide⟩
  · intro h; exact absurd h (by decide)
  · intro _; rfl
/-- With an empty mask in k1: no lane is active. -/
theorem test_witness_reductions_empty : (∀ j, j < st.laneCount → (st.mask 1#3).getLsbD j = false) ∧ st.gangOk := by
  refine ⟨by decide, fun h => absurd h (by decide)⟩
theorem test_witness_scan : let s := { st with self := st.self.setK 2#3 0x0021#16 }
    (0 : Nat) < 5 ∧ 5 < s.laneCount ∧ (s.mask 2#3).getLsbD 0 = true ∧ (s.mask 2#3).getLsbD 5 = true ∧
      ∀ n, n < 5 → 0 < n → (s.mask 2#3).getLsbD n = false := by decide
theorem test_witness_tableCodes :
    let s := (((st.setG 1#6 0x055#64).setG 2#6 0x100#64).setG 3#6 3#64).setG 4#6 2#64
    (s.getG 1#6).getLsbD 8 = false ∧ (s.getG 2#6).getLsbD 8 = true ∧ (s.getG 3#6).toNat % 4 = 3 ∧ (s.getG 4#6).toNat % 4 < 3 ∧
      s.canTrap := by unfold State.canTrap; decide
theorem test_witness_encodeIsNearest :
    let value (i : Nat) : ℚ := Spec.fvalue 0#1 ((tableAt none i).zeroExtend 64)
    7 ≤ 127 ∧ 0x3F800000 < 2 ^ 32 ∧ Spec.ffinite 0#1 (w64 0x3F800000) ∧
      (∀ i, i < 8 → (tableAt none i).toNat % 2 ^ 13 = 0 ∧ Spec.ffinite 0#1 ((tableAt none i).zeroExtend 64) ∧
        Spec.fsign 0#1 ((tableAt none i).zeroExtend 64) = false) ∧
      (∀ j, j < 8 → ∀ i, i < j → value i < value j) := by
  unfold Spec.ffinite; decide +kernel
/-- A strand that waits in GANG in the partner slot of the same launch. -/
def partner : Strand :=
  { st.self with id := { st.self.id with uid := 7, slot := 1, sid := some 1#16 }, st := .parked, park := { reason := .gang } }
theorem test_witness_gangs :
    let s := { st with others := [partner] }
    st.self.ctl.ganged = false ∧ st.gangPartner = none ∧ s.gangPartner = some partner ∧ s.self.id.ctx = .launch 0 0 ∧
      (s.others.map (·.id.uid)).Nodup ∧ stGang.self.ctl.ganged = true ∧ stGang.canTrap ∧ stGang.self.ctl.glead = true ∧
      stGang.follower = some follower ∧ st.self.ctl.glead = false ∧ st.canTrap := by
  unfold State.canTrap; decide

/-- A page of DRAM at 0x10000 for reading and writing, without and with cells. -/
def page (c : Bool) : TlbEntry :=
  { holder := .l1 0 0 0, part := 0, asid := none, vbase := 0x10000, size := 0x10000, pbase := 0x500000
    r := true, w := true, x := false, u := true, c := c, key := 0 }
def stM (c : Bool) : State := { st with m := { st.m with tlb := page c :: st.m.tlb } }
/-- The place of checks that pass for one access, and the state with its line as the key of the page shows it, satisfy a property. -/
def passes (c : Checked × State) (p : Place → State → Bool) : Bool :=
  match c with
  | (.ok [(0, a, q)], t) => p q (t.underKeys [(0, a, q)])
  | _ => false
def memB (t : State) : Bool := memWf t.m.mem
theorem test_witness_accessChecks :
    (st.part st.self.site.part).budget = Vector.replicate 5 none ∧
      (match (st.check st.self.site .any .load 4 4 [(0, 0x1000000000000000#64)]).1 with
        | .ok _ => false
        | _ => true) = true ∧
      passes ((stM false).check st.self.site .any .load 4 4 [(0, 0x10004#64)]) (fun _ _ => true) = true := by decide
theorem test_witness_localLoads :
    let A (x : Word) : Nat := x.toNat / 2 ^ 60
    let off (x : Word) : Nat := x.toNat % 2 ^ 60
    let c := 0xC00000000000FFFC#64
    let d := 0xD000000000000000#64
    let f := 0xF000000003FFFFFC#64
    let u := st.setCtl { st.self.ctl with splim := 0x10000#64, swlim := 0x4000000#64 }
    A c = 0xC ∧ off c < 2 ^ 16 ∧ off c + 4 ≤ st.tcmLim 0 0 0 ∧ c.toNat % 4 = 0 ∧ st.isPoisoned (tcmLoc 0 0 0 0xFFFC) = false ∧
      (c + 1#64).toNat % 2 ≠ 0 ∧ off (c + 1#64) + 2 ≤ 2 ^ 16 ∧ 2 ^ 16 < off c + 8 ∧ 2 ^ 16 ≤ off 0xC000000000010000#64 ∧
      (st.regionAt 0 0 0 2).isNone = true ∧ off 0xE100000000000000#64 % 2 ^ 54 < 2 ^ 15 ∧ 2 ^ 15 < off 0xE100000000007FFC#64 % 2 ^ 15 + 8 ∧
      2 ^ 15 ≤ off 0xE100000000008000#64 % 2 ^ 54 ∧ A d = 0xD ∧ off d < 2 ^ 21 ∧ off d + 8 ≤ min (2 ^ 21) u.self.ctl.splim.toNat ∧ st.self.ctl.splim.toNat < off d + 1 ∧
      2 ^ 21 ≤ off 0xD000000000200000#64 ∧ A f = 0xF ∧ off f < 2 ^ 26 ∧ off f + 4 ≤ min (2 ^ 26) u.self.ctl.swlim.toNat ∧
      2 ^ 26 ≤ off 0xF000000004000000#64 ∧ A 0x0100000000000000#64 = 0 ∧ 2 ^ 56 ≤ off 0x0100000000000000#64 ∧
      1 ≤ A 0x1000000000000000#64 ∧ A 0xB000000000000000#64 ≤ 0xB ∧ st.canTrap := by
  unfold State.canTrap; decide
theorem test_witness_loads :
    let s := (stM false).setG 5#6 0x10000#64
    s.getG 5#6 + BitVec.ofInt 64 ((2047#11).toInt * 8) = 0xFFF8#64 ∧
    passes (s.check s.self.site .any .load 8 8 [(0, s.getG 5#6 + BitVec.ofInt 64 ((1#11).toInt * 8))])
      (fun p t => !p.remote && !t.blocked (0, 0x10008#64, p) && p.glob && p.loc == 0x500008) = true ∧
    passes (s.check s.self.site .any .load 4 4 [(0, s.getG 5#6 + s.getG 0#6)]) (fun p t => !p.remote && !t.blocked (0, 0x10000#64, p)) = true ∧
    passes (s.check s.self.site .any .load 1 1 [(0, s.getG 5#6)]) (fun p t => !p.remote && !t.blocked (0, 0x10000#64, p)) = true := by decide
/-- With a plain store to another module that its strand has not had acknowledged. -/
def pendingStore : Outstanding :=
  { rq := 4, port := 0, waiter := none, copy := none, part := 0, uid := 1, op := 1, width := 8, pa := 0x80000000000, va := 0#64
    lane := 0, data := 0#512, since := 0#64 }
def storing (s : State) : State := { s with fresh := 9, host := { s.host with outstanding := [pendingStore] } }
theorem test_witness_stores :
    let s := (stM false).setG 5#6 0x1FFF8#64
    let u := storing s
    s.holdOver s.self.site s.releaseHold = true ∧ u.holdOver u.self.site u.releaseHold = false ∧
    passes (s.check s.self.site .any .store 8 8 [(0, s.getG 5#6)])
      (fun p t => memB t && !p.remote && !t.isPoisoned p.loc && p.glob && t.tag p.loc == .value) = true ∧
    passes (s.check s.self.site .any .store 8 8 [(0, 0xC000000000000008#64)])
      (fun p t => memB t && !p.remote && !t.isPoisoned p.loc && !p.glob) = true := by decide
theorem test_witness_storesReplaceCells :
    let s (x : Tag) : State := ((stM true).setG 5#6 0x10008#64).setTag 0x500000 x
    (∀ x, x ∈ [Tag.chrysalis, .poison, .eclosing] → passes ((s x).check (s x).self.site .any .store 4 4 [(0, (s x).getG 5#6)])
      (fun p t => memB t && !p.remote && p.glob && p.cpage && p.loc % 4 == 0 && !t.isPoisoned p.loc && t.tag p.loc == x &&
        !t.self.ctl.itr) = true) := by decide
/-- The checks of the lanes of a vector access pass at readable, or writable, places. -/
def lanesPass (c : Checked × State) (n : Nat) : Bool :=
  match c with
  | (.ok ps, t₀) => let t := (t₀.underKeys ps).dropAnswers
      ps.length == n && memB t && ps.all (fun q => !q.2.2.remote && !t.blocked q && !t.isPoisoned q.2.2.loc && t.tag q.2.2.loc == .value)
  | _ => false
theorem test_witness_vectorMemory :
    let s := (stM false).setG 5#6 0x10000#64
    let v := s.setG 6#6 0xFFFFFFFFFFFFFFFC#64
    let on (k : BitVec 3) : List Nat := (List.range s.laneCount).filter (s.mask k).getLsbD
    s.gangOk ∧ 2 ^ (2#2).toNat ≤ 4 ∧
      lanesPass (s.check s.self.site .any .load 4 4 ((List.range 16).map (fun j => (j, s.getG 5#6 + w64 (j * 4))))) 16 = true ∧
      lanesPass (s.check s.self.site .any .store 4 4 ((on 0#3).map (fun j => (j, s.getG 5#6 + w64 j * s.getG 0#6)))) 16 = true ∧
      lanesPass (v.check v.self.site .any .load 4 4 ((on 0#3).map (fun j => (j, v.getG 5#6 + 64#64 + w64 j * v.getG 6#6)))) 16 = true ∧
      lanesPass (s.check s.self.site .any .load 2 2 ((on 1#3).map (fun j => (j, 3#64)))) 0 = true := by
  refine ⟨fun h => absurd h (by decide), ?_⟩
  decide +kernel
theorem test_witness_atomics :
    let s := (stM true).setG 5#6 0x10008#64
    s.holdOver s.self.site s.releaseHold = true ∧ (storing s).holdOver s.self.site (storing s).releaseHold = false ∧
    passes (s.check s.self.site .any .atomic 8 8 [(0, s.getG 5#6)])
      (fun p t => memB t && !p.remote && !t.blocked (0, 0x10008#64, p) && p.glob && t.tag p.loc == .value) = true ∧
    passes (s.check s.self.site .any .atomic 4 4 [(0, 0xC000000000000004#64)])
      (fun p t => memB t && !p.remote && !t.blocked (0, 0xC000000000000004#64, p) && !p.glob) = true := by decide
theorem test_witness_fullEmpty :
    let s := st.setG 5#6 0xC000000000000008#64
    let e := s.setBit (tcmLoc 0 0 0 8) false
    let w : Strand := { partner with park := { reason := .fe, loc := tcmLoc 0 0 0 8, wantFull := true } }
    passes (s.check s.self.site .localOnly .load 8 8 [(0, s.getG 5#6)]) (fun p t => !t.isPoisoned p.loc && t.isFull p.loc) = true ∧
    passes (e.check e.self.site .localOnly .load 8 8 [(0, e.getG 5#6)]) (fun p t => !t.isPoisoned p.loc && !t.isFull p.loc) = true ∧
    (match s.space s.self.site .localOnly 0xC00000000000000C#64 8 with
      | .ok (some l) => l == tcmLoc 0 0 0 12
      | _ => false) = true ∧ (0xC00000000000000C#64).toNat % 8 ≠ 0 ∧ (0x10000#64).toNat / 2 ^ 60 = 0 ∧ s.canTrap ∧
    e.m.empties.Nodup ∧ w.parkedFor .fe = true ∧ w.park.loc = tcmLoc 0 0 0 8 ∧ w.park.wantFull = true := by
  unfold State.canTrap; decide
theorem test_witness_traps : st.canTrap ∧ stS.self.ctl.sMode = true ∧ st.self.ctl.sMode = false ∧ st.self.id.part < 64 ∧
    st.self.ctl.tpc.toNat % 4 = 0 ∧ (stS.setCtl { stS.self.ctl with tpc := 2#64 }).self.ctl.tpc.toNat % 4 ≠ 0 ∧ stS.canTrap ∧
    (st.setCtl { st.self.ctl with itr := true }).self.ctl.itr = true ∧ st.self.ctl.glead = false := by
  unfold State.canTrap; decide
theorem test_witness_controlRegisters :
    let x := st.setG 5#6 7#64
    let y := st.setG 5#6 (st.self.ctl.stat ||| 0x40#64)
    let z := st.setG 5#6 (st.self.ctl.stat ||| 1#64)
    st.canTrap ∧ 0x100 ≤ (0x10D#12).toNat ∧ (0x10D#12).toNat ≤ 0x10D ∧ (st.getG 0#6).toNat % 8 ≤ 4 ∧ 5 ≤ (x.getG 5#6).toNat % 8 ∧
      (st.getG 0#6).toNat % 4 ≤ 1 ∧ 2 ≤ (x.getG 5#6).toNat % 4 ∧ 0x107 ≤ (0x107#12).toNat ∧
      y.getG 5#6 &&& ~~~0x40#64 = y.self.ctl.stat &&& ~~~0x40#64 ∧ z.getG 5#6 &&& ~~~0x40#64 ≠ z.self.ctl.stat &&& ~~~0x40#64 := by
  unfold State.canTrap; decide
/-- The seat's page table in memory, a page of DRAM at 0x10000 in it, and the TLB entries of a list. -/
def stWalk (tlb : List TlbEntry) : State :=
  let s := (st.setPart 0 { st.part 0 with valid := true, dies := (st.part 0).dies.set 0 { dcnt := 1 } }).setCtl
    { st.self.ctl with ptb := 0x100000#64 }
  let s := ((((s.wr 0x100000 8 0x300001).wr 0x300000 8 0x400001).wr 0x400000 8 0x500001).wr 0x500080 8 0x20002F)
  { s with m := { s.m with tlb := tlb } }
/-- The walk finds an entry, finds none, or is malformed. -/
def walked (w : Walk) : Nat :=
  match w with
  | .found _ => 1
  | .absent => 2
  | .malformed => 3
/-- The L1 TLB of the seat's core hits; only the L2 TLB of its cluster does; neither does. -/
theorem test_witness_walks :
    let on (h : TlbHolder) (y : TlbEntry) : Bool := y.holder == h && !y.stale && y.covers 0 0 0x10008
    let at1 := page false
    let at2 := { page false with holder := TlbHolder.l2 0 0 }
    let e := stWalk []
    (stWalk [at1]).strand? 1 = some (stWalk [at1]).self ∧ (stWalk [at1]).self.resident = true ∧
      (stWalk [at1]).m.tlb.any (on (.l1 0 0 0)) = true ∧ (stWalk [at2]).m.tlb.any (on (.l1 0 0 0)) = false ∧
      (stWalk [at2]).m.tlb.find? (on (.l2 0 0)) = some at2 ∧ e.m.tlb.any (on (.l1 0 0 0)) = false ∧ e.m.tlb.any (on (.l2 0 0)) = false ∧
      walked (e.walk e.self.site 0x10008) = 1 ∧ walked (e.walk e.self.site 0x20008) = 2 ∧
      walked (((e.wr 0x500080 8 0xC2F)).walk e.self.site 0x10008) = 3 := by decide +kernel
theorem test_witness_tlbInvalidation :
    let s := stS.setPart 0 { stS.part 0 with asidBase := 4, asidCnt := 2 }
    let u := s.setG 5#6 5#64
    let w : State := { st with self := { st.self with waits := { st.self.waits with tlbi := some (5, 0, 0#64) } } }
    (s.part 0).asidBase ≤ (u.getG 5#6).toNat % 512 ∧ (u.getG 5#6).toNat % 512 < (s.part 0).asidBase + (s.part 0).asidCnt ∧
      ¬ ((s.part 0).asidBase ≤ (s.getG 5#6).toNat % 512) ∧ s.canTrap ∧
      w.strand? w.self.id.uid = some w.self ∧ w.self.waits.tlbi = some (5, 0, 0#64) ∧ w.unacked w.self.id.uid = false ∧
      w.partRemote w.self.id.part = false ∧ w.tlbiWaits w.self 5 0 0#64 = false ∧ w.self.resident = true := by
  unfold State.canTrap; decide
def msg : Msg := { sender := 3#16, wide := false, payload := 42#512 }
/-- A strand of the same launch with SID 1 and room for `n` messages. -/
def peerOf (n : Nat) : Strand :=
  { st.self with id := { st.self.id with uid := 7, slot := 2, sid := some 1#16 }, q := { q0max := n } }
/-- The seat waits to send to SID 1. -/
def sender : Strand :=
  { st.self with st := .parked, park := { reason := .qsend }, waits := { sending := some (1#16, msg) } }
theorem test_witness_messages :
    let s (n : Nat) : State := { st with self := sender, others := [peerOf n] }
    let r : State := { st with self := { st.self with q := { q0 := [msg], q0max := 8 } } }
    let other : Strand := { peerOf 8 with id := { (peerOf 8).id with ctx := .launch 0 1 } }
    let o : State := { st with self := sender, others := [other] }
    r.self.q.q0 = msg :: [] ∧ st.self.q.q0 = [] ∧ (s 8).strand? sender.id.uid = some sender ∧ sender.parkedFor .qsend = true ∧
      sender.waits.sending = some (1#16, msg) ∧ sender.id.ctx = .launch 0 0 ∧ (s 0).bySid 1#16 = some (peerOf 0) ∧
      (peerOf 0).id.ctx = sender.id.ctx ∧ (peerOf 0).q.q0max ≤ (peerOf 0).q.q0.length ∧ sender.ctl.itr = false ∧
      (s 8).bySid 1#16 = some (peerOf 8) ∧ (peerOf 8).id.uid ≠ sender.id.uid ∧ ((s 8).all.map (·.id.uid)).Nodup ∧
      (∀ x ∈ (s 8).all, ∀ y ∈ (s 8).all, x.id.sid = some 1#16 → y.id.sid = some 1#16 → x = y) ∧ ((s 0).all.map (·.id.uid)).Nodup ∧
      (∀ x ∈ (s 0).all, ∀ y ∈ (s 0).all, x.id.sid = some 1#16 → y.id.sid = some 1#16 → x = y) ∧
      (peerOf 8).q.q0.length < (peerOf 8).q.q0max ∧ ({ s 8 with others := [] } : State).bySid 1#16 = none ∧
      o.bySid 1#16 = some other ∧ other.id.ctx ≠ sender.id.ctx ∧ o.strand? sender.id.uid = some sender ∧ (o.all.map (·.id.uid)).Nodup ∧
      (∀ x ∈ o.all, ∀ y ∈ o.all, x.id.sid = some 1#16 → y.id.sid = some 1#16 → x = y) := by decide +kernel
/-- A ring of 8 words in TCM at offset 0x100, bound to q1. -/
def ring : Ring := { base := 0xC000000000000100#64, loc := tcmLoc 0 0 0 0x100, n := 3, head := 0, tail := 0 }
theorem test_witness_streamRegisters :
    let s : State := { st with self := st.self.setRing 1 (some ring) }
    let e := s.setBit (tcmLoc 0 0 0 0x100) false
    let e1 := s.setBit (tcmLoc 0 0 0 0x108) false
    let no (b : Word) (r : Nat) : Bool := match st.space st.self.site .barrier b 64 with
      | .error x => x == r
      | .ok _ => false
    let far : Ring := { ring with base := 0xC000000000010000#64 }
    let x : State := { st with self := st.self.setRing 1 (some far) }
    x.self.ring 1 = some far ∧ (x.ringFault far 0).isSome = true ∧ x.canTrap ∧ s.ringFault ring 0 = none ∧
      (∀ j, j < 8 → s.ringFault ring j = none) ∧ (1#2) ≠ 0#2 ∧ (st.space st.self.site .barrier 0xC000000000000100#64 64).toOption = some (some (tcmLoc 0 0 0 0x100)) ∧
      (0xC000000000000100#64).toNat % 64 = 0 ∧
      (st.space st.self.site .barrier 0xC000000000000108#64 64).toOption = some (some (tcmLoc 0 0 0 0x108)) ∧
      (0xC000000000000108#64).toNat % 64 ≠ 0 ∧ st.canTrap ∧ s.self.ring 1 = some ring ∧
      (∀ j, j < 8 → s.isFull (ring.loc + (ring.head + j) % 2 ^ ring.n * 8) = true) ∧ e.isFull ring.loc = false ∧
      e1.isFull ring.loc = true ∧ e1.isFull (ring.loc + 8) = false ∧ e1.self.ring 1 = some ring ∧ no 0x2000#64 1 = true ∧
      (0x2000#64).toNat / 2 ^ 60 ≠ 0xC ∧ no 0xD000000000000000#64 2 = true ∧ (0xD000000000000000#64).toNat % 64 = 0 ∧
      no 0xD000000000000008#64 2 = true ∧ (0xD000000000000008#64).toNat % 64 ≠ 0 ∧ st.self.ring 1 = none := by unfold State.canTrap; decide
/-- A copy of 600 bytes from TCM to TCM, with and without a barrier. -/
def copy (bar : Option (Word × Nat)) : Copy :=
  { cid := 5, uid := 1, site := st.self.site, is2 := false, src := 0xC000000000001000#64, dst := 0xC000000000002000#64
    rowLen := 600, off := 0, rows := 1, sstride := 0#64, dstride := 0#64, bar := bar, ring := none }
def stCopy (c : Copy) : State := { st with work := { st.work with copies := [c] } }
/-- The source of a copy could be read, and the state after it satisfies a property. -/
def reads (r : SrcRead × State) (p : List Byte → State → Bool) : Bool :=
  match r with
  | (.bytes bs, t) => p bs t
  | _ => false
def stops (r : SrcRead × State) (a : Word) : Bool :=
  match r with
  | (.stop x, _) => x == a
  | _ => false
theorem test_witness_copyIssue :
    let s := (((st.setG 4#6 0xC000000000001000#64).setG 5#6 0xC000000000002000#64).setG 6#6 600#64).setG 7#6 2#64
    let big := st.setG 6#6 0x10000000000#64
    let tall := (st.setG 6#6 600#64).setG 7#6 0x100000000#64
    let out : Ring := { ring with base := 0xD000000000000000#64, loc := spLoc 0 0 0 }
    let o := { st with self := st.self.setRing 1 (some out) }.setG 5#6 0xD000000000000000#64
    let full : State := { st with work := { st.work with
      copies := { copy none with bounced := true } :: List.replicate 15 (copy none) } }
    (s.barrierAt 0#6).toOption = some none ∧ (st.work.copies.filter (fun c => c.uid == 1)).length < 16 ∧
      (s.getG 6#6).toNat < 2 ^ 32 ∧ (s.getG 6#6).toNat ≠ 0 ∧ s.rangeFault (s.getG 4#6) 0#64 600 1 = none ∧
      (6#6).toNat ≤ 60 ∧ (s.getG 7#6).toNat ≠ 0 ∧ (s.getG 7#6).toNat < 2 ^ 32 ∧ s.rangeFault (s.getG 4#6) (s.getG 8#6) 600 2 = none ∧
      s.ringFor (s.getG 5#6) = none ∧ s.rangeFault (s.getG 5#6) 0#64 600 1 = none ∧ s.rangeFault (s.getG 5#6) (s.getG 9#6) 600 2 = none ∧
      (st.getG 7#6).toNat = 0 ∧ 2 ^ 32 ≤ (big.getG 6#6).toNat ∧ 2 ^ 32 ≤ (tall.getG 7#6).toNat ∧ (tall.getG 6#6).toNat < 2 ^ 32 ∧
      o.ringFor (o.getG 5#6) = some (1, spLoc 0 0 0, 3, true, 0) ∧
      (match o.space o.self.site .barrier (o.getG 5#6) 64 with
        | .error e => e == 2
        | .ok _ => false) = true ∧ o.canTrap ∧
      (st.getG 6#6).toNat = 0 ∧ 2 ^ 40 ≤ (big.getG 6#6).toNat ∧ big.canTrap ∧
      ¬ (full.work.copies.filter (fun c => c.uid == full.self.id.uid)).length < 16 := by
  unfold State.canTrap; decide
theorem test_witness_bwait :
    let s := st.setG 5#6 0xC000000000000108#64
    let u := s.wr (tcmLoc 0 0 0 0x108) 8 4096
    passes (s.check s.self.site .barrier .load 8 8 [(0, s.getG 5#6)])
      (fun p t => !t.isPoisoned p.loc && decide ((w64 (t.rd p.loc 8)).toInt ≤ 0)) = true ∧
    passes (u.check u.self.site .barrier .load 8 8 [(0, u.getG 5#6)])
      (fun p t => !t.isPoisoned p.loc && decide (0 < (w64 (t.rd p.loc 8)).toInt)) = true := by decide +kernel
theorem test_witness_copyEvents :
    let b : Option (Word × Nat) := some (0xC000000000000100#64, tcmLoc 0 0 0 0x100)
    let r (w : Bool) : Copy :=
      { copy none with dst := 0xC000000000000100#64, rowLen := 61, ring := some (1, tcmLoc 0 0 0 0x100, 3, w, 7) }
    let rs (full : Bool) : State :=
      let s := stCopy (r true)
      ({ s with self := s.self.setRing 1 (some { ring with tail := 2 }) } : State).setBit (tcmLoc 0 0 0 0x110) full
    let d : Copy := { copy none with src := 0x900000#64 }
    let ok (c : Copy) : Bool := (stCopy c).copy? 5 == some c && (stCopy c).admits 0 0 4 &&
      reads ((stCopy c).readBurst c c.src c.burst) (fun bs t => memB t && ((t.part 0).budget[4]?.getD none).isNone &&
        bs.length == 512 && (t.dstStop (c.site.localLoc c.dst) 512 false).isNone && t.work.copies == [c])
    ok (copy none) = true ∧ ok (copy b) = true ∧ (copy none).dst.toNat / 2 ^ 60 ≠ 0 ∧ (copy none).sent = 0 ∧ (copy none).bytes = [] ∧
      tcmLoc 0 0 0 0x100 + 8 ≤ st.self.site.localLoc (copy none).dst ∧
      (∀ s, s ∈ [(stCopy (r false), r false), (rs false, r true), (rs true, r true)] → s.1.copy? 5 = some s.2 ∧ s.1.admits 0 0 4 = true ∧
        s.2.bytes = [] ∧ min 8 (s.2.rowLen - s.2.off) ≤ pageRest s.2.src ∧
        reads (s.1.readSrc s.2 s.2.src (min 8 (s.2.rowLen - s.2.off))) (fun bs t => decide (bs.length ≤ 8) && memB t &&
          ((t.part 0).budget[4]?.getD none).isNone && t.m.empties.length ≤ 1 && t.work.copies == s.1.work.copies) = true) ∧
      tcmLoc 0 0 0 0x100 % 8 = 0 ∧ (rs false).strand? 1 = some (rs false).self ∧
      (rs false).self.ring 1 = some { ring with tail := 2 } ∧ (rs false).isFull (tcmLoc 0 0 0 0x100 + 8 * 2) = false ∧
      (rs true).isFull (tcmLoc 0 0 0 0x100 + 8 * 2) = true ∧ tcmLoc 0 0 0 0x80 + 8 ≤ tcmLoc 0 0 0 0x100 + 8 * 2 ∧
      stops ((stCopy d).readSrc d d.src d.burst) d.src = true ∧
      (stCopy d).strand? 1 = some st.self := by decide +kernel
/-- A streamed image of a whole frond with its frames and edges. -/
def image (frames : List Frame) (edges : List Edge) : Image :=
  { served := false, shape := .whole, nplanes := 1, args := 0, res := 0, frames := frames, edges := edges, kind := .either
    indep := false, replay := 0#64 }
def servedImage : Image := { image [] [] with served := true, args := 2, res := 1 }
def kernel : Kernel :=
  { entry := 0x1000#64, roots := 1, max := 4, onDie := false, cluster := 0, q0 := 8, cells := 0, whole := 1, half := 0, quarter := 0
    servers := [some { frond := 0, args := 2, res := 1 }] }
def launch : Launch :=
  { die := 0, lid := 0, part := 0, tag := 9, vec := 0, graph := 256, kernel := kernel, asid := 0, ptb := 0#64, tvec := 0x40#64
    drops := 0, lost := 0 }
def graph (im : Image) : Graph :=
  { part := 0, slot := 0, gen := 1, loaded := true, key := 0#256, window := 0#64, wlen := 0, images := [servedImage, im]
    kernels := [kernel] }
/-- A strand of a launch of a loaded graph: frond 0 is served, frond 1 streamed. -/
def stL (im : Image) : State := { st with work := { st.work with launches := [launch], graphs := [graph im] } }
def im0 : Image := image [] []
def residency (rs : ResState) (im : Image) : Residency :=
  { die := 0, cluster := 0, entry := 0, gen := 0, owner := 1, orphan := false, part := 0, launch := (0, 0), cfg := 65537
    shape := .whole, prio := 0, migr := 0, state := rs, site := st.self.site, binds := [], pends := [], frbar := false, barAt := none
    waiting := none, region := none, planes := 0, flags := 0#5, save := .noSave, saved := none, areas := [], image := im
    consts := [], argPend := [], record := [] }
def stR (y : Residency) : State :=
  { stL y.image with work := { (stL y.image).work with residencies := [y] } }
theorem test_witness_spawning :
    let s := stL im0
    let u := s.setG 5#6 2#64
    let many : State := { s with others := List.replicate 3 partner }
    let far := s.setG 3#6 64#64
    s.launchOf s.self.id.ctx = some launch ∧ (s.getG 5#6).toNat % 4 = 0 ∧ s.liveOf s.self.id.ctx < launch.kernel.max ∧
      (s.getG 3#6).toNat < 64 ∧ (0 : Nat) < 64 ∧ (s.cluster 0 0).failed = false ∧ s.canTrap ∧ (u.getG 5#6).toNat % 4 ≠ 0 ∧
      many.launchOf many.self.id.ctx = some launch ∧ launch.kernel.max ≤ many.liveOf many.self.id.ctx ∧ 64 ≤ (far.getG 3#6).toNat ∧ (u.getG 3#6).toNat < 64 ∧
      (0 : BitVec 6) ≠ 1#6 ∧ (0 : BitVec 6) ≠ 2#6 := by unfold State.canTrap; decide +kernel
theorem test_witness_exitAndFences :
    let s : State := storing (stL im0)
    s.holdOver s.self.site s.releaseHold = false ∧ (stL im0).holdOver s.self.site (stL im0).releaseHold = true ∧
      (∀ x ∈ (stL im0).all, x.q.q0.length ≤ 8) ∧ s.unacked s.self.id.uid = true ∧ (stL im0).unacked 1 = false ∧ st.self.id.ctx = .launch 0 0 ∧
      (stL im0).launch? 0 0 = some launch ∧ (st.getG 5#6).toNat ≤ st.plant.time.toNat ∧
      st.plant.time.toNat < ((st.setG 5#6 1#64).getG 5#6).toNat ∧ (4#3) ≠ 5#3 ∧ (12#4).extractLsb' 1 3 ≠ 0#3 ∧
      (2#4).extractLsb' 1 3 ≠ 0#3 ∧ (1#4).extractLsb' 1 3 = 0#3 := by decide +kernel
def eclosion (v : Evaluator) : Eclosion :=
  { eid := 3, cell := 0x500020, va := 0x10020#64, site := st.self.site, word0 := 0x1000#64, word1 := 0#64, word2 := 0#64
    word3 := 0#64, evaluator := v, waiters := [], overflow := false, released := true, remote := false }
theorem test_witness_cells :
    let s (x : Tag) : State :=
      { ((stM true).setG 5#6 0x10020#64).setTag 0x500020 x with cells := { st.cells with eclosions := [eclosion (.strand 1)] } }
    let ok (x : Tag) (acc : Acc) (p : Place → State → Bool) : Prop :=
      passes ((s x).check (s x).self.site .globalOnly acc 32 32 [(0, (s x).getG 5#6)]) (fun q t => q.loc % 32 == 0 && memB t &&
        !q.remote && !t.isPoisoned q.loc && t.tag q.loc == x && !t.self.ctl.itr && p q t) = true
    ok .value .csus (fun _ _ => true) ∧ ok .eclosing .csus (fun _ _ => true) ∧ (60#6).toNat ≤ 60 ∧ ok .value .cellRead (fun _ _ => true) ∧
      ok .chrysalis .cellRead (fun _ _ => true) ∧
      ok .eclosing .cellRead (fun q t => t.eclosionOf q.loc == some (eclosion (.strand 1))) ∧
      (eclosion (.strand 1)).evaluator = .strand (s .value).self.id.uid ∧ 1 ≤ (4#6).toNat ∧ (4#6).toNat ≤ 4 ∧
      (60#6).toNat + (4#6).toNat ≤ 64 ∧ 64 < (61#6).toNat + (4#6).toNat ∧ (s .value).canTrap ∧
      (eclosion (.packet 0 0 3)).evaluator ≠ .strand (s .value).self.id.uid ∧ (s .chrysalis).cellHeld 0x500020 = false ∧
      ({ s .chrysalis with cells := { (s .chrysalis).cells with awaited := [(2, 5, 0x500020, 0)] } } : State).cellHeld 0x500020 = true := by
  unfold State.canTrap; decide +kernel
theorem test_witness_serving :
    let s := stL im0
    s.launchOf s.self.id.ctx = some launch ∧ launch.kernel.servers.getD (0#4).toNat none = some { frond := 0, args := 2, res := 1 } ∧
      (2#8).toNat = 2 ∧ (63#6).toNat + 1 ≤ 64 ∧ s.frondOf launch 0 = some servedImage ∧
      launch.reserved s.self.id.cluster servedImage.shape ≠ 0 ∧ launch.die = s.self.id.die ∧
      64 < (63#6).toNat + 2 ∧ launch.reserved s.self.id.cluster .half = 0 ∧
      launch.kernel.servers.getD (1#4).toNat none = none ∧ (3#8).toNat ≠ 2 ∧ s.canTrap := by unfold State.canTrap; decide +kernel
theorem test_witness_frld :
    let s := (stL im0).setG 4#6 65537#64
    let u := (stL im0).setG 6#6 3#64
    let x := s.getG 5#6
    (x.toNat % 4 ≠ 3 ∧ x.toNat / 4 % 4 = 0 ∧ x.toNat / 64 % 4 = 0 ∧ x.toNat / 65536 = 0) ∧ s.launchOf s.self.id.ctx = some launch ∧
      s.streamImage launch s.self.id.cluster (s.getG 4#6) = some im0 ∧ im0.shape.code = x.toNat % 4 ∧ launch.die = s.self.id.die ∧
      s.work.residencies.length < launch.reserved s.self.id.cluster im0.shape ∧ s.residency? 0 0 0 = none ∧
      (let w := (stL im0).setG 6#6 1#64
       (w.getG 6#6).toNat % 4 = 1 ∧ im0.shape.code ≠ 1 ∧ w.streamImage launch 0 65537#64 = some im0) ∧
      (let none' : Launch := { launch with kernel := { kernel with whole := 0 } }
       none'.reserved 0 im0.shape ≤ 0 ∧ none'.die = 0 ∧
        ({ s with work := { s.work with launches := [none'] } } : State).launchOf s.self.id.ctx = some none') ∧
      (let all : State := { s with work := { s.work with
          residencies := (List.range 16).map (fun k => { residency .loaded im0 with entry := k, launch := (0, 9) }) } }
       ∀ k, k < 16 → all.residency? 0 0 k ≠ none) ∧
      (u.getG 6#6).toNat % 4 = 3 ∧ s.streamImage launch s.self.id.cluster (s.getG 7#6) = none ∧ s.canTrap := by
  unfold State.canTrap; decide +kernel
/-- A frame of an address generator of row 0 whose base is binding 3. -/
def agFrame : Frame := { addr := 0x10#32, aclass := 0, bits := 4#256 ||| (3#256 <<< 14) }
theorem test_witness_residencies :
    let y (rs : ResState) : Residency := residency rs im0
    let s (rs : ResState) : State := stR (y rs)
    let v : Residency := { y .drained with region := some 50 }
    let m : Residency := { y .running with barAt := some 1, planes := 2 }
    let n : Residency := { y .running with barAt := some 1, planes := 1 }
    let out (v : Residency) : State :=
      { stR v with host := { st.host with outstanding := [{ pendingStore with waiter := some (.mp 50 0 0) }] } }
    (∀ rs, rs ∈ [ResState.loaded, .running, .drained, .faulted] → (s rs).owned ((s rs).getG 4#6) = some (y rs)) ∧
      (2 ≤ 9 ∧ (9 + 16 * 7) % 16 ≤ 9 ∧ (9 + 16 * 7) / 128 % 2 = 0 ∧ (9 + 16 * 7) / 16 % 8 < (y .loaded).shape.rows) ∧
      (y .running).barAt = none ∧ (y .drained).region.any (s .drained).storesOut = false ∧ v.region.any (out v).storesOut = true ∧
      (out v).owned ((out v).getG 4#6) = some v ∧ (stR m).owned ((stR m).getG 4#6) = some m ∧ m.barAt = some 1 ∧ 1 < m.planes ∧
      (stR n).owned ((stR n).getG 4#6) = some n ∧ n.barAt = some 1 ∧ n.planes ≤ 1 ∧
      (y .running).region = none ∧ (y .faulted).region = none ∧ (y .faulted).image.noResume (y .faulted).faultPlane = false ∧
      (s .faulted).rd ((s .faulted).recordLoc (y .faulted)) 8 = 0 ∧
      (let skips := (s .faulted).wr ((s .faulted).recordLoc (y .faulted)) 8 (2 ^ 43)
       (skips.rd (skips.recordLoc (y .faulted)) 8).testBit 43 = true ∧ (y .faulted).image.indep = false) ∧
      (let z : Residency := { y .faulted with region := some 50 }
       (out z).region? 50 = none ∧ (out z).owned ((out z).getG 4#6) = some z ∧ z.region.any (out z).storesOut = true) ∧ (st.owned (st.getG 4#6) = none) ∧ st.canTrap := by
  unfold State.canTrap; decide +kernel
theorem test_witness_frbind :
    let y := residency .loaded (image [agFrame] [])
    (stR y).owned ((stR y).getG 4#6) = some y ∧ y.state = .loaded ∧ y.image.declares (agBase agFrame.bits) = true ∧
      agBase agFrame.bits ≤ 15 := by decide +kernel
/-- The seat as a strand that is stopped, parked or queued in some way, at cycle `n`. -/
def stAt (n : Nat) (t : Strand) : State := { st with self := t, plant := { st.plant with cycle := n } }
def parkedOn (r : Reason) : Strand := { st.self with st := .parked, park := { reason := r, woken := false } }
def trapDeferred : Deferred := { isCopy := true, who := 5, tcause := 17#64, tinfo0 := 1#64, tinfo1 := 2#64, tinfo2 := 3#64, tinfo3 := 4#64 }
/-- Parked, with a deferred trap that can be taken. -/
def owing (r : Reason) : Strand := { parkedOn r with waits := { deferred := [trapDeferred] } }
theorem test_witness_strandEvents :
    let woken : Strand := { st.self with st := .parked, park := { reason := .fe, woken := true } }
    let fe := stAt 0x1000001 (parkedOn .fe)
    let cell := stAt 0x10000001 (parkedOn .cell)
    let d : Strand := { st.self with waits := { deferred := [trapDeferred] } }
    let miss : Strand := { st.self with waits := { fetchMiss := true } }
    st.strand? 1 = some st.self ∧ (stAt 0 woken).strand? 1 = some woken ∧ woken.st = .parked ∧ woken.park.woken = true ∧
      fe.strand? 1 = some fe.self ∧ fe.felimOut fe.self = true ∧ fe.self.ctl.itr = false ∧ (parkedOn .time).parkedFor .time = true ∧
      (parkedOn .time).park.operand.toNat ≤ st.plant.time.toNat ∧ cell.cellOut cell.self = true ∧ d.canDefer = true ∧ (stAt 0 d).canDefer d = true ∧
      d.waits.deferred = trapDeferred :: [] ∧ miss.st = .active ∧ miss.waits.fetchMiss = true ∧ miss.waits.remote = none ∧
      (stAt 0 miss).strand? 1 = some miss ∧ (fe.seat 1).deferTaker = none ∧ (cell.seat 1).deferTaker = none ∧
      ((stAt 0 miss).seat 1).deferTaker = none ∧
      (∀ s, s ∈ [stAt 0x1000001 (owing .fe), stAt 0x10000001 (owing .cell)] → s.strand? 1 = some s.self ∧ s.canDefer s.self = true ∧
        s.self.waits.deferred = trapDeferred :: []) ∧
      (stAt 0x1000001 (owing .fe)).felimOut (owing .fe) = true ∧ (stAt 0x10000001 (owing .cell)).cellOut (owing .cell) = true ∧
      (stAt 0 d).strand? 1 = some d ∧ st.self.st = .active ∧ st.self.id.part < 64 := by decide +kernel
theorem test_witness_slots :
    let q : Strand := { st.self with id := { st.self.id with uid := 9, sid := none }, st := .queued }
    let s : State := { st with others := [q], plant := { st.plant with cycle := 2 ^ 17 } }
    let asks : State := { st with self := { st.self with waits := { st.self.waits with remote := some 4 } } }
    let full : State := { s with others := q :: ((List.range 127).map (fun k =>
      { partner with id := { partner.id with uid := 10 + k, core := (k + 1) / 8, slot := (k + 1) % 8 } })) }
    let ahead : Strand := { q with id := { q.id with uid := 8, order := 4 }, st := .saved, ctl := { q.ctl with ganged := true, glead := true } }
    let behind : Strand := { q with id := { q.id with order := 5 }, st := .saved, ctl := { q.ctl with ganged := true } }
    let pair : State := { st with others := [ahead, behind] }
    s.queueOf 0 0 = q :: [] ∧ (s.seatFor q).isSome = true ∧ (s.all.map (·.id.uid)).Nodup ∧ s.savedFollower q = none ∧ q.st = .queued ∧
      s.strand? 1 = some s.self ∧ s.canSave s.self = true ∧ s.gangMate s.self = none ∧
      (∀ x ∈ s.all, x.q.q0.length ≤ 8) ∧ asks.strand? 1 = some asks.self ∧ asks.canSave asks.self = false ∧ asks.self.resident = true ∧ full.strand? 9 = some q ∧
      (∀ l ∈ full.all, l.savedPair q = false) ∧ full.keptFor q = [] ∧ pair.strand? 9 = some behind ∧
      (∃ l ∈ pair.all, l.savedPair behind = true) ∧
      q.waitsIn 0 0 = true ∧ q.id.queuedAt + 2 ^ 17 ≤ full.cycle ∧ full.freeSlotFor q = none ∧ (full.victim q).isSome = true ∧
      ((full.victim q).all (fun v => (full.gangMate v).isNone && !v.ctl.ganged && full.canSave v)) = true ∧ (full.all.map (·.id.uid)).Nodup := by decide +kernel
/-! ### The fabric: one element at a site, with arcs into its ports and one arc from its port 0 -/

/-- A field of a frame. -/
def at' (lo v : Nat) : BitVec 256 := BitVec.ofNat 256 (v * 2 ^ lo)
def frameAt (row col : Nat) (f : BitVec 256) : Frame := { addr := BitVec.ofNat 32 (row * 2 ^ 11 + col * 2 ^ 7), aclass := 0, bits := f }
def tok (kind payload : Nat) (par : Bool := false) : Token := { kind := kind, payload := BitVec.ofNat 512 payload, par := par, tag := 0 }
def edgeIn (row col port : Nat) : Edge :=
  { plane := 0, prow := 7, pcol := 9, pport := port, crow := row, ccol := col, cport := port, depth := 8, cls1 := false }
def edgeOut (row col port : Nat) : Edge :=
  { plane := 0, prow := row, pcol := col, pport := port, crow := 6, ccol := 9, cport := port, depth := 8, cls1 := false }
def arcsOf (row col : Nat) (ins : List (Nat × List Token)) : List Arc :=
  ins.map (fun p => { edge := edgeIn row col p.1, queue := p.2, inReturn := 0 }) ++
    [0, 4, 5].map (fun p => { edge := edgeOut row col p, queue := [], inReturn := 0 })
def regionOf (e : Elem) (f : BitVec 256) (ins : List (Nat × List Token)) : Region :=
  { rid := 50, die := 0, cluster := 0, frond := 0, row0 := 0, shape := .whole, holder := .stream 0 0 0
    image := image [frameAt e.row e.col f] ((arcsOf e.row e.col ins).map (·.edge)), site := st.self.site
    arcs := arcsOf e.row e.col ins, elems := [e], loaded := 1, phase := .running, lastMove := 0, commits := 0, flags := 0#5
    marks := [], binds := [(0, [(3, 0x10000#64)])], faults := [], lastInj := 0, psn := [], pflags := [], argNet := [] }
def stE (r : Region) : State :=
  let y := { residency .running r.image with region := some 50 }
  { stM false with work := { (stR y).work with regions := [r] } }
def elem (row col : Nat) : Elem := { row := row, col := col }
/-- The element of that state may begin a firing. -/
def may (r : Region) (e : Elem) (f : BitVec 256) : Prop := (stE r).mayFire r e f
/-- `Region.classed` over the arcs that end at the element. -/
def classedB (r : Region) (e : Elem) : Bool :=
  r.arcs.all (fun a => !a.ends e.plane e.row e.col a.edge.cport ||
    (match r.headAt e a.edge.cport with
      | some t => a.edge.cls1 == (t.kind == 4)
      | none => true))
theorem classed_iff (r : Region) (e : Elem) : r.classed e ↔ classedB r e = true := by
  constructor
  · intro h
    refine List.all_eq_true.2 (fun a ha => ?_)
    cases hx : a.ends e.plane e.row e.col a.edge.cport
    · rfl
    · cases ht : r.headAt e a.edge.cport with
      | none => rfl
      | some t => simpa using h _ t a ht ha hx
  · intro h p t a ht ha hx
    have hp : a.edge.cport = p := by simp [Arc.ends] at hx; exact hx.2
    have h2 := List.all_eq_true.1 h a ha
    subst hp
    simpa [hx, ht] using h2
theorem stands_iff (s : State) (r : Region) (e : Elem) (f : BitVec 256) : s.stands r e f ↔ (s.region? r.rid = some r ∧
    r.elem? e.row e.col = some e ∧ r.frame? e = some f ∧ r.free e = true ∧ e.todo = [] ∧ r.served = false ∧ classedB r e = true) := by
  unfold State.stands; rw [classed_iff]
theorem may_iff (r : Region) (e : Elem) (f : BitVec 256) : may r e f ↔ (((stE r).region? r.rid = some r ∧
    r.elem? e.row e.col = some e ∧ r.frame? e = some f ∧ r.free e = true ∧ e.todo = [] ∧ r.served = false ∧ classedB r e = true) ∧
      e.atEnd = false ∧ r.roomFor e f = true) := by
  unfold may State.mayFire; rw [stands_iff]

/-- The sum of two inputs in I64, to port 0. -/
def fAdd : BitVec 256 := at' 8 6 ||| at' 16 1 ||| at' 20 2 ||| at' 28 1 ||| at' 140 1 ||| at' 160 0x5770
def rCe (f : BitVec 256) (a b : Token) : Region := regionOf (elem 2 3) f [(0, [a]), (1, [b])]
/-- The inputs that a CE selects. -/
def sels (f : BitVec 256) : List Nat := (List.range 3).filter (fun i => ceIn f i != 0)
/-- A RUNNING and a FAULTED residency with a region, in the handle that the strand's register names. -/
theorem test_witness_residencyRegions :
    let r := rCe fAdd (tok 0 5) (tok 0 7)
    let s (x : ResState) : State :=
      { stE r with work := { (stE r).work with residencies := [{ residency x r.image with region := some 50 }] } }
    (∀ x, x ∈ [ResState.running, .faulted] →
      (s x).owned ((s x).getG 4#6) = some { residency x r.image with region := some 50 } ∧ (s x).region? 50 = some r) ∧
    r.image.noResume 0 = false ∧ ((s .faulted).rd ((s .faulted).recordLoc (residency .faulted r.image)) 8).testBit 43 = false ∧
    (2 ≤ 3 ∧ (3 + 16 * 2) % 16 ≤ 9 ∧ (3 + 16 * 2) / 512 = 0) := by decide +kernel
theorem test_witness_ceFire :
    let r := rCe fAdd (tok 0 5) (tok 0 7)
    may r (elem 2 3) fAdd ∧ bits fAdd 3 0 = 0 ∧ 2 ≤ (elem 2 3).col ∧ (elem 2 3).col < 10 ∧ ceEor fAdd = 0 ∧
      [(0, tok 0 5), (1, tok 0 7)].map (·.1) = sels fAdd ∧ (∀ h ∈ [(0, tok 0 5), (1, tok 0 7)],
        ceInput r (elem 2 3) fAdd h.1 = some h.2 ∧ h.2.kind ≤ 3) ∧ ceUcnt fAdd = 1 ∧ ceUop fAdd 0 = 0x5770#16 ∧ ceFmt fAdd = 6 ∧ ceSat fAdd = false ∧
      ceIn fAdd 0 ≠ 5 ∧ ceIn fAdd 1 ≠ 5 ∧ ceIn fAdd 2 = 0 ∧ r.inp (elem 2 3) (ceIn fAdd 0) = some (tok 0 5) ∧
      r.inp (elem 2 3) (ceIn fAdd 1) = some (tok 0 7) := by
  simp only [may_iff]; decide +kernel
/-- A generator of one round of two firings. -/
def fGen : BitVec 256 := at' 8 6 ||| at' 28 1 ||| at' 36 2 ||| at' 140 1 ||| at' 148 1 ||| at' 160 0x5770
theorem test_witness_ceGenerator :
    let r := regionOf (elem 2 3) fGen []
    let e := { elem 2 3 with ctr := [1, 0, 0, 0] }
    may r (elem 2 3) fGen ∧ 1 ≤ ceEor fGen ∧ r.mayBegin (elem 2 3) = true ∧ (regionOf e fGen []).mayBegin e = true ∧ wrapsAt (elem 2 3).ctr (ceCnts fGen) (ceEor fGen - 1) = false ∧
      may (regionOf e fGen []) e fGen ∧ wrapsAt e.ctr (ceCnts fGen) (ceEor fGen - 1) = true ∧ outsOf 3 fGen ≠ 0 := by
  simp only [may_iff]; decide +kernel
theorem test_witness_ceStops :
    let r := rCe fAdd (tok 9 0) (tok 9 0)
    may r (elem 2 3) fAdd ∧ ceEor fAdd = 0 ∧ sels fAdd ≠ [] ∧ incHeld (elem 2 3) fAdd = false ∧
      ∀ i ∈ sels fAdd, ceInput r (elem 2 3) fAdd i = some (tok 9 0) := by
  simp only [may_iff]; decide +kernel
theorem test_witness_ceRound :
    let r (n : Nat) := rCe fAdd (tok 5 n) (tok 5 n)
    (∀ n, n ∈ [0, 1] → may (r n) (elem 2 3) fAdd ∧ ∀ i ∈ sels fAdd, ceInput (r n) (elem 2 3) fAdd i = some (tok 5 n)) ∧
      (tok 5 0).last = false ∧ (tok 5 1).last = true ∧ isServed 3 fAdd = false ∧ ∀ c ∈ (elem 2 3).ctr, c = 0 := by
  simp only [may_iff]; decide +kernel
theorem test_witness_elementDone :
    let e := { elem 2 3 with atEnd := true }
    let r := { rCe fAdd (tok 15 0) (tok 15 0) with elems := [e] }
    let u := rCe fAdd (tok 15 0) (tok 15 0)
    let done (x : Except ElemFault Bool) : Bool := match x with
      | .ok b => b
      | _ => false
    ((stE r).stands r e fAdd ∧ xeRow 2 3 = 2 ∧ xeCol 3 = 3 ∧ (insOf 3 fAdd).map (fun x => x - 1) ≠ [] ∧
      r.accepts e (outsOf 3 fAdd) = true ∧ done (State.doneCase r e fAdd) = true ∧ e.atEnd = true ∧ e.plane + 1 = r.image.nplanes) ∧
    ((stE u).stands u (elem 2 3) fAdd ∧ done (State.doneCase u (elem 2 3) fAdd) = true ∧ (elem 2 3).atEnd = false) := by
  simp only [stands_iff]; decide +kernel
/-! ### Address generators and memory ports -/

def siteSp : Site := { st.self.site with splim := 0x10000 }
/-- The region as one whose accesses reach the scratchpad, with binding 3 at its start. -/
def inSp (r : Region) : Region := { r with site := siteSp, binds := [(0, [(3, 0xD000000000000000#64)])] }
def fAff : BitVec 256 := at' 0 4 ||| at' 14 3 ||| at' 23 1 ||| at' 32 2 ||| at' 96 8
def fInd : BitVec 256 := at' 0 4 ||| at' 9 1 ||| at' 14 3 ||| at' 23 1 ||| at' 27 1 ||| at' 96 8
theorem test_witness_agAff :
    let r := regionOf (elem 2 1) fAff []
    let e := { elem 2 1 with ctr := [1, 0, 0, 0] }
    may r (elem 2 1) fAff ∧ bits fAff 3 0 = 4 ∧ agInd fAff = false ∧ r.mayBegin (elem 2 1) = true ∧ (regionOf e fAff []).mayBegin e = true ∧ may (regionOf e fAff []) e fAff ∧
      wrapsAt e.ctr (agCnts (regionOf e fAff []) e fAff) (outermost (agCnts (regionOf e fAff []) e fAff)) = true := by
  simp only [may_iff]; decide +kernel
theorem test_witness_agInd :
    let r (t : Token) := regionOf (elem 2 1) fInd [(0, [t])]
    (∀ t, t ∈ [tok 1 5, tok 3 0, tok 8 0] → may (r t) (elem 2 1) fInd ∧ (r t).inp (elem 2 1) (agIni fInd) = some t) ∧
      agInd fInd = true ∧ agIni fInd ≠ 0 ∧ (tok 1 5).isData = true ∧ (tok 8 0).isStop = true := by
  simp only [may_iff]; decide +kernel
/-- A port of a mode, 8 bytes wide, addresses at port 0, data at port 1, results to port 0. -/
def fMp (mode : Nat) : BitVec 256 := at' 0 5 ||| at' 9 mode ||| at' 11 3 ||| at' 22 1 ||| at' 26 2 ||| at' 30 1
def addrTok : Token := tok 2 0xD000000000000008
def rMp (mode : Nat) : Region := inSp (regionOf (elem 2 0) (fMp mode) [(0, [addrTok]), (1, [tok 0 77])])
/-- An access of a port may go ahead at a place of this module. -/
def goes (r : MpGo × State) : Bool :=
  match r with
  | (.go p, t) => !p.remote && !p.glob && memB t
  | _ => false
/-- With the next fresh number taken. -/
def next1 (s : State) : State := { s with fresh := s.fresh + 1 }
theorem test_witness_mp :
    let e := elem 2 0
    (∀ m, m ∈ [0, 1, 2] → may (rMp m) e (fMp m) ∧ bits (fMp m) 3 0 = 5 ∧ mpMode (fMp m) = m ∧ mpAddr (fMp m) ≠ 0 ∧
      (rMp m).inp e (mpAddr (fMp m)) = some addrTok ∧ addrTok.isData = true ∧ mpCircuit (rMp m) e (fMp m) = none ∧
      e.mp.spill = [] ∧ e.mp.rounds ≠ 2 ∧ ordIn 0 (fMp m) = 0 ∧ ordOut 0 (fMp m) = 0 ∧
      (rMp m).inp e (mpData (fMp m)) = some (tok 0 77)) ∧
    goes ((next1 (stE (rMp 0))).mpGo (rMp 0) e (fMp 0) ((stE (rMp 0)).mpSite (rMp 0) 0) .load 0xD000000000000008#64 8) = true ∧
    goes ((next1 (stE (rMp 1))).mpGo (rMp 1) e (fMp 1) ((stE (rMp 1)).mpSite (rMp 1) 0) .store 0xD000000000000008#64 8) = true ∧
    goes ((next1 (stE (rMp 2))).mpGo (rMp 2) e (fMp 2) ((stE (rMp 2)).mpSite (rMp 2) 0) .atomic 0xD000000000000008#64 8) = true ∧
    (e.buffer false { addr := 0xD000000000000008#64, loc := spLoc 0 0 8, glob := false, remote := false
                      bytes := leBytes 8 77, tag := 0 }).isSome = true := by
  simp only [may_iff]; decide +kernel
def spill (cell : Option Nat) : Spill :=
  { op := 0, addr := 0xD000000000000008#64, data := 0#512, tag := 0, par := false, answer := if cell.isNone then some 9#512 else none
    onCell := cell }
theorem test_witness_mpSpill :
    let e (c : Option Nat) := { elem 2 0 with mp := { spill := [spill c] } }
    let r (c : Option Nat) := inSp (regionOf (e c) (fMp 0) [])
    let s : State := { stE (r (some 0)) with plant := { st.plant with cycle := 0x10000001 } }
    (stE (r none)).stands (r none) (e none) (fMp 0) ∧ (r none).roomFor (e none) (fMp 0) = true ∧ (spill none).onPage = false ∧
      (spill none).onCell = none ∧ (spill none).answer = some 9#512 ∧ outsOf 0 (fMp 0) ≠ 0 ∧
      goes ((stE (r none)).mpGo (r none) (e none) (fMp 0) ((stE (r none)).mpSite (r none) 0) .load (spill none).addr 8 (answered := true)) = true ∧
      s.stands (r (some 0)) (e (some 0)) (fMp 0) ∧ (e (some 0)).mp.spill[0]? = some (spill (some 0)) ∧ (spill (some 0)).op ≤ 2 ∧
      (s.part 0).cellWait ≠ 0 ∧ (s.part 0).cellWait < s.cycle - 0 := by
  simp only [stands_iff]; decide +kernel

/-! ### Fibre elements -/

/-- An FE of a mode: inputs at ports 0, 1, 2 as far as `ins` says, primary stream to port 0, depth 1. -/
def fFe (mode ins : Nat) (more : BitVec 256) : BitVec 256 :=
  at' 0 2 ||| at' 9 mode ||| at' 13 1 ||| at' 19 (if 0 < ins then 1 else 0) ||| at' 23 (if 1 < ins then 2 else 0) |||
    at' 27 (if 2 < ins then 3 else 0) ||| at' 31 1 ||| more
def rFe (e : Elem) (f : BitVec 256) (ts : List Token) : Region := regionOf e f (ts.zipIdx.map (fun p => (p.2, [p.1])))
/-- `may` as a Boolean. -/
def mayB (r : Region) (e : Elem) (f : BitVec 256) : Bool := @decide (may r e f) (decidable_of_iff _ (may_iff r e f).symm)
/-- The element may fire, in a mode, with those heads. -/
def feReady (e : Elem) (f : BitVec 256) (mode : Nat) (ts : List Token) : Bool :=
  mayB (rFe e f ts) e f && (e.col == 12 || e.col == 13) && bits f 3 0 == 2 && ordIn e.col f == 0 && ordOut e.col f == 0 &&
    feMode f == mode && ts.zipIdx.all (fun p => (rFe e f ts).inp e (feIn f p.2) == some p.1)
def fe0 : Elem := elem 2 12
def withFe (x : FEState) : Elem := { fe0 with fe := x }
theorem test_witness_feScan :
    let f := fFe 0 1 (at' 60 2 ||| at' 55 3)
    feReady fe0 f 0 [tok 2 1] ∧ natBit (feC0 f) 1 = true ∧ feIn f 0 ≠ 0 ∧ fe0.fe.scan = none ∧ fe0.fe.held = false ∧ (tok 2 1).kind = 2 ∧
      feReady (withFe { scan := some (4, 6, 3) }) f 0 [tok 2 1] ∧ 4 < 6 ∧ feSorted f = false ∧ natBit (feC0 f) 0 = false ∧
      feReady (withFe { scan := some (6, 6, 3) }) f 0 [tok 2 1] ∧ 6 ≤ 6 := by
  decide +kernel
theorem test_witness_feMerge :
    (∀ m, m ∈ [1, 2] → feReady fe0 (fFe m 2 (at' 60 1)) m [tok 1 4, tok 1 6] ∧ feReady fe0 (fFe m 2 (at' 60 1)) m [tok 1 4, tok 1 4] ∧
      feReady (withFe { crdA := some 4, crdB := some 4 }) (fFe m 2 0#256) m [tok 2 1, tok 2 2] ∧
      feReady (withFe { crdA := some 4 }) (fFe m 2 0#256) m [tok 2 1]) ∧
      fe0.fe.crdA = none ∧ fe0.fe.crdB = none ∧ fe0.fe.lastA = none ∧ fe0.fe.lastB = none := by
  decide +kernel
theorem test_witness_feOthers :
    feReady fe0 (fFe 3 1 0#256) 3 [tok 3 0] ∧ feReady fe0 (fFe 3 1 0#256) 3 [tok 0 5] ∧
    (feReady (withFe { acc := some 5#64, count := 1 }) (fFe 4 1 (at' 43 1 ||| at' 39 6)) 4 [tok 0 7] ∧
      feOp (fFe 4 1 (at' 43 1 ||| at' 39 6)) = 1 ∧ feFmt (fFe 4 1 (at' 43 1 ||| at' 39 6)) = 6) ∧
    (feReady (withFe { count := 2 }) (fFe 4 1 (at' 43 4)) 4 [tok 8 0] ∧ (tok 8 0).isStop = true ∧
      (levelFault (fFe 4 1 (at' 43 4)) 0 1 (tok 8 0)).isNone = true ∧ feOp (fFe 4 1 (at' 43 4)) = 4 ∧
      feComm (fFe 4 1 (at' 43 4)) = false ∧ feLevel (fFe 4 1 (at' 43 4)) ≤ (tok 8 0).kind - 8) ∧
    feReady fe0 (fFe 5 2 (at' 35 16)) 5 [tok 0 9, tok 0 1] ∧ feReady fe0 (fFe 5 2 0#256) 5 [tok 0 9, tok 0 0] ∧
    feReady fe0 (fFe 6 3 0#256) 6 [tok 0 9, tok 1 0, tok 3 0] ∧ (tok 1 0).num = fe0.fe.idx ∧
    feReady fe0 (fFe 7 1 0#256) 7 [tok 0 9] ∧ fe0.fe.fromB = false ∧
    feReady fe0 (fFe 9 2 0#256) 9 [tok 1 4, tok 3 0] ∧ feReady fe0 (fFe 9 2 0#256) 9 [tok 1 4, tok 2 3] := by
  decide +kernel
/-- Writes of an FE that go through. -/
def wrote' (w : FeWrite) : Bool :=
  match w with
  | .done _ _ => true
  | _ => false
theorem test_witness_feLvlw :
    let f := fFe 8 1 (at' 55 3)
    let e := withFe { lvlInit := true }
    let r0 := rFe e f [tok 1 4]
    let r := { inSp { r0 with elems := [e, elem 2 0], image := { r0.image with
        frames := [frameAt 2 12 f, frameAt 2 0 (fMp 1 ||| at' 45 (1 + 3 * 2 + 4 * 32 + 1024))] } } with
      binds := [(0, [(3, 0xD000000000000000#64), (4, 0x1000#64)])] }
    (stE r).mayFire r e f ∧ feMode f = 8 ∧ r.inp e (feIn f 0) = some (tok 1 4) ∧ (tok 1 4).kind = 1 ∧ e.fe.lvlInit = true ∧
      feSorted f = false ∧ (tok 1 4).num < 2 ^ 32 ∧ (r.elem? e.row 0).map (·.mp.spill) = some [] ∧
      wrote' ((stE r).feWrite r e (r.binding e.plane (feCrd f) + w64 (e.fe.lvlN * levelBytes f)) (levelBytes f) 4) = true := by
  simp only [State.mayFire, stands_iff]; decide +kernel
/-! ### Memory and matrix elements -/

/-- An ME of a mode with two slots: data at port 0, triggers and keys at port 1, output to port 0. -/
def fMe (mode : Nat) : BitVec 256 := at' 0 1 ||| at' 9 mode ||| at' 12 1 ||| at' 16 2 ||| at' 20 1 ||| at' 37 2 ||| at' 50 1 ||| at' 61 6
def meElem (x : MEState) : Elem := { elem 2 10 with me := x }
def rMe (x : MEState) (f : BitVec 256) (d k : Token) : Region := regionOf (meElem x) f [(0, [d]), (1, [k])]
/-- The word of slot `i` of that ME. -/
def meWord (i : Nat) : Nat := meLoc 0 0 0 2 10 (8 * i)
/-- The ME may fire in that mode, with those heads. -/
def meReady (x : MEState) (f : BitVec 256) (mode : Nat) (d k : Token) : Bool :=
  let r := rMe x f d k
  let e := meElem x
  mayB r e f && (e.col == 10 || e.col == 11) && bits f 3 0 == 1 && ordIn e.col f == 0 && ordOut e.col f == 0 && meMode f == mode &&
    r.inp e (meInk f) == some k && r.inp e (meInd f) == some d && memB (stE r) && (stE r).m.empties == []
/-- The last word of an ME that the strand's launch holds, aligned, unaligned and past the end. -/
theorem test_witness_meLoads :
    let s := stE (rMe {} (fMe 0) (tok 0 5) (tok 0 1))
    ((s.regionAt 0 0 0 2).filter (fun r => r.heldFor s.self.site)).isSome = true ∧ 0xE100000000007FF8#64 / 2 ^ 60 = 0xE#64 ∧
      (0xE100000000007FF8#64).toNat % 2 ^ 15 + 8 ≤ 2 ^ 15 ∧ (0xE100000000007FF8#64).toNat % 2 ^ 60 % 2 ^ 54 < 2 ^ 15 ∧
      (0xE100000000007FF4#64).toNat % 8 ≠ 0 ∧ 2 ^ 15 < (0xE100000000007FFC#64).toNat % 2 ^ 15 + 8 ∧
      s.isPoisoned (meLoc 0 0 0 2 10 0x7FF8) = false := by decide +kernel
theorem test_witness_meBuf :
    let r := rMe {} (fMe 0) (tok 0 5) (tok 0 1)
    let s := (stE r).setBit (meWord 0) false
    meReady {} (fMe 0) 0 (tok 0 5) (tok 0 1) = true ∧ s.region? 50 = some r ∧ s.m.empties.Nodup ∧
      s.slotEmpty (meSlot r (meElem {}) (fMe 0) 0) = true ∧ (stE r).slotMark (meSlot r (meElem {}) (fMe 0) 0) = false ∧ (meElem {}).me.pass = none ∧
      meReady { pass := some (0, true) } (fMe 0) 0 (tok 0 5) (tok 0 1) = true ∧
      (stE r).slotFull (meSlot r (meElem {}) (fMe 0) 0) = true ∧ 0 + 1 < bufSlots (fMe 0) := by decide +kernel
theorem test_witness_meOthers :
    meReady {} (fMe 1) 1 (tok 0 5) (tok 0 1) = true ∧ 0 < meMdepth (fMe 1) ∧
      (rMe {} (fMe 1) (tok 0 5) (tok 0 1)).headAt (meElem {}) 0 = some (tok 0 5) ∧ (tok 0 5).kind ≠ 7 ∧
    (let x : MEState := { fifo := [(0, false)] }
     let r := regionOf (meElem x) (fMe 1) [(0, []), (1, [])]
     mayB r (meElem x) (fMe 1) = true ∧ r.headAt (meElem x) (meInd (fMe 1) - 1) = none ∧ x.fifo = (0, false) :: [] ∧
       (stE r).slotMark (meSlot r (meElem x) (fMe 1) x.fifoHd) = false) ∧
    (stE (rMe {} (fMe 2) (tok 0 5) (tok 1 1))).isPoisoned (meWord 1) = false ∧
    meWordLoc (rMe {} (fMe 2) (tok 0 5) (tok 1 1)) (meElem {}) (meBase (fMe 2) + 1) = meWord 1 ∧
    (stE (rMe {} (fMe 3) (tok 0 5) (tok 1 1))).slotMark (meSlot (rMe {} (fMe 3) (tok 0 5) (tok 1 1)) (meElem {}) (fMe 3) 1) = false ∧
    meReady {} (fMe 2) 2 (tok 0 5) (tok 1 1) = true ∧ meReady {} (fMe 2) 2 (tok 9 0) (tok 9 0) = true ∧ (tok 9 0).isStop = true ∧ (tok 1 1).num < meSize (fMe 2) ∧
    meReady { pipe := [(1, 9#64, 0)] } (fMe 2) 2 (tok 0 5) (tok 1 1) = true ∧
    meReady {} (fMe 3) 3 (tok 0 5) (tok 1 1) = true ∧ (tok 1 1).num < meSize (fMe 3) / meWords (fMe 3) ∧
    (stE (rMe {} (fMe 3) (tok 0 5) (tok 1 1))).slotFull (meSlot (rMe {} (fMe 3) (tok 0 5) (tok 1 1)) (meElem {}) (fMe 3) 1) = true ∧
    meReady {} (fMe 4) 4 (tok 0 5) (tok 0 1) = true ∧ meInd (fMe 4) ≠ 0 ∧ (0 : Nat) < meSize (fMe 4) / meWords (fMe 4) := by
  decide +kernel
theorem test_witness_meReplay :
    let f := fMe 4 ^^^ at' 12 1
    let x : MEState := { stash := [0] }
    mayB (regionOf (meElem x) f []) (meElem x) f = true ∧ (regionOf (meElem x) f []).mayBegin (meElem x) = true ∧ meInd f = 0 ∧ meMode f = 4 ∧ x.stash[x.replay]? = some 0 ∧
      (stE (regionOf (meElem x) f [])).slotMark (meSlot (regionOf (meElem x) f []) (meElem x) f x.replay) = false := by decide +kernel
/-- An XE of a mode: A rows at port 0, a tile row at port 1, both row outputs. -/
def fXe (mode ins : Nat) : BitVec 256 :=
  at' 0 3 ||| at' 9 mode ||| (if ins = 4 then at' 35 1 else if ins = 0 then 0#256 else at' 19 1) ||| at' 43 3 |||
    (if mode = 1 then at' 15 1 else 0#256)
def xe0 : Elem := elem 2 14
def rXe (f : BitVec 256) (ts : List Token) : Region := regionOf xe0 f (ts.zipIdx.map (fun p => (p.2, [p.1])))
/-- The XE, in a state of its own, may fire in that mode with those heads. -/
def xeReady (x : XEState) (f : BitVec 256) (mode : Nat) (ts : List Token) (hs : List (Nat × Token)) : Bool :=
  let e := { xe0 with xe := x }
  let r := regionOf e f (ts.zipIdx.map (fun p => (p.2, [p.1])))
  mayB r e f && e.row / 2 * 2 == e.row && bits f 3 0 == 3 && !(stE r).pipeHeld r.die r.cluster && xeMode f == mode &&
    (xeHeads r e f == some hs) && hs.all (fun h => h.2.par == e.par)
theorem test_witness_xe :
    xeReady {} (fXe 2 4) 2 [tok 0 77] [(4, tok 0 77)] = true ∧ xeReady {} (fXe 2 4) 2 [tok 3 0] [(4, tok 3 0)] = true ∧
    xeReady {} (fXe 3 0) 3 [] [] = true ∧ (rXe (fXe 3 0) []).mayBegin xe0 = true ∧ xe0.xe.pos < tileTokens (xeAfmt (fXe 3 0)) ∧ xe0.xe.pos < 32 ∧
    xeReady { pos := 32 } (fXe 3 0) 3 [] [] = true ∧ tileTokens (xeAfmt (fXe 3 0)) ≤ 32 ∧
    xeReady {} (fXe 0 1) 0 [tok 0 1] [(0, tok 0 1)] = true ∧ xeReady {} (fXe 0 1) 0 [tok 3 0] [(0, tok 3 0)] = true ∧
    (∀ half, half ∈ [true, false] → xeReady { half := half } (fXe 1 1 ^^^ at' 15 1) 1 [tok 0 1] [(0, tok 0 1)] = true) ∧
    xeCfmt (fXe 1 1 ^^^ at' 15 1) = 0 ∧ xeReady {} (fXe 1 1) 1 [tok 0 1] [(0, tok 0 1)] = true ∧
    xeReady {} (fXe 1 1) 1 [tok 3 0] [(0, tok 3 0)] = true ∧ xeCfmt (fXe 1 1) ≠ 0 ∧
    (∀ t, t ∈ [tok 0 1, tok 3 0] → ∀ h ∈ [(0, t)], h.1 ∈ mmnNeeds [(0, t)] → h.2.kind = 0) := by decide +kernel
/-! ### Served packets, placing, regions, saving -/

def packet (c : Caller) : Packet :=
  { pid := 60, die := 0, cluster := 0, caller := c, tag := 2, handle := 0, cfg := 65536, launch := some (0, 0), site := st.self.site
    args := [5#64, 6#64], since := 0, dst := 20, res := 1, region := none, result := none, poison := none }
def servedRegion (exitQ : List Token) : Region :=
  let r := regionOf (elem 0 0) (fMp 0) []
  { r with rid := 51, holder := .served 65536 0 (some (0, 0)), image := servedImage
           arcs := [{ edge := edgeOut 0 0 0, queue := [], inReturn := 0 }, { edge := edgeOut 0 0 1, queue := [], inReturn := 0 },
                    { edge := edgeIn 7 0 0, queue := exitQ, inReturn := 0 }] }
def stS' (r : Region) (p : Packet) : State :=
  { stL im0 with work := { (stL im0).work with regions := [r], packets := [p] } }
theorem test_witness_serveInject :
    let r := servedRegion []
    let p := packet (.strand 1)
    let s : State := { stS' r p with plant := { st.plant with cycle := 1 } }
    s.packet? 60 = some p ∧ s.resident p = some r ∧ p.waits = true ∧ p.since < s.cycle ∧ p.caller = .strand 1 ∧ r.phase = .running ∧ s.firstWaiting p = true ∧
      (∀ j, j < p.args.length → ((portElem r 0 j).any (fun x => r.accepts x (2 ^ (j % 4)))) = true) := by decide +kernel
theorem test_witness_servedExit :
    let h : Token := { tok 0 99 with tag := 2 }
    let r := servedRegion [h]
    let p := { packet (.strand 1) with region := some 51 }
    let s := stS' r p
    let b : BufStore := { addr := 0xD000000000000008#64, loc := spLoc 0 0 8, glob := false, remote := false, bytes := leBytes 8 77, tag := 2 }
    let u := { r with elems := [{ elem 0 0 with mp := { win0 := [b] } }], image := { servedImage with frames := [frameAt 0 0 (fMp 1)] } }
    s.region? 51 = some r ∧ r.served = true ∧ (List.range r.image.res).mapM (m := Option) r.resultHead = some [h] ∧
      s.work.packets.find? (fun p => p.region == some r.rid && p.tag == 2 && p.result.isNone && p.poison.isNone) = some p ∧
      s.exitPoison r 2 [h] = none ∧ r.underWay 2 = false ∧
      ((r.tagStores 2).all (s.releases r)) = true ∧ (stS' u p).region? 51 = some u ∧ u.tagStores 2 = [b] ∧
      ((u.tagStores 2).all ((stS' u p).releases u)) = true ∧ r.pflags.find? (fun q => q.1 == 2) = none ∧
      ({ r with psn := [(2, 7#64)] } : Region).psn.find? (fun q => q.1 == 2) = some (2, 7#64) := by decide +kernel
/-- Two results whose heads at the exit carry different tags. -/
theorem test_witness_servedExitTags :
    let h (t : Nat) : Token := { tok 0 99 with tag := t }
    let r0 := servedRegion []
    let r := { r0 with image := { servedImage with res := 2 }
                       arcs := [{ edge := edgeIn 7 0 0, queue := [h 2], inReturn := 0 }, { edge := edgeIn 7 0 1, queue := [h 3], inReturn := 0 }] }
    (stS' r (packet (.strand 1))).region? 51 = some r ∧ r.served = true ∧ r.underWay 2 = false ∧
      (List.range r.image.res).mapM (m := Option) r.resultHead = some [h 2, h 3] ∧ (h 3).tag ≠ (h 2).tag := by decide +kernel
theorem test_witness_serveResult :
    let me := parkedOn .serve
    let p := { packet (.strand 1) with result := some ([9#64], 1#5) }
    let s : State := { stS' (servedRegion []) p with self := me }
    s.packet? 60 = some p ∧ s.heldAtExit p = false ∧ p.caller = .strand s.self.id.uid ∧ p.result = some ([9#64], 1#5) ∧
      s.strand? s.self.id.uid = some s.self ∧ s.self.parkedFor .serve = true ∧ p.dst + 1 ≤ 64 ∧ s.canTrap ∧
      ({ p with result := none, poison := some 0x92000#64 } : Packet).poison = some 0x92000#64 := by
  unfold State.canTrap; decide +kernel
def request (w : Word) : Eclosion := { eclosion .pending with released := false, word0 := w }
/-- With a scratchpad window of the partition on die 0. -/
def windowed (s : State) : State := s.setPart 0 { s.part 0 with dies := (s.part 0).dies.set 0 { (s.part 0).dies[0] with spl := 1 } }
def stReq (w : Word) : State := windowed { stL im0 with cells := { st.cells with eclosions := [request w] } }
/-- The requests of partition 0 on die 0, and the packet that goes before them. -/
def mineOf (s : State) : List Eclosion := s.cells.eclosions.filter (fun e => paDie e.cell == 0 && e.site.part == 0)
def nextOf (s : State) : Option (Eclosion × Nat × Nat × Nat) := (mineOf s).findSome? (fun x => (s.nextPacket x).map (fun q => (x, q)))
theorem test_witness_evaluation :
    let low : Eclosion := { request 0x1000#64 with eid := 2, word2 := 0#64 }
    let high : Eclosion := { request 0x1000#64 with word2 := 0x300#64 }
    let s : State := { stReq 0x1000#64 with cells := { st.cells with eclosions := [low, high, { low with eid := 9 }] } }
    nextOf s = none ∧ high ∈ mineOf s ∧ s.releasable high = true ∧ s.evalAdmits 0 0 = true ∧
      (∀ x ∈ mineOf s, s.releasable x = true → x ≠ high → x.prio < high.prio ∨ (x.prio = high.prio ∧ high.eid < x.eid)) ∧
      (∀ x ∈ (mineOf s).filter (fun x => x != high), s.releasable x = true → x ≠ low → x.prio < low.prio ∨ (x.prio = low.prio ∧ low.eid < x.eid)) ∧
      high.word0.getLsbD 0 = false := by decide +kernel
theorem test_witness_evaluationServed :
    let e := request 0x20003#64
    let s := stReq 0x20003#64
    let full : State := { s with cells := { s.cells with cellPkts := (List.range 128).map (fun i => (0, 0, i, 900 + i)) } }
    let q : Eclosion := { e with released := true, queuedAt := some (0, 0, 5) }
    let w : State := { s with cells := { s.cells with eclosions := [{ q with eid := 4, queuedAt := some (0, 0, 6) }, q] } }
    nextOf s = none ∧ mineOf s = [e] ∧ s.releasable e = true ∧ s.evalAdmits 0 0 = true ∧ e.word0.getLsbD 0 = true ∧
      s.evalPlace e = (0, 0) ∧ (∀ x ∈ s.cells.eclosions, x.queuedAt = none) ∧ s.freeCellPkt 0 0 = some 0 ∧
      nextOf full = none ∧ mineOf full = [e] ∧ full.evalAdmits 0 0 = true ∧ full.evalPlace e = (0, 0) ∧
      (∀ x ∈ full.cells.eclosions, x.queuedAt = none) ∧ full.freeCellPkt 0 0 = none ∧ nextOf w = some (q, 0, 0, 0) := by decide +kernel
theorem test_witness_evalPacket :
    let p := { packet (.cell 3) with result := some ([9#64], 0#5) }
    let e := eclosion (.packet 0 0 3)
    let s : State := { stS' (servedRegion []) p with cells := { st.cells with eclosions := [e], cellPkts := [(0, 0, 3, 3)] } }
    s.packet? 60 = some p ∧ s.heldAtExit p = false ∧ ([9#64] : List Word).length ≤ 4 ∧ p.caller = .cell 3 ∧ e.cell % 32 = 0 ∧ memB s = true ∧
      s.cells.cellPkts.find? (fun q => q.1 == p.die && q.2.1 == p.cluster && q.2.2.1 == 3) = some (p.die, p.cluster, 3, e.eid) ∧
      s.cells.eclosions.find? (fun x => x.eid == e.eid) = some e := by decide +kernel
/-- The die's spore store holds both configurations. -/
def stored (s : State) : State := s.setDie 0 { s.die 0 with spores := [(65536, 0), (65537, 0)] }
theorem test_witness_decision :
    let w : Waiting := { die := 0, cluster := 0, cfg := 65536, part := 0, launch := some (0, 0), order := 3, age := 0, inTable := true }
    let s := stored { stL im0 with fresh := 9, work := { (stL im0).work with packets := [packet (.strand 1)], waitings := [w], decisions := [(0, 0)] } }
    let r := { servedRegion [] with holder := .served 65538 0 (some (0, 0)) }
    let u : State := { s with fresh := 99, work := { s.work with regions := [r] } }
    (∀ r ∈ u.work.regions, r.rid < u.fresh) ∧ (0, 0) ∈ u.work.decisions ∧
      u.chosen (u.work.waitings.filter (fun w => w.die == 0 && w.cluster == 0 && w.inTable && u.placeable w)) = some w ∧
      u.imageOf w = some servedImage ∧ u.hasRoom (0, 0) 0 0 servedImage.shape = false ∧
      u.evictable (0, 0) 0 0 servedImage.shape = some r ∧ (u.die 0).spores.contains (w.cfg, (u.servedSite w).part) = true ∧
      (0, 0) ∈ s.work.decisions ∧ (∀ r ∈ s.work.regions, r.rid < s.fresh) ∧
      s.chosen (s.work.waitings.filter (fun w => w.die == 0 && w.cluster == 0 && w.inTable && s.placeable w)) = some w ∧
      s.imageOf w = some servedImage ∧ w.launch = some (0, 0) ∧ s.hasRoom (0, 0) 0 0 servedImage.shape = true ∧
      s.bandFor 0 0 servedImage.shape = some (0, 0) ∧ (s.die 0).spores.contains (w.cfg, (s.servedSite w).part) = true := by
  decide +kernel
theorem test_witness_placement :
    let y := { residency .running im0 with waiting := some (0, 1), migr := 1 }
    let s := stored { stR y with plant := { st.plant with cycle := 1025 } }
    let late : Residency := { y with entry := 1, goNo := 5 }
    let high : Residency := { y with entry := 2, prio := 3, goNo := 9 }
    let u : State := { s with work := { s.work with residencies := [late, y, high] } }
    let queue (s : State) : List Residency := s.work.residencies.filter (fun y => y.die == 0 && y.cluster == 0 && y.queued && s.canPlace y)
    let z : Residency := { y with saved := some (rCe fAdd (tok 0 5) (tok 0 7)) }
    let v : State := { s with work := { s.work with residencies := [z] } }
    (∀ x ∈ queue u, x ≠ high → x.prio < high.prio ∨ (x.prio = high.prio ∧ high.goNo < x.goNo)) ∧ high ∈ queue u ∧ u.hasRoomFor high = true ∧
      y.prio = late.prio ∧ y.goNo < late.goNo ∧
      queue v = [z] ∧ v.hasRoomFor z = true ∧ v.bandFor 0 0 z.shape = some (0, 0) ∧ s.hasRoomFor y = true ∧
    s.work.residencies.filter (fun y => y.die == 0 && y.cluster == 0 && y.queued && s.canPlace y) = [y] ∧
      s.hasRoom y.launch 0 0 y.shape = true ∧ s.bandFor 0 0 y.shape = some (0, 0) ∧ y.saved = none ∧
      (s.die 0).spores.contains (y.cfg, y.site.part) = true ∧ s.residency? 0 0 y.entry = some y ∧ y.queued = true ∧ y.migr ≠ 0 ∧
      y.save ≠ .freeze ∧ s.servesImage y.image = true ∧ y.waiting = some (0, 1) ∧ 0 + y.migr * 1024 < s.cycle ∧ neighbours 0 1 = true ∧ ((0 : Nat) < 48 ↔ 1 < 48) ∧
      y.shape.units ≤ s.unitsSpare 0 1 ∧ s.sought 0 1 (0, 0) y.shape = false ∧ s.admits y.part 0 0 = true ∧
      s.bandFor 0 1 y.shape = some (0, 0) := by
  decide +kernel
/-- A region of a running residency that holds it, in a state. -/
def resOf (r : Region) : Residency := { residency .running r.image with region := some 50 }
def stRun (r : Region) : State := { stored (stE r) with work := { (stE r).work with residencies := [resOf r] } }
theorem test_witness_prefetch :
    let r0 := rCe fAdd (tok 0 5) (tok 0 7)
    let r := { r0 with image := { r0.image with nplanes := 2 } }
    (stRun r).region? r.rid = some r ∧ (stRun r).holderOf r = some (resOf r) ∧ r.loaded < r.image.nplanes ∧
      ((stRun r).die 0).spores.contains ((resOf r).cfg, r.site.part) = true := by decide +kernel
theorem test_witness_planeEntry :
    let e := { elem 2 3 with atEnd := true }
    let r0 := rCe fAdd (tok 0 5) (tok 0 7)
    let r := { r0 with elems := [e], loaded := 2, image := { r0.image with nplanes := 2 } }
    (stRun r).region? r.rid = some r ∧ r.served = false ∧ r.phase ≠ .frozen ∧ r.phase ≠ .halting ∧
      (stRun r).storesOut r.rid = false ∧ r.active.filter r.mayEnter = [e] := by decide +kernel
theorem test_witness_argwAndCredit :
    let r0 := rCe fAdd (tok 0 5) (tok 0 7)
    let r := { r0 with argNet := [(2, 3, true, 8#32)], arcs := (r0.arcs : List Arc).map (fun (a : Arc) => { a with inReturn := 1 }) }
    r.argNet = (2, 3, true, 8#32) :: [] ∧ r.elem? 2 3 = some (elem 2 3) ∧ (r.arcs[0]?.map (·.inReturn)) = some 1 := by decide +kernel
theorem test_witness_windowCommit :
    let b : BufStore := { addr := 0xD000000000000008#64, loc := spLoc 0 0 8, glob := false, remote := false, bytes := leBytes 8 77, tag := 0 }
    let e := { elem 2 0 with mp := { win0 := [b], rounds := 1 } }
    let r := { rMp 1 with elems := [e] }
    (stRun r).region? r.rid = some r ∧ r.served = false ∧ r.phase ≠ .frozen ∧ r.faults = [] ∧ r.windowPorts = [e] ∧ e.plane = r.windowPlane ∧ e.mp.rounds ≠ 0 ∧
      (stRun r).marred [b] = none ∧ e.mp.win0 = [b] ∧ b.glob = false ∧ b.remote = false ∧ memB (stRun r) = true ∧ r.phase ≠ .halting ∧
      (stRun r).releases r b = true := by decide +kernel
/-- Which line of the links a request takes is Config's; with nothing outstanding no line is held. -/
theorem releases_of {s : State} {r : Region} (b : BufStore) (h : s.host.outstanding = []) (ha : s.admits r.site.part r.die 3 = true) :
    s.releases r b = true := by
  simp [State.releases, State.linkAdmits, State.lineHeld, State.buffered, h, ha]
theorem test_witness_windowCommitFar :
    let b : BufStore := { addr := 0x10008#64, loc := 0x80000000040, glob := true, remote := true, bytes := leBytes 8 77, tag := 0 }
    let e := { elem 2 0 with mp := { win0 := [b], rounds := 1 } }
    let r := { rMp 1 with elems := [e] }
    (stRun r).releases r b = true ∧ (stRun r).region? r.rid = some r ∧ r.served = false ∧ r.phase ≠ .frozen ∧ r.phase ≠ .halting ∧
      r.faults = [] ∧ r.windowPorts = [e] ∧ e.plane = r.windowPlane ∧ e.mp.rounds ≠ 0 ∧ (stRun r).marred [b] = none ∧ e.mp.win0 = [b] ∧ b.remote = true ∧ memB (stRun r) = true ∧ (stRun r).host.outstanding = [] :=
 
  ⟨releases_of _ rfl (by decide +kernel), by decide +kernel⟩
theorem test_witness_drained :
    let e := { elem 2 3 with done := true }
    let r0 := rCe fAdd (tok 0 5) (tok 0 7)
    let r := { r0 with elems := [e], arcs := (r0.arcs : List Arc).map (fun (a : Arc) => { a with queue := [] }) }
    let y := resOf r
    (stRun r).residency? y.die y.cluster y.entry = some y ∧ y.region = some r.rid ∧ y.state = .running ∧ r.phase ≠ .frozen ∧ r.phase ≠ .halting ∧
      r.faults = [] ∧ r.sinksDone = true ∧ y.planes + 1 = r.image.nplanes ∧ (∀ a ∈ r.arcs, a.queue = []) ∧ r.quiet = true ∧
      y.orphan = false ∧ memB (stRun r) = true := by decide +kernel
/-- The adder with no output: a sink. -/
def rSink : Region := rCe (fAdd ^^^ at' 28 1) (tok 0 5) (tok 0 7)
def pending : PendFault :=
  { row := 2, col := 3, plane := 0, roundIn := 0, cause := 5, fcode := 0, fword := 0, frame := 0#32, detail := 0#64, heads := 0
    fin := 0, sin := 0, payload := 0#64, spilled := false, met := 0 }
theorem test_witness_faults :
    let r := { rCe fAdd (tok 0 5) (tok 0 7) with faults := [pending] }
    let q0 := rSink
    let q := { q0 with arcs := (q0.arcs : List Arc).map (fun (a : Arc) => { a with queue := a.queue.take 0 }) }
    let s : State := { stRun q with plant := { (stRun q).plant with cycle := 4096 } }
    (stRun r).holderOf r = some (resOf r) ∧ (resOf r).orphan = false ∧ (resOf q).state = .running ∧ q.toMove = true ∧ r.deciding = some pending ∧ r.phase ≠ .frozen ∧
      s.region? q.rid = some q ∧ s.holderOf q = some (resOf q) ∧ q.faults = [] ∧ q.sinksDone = false ∧ q.stalled = some (elem 2 3) ∧
      (∀ a ∈ q.arcs, a.inReturn = 0) ∧ (∀ x ∈ q.elems, ∀ p ∈ x.mp.spill, p.onCell = none) ∧
      q.lastMove + q.excusedNow + 4096 ≤ s.cycle := by decide +kernel
theorem test_witness_saving :
    let r0 := rSink
    let r := { r0 with phase := RegionPhase.draining, arcs := (r0.arcs : List Arc).map (fun (a : Arc) => { a with queue := [] }) }
    let z := { r0 with phase := RegionPhase.halting }
    let w := { r0 with elems := [{ elem 2 3 with atEnd := true }], image := { r0.image with nplanes := 2 } }
    let c := { r with phase := RegionPhase.crossing, image := { r.image with nplanes := 2 } }
    let m := rMe {} (fMe 3) (tok 0 5) (tok 1 1)
    let put (r : Region) (k : SaveKind) : State := { stRun r with work := { (stRun r).work with residencies := [{ resOf r with save := k }] } }
    (stRun r0).runningAt 0 0 0 = some (resOf r0, r0) ∧ r0.faults = [] ∧ (resOf r0).save = .noSave ∧ r0.phase = .running ∧
      (resOf r0).image.persists = true ∧ (resOf m).image.persists = false ∧ (stRun m).runningAt 0 0 0 = some (resOf m, m) ∧
      r0.wave = false ∧ m.wave = false ∧ m.phase = .running ∧ m.faults = [] ∧ (stRun w).runningAt 0 0 0 = some (resOf w, w) ∧ w.wave = true ∧
      w.phase = .running ∧ r.phase = .draining ∧ (resOf r).image.persists = true ∧
      (put c (.requested 0)).runningAt 0 0 0 = some ({ resOf c with save := .requested 0 }, c) ∧ c.crossed = true ∧ c.atBoundary = true ∧
      c.sinksDone = false ∧ (put { m with phase := .crossing } (.requested 0)).runningAt 0 0 0 =
        some ({ resOf m with save := .requested 0 }, { m with phase := .crossing }) ∧ ({ m with phase := .crossing } : Region).crossed = true ∧
      (put r (.requested 0)).runningAt 0 0 0 = some ({ resOf r with save := .requested 0 }, r) ∧ r.atBoundary = true ∧
      r.sinksDone = false ∧ 0 + 65536 ≤ ({ put r (.requested 0) with plant := { st.plant with cycle := 65536 } } : State).cycle ∧
      (put z .freeze).runningAt 0 0 0 = some ({ resOf z with save := .freeze }, z) ∧ z.phase = .halting ∧ z.begun = false ∧ r.phase ≠ .frozen := by decide +kernel
/-! ### Paging, links, circuits -/

def faultAt (r : Router) : FaultMsg := { router := r, port := 3, part := 0, asid := 0, page := 16, kinds := 1, mp := false }
def entryAt (r : Router) (ports : List Nat) : RouterEntry :=
  { router := r, part := 0, asid := 0, page := 16, ports := ports, kinds := 1, mp := false, fid := 0, delivered := true }
def replyAt (r : Router) : ReplyMsg := { router := r, part := 0, asid := 0, page := 16, fatal := false, ret := 0#32 }
/-- A state with these faults, router entries and replies under way, and the pager of partition 0 on die 0. -/
def stP (fs : List FaultMsg) (es : List RouterEntry) (ps : List ReplyMsg) : State :=
  { st.setPart 0 { st.part 0 with dies := (st.part 0).dies.set 0 { spl := 1 } } with
            others := [{ st.self with id := { st.self.id with uid := 7, ctx := .pager, slot := 3, sid := some 0x203#16 } }]
            cells := { st.cells with faults := fs, routers := es, replies := ps } }
theorem test_witness_pageFaults :
    let m := faultAt (.cluster 0 9)
    let u := faultAt (.root 0)
    let s := stP [m] [] []
    let r := stP [u] [] []
    s.cells.faults[0]? = some m ∧ (stP [m] [entryAt (.cluster 0 9) [4]] []).cells.routers.any (fun x => x.is m.router 0 0 16) = true ∧
      s.cells.routers.any (fun x => x.is m.router 0 0 16) = false ∧ s.routerRoom m.router 0 = true ∧ m.router.parent = some (.row 0 1, 1) ∧
      r.windowOn 0 0 = true ∧ r.cells.routers.any (fun x => x.is u.router 0 0 16) = false ∧ r.routerRoom u.router 0 = true ∧
      (r.pagerOf 0 0).any (fun y => r.strand? y.id.uid == some y && decide (y.q.q0.length < 8)) = true ∧
      (∀ x ∈ r.cells.routers, x.router = .root 0 → x.part = 0 → x.delivered = true) ∧
      (∀ x ∈ r.cells.faults.eraseIdx 0, x.like 0 0 16 = false) := by decide +kernel
/-- A fault that merges at its cluster's router while the entry of its page at the root has not been delivered, with another on
its way above. -/
theorem test_witness_pageMerges :
    let m := { faultAt (.cluster 0 9) with kinds := 2 }
    let s := stP [m, faultAt (.row 0 1)] [entryAt (.cluster 0 9) [4], { entryAt (.root 0) [1] with delivered := false }] []
    s.cells.faults[0]? = some m ∧ s.cells.routers.any (fun x => x.is m.router 0 0 16) = true ∧
      Router.row 0 1 ∈ m.router.above ∧ Router.root 0 ∈ m.router.above ∧ (faultAt (.row 0 1)).like 0 0 16 = true ∧
      s.cells.routers.any (fun x => x.is (.root 0) 0 0 16 && !x.delivered) = true := by decide +kernel
theorem test_witness_pageReplies :
    let e := entryAt (.root 0) [1]
    let c := entryAt (.cluster 0 0) [0]
    let w := { parkedOn .page with park := { (parkedOn .page).park with operand := 0x10#64 } }
    let s := stP [] [e] [replyAt (.root 0)]
    let u : State := { stP [] [{ c with page := 0 }] [{ replyAt (.cluster 0 0) with page := 0 }] with self := w }
    s.cells.replies[0]? = some (replyAt (.root 0)) ∧ s.cells.routers.find? (fun x => x.is (.root 0) 0 0 16) = some e ∧
      u.cells.replies[0]? = some { replyAt (.cluster 0 0) with page := 0 } ∧
      u.cells.routers.find? (fun x => x.is (.cluster 0 0) 0 0 0) = some { c with page := 0 } ∧ c.ports = [0] ∧
      (∀ x ∈ s.cells.faults, x.router = .root 0 → x.like 0 0 16 = false) ∧
      (∀ x ∈ u.cells.faults, x.router = .cluster 0 0 → x.like 0 0 0 = false) ∧
      (u.pageWaiters 0 0 0 0 0 0).any (fun x => x == w) = true ∧ w.live = true := by decide +kernel
/-- A reply at the root while a fault of its page stands there, from a row that the entry does not name. -/
theorem test_witness_pageReplyMeetsFault :
    let u := { faultAt (.root 0) with port := 5 }
    let s := stP [u] [entryAt (.root 0) [1]] [replyAt (.root 0)]
    s.cells.replies[0]? = some (replyAt (.root 0)) ∧ s.cells.routers.find? (fun x => x.is (.root 0) 0 0 16) = some (entryAt (.root 0) [1]) ∧
      u ∈ s.cells.faults ∧ u.router = .root 0 ∧ u.like 0 0 16 = true ∧ u.port = 5 := by decide +kernel
def peer : Peer :=
  { part := 0, remModule := 2, remPart := 1, asidx := 0, ptb := 0#64, tvec := 0#64, mine := true, theirs := true, granules := [] }
/-- Partition 0 as a VALID one with four granules. -/
def stV : State := st.setPart 0 { st.part 0 with valid := true, dies := (st.part 0).dies.set 0 { dcnt := 4 } }
def stB : State := { stV with host := { stV.host with peers := [peer] } }
/-- Which modules the domain has is Config's: with module 2 among them the binding is one within it. -/
theorem test_witness_remoteAccess (hd : Config.inDomain 2 = true) : Config.inDomain 2 = true ∧
    let bound (m : Nat) (b : Peer) : Bool := b.remModule == m && b.remPart == 1 && b.mine && b.theirs
    let x : Eclosion := { eclosion .pending with cell := 0x1000 }
    let c : State := ({ stB with cells := { stB.cells with eclosions := [x] } } : State).setTag 0x1000 .eclosing
    let f : State := stB.setTag 0x1020 .chrysalis
    let at1 := (unitsOf (0x1000 + 56) 8 32).find? (fun g => (f.charge 0 0 2 64).tag g != .value)
    let at0 := (unitsOf (0x1000 + 8) 8 32).find? (fun g => (f.charge 0 0 2 64).tag g != .value)
    f.host.peers.find? (bound 2) = some peer ∧ f.inGranules 0 0x1000 64 = true ∧ f.carved 0 0x1000 64 = false ∧ at1 = some 0x1020 ∧
      at0 = none ∧ memB (f.charge 0 0 2 64) = true ∧ f.admits 0 (paDie 0x1000) 2 = true ∧ f.admits 0 (paDie 0x1000) 3 = true ∧
      (∀ g ∈ unitsOf 0x1000 64 64, (f.charge 0 0 2 64).isPoisoned g = false) ∧ 0x1000 % 64 = 0 ∧
      w64 ((2 ^ 8 - 1) * 2 ^ 8) = 0xFF00#64 ∧
    w64 ((2 ^ 8 - 1) * 2 ^ 56) = 0xFF00000000000000#64 ∧ 56 + 8 ≤ 64 ∧ stB.inGranules 0 0x1000 64 = true ∧
      (∀ g ∈ unitsOf 0x1000 64 32, (stB.charge 0 0 2 64).tag g = .value) ∧ memB (stB.charge 0 0 2 64) = true ∧
      stB.host.peers.find? (bound 3) = none ∧ stB.host.peers.find? (bound 2) = some peer ∧ stB.inGranules 0 0x1000 8 = true ∧
      stB.carved 0 0x1000 8 = false ∧ 0x1000 % 8 = 0 ∧ stB.admits 0 (paDie 0x1000) 2 = true ∧
      (∀ g ∈ unitsOf 0x1000 8 32, (stB.charge 0 0 2 8).tag g = .value) ∧ memB (stB.charge 0 0 2 8) = true ∧
      (∀ g ∈ unitsOf 0x1000 8 64, (stB.charge 0 0 2 8).isPoisoned g = false) ∧
      unitsOf 0x1000 64 64 = [0x1000] ∧ unitsOf 0x1000 64 32 = [0x1000, 0x1020] ∧ stB.admits 0 (paDie 0x1000) 3 = true ∧
      c.host.peers.find? (bound 2) = some peer ∧ c.inGranules 0 0x1000 8 = true ∧ c.carved 0 0x1000 8 = false ∧
      0x1000 % 32 = 0 ∧ c.admits 0 (paDie 0x1000) 2 = true ∧ c.admits 0 (paDie 0x1000) 3 = true ∧ memB (c.charge 0 0 2 8) = true ∧
      (∀ g ∈ unitsOf 0x1000 8 64, (c.charge 0 0 2 8).isPoisoned g = false) ∧ (c.charge 0 0 2 8).tag 0x1000 = .eclosing ∧
      ((c.charge 0 0 2 8).eclosionOf 0x1000) = some x ∧ ((c.charge 0 0 2 8).enqueue x (.remote 2 5)).isSome = true :=
  ⟨hd, by decide +kernel⟩
theorem test_witness_requests :
    let o : Outstanding := { pendingStore with op := 0, waiter := some (.strand 1) }
    let w : Strand := { st.self with waits := { remote := some 4 } }
    let s : State := { st with self := w, host := { st.host with outstanding := [o] } }
    let u : State := { st with host := { st.host with outstanding := [pendingStore] } }
    let f : State := { s with host := { st.host with outstanding := [{ o with op := 18 }] } }
    let p := { parkedOn .cell with park := { (parkedOn .cell).park with far := some (4, 0) } }
    let x : State := { st with plant := { st.plant with time := 1000000#64 }
                               host := { st.host with outstanding := [{ pendingStore with op := 0 }] } }
    s.request? 4 = some o ∧ o.isStore = false ∧ o.copy = none ∧ o.waiter = some (.strand s.self.id.uid) ∧
      s.strand? s.self.id.uid = some s.self ∧ s.self.waits.remote = some 4 ∧ 4 ≠ s.fresh ∧ s.canTrap ∧ u.request? 4 = some pendingStore ∧
      pendingStore.isStore = true ∧ x.request? 4 = some { pendingStore with op := 0 } ∧
      pendingStore.since.toNat + 1000000 ≤ x.plant.time.toNat ∧ pendingStore.port < 36 ∧ pendingStore.copy = none ∧
      pendingStore.waiter = none ∧ o.op ≠ 18 ∧ o.op ≠ 19 ∧ pendingStore.sent = true ∧
      ({ u with host := { u.host with outstanding := [{ pendingStore with sent := false }] } } : State).request? 4 =
        some { pendingStore with sent := false } ∧ f.request? 4 = some { o with op := 18 } ∧ ({ o with op := 18 } : Outstanding).isStore = false ∧
      (stAt 0 p).strand? p.id.uid = some p ∧ p.parkedFor .cell = true ∧ p.park.far.map (·.1) = some 4 := by unfold State.canTrap; decide +kernel
/-- A circuit port at row 0 bound to circuit 5 of a module: the receive end, its outputs at port 0. -/
def fCirc (send : Bool) : BitVec 256 := at' 0 5 ||| at' 9 0 ||| (if send then at' 22 1 else 0#256) ||| at' 30 1 ||| at' 45 7
def circWord (m : Nat) (send : Bool) : Word := w64 (5 + m * 2 ^ 15 + (if send then 2 ^ 24 else 0) + 2 ^ 63)
def rCirc (m : Nat) (send opened : Bool) (q : List (Nat × Token)) : Region :=
  let e := { elem 0 0 with mp := { isOpen := opened, reseq := q } }
  { regionOf e (fCirc send) [] with binds := [(0, [(3, circWord m send)])] }
theorem test_witness_circuits :
    let r := rCirc 9 false false []
    let u := rCirc 9 false true []
    let e (x : Region) : Elem := (x.elem? 0 0).getD (elem 0 0)
    let at0 (x : Region) (m : Nat) : Bool :=
      (stE x).region? x.rid == some x && x.circuitAt 0 == some (e x, fCirc false, circWord m false) && (stE x).runs x && (e x).col == 0
    at0 r 9 = true ∧ at0 u 9 = true ∧ bits (circWord 9 false) 23 15 ≠ (stE r).plant.modNum ∧ (e r).mp.isOpen = false ∧
      (circWord 9 false).getLsbD 24 = false ∧ (e u).mp.isOpen = true ∧ (e u).mp.expect = 0 ∧ (e u).mp.reseq = [] ∧
      (63 + 65536 - (e u).mp.expect) % 65536 < 64 ∧ (63 : Nat) ≠ 0 ∧ (e u).mp.rounds ≠ 2 ∧ u.free (e u) = true ∧ (e u).atEnd = false ∧
      (e u).todo = [] ∧ u.accepts (e u) (outsOf 0 (fCirc false)) = true ∧ (tok 2 7).kind ≤ 2 ∧ outsOf 0 (fCirc false) ≠ 0 ∧
      (e u).done = false ∧
      ({ stE r with host := { (stE r).host with peers := [{ peer with part := r.site.part, remModule := 9 }] } } : State).circuitReach
        r.site.part 9 = true := by decide +kernel
/-- The credit of a token has its carrier's room, whichever Config names, and a circuit whose end has not closed. -/
theorem test_witness_circuitCarrier :
    let r := rCirc 9 false true []
    let e : Elem := (r.elem? 0 0).getD (elem 0 0)
    (∀ line, (stE r).linkFree r.site.part r.die line = true) ∧ circuitClosed e (circWord 9 false) = false ∧
      circuitClosed { e with done := true, mp := { e.mp with credits := 63 } } (circWord 9 true) = false ∧ r.hasFaulted e = false ∧
      (stE (rCirc 0 false true [])).endLives (rCirc 0 false true []) (circWord 0 false) = false := by
  refine ⟨fun line => ?_, by decide +kernel, by decide +kernel, by decide +kernel, by decide +kernel⟩
  have ho : (stE (rCirc 9 false true [])).host.outstanding = [] := by decide +kernel
  have hq : (stE (rCirc 9 false true [])).host.linkQueue = [] := by decide +kernel
  have ha : (stE (rCirc 9 false true [])).admits (rCirc 9 false true []).site.part (rCirc 9 false true []).die 3 = true := by decide +kernel
  cases line <;> simp [State.linkFree, State.lineHeld, ho, hq, ha]
theorem test_witness_circuitsHere :
    let r := rCirc 0 false false []
    let x := { rCirc 0 true false [] with rid := 51, cluster := 1, holder := .stream 0 1 0 }
    let s : State := { stE r with work := { (stE r).work with
      regions := [r, x]
      residencies := [{ residency .running r.image with region := some 50 },
        { residency .running x.image with cluster := 1, region := some 51 }] } }
    let e := (r.elem? 0 0).getD (elem 0 0)
    s.region? r.rid = some r ∧ e.col = 0 ∧ r.elem? e.row 0 = some e ∧ r.circuitAt e.row = some (e, fCirc false, circWord 0 false) ∧
      s.runs r = true ∧ e.mp.isOpen = false ∧ bits (circWord 0 false) 23 15 = s.plant.modNum ∧
      (s.otherEnd r (circWord 0 false)).isSome = true ∧ ({ s with work := { s.work with regions := [r] } } : State).otherEnd r (circWord 0 false) = none := by
  decide +kernel

/-! ### Hosts, sessions, commands -/

/-- A launch message: FORMAT 1, die 0, tag 9, the graph's handle, ASIDX 0, a page table and a vector. -/
def launchMsg (graph : Nat) : BitVec 512 :=
  BitVec.ofNat 512 (1 + 9 * 2 ^ 32 + graph * 2 ^ 64 + 0x1000 * 2 ^ 192 + 0x40 * 2 ^ 256)
def stFn (x : HostFn) (run : Bool) : State :=
  let s := stL im0
  let s := s.setDie 0 { s.die 0 with trained := true }
  (s.setPart 0 { s.part 0 with tstate := if run then .run else .locked, asidCnt := 4
                               dies := (s.part 0).dies.set 0 { dcnt := 4, spl := 1 } }).setFn 0 x
theorem test_witness_mailbox :
    let full := List.replicate 16 (launchMsg 256, true)
    (stFn {} true).dead 0 = false ∧ ((stFn {} true).fn 0).mailbox.length < 16 ∧ 16 ≤ ((stFn { mailbox := full } true).fn 0).mailbox.length ∧
      (stFn { mailbox := full } true).roomForFull 0 = true ∧ ((stFn { mailbox := full } true).fn 0).fullCount = 0 ∧
      ((stFn { fifo := [statusRec 1 0 0 0 9] } true).fn 0).fifo = statusRec 1 0 0 0 9 :: [] := by decide +kernel
theorem test_witness_admission :
    let s (run : Bool) (g : Nat) : State := stFn { mailbox := [(launchMsg g, true)] } run
    let m := launchMsg 256
    let bad : BitVec 512 := m + BitVec.ofNat 512 2048
    let far : BitVec 512 := m + BitVec.ofNat 512 (9 * 2 ^ 128)
    ((stFn { mailbox := [(m, false)] } true).fn 0).mailbox = (m, false) :: [] ∧ (stFn { mailbox := [(m, false)] } true).roomToAdmit 0 = true ∧
      ((stFn { mailbox := [(bad, true)] } true).fn 0).mailbox = (bad, true) :: [] ∧ badFormat bad = true ∧
      ((stFn { mailbox := [(far, true)] } true).fn 0).mailbox = (far, true) :: [] ∧ badFormat far = false ∧
      (graph im0).kernels[bits (msgWord far 2) 15 0]? = none ∧ (s true 999).graphOf 0 (msgWord (launchMsg 999) 1) = none ∧
      badFormat (launchMsg 999) = false ∧
      ((s true 256).fn 0).mailbox = (m, true) :: [] ∧ (s true 256).roomToAdmit 0 = true ∧ ((s false 256).part 0).tstate ≠ .run ∧
      ((s true 256).part 0).tstate = .run ∧ badFormat m = false ∧ ((s true 256).die (bits (msgWord m 0) 10 8)).trained = true ∧
      (s true 256).graphOf 0 (msgWord m 1) = some (graph im0) ∧ (graph im0).kernels[bits (msgWord m 2) 15 0]? = some kernel ∧
      (s true 256).refusals 0 0 m (graph im0) { kernel with cells := 2 ^ 18 + 1 } = 7 :: [] ∧
      (s true 256).refusals 0 0 m (graph im0) kernel = [] := by decide +kernel
theorem test_witness_launchEnds :
    let l := launch
    let s : State := { stL im0 with self := {}, others := [] }
    s.launch? 0 0 = some l ∧ l.part = 0 ∧ s.liveOf (.launch 0 0) = 0 ∧ (∀ c ∈ s.work.copies, c.site.ctx ≠ .launch 0 0) ∧
      (∀ y ∈ s.work.residencies, y.launch ≠ (0, 0)) := by decide +kernel
theorem test_witness_hostPort :
    let s := stFn { reports := [⟨1#64, 2#64, 3#64, 4#64⟩], pba := 2#64 } true
    let u := s.setPart 1 { s.part 1 with tstate := .locked }
    s.dead 0 = false ∧ (s.fn 0).done = true ∧ (63 : Nat) < 64 ∧ (u.part 1).tstate = .locked ∧ (s.part 2).tstate = .unlocked ∧
      (1#128 <<< 96).getLsbD 96 = true ∧ (0#128).getLsbD 96 = false ∧ (s.fn 0).pba.getLsbD 1 = true ∧ (s.fn 0).pba.getLsbD 0 = false ∧
      s.absent 0 = false ∧ s.absent 1 = false ∧
      ({ s with plant := { s.plant with bring := .recovery } } : State).absent 1 = true ∧
      ((s.setPart 2 { s.part 2 with tstate := .error }).part 2).tstate = .error ∧
      ({ s with agenda := [.outside (.barRead 0 0x80 8)] } : State).agenda = .outside (.barRead 0 0x80 8) :: [] ∧
      0x13F8 % 8 = 0 ∧ 0x3FF8 < 0x4000 ∧ (0x40 : Nat) % 8 = 0 ∧
      (s.fn 0).reports = ⟨1#64, 2#64, 3#64, 4#64⟩ :: [] ∧ (s.fn 0).eqTail + 1#8 ≠ (s.fn 0).eqHead := by decide +kernel
/-- What a function's window maps is Config's: with address 0 at physical address 0x1000 of an unencrypted page, the request is
allowed; a partition that is not VALID has no request allowed, wherever the window leads. -/
theorem test_witness_hostDma (h : Config.dmaWindow 0 0 = (0x1000, 1)) :
    dmaParts 0 3 0 8 = [(0x1000, 1, 8)] ∧ stV.dmaAllowed 0 false [(0x1000, 1, 8)] = true ∧ stV.dmaAdmits 0 [(0x1000, 1, 8)] = true ∧
      (∀ g ∈ unitsOf 0x1000 8 64, ((stV.charge 0 0 2 8).useKeys 0 1 0x1000 8).isPoisoned g = false) ∧
      (∀ g ∈ unitsOf 0x1000 8 32, ((stV.charge 0 0 2 8).useKeys 0 1 0x1000 8).tag g = .value) ∧
      ((stV.charge 0 0 2 8).useKeys 0 1 0x1000 8).memOk := by
  refine ⟨by simp [dmaParts, h], by decide +kernel, by decide +kernel, by decide +kernel, by decide +kernel, ?_⟩
  exact State.memOk_useKeys _ (by unfold State.memOk; decide +kernel) _ _ _ _
theorem test_witness_hostDmaRefused : State.reset.dmaAllowed 1 true (dmaParts 1 3 0 8) = false := by
  simp only [dmaParts, State.dmaAllowed, State.inGranules, show (State.reset.part 1).valid = false from rfl]
  simp
def session (part : Nat) : Session := { num := 1, part := some part, up := true }
def stSpdm (phase : Nat) (t : TState) : State :=
  let s : State := { st with plant := { st.plant with bring := .full } }
  let s := s.setFn 1 { s.fn 1 with ide := true }
  (s.setPart 1 { s.part 1 with tstate := t, valid := true }).setSpdm { phase := phase, sessions := [session 1], nextNum := 2 }
theorem test_witness_attestation :
    let s := stSpdm 3 .unlocked
    let y := s.setSpdm { s.host.spdm with measured := [7#256] }
    let u := stSpdm 3 .locked
    let x := { s with host := { s.host with spdm := { s.host.spdm with sessions := [session 2] } } }
    let writing := s.setFn 0 { s.fn 0 with running := some 257#64, done := false }
    s.spdmUp = true ∧ (stSpdm 1 .unlocked).host.spdm.phase = 1 ∧ (stSpdm 2 .unlocked).host.spdm.phase = 2 ∧ s.host.spdm.phase = 3 ∧
      s.session? 1 = some (session 1) ∧ (session 1).up = true ∧ (session 1).part = some 1 ∧ (s.part 1).tstate = .unlocked ∧
      (s.part 1).valid = true ∧ (u.part 1).tstate = .locked ∧ (u.fn 1).ide = true ∧ x.session? 1 = some (session 2) ∧
      (session 2).part ≠ some 1 ∧ (s.part 1).tstate ≠ .locked ∧
      (s.part 1).raced = false ∧ ((s.setPart 1 { s.part 1 with raced := true }).part 1).raced = true ∧
      (writing.pfWrites 1 = true ∧ writing.session? 1 = some (session 1) ∧ writing.spdmUp = true) ∧ s.pfWrites 1 = false ∧ u.pfWrites 1 = false ∧ x.pfWrites 1 = false ∧ u.session? 1 = some (session 1) ∧ y.spdmUp = true ∧
      y.host.spdm.measured.head? = some 7#256 ∧ y.host.spdm.phase = 3 := by decide +kernel
/-- A command word waits at a function, with request words. -/
def stCmd (fn op : Nat) (rest : Nat) (rq : List Word) (t : TState) : State :=
  let s : State := { stL im0 with plant := { st.plant with bring := .full } }
  let s := s.setPart 0 { s.part 0 with tstate := t, asidCnt := 4, dies := (s.part 0).dies.set 0 { dcnt := 4, spl := 1 } }
  s.setFn fn { s.fn fn with running := some (w64 (op + rest)), done := false
                            request := Vector.ofFn (fun i : Fin 31 => rq.getD i.val 0#64) }
/-- The word is pending, of opcode `op` and sound. -/
def okCmd (s : State) (fn op : Nat) : Bool :=
  match s.pending fn with
  | some w => bits w 7 0 == op && bits w 63 14 == 0 && (decide (7 < op) || fn == 0) && s.plant.bring != .recovery
  | none => false
theorem test_witness_commandOpcodes :
    ((stCmd 0 0 0 [] .run).pending 0).isSome = true ∧ ((stCmd 0 15 0 [] .run).pending 0).map (fun w => bits w 7 0) = some 15 ∧
      ((stCmd 1 7 0 [] .run).pending 1).map (fun w => bits w 7 0) = some 7 ∧ (1 : Nat) ≠ 0 := by decide +kernel
theorem test_witness_partCommands :
    let s := stCmd 0 1 256 [4#64] .unlocked
    let bad := stCmd 0 1 256 [8#64] .unlocked
    okCmd s 0 1 = true ∧ commandPart 0 1 257#64 = 1 ∧ (s.part 1).tstate = .unlocked ∧ s.partSetCode 1 (s.rq 0) = 0 ∧
      okCmd bad 0 1 = true ∧ bad.partSetCode 1 (bad.rq 0) ≠ 0 ∧ okCmd (stCmd 0 2 256 [] .run) 0 2 = true ∧
      okCmd (stCmd 0 3 0 [] .unlocked) 0 3 = true ∧ okCmd (stCmd 0 5 0 [1#64] .run) 0 5 = true ∧
      (∀ i, i < 8 → 4 ≤ i → (stCmd 0 5 0 [1#64] .run).rq 0 i = 0#64) ∧ okCmd (stCmd 0 6 0 [] .run) 0 6 = true ∧
      okCmd (stCmd 0 13 0 [] .run) 0 13 = true := by decide +kernel
/-- A record whose VERSION is 0 fails, whatever the identity. -/
theorem test_witness_debugInstallRefused : okCmd (stCmd 0 3 0 [] .unlocked) 0 3 = true ∧
    ((stCmd 0 3 0 [] .unlocked).part 0).tstate = .unlocked ∧ policyOk 0 ((stCmd 0 3 0 [] .unlocked).policyOf 0) = false := by
  refine ⟨by decide +kernel, by decide +kernel, ?_⟩
  have h : (recField ((stCmd 0 3 0 [] .unlocked).policyOf 0) 0 2 == 1) = false := by decide +kernel
  unfold policyOk; rw [h]; rfl
/-- Which policy records verify depends on the fused identity and on SM2, which are Config's. -/
theorem test_witness_debugPolicy (h : identityDigest = 5#256) (hs : ∀ d sig key, Config.sm2Verify key d sig = true) :
    policyOk 0 (BitVec.ofNat 1344 (1 + 9 * 2 ^ 24 + 5 * 2 ^ 64)) = true := by
  unfold policyOk; rw [h]; simp only [hs, Bool.and_true]; decide +kernel
theorem test_witness_debugRead :
    let s := stCmd 0 4 0 [3#64, 0xD000000000000010#64, 192#64] .run
    let u := s.setPart 0 { s.part 0 with debugBits := 8#8 }
    okCmd u 0 4 = true ∧ u.rq 0 0 = 3#64 ∧ (u.part 0).debugBits.getLsbD 3 = true ∧ (u.rq 0 2).toNat ≤ 192 ∧
      u.debugLoc 0 (u.rq 0 1) (u.rq 0 2).toNat = some (spLoc 0 0 16) ∧ okCmd s 0 4 = true ∧ (s.part 0).debugBits.getLsbD 3 = false := by
  decide +kernel
theorem test_witness_peerAndPager :
    let s := stCmd 0 7 0 [511#64, 63#64, 3#64] .run
    let u := stCmd 0 10 0 [0x1000#64, 3#64] .run
    okCmd s 0 7 = true ∧ (s.part 0).tstate = .run ∧ (s.rq 0 0).toNat < 512 ∧ (s.rq 0 0).toNat ≠ s.plant.modNum ∧ (s.rq 0 1).toNat < 64 ∧
      (s.rq 0 2).toNat < (s.part 0).asidCnt ∧ okCmd u 0 10 = true ∧ (u.rq 0 1).toNat < (u.part 0).asidCnt := by decide +kernel
def stStopped (op : Nat) (k : Word) : State :=
  { stCmd 0 op 0 [0#64] .run with self := { st.self with st := .parked, park := { reason := .stopped, operand := k } } }
def stopped (op : Nat) (k : Word) : Bool :=
  let s := stStopped op k
  okCmd s 0 op && !(s.lacksHalt 0 0) && (s.stoppedStrand 0 (s.rq 0 0).toNat).any (fun q => q.2 == k.toNat && s.strand? q.1.id.uid == some q.1)
theorem test_witness_stoppedStrands : stopped 8 1#64 = true ∧ stopped 8 2#64 = true ∧ stopped 8 3#64 = true ∧ stopped 9 1#64 = true := by
  decide +kernel
theorem test_witness_strandKill : (stStopped 9 1#64).unacked 1 = false ∧ ((stStopped 9 1#64).all.map (·.id.uid)).Nodup := by decide +kernel
theorem test_witness_graphUnload :
    let s := stCmd 0 12 0 [256#64] .run
    let u : State := { s with work := { s.work with launches := [] } }
    okCmd s 0 12 = true ∧ s.work.graphs.find? (fun g => g.part == 0 && g.loaded && g.gen * 256 + g.slot == (s.rq 0 0).toNat) = some (graph im0) ∧
      s.graphBusy (graph im0) = true ∧ u.graphBusy (graph im0) = false := by decide +kernel
theorem test_witness_subscribe :
    let s := stCmd 0 14 0 [0#64, 0#64] .run
    let u := stCmd 0 14 0 [10#64, 5#64, 0xD000000000000008#64] .run
    okCmd s 0 14 = true ∧ bits (s.rq 0 0) 63 28 = 0 ∧ bits (s.rq 0 1) 63 32 = 0 ∧ bits (s.rq 0 0) 7 0 = 0 ∧ bits (s.rq 0 0) 17 12 ≠ 1 ∧
      okCmd u 0 14 = true ∧ bits (u.rq 0 0) 63 28 = 0 ∧ bits (u.rq 0 0) 7 0 = 10 ∧ bits (u.rq 0 0) 17 12 ≠ 1 ∧
      (u.rq 0 2).toNat % 8 = 0 ∧ (u.notifyLoc 0 0 0 (u.rq 0 2)).isSome = true := by decide +kernel
theorem test_witness_peerEnd : stB.host.peers.any (fun b => b.of 0 2 1) = true := by decide
theorem test_witness_peerRequest : ((stCmd 0 7 0 [] .run).part 0).tstate = .run ∧ ((stCmd 0 7 0 [] .locked).part 0).tstate ≠ .run := by
  decide +kernel
/-- A container of one empty section, at 0x100000 of DRAM, and a page table at 0x400000 that maps the first 2 MiB of addresses for
reading and execution. -/
def container : List Byte := leBytes 8 0x0001000147445648 ++ leBytes 8 0 ++ leBytes 8 0x0000006000000000 ++ List.replicate 40 0#8 ++
  leBytes 4 6 ++ leBytes 4 96 ++ List.replicate 24 0#8
def stGraph : State :=
  let p : Partition := { tstate := .run, valid := true, asidCnt := 4, dies := Vector.replicate 8 { dcnt := 4 } }
  let f : HostFn := { running := some 11#64, done := false, request := #v[0x100000, 96, 0, 0x400000, 0, 0x10000, 0, 0, 0, 0, 0, 0, 0, 0, 0, 0,
    0, 0, 0, 0, 0, 0, 0, 0, 0, 0, 0, 0, 0, 0, 0] }
  { m := { mem := [(0x100000, 0x48#8), (0x100001, 0x56#8), (0x100002, 0x44#8), (0x100003, 0x47#8), (0x100004, 1#8), (0x100006, 1#8),
      (0x100014, 0x60#8), (0x100040, 6#8), (0x100044, 0x60#8), (0x400000, 1#8), (0x400002, 0x60#8), (0x600000, 1#8),
      (0x600002, 0x70#8), (0x700000, 0x37#8)] }
    host := { parts := Vector.replicate 64 p, fns := Vector.replicate 64 f }
    plant := { bring := .full } }
def siteGraph : Site := siteOf 0 0 0x400000#64
theorem test_stGraph_caches_nothing : stGraph.cacheEntries siteGraph 0 = [] := by decide +kernel
/-- The size of the cached translation is the translator's own (Config): with one of 64 bytes the load passes. -/
theorem test_witness_graphLoad (h : Config.cacheSize (stGraph.cacheKey container) = 64) :
    okCmd stGraph 0 11 = true ∧ stGraph.inGranules 0 0x100000 96 = true ∧ stGraph.rdBytes 0x100000 96 = container ∧
      stGraph.loadCode siteGraph 0x100000 96 0 0 0x10000 (containerOf container) = 0 := by
  refine ⟨by decide +kernel, by decide +kernel, by decide +kernel, ?_⟩
  have len : (stGraph.entryBytes siteGraph.part (stGraph.cacheKey container)).length = 64 := by
    simp [State.entryBytes, h, leBytes]
  have use : (stGraph.cacheUse siteGraph 0 0x10000 (stGraph.cacheKey container)).isNone = false := by
    unfold State.cacheUse; rw [test_stGraph_caches_nothing, len]; rfl
  have bytes : (containerOf container).bytes = container := rfl
  have images : (containerOf container).images = [] := by decide +kernel
  unfold State.loadCode
  simp only [bytes, use, images]
  have part : siteGraph.part = 0 := rfl
  rw [part]
  have a : ((stGraph.part 0).tstate ≠ .run) = False := by decide +kernel
  have b : (!(stGraph.inGranules 0 0x100000 96) || !(containerOk container 96)) = false := by decide +kernel
  have c : (BitVec.ofNat 64 (byteField container 8 8) &&& ~~~featureVector ≠ 0#64) = False := by decide +kernel
  have d : (1 < byteField container 16 2) = False := by decide +kernel
  have e : (!((ofKind (containerOf container).sections 1).all (fun y => textOk (wordsOf (y.bytes container))))) = false := by decide +kernel
  have g : (stGraph.freeSlot 0).isNone = false := by decide +kernel
  have i : routed (containerOf container) (stGraph.cacheKey container) = true := by simp [routed, images]
  simp [a, b, c, d, e, g, i]
  exact ⟨⟨by decide +kernel, by decide +kernel⟩, by decide +kernel⟩

/-! ### Power, periods, reliability -/

theorem test_witness_periods :
    let p := st.plant.power
    let s : State := { st with plant := { st.plant with time := 64000#64 } }
    p.periods < s.plant.time.toNat / 64000 ∧ p.intervals < s.plant.time.toNat / 10000 ∧
      (3600 ≤ p.plim ∧ p.plim ≤ 3500 + 100) ∧ p.plim < 3601 ∧ 1 < p.broadFrac ∧ 1 < p.narrowFrac ∧ p.arbNotch < 7 ∧
      (let y : State := { st with plant := { st.plant with time := 1000000#64 } }
       p.windows < y.plant.time.toNat / 1000000 ∧ y.windowDue = true ∧ y.ownBusy = 1000000 ∧ y.ownBusy ≠ 5 ∧
         ({ st with plant := { st.plant with time := 999999#64 } } : State).windowDue = false) ∧
      s.slowestPeer = none ∧
      (let x := stE (rCirc 9 false true [])
       ({ x with plant := { x.plant with power := { p with peers := [(9, true, 50), (8, true, 20)] } } } : State).slowestPeer = some 50) ∧
      ({ p with broadFrac := 1, narrowFrac := 1 } : Power).broadFrac = 1 := by decide +kernel
theorem test_witness_droopAndHeat :
    let d := st.die 7
    d.droopEn = true ∧ d.droopMv ≤ 20 ∧ (st.cluster 7 0).freeze ≤ st.cycle ∧ d.credHot ≤ 95 ∧ 89 + d.credHyst < d.credHot ∧
      90 < d.credHot ∧ d.credHot ≤ 90 + d.credHyst ∧
      d.sampledAt.any (fun x => x.1 == 0 && x.2.1 == 0 && x.2.2.1 == 0 && x.2.2.2 == st.plant.time.toNat / 10000) = false ∧
      (({ d with sampledAt := [(0, 0, 0, 0)] } : Die).sampledAt.any (fun x => x.1 == 0 && x.2.1 == 0 && x.2.2.1 == 0 &&
        x.2.2.2 == st.plant.time.toNat / 10000)) = true ∧ isDram (spLoc 0 0 8) = false ∧
      Outside.real (.droopctl 7 0#64) = true ∧ Outside.real (.droopctl 8 0#64) = false ∧ Outside.real (.barRead 63 0 4096) = true ∧
      Outside.real (.barRead 63 0 4097) = false := by decide +kernel
theorem test_witness_failures :
    let s := st.setPart 0 { st.part 0 with tstate := .run }
    let u : State := { st with self := {} }
    s.usesCluster 0 0 0 = true ∧ (s.part 0).tstate = .run ∧ (u.cluster 0 0).failed = false ∧ (u.die 0).spareUsed = false ∧
      u.clusterClear 0 0 = true := by decide +kernel
theorem test_witness_bringUp :
    let at' (b : BringUp) : State := { State.reset with plant := { State.reset.plant with bring := b } }
    let ready : State := { at' .reduced with plant := { (at' .reduced).plant with
      dies := Vector.replicate 8 { ({} : Die) with trained := true } } }
    let full : State := { at' .full with plant := { (at' .full).plant with
      time := 1000000#64, power := { State.reset.plant.power with fallLast := some 0#64 } } }
    (at' .rom).plant.bring = .rom ∧ (at' .verify).plant.bring = .verify ∧ (at' .train).plant.bring = .train ∧ ((at' .spdm).die 7).trained = false ∧
      ((at' .spdm).die 7).failed = false ∧ ready.plant.bring = .reduced ∧ (∀ d, d < 8 → (ready.die d).trained = true) ∧
      full.plant.power.fallLast = some 0#64 ∧ (0#64).toNat + 1000000 ≤ full.plant.time.toNat ∧
      max full.plant.power.arbNotch full.plant.power.slackNotch < full.plant.power.notch - 1 := by decide +kernel

/-! ### The general statements -/

theorem test_witness_decodeOfEncode : (Instr.bfx 3#6 4#6 11#6 8#6).isStrand = true ∧ (Instr.bfx 3#6 4#6 11#6 8#6).wellFormed = true ∧
    (Instr.limm 9#6 0x12345678#32).wellFormed = true := by decide
theorem test_witness_encodeOfDecode : decode 0x203112C8#32 0#32 = .ok (.bfx 3#6 4#6 11#6 8#6) := by decide
/-- MOVI g4, 10 at the pc, with the turn at its core. -/
def stMovi : State := State.reset.withFetchWord 32 0x2C40000A
theorem test_witness_stepRunsDecoded :
    let s := stMovi
    let s0 : State := { s with agenda := [] }
    let c := s.core 0 0 0
    let t := s.self
    let e := (t.site.tlbs.findSome? (fun h => s.m.tlb.find? (fun e =>
      e.holder == h && !e.stale && e.covers t.site.part t.site.asid t.pc.toNat)))
    s.agenda = .turn 0 0 0 :: [] ∧ c.spent s.cycle = false ∧ c.reserved s.cycle = none ∧ s0.choose c = some t ∧ t.live = true ∧
      s0.deferTaker = none ∧ s0.codeOf t = .have 0x2C40000A#32 0#32 ∧ decode 0x2C40000A#32 0#32 = .ok (.movi 4#6 10#20) ∧
      (s0.space t.site .globalOnly t.pc 4).toOption.isSome = true ∧ t.pc.toNat % 4 = 0 ∧
      e.any (fun e => e.permits .fetch t.site.sMode && paModule (e.pbase + (t.pc.toNat - e.vbase)) == s.plant.modNum &&
        !(s.isPoisoned (e.pbase + (t.pc.toNat - e.vbase))) &&
        decodeBytes (s.rdBytes (e.pbase + (t.pc.toNat - e.vbase)) 4) == .ok (.movi 4#6 10#20)) = true := by decide +kernel
theorem test_witness_stepPerformsEvents :
    let s : State := { State.reset with agenda := [.event (.eqheadWrite 63 1#64)] }
    let u : State := { State.reset with agenda := [.event (.eqheadWrite 64 1#64)] }
    (Instr.eqheadWrite 63 1#64).wellFormed = true ∧ (Instr.eqheadWrite 63 1#64).isStrand = false ∧
      (Instr.eqheadWrite 64 1#64).wellFormed = false ∧ s.agenda ≠ u.agenda := by decide +kernel
theorem test_witness_stepKeepsMemOk :
    memB stMovi = true ∧ (match step stMovi with
      | .next t => memB t && t.getG 4#6 == 10#64
      | _ => false) = true := by decide +kernel
/-! ## Well-formedness: an ill-formed term for each check -/

theorem test_wf_rounding : (Instr.fadd 1#6 2#6 3#6 5#3 0#1).wellFormed = false ∧ (Instr.fsqrt 1#6 2#6 6#3 0#1).wellFormed = false ∧
    (Instr.fsub 1#6 2#6 3#6 6#3 1#1).wellFormed = false ∧ (Instr.fmul 1#6 2#6 3#6 5#3 1#1).wellFormed = false ∧
    (Instr.fdiv 1#6 2#6 3#6 5#3 0#1).wellFormed = false ∧ (Instr.fmaFma 1#6 2#6 3#6 5#3 0#1).wellFormed = false ∧
    (Instr.fmaFms 1#6 2#6 3#6 6#3 0#1).wellFormed = false ∧ (Instr.fmaFnma 1#6 2#6 3#6 5#3 0#1).wellFormed = false ∧
    (Instr.fadd 1#6 2#6 3#6 7#3 0#1).wellFormed = true := by decide
theorem test_wf_amounts : (Instr.shlImm 1#6 2#6 32#6 1#2).wellFormed = false ∧ (Instr.shrImm 1#6 2#6 32#6 1#1).wellFormed = false ∧
    (Instr.shaImm 1#6 2#6 63#6 1#1).wellFormed = false ∧ (Instr.rorImm 1#6 2#6 40#6 1#1).wellFormed = false ∧
    (Instr.rorImm 1#6 2#6 63#6 0#1).wellFormed = true := by decide
theorem test_wf_bitFields : (Instr.bfx 1#6 2#6 63#6 1#6).wellFormed = false ∧ (Instr.bfxN 1#6 2#6 1#6 63#6).wellFormed = false ∧
    (Instr.bfi 1#6 2#6 32#6 32#6).wellFormed = false ∧ (Instr.bfi 1#6 2#6 31#6 32#6).wellFormed = true := by decide
theorem test_wf_conditions : (Instr.bCond 6#3 1#6 2#6 0#11).wellFormed = false ∧ (Instr.fcmp 1#6 2#6 3#6 6#3 0#1).wellFormed = false ∧
    (Instr.vcmp 1#3 2#4 3#4 0#3 7#3).wellFormed = false ∧ (Instr.vcmpS 1#3 2#4 3#4 0#3 6#3).wellFormed = false := by decide
theorem test_wf_maskTargets : (Instr.vcmp 0#3 2#4 3#4 0#3 0#3).wellFormed = false ∧ (Instr.vcmpS 0#3 2#4 3#4 0#3 0#3).wellFormed = false ∧
    (Instr.kopAnd 0#3 1#3 2#3).wellFormed = false ∧ (Instr.kopOr 0#3 1#3 2#3).wellFormed = false ∧
    (Instr.kopXor 0#3 1#3 2#3).wellFormed = false ∧ (Instr.kopAndn 0#3 1#3 2#3).wellFormed = false ∧
    (Instr.kopSet 0#3 1#6).wellFormed = false := by decide
theorem test_wf_conversions : (Instr.fcvt 1#6 2#6 13#4 0#3 0#1 0#4).wellFormed = false ∧
    (Instr.fcvt 1#6 2#6 0#4 0#3 0#1 13#4).wellFormed = false ∧ (Instr.fcvt 1#6 2#6 9#4 0#3 0#1 9#4).wellFormed = false ∧
    (Instr.fcvt 1#6 2#6 9#4 5#3 0#1 2#4).wellFormed = false ∧ (Instr.fcvt 1#6 2#6 9#4 0#3 1#1 2#4).wellFormed = false ∧
    (Instr.vcvt 1#4 2#4 6#3 0#3 0#3 0#1 0#3).wellFormed = false ∧ (Instr.vcvt 1#4 2#4 0#3 7#3 0#3 0#1 0#3).wellFormed = false ∧
    (Instr.vcvt 1#4 2#4 2#3 2#3 0#3 0#1 0#3).wellFormed = false ∧ (Instr.vcvt 1#4 2#4 2#3 4#3 0#3 0#1 6#3).wellFormed = false ∧
    (Instr.vcvt 1#4 2#4 2#3 0#3 0#3 1#1 0#3).wellFormed = false := by decide
theorem test_wf_widths : (Instr.ld 1#6 2#6 3#2 1#1 0#11).wellFormed = false ∧ (Instr.ldx 1#6 2#6 3#6 1#1 3#2).wellFormed = false ∧
    (Instr.ldAcq 1#6 2#6 0#3 1#1 3#2).wellFormed = false ∧ (Instr.vld 1#4 2#6 3#2 0#1 0#11).wellFormed = false ∧
    (Instr.vld 1#4 2#6 2#2 1#1 0#11).wellFormed = false ∧ (Instr.vst 1#4 2#6 3#2 0#11).wellFormed = false ∧
    (Instr.vlds 1#4 2#6 3#6 0#3 0#1 3#2).wellFormed = false ∧ (Instr.vsts 1#4 2#6 3#6 0#3 3#2).wellFormed = false ∧
    (Instr.vgth 1#4 2#6 3#4 0#3 0#1 3#2).wellFormed = false ∧ (Instr.vsct 1#4 2#6 3#4 0#3 3#2).wellFormed = false := by decide
theorem test_wf_scopes : (Instr.ldAcq 1#6 2#6 6#3 0#1 0#2).wellFormed = false ∧ (Instr.stRel 1#6 2#6 6#3 0#2).wellFormed = false ∧
    (Instr.fence 6#3 1#4).wellFormed = false ∧ (Instr.fence 0#3 0#4).wellFormed = false ∧
    (Instr.amoAdd 1#6 2#6 3#6 6#3 0#1).wellFormed = false ∧ (Instr.amoFadd 1#6 2#6 3#6 7#3 0#1).wellFormed = false ∧
    (Instr.acas 1#6 2#6 3#6 6#3 0#1).wellFormed = false ∧ (Instr.tlbiPage 1#6 6#3).wellFormed = false ∧
    (Instr.tlbiAsid 1#6 7#3).wellFormed = false ∧ (Instr.tlbiPart 6#3).wellFormed = false := by decide
theorem test_wf_queues : (Instr.qbind 0#2 1#6 8#6).wellFormed = false ∧ (Instr.qbind 1#2 1#6 2#6).wellFormed = false ∧
    (Instr.qbind 1#2 1#6 13#6).wellFormed = false ∧ (Instr.qfree 0#2).wellFormed = false ∧ (Instr.qbind 3#2 1#6 12#6).wellFormed = true := by
  decide
theorem test_wf_registerGroups : (Instr.cpy2 1#6 2#6 61#6 3#6).wellFormed = false ∧ (Instr.csus 1#6 61#6).wellFormed = false ∧
    (Instr.serve 1#6 2#6 0#4 0#8).wellFormed = false ∧ (Instr.serve 1#6 2#6 0#4 9#8).wellFormed = false ∧
    (Instr.serve 1#6 60#6 0#4 5#8).wellFormed = false ∧ (Instr.cfil 0#6 1#6 2#6).wellFormed = false ∧
    (Instr.cfil 5#6 1#6 2#6).wellFormed = false ∧ (Instr.cfil 4#6 1#6 61#6).wellFormed = true := by decide
theorem test_wf_controlRegisters : (Instr.ctlr 1#6 9#12).wellFormed = false ∧ (Instr.ctlr 1#6 0x10E#12).wellFormed = false ∧
    (Instr.ctlw 1#6 0xFF#12).wellFormed = false ∧ (Instr.ctlw 1#6 1#12).wellFormed = false ∧ (Instr.ctlw 1#6 2#12).wellFormed = false ∧
    (Instr.ctlw 1#6 3#12).wellFormed = false ∧ (Instr.ctlw 1#6 8#12).wellFormed = false ∧ (Instr.ctlr 1#6 0x10D#12).wellFormed = true := by
  decide
theorem test_wf_units : (Instr.strandPlacement 8 0).wellFormed = false ∧ (Instr.strandPlacement 0 64).wellFormed = false ∧
    (Instr.ceFire 1 8 0).wellFormed = false ∧ (Instr.ceFire 1 0 16).wellFormed = false ∧ (Instr.mpLdsFire 1 8).wellFormed = false ∧
    (Instr.residencyDrained 0 0 16).wellFormed = false ∧ (Instr.residencyMigration 0 0 0 64).wellFormed = false ∧
    (Instr.evalRequestRelease 0 64).wellFormed = false ∧ (Instr.laneFailure 36).wellFormed = false ∧
    (Instr.circuitTokenArrival 1 0 65536 0 false 0#512).wellFormed = false ∧
    (Instr.circuitTokenArrival 1 0 0 16 false 0#512).wellFormed = false ∧ (Instr.launchAdmission 64).wellFormed = false ∧
    (Instr.launchComplete 0 256).wellFormed = false ∧ (Instr.msixTableWrite 0 64 0#128).wellFormed = false ∧
    (Instr.registerWrite 0 65536 0#64).wellFormed = false ∧ (Instr.hostDmaRead 0 false 0 513).wellFormed = false ∧
    (Instr.hostDmaWrite 0 false 0 (List.replicate 513 0#8)).wellFormed = false := by decide +kernel
theorem test_wf_units2 : (Instr.remoteAccessArrival 1 512 0 (0, 0, false) 8 0 0#64 0#512 0#64).wellFormed = false ∧
    (Instr.remoteAccessArrival 1 2 64 (0, 0, false) 8 0 0#64 0#512 0#64).wellFormed = false ∧
    (Instr.remoteAccessArrival 1 2 0 (23, 0, false) 8 0 0#64 0#512 0#64).wellFormed = false ∧
    (Instr.remoteAccessArrival 1 2 0 (0, 4, false) 8 0 0#64 0#512 0#64).wellFormed = false ∧ (Instr.remoteResponse 1 0#512 10).wellFormed = false ∧
    (Instr.remoteAccessArrival 1 2 0 (0, 0, false) 3 0 0#64 0#512 0#64).wellFormed = false ∧ (Instr.getCertificate 8).wellFormed = false ∧
    (Instr.challenge 8 0#256).wellFormed = false ∧ (Instr.keyExchange (some 64)).wellFormed = false ∧
    (Instr.rowTempSample 0 0 4 0 20).wellFormed = false ∧ (Instr.rowTempSample 0 0 0 8 20).wellFormed = false ∧
    (Instr.dramScrub 0 (48 * 2 ^ 24) true).wellFormed = false ∧ (Instr.dieTraining 8 true none).wellFormed = false ∧
    (Instr.peerBindingRequest 512 0 0 []).wellFormed = false ∧ (Instr.peerBindingEnd 0 64 0).wellFormed = false ∧
    (Instr.peerBindingEnd 0 0 64).wellFormed = false := by decide +kernel
/-- Words of those terms are refused by the decoder too: a rounding code 5, BFX past bit 63, a condition 6, QBIND of q0, LD with
bits 12 and 13 set beside .n, a CTLW of SID, and a reserved opcode (R97 to R112). -/
theorem test_decode_refuses :
    let no (w : BitVec 32) : Bool := match decode w 0#32 with
      | .ok _ => false
      | .error _ => true
    no 0x4C1080A0#32 ∧ no 0x20108FC1#32 ∧ no 0x3F000000#32 ∧ no 0x90050805#32 ∧ no 0x64103800#32 ∧ no 0xB0010001#32 ∧ no 0#32 := by
  decide +kernel
/-! ## Decoding: words written out from the encodings of the spec -/

/-- Each word, with the word behind it, decodes to the instruction it stands for. -/
def decodes (l : List (BitVec 32 × BitVec 32 × Instr)) : Bool :=
  l.all (fun x => match decode x.1 x.2.1 with
    | .ok i => decide (i = x.2.2)
    | .error _ => false)

/-- Words that the spec gives with their source lines (R97, R123 to R193, R348 to R351, R355). -/
theorem test_decode_examples_1 : decodes
    [ (0x2C40000A#32, 0x0#32, .movi 4#6 10#20), (0x2C500000#32, 0x0#32, .movi 5#6 0#20),
      (0x04514400#32, 0x0#32, .add 5#6 5#6 4#6 0#2), (0x08413FFF#32, 0x0#32, .addImm 4#6 4#6 0x3FFF#14),
      (0x3C8807FE#32, 0x0#32, .bCond 1#3 4#6 0#6 0x7FE#11), (0xA0000010#32, 0x0#32, .exit),
      (0x99410302#32, 0x0#32, .serve 20#6 4#6 3#4 2#8), (0x6451A002#32, 0x0#32, .ld 5#6 6#6 2#2 0#1 2#11),
      (0x54108340#32, 0x0#32, .vadd 1#4 2#4 3#4 2#3), (0x203112C8#32, 0x0#32, .bfx 3#6 4#6 11#6 8#6),
      (0x28A28B21#32, 0x0#32, .hmix 10#6 10#6 11#6 33#6), (0x04720949#32, 0x0#32, .divN 7#6 8#6 9#6 1#1),
      (0x480FC000#32, 0x0#32, .jr 63#6), (0x503102E9#32, 0x0#32, .fcvt 3#6 4#6 2#4 7#3 0#1 9#4),
      (0x4CC34EF6#32, 0x0#32, .fmaFms 12#6 13#6 14#6 7#3 1#1), (0x4C20C44A#32, 0x0#32, .fcmp 2#6 3#6 4#6 2#3 0#1),
      (0x5841406C#32, 0x0#32, .vsfuRsq 4#4 5#4 3#3), (0x6061D407#32, 0x0#32, .vcvt 6#4 7#4 2#3 4#3 0#3 0#1 7#3),
      (0x5C824227#32, 0x0#32, .venc 8#4 9#4 2#2 1#3), (0x5C21C001#32, 0x0#32, .vsplat 2#4 7#6 0#3),
      (0x5410811A#32, 0x0#32, .vcmp 1#3 2#4 1#4 0#3 2#3), (0x5C304024#32, 0x0#32, .vcmpr 3#4 1#4 1#3) ] = true := by decide +kernel

/-- Words that the spec gives with their source lines (R97, R123 to R193, R348 to R351, R355). -/
theorem test_decode_examples_2 : decodes
    [ (0x5C804010#32, 0x0#32, .kcnt 8#6 1#3), (0x5C000011#32, 0x0#32, .gang), (0x5C000012#32, 0x0#32, .split),
      (0x7451809A#32, 0x0#32, .ldAcq 5#6 6#6 3#3 0#1 2#2), (0x747180DB#32, 0x0#32, .stRel 7#6 6#6 3#3 3#2),
      (0x74518702#32, 0x0#32, .ldx 5#6 6#6 7#6 0#1 2#2), (0x6C21A002#32, 0x0#32, .vld 2#4 6#6 2#2 0#1 2#11),
      (0x78318232#32, 0x0#32, .vgth 3#4 6#6 2#4 1#3 0#1 2#2), (0x80414670#32, 0x0#32, .amoAdd 4#6 5#6 6#6 3#3 1#1),
      (0x84414680#32, 0x0#32, .acas 4#6 5#6 6#6 4#3 0#1), (0x88518002#32, 0x0#32, .ldfe 5#6 6#6 2#11),
      (0x8871A002#32, 0x0#32, .stef 7#6 6#6 2#11), (0x8C018001#32, 0x0#32, .fesetEmpty 6#6),
      (0x8C318000#32, 0x0#32, .feget 3#6 6#6), (0x7C0003F1#32, 0x0#32, .fence 3#3 15#4), (0x7C000281#32, 0x0#32, .fence 2#3 8#4),
      (0x90024A00#32, 0x0#32, .send 9#6 10#6), (0x90B00C02#32, 0x0#32, .recvG 11#6 0#2 12#6),
      (0x90150805#32, 0x0#32, .qbind 1#2 20#6 8#6), (0x94A2CC0D#32, 0x0#32, .cpy 10#6 11#6 12#6 13#6),
      (0x94034080#32, 0x0#32, .bwait 13#6), (0x9D559700#32, 0x0#32, .frld 21#6 22#6 23#6) ] = true := by decide +kernel

/-- Words that the spec gives with their source lines (R97, R123 to R193, R348 to R351, R355). -/
theorem test_decode_examples_3 : decodes
    [ (0x9C054002#32, 0x0#32, .frgo 21#6), (0xA0014601#32, 0x0#32, .spawnCluster 5#6 6#6), (0xA0020030#32, 0x0#32, .twait 8#6),
      (0xA4010800#32, 0x0#32, .csus 4#6 8#6), (0xA4204402#32, 0x0#32, .cfil 2#6 1#6 4#6), (0xA4304005#32, 0x0#32, .ctag 3#6 1#6),
      (0xA8000500#32, 0x0#32, .trap 5#6), (0xA8000001#32, 0x0#32, .eret), (0xA8000002#32, 0x0#32, .brk),
      (0xAC400005#32, 0x0#32, .ctlr 4#6 5#12), (0xB0010004#32, 0x0#32, .ctlw 4#6 4#12),
      (0xA000C400#32, 0x0#32, .spawnCore 3#6 4#6), (0x89019001#32, 0x0#32, .ldff 16#6 6#6 1#11),
      (0x9C654B01#32, 0x0#32, .frbind 6#6 21#6 11#6), (0x9C054004#32, 0x0#32, .frwait 21#6),
      (0x6543B7FF#32, 0x0#32, .ld 20#6 14#6 3#2 0#1 0x7FF#11), (0x74850703#32, 0x0#32, .ldx 8#6 20#6 7#6 0#1 3#2),
      (0x48024001#32, 0x0#32, .callr 9#6), (0xA4014001#32, 0x0#32, .cfrc 5#6), (0xA0000020#32, 0x0#32, .yield),
      (0x38900000#32, 0x12345678#32, .limm 9#6 0x12345678#32), (0x38400001#32, 0x20C01#32, .limmN 4#6 0x00020C01#32) ] = true := by decide +kernel

/-- Opcode 0x01: every instruction once, its fields at the places of the opcode table. -/
theorem test_decode_op_01_1 : decodes
    [ (0x045A9380#32, 0x0#32, .add 5#6 42#6 19#6 2#2), (0x045A9381#32, 0x0#32, .addN 5#6 42#6 19#6 2#2),
      (0x045A9382#32, 0x0#32, .sub 5#6 42#6 19#6 2#2), (0x045A9383#32, 0x0#32, .subN 5#6 42#6 19#6 2#2),
      (0x045A9384#32, 0x0#32, .mul 5#6 42#6 19#6 2#2), (0x045A9385#32, 0x0#32, .mulN 5#6 42#6 19#6 2#2),
      (0x045A9346#32, 0x0#32, .mulh 5#6 42#6 19#6 1#1), (0x045A9347#32, 0x0#32, .mulhN 5#6 42#6 19#6 1#1),
      (0x045A9348#32, 0x0#32, .div 5#6 42#6 19#6 1#1), (0x045A9349#32, 0x0#32, .divN 5#6 42#6 19#6 1#1),
      (0x045A934A#32, 0x0#32, .rem 5#6 42#6 19#6 1#1), (0x045A934B#32, 0x0#32, .remN 5#6 42#6 19#6 1#1),
      (0x045A930C#32, 0x0#32, .and 5#6 42#6 19#6), (0x045A930D#32, 0x0#32, .or 5#6 42#6 19#6),
      (0x045A930E#32, 0x0#32, .xor 5#6 42#6 19#6), (0x045A930F#32, 0x0#32, .andn 5#6 42#6 19#6),
      (0x045A9390#32, 0x0#32, .shl 5#6 42#6 19#6 2#2), (0x045A9351#32, 0x0#32, .shr 5#6 42#6 19#6 1#1),
      (0x045A9352#32, 0x0#32, .sha 5#6 42#6 19#6 1#1), (0x045A9353#32, 0x0#32, .ror 5#6 42#6 19#6 1#1),
      (0x045A9394#32, 0x0#32, .shlImm 5#6 42#6 19#6 2#2), (0x045A9355#32, 0x0#32, .shrImm 5#6 42#6 19#6 1#1),
      (0x045A9356#32, 0x0#32, .shaImm 5#6 42#6 19#6 1#1), (0x045A9357#32, 0x0#32, .rorImm 5#6 42#6 19#6 1#1) ] = true := by decide +kernel

/-- Opcode 0x01: every instruction once, its fields at the places of the opcode table. -/
theorem test_decode_op_01_2 : decodes
    [ (0x045A8058#32, 0x0#32, .clz 5#6 42#6 1#1), (0x045A8059#32, 0x0#32, .ctz 5#6 42#6 1#1),
      (0x045A805A#32, 0x0#32, .popc 5#6 42#6 1#1), (0x045A805B#32, 0x0#32, .brev 5#6 42#6 1#1),
      (0x045A805C#32, 0x0#32, .bswp 5#6 42#6 1#1), (0x045A935D#32, 0x0#32, .min 5#6 42#6 19#6 1#1),
      (0x045A935E#32, 0x0#32, .minN 5#6 42#6 19#6 1#1), (0x045A935F#32, 0x0#32, .max 5#6 42#6 19#6 1#1),
      (0x045A9360#32, 0x0#32, .maxN 5#6 42#6 19#6 1#1), (0x045A9321#32, 0x0#32, .sel 5#6 42#6 19#6),
      (0x045A9362#32, 0x0#32, .shadd1 5#6 42#6 19#6 1#1), (0x045A9363#32, 0x0#32, .shadd2 5#6 42#6 19#6 1#1),
      (0x045A9364#32, 0x0#32, .shadd3 5#6 42#6 19#6 1#1), (0x045A9365#32, 0x0#32, .shadd4 5#6 42#6 19#6 1#1),
      (0x045A9366#32, 0x0#32, .cmpEq 5#6 42#6 19#6 1#1), (0x045A9367#32, 0x0#32, .cmpNe 5#6 42#6 19#6 1#1),
      (0x045A9368#32, 0x0#32, .cmpLt 5#6 42#6 19#6 1#1), (0x045A9369#32, 0x0#32, .cmpGe 5#6 42#6 19#6 1#1),
      (0x045A936A#32, 0x0#32, .cmpLtn 5#6 42#6 19#6 1#1), (0x045A936B#32, 0x0#32, .cmpGen 5#6 42#6 19#6 1#1) ] = true := by decide +kernel

/-- Opcodes 0x02 to 0x12: every instruction once, its fields at the places of the opcode table. -/
theorem test_decode_op_02_12 : decodes
    [ (0x085AAA5B#32, 0x0#32, .addImm 5#6 42#6 10843#14), (0x0C5AAA5B#32, 0x0#32, .addWImm 5#6 42#6 10843#14),
      (0x105AAA5B#32, 0x0#32, .mulImm 5#6 42#6 10843#14), (0x145AAA5B#32, 0x0#32, .andImm 5#6 42#6 10843#14),
      (0x185AAA5B#32, 0x0#32, .orImm 5#6 42#6 10843#14), (0x1C5AAA5B#32, 0x0#32, .xorImm 5#6 42#6 10843#14),
      (0x205A9A53#32, 0x0#32, .bfx 5#6 42#6 41#6 19#6), (0x205A8A53#32, 0x0#32, .bfxN 5#6 42#6 41#6 19#6),
      (0x245A8A53#32, 0x0#32, .bfi 5#6 42#6 41#6 19#6), (0x285A933C#32, 0x0#32, .hmix 5#6 42#6 19#6 60#6),
      (0x2C59ABCD#32, 0x0#32, .movi 5#6 633805#20), (0x3059ABCD#32, 0x0#32, .movhi 5#6 633805#20),
      (0x3459ABCD#32, 0x0#32, .addpc 5#6 633805#20), (0x38500000#32, 0x89ABCDEF#32, .limm 5#6 0x89ABCDEF#32),
      (0x38500001#32, 0x89ABCDEF#32, .limmN 5#6 0x89ABCDEF#32), (0x3E8B55A3#32, 0x0#32, .bCond 5#3 5#6 42#6 1443#11),
      (0x42ABCDEF#32, 0x0#32, .jmp 44813807#26), (0x46ABCDEF#32, 0x0#32, .call 44813807#26), (0x48014000#32, 0x0#32, .jr 5#6),
      (0x48014001#32, 0x0#32, .callr 5#6) ] = true := by decide +kernel

/-- Opcodes 0x13 to 0x14: every instruction once, its fields at the places of the opcode table. -/
theorem test_decode_op_13_14 : decodes
    [ (0x4C5A9390#32, 0x0#32, .fadd 5#6 42#6 19#6 4#3 1#1), (0x4C5A9391#32, 0x0#32, .fsub 5#6 42#6 19#6 4#3 1#1),
      (0x4C5A9392#32, 0x0#32, .fmul 5#6 42#6 19#6 4#3 1#1), (0x4C5A9393#32, 0x0#32, .fdiv 5#6 42#6 19#6 4#3 1#1),
      (0x4C5A8094#32, 0x0#32, .fsqrt 5#6 42#6 4#3 1#1), (0x4C5A9395#32, 0x0#32, .fmaFma 5#6 42#6 19#6 4#3 1#1),
      (0x4C5A9396#32, 0x0#32, .fmaFms 5#6 42#6 19#6 4#3 1#1), (0x4C5A9397#32, 0x0#32, .fmaFnma 5#6 42#6 19#6 4#3 1#1),
      (0x4C5A9318#32, 0x0#32, .fmin 5#6 42#6 19#6 1#1), (0x4C5A9319#32, 0x0#32, .fmax 5#6 42#6 19#6 1#1),
      (0x4C5A93BA#32, 0x0#32, .fcmp 5#6 42#6 19#6 5#3 1#1), (0x4C5A801B#32, 0x0#32, .fcls 5#6 42#6 1#1),
      (0x4C5A801C#32, 0x0#32, .fmvCp 5#6 42#6 1#1), (0x4C5A803C#32, 0x0#32, .fmvNeg 5#6 42#6 1#1),
      (0x4C5A805C#32, 0x0#32, .fmvAbs 5#6 42#6 1#1), (0x4C5A937C#32, 0x0#32, .fmvSgn 5#6 42#6 19#6 1#1),
      (0x505A8355#32, 0x0#32, .fcvt 5#6 42#6 3#4 2#3 1#1 5#4) ] = true := by decide +kernel

/-- Opcode 0x15: every instruction once, its fields at the places of the opcode table. -/
theorem test_decode_op_15 : decodes
    [ (0x54330960#32, 0x0#32, .vadd 3#4 12#4 9#4 3#3), (0x54330961#32, 0x0#32, .vsub 3#4 12#4 9#4 3#3),
      (0x54330962#32, 0x0#32, .vmul 3#4 12#4 9#4 3#3), (0x54330963#32, 0x0#32, .vmin 3#4 12#4 9#4 3#3),
      (0x54330964#32, 0x0#32, .vminN 3#4 12#4 9#4 3#3), (0x54330965#32, 0x0#32, .vmax 3#4 12#4 9#4 3#3),
      (0x54330966#32, 0x0#32, .vmaxN 3#4 12#4 9#4 3#3), (0x54330967#32, 0x0#32, .vlogAnd 3#4 12#4 9#4 3#3),
      (0x54330968#32, 0x0#32, .vlogOr 3#4 12#4 9#4 3#3), (0x54330969#32, 0x0#32, .vlogXor 3#4 12#4 9#4 3#3),
      (0x5433096A#32, 0x0#32, .vshShl 3#4 12#4 9#4 3#3), (0x5433096B#32, 0x0#32, .vshShr 3#4 12#4 9#4 3#3),
      (0x5433096C#32, 0x0#32, .vshSha 3#4 12#4 9#4 3#3), (0x5433096D#32, 0x0#32, .vaddSat 3#4 12#4 9#4 3#3),
      (0x5433096E#32, 0x0#32, .vaddNSat 3#4 12#4 9#4 3#3), (0x5433096F#32, 0x0#32, .vsubSat 3#4 12#4 9#4 3#3),
      (0x54330970#32, 0x0#32, .vsubNSat 3#4 12#4 9#4 3#3), (0x5450C071#32, 0x0#32, .vredSum 5#6 3#4 3#3),
      (0x5450C072#32, 0x0#32, .vredMax 5#6 3#4 3#3), (0x5450C073#32, 0x0#32, .vredMin 5#6 3#4 3#3),
      (0x54330074#32, 0x0#32, .vscan 3#4 12#4 3#3), (0x5450CC75#32, 0x0#32, .vdot 5#6 3#4 12#4 3#3),
      (0x54330976#32, 0x0#32, .vsel 3#4 12#4 9#4 3#3), (0x5430CCDD#32, 0x0#32, .vcmp 3#3 3#4 12#4 6#3 5#3) ] = true := by decide +kernel

/-- Opcode 0x16: every instruction once, its fields at the places of the opcode table. -/
theorem test_decode_op_16 : decodes
    [ (0x58330960#32, 0x0#32, .vaddS 3#4 12#4 9#4 3#3), (0x58330961#32, 0x0#32, .vsubS 3#4 12#4 9#4 3#3),
      (0x58330962#32, 0x0#32, .vmulS 3#4 12#4 9#4 3#3), (0x58330963#32, 0x0#32, .vfmaS 3#4 12#4 9#4 3#3),
      (0x58330964#32, 0x0#32, .vminS 3#4 12#4 9#4 3#3), (0x58330965#32, 0x0#32, .vmaxS 3#4 12#4 9#4 3#3),
      (0x5850C066#32, 0x0#32, .vredSumS 5#6 3#4 3#3), (0x5850C067#32, 0x0#32, .vredMaxS 5#6 3#4 3#3),
      (0x5850C068#32, 0x0#32, .vredMinS 5#6 3#4 3#3), (0x58330069#32, 0x0#32, .vscanS 3#4 12#4 3#3),
      (0x5850CC6A#32, 0x0#32, .vdotS 5#6 3#4 12#4 3#3), (0x5833006B#32, 0x0#32, .vsfuRcp 3#4 12#4 3#3),
      (0x5833006C#32, 0x0#32, .vsfuRsq 3#4 12#4 3#3), (0x5833006D#32, 0x0#32, .vsfuEx2 3#4 12#4 3#3),
      (0x5833006E#32, 0x0#32, .vsfuLg2 3#4 12#4 3#3), (0x5833006F#32, 0x0#32, .vsfuTnh 3#4 12#4 3#3),
      (0x5830CCD5#32, 0x0#32, .vcmpS 3#3 3#4 12#4 6#3 5#3) ] = true := by decide +kernel

/-- Opcodes 0x17 to 0x1C: every instruction once, its fields at the places of the opcode table. -/
theorem test_decode_op_17_1C : decodes
    [ (0x5C330960#32, 0x0#32, .vperm 3#4 12#4 9#4 3#3), (0x5C314061#32, 0x0#32, .vsplat 3#4 5#6 3#3),
      (0x5C50EA02#32, 0x0#32, .vget 5#6 3#4 42#6), (0x5C316A03#32, 0x0#32, .vins 3#4 5#6 42#6),
      (0x5C330064#32, 0x0#32, .vcmpr 3#4 12#4 3#3), (0x5C330065#32, 0x0#32, .vexpd 3#4 12#4 3#3),
      (0x5C330266#32, 0x0#32, .vdec 3#4 12#4 2#2 3#3), (0x5C330267#32, 0x0#32, .venc 3#4 12#4 2#2 3#3),
      (0x5C016A08#32, 0x0#32, .tblw 5#6 42#6), (0x5C5A8009#32, 0x0#32, .tblr 5#6 42#6),
      (0x5C31810A#32, 0x0#32, .kopAnd 3#3 6#3 1#3), (0x5C31810B#32, 0x0#32, .kopOr 3#3 6#3 1#3),
      (0x5C31810C#32, 0x0#32, .kopXor 3#3 6#3 1#3), (0x5C31810D#32, 0x0#32, .kopAndn 3#3 6#3 1#3),
      (0x5C31400E#32, 0x0#32, .kopSet 3#3 5#6), (0x5C50C00F#32, 0x0#32, .kopGet 5#6 3#3), (0x5C50C010#32, 0x0#32, .kcnt 5#6 3#3),
      (0x5C000011#32, 0x0#32, .gang), (0x5C000012#32, 0x0#32, .split),
      (0x6033086C#32, 0x0#32, .vcvt 3#4 12#4 1#3 0#3 3#3 1#1 4#3), (0x645AADA3#32, 0x0#32, .ld 5#6 42#6 2#2 1#1 1443#11),
      (0x685AB5A3#32, 0x0#32, .st 5#6 42#6 3#2 1443#11), (0x6C315DA3#32, 0x0#32, .vld 3#4 5#6 1#2 1#1 1443#11),
      (0x703165A3#32, 0x0#32, .vst 3#4 5#6 2#2 1443#11) ] = true := by decide +kernel

/-- Opcodes 0x1D to 0x21: every instruction once, its fields at the places of the opcode table. -/
theorem test_decode_op_1D_21 : decodes
    [ (0x745A9306#32, 0x0#32, .ldx 5#6 42#6 19#6 1#1 2#2), (0x745A9343#32, 0x0#32, .stx 5#6 42#6 19#6 3#2),
      (0x745A80AE#32, 0x0#32, .ldAcq 5#6 42#6 5#3 1#1 2#2), (0x745A80EB#32, 0x0#32, .stRel 5#6 42#6 5#3 3#2),
      (0x78316A65#32, 0x0#32, .vlds 3#4 5#6 42#6 3#3 1#1 1#2), (0x78316A6A#32, 0x0#32, .vsts 3#4 5#6 42#6 3#3 2#2),
      (0x78314C75#32, 0x0#32, .vgth 3#4 5#6 12#4 3#3 1#1 1#2), (0x78314C7A#32, 0x0#32, .vsct 3#4 5#6 12#4 3#3 2#2),
      (0x7C014000#32, 0x0#32, .pref 5#6), (0x7C000591#32, 0x0#32, .fence 5#3 9#4), (0x7C014002#32, 0x0#32, .cwb 5#6),
      (0x7C014003#32, 0x0#32, .cinv 5#6), (0x805A93B0#32, 0x0#32, .amoAdd 5#6 42#6 19#6 5#3 1#1),
      (0x805A93B1#32, 0x0#32, .amoAnd 5#6 42#6 19#6 5#3 1#1), (0x805A93B2#32, 0x0#32, .amoOr 5#6 42#6 19#6 5#3 1#1),
      (0x805A93B3#32, 0x0#32, .amoXor 5#6 42#6 19#6 5#3 1#1), (0x805A93B4#32, 0x0#32, .amoMin 5#6 42#6 19#6 5#3 1#1),
      (0x805A93B5#32, 0x0#32, .amoMax 5#6 42#6 19#6 5#3 1#1), (0x805A93B6#32, 0x0#32, .amoMinn 5#6 42#6 19#6 5#3 1#1),
      (0x805A93B7#32, 0x0#32, .amoMaxn 5#6 42#6 19#6 5#3 1#1), (0x805A93B8#32, 0x0#32, .amoSwp 5#6 42#6 19#6 5#3 1#1),
      (0x805A93B9#32, 0x0#32, .amoFadd 5#6 42#6 19#6 5#3 1#1), (0x845A93B0#32, 0x0#32, .acas 5#6 42#6 19#6 5#3 1#1) ] = true := by decide +kernel

/-- Opcodes 0x22 to 0x27: every instruction once, its fields at the places of the opcode table. -/
theorem test_decode_op_22_27 : decodes
    [ (0x885A85A3#32, 0x0#32, .ldfe 5#6 42#6 1443#11), (0x885A95A3#32, 0x0#32, .ldff 5#6 42#6 1443#11),
      (0x885AA5A3#32, 0x0#32, .stef 5#6 42#6 1443#11), (0x885AB5A3#32, 0x0#32, .stff 5#6 42#6 1443#11),
      (0x8C5A8000#32, 0x0#32, .feget 5#6 42#6), (0x8C014001#32, 0x0#32, .fesetEmpty 5#6),
      (0x8C014002#32, 0x0#32, .fesetFull 5#6), (0x90016A00#32, 0x0#32, .send 5#6 42#6), (0x90014301#32, 0x0#32, .sendv 5#6 3#4),
      (0x9050AA02#32, 0x0#32, .recvG 5#6 2#2 42#6), (0x90308503#32, 0x0#32, .recvV 3#4 2#2 5#6),
      (0x90508004#32, 0x0#32, .qpoll 5#6 2#2), (0x90214C05#32, 0x0#32, .qbind 2#2 5#6 12#6), (0x90200006#32, 0x0#32, .qfree 2#2),
      (0x945A933C#32, 0x0#32, .cpy 5#6 42#6 19#6 60#6), (0x945ABC7C#32, 0x0#32, .cpy2 5#6 42#6 60#6 60#6),
      (0x94014080#32, 0x0#32, .bwait 5#6), (0x985A8308#32, 0x0#32, .serve 5#6 42#6 3#4 8#8),
      (0x9C5A9300#32, 0x0#32, .frld 5#6 42#6 19#6), (0x9C5A9301#32, 0x0#32, .frbind 5#6 42#6 19#6),
      (0x9C014002#32, 0x0#32, .frgo 5#6), (0x9C014003#32, 0x0#32, .frbar 5#6), (0x9C014004#32, 0x0#32, .frwait 5#6),
      (0x9C5A9305#32, 0x0#32, .argw 5#6 42#6 19#6) ] = true := by decide +kernel

/-- Opcodes 0x28 to 0x2D: every instruction once, its fields at the places of the opcode table. -/
theorem test_decode_op_28_2D : decodes
    [ (0xA0016A00#32, 0x0#32, .spawnCore 5#6 42#6), (0xA0016A01#32, 0x0#32, .spawnCluster 5#6 42#6),
      (0xA05A9302#32, 0x0#32, .spawnNamed 5#6 42#6 19#6), (0xA0016A03#32, 0x0#32, .spawnDie 5#6 42#6),
      (0xA0000010#32, 0x0#32, .exit), (0xA0000020#32, 0x0#32, .yield), (0xA0014030#32, 0x0#32, .twait 5#6),
      (0xA4017C00#32, 0x0#32, .csus 5#6 60#6), (0xA4014001#32, 0x0#32, .cfrc 5#6), (0xA44ABC02#32, 0x0#32, .cfil 4#6 42#6 60#6),
      (0xA4014003#32, 0x0#32, .ccan 5#6), (0xA4014004#32, 0x0#32, .ccanP 5#6), (0xA45A8005#32, 0x0#32, .ctag 5#6 42#6),
      (0xA8000500#32, 0x0#32, .trap 5#6), (0xA8000001#32, 0x0#32, .eret), (0xA8000002#32, 0x0#32, .brk),
      (0xA8000003#32, 0x0#32, .halt), (0xAC50010D#32, 0x0#32, .ctlr 5#6 269#12), (0xB0014108#32, 0x0#32, .ctlw 5#6 264#12),
      (0xB4014500#32, 0x0#32, .tlbiPage 5#6 5#3), (0xB4014501#32, 0x0#32, .tlbiAsid 5#6 5#3),
      (0xB4000502#32, 0x0#32, .tlbiPart 5#3) ] = true := by decide +kernel
/-! ## Single steps against the worked examples of the spec -/

/-- The instruction answers a next state that satisfies a property. -/
def runs (i : Instr) (s : State) (p : State → Bool) : Bool :=
  match exec i s with
  | .next t => p t
  | _ => false
def two (x y : Word) : State := (st.setG 5#6 x).setG 6#6 y
def gives (i : Instr) (s : State) (x : Word) : Bool := runs i s (fun t => t.getG 4#6 == x && t.self.pc == s.self.pc + 4#64)

/-- "Division at the edges", behind R124. -/
theorem test_div : gives (.div 4#6 5#6 6#6 0#1) (two 7#64 (-2#64)) (-3#64) = true ∧
    gives (.div 4#6 5#6 6#6 0#1) (two 5#64 0#64) 0xFFFFFFFFFFFFFFFF#64 = true ∧
    gives (.div 4#6 5#6 6#6 1#1) (two 0x80000000#64 (-1#64)) 0xFFFFFFFF80000000#64 = true ∧
    gives (.divN 4#6 5#6 6#6 1#1) (two 5#64 0#64) 0xFFFFFFFF#64 = true := by decide +kernel
theorem test_rem : gives (.rem 4#6 5#6 6#6 0#1) (two 7#64 (-2#64)) 1#64 = true ∧
    gives (.rem 4#6 5#6 6#6 0#1) (two (-7#64) 2#64) (-1#64) = true ∧ gives (.rem 4#6 5#6 6#6 0#1) (two 5#64 0#64) 5#64 = true ∧
    gives (.rem 4#6 5#6 6#6 1#1) (two 0x80000000#64 0xFFFFFFFF#64) 0#64 = true := by decide +kernel
/-- HMIX with s = 0 is 0 (R127). -/
theorem test_hmix : gives (.hmix 4#6 5#6 6#6 0#6) (two 12345#64 77#64) 0#64 = true := by decide +kernel
/-- The loop's branch at 0x10 goes to 0x08 while g4 is not 0 (the example behind R112). -/
theorem test_b : runs (.bCond 1#3 4#6 0#6 0x7FE#11) { st.setG 4#6 3#64 with self := { (st.setG 4#6 3#64).self with pc := 0x10#64 } }
    (fun t => t.self.pc == 8#64) = true := by decide +kernel
/-- The example of FCVT behind R133. -/
theorem test_fcvt : runs (.fcvt 3#6 4#6 2#4 7#3 0#1 9#4) (st.setG 4#6 0x01000001#64)
    (fun t => t.getG 3#6 == 0x4B800000#64 && t.self.ctl.fflags == 1#5) = true := by decide +kernel
/-- 2^24 + 1 in F32: the tie goes to the even pattern, or up under RUP (R73). -/
theorem test_fadd : runs (.fadd 4#6 5#6 6#6 0#3 0#1) (two 0x4B800000#64 0x3F800000#64) (fun t => t.getG 4#6 == 0x4B800000#64) = true ∧
    runs (.fadd 4#6 5#6 6#6 2#3 0#1) (two 0x4B800000#64 0x3F800000#64) (fun t => t.getG 4#6 == 0x4B800001#64) = true := by
  decide +kernel
/-- The lanes of the example behind R142. -/
def stV1 : State :=
  let l : Vector Lane 16 := #v[5, 12, 7, 30, 1, 9, 18, 4, 22, 6, 11, 3, 40, 8, 15, 2]
  { st with self := { st.self with v := st.self.v.set 1 l, k := st.self.k.set 1 0x554A#16 } }.setG 7#6 10#64
theorem test_vsplat_vcmp : runs (.vsplat 2#4 7#6 0#3) stV1 (fun t => runs (.vcmp 1#3 2#4 1#4 0#3 2#3) t (fun u =>
    u.mask 1#3 == 0x554A#32)) = true := by decide +kernel
theorem test_vcmpr : runs (.vcmpr 3#4 1#4 1#3) stV1 (fun t => (List.range 16).map (fun j => (lane (t.lanes 3#4) j).toNat) ==
    [12, 30, 18, 22, 11, 40, 15, 0, 0, 0, 0, 0, 0, 0, 0, 0]) = true := by decide +kernel
theorem test_kcnt : runs (.kcnt 8#6 1#3) stV1 (fun t => t.getG 8#6 == 7#64) = true := by decide +kernel
/-- Encode of 0.296875 gives 0x2A with NX, of -0.296875 0xAA, of 500 0x7E with OF and NX (the example behind R83). -/
def encoded (x : Lane) (code flags : Nat) : Bool :=
  let s : State := { st with self := { st.self with v := st.self.v.set 9 (Vector.replicate 16 x) } }
  runs (.venc 8#4 9#4 0#2 0#3) s (fun t => (lane (t.lanes 8#4) 15).toNat % 256 == code && t.self.ctl.fflags.toNat == flags)
theorem test_venc : encoded 0x3E980000#32 0x2A 1 = true ∧ encoded 0xBE980000#32 0xAA 1 = true ∧ encoded 0x43FA0000#32 0x7E 5 = true := by
  decide +kernel
/-- TRAP 5 in U mode: TPC is the next instruction, CAUSE 16, TINFO0 5, the pc at TVEC, S mode with ITR (R35, R190, R336). -/
theorem test_trap : runs (.trap 5#6) (st.setCtl { st.self.ctl with tvec := 0x400#64 }) (fun t =>
    t.self.ctl.tpc == st.self.pc + 4#64 && t.self.ctl.tcause.toNat % 256 == 16 && t.self.ctl.tinfo0 == 5#64 && t.self.pc == 0x400#64 &&
      t.self.ctl.sMode && t.self.ctl.itr && !t.self.ctl.pmode) = true := by decide +kernel
/-- The ME at frond 2, row 5, column 11 of a region that the strand's launch holds, and the must-be-zero bit 53 (the example
behind R47). -/
theorem test_meAddress :
    let s := stE { rCe fAdd (tok 0 5) (tok 0 7) with frond := 2 }
    (s.space s.self.site .any 0xEAC00000000001A8#64 8).toOption = some (some (meLoc 0 0 2 5 11 0x1A8)) ∧
      (s.space s.self.site .any 0xEAE00000000001A8#64 8).toOption = none ∧
      (st.space st.self.site .any 0xEAC00000000001A8#64 8).toOption = none := by decide +kernel
/-- The registers of a strand of partition 5 on die 2 (the example behind R362). -/
theorem test_windows :
    let p : Partition := { dies := (Vector.replicate 8 {}).set 2 (shareOf (fun i => if i = 4 then 0x0008404C#64 else 0#64) 2) }
    let c := (State.reset.setPart 5 p).newCtl 5 2 0 0#64 0#64 false
    c.spbase = 0xC0000#64 ∧ c.splim = 0x20000#64 ∧ c.swbase = 0x800000#64 ∧ c.swlim = 0x400000#64 := by decide +kernel
/-- The caller of the poisoned packet of the example behind R337: CAUSE 8, FCODE 0x85, TINFO0 0x00850AA0, TINFO1 0x1E03. -/
theorem test_poisonedPacket :
    let p := { packet (.strand 1) with cluster := 5, region := some 51, tag := 30, handle := 3, poison := some 0x00085AA0#64 }
    let me := { parkedOn .serve with ctl := { st.self.ctl with tvec := 0x400#64 } }
    runs (.serveResultArrival 60) { stS' (servedRegion []) p with self := me } (fun t =>
      t.self.ctl.tcause.toNat % 2 ^ 16 == 0x8508 && t.self.ctl.tinfo0 == 0x00850AA0#64 && t.self.ctl.tinfo1 == 0x1E03#64 &&
        t.self.ctl.tpc == me.pc) = true := by decide +kernel
/-- The level-3 entry of the example behind R404, found by the walk. -/
theorem test_walk :
    let p : Partition := { valid := true, dies := (Vector.replicate 8 {}).set 2 { dbase := 0, dcnt := 1 } }
    let b := 2 * 2 ^ 40
    let s := State.reset.setPart 0 p
    let s := ((((s.wr (b + 0x100000) 8 (b + 0x300000 + 1)).wr (b + 0x300800) 8 (b + 0x400000 + 1)).wr (b + 0x400488) 8 (b + 0x500000 + 1)).wr
      (b + 0x500A28) 8 0x000002000ABCD02F)
    (match s.walk (siteOf 0 0 (w64 (b + 0x100000))) 0x0000004012345678 with
      | .found e => e.pbase + (0x4012345678 - e.vbase) == 0x000002000ABCD678 && e.w && e.u && !e.x
      | _ => false) = true := by decide +kernel
/-- The CE of the example behind R235: sums of products of triples, with TRIM pad. -/
def fTriple : BitVec 256 :=
  at' 0 0x20140410 ||| at' 32 1 ||| at' 36 3 ||| at' 108 1 ||| at' 140 2 ||| at' 145 2 ||| at' 160 0x9D015C70
def tripleElem (f1 : Word) (c : Nat) : Elem := { elem 2 3 with ctr := [c, 0, 0, 0], ce := { f1 := f1 } }
def rTriple (f1 : Word) (c : Nat) (w n : Token) : Region :=
  let w0 := { edgeIn 2 3 3 with prow := 2, pcol := 2, pport := 1 }
  let n0 := { edgeIn 2 3 0 with prow := 1, pcol := 3, pport := 2 }
  let e := tripleElem f1 c
  { regionOf e fTriple [] with
    arcs := [{ edge := w0, queue := [w], inReturn := 0 }, { edge := n0, queue := [n], inReturn := 0 },
      { edge := { edgeOut 2 3 1 with crow := 2, ccol := 4, cport := 3 }, queue := [], inReturn := 0 }] }
/-- A firing of it leaves f1 and ctr0, and emits these values. -/
def tripleFires (f1 : Word) (c : Nat) (w n : Token) (f1' : Word) (c' : Nat) (out : List Nat) : Bool :=
  runs (.ceFire 50 2 3) (stE (rTriple f1 c w n)) (fun t => (t.region? 50).any (fun r => (r.elem? 2 3).any (fun e =>
    e.ce.f1 == f1' && e.ctr.headD 9 == c' && ((r.arcs.getD 2 { edge := edgeOut 2 3 1, queue := [], inReturn := 0 }).queue.map (fun (t : Token) => t.payload.toNat)) == out)))
theorem test_ceTriple : tripleFires 0#64 0 (tok 0 2) (tok 0 1) 2#64 1 [] = true ∧ tripleFires 8#64 2 (tok 0 4) (tok 0 3) 20#64 0 [20] = true := by
  decide +kernel
/-- A padded firing, behind R234: the EOR of n stays, n reads c1. -/
def triplePads (f1 : Word) (c : Nat) (w n : Token) (f1' : Word) (c' : Nat) (out : List Nat) : Bool :=
  runs (.ceStopStep 50 2 3) (stE (rTriple f1 c w n)) (fun t => (t.region? 50).any (fun r => (r.elem? 2 3).any (fun e =>
    e.ce.f1 == f1' && e.ctr.headD 9 == c' && ((r.arcs.map (fun (a : Arc) => a.queue.map (fun (t : Token) => (t.kind, t.payload.toNat)))) ==
      [[], [(5, 1)], out.map (fun v => (0, v))]))))
theorem test_ceTriplePads : triplePads 20#64 1 (tok 0 6) (tok 5 1) 26#64 2 [] = true ∧
    triplePads 26#64 2 (tok 0 7) (tok 5 1) 33#64 0 [33] = true := by decide +kernel
/-- An AFF generator: base 0x1000, four REFs 8 bytes apart (the example behind R244). -/
theorem test_agAff :
    let f := at' 0 4 ||| at' 14 3 ||| at' 23 1 ||| at' 32 4 ||| at' 96 8
    let r (c : Nat) := { regionOf { elem 2 1 with ctr := [c, 0, 0, 0] } f [] with binds := [(0, [(3, 0x1000#64)])] }
    let emits (c : Nat) (v : Nat) : Bool := runs (.agAffFire 50 2) (stE (r c)) (fun t => (t.region? 50).any (fun r =>
      (r.arcs.flatMap (fun (a : Arc) => a.queue.map (fun (t : Token) => (t.kind, t.payload.toNat)))) == [(2, v)]))
    emits 0 0x1000 = true ∧ emits 3 0x1018 = true := by decide +kernel
/-- RMW with saturation: the update of slot 3 holding 30 by 0x7FFFFFF0 writes 0x7FFFFFFF (the example behind R278). -/
theorem test_meRmw :
    let f := at' 0 1 ||| at' 9 2 ||| at' 12 1 ||| at' 16 2 ||| at' 20 1 ||| at' 37 16 ||| at' 60 1 ||| at' 61 4
    let s := (stE (rMe {} f (tok 0 0x7FFFFFF0) (tok 1 3))).wr (meWord 3) 8 30
    runs (.meRmwFire 50 2 10) s (fun t => runs (.meRmwUpdateWrite 50 2 10) t (fun u => u.rd (meWord 3) 4 == 0x7FFFFFFF)) = true := by
  decide +kernel

end Sys2Proof.Tests
end

