-- ==== Sys2Proof/Proofs/Step.lean ====
section
/-! SUPPORT. One step as the agenda appoints it, and the state after reset (O56, O57, O58). -/
namespace Sys2Proof.Machine

variable (s : State)

/-! ## The turn of a core -/

theorem step_of_turn {die cluster core : Nat} {rest : List Activity} (h : s.agenda = .turn die cluster core :: rest) :
    step s = { s with agenda := rest }.turn die cluster core := by
  simp only [step, h]

/-- A core that has issued nothing in the cycle and reserves none gives its turn to the strand that its search chooses. -/
theorem State.turn_of_choose {die cluster core : Nat} {t : Strand}
    (spent : (s.core die cluster core).spent s.cycle = false) (free : (s.core die cluster core).reserved s.cycle = none)
    (chosen : s.choose (s.core die cluster core) = some t) :
    s.turn die cluster core = s.turnOf (s.core die cluster core) t := by
  simp only [State.turn, spent, free, chosen, Bool.false_eq_true, if_false]

/-- The strand in the seat, with no deferred trap to take, issues on the state in which its core has noted the issue. -/
theorem State.turnOf_self (c : Core) (live : s.self.live = true) (defers : s.deferTaker = none) :
    s.turnOf c s.self = (s.issued c s.self.id.slot s.secondOf).issue := by
  simp only [State.turnOf, s.seat_self live rfl, defers]

/-- The seat issues the instruction to which its words decode. -/
theorem State.issue_of_decode {w w2 : BitVec 32} {i : Instr} (code : s.codeOf s.self = .have w w2)
    (dec : decode w w2 = .ok i) : s.issue = exec i s := by
  simp only [State.issue, code, dec]

/-! ## What cores note, and who acts next, changes no instruction word -/

theorem State.space_cores_agenda (l : List Core) (n : List Activity) (x : Site) (rule : SpaceRule) (a : Word) (size : Nat) :
    ({ s with cores := l, agenda := n }).space x rule a size = s.space x rule a size := by
  simp only [State.space]; rfl

theorem State.rdKey_cores_agenda (l : List Core) (n : List Activity) (part sel pa size : Nat) :
    ({ s with cores := l, agenda := n }).rdKey part sel pa size = s.rdKey part sel pa size := by
  simp only [State.rdKey, State.useKey, State.rd, apply_ite State.m]; rfl

theorem State.fetchAt_cores_agenda (l : List Core) (n : List Activity) (t : Strand) (a : Word) :
    ({ s with cores := l, agenda := n }).fetchAt t a = s.fetchAt t a := by
  simp only [State.fetchAt, State.space_cores_agenda, State.rdKey_cores_agenda]; rfl

theorem State.codeOf_cores_agenda (l : List Core) (n : List Activity) (t : Strand) :
    ({ s with cores := l, agenda := n }).codeOf t = s.codeOf t := by
  simp only [State.codeOf, State.fetchAt_cores_agenda]

theorem State.codeOf_issued (c : Core) (slot : Nat) (second : Option Nat) (t : Strand) :
    (s.issued c slot second).codeOf t = s.codeOf t := s.codeOf_cores_agenda _ s.agenda t

/-! ## One word fetched by a TLB hit -/

/-- Four bytes read as a number are the word that they spell. -/
theorem word_memNat (m : List Host.Cell) (a : Nat) : BitVec.ofNat 32 (memNat m a 4) = bytesWord (memBytes m a 4) := by
  have append {p q : Nat} (x : BitVec p) (y : BitVec q) : (x ++ y).toNat = x.toNat * 2 ^ q + y.toNat := by
    rw [BitVec.toNat_append, ← Nat.shiftLeft_add_eq_or_of_lt y.isLt, Nat.shiftLeft_eq]
  simp only [memNat, memBytes, leNat, bytesWord, word]
  apply BitVec.eq_of_toNat_eq
  simp only [BitVec.toNat_ofNat, append]
  omega

/-- A word of this module without an error mark, at an aligned address whose page a TLB of the strand holds and may be
executed. -/
theorem State.fetchAt_hit {t : Strand} {a : Word} {e : TlbEntry} {l : Option Nat}
    (space : s.space t.site .globalOnly a 4 = .ok l) (aligned : a.toNat % 4 = 0)
    (hit : t.site.tlbs.findSome? (fun h => s.m.tlb.find? (fun e =>
      e.holder == h && !e.stale && e.covers t.site.part t.site.asid a.toNat)) = some e)
    (permits : e.permits .fetch t.site.sMode = true) (near : paModule (e.pbase + (a.toNat - e.vbase)) = s.plant.modNum)
    (sound : s.isPoisoned (e.pbase + (a.toNat - e.vbase)) = false) :
    s.fetchAt t a = .have (bytesWord
      ((s.useKey t.id.part e.key (e.pbase + (a.toNat - e.vbase))).rdBytes (e.pbase + (a.toNat - e.vbase)) 4)) := by
  simp only [State.fetchAt, space, aligned, hit, permits, near, sound, ne_eq, not_true_eq_false, if_false, Bool.not_true,
    Bool.false_eq_true, State.rdKey, State.rd, word_memNat]
  rfl

/-- A word that begins no pair is the whole instruction. -/
theorem State.codeOf_single {t : Strand} {w : BitVec 32} (fetched : s.fetchAt t t.pc = .have w) (single : isPair w = false) :
    s.codeOf t = .have w 0#32 := by
  simp only [State.codeOf, fetched, single, Bool.false_eq_true, if_false]

/-! ## The statements -/

/-- Settles O56: the turn reaches the seat, whose fetch the core's note does not change. -/
theorem stepRunsDecoded : Obligations.StepRunsDecoded := by
  unfold Obligations.StepRunsDecoded
  intro s die cluster core rest i w w2 e s0 c t pa noted bytes agenda spent free chosen live defers
  have issues (w w2 : BitVec 32) (code : s0.codeOf t = .have w w2) (dec : decode w w2 = .ok i) : step s = exec i noted :=
    calc step s = s0.turn die cluster core := step_of_turn s agenda
      _ = s0.turnOf c t := s0.turn_of_choose spent free chosen
      _ = noted.issue := s0.turnOf_self c live defers
      _ = exec i noted := noted.issue_of_decode ((s0.codeOf_issued c t.id.slot s0.secondOf t).trans code) dec
  refine ⟨issues w w2, ?_⟩
  rintro ⟨l, space⟩ aligned hit permits near sound single dec
  have fetched : s.fetchAt t t.pc = .have (bytesWord bytes) := s.fetchAt_hit
    ((s.space_cores_agenda s.cores rest _ _ _ _).symm.trans space) aligned hit permits near sound
  exact issues (bytesWord bytes) 0#32
    ((s.codeOf_cores_agenda s.cores rest t).trans (s.codeOf_single fetched single)) dec

/-- Settles O57. -/
theorem stepPerformsEvents : Obligations.StepPerformsEvents := by
  unfold Obligations.StepPerformsEvents
  intro s i rest agenda
  refine ⟨fun wf event => ?_, fun bad => ?_, fun o => ⟨fun real => ?_, fun unreal => ?_⟩⟩
  · simp [step, agenda, wf, event]
  · rcases bad with bad | bad <;> simp [step, agenda, bad]
  · simp [step, real]
  · simp [step, unreal]

/-- A partition and a function of the reset state are as their maps give them. -/
theorem State.reset_part (p : Nat) : State.reset.part p = {} := by
  simp only [State.part, State.reset, Vector.getElem?_replicate]
  split <;> rfl
theorem State.reset_fn (p : Nat) : State.reset.fn p = {} := by
  simp only [State.fn, State.reset, Vector.getElem?_replicate]
  split <;> rfl
theorem State.reset_die (d : Nat) : State.reset.die d = {} := by
  simp only [State.die, State.reset, Vector.getElem?_replicate]
  split <;> rfl

/-- Settles O58. -/
theorem resetState : Obligations.ResetState := by
  unfold Obligations.ResetState
  refine ⟨rfl, rfl, rfl, rfl, ?_, rfl, rfl, rfl, rfl, rfl, fun _ _ _ => ⟨rfl, rfl⟩, fun d _ => ?_, fun p _ => ?_⟩
  · intro t ht
    rw [List.mem_singleton.mp ht]
    rfl
  · rw [State.reset_die]
    decide
  · rw [State.reset_part, State.reset_fn]
    decide

end Sys2Proof.Machine
end

