-- ==== Sys2Proof/Proofs/GangsTraps.lean ====
section
/-! SUPPORT. Gangs joined and parted (O17); traps in a handler, ERET and HALT (O25). -/
namespace Sys2Proof.Machine

variable (s : State)

/-! ## Gangs (R31, R33, R143) -/

/-- What the partner of a GANG is: a strand of the same launch that waits in GANG in the partner slot. -/
theorem State.gangPartner_some {p : Strand} (h : s.gangPartner = some p) :
    p ∈ s.others ∧ p.park.reason = .gang ∧ p.id.ctx = s.self.id.ctx ∧ p.id.slot = s.self.id.slot ^^^ 1 := by
  unfold State.gangPartner at h
  split at h
  · have found := List.find?_some h
    simp only [Bool.and_eq_true, beq_iff_eq, Strand.parkedFor, Strand.inSlot] at found
    obtain ⟨⟨⟨-, reason⟩, ctx⟩, -, slot⟩ := found
    exact ⟨List.mem_of_find?_eq_some h, reason, ctx, slot⟩
  · cases h

/-- A GANG whose partner waits makes both strands members. -/
theorem execGang_some {p : Strand} (free : s.self.ctl.ganged = false) (h : s.gangPartner = some p) :
    execGang s = .next { s with
      self := s.self.ganged (decide (s.self.id.slot % 2 = 0))
      others := s.others.map (fun t => if t.id.uid = p.id.uid then t.ganged !(decide (s.self.id.slot % 2 = 0)) else t) } := by
  simp only [execGang, free, Bool.false_eq_true, if_false, h]

theorem execGang_none (free : s.self.ctl.ganged = false) (h : s.gangPartner = none) :
    execGang s = .next (s.parkFor .gang (w64 (s.self.id.slot ^^^ 1))) := by
  simp only [execGang, free, Bool.false_eq_true, if_false, h]

theorem execGang_member (h : s.self.ctl.ganged = true) (can : s.canTrap) :
    execGang s = .next (s.trapped s.self.pc (illRun 0#64 (insWord .gang))) := by
  simp only [execGang, h, if_true, s.trap_eq can]

theorem execSplit_leader (h : s.self.ctl.glead = true) : execSplit s = .next s.endGang.adv := by
  simp only [execSplit, h, if_true]

theorem execSplit_other (h : s.self.ctl.glead = false) (can : s.canTrap) :
    execSplit s = .next (s.trapped s.self.pc (illRun 0#64 (insWord .split))) := by
  simp only [execSplit, h, Bool.false_eq_true, if_false, s.trap_eq can]

theorem State.follower_mem {u : Strand} (h : s.follower = some u) : u ∈ s.others := by
  unfold State.follower at h
  split at h
  · split at h <;> exact List.mem_of_find?_eq_some h
  · cases h

/-- The end of a gang parts its follower. -/
theorem State.splitOff_mem_endGang {u : Strand} (lead : s.self.ctl.glead = true) (h : s.follower = some u) :
    u.splitOff ∈ s.endGang.others := by
  simp only [State.endGang, lead, if_true, State.mapFollower, h, State.setCtl_others]
  exact List.mem_map.mpr ⟨u, s.follower_mem h, if_pos rfl⟩

/-- Settles O17: a GANG parks, joins or traps, and a SPLIT parts or traps. -/
theorem gangs : Obligations.Gangs := by
  unfold Obligations.Gangs
  intro s die lid slot
  refine ⟨fun free => ⟨execGang_none s free, fun p partner ctx _ => ?_⟩, execGang_member s, fun lead u follows => ?_,
    execSplit_other s⟩
  · obtain ⟨mem, reason, sameCtx, sameSlot⟩ := s.gangPartner_some partner
    refine ⟨_, execGang_some s free partner, sameCtx.trans ctx, reason, sameSlot, rfl, rfl, rfl, ?_,
      p.ganged !(decide (slot % 2 = 0)), List.mem_map.mpr ⟨p, mem, if_pos rfl⟩, rfl, rfl, rfl, ?_, ?_⟩
    · simp only [Strand.ganged, decide_eq_true_eq]; rfl
    · rcases Nat.mod_two_eq_zero_or_one slot with even | odd <;> simp [Strand.ganged, *]
    · rcases Nat.mod_two_eq_zero_or_one slot with even | odd <;> simp [Strand.ganged, *]
  · refine ⟨_, u.splitOff, execSplit_leader s lead, ?_, s.splitOff_mem_endGang lead follows, rfl⟩
    rw [State.adv_self, s.endGang_self, if_pos lead]

/-! ## Traps in a handler, ERET and HALT (R35, R36, R191) -/

/-- A report joins those of its partition's function. -/
theorem State.fn_report {p : Nat} (h : p < 64) (r : Report) :
    ((s.report p r).fn p).reports = (s.fn p).reports ++ [r] := by
  simp [State.report, State.fn, h]

/-- The kind and the cause of a stop in its report's first word. -/
theorem stopWord_fields {kind cause sid : Nat} (hk : kind < 2 ^ 8) (hc : cause < 2 ^ 8) :
    bits (w64 (kind + 2 ^ 8 * cause + 2 ^ 16 * sid)) 7 0 = kind ∧ bits (w64 (kind + 2 ^ 8 * cause + 2 ^ 16 * sid)) 15 8 = cause := by
  simp only [bits, natBits, BitVec.toNat_ofNat]
  omega

/-- A stopped strand: PARKED with reason 0, its slot held, everything else of it as it was, and its supervisor told. -/
theorem State.stop_spec {kind cause : Nat} (pc info : Word) (hp : s.self.id.part < 64) (hk : kind < 2 ^ 8) (hc : cause < 2 ^ 8) :
    (s.stop kind cause pc info).self = { s.self with st := .parked, park := { since := s.cycle, operand := w64 kind } } ∧
    ∃ r, ((s.stop kind cause pc info).fn s.self.id.part).reports = (s.fn s.self.id.part).reports ++ [r] ∧
      bits r.word0 7 0 = kind ∧ bits r.word0 15 8 = cause ∧ r.pc = pc := by
  obtain ⟨low, high⟩ := stopWord_fields (sid := s.self.sidNat) hk hc
  exact ⟨rfl, _, State.fn_report _ hp _, low, high, rfl⟩

/-- A return from a trap: to an aligned TPC, or ALIGN. -/
theorem State.returnFromTrap_cases :
    (s.self.ctl.tpc.toNat % 4 = 0 → s.returnFromTrap = { s with self := { s.self with
      pc := s.self.ctl.tpc, ctl := { s.self.ctl with sMode := s.self.ctl.pmode, itr := false } } }) ∧
    (s.self.ctl.tpc.toNat % 4 ≠ 0 → s.returnFromTrap = s.trap (alignTrap s.self.ctl.tpc)) := by
  constructor <;> intro h
  · simp only [State.returnFromTrap, bits_low, h, ne_eq, not_true_eq_false, if_false]
    rfl
  · simp only [State.returnFromTrap, bits_low, ne_eq, h, not_false_eq_true, if_true]

/-- Settles O25. -/
theorem doubleTrapReturnAndHalt : Obligations.DoubleTrapReturnAndHalt := by
  unfold Obligations.DoubleTrapReturnAndHalt
  refine ⟨fun s c itr free part => ?_, fun s => ⟨fun sMode => ⟨fun aligned => ?_, fun askew can => ?_, fun part => ?_⟩,
    fun uMode can => ⟨?_, ?_⟩⟩⟩
  · have traps : exec (.trap c) s = .next (s.stop 1 16 s.self.pc (w64 c.toNat)) := by
      show execTrap c s = _
      rw [execTrap, s.enterTrap_double itr, s.endGang_none free]
    obtain ⟨self, r, told, kind, cause, pc⟩ := s.stop_spec s.self.pc (w64 c.toNat) part
      (kind := 1) (cause := 16) (by decide) (by decide)
    refine ⟨_, traps, ?_⟩
    rw [self]
    exact ⟨rfl, rfl, rfl, rfl, rfl, rfl, s.stop_m .., r, told, kind, cause, pc⟩
  · show execEret s = _
    rw [execEret, (s.privileged_cases _ _).1 sMode, s.returnFromTrap_cases.1 aligned]
  · show execEret s = _
    rw [execEret, (s.privileged_cases _ _).1 sMode, s.returnFromTrap_cases.2 askew, s.trap_eq can]
    rfl
  · have halts : exec .halt s = .next (s.stop 2 0 s.self.pc 0#64) := by
      show execHalt s = _
      rw [execHalt, (s.privileged_cases _ _).1 sMode]
    obtain ⟨self, r, told, kind, -⟩ := s.stop_spec s.self.pc 0#64 part (kind := 2) (cause := 0) (by decide) (by decide)
    refine ⟨_, halts, ?_⟩
    rw [self]
    exact ⟨rfl, rfl, rfl, rfl, rfl, rfl, s.stop_m .., r, told, kind⟩
  · show execEret s = _
    rw [execEret, (s.privileged_cases _ _).2 uMode, s.trap_eq can]
    rfl
  · show execHalt s = _
    rw [execHalt, (s.privileged_cases _ _).2 uMode, s.trap_eq can]
    rfl

end Sys2Proof.Machine
end

