-- ==== Sys2Proof/Proofs/Spawning.lean ====
section
/-! SUPPORT. New strands, and SPAWN (O31). -/
namespace Sys2Proof.Machine

/-! ## The best of a list, by a fold that keeps one of two -/

variable {α : Type} {g : α → α → α}

theorem foldl_select_mem (select : ∀ b x, g b x = b ∨ g b x = x) (l : List α) (c : α) : l.foldl g c ∈ c :: l := by
  induction l generalizing c with
  | nil => exact List.mem_singleton.mpr rfl
  | cons x l ih =>
    rcases select c x with h | h <;> rw [List.foldl_cons, h]
    · exact List.mem_cons.mpr ((List.mem_cons.mp (ih c)).imp_right (List.mem_cons_of_mem _))
    · exact List.mem_cons_of_mem _ (ih x)

/-- A selection that is never worse than either of the two is never worse than any of the list. -/
theorem foldl_select_dominates {R : α → α → Prop} (refl : ∀ x, R x x) (trans : ∀ {x y z}, R x y → R y z → R x z)
    (select : ∀ b x, R b (g b x) ∧ R x (g b x)) (l : List α) (c : α) : ∀ x ∈ c :: l, R x (l.foldl g c) := by
  induction l generalizing c with
  | nil => intro x hx; rw [List.mem_singleton.mp hx]; exact refl c
  | cons y l ih =>
    have best := ih (g c y) (g c y) (List.mem_cons_self ..)
    intro x hx
    rcases List.mem_cons.mp hx with rfl | hx
    · exact trans (select x y).1 best
    · rcases List.mem_cons.mp hx with rfl | hx
      · exact trans (select c x).2 best
      · exact ih (g c y) x (List.mem_cons_of_mem _ hx)

variable (s : State)

/-- The cluster chosen is one of the die's 64, and none that works has more free slots. -/
theorem State.mostFree_spec (die : Nat) : s.mostFree die (List.range 64) < 64 ∧
    ∀ c, c < 64 → (s.cluster die c).failed = false → s.freeSlots die c ≤ s.freeSlots die (s.mostFree die (List.range 64)) := by
  have works (c : Nat) : c ∈ (List.range 64).filter (fun c => !(s.cluster die c).failed) ↔
      c < 64 ∧ (s.cluster die c).failed = false := by simp
  unfold State.mostFree
  split
  · next none =>
    refine ⟨by decide, fun c hc sound => ?_⟩
    have := (works c).mpr ⟨hc, sound⟩
    rw [none] at this
    cases this
  · next c cs found =>
    rw [found] at works
    have member := foldl_select_mem (g := fun b x => if s.freeSlots die b < s.freeSlots die x then x else b)
      (fun b x => by split <;> simp) cs c
    refine ⟨((works _).mp member).1, fun c' hc' sound => ?_⟩
    exact foldl_select_dominates (R := fun x y => s.freeSlots die x ≤ s.freeSlots die y) (fun _ => le_rfl) le_trans
      (fun b x => by split <;> constructor <;> omega) cs c c' ((works c').mpr ⟨hc', sound⟩)

/-! ## Fields of words cut out in place -/

/-- A field put back where it stood is the word masked. -/
theorem word_field_eq_and (x : Word) (lo n : Nat) (hn : 0 < n) :
    w64 (bits x (lo + n - 1) lo * 2 ^ lo) = x &&& ((BitVec.allOnes n).setWidth 64 <<< lo) := by
  apply BitVec.eq_of_getLsbD_eq
  intro i hi
  have width : lo + n - 1 + 1 - lo = n := by omega
  simp only [bits, natBits, BitVec.getLsbD_ofNat, BitVec.getLsbD_and, BitVec.getLsbD_shiftLeft, BitVec.getLsbD_setWidth,
    BitVec.getLsbD_allOnes, Nat.testBit_mul_two_pow, Nat.testBit_mod_two_pow, Nat.testBit_div_two_pow, BitVec.testBit_toNat, width]
  by_cases h : lo ≤ i
  · rw [show i - lo + lo = i by omega]
    have low : ¬ i < lo := by omega
    have top : i - lo < 64 := by omega
    simp [h, hi, low, top, Bool.and_comm]
  · simp [h]

/-- The pc of a new strand: its entry with bits 1 and 0 zero (R97). -/
theorem entry_eq_and (x : Word) : w64 (bits x 63 2 * 4) = x &&& ~~~3#64 := word_field_eq_and x 2 62 (by decide)
theorem pageTable_eq_and (x : Word) : w64 (bits x 51 12 * 4096) = x &&& 0x000FFFFFFFFFF000#64 := word_field_eq_and x 12 40 (by decide)

theorem entry_of_aligned {x : Word} (h : x.toNat % 4 = 0) : w64 (bits x 63 2 * 4) = x := by
  apply BitVec.eq_of_toNat_eq
  have := x.isLt
  simp only [bits, natBits, BitVec.toNat_ofNat]
  omega

/-! ## New strands (R22, R95) -/

/-- The registers of a new strand: g1 onward hold the values listed, every other one zero. -/
theorem getG_of_regsFrom {t : Strand} {vs : List Word} (h : t.g = regsFrom vs) (r : BitVec 6) :
    t.getG r = if r = 0#6 then 0#64 else vs.getD (r.toNat - 1) 0#64 := by
  unfold Strand.getG
  split
  · rfl
  · next nz =>
    have : r.toFin.val ≠ 0 := fun e => nz (BitVec.eq_of_toNat_eq e)
    simp only [h, regsFrom, Vector.get_ofFn, this, if_false]
    rfl

/-- The strand that SPAWN makes for a launch. -/
def State.spawned (s : State) (l : Launch) (a b : BitVec 6) (cluster : Nat) (bound : Bool) : Strand :=
  let me := s.self
  { id := { uid := s.fresh, ctx := me.id.ctx, part := me.id.part, die := me.id.die, cluster := cluster, core := me.id.core
            coreBound := bound, queuedAt := s.cycle, order := s.fresh }
    st := .queued, pc := w64 (bits (s.getG a) 63 2 * 4), g := regsFrom [s.getG b, w64 me.sidNat]
    ctl := s.newCtl me.id.part me.id.die l.asid l.ptb l.tvec false, q := { q0max := l.kernel.q0 } }

/-! ## SPAWN (R25, R181) -/

section
variable {s : State} {a b : BitVec 6} {l : Launch} (cluster : Nat) (bound : Bool)

theorem State.spawn_misaligned (can : s.canTrap) (askew : (s.getG a).toNat % 4 ≠ 0) :
    s.spawn a b cluster bound = .next (s.trapped s.self.pc (alignTrap (s.getG a))) := by
  simp only [State.spawn, bits_low, ne_eq, askew, not_false_eq_true, if_true, s.trap_eq can]

theorem State.spawn_full (can : s.canTrap) (aligned : (s.getG a).toNat % 4 = 0)
    (launch : s.launchOf s.self.id.ctx = some l) (full : l.kernel.max ≤ s.liveOf s.self.id.ctx) :
    s.spawn a b cluster bound = .next (s.trapped s.self.pc (qovfTrap cluster 1)) := by
  simp only [State.spawn, bits_low, aligned, ne_eq, not_true_eq_false, if_false, launch, full, if_true, s.trap_eq can]

theorem State.spawn_made (aligned : (s.getG a).toNat % 4 = 0)
    (launch : s.launchOf s.self.id.ctx = some l) (room : s.liveOf s.self.id.ctx < l.kernel.max) :
    s.spawn a b cluster bound = .next { s.wentTo (s.self.pc + 4#64) with
      others := s.others ++ [s.spawned l a b cluster bound], fresh := s.fresh + 1 } := by
  simp only [State.spawn, bits_low, aligned, ne_eq, not_true_eq_false, if_false, launch, Nat.not_le.mpr room]
  rfl

end

theorem execSpawnNamed_below {d a b : BitVec 6} (h : (s.getG d).toNat < 64) :
    execSpawnNamed d a b s = s.spawn a b (s.getG d).toNat false := by
  simp only [execSpawnNamed, Nat.not_le.mpr h, if_false]

theorem execSpawnNamed_beyond {d a b : BitVec 6} (h : 64 ≤ (s.getG d).toNat) (can : s.canTrap) :
    execSpawnNamed d a b s = .next (s.trapped s.self.pc (illRun (s.getG d) (insWord (.spawnNamed d a b)))) := by
  simp only [execSpawnNamed, h, if_true, s.trap_eq can]

/-- Settles O31. -/
theorem spawning : Obligations.Spawning := by
  unfold Obligations.Spawning
  intro s d a b l i me entry win made
  obtain ⟨dieCluster, dieBest⟩ := s.mostFree_spec me.id.die
  refine ⟨fun launch aligned room => ?_, fun can form askew => ?_, fun can aligned launch full => ?_,
    fun can beyond => execSpawnNamed_beyond s beyond can⟩
  · have makes {cluster : Nat} {bound : Bool} {i : Instr} (spawns : exec i s = s.spawn a b cluster bound) :
        made cluster bound i := by
      have regs := getG_of_regsFrom (t := s.spawned l a b cluster bound) rfl
      refine ⟨s.spawned l a b cluster bound, _, spawns.trans (State.spawn_made cluster bound aligned launch room), rfl, rfl,
        entry_of_aligned aligned, rfl, rfl, rfl, fun _ => rfl, rfl, rfl, rfl, by simp [regs], by simp [regs, me],
        fun r h1 h2 => ?_, rfl, rfl, rfl, ?_⟩
      · rw [regs]
        refine ite_eq_left_iff.mpr fun h0 => List.getD_eq_default _ _ ?_
        show 2 ≤ r.toNat - 1
        bv_omega
      · show s.newCtl me.id.part me.id.die l.asid l.ptb l.tvec false = _
        simp only [State.newCtl, entry_eq_and, pageTable_eq_and]
        rfl
    exact ⟨makes rfl, makes rfl, fun named => makes (execSpawnNamed_below s named),
      s.mostFree me.id.die (List.range 64), dieCluster, makes rfl, dieBest⟩
  · rcases form with rfl | rfl | rfl | ⟨rfl, named⟩
    · exact State.spawn_misaligned _ _ can askew
    · exact State.spawn_misaligned _ _ can askew
    · exact State.spawn_misaligned _ _ can askew
    · exact (execSpawnNamed_below s named).trans (State.spawn_misaligned _ _ can askew)
  · intro fullAt
    have fulls {cluster : Nat} {bound : Bool} {i : Instr} (spawns : exec i s = s.spawn a b cluster bound) :
        fullAt i cluster := spawns.trans (State.spawn_full cluster bound can aligned launch full)
    exact ⟨fulls rfl, fulls rfl, fun named => fulls (execSpawnNamed_below s named),
      s.mostFree me.id.die (List.range 64), dieCluster, fulls rfl, dieBest⟩

end Sys2Proof.Machine
end

