-- ==== Sys2Proof/Proofs/Launches.lean ====
section
/-! SUPPORT. Launch messages, admission, completion and status (O48). -/
namespace Sys2Proof.Machine

variable (s : State)

/-! ## Interrupt vectors and status records (R368, R379) -/

@[simp] theorem State.signal_m (f v : Nat) : (s.signal f v).m = s.m := by
  simp only [State.signal]; split
  · rfl
  · split <;> rfl
@[simp] theorem State.signal_work (f v : Nat) : (s.signal f v).work = s.work := by
  simp only [State.signal]; split
  · rfl
  · split <;> rfl
@[simp] theorem State.signal_others (f v : Nat) : (s.signal f v).others = s.others := by
  simp only [State.signal]; split
  · rfl
  · split <;> rfl

/-- A signalled vector changes no more of its function than the Pending Bits. -/
theorem State.fn_signal {f : Nat} (hf : f < 64) (v : Nat) : ∃ pba, (s.signal f v).fn f = { s.fn f with pba := pba } := by
  simp only [State.signal]; split
  · exact ⟨_, rfl⟩
  · split
    · exact ⟨_, by rw [s.fn_setFn f f _ hf, if_pos rfl]⟩
    · exact ⟨_, rfl⟩

@[simp] theorem State.post_m (f : Nat) (r : StatusRec) : (s.post f r).m = s.m := State.signal_m ..
@[simp] theorem State.post_work (f : Nat) (r : StatusRec) : (s.post f r).work = s.work := State.signal_work ..
@[simp] theorem State.post_others (f : Nat) (r : StatusRec) : (s.post f r).others = s.others := State.signal_others ..

/-- A posted record joins the FIFO of its function, and the mailbox stays. -/
theorem State.fn_post {f : Nat} (hf : f < 64) (r : StatusRec) :
    ((s.post f r).fn f).fifo = (s.fn f).fifo ++ [r] ∧ ((s.post f r).fn f).mailbox = (s.fn f).mailbox := by
  obtain ⟨pba, h⟩ := State.fn_signal (s.setFn f { s.fn f with fifo := (s.fn f).fifo ++ [r] }) hf 1
  simp only [State.post, h, s.fn_setFn f f _ hf, if_true, and_self]

/-! ## Messages and status reads (R376, R379) -/

section
variable {s} {fn : Nat} (alive : s.dead fn = false)
include alive

theorem State.not_absent : s.absent fn = false := by
  simp only [State.dead, Bool.or_eq_false_iff] at alive
  exact alive.2

theorem execLaunchMessage_queued (msg : BitVec 512) (room : (s.fn fn).mailbox.length < 16) :
    execLaunchMessage fn msg true s =
      .next (s.setFn fn { s.fn fn with mailbox := (s.fn fn).mailbox ++ [(msg, (s.part fn).tstate == .run)] }) := by
  simp only [execLaunchMessage, alive, room, Bool.not_true, Bool.or_false, Bool.false_eq_true, if_false, if_true]

theorem execLaunchMessage_full (msg : BitVec 512) (full : 16 ≤ (s.fn fn).mailbox.length)
    (room : s.roomForFull fn = true) (none : (s.fn fn).fullCount = 0) :
    execLaunchMessage fn msg true s =
      .next (s.post fn (statusRec 2 11 0 (bits (msgWord msg 0) 10 8) (bits (msgWord msg 0) 63 32))) := by
  simp [execLaunchMessage, alive, Nat.not_lt.mpr full, room, none]

theorem State.statusRead_pops {r : StatusRec} {rest : List StatusRec} (fifo : (s.fn fn).fifo = r :: rest)
    (none : (s.fn fn).fullCount = 0) : s.statusRead fn =
      (s.setFn fn { s.fn fn with fifo := rest }).reply fn (leBytes 8 r.word0.toNat ++ leBytes 8 r.word1.toNat) := by
  simp only [State.statusRead, s.not_absent alive, alive, fifo, none, Bool.false_eq_true, if_false, if_true]

end

/-! ## Refusals (R383) -/

/-- The state in which the oldest message of a mailbox is taken out and a record posted. -/
def State.settled (s : State) (fn : Nat) (rest : List (BitVec 512 × Bool)) (r : StatusRec) : State :=
  (s.setFn fn { s.fn fn with mailbox := rest }).post fn r

theorem State.fn_settled {fn : Nat} (hf : fn < 64) (rest : List (BitVec 512 × Bool)) (r : StatusRec) :
    ((s.settled fn rest r).fn fn).mailbox = rest ∧ ((s.settled fn rest r).fn fn).fifo = (s.fn fn).fifo ++ [r] := by
  obtain ⟨fifo, mailbox⟩ := State.fn_post (s.setFn fn { s.fn fn with mailbox := rest }) hf r
  simp only [State.settled, fifo, mailbox, s.fn_setFn fn fn _ hf, if_true, and_self]

/-- A message refused with a code. -/
def State.refusedWith (s : State) (fn : Nat) (rest : List (BitVec 512 × Bool)) (msg : BitVec 512) (code : Nat) : Out :=
  .next (s.settled fn rest (statusRec 2 code 0 (bits (msgWord msg 0) 10 8) (bits (msgWord msg 0) 63 32)))

/-- What becomes of the oldest message of a mailbox (R378, R383). The further codes have a name of their own, lest the kernel
compute them: they compare with 2^28. -/
theorem execLaunchAdmission_spec {fn : Nat} {msg : BitVec 512} {up : Bool} {rest : List (BitVec 512 × Bool)}
    {codes : Nat → BitVec 512 → Graph → Kernel → List Nat} (named : s.refusals fn = codes)
    (oldest : (s.fn fn).mailbox = (msg, up) :: rest) (room : s.roomToAdmit fn = true) :
    (up = false ∨ (s.part fn).tstate ≠ .run → execLaunchAdmission fn s = s.refusedWith fn rest msg 1) ∧
    (up = true → (s.part fn).tstate = .run →
      (badFormat msg = true → execLaunchAdmission fn s = s.refusedWith fn rest msg 2) ∧
      (badFormat msg = false → (s.die (bits (msgWord msg 0) 10 8)).trained = true →
        (s.graphOf fn (msgWord msg 1) = none → execLaunchAdmission fn s = s.refusedWith fn rest msg 3) ∧
        ∀ g, s.graphOf fn (msgWord msg 1) = some g →
          (g.kernels[bits (msgWord msg 2) 15 0]? = none → execLaunchAdmission fn s = s.refusedWith fn rest msg 3) ∧
          ∀ k, g.kernels[bits (msgWord msg 2) 15 0]? = some k →
            (∀ c cs, codes (bits (msgWord msg 0) 10 8) msg g k = c :: cs →
              execLaunchAdmission fn s = s.refusedWith fn rest msg c) ∧
            (codes (bits (msgWord msg 0) 10 8) msg g k = [] → execLaunchAdmission fn s =
              .next ((s.setFn fn { s.fn fn with mailbox := rest }).admitLaunch fn (bits (msgWord msg 0) 10 8) msg k)))) := by
  unfold execLaunchAdmission State.refusedWith State.settled
  rw [named]
  simp only [oldest, room, Bool.not_true, Bool.false_eq_true, if_false]
  refine ⟨fun stopped => ?_, fun isUp run => ⟨fun bad => ?_, fun good trained => ⟨fun graph => ?_, fun g graph =>
    ⟨fun kernel => ?_, fun k kernel => ⟨fun c cs meets => ?_, fun meets => ?_⟩⟩⟩⟩⟩
  · rw [if_pos (by simpa using stopped)]
  · simp [isUp, run, bad]
  · simp [isUp, run, good, trained, graph]
  · simp [isUp, run, good, trained, graph, kernel]
  · simp [isUp, run, good, trained, graph, kernel, meets]
  · simp [isUp, run, good, trained, graph, kernel, meets]

/-! ## Root strands (R118, R378) -/

/-- A root strand of a launch joins a spawn queue. -/
def State.startRoot (s : State) (l : Launch) (arg0 arg1 : Word) (i : Nat) : State :=
  s.newStrand (.launch l.die l.lid) l.part l.die
    (if l.kernel.onDie then s.mostFree l.die (List.range 64) else l.kernel.cluster) 0 false l.kernel.entry
    [w64 i, arg0, arg1, w64 l.lid] (s.newCtl l.part l.die l.asid l.ptb l.tvec false) l.kernel.q0

theorem State.startRoots_eq (l : Launch) (arg0 arg1 : Word) :
    s.startRoots l arg0 arg1 = (List.range l.kernel.roots).foldl (fun s i => s.startRoot l arg0 arg1 i) s := rfl

theorem State.startRoot_m (l : Launch) (arg0 arg1 : Word) (i : Nat) : (s.startRoot l arg0 arg1 i).m = s.m := rfl
theorem State.startRoot_work (l : Launch) (arg0 arg1 : Word) (i : Nat) : (s.startRoot l arg0 arg1 i).work = s.work := rfl
theorem State.startRoot_host (l : Launch) (arg0 arg1 : Word) (i : Nat) : (s.startRoot l arg0 arg1 i).host = s.host := rfl

@[simp] theorem State.startRoots_m (l : Launch) (arg0 arg1 : Word) : (s.startRoots l arg0 arg1).m = s.m := by
  rw [s.startRoots_eq]
  exact foldl_keeps (g := State.m) (fun t i => t.startRoot_m l arg0 arg1 i) _ s
@[simp] theorem State.startRoots_work (l : Launch) (arg0 arg1 : Word) : (s.startRoots l arg0 arg1).work = s.work := by
  rw [s.startRoots_eq]
  exact foldl_keeps (g := State.work) (fun t i => t.startRoot_work l arg0 arg1 i) _ s
@[simp] theorem State.startRoots_host (l : Launch) (arg0 arg1 : Word) : (s.startRoots l arg0 arg1).host = s.host := by
  rw [s.startRoots_eq]
  exact foldl_keeps (g := State.host) (fun t i => t.startRoot_host l arg0 arg1 i) _ s

/-- A root strand of number `i` as it is queued. -/
def IsRoot (l : Launch) (arg0 arg1 : Word) (i : Nat) (y : Strand) : Prop :=
  y.st = .queued ∧ y.id.ctx = .launch l.die l.lid ∧ y.pc = l.kernel.entry &&& ~~~3#64 ∧
    y.g = regsFrom [w64 i, arg0, arg1, w64 l.lid]

theorem State.startRoot_others (l : Launch) (arg0 arg1 : Word) (i : Nat) :
    ∃ y : Strand, IsRoot l arg0 arg1 i y ∧ (s.startRoot l arg0 arg1 i).others = s.others ++ [y] := by
  refine ⟨_, ?_, rfl⟩
  exact ⟨rfl, rfl, entry_eq_and l.kernel.entry, rfl⟩

theorem State.startRoots_others (l : Launch) (arg0 arg1 : Word) :
    ∃ ys : List Strand, (s.startRoots l arg0 arg1).others = s.others ++ ys ∧ ys.length = l.kernel.roots ∧
      ∀ i y, ys[i]? = some y → IsRoot l arg0 arg1 i y := by
  rw [s.startRoots_eq]
  induction l.kernel.roots with
  | zero => exact ⟨[], by simp⟩
  | succ n ih =>
    obtain ⟨ys, others, len, roots⟩ := ih
    obtain ⟨z, root, last⟩ := State.startRoot_others ((List.range n).foldl (fun s i => s.startRoot l arg0 arg1 i) s) l arg0 arg1 n
    refine ⟨ys ++ [z], ?_, by simp [len], fun i y hy => ?_⟩
    · rw [List.range_succ, List.foldl_append, List.foldl_cons, List.foldl_nil, last, others, List.append_assoc]
    · rcases Nat.lt_trichotomy i n with h | h | h
      · rw [List.getElem?_append_left (by omega)] at hy
        exact roots i y hy
      · rw [h, ← len, List.getElem?_concat_length] at hy
        rw [h, ← Option.some.inj hy]
        exact root
      · rw [List.getElem?_eq_none (by simp; omega)] at hy
        cases hy

/-! ## Completion (R30, R379) -/

@[simp] theorem State.freeRegion_host (rid : Nat) : (s.freeRegion rid).host = s.host := by
  simp only [State.freeRegion]; split <;> rfl

/-- A launch of which nothing is left ends. -/
theorem execLaunchComplete_ends {die lid : Nat} {l : Launch} (launch : s.launch? die lid = some l)
    (strands : s.liveOf (.launch die lid) = 0) (copies : ∀ c ∈ s.work.copies, c.site.ctx ≠ .launch die lid)
    (residencies : ∀ y ∈ s.work.residencies, y.launch ≠ (die, lid)) :
    ∃ u : State, u.host = s.host ∧ u.launch? die lid = none ∧ execLaunchComplete die lid s =
      .next (if l.vec = 0 then u.post l.part (l.endRec 3) else (u.post l.part (l.endRec 3)).signal l.part l.vec) := by
  have noCopy : s.work.copies.any (fun c => c.site.ctx == .launch die lid) = false := by simpa using copies
  have noResidency : s.work.residencies.any (fun y => y.launch == (die, lid)) = false := by simpa using residencies
  simp only [execLaunchComplete, launch, strands, noCopy, noResidency]
  refine ⟨_, ?_, ?_, rfl⟩
  · exact foldl_keeps (g := State.host) (fun t (r : Region) => t.freeRegion_host r.rid) _ s
  · refine List.find?_eq_none.mpr fun x hx same => ?_
    have kept := (List.mem_filter.mp hx).2
    rw [same] at kept
    cases kept

/-- The launch that a message makes. -/
def State.launchFor (s : State) (fn die : Nat) (m : BitVec 512) (k : Kernel) : Launch :=
  { die := die, lid := s.freshLid die, part := fn, tag := bits (msgWord m 0) 63 32, vec := bits (msgWord m 0) 21 16
    graph := (msgWord m 1).toNat, kernel := k, asid := (s.part fn).asidBase + bits (msgWord m 2) 24 16
    ptb := msgWord m 3, tvec := msgWord m 4, drops := 0, lost := 0 }

/-- A launch admitted: it joins the launches, its record is posted, its roots are queued. -/
theorem State.admitLaunch_spec {fn : Nat} (hf : fn < 64) (die : Nat) (m : BitVec 512) (k : Kernel) :
    (s.admitLaunch fn die m k).m = s.m ∧
    (s.admitLaunch fn die m k).work.launches = s.work.launches ++ [s.launchFor fn die m k] ∧
    ((s.admitLaunch fn die m k).fn fn).mailbox = (s.fn fn).mailbox ∧
    ((s.admitLaunch fn die m k).fn fn).fifo =
      (s.fn fn).fifo ++ [statusRec 1 0 (s.freshLid die) die (bits (msgWord m 0) 63 32)] ∧
    ∃ ys : List Strand, (s.admitLaunch fn die m k).others = s.others ++ ys ∧ ys.length = k.roots ∧
      ∀ i y, ys[i]? = some y → IsRoot (s.launchFor fn die m k) (msgWord m 5) (msgWord m 6) i y := by
  let l := s.launchFor fn die m k
  let u : State := { s with work := { s.work with launches := s.work.launches ++ [l] } }
  let r := statusRec 1 0 (s.freshLid die) die (bits (msgWord m 0) 63 32)
  have admits : s.admitLaunch fn die m k = (u.post fn r).startRoots l (msgWord m 5) (msgWord m 6) := rfl
  obtain ⟨fifo, mailbox⟩ := u.fn_post hf r
  obtain ⟨ys, others, len, roots⟩ := (u.post fn r).startRoots_others l (msgWord m 5) (msgWord m 6)
  rw [admits]
  refine ⟨?_, ?_, ?_, ?_, ys, ?_, len, roots⟩
  · rw [State.startRoots_m, State.post_m]
  · rw [State.startRoots_work, State.post_work]
  · rw [State.fn, State.startRoots_host]
    exact mailbox
  · rw [State.fn, State.startRoots_host]
    exact fifo
  · rw [others, State.post_others]

/-- Settles O48. -/
theorem launches : Obligations.Launches := by
  unfold Obligations.Launches
  intro s fn msg hfn x die tag posts
  refine ⟨fun alive => ⟨fun room => ?_, fun full room none => ?_, fun r rest fifo none => ?_⟩, fun up rest oldest room => ?_,
    fun lid l launch part strands copies residencies => ?_⟩
  · refine ⟨_, execLaunchMessage_queued alive msg room, rfl, ?_⟩
    simp only [s.fn_setFn fn fn _ hfn, if_true]
    exact ⟨rfl, rfl⟩
  · obtain ⟨fifo, mailbox⟩ := s.fn_post hfn (statusRec 2 11 0 die tag)
    exact ⟨_, execLaunchMessage_full alive msg full room none, mailbox, fifo⟩
  · refine ⟨_, congrArg Host.Outcome.next (State.statusRead_pops alive fifo none), rfl, ?_, rfl⟩
    show ((s.setFn fn _).fn fn).fifo = rest
    rw [s.fn_setFn fn fn _ hfn, if_pos rfl]
  · intro refuses
    have refuse {code : Nat} (h : execLaunchAdmission fn s = s.refusedWith fn rest msg code) : refuses code := by
      obtain ⟨mailbox, fifo⟩ := s.fn_settled hfn rest (statusRec 2 code 0 die tag)
      exact ⟨_, h, mailbox, fifo, congrArg WorkSide.launches (State.post_work ..)⟩
    obtain ⟨stops, runs⟩ := execLaunchAdmission_spec s rfl oldest room
    refine ⟨fun h => refuse (stops h), fun isUp run bad => refuse ((runs isUp run).1 bad),
      fun isUp run good trained graph => refuse (((runs isUp run).2 good trained).1 graph),
      fun g isUp run good trained graph => ?_⟩
    obtain ⟨noKernel, hasKernel⟩ := ((runs isUp run).2 good trained).2 g graph
    refine ⟨fun none => refuse (noKernel none), fun k kernel => ⟨fun c cs codes => refuse ((hasKernel k kernel).1 c cs codes),
      fun codes => ⟨_, (hasKernel k kernel).2 codes, ?_⟩⟩⟩
    let u : State := s.setFn fn { s.fn fn with mailbox := rest }
    have fnOfU : u.fn fn = { s.fn fn with mailbox := rest } := (s.fn_setFn fn fn _ hfn).trans (if_pos rfl)
    obtain ⟨mem, joins, mailbox, fifo, ys, others, len, roots⟩ := u.admitLaunch_spec hfn die msg k
    rw [fnOfU] at mailbox fifo
    exact ⟨mailbox, mem, u.launchFor fn die msg k, ys, joins, rfl, rfl, rfl, rfl, rfl, rfl, rfl, fifo, others, len, roots⟩
  · obtain ⟨u, host, gone, ends⟩ := execLaunchComplete_ends s launch strands copies residencies
    have posted : ((u.post fn (l.endRec 3)).fn fn).fifo = x.fifo ++ [l.endRec 3] := by
      rw [(u.fn_post hfn _).1]
      simp only [State.fn, host, x]
    refine ⟨_, ends, ?_⟩
    rw [part]
    split
    · exact ⟨by rw [State.launch?, State.post_work]; exact gone, posted⟩
    · obtain ⟨pba, told⟩ := State.fn_signal (u.post fn (l.endRec 3)) hfn l.vec
      exact ⟨by rw [State.launch?, State.signal_work, State.post_work]; exact gone, (congrArg HostFn.fifo told).trans posted⟩

end Sys2Proof.Machine
end

