-- ==== Sys2Proof/Proofs/Exit.lean ====
section
/-! SUPPORT. What retiring leaves of the machine, and EXIT, YIELD, TWAIT and fences (O32). -/
namespace Sys2Proof.Machine

variable (s : State)

/-! ## Operations that touch one side of the state -/

/-- A message put on a port changes only the host side. -/
theorem State.sendLink_only (part die : Nat) (line : Option Nat) (m : OutMsg) :
    ∃ h, s.sendLink part die line m = { s with host := h } := by
  unfold State.sendLink State.send
  simp only []
  split
  · cases m <;> exact ⟨_, rfl⟩
  · exact ⟨_, rfl⟩

/-- A wait on a cell given up changes only the host side and the cells. -/
theorem State.leaveCell_only (t : Strand) : ∃ h c, s.leaveCell t = { s with host := h, cells := c } := by
  unfold State.leaveCell
  split
  · next rq c far =>
    obtain ⟨h, e⟩ := s.sendLink_only t.id.part t.id.die (some t.park.loc)
      (.request rq 17 32 t.park.loc 0#64 0#512 0#64 0 true)
    exact ⟨h, s.cells, e⟩
  · exact ⟨s.host, _, rfl⟩

/-- A region freed changes translations, work and cells, but neither bytes nor launches. -/
theorem State.freeRegion_only (rid : Nat) :
    ∃ m w c, s.freeRegion rid = { s with m := m, work := w, cells := c } ∧ m.mem = s.m.mem ∧ w.launches = s.work.launches := by
  unfold State.freeRegion
  split <;> exact ⟨_, _, _, rfl, rfl, rfl⟩

/-! ## States in which no strand has lost registers or messages -/

/-- A strand's identity, registers and queues are as they were. -/
def Strand.Alike (t u : Strand) : Prop := u.id = t.id ∧ u.g = t.g ∧ u.v = t.v ∧ u.k = t.k ∧ u.q = t.q

theorem Strand.Alike.refl (t : Strand) : t.Alike t := ⟨rfl, rfl, rfl, rfl, rfl⟩
theorem Strand.Alike.trans {t u v : Strand} (a : t.Alike u) (b : u.Alike v) : t.Alike v := by
  obtain ⟨a1, a2, a3, a4, a5⟩ := a
  obtain ⟨b1, b2, b3, b4, b5⟩ := b
  exact ⟨b1.trans a1, b2.trans a2, b3.trans a3, b4.trans a4, b5.trans a5⟩

/-- From `s` to `t` the seat and every other strand keep identity, registers and queues; bytes of memory and launches stay. -/
structure Calm (s t : State) : Prop where
  self : s.self.Alike t.self
  others : ∀ x ∈ t.others, ∃ y ∈ s.others, y.Alike x
  mem : t.m.mem = s.m.mem
  launches : t.work.launches = s.work.launches

namespace Calm

theorem trans {s t u : State} (a : Calm s t) (b : Calm t u) : Calm s u where
  self := a.self.trans b.self
  others x hx := by
    obtain ⟨y, hy, xy⟩ := b.others x hx
    obtain ⟨z, hz, yz⟩ := a.others y hy
    exact ⟨z, hz, yz.trans xy⟩
  mem := b.mem.trans a.mem
  launches := b.launches.trans a.launches

/-- The strands are the same. -/
theorem of_same {s t : State} (self : t.self = s.self) (others : t.others = s.others) (mem : t.m.mem = s.m.mem)
    (launches : t.work.launches = s.work.launches) : Calm s t where
  self := self ▸ .refl _
  others x hx := ⟨x, others ▸ hx, .refl _⟩
  mem := mem
  launches := launches

theorem refl (s : State) : Calm s s := of_same rfl rfl rfl rfl

theorem foldl {α : Type} {f : State → α → State} (h : ∀ s a, Calm s (f s a)) (l : List α) (s : State) :
    Calm s (l.foldl f s) := by
  induction l generalizing s with
  | nil => exact refl s
  | cons a l ih => exact (h s a).trans (ih (f s a))

/-- The strands have changed by a function that keeps what counts. -/
theorem mapStrands {f : Strand → Strand} (h : ∀ x : Strand, x.Alike (f x)) (s : State) : Calm s (s.mapStrands f) where
  self := h s.self
  others x hx := by
    obtain ⟨y, hy, rfl⟩ := List.mem_map.mp hx
    exact ⟨y, hy, h y⟩
  mem := rfl
  launches := rfl

theorem mapStrand {f : Strand → Strand} (h : ∀ x : Strand, x.Alike (f x)) (uid : Nat) (s : State) : Calm s (s.mapStrand uid f) :=
  mapStrands (fun x => by split; exacts [h x, .refl x]) s

theorem sendLink (part die : Nat) (line : Option Nat) (m : OutMsg) : Calm s (s.sendLink part die line m) := by
  obtain ⟨h, e⟩ := s.sendLink_only part die line m
  rw [e]
  exact of_same rfl rfl rfl rfl

theorem leaveCell (t : Strand) : Calm s (s.leaveCell t) := by
  obtain ⟨h, c, e⟩ := s.leaveCell_only t
  rw [e]
  exact of_same rfl rfl rfl rfl

theorem mapFollower {f : Strand → Strand} (h : ∀ x : Strand, x.Alike (f x)) : Calm s (s.mapFollower f) := by
  unfold State.mapFollower
  split
  · exact refl s
  · refine ⟨.refl _, fun x hx => ?_, rfl, rfl⟩
    obtain ⟨y, hy, rfl⟩ := List.mem_map.mp hx
    exact ⟨y, hy, by split; exacts [h y, .refl y]⟩

theorem endGang : Calm s s.endGang := by
  unfold State.endGang
  split
  · have split : Calm s (s.mapFollower Strand.splitOff) := mapFollower s (fun x => ⟨rfl, rfl, rfl, rfl, rfl⟩)
    exact split.trans ⟨⟨rfl, rfl, rfl, rfl, rfl⟩, fun x hx => ⟨x, hx, .refl x⟩, rfl, rfl⟩
  · exact refl s

theorem wakeWaiter (part pa : Nat) (w : Waiter) : Calm s (s.wakeWaiter part pa w) := by
  cases w with
  | strand uid => exact mapStrand (fun x => by split <;> exact ⟨rfl, rfl, rfl, rfl, rfl⟩) uid s
  | mp rid row key => exact of_same rfl rfl rfl rfl
  | remote m rq => exact sendLink s _ _ _ _

theorem endEclosion (e : Eclosion) : Calm s (s.endEclosion e) := by
  unfold State.endEclosion
  extract_lets es
  have freed : Calm s { s with cells := { s.cells with eclosions := es } } := of_same rfl rfl rfl rfl
  exact freed.trans (foldl (fun s w => wakeWaiter s e.site.part e.cell w) e.waiters _)

theorem poisonCellsOf (uid : Nat) : Calm s (s.poisonCellsOf uid) := by
  refine foldl (fun s e => ?_) _ s
  have tagged : Calm s (s.setTag e.cell .poison) := of_same rfl rfl rfl rfl
  exact tagged.trans (endEclosion _ e)

theorem freeRegion (rid : Nat) : Calm s (s.freeRegion rid) := by
  obtain ⟨m, w, c, e, mem, launches⟩ := s.freeRegion_only rid
  rw [e]
  exact of_same rfl rfl mem launches

theorem freeResidency (r : Residency) : Calm s (s.freeResidency r) := by
  have owned (s : State) : Calm s (s.mapStrand r.owner (fun t => { t with waits := { t.waits with
      deferred := t.waits.deferred.filter (fun d => d.isCopy || d.who != r.entry) } })) := by
    refine mapStrand (fun x => ?_) r.owner s
    exact ⟨rfl, rfl, rfl, rfl, rfl⟩
  have decided (s : State) : Calm s (if r.migrated then s.needDecision r.die r.cluster else s) := by
    split; exacts [of_same rfl rfl rfl rfl, refl s]
  unfold State.freeResidency
  extract_lets l w s1 s2 s3
  have left : Calm s s1 := of_same rfl rfl rfl rfl
  have calm : Calm s s3 := (left.trans (owned s1)).trans (decided s2)
  split
  exacts [calm.trans (freeRegion s3 _), calm.trans (of_same rfl rfl rfl rfl), calm]

theorem orphan (uid : Nat) : Calm s (s.orphan uid) :=
  (foldl (f := State.freeResidency) freeResidency _ s).trans (of_same rfl rfl rfl rfl)

theorem releaseRing (q : Nat) : Calm s (s.releaseRing q) := of_same rfl rfl rfl rfl

theorem unanswered (t : Strand) : Calm s (s.unanswered t) := by
  unfold State.unanswered
  split
  · exact of_same rfl rfl rfl rfl
  · exact refl s

end Calm

/-! ## Spilled messages (R46, R62) -/

/-- No strand has more messages than fit in its q0. -/
def State.unspilled (s : State) : Prop := ∀ x ∈ s.all, x.q.q0.length ≤ 8

theorem State.heldMsgs_short {t : Strand} (h : t.q.q0.length ≤ 8) : s.heldMsgs t = t.q.q0 := by
  unfold State.heldMsgs
  split
  · rw [List.drop_of_length_le h, List.take_of_length_le h, List.map_nil, List.append_nil]
  · rfl

/-- A change to every strand that changes none. -/
theorem State.mapStrands_id {f : Strand → Strand} (h : ∀ x ∈ s.all, f x = x) : s.mapStrands f = s := by
  unfold State.mapStrands
  rw [h s.self (List.mem_cons_self ..), List.map_congr_left fun t ht => h t (List.mem_cons_of_mem _ ht), List.map_id']

theorem State.liftSpills_unspilled (h : s.unspilled) (die cluster core : Nat) : s.liftSpills die cluster core = s :=
  s.mapStrands_id fun t ht => by rw [s.heldMsgs_short (h t ht), ite_self]

/-- Steps that change only memory change only memory together. -/
theorem foldl_only_m {α : Type} {f : State → α → State} (h : ∀ s a, ∃ m, f s a = { s with m := m }) (l : List α) (s : State) :
    ∃ m, l.foldl f s = { s with m := m } := by
  induction l generalizing s with
  | nil => exact ⟨s.m, rfl⟩
  | cons a l ih =>
    obtain ⟨m, e⟩ := h s a
    obtain ⟨m', e'⟩ := ih { s with m := m }
    exact ⟨m', by rw [List.foldl_cons, e, e']⟩

theorem State.laySpill_only (t : Strand) : ∃ m, s.laySpill t = { s with m := m } := by
  unfold State.laySpill
  split
  · exact foldl_only_m (fun s m => ⟨_, rfl⟩) _ s
  · exact ⟨s.m, rfl⟩

theorem State.laySpills_only (die cluster core : Nat) : ∃ m, s.laySpills die cluster core = { s with m := m } :=
  foldl_only_m State.laySpill_only _ s

theorem State.laySpill_short {t : Strand} (h : t.q.q0.length ≤ 8) : s.laySpill t = s := by
  unfold State.laySpill
  rw [List.drop_of_length_le h, List.foldl_nil, ite_self]

theorem State.laySpills_unspilled (h : s.unspilled) (die cluster core : Nat) : s.laySpills die cluster core = s := by
  unfold State.laySpills
  refine List.foldlRecOn _ _ (motive := fun t => t = s) rfl ?_
  rintro _ rfl t ht
  exact State.laySpill_short _ (h t (List.mem_filter.mp ht).1)

/-- A departure from a core moves spilled messages, and changes nothing else but what it does itself; where nothing is
spilled before or after, it is no more than that. -/
theorem State.leavingCore_spec (f : State → State) (g : ∀ t, t.unspilled → (f t).unspilled) :
    ∃ u m, s.leavingCore f = { f u with m := m } ∧ u.self.id = s.self.id ∧ u.self.g = s.self.g ∧ u.work = s.work ∧
      (s.unspilled → u = s ∧ m = (f s).m) := by
  dsimp only [State.leavingCore]
  split
  · obtain ⟨m, e⟩ := (f (s.liftSpills s.self.id.die s.self.id.cluster s.self.id.core)).laySpills_only
      s.self.id.die s.self.id.cluster s.self.id.core
    refine ⟨_, m, e, ?_, ?_, rfl, fun short => ?_⟩
    · simp only [State.liftSpills, State.mapStrands]; split <;> rfl
    · simp only [State.liftSpills, State.mapStrands]; split <;> rfl
    · have lifted := s.liftSpills_unspilled short s.self.id.die s.self.id.cluster s.self.id.core
      rw [lifted, State.laySpills_unspilled _ (g s short)] at e
      exact ⟨lifted, (congrArg State.m e).symm⟩
  · exact ⟨s, (f s).m, rfl, rfl, rfl, rfl, fun _ => ⟨rfl, rfl⟩⟩

/-! ## Retiring (R30, R182) -/

/-- What retiring does between the spill areas. -/
def State.retired (s : State) : State :=
  let s := [1, 2, 3].foldl State.releaseRing s.endGang
  let t := s.self
  let s := s.poisonCellsOf t.id.uid
  let s := (s.orphan t.id.uid).unanswered t
  let s := s.leaveCell t
  let s := s.quiesce t.id.uid false
  let copies := s.work.copies.filter (fun c => !(c.bounced && c.uid == t.id.uid))
  let s := { s with work := { s.work with copies := copies } }
  { s with self := { s.self with st := .retired, q := {}, park := {}, waits := {} } }

theorem State.retireSeat_eq : s.retireSeat = s.leavingCore State.retired := rfl

/-- The state in which the seat is only left to be marked RETIRED. -/
theorem State.retired_eq : ∃ u, Calm s u ∧
    s.retired = { u with self := { u.self with st := .retired, q := {}, park := {}, waits := {} } } := by
  let s1 := [1, 2, 3].foldl State.releaseRing s.endGang
  let t := s1.self
  let s2 := ((s1.poisonCellsOf t.id.uid).orphan t.id.uid).unanswered t
  let s3 := (s2.leaveCell t).quiesce t.id.uid false
  let copies := s3.work.copies.filter (fun c => !(c.bounced && c.uid == t.id.uid))
  have rings : Calm s s1 := (Calm.endGang s).trans (Calm.foldl Calm.releaseRing [1, 2, 3] s.endGang)
  have orphans : Calm s1 s2 := ((Calm.poisonCellsOf s1 _).trans (Calm.orphan _ _)).trans (Calm.unanswered _ t)
  have leaves : Calm s2 s3 := (Calm.leaveCell s2 t).trans (Calm.of_same rfl rfl rfl rfl)
  have drops : Calm s3 { s3 with work := { s3.work with copies := copies } } := Calm.of_same rfl rfl rfl rfl
  exact ⟨_, ((rings.trans orphans).trans leaves).trans drops, rfl⟩

theorem State.retired_unspilled (h : s.unspilled) : s.retired.unspilled := by
  obtain ⟨u, calm, e⟩ := s.retired_eq
  rw [e]
  intro x hx
  rcases List.mem_cons.mp hx with rfl | hx
  · exact Nat.zero_le 8
  · obtain ⟨y, hy, -, -, -, -, q⟩ := calm.others x hx
    rw [q]
    exact h y (List.mem_cons_of_mem _ hy)

/-- A retired strand keeps its registers and loses its messages; launches stay, and so does memory where nothing is
spilled. -/
theorem State.retireSeat_spec : s.retireSeat.self.st = .retired ∧ s.retireSeat.self.q = {} ∧
    s.retireSeat.self.g = s.self.g ∧ s.retireSeat.work.launches = s.work.launches ∧
    (s.unspilled → s.retireSeat.m.mem = s.m.mem) := by
  obtain ⟨u, m, e, -, g, work, short⟩ := s.leavingCore_spec State.retired (fun t ht => t.retired_unspilled ht)
  obtain ⟨v, calm, ev⟩ := u.retired_eq
  obtain ⟨-, hg, -⟩ := calm.self
  rw [s.retireSeat_eq, e, ev]
  refine ⟨rfl, rfl, hg.trans g, calm.launches.trans (congrArg _ work), fun h => ?_⟩
  obtain ⟨rfl, hm⟩ := short h
  rw [ev] at hm
  exact (congrArg MemSide.mem hm).trans calm.mem

/-! ## EXIT (R30, R182) -/

@[simp] theorem State.countDrops_self (c : Context) (n : Nat) : (s.countDrops c n).self = s.self := by
  cases c <;> rfl
@[simp] theorem State.countDrops_others (c : Context) (n : Nat) : (s.countDrops c n).others = s.others := by
  cases c <;> rfl
@[simp] theorem State.countDrops_m (c : Context) (n : Nat) : (s.countDrops c n).m = s.m := by
  cases c <;> rfl

/-- A launch changed without its name is found changed. -/
theorem State.launch?_mapLaunch {die lid : Nat} {l : Launch} {f : Launch → Launch} (named : ∀ l, (f l).die = l.die ∧ (f l).lid = l.lid)
    (h : s.launch? die lid = some l) : (s.mapLaunch die lid f).launch? die lid = some (f l) := by
  have found := List.find?_some h
  have same : ((fun l : Launch => l.die == die && l.lid == lid) ∘ fun l => if l.die == die && l.lid == lid then f l else l) =
      fun l => l.die == die && l.lid == lid := by
    funext x
    simp only [Function.comp]
    split
    · rw [(named x).1, (named x).2]
    · rfl
  simp only [State.launch?, State.mapLaunch, List.find?_map, same]
  rw [show s.work.launches.find? _ = some l from h, Option.map_some, if_pos found]

/-- What EXIT leaves of the strand, of memory and of its launch. -/
theorem State.exitSeat_spec : s.exitSeat.self.st = .retired ∧ s.exitSeat.self.q = {} ∧ s.exitSeat.self.g = s.self.g ∧
    (s.unspilled → s.exitSeat.m.mem = s.m.mem) ∧
    ∀ die lid l, s.self.id.ctx = .launch die lid → s.launch? die lid = some l → ∃ l', s.exitSeat.launch? die lid = some l' ∧
      l'.drops = min (l.drops + s.self.q.q0.length) 4294967295 := by
  obtain ⟨st, q, g, launches, mem⟩ := (s.countDrops s.self.id.ctx s.self.q.q0.length).retireSeat_spec
  rw [State.countDrops_self] at g
  rw [State.countDrops_m] at mem
  refine ⟨st, q, g, fun h => mem ?_, fun die lid l ctx launch => ?_⟩
  · unfold State.unspilled State.all at h ⊢
    rwa [State.countDrops_self, State.countDrops_others]
  · rw [ctx] at launches
    have counted := s.launch?_mapLaunch (f := fun x => { x with drops := min (x.drops + s.self.q.q0.length) (2 ^ 32 - 1) })
      (fun l => ⟨rfl, rfl⟩) launch
    refine ⟨_, Eq.trans ?_ counted, rfl⟩
    rw [State.exitSeat, ctx, State.launch?, launches]
    rfl

/-! ## Fences (R160, R316, R318, R441) -/

/-- The kinds that a FENCE orders beyond load to load. -/
theorem fence_kinds (m : BitVec 4) : bits m 3 1 = 0 ↔ m.extractLsb' 1 3 = 0#3 := by
  revert m
  decide

/-- Settles O32. -/
theorem exitYieldWaitAndFences : Obligations.ExitYieldWaitAndFences := by
  unfold Obligations.ExitYieldWaitAndFences
  refine ⟨fun s a die lid => ⟨fun waits => ?_, fun acked => ?_, rfl, fun due => ?_, fun early => ?_⟩,
    fun s a c m => ⟨rfl, rfl, rfl, fun none => ?_, fun orders free => ?_, fun orders domain held => ?_⟩⟩
  · show execExit s = _
    rw [execExit, if_pos waits]
  · have exits : exec .exit s = .next s.exitSeat := by
      show execExit s = _
      rw [execExit, if_neg (by simp [acked])]
    obtain ⟨st, q, g, mem, drops⟩ := s.exitSeat_spec
    exact ⟨_, exits, st, q, by simp [Strand.live, st], g, mem, fun ctx l launch => drops die lid l ctx launch⟩
  · show execTwait a s = _
    rw [execTwait, if_pos due]
    rfl
  · show execTwait a s = _
    rw [execTwait, if_neg (Nat.not_le.mpr early)]
    rfl
  · show execFence c m s = _
    rw [execFence, if_neg (not_not.mpr ((fence_kinds m).mpr none))]
    rfl
  · show execFence c m s = _
    have goesOn : ¬(c = 5#3 ∧ s.holdOver s.self.site s.releaseHold = false) := fun ⟨domain, held⟩ => by
      rcases free with other | past
      · exact other domain
      · rw [past] at held; cases held
    rw [execFence, if_pos (fun h => orders ((fence_kinds m).mp h)), State.releasing, if_neg goesOn]
    rfl
  · show execFence c m s = _
    rw [execFence, if_pos (fun h => orders ((fence_kinds m).mp h)), State.releasing, if_pos ⟨domain, held⟩]
    rfl

end Sys2Proof.Machine
end

