-- ==== Sys2Proof/Proofs/Events.lean ====
section
/-! SUPPORT. What ends the waits of strands: wakes, limits, deferred traps, fetches (the first part of O36). -/
namespace Sys2Proof.Machine

variable (s : State)

/-! ## The seat -/

theorem State.strand?_some {uid : Nat} {t : Strand} (h : s.strand? uid = some t) :
    t ∈ s.all ∧ t.live = true ∧ t.id.uid = uid := by
  have found := List.find?_some h
  rw [Bool.and_eq_true, beq_iff_eq] at found
  exact ⟨List.mem_of_find?_eq_some h, found.1, found.2⟩

theorem State.seat_seat {uid : Nat} {t : Strand} (h : s.strand? uid = some t) : (s.seat uid).seat uid = s.seat uid := by
  obtain ⟨-, live, named⟩ := s.strand?_some h
  rw [← s.seat_strand h] at live named
  exact State.seat_self _ live named

/-! ## Traps and stops of the seat -/

/-- The low byte of TCAUSE is the cause (R335). -/
theorem TrapRec.tcause_cause {r : TrapRec} (h : r.cause < 2 ^ 8) : bits r.tcause 7 0 = r.cause := by
  simp only [TrapRec.tcause, bits, natBits, BitVec.toNat_ofNat]
  omega

@[simp] theorem State.mapFollower_cells (f : Strand → Strand) : (s.mapFollower f).cells = s.cells := by
  simp only [State.mapFollower]; split <;> rfl
@[simp] theorem State.mapFollower_host (f : Strand → Strand) : (s.mapFollower f).host = s.host := by
  simp only [State.mapFollower]; split <;> rfl
@[simp] theorem State.endGang_cells : s.endGang.cells = s.cells := by
  simp only [State.endGang]; split <;> simp
@[simp] theorem State.endGang_host : s.endGang.host = s.host := by
  simp only [State.endGang]; split <;> simp

theorem State.endGang_fn (p : Nat) : s.endGang.fn p = s.fn p := by
  rw [State.fn, s.endGang_host, State.fn]

/-- The end of a gang keeps everything of the leader but its control registers. -/
theorem State.endGang_keeps : ∃ c, s.endGang.self = { s.self with ctl := c } := by
  rw [s.endGang_self]
  split
  · exact ⟨_, rfl⟩
  · exact ⟨s.self.ctl, rfl⟩

/-- A precise trap outside a handler, as the statements say it. -/
theorem State.trap_took (can : s.canTrap) {r : TrapRec} (h : r.cause < 2 ^ 8) :
    TookTrap s.self (s.trap r).self s.self.pc r.cause r.info0 ∧ (s.trap r).self.ctl.tinfo1 = r.info1 ∧
      (s.trap r).cells = s.cells := by
  obtain ⟨pc, tpc, tcause, sMode, itr, pmode, g, v, k, -⟩ := s.trapped_frame s.self.pc r
  rw [s.trap_eq can]
  exact ⟨⟨rfl, pc, tpc, by rw [tcause, TrapRec.tcause_cause h], rfl, pmode, sMode, itr, g, v, k⟩, rfl, s.endGang_cells⟩

/-- Whatever becomes of a trap, the strand keeps its name, its registers and its fetch. -/
theorem State.trap_keeps (r : TrapRec) : (s.trap r).self.id = s.self.id ∧ SameRegisters s.self (s.trap r).self ∧
    (s.trap r).self.waits.fetchMiss = s.self.waits.fetchMiss := by
  obtain ⟨c, e⟩ := s.endGang_keeps
  simp only [State.trap, State.enterTrap, SameRegisters]
  split <;> simp only [State.stop, State.report, e, and_self]

/-! ## What comes first at a boundary (R334) -/

theorem State.unlessDeferred_none (f : State → State) (h : s.deferTaker = none) : s.unlessDeferred f = f s := by
  simp only [State.unlessDeferred, h]

theorem Strand.canDefer_itr {t : Strand} (h : t.canDefer = true) : t.ctl.itr = false := by
  simp only [Strand.canDefer, Bool.and_eq_true, Bool.not_eq_true'] at h
  exact h.1.1.2

theorem State.canDefer_itr {t : Strand} (h : s.canDefer t = true) : t.ctl.itr = false := by
  rw [State.canDefer, Bool.and_eq_true] at h
  exact t.canDefer_itr h.1

/-- Of a strand that is not FROZEN no other strand decides. -/
theorem State.canDefer_of_not_frozen {t : Strand} (h : t.st ≠ .frozen) : s.canDefer t = t.canDefer := by
  simp [State.canDefer, h]

/-- The strand that takes a deferred trap at its own boundary does that and no more. -/
theorem State.unlessDeferred_seat {uid : Nat} {t : Strand} (f : State → State) (h : s.strand? uid = some t)
    (parked : t.st = .parked) (can : s.canDefer t = true) : (s.seat uid).unlessDeferred f = (s.seat uid).takeDeferred := by
  have awake : t.st ≠ .frozen := by rw [parked]; decide
  have taker : (s.seat uid).deferTaker = some uid := by
    rw [State.deferTaker, s.seat_strand h, State.canDefer_of_not_frozen _ awake, ← s.canDefer_of_not_frozen awake, can,
      if_pos rfl, (s.strand?_some h).2.2]
  simp only [State.unlessDeferred, taker, s.seat_seat h]

/-- A follower that leaves its gang changes no more than its state and STAT's fields of the gang. -/
theorem State.leaveGang_spec : (∃ st g l p, s.leaveGang.self =
      { s.self with st := st, ctl := { s.self.ctl with ganged := g, glead := l, split := p } }) ∧ s.leaveGang.m = s.m := by
  simp only [State.leaveGang]
  split
  · exact ⟨⟨_, _, _, _, rfl⟩, rfl⟩
  · exact ⟨⟨s.self.st, s.self.ctl.ganged, s.self.ctl.glead, s.self.ctl.split, rfl⟩, rfl⟩

/-- A deferred trap is taken from a state in which its strand has left its gang, its wait on a cell and the list. -/
theorem State.takeDeferred_eq {d : Deferred} {rest : List Deferred} (h : s.self.waits.deferred = d :: rest) :
    ∃ u : State, (∃ st g l p, u.self = { s.self with
      st := st, ctl := { s.self.ctl with ganged := g, glead := l, split := p }
      waits := { s.self.waits with deferred := rest, sending := none } }) ∧
    u.m = s.m ∧ s.takeDeferred = (u.enterTrap u.self.pc default).setCtl { (u.enterTrap u.self.pc default).self.ctl with
      tcause := d.tcause, tinfo0 := d.tinfo0, tinfo1 := d.tinfo1, tinfo2 := d.tinfo2, tinfo3 := d.tinfo3 } := by
  obtain ⟨x, c, e⟩ := s.leaveCell_only s.self
  obtain ⟨⟨st, g, l, p, self⟩, m⟩ := State.leaveGang_spec ((s.leaveCell s.self).withdrawPackets s.self.id.uid)
  unfold State.takeDeferred
  rw [h]
  refine ⟨_, ⟨st, g, l, p, ?_⟩, ?_, rfl⟩
  · rw [self, e]
    rfl
  · rw [show _ = _ from m, e]
    rfl

/-- A deferred trap taken: TPC, the record as it was deferred, and the rest of the list. -/
theorem State.takeDeferred_spec {d : Deferred} {rest : List Deferred} (can : s.canTrap)
    (h : s.self.waits.deferred = d :: rest) :
    s.takeDeferred.self.pc = s.self.ctl.tvec ∧ s.takeDeferred.self.ctl.tpc = s.self.pc ∧
    s.takeDeferred.self.ctl.tcause = d.tcause ∧ s.takeDeferred.self.ctl.tinfo0 = d.tinfo0 ∧
    s.takeDeferred.self.ctl.tinfo1 = d.tinfo1 ∧ s.takeDeferred.self.ctl.tinfo2 = d.tinfo2 ∧
    s.takeDeferred.self.ctl.tinfo3 = d.tinfo3 ∧ s.takeDeferred.self.waits.deferred = rest ∧
    SameRegisters s.self s.takeDeferred.self ∧ s.takeDeferred.m = s.m := by
  obtain ⟨u, ⟨st, g, l, p, self⟩, m, e⟩ := s.takeDeferred_eq h
  have canU : u.canTrap := by rw [State.canTrap, self]; exact can
  rw [e, u.enterTrap_eq canU]
  obtain ⟨pc, tpc, -, -, -, -, regG, regV, regK, mem⟩ := u.trapped_frame u.self.pc default
  obtain ⟨c, gang⟩ := u.endGang_keeps
  have waits : (u.trapped u.self.pc default).self.waits.deferred = u.self.waits.deferred := by
    simp only [State.trapped, gang]
  exact ⟨pc.trans (by rw [self]), tpc.trans (by rw [self]), rfl, rfl, rfl, rfl, rfl, waits.trans (by rw [self]),
    ⟨regG.trans (by rw [self]), regV.trans (by rw [self]), regK.trans (by rw [self])⟩, mem.trans m⟩

/-! ## What a charge and a request leave of the seat (R393, R454) -/

/-- From `s` to `t` the seat has changed in its park at most. -/
def OnlyPark (s t : State) : Prop := ∃ p, t.self = { s.self with park := p }

theorem OnlyPark.of_self {s t : State} (h : t.self = s.self) : OnlyPark s t := ⟨s.self.park, h⟩

theorem OnlyPark.trans {s t u : State} (a : OnlyPark s t) (b : OnlyPark t u) : OnlyPark s u := by
  obtain ⟨p, hp⟩ := a
  obtain ⟨q, hq⟩ := b
  exact ⟨q, by rw [hq, hp]⟩

theorem OnlyPark.mapStrands {f : Strand → Strand} (h : f s.self = s.self ∨ f s.self = s.self.wake) :
    OnlyPark s (s.mapStrands f) := by
  rcases h with h | h
  · exact .of_self h
  · exact ⟨_, h⟩

theorem OnlyPark.foldl {α : Type} {f : State → α → State} (h : ∀ s a, OnlyPark s (f s a)) (l : List α) (s : State) :
    OnlyPark s (l.foldl f s) := by
  induction l generalizing s with
  | nil => exact .of_self rfl
  | cons a l ih => exact (h s a).trans (ih (f s a))

theorem State.wrWake_park (l : Nat) (bs : List Byte) : OnlyPark s (s.wrWake l bs) := by
  refine OnlyPark.mapStrands (s.wrBytes l bs) ?_
  unfold State.wokenBy
  split
  · exact .inr rfl
  · exact .inl rfl

theorem State.setFull_park (l : Nat) (full : Bool) : OnlyPark s (s.setFull l full) := by
  refine OnlyPark.mapStrands (s.setBit l full) ?_
  split
  · exact .inr rfl
  · exact .inl rfl

@[simp] theorem State.signal_self (f v : Nat) : (s.signal f v).self = s.self := by
  simp only [State.signal]; split
  · rfl
  · split <;> rfl

theorem State.raise_park (part : Nat) (b : Subscription) (value : Nat) : OnlyPark s (s.raise part b value) := by
  unfold State.raise
  extract_lets u
  have told : OnlyPark s u := by
    simp only [u]
    split
    · exact (State.wrWake_park s _ _).trans (State.setFull_park _ _ _)
    · exact .of_self rfl
  split
  · exact told
  · exact told.trans (.of_self (u.signal_self _ _))

theorem State.charge_park (part die which n : Nat) : OnlyPark s (s.charge part die which n) := by
  unfold State.charge
  dsimp only
  split
  · exact .of_self rfl
  · split
    · have set (p : Partition) : OnlyPark s (s.setPart part p) := .of_self rfl
      exact (set _).trans (OnlyPark.foldl (fun s b => s.raise_park part b 0) _ _)
    · exact .of_self rfl

theorem State.ask_park (op width pa : Nat) (va : Word) (data : BitVec 512) (expected : Word) (uid part die : Nat)
    (w : Option Waiter) (cid : Option Nat) (agent : Nat) (cpage : Bool) (lane : Nat) :
    OnlyPark s (s.ask op width pa va data expected uid part die w cid agent cpage lane) := by
  unfold State.ask
  extract_lets o h s1 s2
  obtain ⟨x, e⟩ := s1.sendLink_only part die (some pa) (.request o.rq op width pa va data expected agent cpage)
  have sent : s2.self = s.self := by rw [show s2 = _ from e]
  exact (OnlyPark.of_self (t := { s2 with fresh := o.rq + 1 }) sent).trans (State.charge_park _ part die 3 width)

/-! ## Fetches (R14, R53, R100) -/

/-- The strand has its name and registers, and its fetch misses no more. -/
def FetchOver (t u : Strand) : Prop := u.waits.fetchMiss = false ∧ u.id = t.id ∧ SameRegisters t u

theorem FetchOver.trans {t u v : Strand} (a : FetchOver t u) (b : FetchOver u v) : FetchOver t v := by
  obtain ⟨-, id, g, v', k⟩ := a
  obtain ⟨miss, id', g', v'', k'⟩ := b
  exact ⟨miss, id'.trans id, g'.trans g, v''.trans v', k'.trans k⟩

theorem FetchOver.of_park {s t : State} {x : Strand} (a : FetchOver x s.self) (h : OnlyPark s t) : FetchOver x t.self := by
  obtain ⟨p, e⟩ := h
  rw [e]
  exact a

theorem FetchOver.trap {s : State} {x : Strand} (a : FetchOver x s.self) (r : TrapRec) : FetchOver x (s.trap r).self := by
  obtain ⟨id, regs, miss⟩ := s.trap_keeps r
  exact a.trans ⟨miss.trans a.1, id, regs⟩

theorem FetchOver.pageFault {s : State} {x : Strand} (a : FetchOver x s.self) (va : Word) (lane kinds : Nat) :
    FetchOver x (s.pageFault va lane kinds).self := by
  unfold State.pageFault
  dsimp only
  split
  · exact a.trap _
  · exact a

theorem FetchOver.askWait {s : State} {x : Strand} (a : FetchOver x s.self) (op width : Nat) (q : Nat × Word × Place)
    (data : BitVec 512) (expected : Word) : FetchOver x (s.askWait op width q data expected).self := by
  have asked := a.of_park (s.ask_park op width q.2.2.loc q.2.1 data expected s.self.id.uid s.self.id.part s.self.id.die
    (some (.strand s.self.id.uid)) none 0 q.2.2.cpage q.1)
  exact asked

/-- A translation changes TLBs only. -/
theorem State.translate_self (x : Site) (hs : List TlbHolder) (va : Nat) : (s.translate x hs va).2.self = s.self := by
  unfold State.translate
  split
  · dsimp only; split <;> rfl
  · split <;> rfl

theorem FetchOver.translated {s v : State} {x : Strand} (a : FetchOver x s.self) {site : Site} {hs : List TlbHolder}
    {va : Nat} {r : Trans} (h : s.translate site hs va = (r, v)) : FetchOver x v.self := by
  have same := s.translate_self site hs va
  rw [h] at same
  rw [show v.self = s.self from same]
  exact a

/-- A fetch that missed ends, whatever its translation finds. -/
theorem State.fetchDone_over : FetchOver s.self s.fetchDone.self := by
  have start : FetchOver s.self { s.self with waits := { s.self.waits with fetchMiss := false } } := ⟨rfl, rfl, rfl, rfl, rfl⟩
  unfold State.fetchDone
  dsimp only
  split
  · split
    · next h => exact (start.translated h).pageFault _ _ _
    · next h => exact (start.translated h).trap _
    · next h =>
      have found := start.translated h
      split
      · split
        · refine FetchOver.askWait ?_ _ _ _ _ _
          exact found
        · exact found
      · exact found
  · exact start

/-! ## The events -/

theorem State.felimOut_parked {t : Strand} (h : s.felimOut t = true) : t.st = .parked := by
  simp only [State.felimOut, Bool.and_eq_true, beq_iff_eq] at h
  exact h.1.1.1.1

theorem State.cellOut_parked {t : Strand} (h : s.cellOut t = true) : t.st = .parked := by
  simp only [State.cellOut, Strand.parkedFor, Bool.and_eq_true, beq_iff_eq] at h
  exact h.1.1.1.1

@[simp] theorem State.leaveCell_self (t : Strand) : (s.leaveCell t).self = s.self := by
  obtain ⟨h, c, e⟩ := s.leaveCell_only t; rw [e]
@[simp] theorem State.leaveCell_m (t : Strand) : (s.leaveCell t).m = s.m := by
  obtain ⟨h, c, e⟩ := s.leaveCell_only t; rw [e]

/-- A strand that has left a cell of this module waits at none. -/
theorem State.leaveCell_waiters {s : State} {t : Strand} {uid : Nat} (near : t.park.far = none) (named : t.id.uid = uid)
    {e : Eclosion} (he : e ∈ (s.leaveCell t).cells.eclosions) : Waiter.strand uid ∉ e.waiters := by
  simp only [State.leaveCell, near, State.dequeue] at he
  obtain ⟨x, -, rfl⟩ := List.mem_map.mp he
  simp [named]

section
variable {s} {uid : Nat} {t : Strand} (h : s.strand? uid = some t)
include h

/-- R14, R122. -/
theorem resultLands_does (seated : s.self = t) : Does (.resultLands uid) s (fun u =>
    u.self.waits.busy = s.self.waits.busy.drop 1 ∧ u.self.g = s.self.g ∧ u.self.pc = s.self.pc ∧ u.m = s.m) := by
  obtain ⟨-, live, named⟩ := s.strand?_some h
  have isIt : (s.self.live && s.self.id.uid == uid) = true := by rw [seated, live, named, beq_self_eq_true]; rfl
  refine ⟨_, rfl, ?_⟩
  simp only [State.mapStrand, State.mapStrands_self, State.mapStrands_m, isIt, if_true, and_self]

/-- An event of a strand that it meets the condition of. -/
theorem Does.of_onStrand {i : Instr} {c : Strand → Bool} {f : State → State} {P : State → Prop}
    (meaning : exec i s = .next (s.onStrand uid c f)) (hc : c t = true) (hp : P (f (s.seat uid))) : Does i s P :=
  ⟨_, meaning.trans (congrArg _ (s.onStrand_some h hc)), hp⟩

/-- The strand ACTIVE again, at its pc. -/
theorem unpark_seat_spec : (s.seat uid).unpark.self.st = .active ∧ (s.seat uid).unpark.self.pc = t.pc ∧
    (s.seat uid).unpark.self.ctl = t.ctl ∧ (s.seat uid).unpark.self.id = t.id ∧
    SameRegisters t (s.seat uid).unpark.self ∧ (s.seat uid).unpark.m = s.m := by
  rw [State.unpark_self, s.seat_strand h]
  exact ⟨rfl, rfl, rfl, rfl, ⟨rfl, rfl, rfl⟩, s.seat_m uid⟩

/-- R15, R39: the parking instruction replays. -/
theorem strandWake_does (parked : t.st = .parked) (woken : t.park.woken = true) : Does (.strandWake uid) s (fun u =>
    u.self.st = .active ∧ u.self.pc = t.pc ∧ u.self.ctl = t.ctl ∧ u.self.id = t.id ∧ SameRegisters t u.self ∧ u.m = s.m) := by
  have ready : t.wakeReady = true := by simp [Strand.wakeReady, parked, woken]
  exact Does.of_onStrand h rfl ready (unpark_seat_spec h)

/-- R184. -/
theorem twaitDeadline_does (waits : t.parkedFor .time = true) (due : t.park.operand.toNat ≤ s.plant.time.toNat) :
    Does (.twaitDeadline uid) s (fun u =>
      u.self.st = .active ∧ u.self.pc = t.pc ∧ u.self.id = t.id ∧ SameRegisters t u.self ∧ u.m = s.m) := by
  obtain ⟨st, pc, -, id, regs, m⟩ := unpark_seat_spec h
  exact Does.of_onStrand h rfl (by simp [waits, due]) ⟨st, pc, id, regs, m⟩

/-- R17: FELIM has run out. -/
theorem fewaitExpiry_does (out : s.felimOut t = true) (itr : t.ctl.itr = false) (first : (s.seat uid).deferTaker = none) :
    Does (.fewaitExpiry uid) s (fun u =>
      TookTrap t u.self t.pc 6 t.park.operand ∧ u.self.ctl.tinfo1 = w64 t.park.reason.code ∧ u.m = s.m) := by
  have seated := s.seat_strand h
  have can : (s.seat uid).canTrap := by rw [State.canTrap, seated]; exact itr
  obtain ⟨took, info1, -⟩ := State.trap_took (s.seat uid) can
    (r := { cause := 6, info0 := t.park.operand, info1 := w64 t.park.reason.code }) (show 6 < 2 ^ 8 by decide)
  rw [seated] at took
  refine Does.of_onStrand h rfl out ?_
  rw [State.unlessDeferred_none _ _ first, seated]
  exact ⟨took, info1, by rw [State.trap_m, s.seat_m]⟩

/-- R303: the cell-wait limit has run out, and the strand waits on the cell no more. -/
theorem celltmoExpiry_does (out : s.cellOut t = true) (itr : t.ctl.itr = false) (first : (s.seat uid).deferTaker = none) :
    Does (.celltmoExpiry uid) s (fun u => TookTrap t u.self t.pc 11 t.park.operand ∧ u.m = s.m ∧
      (t.park.far = none → ∀ e, e ∈ u.cells.eclosions → Waiter.strand uid ∉ e.waiters)) := by
  have seated := s.seat_strand h
  have can : ((s.seat uid).leaveCell t).canTrap := by
    rw [State.canTrap, State.leaveCell_self, seated]
    exact itr
  refine Does.of_onStrand h rfl out ?_
  rw [State.unlessDeferred_none _ _ first, seated]
  extract_lets chain
  obtain ⟨took, -, cells⟩ := State.trap_took ((s.seat uid).leaveCell t) can
    (r := { cause := 11, info0 := t.park.operand, info1 := w64 chain }) (show 11 < 2 ^ 8 by decide)
  rw [State.leaveCell_self, seated] at took
  refine ⟨took, by rw [State.trap_m, State.leaveCell_m, s.seat_m], fun near e he => ?_⟩
  rw [cells] at he
  exact State.leaveCell_waiters near (s.strand?_some h).2.2 he

/-- A strand whose deferred trap is taken first. -/
theorem takeDeferred_seat_spec {df : Deferred} {rest : List Deferred} (can : s.canDefer t = true)
    (pending : t.waits.deferred = df :: rest) : (s.seat uid).takeDeferred.self.pc = t.ctl.tvec ∧
      (s.seat uid).takeDeferred.self.ctl.tpc = t.pc ∧ (s.seat uid).takeDeferred.self.ctl.tcause = df.tcause ∧
      (s.seat uid).takeDeferred.self.ctl.tinfo0 = df.tinfo0 ∧ (s.seat uid).takeDeferred.self.ctl.tinfo1 = df.tinfo1 ∧
      (s.seat uid).takeDeferred.self.ctl.tinfo2 = df.tinfo2 ∧ (s.seat uid).takeDeferred.self.ctl.tinfo3 = df.tinfo3 ∧
      (s.seat uid).takeDeferred.self.waits.deferred = rest ∧ SameRegisters t (s.seat uid).takeDeferred.self ∧
      (s.seat uid).takeDeferred.m = s.m := by
  have seated := s.seat_strand h
  have canSeat : (s.seat uid).canTrap := by rw [State.canTrap, seated]; exact s.canDefer_itr can
  have spec := State.takeDeferred_spec (s.seat uid) canSeat (by rw [seated]; exact pending)
  rwa [seated, s.seat_m] at spec

/-- R333, R334. -/
theorem deferredTrap_does {df : Deferred} {rest : List Deferred} (can : s.canDefer t = true)
    (pending : t.waits.deferred = df :: rest) : Does (.deferredTrap uid) s (fun u =>
      u.self.pc = t.ctl.tvec ∧ u.self.ctl.tpc = t.pc ∧ u.self.ctl.tcause = df.tcause ∧ u.self.ctl.tinfo0 = df.tinfo0 ∧
      u.self.ctl.tinfo1 = df.tinfo1 ∧ u.self.ctl.tinfo2 = df.tinfo2 ∧ u.self.ctl.tinfo3 = df.tinfo3 ∧
      u.self.waits.deferred = rest ∧ SameRegisters t u.self ∧ u.m = s.m) :=
  Does.of_onStrand h rfl can (takeDeferred_seat_spec h can pending)

/-- R334: a limit that has run out raises nothing at the boundary of a deferred trap. -/
theorem deferred_before_expiry {df : Deferred} {rest : List Deferred} (can : s.canDefer t = true)
    (pending : t.waits.deferred = df :: rest) {i : Instr}
    (limit : i = .fewaitExpiry uid ∧ s.felimOut t = true ∨ i = .celltmoExpiry uid ∧ s.cellOut t = true) :
    Does i s (fun u => u.self.pc = t.ctl.tvec ∧ u.self.ctl.tpc = t.pc ∧ u.self.ctl.tcause = df.tcause ∧
      u.self.waits.deferred = rest ∧ SameRegisters t u.self ∧ u.m = s.m) := by
  obtain ⟨pc, tpc, tcause, -, -, -, -, deferred, regs, m⟩ := takeDeferred_seat_spec h can pending
  rcases limit with ⟨rfl, out⟩ | ⟨rfl, out⟩
  · refine Does.of_onStrand h rfl out ?_
    rw [State.unlessDeferred_seat s _ h (s.felimOut_parked out) can]
    exact ⟨pc, tpc, tcause, deferred, regs, m⟩
  · refine Does.of_onStrand h rfl out ?_
    rw [State.unlessDeferred_seat s _ h (s.cellOut_parked out) can]
    exact ⟨pc, tpc, tcause, deferred, regs, m⟩

/-- R14, R100. -/
theorem instructionFetch_does (active : t.st = .active) (missed : t.waits.fetchMiss = true) (idle : t.waits.remote = none)
    (first : (s.seat uid).deferTaker = none) : Does (.instructionFetch uid) s (fun u =>
      u.self.waits.fetchMiss = false ∧ u.self.id = t.id ∧ SameRegisters t u.self) := by
  refine Does.of_onStrand h rfl (by simp [active, missed, idle]) ?_
  rw [State.unlessDeferred_none _ _ first]
  have fetched := State.fetchDone_over (s.seat uid)
  rwa [s.seat_strand h] at fetched

/-- R460. -/
theorem registerParityError_does (active : t.st = .active) (part : t.id.part < 64) :
    Does (.registerParityError uid) s (fun u => u.self.st = .parked ∧ u.self.park.reason = .stopped ∧
      (u.self.id = t.id ∧ SameRegisters t u.self ∧ u.m = s.m) ∧
      ∃ r, (u.fn t.id.part).reports = ((s.seat uid).fn t.id.part).reports ++ [r] ∧ bits r.word0 7 0 = 1) := by
  obtain ⟨c, kept⟩ := State.endGang_keeps (s.seat uid)
  rw [s.seat_strand h] at kept
  obtain ⟨self, r, told, kind, -⟩ := State.stop_spec (s.seat uid).endGang (kind := 1) (cause := 12)
    (s.seat uid).endGang.self.pc 0#64 (by rw [kept]; exact part) (by decide) (by decide)
  rw [kept] at self told
  refine Does.of_onStrand h rfl (by simp [active]) ?_
  dsimp only
  rw [kept, self]
  exact ⟨rfl, rfl, ⟨rfl, ⟨rfl, rfl, rfl⟩, by rw [State.stop_m, State.endGang_m, s.seat_m]⟩, r,
    told.trans (by rw [State.endGang_fn]), kind⟩

end

/-- R100. -/
theorem illegalInstruction_does (w w2 : BitVec 32) (itr : s.self.ctl.itr = false) : Does (.illegalInstruction w w2) s (fun u =>
    TookTrap s.self u.self s.self.pc 1 (w.zeroExtend 64) ∧ u.m = s.m) := by
  obtain ⟨took, -, -⟩ := s.trap_took itr (r := illDecode w (if isPair w then w2 else 0#32)) (show 1 < 2 ^ 8 by decide)
  rw [show TrapRec.info0 _ = w.zeroExtend 64 from BitVec.ofNat_toNat ..] at took
  exact ⟨_, rfl, took, s.trap_m _⟩

end Sys2Proof.Machine
end

