-- ==== Sys2Proof/Proofs/Slots.lean ====
section
/-! SUPPORT. Slots taken and given up: the seat, saving, placement and victims (the second part of O36), and O36 itself. -/
namespace Sys2Proof.Machine

/-! ## Strands of distinct numbers -/

/-- Of elements of distinct keys, one and those of another key are all. -/
theorem perm_cons_filter_key {α : Type} {key : α → Nat} {a : α} {l : List α} (distinct : (l.map key).Nodup) (h : a ∈ l) :
    (a :: l.filter (fun x => key x != key a)).Perm l := by
  induction l with
  | nil => exact absurd h (List.not_mem_nil)
  | cons x l ih =>
    obtain ⟨fresh, distinct⟩ := List.nodup_cons.mp distinct
    rcases List.mem_cons.mp h with rfl | h
    · have others : ∀ x ∈ l, (key x != key a) = true := fun x hx =>
        bne_iff_ne.mpr fun e => fresh (e ▸ List.mem_map_of_mem hx)
      rw [List.filter_cons_of_neg (by simp), List.filter_eq_self.mpr others]
    · have differs : (key x != key a) = true := bne_iff_ne.mpr fun e => fresh (e ▸ List.mem_map_of_mem h)
      rw [List.filter_cons, if_pos differs]
      exact (List.Perm.swap x a _).trans ((ih distinct h).cons x)

variable (s : State)

/-- No two strands have one number. -/
def State.named (s : State) : Prop := (s.all.map (·.id.uid)).Nodup

theorem State.eq_of_uid {s : State} (named : s.named) {x y : Strand} (hx : x ∈ s.all) (hy : y ∈ s.all)
    (e : x.id.uid = y.id.uid) : x = y := List.inj_on_of_nodup_map named hx hy e

theorem State.strand?_of_mem {s : State} (named : s.named) {x : Strand} (hx : x ∈ s.all) (live : x.live = true) :
    s.strand? x.id.uid = some x := by
  cases found : s.strand? x.id.uid with
  | none =>
    have none := List.find?_eq_none.mp found x hx
    rw [live, beq_self_eq_true] at none
    exact absurd rfl none
  | some y =>
    obtain ⟨hy, -, e⟩ := s.strand?_some found
    rw [State.eq_of_uid named hy hx e]

theorem Strand.live_of_resident {t : Strand} (h : t.resident = true) : t.live = true := by
  cases e : t.st <;> simp_all [Strand.resident, Strand.live]

theorem Strand.live_of_waitsIn {t : Strand} {die cluster : Nat} (h : t.waitsIn die cluster = true) : t.live = true := by
  cases e : t.st <;> simp_all [Strand.waitsIn, Strand.live]

/-- A strand in a slot stands in no queue. -/
theorem Strand.not_waitsIn_of_resident {t : Strand} {die cluster : Nat} (h : t.resident = true) : ¬ t.waitsIn die cluster = true := by
  cases e : t.st <;> simp_all [Strand.waitsIn, Strand.resident]

/-! ## Changes to the strand of a number -/

variable {uid : Nat} (f : Strand → Strand)

theorem State.mapStrand_all : (s.mapStrand uid f).all = s.all.map (fun t => if t.live && t.id.uid == uid then f t else t) :=
  rfl

theorem State.mem_mapStrand {x : Strand} (h : x ∈ s.all) (live : x.live = true) (e : x.id.uid = uid) :
    f x ∈ (s.mapStrand uid f).all := by
  rw [s.mapStrand_all]
  exact List.mem_map.mpr ⟨x, h, if_pos (by rw [live, e, beq_self_eq_true, Bool.and_self])⟩

theorem State.mem_mapStrand_of_ne {x : Strand} (h : x ∈ s.all) (e : x.id.uid ≠ uid) : x ∈ (s.mapStrand uid f).all := by
  rw [s.mapStrand_all]
  exact List.mem_map.mpr ⟨x, h, if_neg (by rw [beq_false_of_ne e, Bool.and_false]; exact Bool.false_ne_true)⟩

theorem State.of_mem_mapStrand {y : Strand} (h : y ∈ (s.mapStrand uid f).all) : ∃ x ∈ s.all, y = x ∨ y = f x := by
  rw [s.mapStrand_all] at h
  obtain ⟨x, hx, rfl⟩ := List.mem_map.mp h
  refine ⟨x, hx, ?_⟩
  split
  · exact .inr rfl
  · exact .inl rfl

theorem State.strand?_mapStrand {s : State} {t : Strand} {f : Strand → Strand} (h : s.strand? uid = some t)
    (live : ∀ x, (f x).live = x.live) (named : ∀ x, (f x).id.uid = x.id.uid) : (s.mapStrand uid f).strand? uid = some (f t) := by
  obtain ⟨-, isLive, isIt⟩ := s.strand?_some h
  let g (t : Strand) : Strand := if t.live && t.id.uid == uid then f t else t
  have same : (fun t : Strand => t.live && t.id.uid == uid) ∘ g = fun t => t.live && t.id.uid == uid := by
    funext x
    simp only [g, Function.comp_apply]
    split
    · rw [live, named]
    · rfl
  have found : (s.mapStrand uid f).strand? uid = (s.strand? uid).map g := by
    rw [State.strand?, s.mapStrand_all, List.find?_map]
    exact congrArg (fun p => (s.all.find? p).map g) same
  rw [found, h, Option.map_some]
  exact congrArg some (if_pos (by rw [isLive, isIt, beq_self_eq_true, Bool.and_self]))

/-! ## Another strand in the seat -/

/-- The same strands and memory, in another order, but that a seat which was empty may be gone. -/
def Reseated (s w : State) : Prop := w.m = s.m ∧ (w.all.Perm s.all ∨ s.self.live = false ∧ w.all.Perm s.others)

theorem State.seat_reseated {uid : Nat} {t : Strand} (named : s.named) (h : s.strand? uid = some t) :
    Reseated s (s.seat uid) := by
  refine ⟨s.seat_m uid, ?_⟩
  obtain ⟨-, -, e⟩ := s.strand?_some h
  unfold State.strand? State.all at h
  unfold State.seat
  rw [List.find?_cons] at h
  split at h
  · next isIt => rw [if_pos isIt]; exact .inl (.refl _)
  · next isNot =>
    have rest : (t :: s.others.filter (fun x => x.id.uid != uid)).Perm s.others :=
      e ▸ perm_cons_filter_key (List.nodup_cons.mp named).2 (List.mem_of_find?_eq_some h)
    rw [if_neg (by rw [isNot]; exact Bool.false_ne_true), h]
    cases live : s.self.live
    · exact .inr ⟨rfl, rest⟩
    · exact .inl ((List.Perm.swap s.self t _).trans (rest.cons s.self))

namespace Reseated
variable {s : State} {w : State} (r : Reseated s w)
include r

/-- Of the live strands none is lost. -/
theorem filter {p : Strand → Bool} (live : ∀ x, p x = true → x.live = true) : (w.all.filter p).Perm (s.all.filter p) := by
  rcases r.2 with e | ⟨gone, e⟩
  · exact e.filter p
  · have dead : ¬ p s.self = true := fun h => by rw [live _ h] at gone; exact Bool.noConfusion gone
    exact (e.filter p).trans (.of_eq (List.filter_cons_of_neg dead).symm)

theorem mem {x : Strand} (h : x ∈ w.all) : x ∈ s.all := by
  rcases r.2 with e | ⟨-, e⟩
  · exact e.mem_iff.mp h
  · exact List.mem_cons_of_mem _ (e.mem_iff.mp h)

theorem mem_of_live {x : Strand} (h : x ∈ s.all) (live : x.live = true) : x ∈ w.all :=
  (List.mem_filter.mp ((r.filter (p := Strand.live) fun _ h => h).mem_iff.mpr (List.mem_filter.mpr ⟨h, live⟩))).1

theorem named (h : s.named) : w.named := by
  rcases r.2 with e | ⟨-, e⟩
  · exact (e.map _).nodup_iff.mpr h
  · exact (e.map _).nodup_iff.mpr (List.nodup_cons.mp h).2

theorem unspilled (h : s.unspilled) : w.unspilled := fun x hx => h x (r.mem hx)

theorem spillBase (t : Strand) : w.spillBase t = s.spillBase t := by
  have above : ∀ x : Strand, (x.onCore t.id.die t.id.cluster t.id.core && decide (x.id.entryNo ≤ t.id.entryNo)) = true →
      x.live = true := fun x h => by
    simp only [Strand.onCore, Bool.and_eq_true] at h
    exact Strand.live_of_resident h.1.1.1.1
  exact congrArg (65536 - ·) ((r.filter above).foldl_eq' (fun _ _ _ _ _ => by omega) 0)

theorem heldMsgs (t : Strand) : w.heldMsgs t = s.heldMsgs t := by
  have same : w.unspill t = s.unspill t := by
    funext m
    simp only [State.unspill, State.spillLoc, State.rd, r.spillBase, r.1]
  rw [State.heldMsgs, State.heldMsgs, same]

end Reseated

/-! ## Saving (R29, R46, R394) -/

/-- A strand as its save area keeps it. -/
def Strand.savedAs (tcm : Bool) (now order : Nat) (t : Strand) : Strand :=
  { t with st := .saved
           id := { t.id with copyBound := tcm, queuedAt := now, order := order }
           park := if t.st == .parked then { t.park with woken := false, far := none, chase := none } else {}
           waits := { deferred := t.waits.deferred } }

/-- A strand of the core that is left, with its messages taken up. -/
def State.lifted (s : State) (t x : Strand) : Strand :=
  if x.onCore t.id.die t.id.cluster t.id.core then { x with q := { x.q with q0 := s.heldMsgs x } } else x

/-- A save of one strand: a change of seats, and then one to the strands alone, and to the spill areas. -/
theorem State.saveOne_eq {uid : Nat} {t : Strand} (named : s.named) (h : s.strand? uid = some t) (order : Nat) :
    ∃ w tcm m, Reseated s w ∧ w.self = t ∧ (w.unspilled → m = w.m) ∧
      s.saveOne uid order = { (w.mapStrands (w.lifted t)).mapStrand uid (Strand.savedAs tcm s.cycle order) with m := m } := by
  obtain ⟨-, live, e⟩ := s.strand?_some h
  let q := s.quiesce uid true
  have hq : q.strand? uid = some t := h
  obtain ⟨host, cells, left⟩ := (q.seat uid).leaveCell_only (q.seat uid).self
  let w := ((q.seat uid).leaveCell (q.seat uid).self).withdrawPackets uid
  have self : w.self = t := ((q.seat uid).leaveCell_self _).trans (q.seat_strand hq)
  have others : w.all = (q.seat uid).all := by simp only [w, left]; rfl
  have reseated : Reseated s w := by
    obtain ⟨m, same⟩ := q.seat_reseated named hq
    exact ⟨((q.seat uid).leaveCell_m _).trans m, by rw [others]; exact same⟩
  have found : w.strand? uid = some t := by
    simp [State.strand?, State.all, self, live, e]
  have cycle : w.cycle = s.cycle := by
    simp only [w, left]; exact congrArg (·.cycle) (q.seat_plant uid)
  let tcm := (s.copiesOf uid).any Copy.inTcm
  let v := (w.mapStrands (w.lifted t)).mapStrand uid (Strand.savedAs tcm s.cycle order)
  have saved : s.saveOne uid order = v.laySpills t.id.die t.id.cluster t.id.core := by
    unfold State.saveOne
    rw [q.onStrand_some hq rfl]
    simp only [show (((q.seat uid).leaveCell (q.seat uid).self).withdrawPackets uid).strand? uid = some t from found,
      show (((q.seat uid).leaveCell (q.seat uid).self).withdrawPackets uid).cycle = s.cycle from cycle]
    rfl
  obtain ⟨m, laid⟩ := v.laySpills_only t.id.die t.id.cluster t.id.core
  refine ⟨w, tcm, m, reseated, self, fun short => ?_, saved.trans laid⟩
  have short' : v.unspilled := by
    have lifts : w.mapStrands (w.lifted t) = w := w.liftSpills_unspilled short ..
    intro x hx
    obtain ⟨y, hy, same⟩ := State.of_mem_mapStrand _ _ hx
    have messages : x.q = y.q := by rcases same with rfl | rfl <;> rfl
    rw [lifts] at hy
    rw [messages]
    exact short y hy
  rw [v.laySpills_unspilled short'] at laid
  exact (congrArg State.m laid).symm

/-- The same strand, with its registers and its pc: what the statement calls alive. -/
def Strand.Kept (x y : Strand) : Prop := y.id.uid = x.id.uid ∧ SameRegisters x y ∧ y.pc = x.pc

theorem Strand.Kept.refl (x : Strand) : x.Kept x := ⟨rfl, ⟨rfl, rfl, rfl⟩, rfl⟩

theorem Strand.Kept.trans {x y z : Strand} (a : x.Kept y) (b : y.Kept z) : x.Kept z := by
  obtain ⟨uid, ⟨g, v, k⟩, pc⟩ := a
  obtain ⟨uid', ⟨g', v', k'⟩, pc'⟩ := b
  exact ⟨uid'.trans uid, ⟨g'.trans g, v'.trans v, k'.trans k⟩, pc'.trans pc⟩

theorem State.lifted_kept (t x : Strand) : ∃ q, s.lifted t x = { x with q := q } := by
  unfold State.lifted
  split
  · exact ⟨_, rfl⟩
  · exact ⟨x.q, rfl⟩

/-- The messages of the strand that leaves are all taken up: one that is in no slot holds them already. -/
theorem State.lifted_self (t : Strand) : s.lifted t t = { t with q := { t.q with q0 := s.heldMsgs t } } := by
  cases resident : t.resident <;> simp [State.lifted, Strand.onCore, State.heldMsgs, resident]

section
variable {s} {t : Strand} (named : s.named) (h : s.strand? uid = some t) (order : Nat)
include named h

/-- The strand saved has its messages with it, and stands in the queue at its place. -/
theorem State.saveOne_saved : ∃ y ∈ (s.saveOne uid order).all, y.st = .saved ∧ y.ctl = t.ctl ∧
    y.q = { t.q with q0 := s.heldMsgs t } ∧ y.id.order = order ∧ t.Kept y := by
  obtain ⟨w, tcm, m, reseated, self, -, e⟩ := s.saveOne_eq named h order
  obtain ⟨-, live, uid⟩ := s.strand?_some h
  have seated : t ∈ w.all := by rw [← self]; exact List.mem_cons_self ..
  have lifted : w.lifted t t ∈ (w.mapStrands (w.lifted t)).all := List.mem_map_of_mem seated
  rw [w.lifted_self, reseated.heldMsgs] at lifted
  rw [e]
  exact ⟨_, State.mem_mapStrand _ _ lifted live uid, rfl, rfl, rfl, rfl, rfl, ⟨rfl, rfl, rfl⟩, rfl⟩

/-- Every other strand goes on as it was, but for its messages' place. -/
theorem State.saveOne_others {x : Strand} (hx : x ∈ s.all) (live : x.live = true) (other : x.id.uid ≠ uid) :
    ∃ y ∈ (s.saveOne uid order).all, x.Kept y ∧ y.live = true := by
  obtain ⟨w, tcm, m, reseated, -, -, e⟩ := s.saveOne_eq named h order
  have lifted : w.lifted t x ∈ (w.mapStrands (w.lifted t)).all := List.mem_map_of_mem (reseated.mem_of_live hx live)
  obtain ⟨q, same⟩ := w.lifted_kept t x
  rw [same] at lifted
  rw [e]
  exact ⟨_, State.mem_mapStrand_of_ne _ _ lifted other, ⟨rfl, ⟨rfl, rfl, rfl⟩, rfl⟩, live⟩

theorem State.saveOne_named : (s.saveOne uid order).named := by
  obtain ⟨w, tcm, m, reseated, -, -, e⟩ := s.saveOne_eq named h order
  have uids : (s.saveOne uid order).all.map (·.id.uid) = w.all.map (·.id.uid) := by
    rw [e]
    show ((w.all.map (w.lifted t)).map (fun x => if x.live && x.id.uid == uid then x.savedAs tcm s.cycle order else x)).map _ = _
    rw [List.map_map, List.map_map]
    refine List.map_congr_left fun x _ => ?_
    obtain ⟨q, same⟩ := w.lifted_kept t x
    simp only [Function.comp_apply, same]
    split <;> rfl
  exact (congrArg List.Nodup uids).mpr (reseated.named named)

theorem State.saveOne_m (short : s.unspilled) : (s.saveOne uid order).m = s.m := by
  obtain ⟨w, tcm, m, reseated, -, only, e⟩ := s.saveOne_eq named h order
  rw [e]
  exact (only (reseated.unspilled short)).trans reseated.1

end

theorem State.saveStrand_alone {t : Strand} (alone : s.gangMate t = none) :
    s.saveStrand t = { s.saveOne t.id.uid s.fresh with fresh := s.fresh + 1 } := by
  rw [State.saveStrand, alone]

/-- R29: a strand that can be saved. -/
theorem strandSave_does {s : State} {t : Strand} (h : s.strand? uid = some t) (can : s.canSave t = true)
    (alone : s.gangMate t = none) (named : s.named) :
    Does (.strandSave uid) s (fun u => (s.unspilled → u.m = s.m) ∧ ∃ y ∈ u.all, y.id.uid = uid ∧
      y.st = .saved ∧ y.ctl = t.ctl ∧ y.pc = t.pc ∧ y.q = { t.q with q0 := s.heldMsgs t } ∧ SameRegisters t y ∧
      y.id.order = s.fresh) := by
  have meaning : exec (.strandSave uid) s = .next (s.saveStrand t) := by
    show execStrandSave uid s = _
    simp only [execStrandSave, h, can, if_true]
  obtain ⟨-, -, e⟩ := s.strand?_some h
  obtain ⟨y, hy, st, ctl, q, order, same, regs, pc⟩ := State.saveOne_saved named h s.fresh
  rw [s.saveStrand_alone alone, e] at meaning
  exact ⟨_, meaning, fun short => State.saveOne_m named h s.fresh short, y, hy, same.trans e, st, ctl, pc, q, regs, order⟩

/-- A strand in a slot as a save that cannot be made yet marks it. -/
def Strand.marked (t : Strand) : Strand := if t.resident then { t with waits := { t.waits with saving := true } } else t

/-- R29: one that cannot yet is marked for its boundary. -/
theorem strandSave_marks {s : State} {t : Strand} (h : s.strand? uid = some t) (cannot : s.canSave t = false)
    (resident : t.resident = true) : Does (.strandSave uid) s (fun u => u.m = s.m ∧
      ∃ y, u.strand? uid = some y ∧ y = { t with waits := { t.waits with saving := true } }) := by
  have meaning : exec (.strandSave uid) s = .next (s.mapStrand uid Strand.marked) := by
    show execStrandSave uid s = _
    simp only [execStrandSave, h, cannot, Bool.false_eq_true, if_false]
    rfl
  have found := State.strand?_mapStrand (f := Strand.marked) h (fun x => by unfold Strand.marked; split <;> rfl)
    (fun x => by unfold Strand.marked; split <;> rfl)
  exact ⟨_, meaning, rfl, _, found, if_pos resident⟩

/-! ## Placement (R23, R26) -/

theorem mem_insertBy {α : Type} (key : α → Nat) {x y : α} {l : List α} : y ∈ insertBy key x l ↔ y = x ∨ y ∈ l := by
  induction l with
  | nil => simp [insertBy]
  | cons z l ih =>
    unfold insertBy
    split
    · simp
    · simp only [List.mem_cons, ih]; tauto

theorem mem_sortBy {α : Type} (key : α → Nat) {y : α} {l : List α} : y ∈ sortBy key l ↔ y ∈ l := by
  suffices sorted : ∀ acc, y ∈ l.foldl (fun acc x => insertBy key x acc) acc ↔ y ∈ acc ∨ y ∈ l by
    rw [sortBy, sorted []]
    simp
  induction l with
  | nil => simp
  | cons x l ih => intro acc; rw [List.foldl_cons, ih, mem_insertBy, List.mem_cons]; tauto

/-- Every entry of a queue waits in the cluster. -/
theorem State.queueOf_mem {die cluster : Nat} {t : Strand} (h : t ∈ s.queueOf die cluster) :
    t ∈ s.all ∧ t.waitsIn die cluster = true := by
  obtain ⟨all, waits⟩ := List.mem_filter.mp ((mem_sortBy _).mp h)
  rw [Bool.and_eq_true] at waits
  exact ⟨all, waits.1⟩

theorem State.sidFor_congr {s u : State} (h : u.all = s.all) (t : Strand) (core slot : Nat) :
    u.sidFor t core slot = s.sidFor t core slot := by
  have holders : u.bySid = s.bySid := by funext x; rw [State.bySid, State.bySid, h]
  rw [State.sidFor, State.sidFor, holders]

theorem State.coreFor_all (die cluster core part : Nat) : (s.coreFor die cluster core part).all = s.all := by
  unfold State.coreFor
  split
  · split <;> rfl
  · rfl

/-- The slot that a seat names (R11, R23). -/
theorem State.slotFor_some {t : Strand} {pair : Bool} {core slot : Nat} (h : s.slotFor t pair core = some slot) :
    slot < 8 ∧ s.slotFree t.id.uid t.id.die t.id.cluster core slot = true ∧ s.coreTakes t core = true ∧
      (pair = false → ∀ k, k < slot → s.slotFree t.id.uid t.id.die t.id.cluster core k = false) := by
  unfold State.slotFor at h
  split at h
  · exact absurd h (by simp)
  next takes =>
    obtain ⟨free, below, first⟩ := List.find?_range_eq_some.mp h
    rw [Bool.and_eq_true] at free
    rw [Bool.not_eq_true, Bool.not_eq_false'] at takes
    refine ⟨List.mem_range.mp below, free.1, takes, fun single k hk => ?_⟩
    have taken := first k hk
    rw [single, Bool.not_false, Bool.true_or, Bool.and_true, Bool.not_eq_true'] at taken
    exact taken

/-- The core chosen is one that has a slot for the entry. -/
theorem State.freeSlotFor_some {t : Strand} {core slot : Nat} (h : s.freeSlotFor t = some (core, slot)) :
    core < 16 ∧ s.slotFor t (s.savedFollower t).isSome core = some slot := by
  unfold State.freeSlotFor at h
  split at h
  · exact absurd h (by simp)
  extract_lets pair cands best at h
  have select : ∀ b x, best b x = b ∨ best b x = x := fun b x => (ite_eq_or_eq _ x b).symm
  have chosen : (core, slot) ∈ cands := by
    cases e : cands with
    | nil => rw [e] at h; exact absurd h (by simp)
    | cons c cs =>
      rw [e] at h
      exact Option.some.inj h ▸ foldl_select_mem select cs c
  obtain ⟨k, hk, e⟩ := List.mem_filterMap.mp chosen
  obtain ⟨f, hf, e⟩ := Option.map_eq_some_iff.mp e
  obtain ⟨rfl, rfl⟩ := Prod.mk.inj e
  exact ⟨List.mem_range.mp hk, hf⟩

theorem State.seatFor_some {t : Strand} {core slot : Nat} (h : s.seatFor t = some (core, slot)) :
    s.freeSlotFor t = some (core, slot) ∧ (s.sidFor t core slot).isSome = true := Option.filter_eq_some_iff.mp h

/-- Where an entry is placed (R23). -/
theorem State.seatFor_spec {t : Strand} {core slot : Nat} (h : s.seatFor t = some (core, slot)) : core < 16 ∧ slot < 8 ∧
    s.slotFree t.id.uid t.id.die t.id.cluster core slot = true ∧ s.coreTakes t core = true ∧
    ∀ k, k < slot → s.savedFollower t = none → s.slotFree t.id.uid t.id.die t.id.cluster core k = false := by
  obtain ⟨hc, found⟩ := s.freeSlotFor_some (s.seatFor_some h).1
  obtain ⟨hs, free, takes, lowest⟩ := s.slotFor_some found
  exact ⟨hc, hs, free, takes, fun k hk alone => lowest (by rw [alone]; rfl) k hk⟩

/-- A strand as it enters a slot: one that was stopped stays stopped, and any other park replays. -/
def State.entered (s : State) (t : Strand) (core slot : Nat) (frozen : Bool) (x : Strand) : Strand :=
  let stopped := x.st == .saved && x.park.reason == .stopped && x.park.operand != 0#64
  { x with st := if frozen then .frozen else if stopped then .parked else .active
           id := { x.id with sid := s.sidFor t core slot, core := core, slot := slot, enteredAt := s.cycle, entryNo := s.fresh }
           q := (x.q.moved x.id.die x.id.cluster core).addressed x.id.ctx (s.sidFor t core slot)
           park := if stopped then x.park else {} }

theorem State.laySpill_all (t : Strand) : (s.laySpill t).all = s.all := by
  obtain ⟨m, e⟩ := s.laySpill_only t
  rw [e]
  rfl

/-- An entry changes one strand alone. -/
theorem State.enter_all (t : Strand) (core slot : Nat) (frozen : Bool) :
    (s.enter t core slot frozen).all = (s.mapStrand t.id.uid (s.entered t core slot frozen)).all := by
  unfold State.enter
  extract_lets
  split
  · exact State.laySpill_all ..
  · rfl

section
variable {s} {t : Strand} {core slot : Nat} {frozen : Bool}

theorem State.mem_enter {x : Strand} (h : x ∈ s.all) (live : x.live = true) (e : x.id.uid = t.id.uid) :
    s.entered t core slot frozen x ∈ (s.enter t core slot frozen).all := by
  rw [s.enter_all]
  exact State.mem_mapStrand _ _ h live e

theorem State.mem_enter_of_ne {x : Strand} (h : x ∈ s.all) (e : x.id.uid ≠ t.id.uid) :
    x ∈ (s.enter t core slot frozen).all := by
  rw [s.enter_all]
  exact State.mem_mapStrand_of_ne _ _ h e

/-- Of the strands none loses a register by an entry. -/
theorem State.enter_kept {x : Strand} (h : x ∈ s.all) : ∃ y ∈ (s.enter t core slot frozen).all, x.Kept y := by
  rw [s.enter_all, s.mapStrand_all]
  refine ⟨_, List.mem_map_of_mem h, ?_⟩
  split
  · exact ⟨rfl, ⟨rfl, rfl, rfl⟩, rfl⟩
  · exact .refl x

end

/-- The state in which an entry's core is its partition's, and its kept slots are free. -/
def State.readied (s : State) (t : Strand) (core : Nat) : State :=
  (s.unkeep t.id.uid).coreFor t.id.die t.id.cluster core t.id.part

theorem State.readied_all (t : Strand) (core : Nat) : (s.readied t core).all = s.all := State.coreFor_all ..

theorem State.place_alone {t : Strand} (alone : s.savedFollower t = none) (p : Nat × Nat) :
    s.place t p = (s.readied t p.1).enter t p.1 p.2 false := by
  rw [State.place, alone]; rfl

theorem State.place_pair {t f : Strand} (pair : s.savedFollower t = some f) (p : Nat × Nat) :
    s.place t p = ((s.readied t p.1).enter t p.1 p.2 false).enter f p.1 (p.2 + 1) true := by
  rw [State.place, pair]; rfl

theorem State.place_kept {x : Strand} (h : x ∈ s.all) (t : Strand) (p : Nat × Nat) : ∃ y ∈ (s.place t p).all, x.Kept y := by
  rw [← s.readied_all t p.1] at h
  obtain ⟨y, hy, kept⟩ := State.enter_kept (t := t) (core := p.1) (slot := p.2) (frozen := false) h
  cases pair : s.savedFollower t with
  | none => rw [s.place_alone pair]; exact ⟨y, hy, kept⟩
  | some f =>
    obtain ⟨z, hz, kept'⟩ := State.enter_kept (t := f) (core := p.1) (slot := p.2 + 1) (frozen := true) hy
    rw [s.place_pair pair]
    exact ⟨z, hz, kept.trans kept'⟩

/-- A placement leaves the strands alone that it does not place. -/
theorem State.place_others {x t : Strand} (h : x ∈ s.all) (other : x.id.uid ≠ t.id.uid)
    (unpaired : ∀ f, s.savedFollower t = some f → x.id.uid ≠ f.id.uid) (p : Nat × Nat) : x ∈ (s.place t p).all := by
  rw [← s.readied_all t p.1] at h
  cases pair : s.savedFollower t with
  | none => rw [s.place_alone pair]; exact State.mem_enter_of_ne h other
  | some f => rw [s.place_pair pair]; exact State.mem_enter_of_ne (State.mem_enter_of_ne h other) (unpaired f pair)

/-- R23, R26: the oldest entry that a core may take enters its slot. -/
theorem strandPlacement_does {s : State} {die cluster core slot : Nat} {t : Strand} {ts : List Strand}
    (oldest : s.queueOf die cluster = t :: ts) (seat : s.seatFor t = some (core, slot)) (alone : s.savedFollower t = none)
    (queued : t.st = .queued) : Does (.strandPlacement die cluster) s (fun u => ∃ y ∈ u.all, y.id.uid = t.id.uid ∧
      y.st = .active ∧ y.id.core = core ∧ y.id.slot = slot ∧ y.id.sid.isSome = true ∧ y.pc = t.pc ∧ SameRegisters t y) := by
  have meaning : exec (.strandPlacement die cluster) s = .next (s.place t (core, slot)) := by
    show execStrandPlacement die cluster s = _
    simp only [execStrandPlacement, oldest, List.findSome?_cons, seat, Option.map_some]
  obtain ⟨mem, waits⟩ := s.queueOf_mem (t := t) (oldest ▸ List.mem_cons_self ..)
  rw [← s.readied_all t core] at mem
  refine ⟨_, meaning, (s.readied t core).entered t core slot false t, ?_, rfl, ?_, rfl, rfl, ?_, rfl, rfl, rfl, rfl⟩
  · rw [s.place_alone alone]
    exact State.mem_enter mem (Strand.live_of_waitsIn waits) rfl
  · simp [State.entered, queued]
  · show ((s.readied t core).sidFor t core slot).isSome = true
    rw [State.sidFor_congr (s.readied_all t core)]
    exact (s.seatFor_some seat).2

/-! ## Victims (R385) -/

/-- Between two candidates, the PARKED one is taken. -/
theorem beforeVictim_parked (a b : Strand) :
    (a.st = .parked → (if beforeVictim a b then a else b).st = .parked) ∧
    (b.st = .parked → (if beforeVictim a b then a else b).st = .parked) := by
  unfold beforeVictim
  by_cases ha : a.st = .parked <;> by_cases hb : b.st = .parked
  · have both : ∀ c : Bool, (if c then a else b).st = .parked := fun c => by
      cases c
      · exact hb
      · exact ha
    exact ⟨fun _ => both _, fun _ => both _⟩
  · simp [ha, hb]
  · simp [ha, hb]
  · simp [ha, hb]

/-- What a victim is: long enough in its slot, of the entry's partition, and PARKED where an eligible one is. -/
theorem State.victim_spec {t v : Strand} (h : s.victim t = some v) : v ∈ s.all ∧ v.resident = true ∧
    v.id.part = t.id.part ∧ v.id.enteredAt + 2 ^ 17 ≤ s.cycle ∧
    ∀ x ∈ s.all, x.st = .parked → s.longEnough x = true → x.id.die = t.id.die →
      x.id.cluster = t.id.cluster → x.id.part = t.id.part → s.coreTakes t x.id.core = true →
      s.mayUse t x.id.core x.id.slot = true → (x.id.core, x.id.slot) ∉ s.keptFor t → v.st = .parked := by
  unfold State.victim at h
  extract_lets cands pref at h
  have select : ∀ b x : Strand, (if beforeVictim b x then b else x) = b ∨ (if beforeVictim b x then b else x) = x :=
    fun b x => ite_eq_or_eq ..
  have sub : ∀ x ∈ (if pref.isEmpty then cands else pref), x ∈ cands := by
    split
    · exact fun x hx => hx
    · exact fun x hx => (List.mem_filter.mp hx).1
  cases e : (if pref.isEmpty then cands else pref) with
  | nil => rw [e] at h; exact absurd h (by simp)
  | cons c cs =>
    rw [e] at h sub
    replace h := Option.some.inj h
    have best := foldl_select_dominates (R := fun x y : Strand => x.st = .parked → y.st = .parked)
      (fun _ h => h) (fun a b h => b (a h)) beforeVictim_parked cs c
    rw [h] at best
    obtain ⟨all, is⟩ := List.mem_filter.mp (sub v (h ▸ foldl_select_mem select cs c))
    simp only [Bool.and_eq_true, beq_iff_eq, State.longEnough, decide_eq_true_eq] at is
    obtain ⟨⟨⟨⟨⟨⟨⟨resident, -⟩, -⟩, part⟩, -⟩, -⟩, since, -⟩, -⟩ := is
    refine ⟨all, resident, part, since, fun x hx parked enough die cluster part takes may free => best x ?_ parked⟩
    have notKept : ((s.keptFor t).any (fun k => k.1 == x.id.core && k.2 == x.id.slot)) = false := by
      rw [List.any_eq_false]
      rintro ⟨k, l⟩ hk same
      simp only [Bool.and_eq_true, beq_iff_eq] at same
      obtain ⟨rfl, rfl⟩ := same
      exact free hk
    have inPref : x ∈ pref := by
      refine List.mem_filter.mpr ⟨List.mem_filter.mpr ⟨hx, ?_⟩, may⟩
      simp [Strand.resident, parked, die, cluster, part, takes, enough, notKept]
    rw [← e, if_neg (fun none => List.ne_nil_of_mem inPref (List.isEmpty_iff.mp none))]
    exact inPref


theorem State.placeIf_kept (uid : Nat) {x : Strand} (h : x ∈ s.all) : ∃ y ∈ (s.placeIf uid).all, x.Kept y := by
  unfold State.placeIf
  split
  · split
    · exact s.place_kept h ..
    · exact ⟨x, h, .refl x⟩
  · exact ⟨x, h, .refl x⟩

/-- A strand that is no entry's partner stays as it is when another is placed. -/
theorem State.placeIf_others {s : State} (named : s.named) {x : Strand} (h : x ∈ s.all) (other : x.id.uid ≠ uid)
    (single : x.ctl.ganged = false) : x ∈ (s.placeIf uid).all := by
  unfold State.placeIf
  split
  · next t found =>
    split
    · obtain ⟨-, -, isIt⟩ := s.strand?_some found
      refine s.place_others h (isIt ▸ other) (fun f pair e => ?_) _
      have isPair := List.find?_some pair
      rw [← State.eq_of_uid named h (List.mem_of_find?_eq_some pair) e] at isPair
      simp [Strand.savedPair, single] at isPair
    · exact h
  · exact h

/-- R385: a victim that can be saved is, and the entry takes its place; nobody's registers are lost. -/
theorem victimPreempt_does {s : State} {t v : Strand} (h : s.strand? uid = some t)
    (waits : t.waitsIn t.id.die t.id.cluster = true) (due : t.id.queuedAt + 2 ^ 17 ≤ s.cycle) (full : s.freeSlotFor t = none)
    (unled : ∀ l ∈ s.all, l.savedPair t = false) (chosen : s.victim t = some v) (alone : s.gangMate v = none)
    (single : v.ctl.ganged = false) (named : s.named) :
    Does (.victimPreempt uid) s (fun u => (∃ y ∈ u.all, v.Kept y) ∧ (∃ y ∈ u.all, t.Kept y) ∧
      (s.canSave v = true → ∃ y ∈ u.all, y.id.uid = v.id.uid ∧ y.st = .saved)) := by
  have notLed : (s.all.any fun l => l.savedPair t) = false := List.any_eq_false.mpr fun l hl => by simp [unled l hl]
  have meaning : exec (.victimPreempt uid) s =
      .next (if s.canSave v then ((s.keep uid v).saveStrand v).placeIf uid else s) := by
    have waited : decide (s.cycle < t.id.queuedAt + 2 ^ 17) = false := decide_eq_false (Nat.not_lt.mpr due)
    show execVictimPreempt uid s = _
    simp only [execVictimPreempt, h, waits, notLed, waited, full, chosen, Bool.not_true, Option.isSome_none, Bool.or_self,
      Bool.false_eq_true, if_false]
  obtain ⟨memV, resident, -⟩ := s.victim_spec chosen
  obtain ⟨memT, liveT, isT⟩ := s.strand?_some h
  refine ⟨_, meaning, ?_⟩
  split
  · next can =>
    let k := s.keep uid v
    have found : k.strand? v.id.uid = some v := State.strand?_of_mem (s := s) named memV (Strand.live_of_resident resident)
    have apart : v.id.uid ≠ uid := fun e => by
      rw [State.eq_of_uid named memV memT (e.trans isT.symm)] at resident
      exact Strand.not_waitsIn_of_resident resident waits
    obtain ⟨y, hy, st, ctl, -, -, keptV⟩ := State.saveOne_saved (s := k) named found k.fresh
    obtain ⟨z, hz, keptT, -⟩ := State.saveOne_others (s := k) named found k.fresh memT liveT (isT ▸ apart.symm)
    have named' := State.saveOne_named (s := k) named found k.fresh
    rw [k.saveStrand_alone alone]
    let w : State := { k.saveOne v.id.uid k.fresh with fresh := k.fresh + 1 }
    obtain ⟨y', hy', keptV'⟩ := w.placeIf_kept uid hy
    obtain ⟨z', hz', keptT'⟩ := w.placeIf_kept uid hz
    have stays := State.placeIf_others (s := w) named' hy (keptV.1 ▸ apart) (ctl ▸ single)
    exact ⟨⟨y', hy', keptV.trans keptV'⟩, ⟨z', hz', keptT.trans keptT'⟩, fun _ => ⟨y, stays, keptV.1, st⟩⟩
  · next cannot => exact ⟨⟨v, memV, .refl v⟩, ⟨t, memT, .refl t⟩, fun can => absurd can cannot⟩

/-- R34: the SAVED follower of a gang gets no victim of its own. -/
theorem victimPreempt_led {s : State} {t : Strand} (h : s.strand? uid = some t) (led : ∃ l ∈ s.all, l.savedPair t = true) :
    exec (.victimPreempt uid) s = .next s := by
  have isLed : (s.all.any fun l => l.savedPair t) = true := List.any_eq_true.mpr led
  show execVictimPreempt uid s = _
  simp [execVictimPreempt, h, isLed]

/-! ## O36 -/

/-- Settles O36: each clause is a lemma of this file or of the events before it. -/
theorem strandEventsAndSlots : Obligations.StrandEventsAndSlots := by
  unfold Obligations.StrandEventsAndSlots
  refine ⟨fun s uid t df rest w w2 h => ?_, fun s die cluster uid t v ts core slot => ?_⟩
  · exact ⟨resultLands_does h, strandWake_does h, fewaitExpiry_does h, twaitDeadline_does h, celltmoExpiry_does h,
      deferredTrap_does h, deferred_before_expiry h, instructionFetch_does h, registerParityError_does h,
      illegalInstruction_does s w w2⟩
  · refine ⟨fun oldest seat _ alone queued => strandPlacement_does oldest seat alone queued, s.seatFor_spec,
      fun h can alone named => strandSave_does h can alone named, strandSave_marks,
      fun h waits due full unled chosen alone single named => ?_, victimPreempt_led⟩
    obtain ⟨u, meaning, keptV, keptT, saved⟩ := victimPreempt_does h waits due full unled chosen alone single named
    obtain ⟨-, -, part, since, first⟩ := s.victim_spec chosen
    exact ⟨u, meaning, keptV, keptT, since, part, saved, first⟩

end Sys2Proof.Machine
end

