-- ==== Sys2Proof/Proofs/MemState.lean ====
section
/-! SUPPORT. Memory in canonical form: what each operation of the state keeps (O60). -/
namespace Sys2Proof.Machine

/-! ## The results of steps that carry a state -/

/-- What a meaning goes on with has its memory in canonical form. -/
def Out.memOk : Out → Prop
  | .next t => t.memOk
  | _ => True

/-- What a step of an element does to memory keeps the canonical form. -/
def Did.memOk : Did → Prop
  | .acts _ _ _ _ also => ∀ t, t.memOk → (also t).memOk
  | .state t => t.memOk
  | _ => True

/-- What a performed access of a port does to memory keeps the canonical form. -/
def MpDone.memOk : MpDone → Prop
  | .done _ _ _ also => ∀ t, t.memOk → (also t).memOk
  | _ => True

/-- What an array read of a fibre element leaves has its memory in canonical form. -/
def FeRead.memOk : FeRead → Prop
  | .value _ t => t.memOk
  | .wait t => t.memOk
  | .fault _ t => t.memOk

/-- What an array write of a fibre element leaves has its memory in canonical form. -/
def FeWrite.memOk : FeWrite → Prop
  | .done _ t => t.memOk
  | .wait t => t.memOk
  | .fault _ t => t.memOk

/-- What a management command answers leaves memory in canonical form. -/
def Reply.memOk : Option Reply → Prop
  | some r => r.s.memOk
  | none => True

theorem Out.memOk.of_eq {x y : Out} (h : x.memOk) (e : x = y) : y.memOk := e ▸ h
theorem Did.memOk.of_eq {x y : Did} (h : x.memOk) (e : x = y) : y.memOk := e ▸ h
theorem MpDone.memOk.of_eq {x y : MpDone} (h : x.memOk) (e : x = y) : y.memOk := e ▸ h
theorem FeRead.memOk.of_eq {x y : FeRead} (h : x.memOk) (e : x = y) : y.memOk := e ▸ h
theorem FeWrite.memOk.of_eq {x y : FeWrite} (h : x.memOk) (e : x = y) : y.memOk := e ▸ h

theorem Out.memOk.ite {c : Prop} [Decidable c] {x y : Out} (hx : x.memOk) (hy : y.memOk) :
    (if c then x else y).memOk := by
  split
  · exact hx
  · exact hy

namespace State.memOk
theorem of_mem {s t : State} (ok : s.memOk) (e : t.m.mem = s.m.mem) : t.memOk := s.memOk_of_mem ok e
theorem of_snd {α : Type} {p : α × State} {a : α} {t : State} (ok : p.2.memOk) (e : p = (a, t)) : t.memOk := by
  rw [e] at ok
  exact ok
theorem of_eq {α : Type} {p q : α × State} (ok : p.2.memOk) (e : p = q) : q.2.memOk := e ▸ ok
theorem foldl {α : Type} {s : State} {f : State → α → State} {l : List α} (ok : s.memOk)
    (hf : ∀ t x, t.memOk → (f t x).memOk) : (l.foldl f s).memOk := by
  induction l generalizing s with
  | nil => exact ok
  | cons x l ih => exact ih (hf s x ok)
end State.memOk

/-! ## Bytes and bits -/

theorem State.memOk.wrBytes {s : State} {l : Nat} {bs : List Byte} (ok : s.memOk) : (s.wrBytes l bs).memOk :=
  s.memOk_wrBytes ok l bs

theorem State.memOk.wr {s : State} {l n x : Nat} (ok : s.memOk) : (s.wr l n x).memOk := ok.wrBytes

theorem State.memOk.setTag {s : State} {pa : Nat} {t : Tag} (ok : s.memOk) : (s.setTag pa t).memOk := ok

/-! ## Strands, registers, parks and traps -/

theorem State.memOk.mapStrands {s : State} {f : Strand → Strand} (ok : s.memOk) : (s.mapStrands f).memOk := ok

theorem State.memOk.mapStrand {s : State} {uid : Nat} {f : Strand → Strand} (ok : s.memOk) :
    (s.mapStrand uid f).memOk := ok.mapStrands

theorem State.memOk.seat {s : State} {uid : Nat} (ok : s.memOk) : (s.seat uid).memOk := by
  unfold State.seat
  split
  · exact ok
  · split <;> exact ok

theorem State.memOk.onStrand {s : State} {uid : Nat} {c : Strand → Bool} {f : State → State} (ok : s.memOk)
    (hf : ∀ t, t.memOk → (f t).memOk) :
    (s.onStrand uid c f).memOk := by
  unfold State.onStrand
  split
  · split
    · exact hf _ ok.seat
    · exact ok
  · exact ok

theorem State.memOk.setCtl {s : State} {c : Ctl} (ok : s.memOk) : (s.setCtl c).memOk := ok

theorem State.memOk.setPc {s : State} {pc : Word} (ok : s.memOk) : (s.setPc pc).memOk := ok

theorem State.memOk.adv {s : State} (ok : s.memOk) : (s.adv).memOk := ok.setPc

theorem State.memOk.adv8 {s : State} (ok : s.memOk) : (s.adv8).memOk := ok.setPc

theorem State.memOk.setG {s : State} {r : BitVec 6} {x : Word} (ok : s.memOk) : (s.setG r x).memOk := ok

theorem State.memOk.setGs {s : State} {n : Nat} {l : List Word} (ok : s.memOk) : (s.setGs n l).memOk := by
  induction l generalizing s n with
  | nil => exact ok
  | cons x l ih => exact ih ok

theorem State.memOk.mergeFlags {s : State} {f : BitVec 5} (ok : s.memOk) : (s.mergeFlags f).memOk := ok.setCtl

theorem State.memOk.markBusy {s : State} {ms : List BusyMark} (ok : s.memOk) : (s.markBusy ms).memOk := ok

theorem State.memOk.mapFollower {s : State} {f : Strand → Strand} (ok : s.memOk) : (s.mapFollower f).memOk := by
  unfold State.mapFollower
  split <;> exact ok

theorem State.memOk.endGang {s : State} (ok : s.memOk) : (s.endGang).memOk := by
  unfold State.endGang
  split
  · exact ok.mapFollower
  · exact ok

theorem State.memOk.parkFor {s : State} {r : Reason} {op : Word} {loc : Nat} {wantFull : Bool} {lane : Nat}
    (ok : s.memOk) :
    (s.parkFor r op loc wantFull lane).memOk := ok

theorem State.memOk.wrWake {s : State} {l : Nat} {bs : List Byte} (ok : s.memOk) : (s.wrWake l bs).memOk := ok.wrBytes

theorem State.memOk.clearHolds {s : State} (ok : s.memOk) : s.clearHolds.memOk := ok

theorem State.memOk.enterTrap {s : State} {tpc : Word} {r : TrapRec} (ok : s.memOk) : (s.enterTrap tpc r).memOk := by
  simp only [State.enterTrap]
  split <;> exact ok.endGang

theorem State.memOk.trap {s : State} {r : TrapRec} (ok : s.memOk) : (s.trap r).memOk := ok.enterTrap

theorem State.memOk.returnFromTrap {s : State} (ok : s.memOk) : (s.returnFromTrap).memOk := by
  simp only [State.returnFromTrap]
  split
  · exact ok.trap
  · exact ok

theorem State.memOk.jumpTo {s : State} {target : Word} {also : State → State} (ok : s.memOk)
    (halso : ∀ t, t.memOk → (also t).memOk) :
    (s.jumpTo target also).memOk := by
  unfold State.jumpTo
  split
  · exact ok.trap
  · exact halso _ ok

theorem State.memOk.privileged {s : State} {w : BitVec 32} {f : State → State} (ok : s.memOk)
    (hf : ∀ t, t.memOk → (f t).memOk) :
    (s.privileged w f).memOk := by
  unfold State.privileged
  split
  · exact hf _ ok
  · exact ok.trap

theorem State.memOk.setPart {s : State} {p : Nat} {x : Partition} (ok : s.memOk) : (s.setPart p x).memOk := ok

theorem State.memOk.setDie {s : State} {d : Nat} {x : Die} (ok : s.memOk) : (s.setDie d x).memOk := ok

theorem State.memOk.setFn {s : State} {f : Nat} {x : HostFn} (ok : s.memOk) : (s.setFn f x).memOk := ok

theorem State.memOk.send {s : State} {m : OutMsg} (ok : s.memOk) : (s.send m).memOk := ok

theorem State.memOk.setCore {s : State} {c : Core} (ok : s.memOk) : (s.setCore c).memOk := ok

theorem State.memOk.laySpill {s : State} {t : Strand} (ok : s.memOk) : (s.laySpill t).memOk := by
  unfold State.laySpill
  split
  · exact ok.foldl (fun t' x ht => ht.wrBytes)
  · exact ok

theorem State.memOk.liftSpills {s : State} {die cluster core : Nat} (ok : s.memOk) :
    (s.liftSpills die cluster core).memOk := ok.mapStrands

theorem State.memOk.laySpills {s : State} {die cluster core : Nat} (ok : s.memOk) :
    (s.laySpills die cluster core).memOk := ok.foldl (fun _ _ ht => ht.laySpill)

theorem State.memOk.freeValue {s : State} (ok : s.memOk) : (s.freeValue).2.memOk := ok

/-! ## Reports and budgets -/

theorem State.memOk.signal {s : State} {f v : Nat} (ok : s.memOk) : (s.signal f v).memOk := by
  simp only [State.signal]
  split
  · exact ok
  · split <;> exact ok

theorem State.memOk.writeNotify {s : State} {l source die value : Nat} (ok : s.memOk) :
    (s.writeNotify l source die value).memOk := ok.wrWake

theorem State.memOk.raise {s : State} {part : Nat} {b : Subscription} {value : Nat} (ok : s.memOk) :
    (s.raise part b value).memOk := by
  simp only [State.raise]
  split
  · split
    · exact ok.writeNotify
    · exact ok
  · refine .signal ?_
    split
    · exact ok.writeNotify
    · exact ok

theorem State.memOk.raiseAll {s : State} {part source die value : Nat} (ok : s.memOk) :
    (s.raiseAll part source die value).memOk := ok.foldl (fun _ _ ht => ht.raise)

theorem State.memOk.charge {s : State} {part die which n : Nat} (ok : s.memOk) :
    (s.charge part die which n).memOk := by
  simp only [State.charge]
  split
  · exact ok
  · split
    · refine .raiseAll ?_
      exact ok
    · exact ok

/-! ## Keys, translation and checks -/

theorem State.memOk.showLine {s : State} {line shown : Nat} {keyed : List KeyedLine} (ok : s.memOk) :
    (s.showLine line shown keyed).memOk := s.memOk_showLine ok line shown keyed

theorem State.memOk.useKey {s : State} {part sel pa : Nat} (ok : s.memOk) : (s.useKey part sel pa).memOk := by
  simp only [State.useKey]
  split
  · exact ok
  · exact ok.showLine

theorem State.memOk.useKeys {s : State} {part sel pa n : Nat} (ok : s.memOk) :
    (s.useKeys part sel pa n).memOk := ok.foldl (fun _ _ ht => ht.useKey)

theorem State.memOk.plainKeys {s : State} {part pa n : Nat} (ok : s.memOk) :
    (s.plainKeys part pa n).memOk := ok.foldl (fun _ _ ht => ht.useKey)

theorem State.memOk.translate {s : State} {site : Site} {hs : List TlbHolder} {va : Nat} (ok : s.memOk) :
    (s.translate site hs va).2.memOk := by
  unfold State.translate
  split <;> split <;> exact ok

theorem State.memOk.places {s : State} {x : Site} {acc : Acc} {ls : List (Nat × Word × Option Nat)} (ok : s.memOk) :
    (s.places x acc ls).2.memOk := by
  induction ls generalizing s with
  | nil => exact ok
  | cons q ls ih =>
    obtain ⟨i, a, l⟩ := q
    simp only [State.places]
    split
    · split
      · next e => exact (ih ok).of_snd e
      · exact ih ok
    · split
      · next e => exact ok.translate.of_snd e
      · next e => exact ok.translate.of_snd e
      · next e =>
        have seen := ok.translate.of_snd e
        split
        · exact seen
        · split
          · next e' => exact (ih seen).of_snd e'
          · exact ih seen

theorem State.memOk.onPort {s : State} {y : OutMsg} (ok : s.memOk) : (s.onPort y).memOk := by
  unfold State.onPort
  split <;> exact ok

theorem State.memOk.sendLink {s : State} {part die : Nat} {line : Option Nat} {m : OutMsg} (ok : s.memOk) :
    (s.sendLink part die line m).memOk := by
  simp only [State.sendLink]
  split
  · exact ok.onPort
  · exact ok

theorem State.memOk.giveUpKept {s : State} (ok : s.memOk) : (s.giveUpKept).memOk := by
  unfold State.giveUpKept
  refine .foldl ?_ (fun t x ht => ht.sendLink)
  exact ok

theorem State.memOk.flushLinks {s : State} (ok : s.memOk) : (s.flushLinks).memOk := by
  unfold State.flushLinks
  refine .giveUpKept ?_
  refine .foldl ?_ (fun t x ht => ht.sendLink)
  exact ok

theorem State.memOk.enterSlices {s : State} {x : Site} {size : Nat} {fwd : Bool} {ps : List (Nat × Word × Place)}
    (ok : s.memOk) :
    (s.enterSlices x size fwd ps).2.memOk := by
  unfold State.enterSlices
  split
  · exact ok.foldl (fun t x' ht => ht.charge)
  · exact ok

theorem State.memOk.check {s : State} {x : Site} {rule : SpaceRule} {acc : Acc} {size align : Nat}
    {lanes : List (Nat × Word)} {fwd : Bool} (ok : s.memOk) :
    (s.check x rule acc size align lanes fwd).2.memOk := by
  simp only [State.check]
  split
  · exact ok.clearHolds
  · split
    · exact ok.clearHolds
    · split
      · next e =>
          exact (ok.clearHolds.places.of_snd e).enterSlices
      · exact ok.clearHolds.places

theorem State.memOk.pageFault {s : State} {va : Word} {lane kinds : Nat} (ok : s.memOk) :
    (s.pageFault va lane kinds).memOk := by
  simp only [State.pageFault]
  split
  · exact ok.trap
  · exact ok

theorem State.memOk.underKeys {s : State} {ps : List (Nat × Word × Place)} (ok : s.memOk) : (s.underKeys ps).memOk := by
  unfold State.underKeys
  refine ok.foldl ?_
  intro t x ht
  split
  · exact ht.useKey
  · exact ht

theorem State.memOk.afterCheck {c : Checked × State} {acc : Acc} {f : List (Nat × Word × Place) → State → State}
    (ok : c.2.memOk) (hf : ∀ ps t, t.memOk → (f ps t).memOk) : (State.afterCheck c acc f).memOk := by
  unfold State.afterCheck
  split
  · exact ok.trap
  · exact ok.pageFault
  · exact ok
  · exact hf _ _ ok.underKeys

/-! ## Cells and eclosions -/

theorem State.memOk.ask {s : State} {op width pa : Nat} {va : Word} {data : BitVec 512}
    {expected : Word} {uid part die : Nat} {w : Option Waiter} {cid : Option Nat} {agent : Nat} {cpage : Bool}
        {lane : Nat} (ok : s.memOk) :
    (s.ask op width pa va data expected uid part die w cid agent cpage lane).memOk := by
  unfold State.ask
  refine .charge ?_
  refine .sendLink ?_
  exact ok

theorem State.memOk.awaitNone {s : State} {part : Nat} {m : Option Nat} (ok : s.memOk) : (s.awaitNone part m).memOk :=
  ok

theorem State.memOk.eclose {s : State} {x : Site} {remote : Bool} {pa : Nat} {va : Word} {w : Option Waiter}
    (ok : s.memOk) :
    (s.eclose x remote pa va w).2.memOk := by
  simp only [State.eclose]
  split
  · exact ok
  · split
    · exact ok
    · refine .charge ?_
      exact ok

theorem State.memOk.enqueue {s t : State} {e : Eclosion} {w : Waiter} (ok : s.memOk) (e' : s.enqueue e w = some t) :
    t.memOk := by
  unfold State.enqueue at e'
  split at e'
  · cases e'
    exact ok
  · split at e'
    · cases e'
    · cases e'
      exact ok

theorem State.memOk.dequeue {s : State} {w : Waiter} (ok : s.memOk) : (s.dequeue w).memOk := ok

theorem State.memOk.wakeWaiter {part pa : Nat} {s : State} {y : Waiter} (ok : s.memOk) :
    (State.wakeWaiter part pa s y).memOk := by
  unfold State.wakeWaiter
  split
  · exact ok
  · exact ok
  · exact ok.sendLink

theorem State.memOk.endEclosion {s : State} {e : Eclosion} (ok : s.memOk) : (s.endEclosion e).memOk := by
  unfold State.endEclosion
  refine .foldl ?_ (fun t x ht => ht.wakeWaiter)
  exact ok

theorem State.memOk.leaveCell {s : State} {t : Strand} (ok : s.memOk) : (s.leaveCell t).memOk := by
  unfold State.leaveCell
  split
  · exact ok.sendLink
  · exact ok

theorem State.memOk.chaseOn {s : State} {y : Chased} (ok : s.memOk) : (s.chaseOn y).memOk := by
  unfold State.chaseOn
  split
  · exact ok.leaveCell.trap
  · refine .ask ?_
    exact ok
  · exact ok

theorem State.memOk.waitOnCell {s : State} {va : Word} {pa lane : Nat} (ok : s.memOk) :
    (s.waitOnCell va pa lane).memOk := by
  unfold State.waitOnCell
  split
  · exact ok
  · split
    · exact ok.trap
    · next e =>
        split
        · exact ((ok.enqueue e).dequeue).trap
        · exact ((ok.enqueue e).parkFor).chaseOn

theorem State.memOk.meetCell {s : State} {va : Word} {pa lane : Nat} (ok : s.memOk) :
    (s.meetCell va pa lane).memOk := by
  unfold State.meetCell
  split
  · exact ok
  · exact ok.trap
  · exact ok.waitOnCell
  · split
    · next e =>
        exact (ok.eclose.of_snd e).trap
    · next e =>
        exact (ok.eclose.of_snd e).trap
    · next e =>
        exact (ok.eclose.of_snd e).parkFor

theorem State.memOk.askWait {s : State} {op width : Nat} {q : Nat × Word × Place} {data : BitVec 512}
    {expected : Word} (ok : s.memOk) :
    (s.askWait op width q data expected).memOk := ok.ask

theorem State.memOk.probe {s : State} {store : Bool} {ps : List (Nat × Word × Place)} {q : Nat × Word × Place}
    (ok : s.memOk) :
    (s.probe store ps q).memOk := ok.askWait

theorem State.memOk.launchCells {s : State} {but : Option Nat} {ps : List (Nat × Word × Place)} (ok : s.memOk) :
    (s.launchCells but ps).memOk := by
  induction ps generalizing s with
  | nil => exact ok
  | cons q ps ih =>
    refine ih ?_
    split
    · split
      · exact ok.ask
      · exact ok
    · split
      · exact ok.eclose
      · exact ok

theorem State.memOk.readGate {s : State} {width : Nat} {ps : List (Nat × Word × Place)} {f : State → State}
    (ok : s.memOk) (hf : ∀ t, t.memOk → (f t).memOk) :
    (s.readGate width ps f).memOk := by
  simp only [State.readGate]
  split
  · exact ok.probe
  · split
    · exact hf _ ok
    · split
      · split
        · exact ok.trap
        · split
          · exact ok.trap
          · split
            · exact ok
            · exact ok.launchCells.askWait
      · split
        · exact ok.trap
        · split
          · exact ok
          · split
            · exact ok.meetCell.launchCells
            · exact ok.meetCell

theorem State.memOk.writeGlobal {s : State} {pa : Nat} {bs : List Byte} (ok : s.memOk) : (s.writeGlobal pa bs).memOk := by
  unfold State.writeGlobal
  split
  · exact ok.wrBytes
  · refine .wrBytes ?_
    refine .wr ?_
    split
    · exact ok.endEclosion
    · exact ok
  · refine .wrBytes ?_
    refine .wr ?_
    exact ok

theorem State.memOk.writeCells {s : State} {n pa : Nat} {bs : List Byte} (ok : s.memOk) :
    (s.writeCells n pa bs).memOk := by
  induction n generalizing s pa bs with
  | zero => exact ok
  | succ n ih =>
    simp only [State.writeCells]
    split
    · exact ok
    · exact ih ok.writeGlobal

theorem State.memOk.writeRange {s : State} {pa : Nat} {bs : List Byte} (ok : s.memOk) : (s.writeRange pa bs).memOk :=
  ok.writeCells

theorem State.memOk.storeAt {s : State} {p : Place} {bs : List Byte} (ok : s.memOk) : (s.storeAt p bs).memOk := by
  unfold State.storeAt
  split
  · exact ok.writeGlobal
  · refine .wrBytes ?_
    split <;> exact ok

/-! ## Remote stores -/

theorem State.memOk.releasing {s : State} {scope : BitVec 3} {f : State → Out} (ok : s.memOk)
    (hf : ∀ t, t.memOk → (f t).memOk) :
    (s.releasing scope f).memOk := by
  unfold State.releasing
  split
  · exact ok
  · exact hf _ ok

theorem State.memOk.readAll {s : State} {fwd : Bool} {n : Nat} {ps : List (Nat × Word × Place)}
    {f : List Nat → State → State} (ok : s.memOk) (hf : ∀ x t, t.memOk → (f x t).memOk) :
    (s.readAll fwd n ps f).memOk := by
  unfold State.readAll
  split
  · exact hf _ _ ok
  · exact ok.askWait

theorem State.memOk.storeLane {s : State} {op : Nat} {q : Nat × Word × Place} {bs : List Byte} (ok : s.memOk) :
    (s.storeLane op q bs).memOk := by
  unfold State.storeLane
  split
  · exact ok.ask
  · exact ok.storeAt

theorem State.memOk.storeAll {s : State} {op : Nat} {ps : List (Nat × Word × Place)} {data : List (List Byte)}
    (ok : s.memOk) :
    (s.storeAll op ps data).memOk := by
  unfold State.storeAll
  split
  · split
    · split
      · exact ok
      · exact ok.askWait
    · refine .storeLane ?_
      exact ok
  · split
    · refine .foldl ?_ (fun t x ht => ht.storeLane)
      exact ok
    · refine .foldl ?_ (fun t x ht => ht.storeLane)
      exact ok

/-! ## Vector operands -/

theorem State.memOk.setLanes {s : State} {r : BitVec 4} {xs : List Lane} (ok : s.memOk) : (s.setLanes r xs).memOk := by
  simp only [State.setLanes]
  split
  · refine .mapFollower ?_
    exact ok
  · exact ok

theorem State.memOk.setMask {s : State} {r : BitVec 3} {x : BitVec 32} (ok : s.memOk) : (s.setMask r x).memOk := by
  simp only [State.setMask]
  split
  · refine .mapFollower ?_
    exact ok
  · exact ok

theorem State.memOk.lanewise {s : State} {d : BitVec 4} {k : BitVec 3} {f : Nat → Lane × BitVec 5} (ok : s.memOk) :
    (s.lanewise d k f).memOk := by
  unfold State.lanewise
  refine .setLanes ?_
  exact ok

theorem State.memOk.lanecmp {s : State} {d k : BitVec 3} {f : Nat → Bool × BitVec 5} (ok : s.memOk) :
    (s.lanecmp d k f).memOk := by
  unfold State.lanecmp
  refine .setMask ?_
  exact ok

theorem State.memOk.put {s : State} {d : BitVec 6} {x : Word} (ok : s.memOk) : (s.put d x).memOk := ok.setG.adv

theorem State.memOk.putF {s : State} {d : BitVec 6} {r : FRes} (ok : s.memOk) : (s.putF d r).memOk :=
  ok.setG.mergeFlags.adv

end Sys2Proof.Machine
end

