-- ==== Sys2Proof/Proofs/MemInstr.lean ====
section
/-! SUPPORT. Memory in canonical form: the instructions of strands (O60). -/
namespace Sys2Proof.Machine

/-! ## Floating point -/

theorem State.memOk.fop2 {s : State} {d a b : BitVec 6} {p : BitVec 1} {op : Fmt → FVal → FVal → FRes} (ok : s.memOk) :
    (s.fop2 d a b p op).memOk := ok.putF

theorem State.memOk.fop3 {s : State} {d a b : BitVec 6} {r : BitVec 3} {p : BitVec 1} {negProd negAdd : Bool}
    (ok : s.memOk) :
    (s.fop3 d a b r p negProd negAdd).memOk := ok.putF

theorem State.memOk.execFadd {d a b : BitVec 6} {r : BitVec 3} {p : BitVec 1} {s : State} (ok : s.memOk) :
    (execFadd d a b r p s).memOk := ok.fop2

theorem State.memOk.execFsub {d a b : BitVec 6} {r : BitVec 3} {p : BitVec 1} {s : State} (ok : s.memOk) :
    (execFsub d a b r p s).memOk := ok.fop2

theorem State.memOk.execFmul {d a b : BitVec 6} {r : BitVec 3} {p : BitVec 1} {s : State} (ok : s.memOk) :
    (execFmul d a b r p s).memOk := ok.fop2

theorem State.memOk.execFdiv {d a b : BitVec 6} {r : BitVec 3} {p : BitVec 1} {s : State} (ok : s.memOk) :
    (execFdiv d a b r p s).memOk := ok.fop2

/-! ## Vectors -/

theorem State.memOk.vop2 {s : State} {d a b : BitVec 4} {k : BitVec 3} {f : Lane → Lane → Lane} (ok : s.memOk) :
    (s.vop2 d a b k f).memOk := ok.lanewise

theorem State.memOk.execVmin {d a b : BitVec 4} {k : BitVec 3} {s : State} (ok : s.memOk) :
    (execVmin d a b k s).memOk := ok.vop2

theorem State.memOk.execVminN {d a b : BitVec 4} {k : BitVec 3} {s : State} (ok : s.memOk) :
    (execVminN d a b k s).memOk := ok.vop2

theorem State.memOk.execVmax {d a b : BitVec 4} {k : BitVec 3} {s : State} (ok : s.memOk) :
    (execVmax d a b k s).memOk := ok.vop2

theorem State.memOk.execVmaxN {d a b : BitVec 4} {k : BitVec 3} {s : State} (ok : s.memOk) :
    (execVmaxN d a b k s).memOk := ok.vop2

theorem State.memOk.execVshShl {d a b : BitVec 4} {k : BitVec 3} {s : State} (ok : s.memOk) :
    (execVshShl d a b k s).memOk := ok.vop2

theorem State.memOk.execVshShr {d a b : BitVec 4} {k : BitVec 3} {s : State} (ok : s.memOk) :
    (execVshShr d a b k s).memOk := ok.vop2

theorem State.memOk.execVshSha {d a b : BitVec 4} {k : BitVec 3} {s : State} (ok : s.memOk) :
    (execVshSha d a b k s).memOk := ok.vop2

theorem State.memOk.scan {s : State} {d a : BitVec 4} {k : BitVec 3} {zero : Lane}
    {f : Lane → Lane → Lane × BitVec 5} (ok : s.memOk) :
    (s.scan d a k zero f).memOk := by
  unfold State.scan
  refine .setLanes ?_
  exact ok

theorem State.memOk.vfop2 {s : State} {d a b : BitVec 4} {k : BitVec 3} {f : Lane → Lane → FRes} (ok : s.memOk) :
    (s.vfop2 d a b k f).memOk := ok.lanewise

theorem State.memOk.execVaddS {d a b : BitVec 4} {k : BitVec 3} {s : State} (ok : s.memOk) :
    (execVaddS d a b k s).memOk := ok.vfop2

theorem State.memOk.execVsubS {d a b : BitVec 4} {k : BitVec 3} {s : State} (ok : s.memOk) :
    (execVsubS d a b k s).memOk := ok.vfop2

theorem State.memOk.execVmulS {d a b : BitVec 4} {k : BitVec 3} {s : State} (ok : s.memOk) :
    (execVmulS d a b k s).memOk := ok.vfop2

theorem State.memOk.execVminS {d a b : BitVec 4} {k : BitVec 3} {s : State} (ok : s.memOk) :
    (execVminS d a b k s).memOk := ok.vfop2

theorem State.memOk.execVmaxS {d a b : BitVec 4} {k : BitVec 3} {s : State} (ok : s.memOk) :
    (execVmaxS d a b k s).memOk := ok.vfop2

theorem State.memOk.vsfu {s : State} {d a : BitVec 4} {k : BitVec 3} {fn : Nat} (ok : s.memOk) :
    (s.vsfu d a k fn).memOk := ok.lanewise

theorem State.memOk.execTblw {a b : BitVec 6} {s : State} (ok : s.memOk) : (execTblw a b s).memOk := by
  simp only [Machine.execTblw]
  split
  · exact ok
  · split
    · exact ok
    · exact ok.trap

theorem State.memOk.execGang {s : State} (ok : s.memOk) : (execGang s).memOk := by
  unfold Machine.execGang
  split
  · exact ok.trap
  · split <;> exact ok

theorem State.memOk.execSplit {s : State} (ok : s.memOk) : (execSplit s).memOk := by
  unfold Machine.execSplit
  split
  · exact ok.endGang
  · exact ok.trap

/-! ## Loads, stores, atomics and full/empty forms -/

theorem State.memOk.load {s : State} {size : Nat} {ls : List (Nat × Word)} {f : List Nat → State → State}
    {fwd : Bool} (ok : s.memOk) (hf : ∀ x t, t.memOk → (f x t).memOk) :
    (s.load size ls f fwd).memOk := ok.check.afterCheck (fun _ _ ht => ht.readGate (fun _ ht' => ht'.readAll
        (fun _ _ ht'' => hf _ _ ht'')))

theorem State.memOk.store {s : State} {op size : Nat} {ls : List (Nat × Word)} {data : List (List Byte)}
    (ok : s.memOk) :
    (s.store op size ls data).memOk := by
  unfold State.store
  refine ok.check.afterCheck ?_
  intro x t ht
  split
  · exact ht.probe
  · split
    · exact ht.trap
    · exact ht.storeAll

theorem State.memOk.loadG {s : State} {d : BitVec 6} {w : BitVec 2} {n : BitVec 1} {a : Word} {fwd : Bool}
    (ok : s.memOk) :
    (s.loadG d w n a fwd).memOk := ok.load (fun _ _ ht => ht.setG.markBusy.adv)

theorem State.memOk.storeG {s : State} {op : Nat} {r : BitVec 6} {w : BitVec 2} {a : Word} (ok : s.memOk) :
    (s.storeG op r w a).memOk := ok.store

theorem State.memOk.vload {s : State} {d : BitVec 4} {size align : Nat} {n : Bool} {ls : List (Nat × Word)}
    (ok : s.memOk) :
    (s.vload d size align n ls).memOk := ok.check.afterCheck (fun _ _ ht => ht.readGate (fun _ ht' => ht'.readAll
        (fun _ _ ht'' => ht''.setLanes.markBusy.adv)))

theorem State.memOk.vstore {s : State} {r : BitVec 4} {size : Nat} {ls : List (Nat × Word)} (ok : s.memOk) :
    (s.vstore r size ls).memOk := ok.store

theorem State.memOk.execPref {y : BitVec 6} {s : State} (ok : s.memOk) : (execPref y s).memOk := ok.adv

theorem State.memOk.execFence {scope : BitVec 3} {m : BitVec 4} {s : State} (ok : s.memOk) :
    (execFence scope m s).memOk := by
  unfold Machine.execFence
  split
  · exact ok.releasing (fun t ht => ht.clearHolds)
  · exact ok

theorem State.memOk.atomicAt {s : State} {d : BitVec 6} {op n x expected : Nat} {q : Nat × Word × Place}
    (ok : s.memOk) :
    (s.atomicAt d op n x expected q).memOk := by
  simp only [State.atomicAt]
  split
  · split
    · exact ok
    · exact ok.askWait
  · exact ok.storeAt

theorem State.memOk.atomic {s : State} {op : Nat} {d a b : BitVec 6} {scope : BitVec 3} {w : BitVec 1} (ok : s.memOk) :
    (s.atomic op d a b scope w).memOk := by
  unfold State.atomic
  refine ok.releasing ?_
  intro t ht
  refine ht.check.afterCheck ?_
  intro x t' ht'
  refine ht'.readGate ?_
  intro t'' ht''
  split
  · exact ht''.atomicAt
  · exact ht''

theorem State.memOk.feAt {s : State} {a : Word} {f : Nat → State → State} (ok : s.memOk)
    (hf : ∀ x t, t.memOk → (f x t).memOk) :
    (s.feAt a f).memOk := by
  unfold State.feAt
  refine ok.check.afterCheck ?_
  intro x t ht
  split
  · split
    · exact ht.trap
    · exact hf _ _ ht
  · exact ht

theorem State.memOk.storeWord {s : State} {l x : Nat} (ok : s.memOk) : (s.storeWord l x).memOk := ok.wr

theorem State.memOk.feLoad {s : State} {d : BitVec 6} {a : Word} {keep : Bool} (ok : s.memOk) :
    (s.feLoad d a keep).memOk := by
  unfold State.feLoad
  refine ok.feAt ?_
  intro x t ht
  split
  · split <;> exact ht
  · exact ht

theorem State.memOk.execStef {r a : BitVec 6} {o : BitVec 11} {s : State} (ok : s.memOk) :
    (execStef r a o s).memOk := by
  unfold Machine.execStef
  refine ok.feAt ?_
  intro x t ht
  split
  · exact ht
  · exact ht.storeWord

/-! ## Queues and copies issued -/

theorem State.memOk.takeRing {s : State} {q : Nat} {r : Ring} {n : Nat} (ok : s.memOk) : (s.takeRing q r n).memOk :=
  ok.foldl (fun _ _ ht => ht)

theorem State.memOk.recv {s : State} {q : BitVec 2} {b : BitVec 6} {n : Nat} {i : Instr}
    {put0 : Msg → State → State} {putN : List Nat → State → State} {mark : BusyMark} (ok : s.memOk)
        (hput0 : ∀ x t, t.memOk → (put0 x t).memOk) (hputN : ∀ x t, t.memOk → (putN x t).memOk) :
    (s.recv q b n i put0 putN mark).memOk := by
  unfold State.recv
  split
  · split
    · exact ok
    · exact hput0 _ _ ok
  · split
    · exact ok.trap
    · split
      · exact ok.trap
      · split
        · exact ok
        · exact hputN _ _ ok.takeRing

theorem State.memOk.execRecvG {d : BitVec 6} {q : BitVec 2} {b : BitVec 6} {s : State} (ok : s.memOk) :
    (execRecvG d q b s).memOk := ok.recv (fun _ _ ht => ht) (fun _ _ ht => ht)

theorem State.memOk.execRecvV {d : BitVec 4} {q : BitVec 2} {b : BitVec 6} {s : State} (ok : s.memOk) :
    (execRecvV d q b s).memOk := ok.recv (fun _ _ ht => ht) (fun _ _ ht => ht)

theorem State.memOk.execQpoll {d : BitVec 6} {q : BitVec 2} {s : State} (ok : s.memOk) : (execQpoll d q s).memOk := by
  unfold Machine.execQpoll
  split
  · exact ok
  · split
    · exact ok.trap
    · exact ok

theorem State.memOk.releaseRing {s : State} {q : Nat} (ok : s.memOk) : (s.releaseRing q).memOk := ok

theorem State.memOk.execQbind {q : BitVec 2} {a n : BitVec 6} {s : State} (ok : s.memOk) :
    (execQbind q a n s).memOk := by
  simp only [Machine.execQbind]
  split
  · split <;> exact ok.trap
  · exact ok.trap
  · split
    · exact ok.trap
    · exact ok

theorem State.memOk.execQfree {q : BitVec 2} {s : State} (ok : s.memOk) : (execQfree q s).memOk := by
  unfold Machine.execQfree
  refine .adv ?_
  exact ok

theorem State.memOk.issueCopy {s : State} {i : Instr} {ill : Option Word} {is2 : Bool} {dst src : Word}
    {len rows : Nat} {ss ds : Word} {x : BitVec 6} (ok : s.memOk) :
    (s.issueCopy i ill is2 dst src len rows ss ds x).memOk := by
  simp only [State.issueCopy]
  split
  · exact ok
  · split
    · exact ok.trap
    · split
      · exact ok.trap
      · split
        · exact ok
        · split
          · exact ok.trap
          · exact ok

theorem State.memOk.execBwait {a : BitVec 6} {s : State} (ok : s.memOk) : (execBwait a s).memOk := by
  unfold Machine.execBwait
  refine ok.check.afterCheck ?_
  intro x t ht
  split
  · split
    · exact ht.trap
    · split <;> exact ht
  · exact ht

/-! ## New strands, regions and residencies -/

theorem State.memOk.setCluster {s : State} {x : ClusterSt} (ok : s.memOk) : (s.setCluster x).memOk := ok

theorem State.memOk.needDecision {s : State} {die cluster : Nat} (ok : s.memOk) :
    (s.needDecision die cluster).memOk := ok

theorem State.memOk.freeRegion {s : State} {rid : Nat} (ok : s.memOk) : (s.freeRegion rid).memOk := by
  unfold State.freeRegion
  split <;> exact ok

theorem State.memOk.mapResidency {s : State} {die cluster entry : Nat} {f : Residency → Residency} (ok : s.memOk) :
    (s.mapResidency die cluster entry f).memOk := ok

theorem State.memOk.freeResidency {s : State} {r : Residency} (ok : s.memOk) : (s.freeResidency r).memOk := by
  simp only [State.freeResidency]
  split
  · refine .freeRegion ?_
    split <;> exact ok
  · split <;> exact ok
  · split <;> exact ok

theorem State.memOk.orphan {s : State} {uid : Nat} (ok : s.memOk) : (s.orphan uid).memOk :=
  ok.foldl (fun _ _ ht => ht.freeResidency)

theorem State.memOk.poisonCellsOf {s : State} {uid : Nat} (ok : s.memOk) : (s.poisonCellsOf uid).memOk := by
  unfold State.poisonCellsOf
  refine ok.foldl ?_
  intro t x ht
  refine .endEclosion ?_
  exact ht

theorem State.memOk.countDrops {s : State} {c : Context} {n : Nat} (ok : s.memOk) : (s.countDrops c n).memOk := by
  unfold State.countDrops
  split <;> exact ok

theorem State.memOk.unanswered {s : State} {t : Strand} (ok : s.memOk) : (s.unanswered t).memOk := by
  unfold State.unanswered
  split <;> exact ok

theorem State.memOk.leavingCore {s : State} {f : State → State} (ok : s.memOk) (hf : ∀ t, t.memOk → (f t).memOk) :
    (s.leavingCore f).memOk := by
  simp only [State.leavingCore]
  split
  · exact (hf _ ok.liftSpills).laySpills
  · exact hf _ ok

theorem State.memOk.retireSeat {s : State} (ok : s.memOk) : (s.retireSeat).memOk :=
  ok.leavingCore (fun _ ht => ((((ht.endGang.foldl
      (fun _ _ ht' => ht'.releaseRing)).poisonCellsOf).orphan).unanswered).leaveCell)

theorem State.memOk.spawn {s : State} {a b : BitVec 6} {cluster : Nat} {bound : Bool} (ok : s.memOk) :
    (s.spawn a b cluster bound).memOk := by
  simp only [State.spawn]
  split
  · exact ok.trap
  · split
    · exact ok.trap
    · split
      · exact ok.trap
      · exact ok

theorem State.memOk.execSpawnNamed {d a b : BitVec 6} {s : State} (ok : s.memOk) :
    (execSpawnNamed d a b s).memOk := by
  unfold Machine.execSpawnNamed
  split
  · exact ok.trap
  · exact ok.spawn

theorem State.memOk.exitSeat {s : State} (ok : s.memOk) : (s.exitSeat).memOk := ok.countDrops.retireSeat

theorem State.memOk.execExit {s : State} (ok : s.memOk) : (execExit s).memOk := by
  unfold Machine.execExit
  split
  · exact ok
  · exact ok.exitSeat

theorem State.memOk.execTwait {a : BitVec 6} {s : State} (ok : s.memOk) : (execTwait a s).memOk := by
  unfold Machine.execTwait
  split <;> exact ok

/-! ## SPAWN, EXIT and cell instructions -/

theorem State.memOk.cellAt {s : State} {a : Word} {acc : Acc} {op : Nat} {data : BitVec 512}
    {far f : Nat → State → State} (ok : s.memOk) (hfar : ∀ x t, t.memOk → (far x t).memOk)
        (hf : ∀ x t, t.memOk → (f x t).memOk) :
    (s.cellAt a acc op data far f).memOk := by
  simp only [State.cellAt]
  refine ok.check.afterCheck ?_
  intro x t ht
  split
  · split
    · split
      · exact hfar _ _ ht
      · exact ht.askWait
    · split
      · exact ht.trap
      · exact hf _ _ ht
  · exact ht

theorem State.memOk.execCsus {a b : BitVec 6} {s : State} (ok : s.memOk) : (execCsus a b s).memOk := by
  unfold Machine.execCsus
  refine ok.cellAt ?_ ?_
  · intro x t ht
    split
    · exact ht.trap
    · exact ht.adv
  · intro x t ht
    split
    · exact ht.trap
    · exact ht.wr.setTag.adv

theorem State.memOk.execCfrc {a : BitVec 6} {s : State} (ok : s.memOk) : (execCfrc a s).memOk := by
  unfold Machine.execCfrc
  refine ok.cellAt (fun x t ht => ht.adv) ?_
  intro x t ht
  split
  · split
    · exact ht
    · exact ht.eclose.adv
  · exact ht.adv

theorem State.memOk.byEvaluator {s : State} {va : Word} {f : Nat → Eclosion → State → State} (ok : s.memOk)
    (hf : ∀ x x1 t, t.memOk → (f x x1 t).memOk) :
    (s.byEvaluator va f).memOk := by
  unfold State.byEvaluator
  refine ok.cellAt (fun x t ht => ht.trap) ?_
  intro x t ht
  split
  · split
    · split
      · exact hf _ _ _ ht
      · exact ht.trap
    · exact ht.trap
  · exact ht.trap

theorem State.memOk.execCfil {n a b : BitVec 6} {s : State} (ok : s.memOk) :
    (execCfil n a b s).memOk := by
  unfold Machine.execCfil
  split
  · exact ok.trap
  · exact ok.byEvaluator (fun x x' t ht => ht.wr.wrBytes.setTag.endEclosion)

theorem State.memOk.execCcan {a : BitVec 6} {s : State} (ok : s.memOk) : (execCcan a s).memOk := by
  unfold Machine.execCcan
  refine ok.byEvaluator ?_
  intro x x' t ht
  refine .endEclosion ?_
  exact ht

theorem State.memOk.execCcanP {a : BitVec 6} {s : State} (ok : s.memOk) : (execCcanP a s).memOk := by
  unfold Machine.execCcanP
  refine ok.byEvaluator ?_
  intro x x' t ht
  refine .endEclosion ?_
  exact ht

theorem State.memOk.execCtag {d a : BitVec 6} {s : State} (ok : s.memOk) : (execCtag d a s).memOk := by
  unfold Machine.execCtag
  exact ok.cellAt (fun x t ht => ht) (fun x t ht => ht)

/-! ## Integers and branches -/

theorem State.memOk.arith {s : State} {d a b : BitVec 6} {m : BitVec 2} {u : Bool} {op : ℤ → ℤ → ℤ} (ok : s.memOk) :
    (s.arith d a b m u op).memOk := ok.put

theorem State.memOk.shlBy {s : State} {d a : BitVec 6} {m : BitVec 2} {n : Nat} (ok : s.memOk) :
    (s.shlBy d a m n).memOk := ok.put

theorem State.memOk.shrBy {s : State} {d a : BitVec 6} {m : BitVec 2} {n : Nat} (ok : s.memOk) :
    (s.shrBy d a m n).memOk := ok.put

theorem State.memOk.shaBy {s : State} {d a : BitVec 6} {m : BitVec 2} {n : Nat} (ok : s.memOk) :
    (s.shaBy d a m n).memOk := ok.put

theorem State.memOk.rorBy {s : State} {d a : BitVec 6} {m : BitVec 2} {n : Nat} (ok : s.memOk) :
    (s.rorBy d a m n).memOk := ok.put

theorem State.memOk.unary {s : State} {d a : BitVec 6} {m : BitVec 2} {op : Nat → Nat → Nat} (ok : s.memOk) :
    (s.unary d a m op).memOk := ok.put

theorem State.memOk.cmpOp {s : State} {d a b : BitVec 6} {m : BitVec 1} {c : BitVec 3} (ok : s.memOk) :
    (s.cmpOp d a b m c).memOk := ok.put

theorem State.memOk.shadd {s : State} {d a b : BitVec 6} {m : BitVec 1} {k : Nat} (ok : s.memOk) :
    (s.shadd d a b m k).memOk := ok.arith

theorem State.memOk.execMulh {d a b : BitVec 6} {m : BitVec 1} {s : State} (ok : s.memOk) :
    (execMulh d a b m s).memOk := ok.arith

theorem State.memOk.execMulhN {d a b : BitVec 6} {m : BitVec 1} {s : State} (ok : s.memOk) :
    (execMulhN d a b m s).memOk := ok.arith

theorem State.memOk.execBswp {d a : BitVec 6} {m : BitVec 1} {s : State} (ok : s.memOk) :
    (execBswp d a m s).memOk := ok.unary

theorem State.memOk.execBCond {c : BitVec 3} {a b : BitVec 6} {o : BitVec 11} {s : State} (ok : s.memOk) :
    (execBCond c a b o s).memOk := by
  unfold Machine.execBCond
  split <;> exact ok

end Sys2Proof.Machine
end

