-- ==== Sys2Proof/Proofs/MemFabric.lean ====
section
/-! SUPPORT. Memory in canonical form: elements, rounds and circuits of the fabric (O60). -/
namespace Sys2Proof.Machine

/-! ## Steps of an element -/

theorem State.memOk.setRegion {s : State} {r : Region} (ok : s.memOk) : (s.setRegion r).memOk := ok

theorem Did.memOk.does {e : Elem} {take : List Nat} {put : List Emit} : (does e take put).memOk := fun _ ht => ht

theorem State.memOk.meetFault {s : State} {r : Region} {e : Elem} {fr : BitVec 256} {f : ElemFault} (ok : s.memOk) :
    (s.meetFault r e fr f).memOk := ok.setRegion

theorem State.memOk.faulted {s : State} {r : Region} {e : Elem} {fr : BitVec 256} {tag : Nat} {f : ElemFault}
    (ok : s.memOk) :
    (s.faulted r e fr tag f).memOk := by
  unfold State.faulted
  split
  · exact ok
  · split <;> exact ok

theorem State.memOk.perform {s : State} {r : Region} {e : Elem} {fr : BitVec 256} {tag : Nat} {d : Did} (ok : s.memOk)
    (did : d.memOk) : (s.perform r e fr tag d).memOk := by
  cases d with
  | nothing => exact ok
  | state t => exact did
  | faults f => exact ok.faulted
  | acts e' take put flags also =>
    simp only [State.perform]
    split
    · exact ok.faulted
    · exact did _ ok

theorem State.memOk.element {s : State} {rid row col : Nat} {fits : BitVec 256 → Bool}
    {f : Region → Elem → BitVec 256 → Did} (ok : s.memOk) (hf : ∀ x x1 x2, (f x x1 x2).memOk) :
    (s.element rid row col fits f).memOk := by
  simp only [State.element]
  split
  · exact ok
  · split
    · exact ok
    · split
      · exact ok
      · split
        · exact ok
        · split
          · split
            · exact ok
            · exact ok.perform Did.memOk.does
          · split
            · exact ok
            · split
              · exact ok
              · split
                · split
                  · exact ok
                  · split
                    · split
                      · exact ok.setRegion
                      · exact ok
                    · exact ok.perform (hf _ _ _)
                · exact ok.perform (hf _ _ _)

theorem Did.memOk.boundary {e : Elem} {hs : List (Nat × Token)} {outs : Nat} {close : Elem → Except ElemFault Elem} :
    (boundary e hs outs close).memOk := by
  unfold Machine.boundary
  split
  · exact trivial
  · split
    · exact trivial
    · split
      · exact trivial
      · split
        · exact trivial
        · exact Did.memOk.does

theorem State.memOk.commitStore {s : State} {r : Region} {b : BufStore} (ok : s.memOk) : (s.commitStore r b).memOk := by
  unfold State.commitStore
  split
  · exact ok.ask
  · split
    · exact ok.useKey.writeRange
    · exact ok.wrWake

/-! ## Compute elements and address generators -/

theorem Did.memOk.ceFiring {r : Region} {e : Elem} {f : BitVec 256} {hs : List (Nat × Token)} {pad : List Nat}
    {tag : Nat} :
    (ceFiring r e f hs pad tag).memOk := by
  simp only [Machine.ceFiring]
  split
  · split
    · exact Did.memOk.does
    · exact Did.memOk.does
    · exact fun t ht => ht
  · split <;> exact fun t ht => ht

theorem State.memOk.execCeFire {rid row col : Nat} {s : State} (ok : s.memOk) :
    (execCeFire rid row col s).memOk := by
  unfold Machine.execCeFire
  refine ok.element ?_
  intro x x' x''
  split
  · exact Did.memOk.ceFiring
  · exact trivial
  · exact trivial

theorem State.memOk.execCeStopStep {rid row col : Nat} {s : State} (ok : s.memOk) :
    (execCeStopStep rid row col s).memOk := by
  unfold Machine.execCeStopStep
  refine ok.element ?_
  intro x x' x''
  split
  · exact Did.memOk.ceFiring
  · exact Did.memOk.does
  · exact Did.memOk.does
  · exact trivial
  · exact trivial

theorem Did.memOk.ceBoundary {r : Region} {e : Elem} {f : BitVec 256} : (ceBoundary r e f).memOk := by
  unfold Machine.ceBoundary
  split
  · exact Did.memOk.boundary
  · exact trivial
  · exact trivial

theorem State.memOk.execCeGeneratorFire {rid row col : Nat} {s : State} (ok : s.memOk) :
    (execCeGeneratorFire rid row col s).memOk := by
  unfold Machine.execCeGeneratorFire
  refine ok.element ?_
  intro x x' x''
  split
  · exact trivial
  · split
    · next e =>
        split <;> exact fun t ht => Did.memOk.ceFiring.of_eq e _ ht
    · exact Did.memOk.ceFiring

/-! ## Memory ports -/

theorem State.memOk.execAgAffFire {rid row : Nat} {s : State} (ok : s.memOk) : (execAgAffFire rid row s).memOk := by
  simp only [Machine.execAgAffFire]
  refine ok.element ?_
  intro x x' x''
  split
  · exact trivial
  · split <;> exact Did.memOk.does

theorem State.memOk.execAgIndFire {rid row : Nat} {s : State} (ok : s.memOk) : (execAgIndFire rid row s).memOk := by
  simp only [Machine.execAgIndFire]
  refine ok.element ?_
  intro x x' x''
  split
  · exact trivial
  · split
    · exact Did.memOk.does
    · split
      · exact Did.memOk.does
      · split <;> exact trivial

theorem State.memOk.mpTranslate {s : State} {r : Region} {row : Nat} {x : Site} {a : Nat} (ok : s.memOk) :
    (s.mpTranslate r row x a).2.memOk := by
  simp only [State.mpTranslate]
  split
  · exact ok
  · split
    · next e => exact ok.translate.of_snd e
    · next e => exact ok.translate.of_snd e
    · next e =>
      have seen := ok.translate.of_snd e
      split
      · exact seen
      · split <;> exact seen

theorem State.memOk.mpMeets {s : State} {r : Region} {x : Site} {acc : Acc} {va : Word} {n : Nat}
    {p : Place} {answered : Bool} (ok : s.memOk) :
    (s.mpMeets r x acc va n p answered).2.memOk := by
  simp only [State.mpMeets]
  split
  · split <;> exact ok
  · split
    · exact ok
    · split
      · exact ok.charge
      · split
        · split <;> exact ok.charge
        · exact ok.charge

theorem State.memOk.mpGo {s : State} {r : Region} {e : Elem} {f : BitVec 256} {x : Site} {acc : Acc} {va : Word}
    {n : Nat} {fe answered : Bool} (ok : s.memOk) :
    (s.mpGo r e f x acc va n fe answered).2.memOk := by
  simp only [State.mpGo]
  split
  · exact ok
  · split
    · exact ok
    · split
      · exact ok
      · split
        · exact ok
        · split <;> exact ok
  · split
    · exact ok
    · split
      · exact ok
      · split
        · next e =>
            exact ok.mpTranslate.of_snd e
        · next e =>
            exact ok.mpTranslate.of_snd e
        · next e =>
            exact ok.mpTranslate.of_snd e
        · next e =>
            split
            · exact ok.mpTranslate.of_snd e
            · split
              · exact ok.mpTranslate.of_snd e
              · refine .mpMeets ?_
                split
                · exact ok.mpTranslate.of_snd e
                · exact (ok.mpTranslate.of_snd e).useKey

theorem State.memOk.mpCell {s : State} {r : Region} {row key : Nat} {x : Site} {pa : Nat} {va : Word} (ok : s.memOk) :
    (s.mpCell r row key x pa va).2.memOk := by
  simp only [State.mpCell]
  split
  · exact ok
  · split
    · split
      · next e =>
          exact ok.enqueue e
      · exact ok
    · exact ok
  · split
    · next e =>
        exact ok.eclose.of_snd e
    · next e =>
        exact ok.eclose.of_snd e
    · next e =>
        exact ok.eclose.of_snd e
  · exact ok

theorem State.memOk.mpPage {s : State} {r : Region} {x : Site} {acc : Acc} {va : Word} (ok : s.memOk) :
    (s.mpPage r x acc va).2.memOk := by
  unfold State.mpPage
  split <;> exact ok

theorem State.memOk.mpPerform {s : State} {r : Region} {e : Elem} {f : BitVec 256} {op : Nat} {va : Word}
    {data : BitVec 512} {tag : Nat} {p : Place} {ans : Option (BitVec 512)} (_ : s.memOk) :
    (s.mpPerform r e f op va data tag p ans).memOk := by
  simp only [State.mpPerform]
  split
  · split
    · exact trivial
    · exact fun t ht => ht
  · split
    · split
      · exact fun t ht => ht
      · exact trivial
    · split
      · split
        · exact trivial
        · exact fun t ht => ht
      · intro t ht
        split
        · exact ht.writeGlobal
        · exact ht.wrWake

theorem State.memOk.mpAsk {s : State} {r : Region} {e : Elem} {f : BitVec 256} {x : Site} {op key : Nat}
    {va : Word} {data : BitVec 512} {p : Place} (ok : s.memOk) :
    (s.mpAsk r e f x op key va data p).memOk := ok.ask

theorem State.memOk.mpAccess {s : State} {r : Region} {e : Elem} {f : BitVec 256} {op : Nat} {take : List Nat}
    {va : Word}
    {data : BitVec 512} {tag : Nat} (ok : s.memOk) : (s.mpAccess r e f op take va data tag).memOk := by
  simp only [State.mpAccess]
  generalize hgo : State.mpGo _ _ _ _ _ _ _ _ = go
  have went : go.2.memOk := hgo ▸ State.memOk.mpGo (s := { s with fresh := s.fresh + 1 }) ok
  split
  · exact State.memOk.perform went trivial
  · trivial
  · split
    · next e' => exact (State.memOk.mpPage went).of_snd e' |>.perform trivial
    · next e' => exact (State.memOk.mpPage went).of_snd e' |>.perform Did.memOk.does
  · split
    · next e' => exact (State.memOk.mpCell went).of_snd e' |>.perform trivial
    · next e' => exact (State.memOk.mpCell went).of_snd e' |>.perform Did.memOk.does
  · split
    · exact State.memOk.perform went trivial
    · exact (State.memOk.mpAsk went).perform Did.memOk.does
    · next e' => exact State.memOk.perform went ((State.memOk.mpPerform went).of_eq e')

theorem State.memOk.mpFire {s : State} {op : Nat} {r : Region} {e : Elem} {f : BitVec 256} (ok : s.memOk) :
    (s.mpFire op r e f).memOk := by
  simp only [State.mpFire]
  split
  · exact trivial
  · split
    · exact trivial
    · exact trivial
    · split
      · exact trivial
      · split
        · split
          · exact trivial
          · split
            · split
              · exact trivial
              · exact Did.memOk.does
            · split
              · exact trivial
              · exact Did.memOk.does
        · split
          · exact trivial
          · split
            · exact trivial
            · split
              · exact Did.memOk.does
              · split
                · exact trivial
                · split
                  · exact trivial
                  · exact trivial
                  · exact ok.mpAccess

theorem State.memOk.circuitSend {s : State} {r : Region} {e : Elem} {f : BitVec 256} {b : Word} (ok : s.memOk) :
    (s.circuitSend r e f b).memOk := by
  simp only [State.circuitSend]
  split
  · exact trivial
  · split
    · exact trivial
    · split
      · exact trivial
      · split
        · exact trivial
        · refine .perform ?_ Did.memOk.does
          split
          · exact ok
          · exact ok.send.charge

theorem State.memOk.circuitCredit {s : State} {r : Region} {b : Word} (ok : s.memOk) : (s.circuitCredit r b).memOk := by
  unfold State.circuitCredit
  split
  · exact ok.sendLink
  · exact ok

theorem State.memOk.circuitReceive {y : State} {r : Region} {e : Elem} {f : BitVec 256} {b : Word} (_ : y.memOk) :
    (y.circuitReceive r e f b).memOk := by
  unfold State.circuitReceive
  split
  · exact trivial
  · split
    · exact trivial
    · split
      · exact trivial
      · exact fun t ht => ht.circuitCredit

theorem State.memOk.execMpLdsFire {rid row : Nat} {s : State} (ok : s.memOk) : (execMpLdsFire rid row s).memOk := by
  unfold Machine.execMpLdsFire
  refine ok.element ?_
  intro x x' x''
  split
  · exact ok.circuitReceive
  · exact ok.mpFire

theorem State.memOk.execMpStsFire {rid row : Nat} {s : State} (ok : s.memOk) : (execMpStsFire rid row s).memOk := by
  unfold Machine.execMpStsFire
  refine ok.element ?_
  intro x x' x''
  split
  · exact ok.circuitSend
  · exact ok.mpFire

theorem Did.memOk.spillLeaves {r : Region} {e : Elem} {f : BitVec 256} {i : Nat} {t : Option Token}
    {ord : List Emit} {p : Spill} :
    (spillLeaves r e f i t ord p).memOk := by
  unfold Machine.spillLeaves
  split
  · exact Did.memOk.does
  · split <;> exact Did.memOk.does

theorem State.memOk.spillFault {s : State} {r : Region} {e : Elem} {f : BitVec 256} {i : Nat} {p : Spill}
    {q : ElemFault} (ok : s.memOk) :
    (s.spillFault r e f i p q).memOk := by
  unfold State.spillFault
  split
  · exact ok.perform Did.memOk.does
  · exact ok.meetFault

theorem State.memOk.leaveSpill {s : State} {r : Region} {row : Nat} {p : Spill} (ok : s.memOk) :
    (s.leaveSpill r row p).memOk := by
  unfold State.leaveSpill
  split
  · exact ok
  · exact ok.sendLink
  · exact ok

theorem State.memOk.mpRetry {s : State} {r : Region} {e : Elem} {f : BitVec 256} {i : Nat} {p : Spill} (ok : s.memOk) :
    (s.mpRetry r e f i p).memOk := by
  simp only [State.mpRetry]
  split
  · next e =>
      exact (ok.mpGo.of_snd e).spillFault
  · exact trivial
  · next e2 =>
      split
      · next e =>
          exact (((ok.mpGo.of_snd e2).mpPage).of_snd e).spillFault
      · next e =>
          exact (((ok.mpGo.of_snd e2).mpPage).of_snd e).perform Did.memOk.does
  · next e2 =>
      split
      · next e =>
          exact (((ok.mpGo.of_snd e2).mpCell).of_snd e).spillFault
      · next e =>
          exact (((ok.mpGo.of_snd e2).mpCell).of_snd e).perform Did.memOk.does
  · next e2 =>
      split
      · exact (ok.mpGo.of_snd e2).perform Did.memOk.does
      · split
        · split
          · exact (ok.mpGo.of_snd e2).perform Did.memOk.does
          · exact (ok.mpGo.of_snd e2).spillFault
        · split
          · exact (ok.mpGo.of_snd e2).spillFault
          · exact ((ok.mpGo.of_snd e2).mpAsk).perform Did.memOk.does
          · next e1 =>
              split
              · next e =>
                  exact (ok.mpGo.of_snd e2).perform
                      (fun t ht => Did.memOk.spillLeaves.of_eq e _ (((ok.mpGo.of_snd e2).mpPerform).of_eq e1 _ ht))
              · exact (ok.mpGo.of_snd e2).perform Did.memOk.spillLeaves

theorem State.memOk.execMpSpillComplete {rid row idx : Nat} {s : State} (ok : s.memOk) :
    (execMpSpillComplete rid row idx s).memOk := by
  simp only [Machine.execMpSpillComplete]
  split
  · exact ok
  · split
    · exact ok
    · split
      · split
        · exact ok
        · split
          · refine ok.perform ?_
            split
            · exact Did.memOk.spillLeaves
            · exact trivial
          · split
            · exact ok
            · exact ok.perform ok.mpRetry
      · exact ok

theorem State.memOk.execMpCellWaitExpiry {rid row idx : Nat} {s : State} (ok : s.memOk) :
    (execMpCellWaitExpiry rid row idx s).memOk := by
  simp only [Machine.execMpCellWaitExpiry]
  split
  · exact ok
  · split
    · exact ok
    · split
      · split
        · exact ok
        · split
          · exact ok
          · exact ok.leaveSpill.spillFault
      · exact ok

/-! ## Fibre elements -/

theorem State.memOk.feSpill {s : State} {r : Region} {m : Elem} {p : Spill} (ok : s.memOk) :
    (s.feSpill r m p).memOk := by
  unfold State.feSpill
  split <;> exact ok

theorem State.memOk.feRead {s : State} {r : Region} {e : Elem} {va : Word} {n : Nat} (ok : s.memOk) :
    (s.feRead r e va n).memOk := by
  simp only [State.feRead]
  split
  · exact ok
  · split
    · split
      · exact ok.setRegion
      · exact ok
    · split
      · exact ok
      · generalize hgo : State.mpGo _ _ _ _ _ _ _ _ _ = go
        have went : go.2.memOk := hgo ▸ State.memOk.mpGo (s := { s with fresh := s.fresh + 1 }) ok
        split
        · exact went
        · exact went
        · split
          · next e' => exact (State.memOk.mpPage went).of_snd e'
          · next e' => exact (State.memOk.mpPage went).of_snd e' |>.feSpill
        · split
          · next e' => exact (State.memOk.mpCell went).of_snd e'
          · next e' => exact (State.memOk.mpCell went).of_snd e' |>.feSpill
        · split
          · exact (State.memOk.ask went).feSpill
          · exact went

theorem State.memOk.feWrite {s : State} {r : Region} {e : Elem} {va : Word} {n x : Nat} (ok : s.memOk) :
    (s.feWrite r e va n x).memOk := by
  simp only [State.feWrite]
  split
  · exact ok
  · split
    · split
      · exact ok
      · exact ok
    · split
      · exact ok
      · split
        · next e' => exact ok.mpGo.of_snd e'
        · next e' => exact ok.mpGo.of_snd e'
        · next e' => exact ok.mpGo.of_snd e'
        · next e' =>
          have went := ok.mpGo.of_snd e'
          split
          · next e2 => exact went.mpPage.of_snd e2
          · next e2 =>
            have paged := went.mpPage.of_snd e2
            refine State.memOk.feSpill ?_
            exact paged
        · next e' =>
          have went := ok.mpGo.of_snd e'
          split
          · exact went
          · exact went

theorem State.memOk.scanBounds {s : State} {r : Region} {e : Elem} {f : BitVec 256} {p : Nat} (ok : s.memOk) :
    (s.scanBounds r e f p).1.memOk := by
  simp only [State.scanBounds]
  split
  · exact ok
  · split
    · next a t e' =>
      have seen : t.memOk := ok.feRead.of_eq e'
      cases t.region? r.rid with
      | none => exact seen
      | some r' =>
        dsimp only
        split
        · next e2 =>
          have left := seen.feRead.of_eq e2
          split
          · exact left
          · exact left
        · exact seen.feRead
    · exact ok.feRead

theorem State.memOk.feActs {s : State} {rid : Nat} {e : Elem} {f : BitVec 256} {d : Did} (ok : s.memOk) (hd : d.memOk) :
    (s.feActs rid e f d).memOk := by
  unfold State.feActs
  split
  · exact ok.perform hd
  · exact trivial

theorem Did.memOk.feOrdered {r : Region} {e : Elem} {f : BitVec 256} {go : List Nat → List Emit → Did}
    (hgo : ∀ x x1, (go x x1).memOk) :
    (feOrdered r e f go).memOk := by
  unfold Machine.feOrdered
  split
  · exact trivial
  · exact trivial
  · exact hgo _ _

theorem State.memOk.scanBegin {s : State} {r : Region} {e : Elem} {f : BitVec 256} {p : Nat} {take : List Nat}
    {put : List Emit} (ok : s.memOk) : (s.scanBegin r e f p take put).memOk := by
  have begins (take : List Nat) (put : List Emit) : Did.memOk (match s.scanBounds r e f p with
      | (.value a s, b) => s.feActs r.rid e f
        (does { e with fe := { e.fe with scan := some (a, b, a), held := false, started := true, lastA := none } }
          take put)
      | (.wait s, _) => .state s
      | (.fault q s, _) => s.feActs r.rid e f (.faults (atIna f q))) := by
    have read := ok.scanBounds (r := r) (e := e) (f := f) (p := p)
    split
    · next e' =>
      rw [e'] at read
      exact State.memOk.feActs read Did.memOk.does
    · next e' =>
      rw [e'] at read
      exact read
    · next e' =>
      rw [e'] at read
      exact State.memOk.feActs read trivial
  simp only [State.scanBegin]
  split
  · exact begins _ _
  · exact Did.memOk.feOrdered fun l o => begins _ _

theorem State.memOk.scanChild {s : State} {r : Region} {e : Elem} {f : BitVec 256} {j b first : Nat} (ok : s.memOk) :
    (s.scanChild r e f j b first).memOk := by
  simp only [State.scanChild]
  split
  · split
    · exact ok.feActs trivial
    · exact ok.feActs Did.memOk.does
  · refine Did.memOk.feOrdered fun l o => ?_
    split
    · next t e' =>
      have read : t.memOk := ok.feRead.of_eq e'
      split
      · exact read.feActs trivial
      · exact read.feActs Did.memOk.does
    · next e' => exact ok.feRead.of_eq e'
    · next t e' =>
      have read : t.memOk := ok.feRead.of_eq e'
      exact read.feActs trivial

theorem State.memOk.scanParent {s : State} {r : Region} {e : Elem} {f : BitVec 256} {t : Token} (ok : s.memOk) :
    (s.scanParent r e f t).memOk := by
  simp only [State.scanParent]
  split
  · trivial
  · split
    · exact ok.scanBegin
    · split
      · exact Did.memOk.does
      · split
        · exact Did.memOk.does
        · split
          · trivial
          · trivial

theorem State.memOk.execFeScanFire {rid row col : Nat} {s : State} (ok : s.memOk) :
    (execFeScanFire rid row col s).memOk := by
  refine ok.element fun r e f => ?_
  split
  · split
    · exact ok.scanChild
    · split
      · exact Did.memOk.does
      · exact Did.memOk.does
  · split
    · split
      · trivial
      · exact ok.scanBegin
    · split
      · exact ok.scanParent
      · trivial

theorem Did.memOk.mergeRefs {r : Region} {e : Elem} {f : BitVec 256} {union : Bool} : (mergeRefs r e f union).memOk := by
  simp only [Machine.mergeRefs]
  split
  · split
    · split
      · exact trivial
      · split
        · exact trivial
        · exact trivial
        · exact Did.memOk.does
    · split
      · exact trivial
      · split
        · exact trivial
        · exact trivial
        · exact Did.memOk.does
  · split
    · split
      · exact trivial
      · split
        · exact trivial
        · exact trivial
        · exact Did.memOk.does
    · split
      · exact trivial
      · exact Did.memOk.does

theorem Did.memOk.mergeCrds {e : Elem} {f : BitVec 256} {union : Bool} {oa ob : Option Token} :
    (mergeCrds e f union oa ob).memOk := by
  simp only [Machine.mergeCrds]
  split
  · split
    · exact Did.memOk.does
    · split
      · split
        · exact Did.memOk.does
        · split
          · exact trivial
          · split
            · exact trivial
            · exact trivial
            · exact Did.memOk.does
      · split
        · exact Did.memOk.does
        · split
          · exact trivial
          · split
            · exact trivial
            · exact trivial
            · exact Did.memOk.does
  · split
    · exact Did.memOk.does
    · split
      · split
        · exact Did.memOk.does
        · split
          · exact trivial
          · split
            · exact trivial
            · exact trivial
            · exact Did.memOk.does
      · split <;> exact Did.memOk.does

theorem Did.memOk.mergeFire {union : Bool} {r : Region} {e : Elem} {f : BitVec 256} : (mergeFire union r e f).memOk := by
  unfold Machine.mergeFire
  split
  · exact Did.memOk.mergeRefs
  · split
    · exact Did.memOk.mergeCrds
    · exact Did.memOk.mergeCrds
    · exact Did.memOk.does
    · exact Did.memOk.does
    · exact trivial
    · exact trivial

theorem Did.memOk.single {r : Region} {e : Elem} {f : BitVec 256} {ok : Nat → Bool}
    {entry stop : Token → Elem → Did} (hentry : ∀ x x1, (entry x x1).memOk) (hstop : ∀ x x1, (stop x x1).memOk) :
    (single r e f ok entry stop).memOk := by
  unfold Machine.single
  split
  · exact trivial
  · split
    · exact trivial
    · exact trivial
    · split
      · exact trivial
      · split
        · exact hstop _ _
        · exact hentry _ _

theorem State.memOk.execFeReduFire {rid row col : Nat} {s : State} (ok : s.memOk) :
    (execFeReduFire rid row col s).memOk := by
  simp only [Machine.execFeReduFire]
  refine ok.element ?_
  intro x x' x''
  refine Did.memOk.single ?_ ?_
  · intro x''' x_4
    split
    · exact Did.memOk.does
    · exact fun t ht => ht
  · intro x''' x_4
    split
    · exact Did.memOk.does
    · split
      · exact Did.memOk.does
      · exact fun t ht => ht

theorem Did.memOk.lockstep {r : Region} {e : Elem} {f : BitVec 256}
    {entry : Token → Token → Elem → Elem × List Emit} {stop : Token → Elem → Elem × List Emit} :
    (lockstep r e f entry stop).memOk := by
  unfold Machine.lockstep
  split
  · exact Did.memOk.does
  · exact Did.memOk.does
  · exact Did.memOk.does
  · exact trivial
  · exact trivial

theorem State.memOk.execFeCdropFire {rid row col : Nat} {s : State} (ok : s.memOk) :
    (execFeCdropFire rid row col s).memOk := by
  unfold Machine.execFeCdropFire
  refine ok.element ?_
  intro x x' x''
  split
  · exact trivial
  · split
    · exact trivial
    · exact Did.memOk.lockstep

theorem Did.memOk.expdEntry {r : Region} {e : Elem} {f : BitVec 256} {a b : Token} {takeC : List Nat} :
    (expdEntry r e f a b takeC).memOk := by
  simp only [Machine.expdEntry]
  split
  · exact trivial
  · split
    · split
      · exact trivial
      · split <;> exact Did.memOk.does
    · split <;> exact Did.memOk.does

theorem State.memOk.execFeExpdFire {rid row col : Nat} {s : State} (ok : s.memOk) :
    (execFeExpdFire rid row col s).memOk := by
  simp only [Machine.execFeExpdFire]
  refine ok.element ?_
  intro x x' x''
  split
  · split
    · exact trivial
    · exact trivial
    · exact trivial
    · split
      · split
        · exact trivial
        · split
          · exact Did.memOk.does
          · split
            · exact trivial
            · split <;> exact Did.memOk.expdEntry
      · exact trivial
      · split
        · exact Did.memOk.expdEntry
        · split
          · exact Did.memOk.does
          · split
            · exact Did.memOk.does
            · exact trivial
  · exact trivial

theorem State.memOk.execFeJoinFire {rid row col : Nat} {s : State} (ok : s.memOk) :
    (execFeJoinFire rid row col s).memOk := by
  simp only [Machine.execFeJoinFire]
  refine ok.element ?_
  intro x x' x''
  split
  · exact trivial
  · exact trivial
  · split
    · exact trivial
    · split
      · exact trivial
      · exact trivial
      · split
        · split <;> exact trivial
        · exact Did.memOk.does

theorem State.memOk.lvlwWrite {s : State} {r : Region} {e : Elem} {f : BitVec 256} {va : Word} {x : Nat} {d : Did}
    (ok : s.memOk) (did : d.memOk) : (s.lvlwWrite r e f va x d).memOk := by
  unfold State.lvlwWrite
  refine Did.memOk.feOrdered fun l o => ?_
  split
  · next t e' =>
    have wrote : t.memOk := ok.feWrite.of_eq e'
    refine wrote.perform ?_
    split
    · exact did
    · exact did
  · next e' => exact ok.feWrite.of_eq e'
  · next t e' =>
    have wrote : t.memOk := ok.feWrite.of_eq e'
    exact wrote.feActs trivial

theorem State.memOk.execFeLvlwFire {rid row col : Nat} {s : State} (ok : s.memOk) :
    (execFeLvlwFire rid row col s).memOk := by
  refine ok.element fun r e f => Did.memOk.single (fun t e' => ?_) fun t e' => ?_
  · split
    · exact ok.lvlwWrite Did.memOk.does
    · split
      · exact Did.memOk.does
      · split
        · trivial
        · split
          · trivial
          · exact ok.lvlwWrite Did.memOk.does
  · split
    · exact ok.lvlwWrite Did.memOk.does
    · exact ok.lvlwWrite Did.memOk.does

theorem Did.memOk.feBoundary {r : Region} {e : Elem} {f : BitVec 256} : (feBoundary r e f).memOk := by
  simp only [Machine.feBoundary]
  split
  · exact trivial
  · split
    · exact trivial
    · exact trivial
    · split
      · exact trivial
      · split
        · exact trivial
        · split
          · next e =>
              split <;> exact fun t ht => Did.memOk.boundary.of_eq e _ ht
          · exact Did.memOk.boundary

/-! ## Memory elements -/

theorem State.memOk.slotWrite {s : State} {ls : List Nat} {x : Nat} (ok : s.memOk) : (s.slotWrite ls x).memOk :=
  ok.foldl (fun _ _ ht => ht.wr)

theorem State.memOk.slotBits {s : State} {ls : List Nat} {full : Bool} (ok : s.memOk) : (s.slotBits ls full).memOk :=
  ok.foldl (fun _ _ ht => ht)

theorem Did.memOk.meAccess {r : Region} {e : Elem} {f : BitVec 256} {e' : Elem} {take : List Nat}
    {put : List Emit} {fl : BitVec 5} {also : State → State} {tag : Nat} (halso : ∀ t, t.memOk → (also t).memOk) :
    (meAccess r e f e' take put fl also tag).memOk := by
  unfold Machine.meAccess
  split
  · exact trivial
  · exact trivial
  · exact fun t ht => halso _ ht

theorem State.memOk.execMeBufWrite {rid row col : Nat} {s : State} (ok : s.memOk) :
    (execMeBufWrite rid row col s).memOk := by
  simp only [Machine.execMeBufWrite]
  refine ok.element ?_
  intro x x' x''
  split
  · exact trivial
  · split
    · exact trivial
    · split
      · exact trivial
      · split
        · exact trivial
        · exact Did.memOk.meAccess (fun t ht => ht.slotWrite.slotBits)

theorem State.memOk.execMeBufPass {rid row col : Nat} {s : State} (ok : s.memOk) :
    (execMeBufPass rid row col s).memOk := by
  simp only [Machine.execMeBufPass]
  refine ok.element ?_
  intro x x' x''
  split
  · split
    · exact trivial
    · split
      · exact trivial
      · split
        · exact trivial
        · exact Did.memOk.does
  · split
    · exact trivial
    · split
      · exact trivial
      · split
        · exact Did.memOk.meAccess (fun t ht => ht)
        · split
          · exact Did.memOk.meAccess (fun t ht => ht)
          · exact Did.memOk.meAccess (fun t ht => ht.foldl (fun t' x''' ht' => ht'.slotBits))

theorem State.memOk.execMeFifoFire {rid row col : Nat} {s : State} (ok : s.memOk) :
    (execMeFifoFire rid row col s).memOk := by
  have performs (r : Region) (e : Elem) (f : BitVec 256) (d : Did) (did : d.memOk) :
      Out.memOk (.next (s.perform r e f 0 d)) := ok.perform did
  have left (out : Option Token) (rd : List Nat) (t : State) (ht : t.memOk) : State.memOk (match out with
      | some _ => t.slotBits rd false
      | none => t) := by
    cases out with
    | none => exact ht
    | some x => exact ht.slotBits
  have moved (out inn : Option Token) (rd wr : List Nat) (t : State) (ht : t.memOk) : State.memOk (match inn with
      | some x => (State.slotWrite (match out with
        | some _ => t.slotBits rd false
        | none => t) wr x.payload.toNat).slotBits wr true
      | none => match out with
        | some _ => t.slotBits rd false
        | none => t) := by
    cases inn with
    | none => exact left out rd t ht
    | some x => exact (left out rd t ht).slotWrite.slotBits
  unfold Machine.execMeFifoFire
  split
  · exact ok
  · split
    · exact ok
    · split
      · exact ok
      · next f _ =>
        extract_lets outs past out inn early rsv hd n e1 x e2 wr rd also put take
        exact .ite ok (.ite ok (.ite (performs _ _ _ _ trivial) (.ite (performs _ _ _ _ trivial)
          (.ite (performs _ _ _ _ trivial) (performs _ _ _ _ (Did.memOk.meAccess fun t ht => moved _ _ _ _ t ht))))))

theorem State.memOk.rmwStops {s t : State} {rid row col : Nat} (ok : s.memOk) (e : s.rmwStops rid row col = some t) :
    t.memOk := by
  unfold State.rmwStops at e
  repeat' split at e
  all_goals cases e
  exact ok.perform .does

theorem State.memOk.execMeRmwFire {rid row col : Nat} {s : State} (ok : s.memOk) :
    (execMeRmwFire rid row col s).memOk := by
  unfold Machine.execMeRmwFire
  split
  · next e =>
      exact ok.rmwStops e
  · refine ok.element ?_
    intro x x' x''
    split
    · split
      · exact trivial
      · split
        · split
          · exact Did.memOk.does
          · exact trivial
        · split
          · exact trivial
          · split
            · split <;> exact trivial
            · split
              · split
                · exact trivial
                · exact Did.memOk.does
              · split
                · exact trivial
                · split
                  · exact trivial
                  · split
                    · exact trivial
                    · split
                      · exact trivial
                      · exact trivial
                      · exact fun t ht => ht
    · exact trivial

theorem State.memOk.execMeRmwUpdateWrite {rid row col : Nat} {s : State} (ok : s.memOk) :
    (execMeRmwUpdateWrite rid row col s).memOk := by
  unfold Machine.execMeRmwUpdateWrite
  split
  · exact ok
  · split
    · exact ok
    · split
      · exact (ok.perform Did.memOk.does).wr
      · exact ok

theorem State.memOk.writePipes {s : State} {r : Region} (ok : s.memOk) : (s.writePipes r).memOk := by
  unfold State.writePipes
  refine ok.foldl ?_
  intro t x ht
  split
  · exact ht
  · exact ht.foldl (fun t' x' ht' => ht'.wr)

theorem State.memOk.execMeLutFire {rid row col : Nat} {s : State} (ok : s.memOk) :
    (execMeLutFire rid row col s).memOk := by
  simp only [Machine.execMeLutFire]
  refine ok.element ?_
  intro x x' x''
  split
  · exact trivial
  · split
    · exact trivial
    · split
      · exact Did.memOk.does
      · split
        · exact trivial
        · split
          · exact trivial
          · split
            · exact trivial
            · split
              · exact trivial
              · exact Did.memOk.meAccess (fun t ht => ht)

theorem State.memOk.execMeStashAppend {rid row col : Nat} {s : State} (ok : s.memOk) :
    (execMeStashAppend rid row col s).memOk := by
  unfold Machine.execMeStashAppend
  refine ok.element ?_
  intro x x' x''
  split
  · exact trivial
  · split
    · exact trivial
    · split
      · exact trivial
      · split
        · exact trivial
        · exact Did.memOk.meAccess (fun t ht => ht.slotWrite)

theorem State.memOk.execMeStashReplay {rid row col : Nat} {s : State} (ok : s.memOk) :
    (execMeStashReplay rid row col s).memOk := by
  simp only [Machine.execMeStashReplay]
  refine ok.element ?_
  intro x x' x''
  split
  · exact trivial
  · split
    · split
      · exact trivial
      · exact Did.memOk.meAccess (fun t ht => ht)
    · exact Did.memOk.does

theorem State.memOk.meBoundary {s : State} {r : Region} {e : Elem} {f : BitVec 256} (_ : s.memOk) :
    (s.meBoundary r e f).memOk := by
  simp only [State.meBoundary]
  split
  · exact trivial
  · split
    · exact trivial
    · split
      · next e =>
          split
          · split
            · exact trivial
            · exact fun t ht => Did.memOk.boundary.of_eq e _ ht
          · exact fun t ht => Did.memOk.boundary.of_eq e _ ht
      · exact Did.memOk.boundary

/-! ## Matrix elements -/

theorem State.memOk.xeFires {s : State} {rid row : Nat} {fits : BitVec 256 → Bool}
    {f : Region → Elem → BitVec 256 → Did}
    (ok : s.memOk) (hf : ∀ r e fr, (f r e fr).memOk) : (s.xeFires rid row fits f).memOk := by
  unfold State.xeFires
  extract_lets held
  split
  · exact ok
  · exact ok.element hf

theorem State.memOk.execXeMmbFire {rid row : Nat} {s : State} (ok : s.memOk) : (execXeMmbFire rid row s).memOk := by
  unfold Machine.execXeMmbFire
  refine ok.xeFires ?_
  intro x x' x''
  split
  · exact trivial
  · exact trivial
  · split
    · exact trivial
    · split
      · exact Did.memOk.does
      · split
        · exact trivial
        · exact fun t ht => ht

theorem State.memOk.execXeMmnFire {rid row : Nat} {s : State} (ok : s.memOk) : (execXeMmnFire rid row s).memOk := by
  unfold Machine.execXeMmnFire
  refine ok.xeFires ?_
  intro x x' x''
  split
  · exact trivial
  · exact trivial
  · split
    · exact trivial
    · split
      · exact trivial
      · exact fun t ht => ht

theorem State.memOk.execXeBldFire {rid row : Nat} {s : State} (ok : s.memOk) : (execXeBldFire rid row s).memOk := by
  unfold Machine.execXeBldFire
  refine ok.xeFires ?_
  intro x x' x''
  split
  · exact trivial
  · exact trivial
  · split
    · exact trivial
    · exact Did.memOk.does

theorem State.memOk.execXeDrnFire {rid row : Nat} {s : State} (ok : s.memOk) : (execXeDrnFire rid row s).memOk := by
  simp only [Machine.execXeDrnFire]
  refine ok.xeFires ?_
  intro x x' x''
  split
  · exact trivial
  · split <;> exact Did.memOk.does

theorem Did.memOk.xeBoundary {r : Region} {e : Elem} {f : BitVec 256} : (xeBoundary r e f).memOk := by
  unfold Machine.xeBoundary
  split
  · exact trivial
  · exact trivial
  · exact Did.memOk.boundary

/-! ## Plane images -/

theorem State.memOk.sporeUse {s : State} {die : Nat} {p : Nat × Nat} (ok : s.memOk) : (s.sporeUse die p).memOk :=
  ok.setDie

/-- A fetch that succeeds changes no more than the order in which the die's spores were used. -/
theorem State.fetchImage_ok {s t : State} {die : Nat} {x : Site} {cfg : Nat} (e : s.fetchImage die x cfg = .ok t) :
    t = s.sporeUse die (cfg, x.part) := by
  unfold State.fetchImage at e
  grind

theorem State.memOk.fetchImage {s t : State} {die : Nat} {x : Site} {cfg : Nat} (ok : s.memOk)
    (e : s.fetchImage die x cfg = .ok t) : t.memOk := State.fetchImage_ok e ▸ ok.sporeUse

/-! ## Rounds, planes and faults of a region -/

theorem Did.memOk.mpBoundary {r : Region} {e : Elem} {f : BitVec 256} : (mpBoundary r e f).memOk := by
  unfold Machine.mpBoundary
  split
  · exact trivial
  · split
    · exact trivial
    · exact Did.memOk.boundary

theorem Did.memOk.agBoundary {r : Region} {e : Elem} {f : BitVec 256} : (agBoundary r e f).memOk := by
  unfold Machine.agBoundary
  split
  · exact trivial
  · split
    · exact trivial
    · exact Did.memOk.boundary

theorem State.memOk.execRoundBoundary {rid row col : Nat} {s : State} (ok : s.memOk) :
    (execRoundBoundary rid row col s).memOk := by
  unfold Machine.execRoundBoundary
  refine ok.element ?_
  intro x x' x''
  split
  · exact Did.memOk.mpBoundary
  · split
    · exact Did.memOk.agBoundary
    · split
      · exact Did.memOk.ceBoundary
      · split
        · exact ok.meBoundary
        · split
          · exact Did.memOk.feBoundary
          · exact Did.memOk.xeBoundary

theorem State.memOk.execElementDone {rid row col : Nat} {s : State} (ok : s.memOk) :
    (execElementDone rid row col s).memOk := by
  simp only [Machine.execElementDone]
  split
  · exact ok
  · split
    · exact ok
    · split
      · exact ok
      · split
        · exact ok
        · split
          · split
            · exact ok.perform Did.memOk.does
            · exact ok
          · split
            · exact ok.perform trivial
            · exact ok
            · refine ok.perform ?_
              split
              · exact Did.memOk.does
              · exact trivial

theorem State.memOk.initArea {s : State} {r : Region} {e : Elem} (ok : s.memOk) : (s.initArea r e).memOk := by
  unfold State.initArea
  split
  · exact ok
  · split
    · exact ok
    · exact ok.foldl (fun t x ht => ht.wr)

theorem State.memOk.mapHolder {s : State} {r : Region} {f : Residency → Residency} (ok : s.memOk) :
    (s.mapHolder r f).memOk := by
  unfold State.mapHolder
  split <;> exact ok

theorem State.memOk.fixBinds {s : State} {r : Region} {p : Nat} (ok : s.memOk) : (s.fixBinds r p).memOk := by
  unfold State.fixBinds
  split
  · exact ok
  · split
    · exact ok
    · exact ok.mapHolder

theorem State.memOk.enterPlane {s : State} {rid row col p : Nat} (ok : s.memOk) :
    (s.enterPlane rid row col p).memOk := by
  simp only [State.enterPlane]
  split
  · exact ok
  · split
    · exact ok.fixBinds
    · split
      · exact ok.fixBinds
      · split
        · split
          · refine .initArea ?_
            exact ok.fixBinds
          · refine .initArea ?_
            exact ok.fixBinds
        · refine .initArea ?_
          exact ok.fixBinds

theorem State.memOk.advancePlanes {s : State} {rid : Nat} (ok : s.memOk) : (s.advancePlanes rid).memOk := by
  simp only [State.advancePlanes]
  split
  · exact ok
  · split
    · exact ok
    · split
      · exact ok
      · split
        · exact ok
        · split
          · refine .mapHolder ?_
            refine .foldl ?_ (fun t x ht => ht.enterPlane)
            exact ok
          · refine .mapHolder ?_
            refine .foldl ?_ (fun t x ht => ht.enterPlane)
            exact ok

theorem State.memOk.execPlaneEntry {rid : Nat} {s : State} (ok : s.memOk) : (execPlaneEntry rid s).memOk := by
  simp only [Machine.execPlaneEntry]
  split
  · exact ok
  · split
    · exact ok
    · split
      · split
        · exact ok.foldl (fun t x ht => ht.enterPlane.advancePlanes)
        · split
          · exact ok
          · split
            · exact ok
            · split
              · exact ok
              · split <;> exact ok
      · split
        · exact ok.foldl (fun t x ht => ht.enterPlane.advancePlanes)
        · split
          · exact ok
          · split
            · exact ok
            · split
              · exact ok
              · split <;> exact ok

theorem State.memOk.execPlanePrefetch {rid : Nat} {s : State} (ok : s.memOk) : (execPlanePrefetch rid s).memOk := by
  unfold Machine.execPlanePrefetch
  split
  · exact ok
  · split
    · exact ok
    · split
      · exact ok
      · split
        · next e => exact (ok.fetchImage e).setRegion
        · exact ok

theorem State.memOk.execArgwDelivery {rid : Nat} {s : State} (ok : s.memOk) : (execArgwDelivery rid s).memOk := by
  simp only [Machine.execArgwDelivery]
  split
  · exact ok
  · split
    · exact ok
    · split <;> exact ok

theorem State.memOk.execWindowCommit {rid : Nat} {s : State} (ok : s.memOk) : (execWindowCommit rid s).memOk := by
  simp only [Machine.execWindowCommit]
  split
  · exact ok
  · split
    · exact ok
    · split
      · exact ok
      · split
        · exact ok
        · refine .foldl ?_ (fun t x ht => ht.commitStore)
          exact ok

theorem State.memOk.wrWords {s : State} {l : Nat} {ws : List Word} (ok : s.memOk) : (s.wrWords l ws).memOk :=
  ok.foldl (fun _ _ ht => ht.wr)

theorem State.memOk.drain {s : State} {y : Residency} {r : Region} (ok : s.memOk) : (s.drain y r).memOk := by
  unfold State.drain
  split
  · refine .freeResidency ?_
    exact ok.wrWords
  · exact ok.wrWords

theorem State.memOk.execResidencyDrained {die cluster entry : Nat} {s : State} (ok : s.memOk) :
    (execResidencyDrained die cluster entry s).memOk := by
  unfold Machine.execResidencyDrained
  split
  · exact ok
  · split
    · exact ok
    · split
      · exact ok
      · split
        · exact ok
        · split
          · split <;> exact ok
          · split
            · exact ok.drain
            · exact ok

theorem State.memOk.faultResidency {s : State} {y : Residency} {ws : List Word} (ok : s.memOk) :
    (s.faultResidency y ws).memOk := by
  unfold State.faultResidency
  split
  · exact ok.wrWords.freeResidency
  · exact ok.wrWords

theorem State.memOk.leaveSpills {s : State} {r : Region} (ok : s.memOk) : (s.leaveSpills r).memOk :=
  ok.foldl (fun _ _ ht => ht.foldl (fun _ _ ht' => ht'.leaveSpill))

theorem State.memOk.freezeRegion {s : State} {r : Region} (ok : s.memOk) : (s.freezeRegion r).memOk :=
  ok.leaveSpills.writePipes

theorem State.memOk.execFabricFaultFreeze {rid row col : Nat} {s : State} (ok : s.memOk) :
    (execFabricFaultFreeze rid row col s).memOk := by
  unfold Machine.execFabricFaultFreeze
  split
  · exact ok
  · split
    · split
      · exact ok
      · exact ok.freezeRegion.faultResidency
    · exact ok

theorem State.memOk.snapshot {s : State} {r : Region} {y : Residency} {plane : Nat} (ok : s.memOk) :
    (s.snapshot r y plane).2.memOk := by
  simp only [State.snapshot]
  split
  · exact ok
  · exact ok.wrWake.wrWords

theorem State.memOk.execRstall {rid : Nat} {s : State} (ok : s.memOk) : (execRstall rid s).memOk := by
  simp only [Machine.execRstall]
  split
  · exact ok
  · split
    · split
      · exact ok
      · exact ok.snapshot.freezeRegion.faultResidency
    · exact ok

/-! ## Circuits -/

theorem State.memOk.mapPort {s : State} {rid row : Nat} {g : MPState → MPState} (ok : s.memOk) :
    (s.mapPort rid row g).memOk := by
  unfold State.mapPort
  split
  · exact ok
  · split <;> exact ok

theorem State.memOk.execCircuitOpen {rid row : Nat} {s : State} (ok : s.memOk) :
    (execCircuitOpen rid row s).memOk := by
  unfold Machine.execCircuitOpen
  split
  · exact ok
  · split
    · exact ok
    · split
      · exact ok
      · split
        · split
          · exact ok.mapPort
          · exact ok
        · split
          · exact ok
          · exact ok.mapPort.mapPort

theorem State.memOk.emitCircuit {s : State} {rid row n : Nat} (ok : s.memOk) : (s.emitCircuit rid row n).memOk := by
  induction n generalizing s with
  | zero => exact ok
  | succ n ih =>
    simp only [State.emitCircuit]
    split
    · exact ok
    · split
      · exact ok
      · split
        · exact ok
        · split
          · exact ok
          · exact ih (ok.perform ok.circuitReceive)

theorem State.memOk.execCircuitTokenArrival {rid row seqNo kind : Nat} {par : Bool} {payload : BitVec 512}
    {s : State} (ok : s.memOk) :
    (execCircuitTokenArrival rid row seqNo kind par payload s).memOk := by
  simp only [Machine.execCircuitTokenArrival]
  split
  · exact ok
  · split
    · exact ok
    · split
      · exact ok
      · split
        · exact ok.mapPort.emitCircuit
        · split
          · exact ok
          · refine .emitCircuit ?_
            refine .mapPort ?_
            exact ok

theorem State.memOk.creditPort {s : State} {r : Region} {row : Nat} (ok : s.memOk) : (s.creditPort r row).memOk := by
  unfold State.creditPort
  split
  · split
    · exact ok.mapPort
    · exact ok
  · exact ok

theorem State.memOk.execCreditReturn {rid arc : Nat} {s : State} (ok : s.memOk) :
    (execCreditReturn rid arc s).memOk := by
  unfold Machine.execCreditReturn
  split
  · exact ok
  · split
    · exact ok.creditPort
    · split <;> exact ok

theorem State.memOk.execCircuitOtherEndLost {rid row : Nat} {s : State} (ok : s.memOk) :
    (execCircuitOtherEndLost rid row s).memOk := by
  unfold Machine.execCircuitOtherEndLost
  split
  · exact ok
  · split
    · exact ok
    · split
      · exact ok
      · split <;> exact ok

end Sys2Proof.Machine
end

