-- ==== Sys2Proof/Proofs/MemEvents.lean ====
section
/-! SUPPORT. Memory in canonical form: traps, strands, copies, links and frond scheduling (O60). -/
namespace Sys2Proof.Machine

/-! ## Control registers, traps and TLB invalidation -/

theorem State.memOk.execCtlr {d : BitVec 6} {i : BitVec 12} {s : State} (ok : s.memOk) : (execCtlr d i s).memOk := by
  simp only [Machine.execCtlr]
  split
  · exact ok.trap
  · split
    · exact ok.trap
    · exact ok

theorem State.memOk.execCtlw {a : BitVec 6} {i : BitVec 12} {s : State} (ok : s.memOk) : (execCtlw a i s).memOk := by
  unfold Machine.execCtlw
  split
  · exact ok.trap
  · exact ok.trap
  · exact ok.trap
  · exact ok

theorem State.memOk.execTlbiAsid {a : BitVec 6} {c : BitVec 3} {s : State} (ok : s.memOk) :
    (execTlbiAsid a c s).memOk := by
  simp only [Machine.execTlbiAsid]
  refine ok.privileged ?_
  intro t ht
  split
  · exact ht
  · exact ht.trap

/-! ## Issue -/

theorem State.memOk.leaveGang {s : State} (ok : s.memOk) : (s.leaveGang).memOk := by
  simp only [State.leaveGang]
  split <;> exact ok

theorem State.memOk.takeDeferred {s : State} (ok : s.memOk) : (s.takeDeferred).memOk := by
  unfold State.takeDeferred
  split
  · exact ok
  · refine .enterTrap ?_
    refine .leaveGang ?_
    exact ok.leaveCell

theorem State.memOk.unlessDeferred {s : State} {f : State → State} (ok : s.memOk) (hf : ∀ t, t.memOk → (f t).memOk) :
    (s.unlessDeferred f).memOk := by
  unfold State.unlessDeferred
  split
  · exact ok.seat.takeDeferred
  · exact hf _ ok

theorem State.memOk.issued {s : State} {c : Core} {slot : Nat} {second : Option Nat} (ok : s.memOk) :
    (s.issued c slot second).memOk := ok.setCore

/-! ## Ends of waits, saving and placement -/

theorem State.memOk.execResultLands {uid : Nat} {s : State} (ok : s.memOk) : (execResultLands uid s).memOk :=
  ok.mapStrand

theorem State.memOk.execStrandWake {uid : Nat} {s : State} (ok : s.memOk) : (execStrandWake uid s).memOk :=
  ok.onStrand (fun _ ht => ht)

theorem State.memOk.execDeferredTrap {uid : Nat} {s : State} (ok : s.memOk) : (execDeferredTrap uid s).memOk :=
  ok.onStrand (fun _ ht => ht.takeDeferred)

theorem State.memOk.execIllegalInstruction {w w2 : BitVec 32} {s : State} (ok : s.memOk) :
    (execIllegalInstruction w w2 s).memOk := ok.trap

theorem State.memOk.fetchDone {s : State} (ok : s.memOk) : s.fetchDone.memOk := by
  simp only [State.fetchDone]
  split
  · generalize ht : State.translate _ _ _ _ = found
    have seen : found.2.memOk := ht ▸ State.memOk.translate
      (s := { s with self := { s.self with waits := { s.self.waits with fetchMiss := false } } }) ok
    split
    · exact State.memOk.pageFault seen
    · exact State.memOk.trap seen
    · split
      · split
        · refine .askWait ?_
          exact seen
        · exact seen
      · exact seen
  · exact ok

theorem State.memOk.execInstructionFetch {uid : Nat} {s : State} (ok : s.memOk) : (execInstructionFetch uid s).memOk :=
  ok.onStrand (fun _ ht => ht.unlessDeferred (fun _ ht' => ht'.fetchDone))

theorem State.memOk.execTlbiComplete {uid : Nat} {s : State} (ok : s.memOk) : (execTlbiComplete uid s).memOk := by
  unfold Machine.execTlbiComplete
  split
  · exact ok
  · split
    · exact ok
    · split <;> exact ok

theorem State.memOk.saveOne {s : State} {uid order : Nat} (ok : s.memOk) : (s.saveOne uid order).memOk := by
  simp only [State.saveOne]
  split
  · refine .onStrand ?_ (fun t ht => ht.leaveCell)
    exact ok
  · refine .laySpills ?_
    refine .onStrand ?_ (fun t ht => ht.leaveCell)
    exact ok

theorem State.memOk.saveStrand {s : State} {t : Strand} (ok : s.memOk) : (s.saveStrand t).memOk := by
  unfold State.saveStrand
  split
  · exact ok.saveOne
  · exact ok.saveOne.saveOne

theorem State.memOk.execStrandSave {uid : Nat} {s : State} (ok : s.memOk) : (execStrandSave uid s).memOk := by
  unfold Machine.execStrandSave
  split
  · split
    · exact ok.saveStrand
    · exact ok
  · exact ok

theorem State.memOk.zeroLocal {s : State} {lo n : Nat} (ok : s.memOk) : (s.zeroLocal lo n).memOk := memWf_filter ok _

theorem State.memOk.scrubCore {s : State} {die cluster core : Nat} (ok : s.memOk) :
    (s.scrubCore die cluster core).memOk := ok.zeroLocal

theorem State.memOk.coreFor {s : State} {die cluster core part : Nat} (ok : s.memOk) :
    (s.coreFor die cluster core part).memOk := by
  unfold State.coreFor
  refine .setCore ?_
  split
  · split
    · exact ok
    · exact ok.scrubCore
  · exact ok

theorem State.memOk.enter {s : State} {t : Strand} {core slot : Nat} {frozen : Bool} (ok : s.memOk) :
    (s.enter t core slot frozen).memOk := by
  simp only [State.enter]
  split
  · refine .laySpill ?_
    exact ok
  · exact ok

theorem State.memOk.unkeep {s : State} {uid : Nat} (ok : s.memOk) : (s.unkeep uid).memOk := ok

theorem State.memOk.place {s : State} {t : Strand} {p : Nat × Nat} (ok : s.memOk) : (s.place t p).memOk := by
  simp only [State.place]
  split
  · exact ok.unkeep.coreFor.enter.enter
  · exact ok.unkeep.coreFor.enter

theorem State.memOk.execStrandPlacement {die cluster : Nat} {s : State} (ok : s.memOk) :
    (execStrandPlacement die cluster s).memOk := by
  unfold Machine.execStrandPlacement
  split
  · exact ok.place
  · exact ok

theorem State.memOk.vacate {s : State} {die cluster core : Nat} (ok : s.memOk) :
    (s.vacate die cluster core).memOk := by
  unfold State.vacate
  refine ok.foldl ?_
  intro t x ht
  split
  · split
    · exact ht.saveStrand
    · exact ht
  · exact ht

theorem State.memOk.keep {s : State} {uid : Nat} {v : Strand} (ok : s.memOk) : (s.keep uid v).memOk := ok.setCore

theorem State.memOk.placeIf {s : State} {uid : Nat} (ok : s.memOk) : (s.placeIf uid).memOk := by
  unfold State.placeIf
  split
  · split
    · exact ok.place
    · exact ok
  · exact ok

theorem State.memOk.execVictimPreempt {uid : Nat} {s : State} (ok : s.memOk) : (execVictimPreempt uid s).memOk := by
  unfold Machine.execVictimPreempt
  split
  · exact ok
  · split
    · exact ok
    · split
      · split
        · exact ok.keep.saveStrand.placeIf
        · exact ok
      · split
        · exact ok
        · split
          · split
            · exact ok.vacate.placeIf
            · exact ok
          · exact ok

/-! ## Copies -/

theorem State.memOk.setCopy {s : State} {c : Copy} (ok : s.memOk) : (s.setCopy c).memOk := ok

theorem State.memOk.endCopy {s : State} {c : Copy} (ok : s.memOk) : (s.endCopy c).memOk := by
  simp only [State.endCopy]
  split <;> exact ok

theorem State.memOk.subtract {s : State} {bar : Option (Word × Nat)} {n : Nat} (ok : s.memOk) :
    (s.subtract bar n).memOk := by
  unfold State.subtract
  split
  · exact ok
  · exact ok.wrWake

theorem State.memOk.delivered {s : State} {c : Copy} {n : Nat} (ok : s.memOk) : (s.delivered c n).memOk := by
  simp only [State.delivered]
  split
  · exact ok.subtract.charge.endCopy
  · exact ok.subtract.charge

theorem State.memOk.bounce {s : State} {c : Copy} {dstSide : Bool} {fault : Word} (ok : s.memOk) :
    (s.bounce c dstSide fault).memOk := by
  unfold State.bounce
  split
  · exact ok
  · split <;> exact ok.endCopy

theorem State.memOk.sideOf {s : State} {x : Site} {k : Nat} {a : Word} {n : Nat} {acc : Acc} (ok : s.memOk) :
    (s.sideOf x k a n acc).2.memOk := by
  simp only [State.sideOf]
  split
  · exact ok
  · split
    · next e =>
        split
        · split
          · exact ok.translate.of_snd e
          · exact (ok.translate.of_snd e).useKeys
        · exact ok.translate.of_snd e
    · next e =>
        exact ok.translate.of_snd e

theorem State.memOk.copyLocal {s : State} {l : Nat} {bs : List Byte} (ok : s.memOk) : (s.copyLocal l bs).memOk := by
  unfold State.copyLocal
  refine .foldl ?_ (fun t x ht => ht)
  exact ok.wrWake

theorem State.memOk.askLines {s : State} {c : Copy} {a : Word} {pa n : Nat} {cpage : Bool} (ok : s.memOk) :
    (s.askLines c a pa n cpage).memOk := by
  unfold State.askLines
  refine ok.foldl ?_
  intro t x ht
  split
  · exact ht
  · exact ht.ask

theorem State.memOk.readSrc {s : State} {c : Copy} {a : Word} {n : Nat} (ok : s.memOk) : (s.readSrc c a n).2.memOk := by
  unfold State.readSrc
  split
  · next e =>
      exact ok.sideOf.of_snd e
  · next e =>
      split
      · split
        · exact ok.sideOf.of_snd e
        · split
          · exact (ok.sideOf.of_snd e).askLines
          · exact ok.sideOf.of_snd e
      · split
        · exact ok.sideOf.of_snd e
        · split
          · exact ok.sideOf.of_snd e
          · split
            · exact (ok.sideOf.of_snd e).charge
            · exact ok.sideOf.of_snd e

theorem State.memOk.sendLines {s : State} {c : Copy} {a : Word} {pa : Nat} {bs : List Byte} {cpage : Bool}
    (ok : s.memOk) :
    (s.sendLines c a pa bs cpage).memOk := ok.foldl (fun _ _ ht => ht.ask)

theorem State.memOk.writeBurst? {s t : State} {c : Copy} {bs : List Byte} (ok : s.memOk)
    (e : s.writeBurst? c bs = some t) : t.memOk := by
  simp only [State.writeBurst?] at e
  split at e
  · next e' =>
    cases e
    exact (ok.sideOf.of_snd e').bounce
  · next e' =>
    have seen := ok.sideOf.of_snd e'
    repeat' split at e
    all_goals cases e
    · exact seen.sendLines.setCopy
    · exact seen.bounce
    · exact seen.charge.writeRange.delivered
    · exact seen.copyLocal.delivered

theorem State.memOk.writeBurst {s : State} {c : Copy} {bs : List Byte} (ok : s.memOk) : (s.writeBurst c bs).memOk := by
  unfold State.writeBurst
  cases e : s.writeBurst? c bs with
  | none => exact ok.setCopy
  | some t => exact ok.writeBurst? e

theorem State.memOk.readBurst {s : State} {c : Copy} {a : Word} {n : Nat} (ok : s.memOk) :
    (s.readBurst c a n).2.memOk := by
  unfold State.readBurst
  split
  · next e =>
      split
      · exact ok.readSrc.of_snd e
      · exact ok.readSrc
  · exact ok.readSrc

theorem State.memOk.execCopyBurst {cid : Nat} {s : State} (ok : s.memOk) : (execCopyBurst cid s).memOk := by
  unfold Machine.execCopyBurst
  split
  · exact ok
  · split
    · exact ok
    · split
      · split
        · exact ok
        · exact ok.delivered
      · split
        · exact ok.writeBurst
        · split
          · exact ok
          · split
            · next e =>
                exact (ok.readBurst.of_snd e).bounce
            · next e =>
                exact ok.readBurst.of_snd e
            · next e =>
                exact (ok.readBurst.of_snd e).writeBurst

theorem State.memOk.putRing {s : State} {c : Copy} {q loc n : Nat} {waits : Bool} {tail : Nat} {bs : List Byte}
    (ok : s.memOk) :
    (s.putRing c q loc n waits tail bs).memOk := by
  unfold State.putRing
  split
  · refine .delivered ?_
    exact ok.copyLocal
  · exact ok.copyLocal.delivered

theorem State.memOk.execCopyRingWordWrite {cid : Nat} {s : State} (ok : s.memOk) :
    (execCopyRingWordWrite cid s).memOk := by
  simp only [Machine.execCopyRingWordWrite]
  split
  · exact ok
  · next c _ =>
    split
    · exact ok
    · split
      · exact ok
      · generalize hr : (if c.bytes.isEmpty = true then s.readSrc c _ _ else (SrcRead.bytes c.bytes, s)) = first
        have read : first.2.memOk := by
          subst hr
          split
          · exact ok.readSrc
          · exact ok
        split
        · exact State.memOk.bounce read
        · exact read
        · split
          · exact State.memOk.putRing read
          · split
            · next e => exact (State.memOk.readSrc read).of_snd e |>.bounce
            · next e => exact (State.memOk.readSrc read).of_snd e |>.setCopy
            · next e => exact (State.memOk.readSrc read).of_snd e |>.putRing

/-! ## Links -/

theorem State.memOk.answer {s : State} {b : Peer} {rq pa n x status : Nat} (ok : s.memOk) :
    (s.answer b rq pa n x status).memOk := by
  unfold State.answer
  refine .charge ?_
  exact ok

theorem State.memOk.refuseRequest {s : State} {m rq : Nat} (ok : s.memOk) : (s.refuseRequest m rq).memOk := ok.send

theorem State.memOk.peerCell {s : State} {b : Peer} {rq pa : Nat} {va : Word} (ok : s.memOk) :
    (s.peerCell b rq pa va).memOk := by
  simp only [State.peerCell]
  split
  · split
    · next e =>
        exact (ok.eclose.of_snd e).answer
    · next e =>
        exact (ok.eclose.of_snd e).answer
    · next e =>
        exact (ok.eclose.of_snd e).answer
  · split
    · split
      · next e =>
          exact (ok.enqueue e).answer
      · exact ok.answer
    · exact ok
  · exact ok.answer

theorem State.memOk.await {s : State} {m rq pa n : Nat} (ok : s.memOk) : (s.await m rq pa n).memOk := ok

theorem State.memOk.giveUp {s : State} {m rq : Nat} (ok : s.memOk) : (s.giveUp m rq).memOk := ok

theorem State.memOk.peerCellOp {s : State} {b : Peer} {rq op pa : Nat} {va : Word} {data : BitVec 512} (ok : s.memOk) :
    (s.peerCellOp b rq op pa va data).memOk := by
  unfold State.peerCellOp
  split
  · split <;> exact ok.answer
  · split
    · exact ok.answer
    · split
      · refine .answer ?_
        split
        · exact ok
        · exact ok.wr.setTag
      · split
        · refine .answer ?_
          split
          · exact ok
          · exact ok.await
        · split
          · refine .answer ?_
            split
            · exact ok.eclose
            · exact ok
          · exact ok.answer

theorem State.memOk.peerAccess {s : State} {b : Peer} {rq op width pa : Nat} {va : Word} {data : BitVec 512}
    {expected : Word} {agent : Nat} {cpage : Bool} (ok : s.memOk) :
    (s.peerAccess b rq op width pa va data expected agent cpage).memOk := by
  simp only [State.peerAccess]
  split
  · split
    · exact ok.answer
    · split
      · split
        · exact ok.answer
        · split
          · exact ok.answer
          · exact ok.peerCell
      · split
        · refine .answer ?_
          split <;> exact ok.writeRange
        · split
          · exact ok.answer
          · exact ok.writeRange.answer
  · split
    · exact ok.answer
    · split
      · split
        · exact ok.answer
        · split
          · exact ok.answer
          · exact ok.peerCell
      · split
        · refine .answer ?_
          split <;> exact ok.writeRange
        · split
          · exact ok.answer
          · exact ok.writeRange.answer

theorem State.memOk.execRemoteAccessArrival {rq remModule remPart : Nat} {ask : Nat × Nat × Bool} {width pa : Nat}
    {va : Word} {data : BitVec 512} {expected : Word} {s : State} (ok : s.memOk) :
    (execRemoteAccessArrival rq remModule remPart ask width pa va data expected s).memOk := by
  simp only [Machine.execRemoteAccessArrival]
  split
  · exact ok.refuseRequest
  · split
    · exact ok.dequeue
    · split
      · exact ok.giveUp
      · split
        · exact ok.refuseRequest
        · split
          · exact ok
          · split
            · exact ok.charge.peerCellOp
            · exact ok.charge.peerAccess

theorem State.memOk.endRequest {s : State} {rq : Nat} (ok : s.memOk) : (s.endRequest rq).memOk := ok

theorem State.memOk.portFails {s : State} {rid row rq : Nat} (ok : s.memOk) :
    (s.portFails rid row rq).memOk := by
  unfold State.portFails
  split
  · exact ok
  · split
    · exact ok
    · split
      · exact ok.spillFault
      · exact ok

theorem State.memOk.portAnswer {s : State} {rid row : Nat} {o : Outstanding} {x : Ending} (ok : s.memOk) :
    (s.portAnswer rid row o x).memOk := by
  unfold State.portAnswer
  split
  · exact ok
  · split
    · exact ok
    · split
      · extract_lets fault
        have failed (c : Nat) : (fault c).memOk := ok.spillFault
        generalize fault = fault at *
        cases x with
        | data d => exact ok.setRegion
        | waits c => exact ok.setRegion
        | poison => exact failed _
        | line => exact failed _
        | noEntry => exact failed _
        | _ => exact failed _
      · exact ok

theorem State.memOk.portStoreFails {s : State} {rid row : Nat} {o : Outstanding} {x : Ending} (ok : s.memOk) :
    (s.portStoreFails rid row o x).memOk := by
  simp only [State.portStoreFails]
  split
  · exact ok
  · split
    · exact ok
    · split
      · split <;> split <;> exact ok
      · exact ok

theorem State.memOk.copyAnswer {s : State} {o : Outstanding} {cid : Nat} {x : Ending} (ok : s.memOk) :
    (s.copyAnswer o cid x).memOk := by
  simp only [State.copyAnswer]
  split
  · exact ok
  · split
    · split <;> exact ok
    · split
      · split
        · exact ok.bounce
        · split
          · exact ok.bounce
          · exact ok
      · split
        · exact ok.bounce
        · split
          · exact ok.bounce
          · exact ok
    · exact ok.bounce

theorem State.memOk.linkAnswer {s : State} {rq uid chain : Nat} {next : Option Nat} (ok : s.memOk) :
    (s.linkAnswer rq uid chain next).memOk := by
  unfold State.linkAnswer
  refine ok.onStrand ?_
  intro t ht
  split
  · split <;> exact ht.chaseOn
  · exact ht.chaseOn

theorem State.memOk.strandAnswer {s : State} {o : Outstanding} {uid reason : Nat} {x : Ending} (ok : s.memOk) :
    (s.strandAnswer o uid reason x).memOk := by
  refine ok.onStrand fun t ht => ?_
  extract_lets w w' t' s'
  have left : s'.memOk := ht
  generalize (if x = .line ∧ (o.op = 20 ∨ o.op = 21) then Ending.data 4#512 else x) = y
  cases y with
  | data d =>
    dsimp only
    split
    · exact ht
    · exact ht
  | waits chain => exact State.memOk.chaseOn (State.memOk.of_mem left rfl)
  | _ => exact State.memOk.trap left

theorem State.memOk.keepCheck {s : State} {o : Outstanding} {x : Ending} (ok : s.memOk) : (s.keepCheck o x).memOk := by
  unfold State.keepCheck
  split <;> exact ok

theorem State.memOk.endWith {s : State} {o : Outstanding} {reason : Nat} {x : Ending} (ok : s.memOk) :
    (s.endWith o reason x).memOk := by
  have left := (ok.endRequest (rq := o.rq)).keepCheck (o := o) (x := x)
  simp only [State.endWith]
  split
  · exact left.copyAnswer
  · split
    · split
      · exact left.linkAnswer
      · exact left.linkAnswer
    · exact left.strandAnswer
  · split
    · exact left.portAnswer
    · split
      · exact left
      · exact left.portStoreFails
  · exact left

theorem State.memOk.farWake {s : State} {rq : Nat} (ok : s.memOk) : (s.farWake rq).memOk := by
  unfold State.farWake
  refine .foldl ?_ ?_
  · exact ok
  · intro t x ht
    refine ht.foldl ?_
    intro t' x' ht'
    split
    · split <;> exact ht'
    · exact ht'

theorem State.memOk.endAccesses {s : State} {part m : Nat} (ok : s.memOk) : (s.endAccesses part m).memOk := by
  refine State.memOk.foldl (State.memOk.foldl (State.memOk.foldl ok fun t o ht => ?_) fun t x ht => ?_) fun t r ht => ?_
  · have either (c : Bool) : State.memOk (if c then t.endRequest o.rq else t.endWith o 3 .refused) := by
      cases c with
      | true => exact ht.endRequest
      | false => exact ht.endWith
    exact either _
  · exact ht.onStrand fun u hu => hu.trap
  · refine ht.foldl fun t e ht => ht.foldl fun t p ht => ?_
    split
    · split
      · exact ht.portFails
      · exact ht
    · exact ht

theorem State.memOk.execRemoteResponse {rq : Nat} {data : BitVec 512} {status : Nat} {s : State} (ok : s.memOk) :
    (execRemoteResponse rq data status s).memOk := by
  unfold Machine.execRemoteResponse
  split
  · exact ok.farWake
  · split
    · exact ok
    · split
      · exact ok
      · exact ok.endWith

theorem State.memOk.execRemoteStoreAck {rq : Nat} {s : State} (ok : s.memOk) : (execRemoteStoreAck rq s).memOk := by
  unfold Machine.execRemoteStoreAck
  split
  · exact ok
  · split
    · exact ok.endWith
    · exact ok

theorem State.memOk.mapLink {s : State} {p : Nat} {f : Port → Port} (ok : s.memOk) : (s.mapLink p f).memOk := ok

theorem State.memOk.execRequestTimeout {rq : Nat} {s : State} (ok : s.memOk) : (execRequestTimeout rq s).memOk := by
  unfold Machine.execRequestTimeout
  split
  · exact ok
  · split
    · exact ok
    · exact ok.endWith.mapLink

/-! ## The frond scheduler -/

theorem State.memOk.enterWaiting {s : State} {p : Packet} (ok : s.memOk) : (s.enterWaiting p).memOk := by
  simp only [State.enterWaiting]
  split
  · exact ok
  · split <;> exact ok

theorem State.memOk.leaveWaiting {s : State} {w : Waiting} (ok : s.memOk) : (s.leaveWaiting w).memOk := by
  simp only [State.leaveWaiting]
  split <;> exact ok

theorem State.memOk.callersWait {s : State} {r : Region} (ok : s.memOk) : (s.callersWait r).memOk :=
  ok.foldl (fun _ _ ht => ht.enterWaiting)

theorem State.memOk.evict {s : State} {r : Region} (ok : s.memOk) : (s.evict r).memOk := by
  unfold State.evict
  refine .callersWait ?_
  exact ok.freeRegion

theorem State.memOk.evictFree {s : State} {r : Region} (ok : s.memOk) : (s.evictFree r).memOk :=
  ok.freeRegion.callersWait

theorem State.memOk.wakeAreas {s : State} {die cluster frond row0 rows : Nat} (ok : s.memOk) :
    (s.wakeAreas die cluster frond row0 rows).memOk := ok.mapStrands

theorem State.memOk.clearAreas {s : State} {die cluster frond row0 rows : Nat} (ok : s.memOk) :
    (s.clearAreas die cluster frond row0 rows).memOk := ok.foldl (fun _ _ ht => ht.foldl
        (fun _ _ ht' => ht'.zeroLocal))

theorem State.memOk.makeRegion {s : State} {die cluster : Nat} {at' : Nat × Nat} {sh : Shape} {h : Holder} {im : Image}
    {site : Site} (ok : s.memOk) : (s.makeRegion die cluster at' sh h im site).2.memOk := ok.clearAreas.of_mem rfl

theorem State.memOk.enterAll {s : State} {rid : Nat} (ok : s.memOk) : (s.enterAll rid).memOk := by
  unfold State.enterAll
  split
  · exact ok
  · exact ok.foldl (fun t x ht => ht.enterPlane)

theorem State.memOk.poisonCell {s : State} {die cluster idx : Nat} (ok : s.memOk) :
    (s.poisonCell die cluster idx).memOk := by
  simp only [State.poisonCell]
  split
  · exact ok
  · split
    · refine .endEclosion ?_
      exact ok
    · exact ok

theorem State.memOk.fetchFailed {s : State} {w : Waiting} {cause : Nat} (ok : s.memOk) :
    (s.fetchFailed w cause).memOk := by
  unfold State.fetchFailed
  refine .leaveWaiting ?_
  refine .foldl ?_ ?_
  · exact ok
  · intro t x ht
    split
    · exact ht.poisonCell
    · exact ht

theorem State.memOk.placeServed {s : State} {w : Waiting} {im : Image} (ok : s.memOk) : (s.placeServed w im).memOk := by
  simp only [State.placeServed]
  split
  · split
    · split
      · exact ok
      · split
        · exact ok.evict
        · exact ok
    · exact ok
  · refine .leaveWaiting ?_
    refine .enterAll ?_
    refine .makeRegion ?_
    split
    · split
      · exact ok
      · split
        · exact ok.evict
        · exact ok
    · exact ok

theorem State.memOk.execFrondDecision {die cluster : Nat} {s : State} (ok : s.memOk) :
    (execFrondDecision die cluster s).memOk := by
  unfold Machine.execFrondDecision
  split
  · exact ok
  · extract_lets w s1 ps
    split
    · exact ok
    · split
      · exact ok
      · extract_lets older s2
        have left : State.memOk s2 := ok
        split
        · next e => exact State.memOk.placeServed (left.fetchImage e)
        · exact left.fetchFailed

theorem State.memOk.restoreAreas {s : State} {r : Region} {l : List (Nat × Nat × List Host.Cell × List Nat)}
    (ok : s.memOk) :
    (s.restoreAreas r l).memOk := ok.foldl (fun _ _ ht => (ht.foldl (fun _ _ ht' => ht'.wrBytes)).foldl
        (fun _ _ ht' => ht'))

theorem State.memOk.restoreRegion {s : State} {y : Residency} {r : Region} {die cluster : Nat} {b : Nat × Nat}
    (ok : s.memOk) : (s.restoreRegion y r die cluster b).memOk := by
  unfold State.restoreRegion
  extract_lets r' s1 s2 s3
  have back : s2.memOk := ok.clearAreas.restoreAreas.wakeAreas
  exact back

theorem State.memOk.startRegion {s : State} {y : Residency} {die cluster : Nat} {b : Nat × Nat} (ok : s.memOk) :
    (s.startRegion y die cluster b).memOk := by
  simp only [State.startRegion]
  refine .enterAll ?_
  refine .mapResidency ?_
  split
  · exact ok.makeRegion.setRegion
  · exact ok.makeRegion

theorem State.memOk.setDown {s : State} {y : Residency} {die cluster : Nat} {b : Nat × Nat} (ok : s.memOk) :
    (s.setDown y die cluster b).memOk := by
  unfold State.setDown
  split
  · exact ok.restoreRegion
  · split
    · next e => exact (ok.fetchImage e).startRegion
    · exact ok.faultResidency

theorem State.memOk.execResidencyPlacement {die cluster : Nat} {s : State} (ok : s.memOk) :
    (execResidencyPlacement die cluster s).memOk := by
  have setsDown (y : Residency) (emptied : Option Region) (t placed : State)
      (ht : t = match emptied with
        | some r => s.evict r
        | none => s)
      (hp : placed = match t.bandFor die cluster y.shape with
        | some b => t.setDown y die cluster b
        | none => t) : placed.memOk := by
    have left : t.memOk := by
      rw [ht]
      split
      · exact ok.evict
      · exact ok
    rw [hp]
    split
    · exact left.setDown
    · exact left
  unfold Machine.execResidencyPlacement
  split
  · exact ok
  · extract_lets y' emptied t placed held
    have down : placed.memOk := setsDown y' emptied t placed rfl rfl
    show State.memOk _
    split
    · exact down.needDecision
    · exact down

theorem State.memOk.execResidencyMigration {die cluster entry target : Nat} {s : State} (ok : s.memOk) :
    (execResidencyMigration die cluster entry target s).memOk := by
  simp only [Machine.execResidencyMigration]
  split
  · exact ok
  · split
    · exact ok
    · split
      · show State.memOk _
        split
        · exact ok
        · exact ok.setDown
      · exact ok

end Sys2Proof.Machine
end

