-- ==== Sys2Proof/Proofs/MemDevice.lean ====
section
/-! SUPPORT. Memory in canonical form: partitions, management, the host, paging and the plant (O60). -/
namespace Sys2Proof.Machine

/-! ## Tear-down -/

theorem State.memOk.post {s : State} {f : Nat} {r : StatusRec} (ok : s.memOk) : (s.post f r).memOk := by
  unfold State.post
  refine .signal ?_
  exact ok

theorem State.memOk.retire {s : State} {uid : Nat} (ok : s.memOk) : (s.retire uid).memOk :=
  ok.onStrand (fun _ ht => ht.retireSeat)

theorem State.memOk.retirePart {s : State} {p : Nat} (ok : s.memOk) : (s.retirePart p).memOk :=
  ok.foldl (fun _ _ ht => ht.retire)

theorem State.memOk.freeFabric {s : State} {p : Nat} (ok : s.memOk) : (s.freeFabric p).memOk := by
  unfold State.freeFabric
  refine .foldl ?_ (fun t x ht => ht)
  exact (ok.foldl (fun t x ht => ht.freeResidency)).foldl (fun t x ht => ht.freeRegion)

theorem State.memOk.freeCells {s : State} {p : Nat} (ok : s.memOk) : (s.freeCells p).memOk := ok

theorem State.memOk.endPeers {s : State} {p : Nat} (ok : s.memOk) : (s.endPeers p).memOk := ok.foldl (fun _ _ ht => ht)

theorem State.memOk.endLaunches {s : State} {p : Nat} (ok : s.memOk) : (s.endLaunches p).memOk :=
  ok.foldl (fun _ _ ht => ht.post)

theorem State.memOk.tearDownWork {s : State} {p : Nat} (ok : s.memOk) : (s.tearDownWork p).memOk :=
  ok.endPeers.retirePart.freeFabric.freeCells.endLaunches

theorem State.memOk.dropTlbs {s : State} {p : Nat} (ok : s.memOk) : (s.dropTlbs p).memOk := ok

theorem State.memOk.fillGranules {s : State} {x : DieShare} {d : Nat} {all : Bool} {key : DramKey} (ok : s.memOk) :
    (s.fillGranules x d all key).memOk := ok

theorem State.memOk.zeroDram {s : State} {x : DieShare} {d : Nat} (ok : s.memOk) : (s.zeroDram x d).memOk :=
  ok.zeroLocal

theorem State.memOk.zeroWindows {s : State} {x : DieShare} {d : Nat} (ok : s.memOk) : (s.zeroWindows x d).memOk :=
  (ok.foldl (fun _ _ ht => ht.zeroLocal)).zeroLocal

theorem State.memOk.scrubCores {s : State} {p : Nat} (ok : s.memOk) : (s.scrubCores p).memOk :=
  ok.foldl (fun _ _ ht => ht.scrubCore.setCore)

theorem State.memOk.tearDownStore {s : State} {p : Nat} (ok : s.memOk) : (s.tearDownStore p).memOk := by
  unfold State.tearDownStore
  generalize List.range 8 = l
  extract_lets x s1 s2 s3 graphs
  have cleared : s2.memOk := ok.dropTlbs.foldl fun t d ht => ht.zeroDram.fillGranules.zeroWindows
  have scrubbed : s3.memOk := cleared.scrubCores
  exact .setPart (scrubbed.of_mem rfl)

theorem State.memOk.tearDown {s : State} {p : Nat} (ok : s.memOk) : (s.tearDown p).memOk :=
  ok.tearDownWork.tearDownStore

theorem State.memOk.toError {s : State} {p : Nat} (ok : s.memOk) : (s.toError p).memOk := ok.tearDownWork.setPart

theorem State.memOk.disturb {s : State} {p : Nat} (ok : s.memOk) : (s.disturb p).memOk := by
  unfold State.disturb
  split
  · exact ok.toError
  · exact ok

/-! ## SPDM and TDISP -/

theorem State.memOk.spdmAnswer {s : State} {code : Nat} {data : List Word} (ok : s.memOk) :
    (s.spdmAnswer code data).memOk := ok.send

theorem State.memOk.atPhase {s : State} {n : Nat} {f : State → Out} (ok : s.memOk) (hf : ∀ t, t.memOk → (f t).memOk) :
    (s.atPhase n f).memOk := by
  unfold State.atPhase
  split
  · exact ok
  · split
    · exact ok
    · exact hf _ ok

theorem State.memOk.setSpdm {s : State} {x : Spdm} (ok : s.memOk) : (s.setSpdm x).memOk := ok

theorem State.memOk.onSession {s : State} {n : Nat} {f : Session → Out} (ok : s.memOk) (hf : ∀ x, (f x).memOk) :
    (s.onSession n f).memOk := by
  unfold State.onSession
  refine ok.atPhase ?_
  intro t ht
  split
  · split
    · exact hf _
    · exact ht
  · exact ht

theorem State.memOk.execGetVersion {s : State} (ok : s.memOk) : (execGetVersion s).memOk := by
  unfold Machine.execGetVersion
  split <;> exact ok

theorem State.memOk.execGetCapabilities {s : State} (ok : s.memOk) : (execGetCapabilities s).memOk :=
  ok.atPhase (fun _ ht => ht)

theorem State.memOk.execGetDigests {s : State} (ok : s.memOk) : (execGetDigests s).memOk := ok.atPhase (fun _ ht => ht)

theorem State.memOk.execGetCertificate {slot : Nat} {s : State} (ok : s.memOk) : (execGetCertificate slot s).memOk := by
  unfold Machine.execGetCertificate
  refine ok.atPhase ?_
  intro t ht
  split <;> exact ht

theorem State.memOk.execChallenge {slot : Nat} {nonce : BitVec 256} {s : State} (ok : s.memOk) :
    (execChallenge slot nonce s).memOk := by
  unfold Machine.execChallenge
  refine ok.atPhase ?_
  intro t ht
  split <;> exact ht

theorem State.memOk.execGetMeasurements {session index : Nat} {s : State} (ok : s.memOk) :
    (execGetMeasurements session index s).memOk := by
  simp only [Machine.execGetMeasurements]
  split
  · refine ok.atPhase ?_
    intro t ht
    split <;> exact ht
  · refine ok.onSession ?_
    intro x
    split <;> exact ok

theorem State.memOk.execKeyExchange {part : Option Nat} {s : State} (ok : s.memOk) : (execKeyExchange part s).memOk :=
  ok.atPhase (fun _ ht => ht)

theorem State.memOk.execFinish {session : Nat} {s : State} (ok : s.memOk) : (execFinish session s).memOk := by
  unfold Machine.execFinish
  refine ok.atPhase ?_
  intro t ht
  split <;> exact ht

theorem State.memOk.tdisp {s : State} {code : Nat} {data : List Word} (ok : s.memOk) : (s.tdisp code data).memOk :=
  ok.spdmAnswer

theorem State.memOk.tdispError {s : State} {e : Nat} (ok : s.memOk) : (s.tdispError e).memOk := ok.tdisp

theorem State.memOk.onInterface {s : State} {session p : Nat} {f : Out} (ok : s.memOk) (hf : f.memOk) :
    (s.onInterface session p f).memOk := by
  unfold State.onInterface
  split
  · exact ok
  · refine ok.onSession ?_
    intro x
    split
    · exact hf
    · exact ok.tdispError

theorem State.memOk.execLockInterfaceRequest {session part : Nat} {s : State} (ok : s.memOk) :
    (execLockInterfaceRequest session part s).memOk := by
  simp only [Machine.execLockInterfaceRequest]
  split
  · split
    · exact ok.setPart
    · exact ok
  · refine ok.onInterface ?_
    split
    · split
      · exact ok.setPart.toError.tdispError
      · exact ok.setPart.tdispError
    · split
      · exact ok.setPart.tdisp
      · exact ok.tdispError

theorem State.memOk.execStartInterfaceRequest {session part : Nat} {s : State} (ok : s.memOk) :
    (execStartInterfaceRequest session part s).memOk := by
  unfold Machine.execStartInterfaceRequest
  refine ok.onInterface ?_
  split
  · exact ok.setPart.tdisp
  · exact ok.tdispError

/-! ## Management commands -/

theorem State.memOk.complete {s : State} {fn code : Nat} {rs : List Word} (ok : s.memOk) :
    (s.complete fn code rs).memOk := by
  unfold State.complete
  refine .signal ?_
  exact ok

theorem State.memOk.command {s : State} {fn op : Nat} {body : Nat → Option Reply} (ok : s.memOk)
    (hbody : ∀ p, Reply.memOk (body p)) : (s.command fn op body).memOk := by
  unfold State.command
  split
  · exact ok
  · split
    · exact ok
    · split
      · exact ok.complete
      · split
        · exact ok.complete
        · next w _ _ _ _ =>
          have left := hbody (commandPart fn op w)
          split
          · next e =>
            rw [e] at left
            exact State.memOk.complete left
          · exact ok

theorem State.memOk.execManagementCommandOpcode {fn : Nat} {s : State} (ok : s.memOk) :
    (execManagementCommandOpcode fn s).memOk := by
  simp only [Machine.execManagementCommandOpcode]
  split
  · exact ok
  · split
    · exact ok
    · exact ok.complete

theorem State.memOk.writeEntry {s : State} {p : Nat} {entry : Nat → Word} (ok : s.memOk) :
    (s.writeEntry p entry).memOk := by
  have filled : State.memOk (if (s.part p).valid then (List.range 8).foldl (fun t d =>
      t.fillGranules ((s.part p).dies[d]?.getD {}) d false (t.keyOf p 0)) s else s) := by
    split
    · exact ok.foldl fun t d ht => ht.fillGranules
    · exact ok
  exact filled.of_mem rfl

theorem State.memOk.execPartSet {fn : Nat} {s : State} (ok : s.memOk) : (execPartSet fn s).memOk := by
  refine ok.command fun p => ?_
  dsimp only
  split
  · split
    · exact ok
    · exact ok.disturb
  · split
    · exact ok.writeEntry
    · exact ok

theorem State.memOk.execPartClear {fn : Nat} {s : State} (ok : s.memOk) : (execPartClear fn s).memOk :=
  ok.command (fun _ => ok.tearDown)

theorem State.memOk.execBudgetSet {fn : Nat} {s : State} (ok : s.memOk) : (execBudgetSet fn s).memOk := by
  simp only [Machine.execBudgetSet]
  refine ok.command ?_
  intro x
  split
  · exact ok
  · exact ok.setPart

theorem State.memOk.execBudgetGet {fn : Nat} {s : State} (ok : s.memOk) : (execBudgetGet fn s).memOk :=
  ok.command (fun _ => ok)

theorem State.memOk.mapPeer {s : State} {part remModule remPart : Nat} {f : Peer → Peer} (ok : s.memOk) :
    (s.mapPeer part remModule remPart f).memOk := ok

theorem State.memOk.execPeerSet {fn : Nat} {s : State} (ok : s.memOk) : (execPeerSet fn s).memOk := by
  simp only [Machine.execPeerSet]
  refine ok.command ?_
  intro x
  split
  · exact ok
  · split
    · exact ok
    · exact ok.mapPeer.send

theorem State.memOk.execPeerBindingRequest {remModule remPart part : Nat} {granules : List (Nat × Nat)}
    {s : State} (ok : s.memOk) :
    (execPeerBindingRequest remModule remPart part granules s).memOk := by
  unfold Machine.execPeerBindingRequest
  split <;> exact ok

theorem State.memOk.execPeerBindingEnd {remModule remPart part : Nat} {s : State} (ok : s.memOk) :
    (execPeerBindingEnd remModule remPart part s).memOk := by
  unfold Machine.execPeerBindingEnd
  split
  · exact ok
  · exact State.memOk.endAccesses (State.memOk.awaitNone (ok.of_mem rfl))

theorem State.memOk.execStrandResume {fn : Nat} {s : State} (ok : s.memOk) : (execStrandResume fn s).memOk := by
  unfold Machine.execStrandResume
  refine ok.command ?_
  intro x
  split
  · exact ok
  · split
    · exact ok
    · exact ok.mapStrand

theorem State.memOk.execStrandKill {fn : Nat} {s : State} (ok : s.memOk) : (execStrandKill fn s).memOk := by
  unfold Machine.execStrandKill
  refine ok.command ?_
  intro x
  split
  · exact ok
  · split
    · exact ok
    · split
      · exact trivial
      · exact ok.onStrand (fun t ht => ht.exitSeat)

theorem State.memOk.execPagerSet {fn : Nat} {s : State} (ok : s.memOk) : (execPagerSet fn s).memOk := by
  simp only [Machine.execPagerSet]
  refine ok.command ?_
  intro x
  split
  · exact ok
  · split
    · exact ok
    · exact ok.setPart

theorem State.memOk.execGraphUnload {fn : Nat} {s : State} (ok : s.memOk) : (execGraphUnload fn s).memOk := by
  unfold Machine.execGraphUnload
  refine ok.command ?_
  intro x
  split
  · exact ok
  · split
    · exact ok
    · refine .foldl ?_ (fun t x' ht => ht.setDie)
      exact ok

theorem State.memOk.execFeatures {fn : Nat} {s : State} (ok : s.memOk) : (execFeatures fn s).memOk :=
  ok.command (fun _ => ok)

theorem State.memOk.reading {s : State} {source die : Nat} (ok : s.memOk) : (s.reading source die).2.memOk := by
  unfold State.reading
  split
  · exact ok.freeValue
  · split
    · exact ok
    · split
      · exact ok
      · split
        · exact ok
        · split <;> exact ok

theorem State.memOk.execSubscribe {fn : Nat} {s : State} (ok : s.memOk) : (execSubscribe fn s).memOk := by
  simp only [Machine.execSubscribe]
  refine ok.command ?_
  intro x
  split
  · exact ok
  · split
    · exact ok
    · exact ok.reading.setPart

/-! ## Debug commands -/

theorem State.memOk.execDebugInstall {fn : Nat} {s : State} (ok : s.memOk) : (execDebugInstall fn s).memOk := by
  simp only [Machine.execDebugInstall]
  refine ok.command ?_
  intro x
  split
  · split
    · exact ok
    · exact ok.disturb
  · split <;> exact ok.setPart

theorem State.memOk.haltStrand {s : State} {t : Strand} (ok : s.memOk) : (s.haltStrand t).memOk := by
  unfold State.haltStrand
  refine .onStrand ?_ (fun t' ht => ht.endGang)
  exact ok.leaveCell

theorem State.memOk.debugRead {s : State} {p : Nat} {a : Word} {n : Nat} (ok : s.memOk) : (s.debugRead p a n).s.memOk := by
  unfold State.debugRead
  split
  · exact ok
  · exact ok

theorem State.memOk.debugHalt {s : State} {p : Nat} {a : Word} {n : Nat} (ok : s.memOk) :
    Reply.memOk (s.debugHalt p a n) := by
  simp only [State.debugHalt]
  split
  · exact ok
  · split
    · exact trivial
    · split
      · exact ok
      · exact ok.haltStrand

theorem State.memOk.debugWrite {s : State} {p fn : Nat} {a : Word} {n : Nat} (ok : s.memOk) :
    (s.debugWrite p fn a n).s.memOk := by
  unfold State.debugWrite
  split
  · show State.memOk _
    split
    · exact ok.plainKeys.writeRange
    · exact ok.wrWake
  · exact ok

theorem State.memOk.debugPerf {s : State} {n : Nat} (ok : s.memOk) : (s.debugPerf n).s.memOk := by
  have free (l : List Nat) : ∀ q : List Word × State, q.2.memOk → (l.foldl (fun q _ =>
      (q.1 ++ [q.2.freeValue.1.truncate 64], q.2.freeValue.2)) q).2.memOk := by
    induction l with
    | nil => exact fun _ hq => hq
    | cons x l ih => exact fun q hq => ih _ hq
  exact free _ _ ok

theorem State.memOk.execDebugCmd {fn : Nat} {s : State} (ok : s.memOk) : (execDebugCmd fn s).memOk := by
  refine ok.command fun p => ?_
  dsimp only
  split
  · exact ok
  · split
    · exact ok
    · split
      · exact ok.debugPerf
      · split
        · show State.memOk (Reply.s _)
          split
          · exact ok.debugRead
          · exact ok
        · split
          · exact ok.debugHalt
          · split
            · exact ok.debugRead
            · exact ok.debugWrite

/-! ## Served packets -/

theorem State.memOk.addPacket {s : State} {p : Packet} (ok : s.memOk) : (s.addPacket p).memOk := by
  unfold State.addPacket
  refine .enterWaiting ?_
  exact ok

theorem State.memOk.execServe {d a : BitVec 6} {h : BitVec 4} {n : BitVec 8} {s : State} (ok : s.memOk) :
    (execServe d a h n s).memOk := by
  simp only [Machine.execServe]
  split
  · exact ok.trap
  · split
    · exact ok.trap
    · split
      · exact ok.trap
      · split
        · exact ok.trap
        · split
          · exact ok.trap
          · exact ok.addPacket

theorem State.memOk.dropPacket {s : State} {pid : Nat} (ok : s.memOk) : (s.dropPacket pid).memOk := ok

theorem State.memOk.execServeInject {pid : Nat} {s : State} (ok : s.memOk) : (execServeInject pid s).memOk := by
  simp only [Machine.execServeInject]
  split
  · exact ok
  · split
    · exact ok
    · split
      · exact ok
      · split <;> exact ok

theorem State.memOk.releaseTag {s : State} {r : Region} {tag : Nat} (ok : s.memOk) : (s.releaseTag r tag).memOk :=
  ok.foldl (fun _ _ ht => ht.commitStore)

theorem State.memOk.lostStep {s : State} {r : Region} (ok : s.memOk) : (s.lostStep r).memOk := by
  unfold State.lostStep
  refine .foldl ?_ (fun t x ht => ht.enterWaiting)
  refine .freeRegion ?_
  exact ok

theorem State.memOk.packetLeft {s : State} {r : Region} (ok : s.memOk) : (s.packetLeft r).memOk := by
  unfold State.packetLeft
  split <;> exact ok

theorem State.memOk.execServedExit {rid : Nat} {s : State} (ok : s.memOk) : (execServedExit rid s).memOk := by
  simp only [Machine.execServedExit]
  split
  · exact ok
  · split
    · exact ok
    · split
      · exact ok
      · split
        · exact ok.lostStep
        · split
          · exact ok
          · split
            · refine .packetLeft ?_
              exact ok
            · split
              · exact ok
              · refine .packetLeft ?_
                refine .releaseTag ?_
                exact ok

theorem State.memOk.execServeResultArrival {pid : Nat} {s : State} (ok : s.memOk) :
    (execServeResultArrival pid s).memOk := by
  unfold Machine.execServeResultArrival
  split
  · exact ok
  · split
    · exact ok
    · split
      · exact ok
      · split
        · exact ok
        · refine .onStrand ?_ (fun t ht => ht.setGs)
          exact ok
        · refine .onStrand ?_ (fun t ht => ht.trap)
          exact ok

/-! ## Evaluation requests -/

theorem State.memOk.evalPacket {s : State} {e : Eclosion} {die cluster idx : Nat} (ok : s.memOk) :
    (s.evalPacket e die cluster idx).memOk := by
  unfold State.evalPacket
  refine .addPacket ?_
  exact ok

theorem State.memOk.release {s : State} {e : Eclosion} (ok : s.memOk) : (s.release e).memOk := by
  simp only [State.release]
  split
  · exact ok
  · split
    · refine .evalPacket ?_
      exact ok
    · exact ok

theorem State.memOk.execEvalRequestRelease {die part : Nat} {s : State} (ok : s.memOk) :
    (execEvalRequestRelease die part s).memOk := by
  simp only [Machine.execEvalRequestRelease]
  split
  · exact ok.evalPacket
  · split
    · exact ok
    · split
      · exact ok
      · exact ok.release

theorem State.memOk.fillCell {s : State} {die cluster idx : Nat} {ws : List Word} (ok : s.memOk) :
    (s.fillCell die cluster idx ws).memOk := by
  simp only [State.fillCell]
  split
  · exact ok
  · split
    · refine .endEclosion ?_
      refine .setTag ?_
      refine .wrBytes ?_
      refine .wr ?_
      exact ok
    · exact ok

theorem State.memOk.execEvalPacketResult {pid : Nat} {s : State} (ok : s.memOk) : (execEvalPacketResult pid s).memOk := by
  unfold Machine.execEvalPacketResult
  split
  · exact ok
  · split
    · exact ok
    · split
      · exact ok
      · split
        · exact ok
        · exact ok.dropPacket.fillCell
        · exact ok.dropPacket.poisonCell

/-! ## Graphs -/

theorem State.memOk.writeVa {s : State} {x : Site} {n a : Nat} {bs : List Byte} (ok : s.memOk) :
    (s.writeVa x n a bs).memOk := by
  induction n generalizing s a bs with
  | zero => exact ok
  | succ n ih =>
    simp only [State.writeVa]
    split
    · exact ok
    · refine ih ?_
      split
      · exact ok.useKeys.writeRange
      · exact ok

theorem State.memOk.putVa {s : State} {x : Site} {a : Nat} {bs : List Byte} (ok : s.memOk) : (s.putVa x a bs).memOk :=
  ok.writeVa

theorem State.memOk.cacheWrite {s : State} {x : Site} {window : Nat} {key : BitVec 256} {u : CacheUse} (ok : s.memOk) :
    (s.cacheWrite x window key u).memOk := by
  unfold State.cacheWrite
  split
  · exact ok.putVa
  · exact ((ok.foldl (fun t x' ht => ht.putVa)).putVa).putVa

theorem State.memOk.writeCellsSection {s : State} {x : Site} {k : Container} {key : BitVec 256} {y : Section}
    {b : List Byte} (ok : s.memOk) :
    (s.writeCellsSection x k key y b).memOk := by
  simp only [State.writeCellsSection]
  refine ok.foldl ?_
  intro t x' ht
  split
  · split
    · exact ht.putVa.setTag
    · exact ht.putVa
  · exact ht.putVa

theorem State.memOk.writeSection {s : State} {x : Site} {k : Container} {key : BitVec 256} {gen slot : Nat}
    {y : Section} (ok : s.memOk) :
    (s.writeSection x k key gen slot y).memOk := by
  unfold State.writeSection
  split
  · exact ok.writeCellsSection
  · split
    · exact ok.putVa
    · exact ok

theorem State.memOk.loadGraph {s : State} {x : Site} {window wlen : Nat} {k : Container} (ok : s.memOk) :
    (s.loadGraph x window wlen k).s.memOk := by
  simp only [State.loadGraph]
  split
  · exact (ok.cacheWrite.foldl fun t y ht => ht.writeSection).of_mem rfl
  · exact ok

theorem State.memOk.execGraphLoad {fn : Nat} {s : State} (ok : s.memOk) : (execGraphLoad fn s).memOk := by
  refine ok.command fun p => ?_
  show State.memOk (Reply.s _)
  split
  · exact ok.loadGraph
  · exact ok

/-! ## The host port -/

theorem State.memOk.execLaunchMessage {fn : Nat} {msg : BitVec 512} {whole : Bool} {s : State} (ok : s.memOk) :
    (execLaunchMessage fn msg whole s).memOk := by
  simp only [Machine.execLaunchMessage]
  split
  · exact ok
  · split
    · exact ok
    · split
      · exact ok.post
      · exact ok

theorem State.memOk.statusRead {s : State} {fn : Nat} (ok : s.memOk) : (s.statusRead fn).memOk := by
  simp only [State.statusRead]
  split
  · exact ok
  · split
    · exact ok
    · split
      · exact ok
      · split
        · exact ok
        · refine .post ?_
          exact ok

theorem State.memOk.startRoots {s : State} {l : Launch} {arg0 arg1 : Word} (ok : s.memOk) :
    (s.startRoots l arg0 arg1).memOk := ok.foldl (fun _ _ ht => ht)

theorem State.memOk.admitLaunch {s : State} {fn die : Nat} {m : BitVec 512} {k : Kernel} (ok : s.memOk) :
    (s.admitLaunch fn die m k).memOk := by
  unfold State.admitLaunch
  refine .startRoots ?_
  refine .post ?_
  exact ok

theorem State.memOk.execLaunchAdmission {fn : Nat} {s : State} (ok : s.memOk) : (execLaunchAdmission fn s).memOk := by
  have refused (x : HostFn) (c die tag : Nat) : Out.memOk (.next ((s.setFn fn x).post fn (statusRec 2 c 0 die tag))) :=
    ok.setFn.post
  fun_cases Machine.execLaunchAdmission fn s
  case case1 => exact ok
  case case2 => exact ok
  case case3 => exact refused _ _ _ _
  case case4 => exact refused _ _ _ _
  case case5 => exact ok
  case case6 => exact refused _ _ _ _
  case case7 => exact refused _ _ _ _
  case case8 => exact refused _ _ _ _
  case case9 => exact ok.setFn.admitLaunch

theorem State.memOk.execLaunchComplete {die lid : Nat} {s : State} (ok : s.memOk) :
    (execLaunchComplete die lid s).memOk := by
  simp only [Machine.execLaunchComplete]
  split
  · exact ok
  · split
    · exact ok
    · split
      · refine .post ?_
        exact ok.foldl (fun t x ht => ht.freeRegion)
      · refine .signal ?_
        refine .post ?_
        exact ok.foldl (fun t x ht => ht.freeRegion)

theorem State.memOk.execEqheadWrite {fn : Nat} {value : Word} {s : State} (ok : s.memOk) :
    (execEqheadWrite fn value s).memOk := by
  unfold Machine.execEqheadWrite
  split <;> exact ok

theorem State.memOk.execEventQueueAppend {fn : Nat} {s : State} (ok : s.memOk) : (execEventQueueAppend fn s).memOk := by
  simp only [Machine.execEventQueueAppend]
  split
  · exact ok
  · split
    · exact ok
    · refine .signal ?_
      exact ok

theorem State.memOk.writeMsix {s : State} {fn idx : Nat} {value : BitVec 128} (ok : s.memOk) :
    (s.writeMsix fn idx value).memOk := by
  simp only [State.writeMsix]
  split
  · exact ok
  · split
    · exact ok.toError
    · split
      · exact ok.setFn.setFn.signal
      · exact ok.setFn

theorem State.memOk.execRegisterWrite {fn offset : Nat} {value : Word} {s : State} (ok : s.memOk) :
    (execRegisterWrite fn offset value s).memOk := by
  simp only [Machine.execRegisterWrite]
  split
  · exact ok
  · split
    · exact ok.execEqheadWrite
    · split
      · split
        · exact ok.setFn
        · exact ok
      · split
        · exact ok.setFn
        · split
          · exact ok.writeMsix
          · exact ok

theorem State.memOk.barRead {s : State} {fn off len : Nat} (ok : s.memOk) : (s.barRead fn off len).memOk := by
  unfold State.barRead
  split
  · exact ok
  · split
    · exact ok
    · split
      · exact ok.statusRead
      · exact ok

theorem State.memOk.dmaCharge {s : State} {fn : Nat} {ps : List (Nat × Nat × Nat)} (ok : s.memOk) :
    (s.dmaCharge fn ps).memOk := ok.foldl (fun _ _ ht => ht.charge)

theorem State.memOk.execHostDmaRead {fn : Nat} {trusted : Bool} {addr len : Nat} {s : State} (ok : s.memOk) :
    (execHostDmaRead fn trusted addr len s).memOk := by
  simp only [Machine.execHostDmaRead]
  split
  · exact ok
  · split
    · exact ok
    · exact ok.dmaCharge.foldl (fun t x ht => ht.useKeys)

theorem State.memOk.execHostDmaWrite {fn : Nat} {trusted : Bool} {addr : Nat} {data : List (BitVec 8)} {s : State}
    (ok : s.memOk) : (execHostDmaWrite fn trusted addr data s).memOk := by
  have writes (l : List (Nat × Nat × Nat)) : ∀ q : State × List Byte, q.1.memOk → (l.foldl (fun a p =>
      ((a.1.useKeys fn p.2.1 p.1 p.2.2).writeRange p.1 (a.2.take p.2.2), a.2.drop p.2.2)) q).1.memOk := by
    induction l with
    | nil => exact fun _ hq => hq
    | cons p l ih => exact fun q hq => ih _ hq.useKeys.writeRange
  simp only [Machine.execHostDmaWrite]
  split
  · exact ok
  · split
    · exact ok
    · exact writes _ _ ok.dmaCharge

theorem State.memOk.execIdeStreamLoss {fn : Nat} {s : State} (ok : s.memOk) : (execIdeStreamLoss fn s).memOk := by
  unfold Machine.execIdeStreamLoss
  split
  · exact ok.setFn
  · exact ok.setFn.disturb

/-! ## Messages and paging -/

theorem State.memOk.appendQ0 {s : State} {uid : Nat} {m : Msg} (ok : s.memOk) : (s.appendQ0 uid m).memOk := by
  unfold State.appendQ0
  split
  · exact ok
  · split
    · refine .wrBytes ?_
      exact ok
    · exact ok

theorem State.memOk.deliverFaults {s : State} {part die : Nat} (ok : s.memOk) :
    (s.deliverFaults part die).memOk := by
  simp only [State.deliverFaults]
  split
  · exact ok
  · split
    · split <;> exact ok
    · refine .foldl ?_ (fun t x ht => ht.appendQ0)
      split <;> exact ok

theorem State.memOk.deliverAll {s : State} {die : Nat} (ok : s.memOk) : (s.deliverAll die).memOk :=
  ok.foldl (fun _ _ ht => ht.deliverFaults)

theorem State.memOk.execPageFaultMessage {idx : Nat} {s : State} (ok : s.memOk) : (execPageFaultMessage idx s).memOk := by
  unfold Machine.execPageFaultMessage
  split
  · exact ok
  · split
    · refine .deliverFaults ?_
      exact ok
    · split
      · exact ok.deliverAll
      · split
        · exact ok
        · refine .deliverFaults ?_
          exact ok

theorem State.memOk.replyStrand {s : State} {m : ReplyMsg} {uid : Nat} (ok : s.memOk) : (s.replyStrand m uid).memOk := by
  unfold State.replyStrand
  split
  · exact ok.onStrand (fun t ht => ht.unlessDeferred (fun t' ht' => ht'.trap))
  · exact ok

theorem State.memOk.replyPort {s : State} {m : ReplyMsg} {rid row : Nat} (ok : s.memOk) :
    (s.replyPort m rid row).memOk := by
  unfold State.replyPort
  split
  · exact ok
  · split
    · exact ok
    · split
      · refine ok.foldl ?_
        intro t x ht
        split
        · exact ht
        · split
          · exact ht
          · split
            · exact ht.spillFault
            · exact ht
      · exact ok.setRegion

theorem State.memOk.replyChild {s : State} {m : ReplyMsg} {p : Nat} (ok : s.memOk) : (s.replyChild m p).memOk := by
  unfold State.replyChild
  split
  · exact ok
  · exact ok
  · split
    · exact ok.foldl (fun t x ht => ht.replyStrand)
    · exact ok.foldl (fun t x ht => ht.foldl (fun t' x' ht' => ht'.replyPort))

theorem State.memOk.registerFaults {s : State} {m : ReplyMsg} (ok : s.memOk) : (s.registerFaults m).memOk := by
  unfold State.registerFaults
  split
  · refine .foldl ?_ (fun t x ht => ht)
    exact ok
  · exact ok

theorem State.memOk.execPagerReplyDescent {idx : Nat} {s : State} (ok : s.memOk) :
    (execPagerReplyDescent idx s).memOk := by
  unfold Machine.execPagerReplyDescent
  split
  · exact ok
  · refine .foldl ?_ (fun t x ht => ht.replyChild)
    exact ok.registerFaults

theorem State.memOk.pagerReply {s : State} {t : Strand} {x : Word} (ok : s.memOk) : (s.pagerReply t x).memOk := by
  unfold State.pagerReply
  split
  · exact ok
  · split <;> exact ok

theorem State.memOk.answerSend {s : State} (ok : s.memOk) : (s.answerSend).memOk := by
  simp only [State.answerSend]
  split
  · exact ok
  · split
    · exact ok.pagerReply
    · split
      · exact ok.countDrops
      · split
        · exact ok.countDrops
        · split
          · refine .trap ?_
            exact ok
          · exact ok.appendQ0

theorem State.memOk.execMessageDelivery {uid : Nat} {s : State} (ok : s.memOk) : (execMessageDelivery uid s).memOk :=
  ok.onStrand (fun _ ht => ht.answerSend)

theorem State.memOk.execWalkComplete {uid : Nat} {va : Word} {s : State} (ok : s.memOk) :
    (execWalkComplete uid va s).memOk := by
  unfold Machine.execWalkComplete
  split
  · exact ok
  · split
    · exact ok.translate
    · exact ok

/-! ## Saves of residencies -/

theorem State.memOk.execResidencySaveRequest {die cluster entry : Nat} {s : State} (ok : s.memOk) :
    (execResidencySaveRequest die cluster entry s).memOk := by
  unfold Machine.execResidencySaveRequest
  split
  · exact ok
  · split
    · exact ok
    · split <;> exact ok

theorem State.memOk.execBoundarySave {die cluster entry : Nat} {s : State} (ok : s.memOk) :
    (execBoundarySave die cluster entry s).memOk := by
  unfold Machine.execBoundarySave
  split
  · exact ok
  · split <;> exact ok

theorem State.memOk.execBoundarySaveTimeout {die cluster entry : Nat} {s : State} (ok : s.memOk) :
    (execBoundarySaveTimeout die cluster entry s).memOk := by
  unfold Machine.execBoundarySaveTimeout
  split
  · exact ok
  · split
    · split <;> exact ok
    · exact ok

theorem State.memOk.execFreezeSave {die cluster entry : Nat} {s : State} (ok : s.memOk) :
    (execFreezeSave die cluster entry s).memOk := by
  unfold Machine.execFreezeSave
  split
  · exact ok
  · split
    · exact ok
    · split
      · exact ok
      · exact ok.leaveSpills

/-! ## Power, time and bring-up -/

theorem State.memOk.doing {s : State} {f : State → Out} (ok : s.memOk) (hf : ∀ t, t.memOk → (f t).memOk) :
    (s.doing f).memOk := by
  unfold State.doing
  split
  · next e => exact (hf s ok).of_eq e
  · exact ok

theorem State.memOk.needAll {s : State} {p die : Nat} (ok : s.memOk) : (s.needAll p die).memOk :=
  ok.foldl (fun _ _ ht => ht)

theorem State.memOk.refillPart {s : State} {p : Nat} (ok : s.memOk) : (s.refillPart p).memOk := by
  unfold State.refillPart
  refine .foldl ?_ ?_
  · exact ok
  · intro t x ht
    refine .foldl ?_ ?_
    · split
      · exact ht.needAll
      · exact ht
    · intro t' x' ht'
      split
      · exact ht'.raiseAll
      · exact ht'

theorem State.memOk.askFrond {s : State} (ok : s.memOk) : (s.askFrond).memOk := by
  unfold State.askFrond
  refine ok.foldl ?_
  intro t x ht
  split
  · exact ht.doing (fun t' ht' => ht'.execResidencySaveRequest)
  · exact ht

theorem State.memOk.sampleSub {s : State} {p : Nat} {b : Subscription} (ok : s.memOk) : (s.sampleSub p b).memOk := by
  simp only [State.sampleSub]
  split
  · exact ok
  · split
    · split
      · exact ok.reading.setPart.raise
      · exact ok.reading.setPart
    · split
      · exact ok.reading.setPart.raise
      · exact ok.reading.setPart

theorem State.memOk.closeDroop {s : State} (ok : s.memOk) : (s.closeDroop).memOk := ok

theorem State.memOk.execPeriodBoundary {s : State} (ok : s.memOk) : (execPeriodBoundary s).memOk := by
  unfold Machine.execPeriodBoundary
  split
  · exact ok
  · refine .foldl ?_ (fun t x ht => ht.foldl (fun t' x' ht' => ht'.sampleSub))
    refine .foldl ?_ (fun t x ht => ht.refillPart)
    refine .closeDroop ?_
    refine .askFrond ?_
    exact ok

theorem State.memOk.setPower {s : State} {p : Power} (ok : s.memOk) : (s.setPower p).memOk := ok

theorem State.memOk.execArbiterInterval {power broadDraw narrowDraw : Nat} {s : State} (ok : s.memOk) :
    (execArbiterInterval power broadDraw narrowDraw s).memOk := by
  simp only [Machine.execArbiterInterval]
  split <;> exact ok

theorem State.memOk.execSlackWindow {busy : Nat} {s : State} (ok : s.memOk) : (execSlackWindow busy s).memOk := by
  unfold Machine.execSlackWindow
  split <;> exact ok

theorem State.memOk.execDroopDetection {die cluster drop : Nat} {s : State} (ok : s.memOk) :
    (execDroopDetection die cluster drop s).memOk := by
  simp only [Machine.execDroopDetection]
  split <;> exact ok

theorem State.memOk.execDroopFreezeEnd {die cluster : Nat} {s : State} (ok : s.memOk) :
    (execDroopFreezeEnd die cluster s).memOk := by
  simp only [Machine.execDroopFreezeEnd]
  split <;> exact ok

theorem State.memOk.execRowTempSample {die cluster frond row temp : Nat} {s : State} (ok : s.memOk) :
    (execRowTempSample die cluster frond row temp s).memOk := by
  simp only [Machine.execRowTempSample]
  split <;> exact ok

theorem State.memOk.markWord {s : State} {l : Nat} (ok : s.memOk) : (s.markWord l).memOk := by
  simp only [State.markWord]
  split <;> exact ok

theorem State.memOk.execDramScrub {die line : Nat} {uncorrectable : Bool} {s : State} (ok : s.memOk) :
    (execDramScrub die line uncorrectable s).memOk := by
  simp only [Machine.execDramScrub]
  split <;> exact ok

theorem State.memOk.execClusterHardFailure {die cluster : Nat} {s : State} (ok : s.memOk) :
    (execClusterHardFailure die cluster s).memOk := ok.setCluster.foldl (fun _ _ ht => ht.disturb)

theorem State.memOk.clearCluster {s : State} {die cluster : Nat} (ok : s.memOk) :
    (s.clearCluster die cluster).memOk := by
  unfold State.clearCluster
  refine (ok.foldl (fun t x ht => ht.doing (fun t' ht' => ht'.execStrandSave))).foldl ?_
  intro t x ht
  split
  · exact ht.doing (fun t' ht' => ht'.execResidencySaveRequest)
  · split
    · exact ht
    · exact ht.evictFree

theorem State.memOk.execClusterMapOut {die cluster : Nat} {s : State} (ok : s.memOk) :
    (execClusterMapOut die cluster s).memOk := by
  simp only [Machine.execClusterMapOut]
  split
  · exact ok
  · split
    · exact ok.execClusterHardFailure
    · split
      · exact ok.clearCluster
      · exact ok.clearCluster.setDie.setCluster

theorem State.memOk.execFirmwareVerify {digest : BitVec 256} {key sig : BitVec 512} {version : Nat} {s : State}
    (ok : s.memOk) : (execFirmwareVerify digest key sig version s).memOk := by
  unfold Machine.execFirmwareVerify
  split <;> exact ok

theorem State.memOk.joinDomain {s : State} (ok : s.memOk) : (s.joinDomain).memOk := ok.freeValue

theorem State.memOk.execDieTraining {die : Nat} {passed : Bool} {spareFor : Option Nat} {s : State} (ok : s.memOk) :
    (execDieTraining die passed spareFor s).memOk := by
  unfold Machine.execDieTraining
  extract_lets d started t
  have trained : t.memOk := by
    unfold t
    split
    · exact ok.setDie.setCluster
    · exact ok.setDie
  split
  · exact ok
  · split
    · exact ok.setDie
    · split
      · exact trained.joinDomain.of_mem rfl
      · exact trained

theorem State.memOk.execFullService {s : State} (ok : s.memOk) : (execFullService s).memOk := by
  unfold Machine.execFullService
  split
  · refine .foldl ?_ (fun t x ht => ht)
    exact ok
  · exact ok

theorem State.memOk.execFullServiceNotchStep {s : State} (ok : s.memOk) : (execFullServiceNotchStep s).memOk := by
  simp only [Machine.execFullServiceNotchStep]
  split
  · exact ok
  · split <;> exact ok

/-! ## Commands of residencies -/

theorem State.memOk.onOwned {s : State} {a : BitVec 6} {i : Instr} {f : Residency → State → State} (ok : s.memOk)
    (hf : ∀ x t, t.memOk → (f x t).memOk) :
    (s.onOwned a i f).memOk := by
  unfold State.onOwned
  split
  · exact ok.trap
  · exact hf _ _ ok

theorem State.memOk.makeResidency {s : State} {d : BitVec 6} {l : Launch} {im : Image} {id x : Word} {entry : Nat}
    (ok : s.memOk) :
    (s.makeResidency d l im id x entry).memOk := by
  unfold State.makeResidency
  refine .wrBytes ?_
  exact ok

theorem State.memOk.execFrld {d a b : BitVec 6} {s : State} (ok : s.memOk) :
    (execFrld d a b s).memOk := by
  simp only [Machine.execFrld]
  split
  · exact ok.trap
  · split
    · exact ok.trap
    · split
      · exact ok.trap
      · split
        · exact ok.trap
        · split
          · split
            · exact ok.trap
            · split
              · exact ok.trap
              · exact ok.makeResidency.markBusy.adv
          · split
            · exact ok.trap
            · split
              · exact ok.trap
              · exact ok.makeResidency.markBusy.adv

theorem State.memOk.execFrbind {d a b : BitVec 6} {s : State} (ok : s.memOk) :
    (execFrbind d a b s).memOk := by
  simp only [Machine.execFrbind]
  refine ok.onOwned ?_
  intro x t ht
  split
  · exact ht.trap
  · exact ht

theorem State.memOk.sendConst {s : State} {y : Residency} {c : Nat × Nat × Bool × BitVec 32} (ok : s.memOk) :
    (s.sendConst y c).memOk := by
  unfold State.sendConst
  split
  · exact ok
  · split
    · exact ok
    · split <;> exact ok

theorem State.memOk.execArgw {d a b : BitVec 6} {s : State} (ok : s.memOk) :
    (execArgw d a b s).memOk := by
  simp only [Machine.execArgw]
  refine ok.onOwned ?_
  intro x t ht
  split
  · exact ht.trap
  · exact ht.sendConst

theorem State.memOk.execFrgo {a : BitVec 6} {s : State} (ok : s.memOk) : (execFrgo a s).memOk := by
  unfold Machine.execFrgo
  refine ok.onOwned ?_
  intro x t ht
  split
  · exact ht.trap
  · exact ht

theorem State.memOk.resume {s : State} {a : BitVec 6} {y : Residency} (ok : s.memOk) : (s.resume a y).memOk := by
  simp only [State.resume]
  split
  · exact ok.trap
  · split
    · exact ok
    · split <;> exact ok

theorem State.memOk.execFrbar {a : BitVec 6} {s : State} (ok : s.memOk) : (execFrbar a s).memOk := by
  unfold Machine.execFrbar
  refine ok.onOwned ?_
  intro x t ht
  split
  · exact ht.resume
  · split
    · split <;> exact ht
    · exact ht
  · exact ht

theorem State.memOk.execFrwait {a : BitVec 6} {s : State} (ok : s.memOk) : (execFrwait a s).memOk := by
  unfold Machine.execFrwait
  refine ok.onOwned ?_
  intro x t ht
  split
  · exact ht
  · split
    · exact ht
    · exact ht.freeResidency

end Sys2Proof.Machine
end

