-- ==== Sys2Proof/Proofs/MemStep.lean ====
section
/-! SUPPORT. Memory in canonical form: every step (O60), and the reset state (O59). -/
namespace Sys2Proof.Machine

/-! ## Core cycles -/

theorem State.memOk.chargeFronds {s : State} {n : Nat} (ok : s.memOk) : (s.chargeFronds n).memOk :=
  ok.foldl (fun _ _ ht => ht.charge)

theorem State.memOk.cycles {s : State} {n : Nat} (ok : s.memOk) : (s.cycles n).memOk := by
  unfold State.cycles
  refine .flushLinks ?_
  refine .chargeFronds ?_
  exact ok

theorem State.memOk.outside {s : State} {y : Outside} (ok : s.memOk) : (s.outside y).memOk := by
  unfold State.outside
  split
  · exact ok
  · exact ok
  · exact ok
  · exact ok.barRead
  · exact ok.markWord
  · exact ok

/-! ## Instructions and events -/

theorem State.memOk.exec {i : Instr} {s : State} (ok : s.memOk) : Out.memOk (exec i s) := by
  cases i with
  | add | addN | sub | subN | mul | mulN | div | divN | rem | remN | min | minN | max | maxN => exact ok.arith
  | mulh => exact ok.execMulh
  | mulhN => exact ok.execMulhN
  | and | or | xor | andn | sel | addImm | addWImm | mulImm | andImm | orImm | xorImm | bfx | bfxN | bfi | hmix | movi
    | movhi | addpc | fcls | fmvCp | fmvNeg | fmvAbs | fmvSgn | vredSum | vredMax | vredMin | vdot | vget | tblr
    | kopGet | kcnt => exact ok.put
  | shl | shlImm => exact ok.shlBy
  | shr | shrImm => exact ok.shrBy
  | sha | shaImm => exact ok.shaBy
  | ror | rorImm => exact ok.rorBy
  | clz | ctz | popc | brev => exact ok.unary
  | bswp => exact ok.execBswp
  | shadd1 | shadd2 | shadd3 | shadd4 => exact ok.shadd
  | cmpEq | cmpNe | cmpLt | cmpGe | cmpLtn | cmpGen => exact ok.cmpOp
  | limm | limmN => exact ok.setG.adv8
  | bCond => exact ok.execBCond
  | jmp => exact ok.setPc
  | call => exact ok.setG.setPc
  | jr | callr => exact ok.jumpTo (fun t ht => ht)
  | fadd => exact ok.execFadd
  | fsub => exact ok.execFsub
  | fmul => exact ok.execFmul
  | fdiv => exact ok.execFdiv
  | fsqrt | fmin | fmax | fcmp | vredSumS | vredMaxS | vredMinS | vdotS => exact ok.putF
  | fmaFma | fmaFms | fmaFnma => exact ok.fop3
  | fcvt => exact ok.setG.mergeFlags.adv
  | vadd | vsub | vmul | vlogAnd | vlogOr | vlogXor | vaddSat | vaddNSat | vsubSat | vsubNSat => exact ok.vop2
  | vmin => exact ok.execVmin
  | vminN => exact ok.execVminN
  | vmax => exact ok.execVmax
  | vmaxN => exact ok.execVmaxN
  | vshShl => exact ok.execVshShl
  | vshShr => exact ok.execVshShr
  | vshSha => exact ok.execVshSha
  | vscan | vscanS => exact ok.scan
  | vsel | vins | vcmpr => exact ok.setLanes
  | vcmp | vcmpS => exact ok.lanecmp
  | vaddS => exact ok.execVaddS
  | vsubS => exact ok.execVsubS
  | vmulS => exact ok.execVmulS
  | vfmaS | vperm | vsplat | vexpd | vdec | venc | vcvt => exact ok.lanewise
  | vminS => exact ok.execVminS
  | vmaxS => exact ok.execVmaxS
  | vsfuRcp | vsfuRsq | vsfuEx2 | vsfuLg2 | vsfuTnh => exact ok.vsfu
  | tblw => exact ok.execTblw
  | kopAnd | kopOr | kopXor | kopAndn | kopSet => exact ok.setMask
  | gang => exact ok.execGang
  | split => exact ok.execSplit
  | ld | ldx | ldAcq => exact ok.loadG
  | st | stx => exact ok.storeG
  | vld | vlds | vgth => exact ok.vload
  | vst | vsts | vsct => exact ok.vstore
  | stRel => exact ok.releasing (fun t ht => ht.storeG)
  | pref a => exact ok.execPref (y := a)
  | fence => exact ok.execFence
  | cwb | cinv | yield => exact ok.adv
  | amoAdd | amoAnd | amoOr | amoXor | amoMin | amoMax | amoMinn | amoMaxn | amoSwp | amoFadd
    | acas => exact ok.atomic
  | ldfe | ldff => exact ok.feLoad
  | stef => exact ok.execStef
  | stff => exact ok.feAt (fun x t ht => ht.storeWord)
  | feget | fesetEmpty | fesetFull => exact ok.feAt (fun x t ht => ht)
  | send | sendv => exact ok
  | recvG => exact ok.execRecvG
  | recvV => exact ok.execRecvV
  | qpoll => exact ok.execQpoll
  | qbind => exact ok.execQbind
  | qfree => exact ok.execQfree
  | cpy | cpy2 => exact ok.issueCopy
  | bwait => exact ok.execBwait
  | serve => exact ok.execServe
  | frld => exact ok.execFrld
  | frbind => exact ok.execFrbind
  | frgo => exact ok.execFrgo
  | frbar => exact ok.execFrbar
  | frwait => exact ok.execFrwait
  | argw => exact ok.execArgw
  | spawnCore | spawnCluster | spawnDie => exact ok.spawn
  | spawnNamed => exact ok.execSpawnNamed
  | exit => exact ok.execExit
  | twait => exact ok.execTwait
  | csus => exact ok.execCsus
  | cfrc => exact ok.execCfrc
  | cfil => exact ok.execCfil
  | ccan => exact ok.execCcan
  | ccanP => exact ok.execCcanP
  | ctag => exact ok.execCtag
  | trap | brk => exact ok.enterTrap
  | eret => exact ok.privileged (fun t ht => ht.returnFromTrap)
  | halt | tlbiPage | tlbiPart => exact ok.privileged (fun t ht => ht)
  | ctlr => exact ok.execCtlr
  | ctlw => exact ok.execCtlw
  | tlbiAsid => exact ok.execTlbiAsid
  | resultLands => exact ok.execResultLands
  | strandWake => exact ok.execStrandWake
  | fewaitExpiry => exact ok.onStrand (fun t ht => ht.unlessDeferred (fun t' ht' => ht'.trap))
  | twaitDeadline => exact ok.onStrand (fun t ht => ht)
  | celltmoExpiry => exact ok.onStrand (fun t ht => ht.unlessDeferred (fun t' ht' => ht'.leaveCell.trap))
  | mpCellWaitExpiry => exact ok.execMpCellWaitExpiry
  | deferredTrap => exact ok.execDeferredTrap
  | strandPlacement => exact ok.execStrandPlacement
  | victimPreempt => exact ok.execVictimPreempt
  | strandSave => exact ok.execStrandSave
  | copyBurst => exact ok.execCopyBurst
  | copyRingWordWrite => exact ok.execCopyRingWordWrite
  | messageDelivery => exact ok.execMessageDelivery
  | serveInject => exact ok.execServeInject
  | servedExit => exact ok.execServedExit
  | serveResultArrival => exact ok.execServeResultArrival
  | frondDecision => exact ok.execFrondDecision
  | residencyPlacement => exact ok.execResidencyPlacement
  | residencyMigration => exact ok.execResidencyMigration
  | planePrefetch => exact ok.execPlanePrefetch
  | planeEntry => exact ok.execPlaneEntry
  | argwDelivery => exact ok.execArgwDelivery
  | creditReturn => exact ok.execCreditReturn
  | ceFire => exact ok.execCeFire
  | ceGeneratorFire => exact ok.execCeGeneratorFire
  | ceStopStep => exact ok.execCeStopStep
  | roundBoundary => exact ok.execRoundBoundary
  | elementDone => exact ok.execElementDone
  | agAffFire => exact ok.execAgAffFire
  | agIndFire => exact ok.execAgIndFire
  | mpLdsFire => exact ok.execMpLdsFire
  | mpStsFire => exact ok.execMpStsFire
  | mpAmsFire => exact ok.element (fun x x' x'' => ok.mpFire)
  | mpSpillComplete => exact ok.execMpSpillComplete
  | windowCommit => exact ok.execWindowCommit
  | residencyDrained => exact ok.execResidencyDrained
  | feScanFire => exact ok.execFeScanFire
  | feIsectFire | feUnionFire => exact ok.element (fun x x' x'' => Did.memOk.mergeFire)
  |
    feReptFire => exact ok.element (fun _ _ _ => Did.memOk.single (fun _ _ => Did.memOk.does)
      (fun _ _ => Did.memOk.does))
  | feReduFire => exact ok.execFeReduFire
  | feFiltFire => exact ok.element (fun x x' x'' => Did.memOk.lockstep)
  | feExpdFire => exact ok.execFeExpdFire
  | feJoinFire => exact ok.execFeJoinFire
  | feLvlwFire => exact ok.execFeLvlwFire
  | feCdropFire => exact ok.execFeCdropFire
  | meBufWrite => exact ok.execMeBufWrite
  | meBufPass => exact ok.execMeBufPass
  | meFifoFire => exact ok.execMeFifoFire
  | meRmwFire => exact ok.execMeRmwFire
  | meRmwUpdateWrite => exact ok.execMeRmwUpdateWrite
  | meLutFire => exact ok.execMeLutFire
  | meStashAppend => exact ok.execMeStashAppend
  | meStashReplay => exact ok.execMeStashReplay
  | xeMmbFire => exact ok.execXeMmbFire
  | xeMmnFire => exact ok.execXeMmnFire
  | xeBldFire => exact ok.execXeBldFire
  | xeDrnFire => exact ok.execXeDrnFire
  | fabricFaultFreeze => exact ok.execFabricFaultFreeze
  | rstall => exact ok.execRstall
  | residencySaveRequest => exact ok.execResidencySaveRequest
  | boundarySave => exact ok.execBoundarySave
  | boundarySaveTimeout => exact ok.execBoundarySaveTimeout
  | freezeSave => exact ok.execFreezeSave
  | evalRequestRelease => exact ok.execEvalRequestRelease
  | evalPacketResult => exact ok.execEvalPacketResult
  | walkComplete => exact ok.execWalkComplete
  | tlbiComplete => exact ok.execTlbiComplete
  | pageFaultMessage => exact ok.execPageFaultMessage
  | pagerReplyDescent => exact ok.execPagerReplyDescent
  | remoteAccessArrival => exact ok.execRemoteAccessArrival
  | remoteResponse => exact ok.execRemoteResponse
  | remoteStoreAck => exact ok.execRemoteStoreAck
  | requestTimeout => exact ok.execRequestTimeout
  | laneFailure => exact ok.mapLink
  | circuitOpen => exact ok.execCircuitOpen
  | circuitTokenArrival => exact ok.execCircuitTokenArrival
  | launchMessage => exact ok.execLaunchMessage
  | launchAdmission => exact ok.execLaunchAdmission
  | launchComplete => exact ok.execLaunchComplete
  | statusRead => exact ok.statusRead
  | eqheadWrite => exact ok.execEqheadWrite
  | eventQueueAppend => exact ok.execEventQueueAppend
  | msixTableWrite => exact ok.writeMsix
  | registerWrite => exact ok.execRegisterWrite
  | hostDmaRead => exact ok.execHostDmaRead
  | hostDmaWrite => exact ok.execHostDmaWrite
  | unsupportedRequest => exact ok.send
  | functionLevelReset => exact ok.disturb
  | ideStreamLoss => exact ok.execIdeStreamLoss
  | lockInterfaceRequest => exact ok.execLockInterfaceRequest
  | startInterfaceRequest => exact ok.execStartInterfaceRequest
  | stopInterfaceRequest => exact ok.onInterface ok.tearDown.tdisp
  | getVersion => exact ok.execGetVersion
  | getCapabilities => exact ok.execGetCapabilities
  | negotiateAlgorithms => exact ok.atPhase (fun t ht => ht.freeValue.setSpdm.spdmAnswer)
  | getDigests => exact ok.execGetDigests
  | getCertificate => exact ok.execGetCertificate
  | challenge => exact ok.execChallenge
  | getMeasurements => exact ok.execGetMeasurements
  | keyExchange => exact ok.execKeyExchange
  | finish => exact ok.execFinish
  | keyUpdate | heartbeat | endSession => exact ok.onSession (fun x => ok)
  | partSet => exact ok.execPartSet
  | partClear => exact ok.execPartClear
  | debugInstall => exact ok.execDebugInstall
  | debugCmd => exact ok.execDebugCmd
  | budgetSet => exact ok.execBudgetSet
  | budgetGet => exact ok.execBudgetGet
  | peerSet => exact ok.execPeerSet
  | strandResume => exact ok.execStrandResume
  | strandKill => exact ok.execStrandKill
  | pagerSet => exact ok.execPagerSet
  | graphLoad => exact ok.execGraphLoad
  | graphUnload => exact ok.execGraphUnload
  | features => exact ok.execFeatures
  | subscribe => exact ok.execSubscribe
  | periodBoundary => exact ok.execPeriodBoundary
  | arbiterInterval => exact ok.execArbiterInterval
  | slackWindow => exact ok.execSlackWindow
  | slackPeerReport => exact ok.setPower
  | droopDetection => exact ok.execDroopDetection
  | droopFreezeEnd => exact ok.execDroopFreezeEnd
  | rowTempSample => exact ok.execRowTempSample
  | dramScrub => exact ok.execDramScrub
  | registerParityError => exact ok.onStrand (fun t ht => ht.endGang)
  | clusterMapOut => exact ok.execClusterMapOut
  | clusterHardFailure => exact ok.execClusterHardFailure
  | coldReset => exact State.reset_memOk
  | firmwareVerify => exact ok.execFirmwareVerify
  | dieTraining => exact ok.execDieTraining
  | fullService => exact ok.execFullService
  | fullServiceNotchStep => exact ok.execFullServiceNotchStep
  | illegalInstruction => exact ok.execIllegalInstruction
  | instructionFetch => exact ok.execInstructionFetch
  | managementCommandOpcode => exact ok.execManagementCommandOpcode
  | ideKeyManagement => exact ok.setFn
  | peerBindingRequest => exact ok.execPeerBindingRequest
  | peerBindingEnd => exact ok.execPeerBindingEnd
  | circuitOtherEndLost => exact ok.execCircuitOtherEndLost

/-! ## Turns and steps -/

theorem State.memOk.issue {s : State} (ok : s.memOk) : s.issue.memOk := by
  unfold State.issue
  split
  · exact ok.trap
  · exact ok
  · split
    · exact ok.execIllegalInstruction
    · exact ok.exec

theorem State.memOk.turnOf {s : State} {c : Core} {t : Strand} (ok : s.memOk) : (s.turnOf c t).memOk := by
  simp only [State.turnOf]
  split
  · exact ok.seat.issued.seat.takeDeferred
  · exact ok.seat.issued.issue

theorem State.memOk.turn {s : State} {die cluster core : Nat} (ok : s.memOk) : (s.turn die cluster core).memOk := by
  simp only [State.turn]
  split
  · exact ok
  · split
    · exact ok.issued
    · split
      · exact ok.turnOf
      · exact ok

theorem State.memOk.boundary {s : State} {o : Out} (ok : s.memOk) (e : s.boundary = some o) : o.memOk := by
  unfold State.boundary at e
  split at e
  · exact Option.some.inj e ▸ ok.execPeriodBoundary
  · split at e
    · exact Option.some.inj e ▸ ok.execSlackWindow
    · cases e

theorem State.memOk.pass {s : State} {n : Nat} {rest : List Activity} (ok : s.memOk) : (s.pass n rest).memOk := by
  unfold State.pass
  split
  · next e => exact ok.boundary e
  · exact State.memOk.cycles ok

theorem State.memOk.dueOf {s : State} {t : Strand} {o : Out} (ok : s.memOk) (e : s.dueOf t = some o) : o.memOk := by
  unfold State.dueOf at e
  repeat' split at e
  all_goals cases e
  · exact ok.execResultLands
  · exact ok.execStrandWake
  · exact ok.execInstructionFetch
  · exact ok.execMessageDelivery
  · exact ok.execTlbiComplete
  · exact ok.execStrandSave
  · exact ok.execDeferredTrap
  · exact ok.execStrandPlacement

theorem State.memOk.idle {s : State} (ok : s.memOk) : s.idle.memOk := by
  unfold State.idle
  split
  · next e => exact ok.boundary e
  · split
    · exact ok.turn
    · split
      · next e =>
        obtain ⟨t, -, due⟩ := List.exists_of_findSome?_eq_some e
        exact ok.dueOf due
      · exact ok.cycles

theorem State.memOk.step {s : State} (ok : s.memOk) : Out.memOk (step s) := by
  have begun (rest : List Activity) : ({ s with agenda := rest } : State).memOk := ok
  unfold Machine.step
  split
  · exact ok.idle
  · exact (begun _).turn
  · split
    · exact (begun _).exec
    · trivial
  · exact ok.pass
  · split
    · exact (begun _).outside
    · trivial

/-- Settles O60, from the law that every step keeps the canonical form. -/
theorem stepKeepsMemOk : Obligations.StepKeepsMemOk := by
  unfold Obligations.StepKeepsMemOk
  intro s t ok e
  exact ok.step.of_eq e

/-- Settles O59. -/
theorem resetMemOk : Obligations.ResetMemOk := ⟨State.reset_memOk, fun _ => rfl⟩

end Sys2Proof.Machine
end

