-- ==== Sys2Proof/Proofs/LocalAccess.lean ====
section
/-! SUPPORT. Where local addresses lie, and the checks and loads of one lane (O19). -/
namespace Sys2Proof.Machine
variable (s : State)

theorem State.space_clearHolds (x : Site) (rule : SpaceRule) (a : Word) (n : Nat) :
    s.clearHolds.space x rule a n = s.space x rule a n := by
  have lim (d c k : Nat) : s.clearHolds.tcmLim d c k = s.tcmLim d c k := by
    have same : ({ s.self with waits := { s.self.waits with holds := [] } } : Strand).onCore d c k = s.self.onCore d c k := rfl
    simp only [State.tcmLim, State.all, State.clearHolds, State.holdFor, List.filter_cons, same]
    split <;> rfl
  have regions (d c f r : Nat) : s.clearHolds.regionAt d c f r = s.regionAt d c f r := rfl
  simp only [State.space, lim, regions]

theorem State.clearHolds_trap (h : s.canTrap) (r : TrapRec) : s.clearHolds.trap r = s.trapped s.self.pc r := by
  rw [State.trap_eq s.clearHolds h]
  unfold State.trapped State.endGang
  cases lead : s.self.ctl.glead with
  | false => simp [State.clearHolds, State.holdFor, lead]
  | true =>
    have same : s.clearHolds.follower = s.follower := rfl
    simp only [State.mapFollower, same]
    simp only [State.clearHolds, State.holdFor, lead]
    cases s.follower <;> rfl

theorem State.check_error {x : Site} {rule : SpaceRule} {acc : Acc} {n al e : Nat} {a : Word} {fwd : Bool}
    (h : s.space x rule a n = .error e) : s.check x rule acc n al [(0, a)] fwd = (.trap (protTrap a e), s.clearHolds) := by
  simp [State.check, State.spaces, State.space_clearHolds, h]

theorem State.check_misaligned {x : Site} {rule : SpaceRule} {acc : Acc} {n al : Nat} {a : Word} {l : Option Nat} {fwd : Bool}
    (h : s.space x rule a n = .ok l) (m : a.toNat % al ≠ 0) :
    s.check x rule acc n al [(0, a)] fwd = (.trap (alignTrap a), s.clearHolds) := by
  simp [State.check, State.spaces, State.space_clearHolds, h, m]

theorem State.check_local {x : Site} {rule : SpaceRule} {acc : Acc} {n al l : Nat} {a : Word} {fwd : Bool}
    (h : s.space x rule a n = .ok (some l)) (m : a.toNat % al = 0) :
    s.check x rule acc n al [(0, a)] fwd =
      (.ok [(0, a, { loc := l, glob := false, cpage := false, remote := false })], s.clearHolds) := by
  simp [State.check, State.spaces, State.space_clearHolds, h, m, State.places, State.enterSlices, State.holdOf]

/-! ## Loads -/

theorem State.holdOf_fwd {x : Site} {n : Nat} {q : Nat × Word × Place} (h : s.holdOf x n false q = none) (fwd : Bool) :
    s.holdOf x n fwd q = none := by
  unfold State.holdOf at h ⊢
  dsimp only at h ⊢
  by_cases far : q.2.2.remote
  · rw [if_pos far] at h ⊢
    cases answered : (s.answerOf q.2.2.loc).isSome
    · cases stands : s.buffered q.2.2.loc n with
      | none => simpa [answered, stands] using h
      | some o => simp [answered, stands] at h
    · simp
  · simpa [far] using h

theorem State.check_fwd {x : Site} {rule : SpaceRule} {acc : Acc} {n al : Nat} {ls : List (Nat × Word)}
    {ps : List (Nat × Word × Place)} {t : State} (h : s.check x rule acc n al ls = (.ok ps, t)) (fwd : Bool) :
    s.check x rule acc n al ls fwd = (.ok ps, t) := by
  unfold State.check at h ⊢
  dsimp only at h ⊢
  split
  · next e => simp [e] at h
  · next e =>
    simp only [e] at h
    split
    · next m => simp [m] at h
    · next m =>
      simp only [m] at h
      split
      · next qs v placed =>
        simp only [placed] at h
        unfold State.enterSlices at h ⊢
        dsimp only at h ⊢
        have free : qs.filterMap (v.holdOf x n false) = [] := by
          generalize hh : qs.filterMap (v.holdOf x n false) = hs at h
          cases hs with
          | nil => rfl
          | cons a l => simp at h
        have free' : qs.filterMap (v.holdOf x n fwd) = [] := by
          rw [List.filterMap_eq_nil_iff] at free ⊢
          exact fun q hq => v.holdOf_fwd (free q hq) fwd
        rw [free] at h
        rw [free']
        exact h
      · next stopped =>
        split at h
        · next placed => exact absurd placed (stopped _ _)
        · exact h

/-- A loaded number extended, as R148 says it for every width. -/
theorem loadExt_width (w : BitVec 2) (n : BitVec 1) (x : Nat) : loadExt (2 ^ w.toNat) (n == 1#1) x =
    if n = 1#1 then BitVec.ofNat 64 x else (BitVec.ofNat (8 * 2 ^ w.toNat) x).signExtend 64 := by
  have width : w = 0#2 ∨ w = 1#2 ∨ w = 2#2 ∨ w = 3#2 := by
    have : ∀ w : BitVec 2, w = 0#2 ∨ w = 1#2 ∨ w = 2#2 ∨ w = 3#2 := by decide
    exact this w
  unfold loadExt
  by_cases unsigned : n = 1#1
  · simp [unsigned, w64]
  · obtain rfl | rfl | rfl | rfl := width
    · simp [unsigned]
    · simp [unsigned]
    · simp [unsigned]
    · simp [unsigned, w64, BitVec.signExtend_eq]

theorem State.mAddr_eq (a : BitVec 6) (n : Nat) (o : BitVec 11) :
    s.mAddr a n o = s.getG a + BitVec.ofInt 64 (o.toInt * n) := by
  unfold State.mAddr simm
  rw [BitVec.ofInt_mul, BitVec.ofInt_natCast]
  rfl

theorem State.setG_markBusy_adv (d : BitVec 6) (x : Word) (l : List BusyMark) :
    ((s.setG d x).markBusy l).adv = (s.wrote d x).markBusy l := by
  unfold State.setG State.markBusy State.adv State.setPc State.wrote Strand.setG
  split <;> rfl

/-- A load of one lane, once its checks pass at a place of this module whose bytes can be read. -/
theorem State.loadG_completes {t : State} {d : BitVec 6} {w : BitVec 2} {n : BitVec 1} {a : Word} {p : Place}
    (checked : s.check s.self.site .any .load (2 ^ w.toNat) (2 ^ w.toNat) [(0, a)] = (.ok [(0, a, p)], t))
    (near : p.remote = false) (reads : (t.underKeys [(0, a, p)]).blocked (0, a, p) = false) (fwd : Bool) :
    s.loadG d w n a fwd = .next (((t.underKeys [(0, a, p)]).dropAnswers.wrote d
      (if n = 1#1 then BitVec.ofNat 64 ((t.underKeys [(0, a, p)]).rd p.loc (2 ^ w.toNat))
       else (BitVec.ofNat (8 * 2 ^ w.toNat) ((t.underKeys [(0, a, p)]).rd p.loc (2 ^ w.toNat))).signExtend 64)).markBusy [.g d]) := by
  unfold State.loadG State.load
  rw [show widthBytes w = 2 ^ w.toNat from rfl, s.check_fwd checked fwd]
  generalize hu : t.underKeys [(0, a, p)] = u at reads
  simp only [State.afterCheck, hu]
  simp [State.readGate, State.toProbe, reads, State.readAll, near, State.valueAt, loadExt_width, State.setG_markBusy_adv]

/-! ## Where an address of local storage lies (R45 to R47) -/

variable {s} {x : Site} {rule : SpaceRule} {a : Word} {n : Nat}

theorem State.space_reserved (low : 1 ≤ a.toNat / 2 ^ 60) (high : a.toNat / 2 ^ 60 ≤ 0xB) : s.space x rule a n = .error 1 := by
  unfold State.space
  rw [if_neg (by omega), if_pos (by omega)]

theorem State.space_global_wide (sp : a.toNat / 2 ^ 60 = 0) (wide : 2 ^ 56 ≤ a.toNat % 2 ^ 60) : s.space x rule a n = .error 1 := by
  unfold State.space
  have bits : a.toNat % 2 ^ 60 / 2 ^ 56 ≠ 0 := by omega
  rw [if_pos sp, if_pos (.inl bits)]

theorem State.space_tcm (sp : a.toNat / 2 ^ 60 = 0xC) (free : rule ≠ .globalOnly) : s.space x rule a n =
    if a.toNat % 2 ^ 60 / 2 ^ 16 ≠ 0 then .error 1
    else if a.toNat % 2 ^ 60 + n > (if x.sMode then 2 ^ 16 else s.tcmLim x.die x.cluster x.core) then .error 2
    else .ok (some (tcmLoc x.die x.cluster x.core (a.toNat % 2 ^ 60))) := by
  simp only [State.space, sp, free]
  rfl

theorem State.space_scratchpad (sp : a.toNat / 2 ^ 60 = 0xD) (free : rule ≠ .globalOnly) : s.space x rule a n =
    if a.toNat % 2 ^ 60 / 2 ^ 21 ≠ 0 then .error 1
    else if a.toNat % 2 ^ 60 + n > 2 ^ 21 ∨ a.toNat % 2 ^ 60 + n > x.splim then .error 2
    else .ok (some (spLoc x.die x.cluster (x.spbase + a.toNat % 2 ^ 60))) := by
  simp only [State.space, sp, free]
  rfl

theorem State.space_me (sp : a.toNat / 2 ^ 60 = 0xE) (free : rule ≠ .globalOnly) (any : rule ≠ .barrier) :
    s.space x rule a n =
    if a.toNat % 2 ^ 60 % 2 ^ 54 / 2 ^ 15 ≠ 0 then .error 1
    else if a.toNat % 2 ^ 60 % 2 ^ 15 + n > 2 ^ 15 then .error 2
    else if ((s.regionAt x.die x.cluster (a.toNat / 2 ^ 58 % 4) (a.toNat / 2 ^ 55 % 8)).filter (·.heldFor x)).isSome then
      .ok (some (meLoc x.die x.cluster (a.toNat / 2 ^ 58 % 4) (a.toNat / 2 ^ 55 % 8) (10 + a.toNat / 2 ^ 54 % 2)
        (a.toNat % 2 ^ 60 % 2 ^ 15)))
    else .error 4 := by
  have fields : natBits a.toNat 59 58 = a.toNat / 2 ^ 58 % 4 ∧ natBits a.toNat 57 55 = a.toNat / 2 ^ 55 % 8 ∧
      natBits a.toNat 54 54 = a.toNat / 2 ^ 54 % 2 := ⟨rfl, rfl, rfl⟩
  obtain ⟨frond, row, col⟩ := fields
  simp only [State.space, sp, free, any, frond, row, col]
  cases s.regionAt x.die x.cluster (a.toNat / 2 ^ 58 % 4) (a.toNat / 2 ^ 55 % 8) with
  | none => rfl
  | some r => cases held : r.heldFor x <;> simp [held]

theorem State.space_window (sp : a.toNat / 2 ^ 60 = 0xF) (free : rule ≠ .globalOnly) (any : rule ≠ .barrier) : s.space x rule a n =
    if a.toNat % 2 ^ 60 / 2 ^ 26 ≠ 0 then .error 1
    else if a.toNat % 2 ^ 60 + n > 2 ^ 26 ∨ a.toNat % 2 ^ 60 + n > x.swlim then .error 2
    else .ok (some (swLoc x.die (x.swbase + a.toNat % 2 ^ 60))) := by
  simp only [State.space, sp, free, any]
  rfl

/-! ## Scalar loads from local storage (O19) -/

variable {d : BitVec 6} {w : BitVec 2} {nn : BitVec 1} {e l : Nat}

theorem State.loadG_error (h : s.space s.self.site .any a (2 ^ w.toNat) = .error e) (can : s.canTrap) (fwd : Bool) :
    s.loadG d w nn a fwd = .next (s.trapped s.self.pc (protTrap a e)) := by
  unfold State.loadG State.load
  rw [show widthBytes w = 2 ^ w.toNat from rfl, s.check_error h, ← s.clearHolds_trap can]
  rfl

theorem State.loadG_misaligned {o : Option Nat} (h : s.space s.self.site .any a (2 ^ w.toNat) = .ok o)
    (m : a.toNat % 2 ^ w.toNat ≠ 0) (can : s.canTrap) (fwd : Bool) :
    s.loadG d w nn a fwd = .next (s.trapped s.self.pc (alignTrap a)) := by
  unfold State.loadG State.load
  rw [show widthBytes w = 2 ^ w.toNat from rfl, s.check_misaligned h m, ← s.clearHolds_trap can]
  rfl

theorem State.loadG_local (h : s.space s.self.site .any a (2 ^ w.toNat) = .ok (some l)) (m : a.toNat % 2 ^ w.toNat = 0)
    (good : s.isPoisoned l = false) (fwd : Bool) : s.loadG d w nn a fwd =
      .next ((s.clearHolds.dropAnswers.wrote d (if nn = 1#1 then BitVec.ofNat 64 (s.rd l (2 ^ w.toNat))
        else (BitVec.ofNat (8 * 2 ^ w.toNat) (s.rd l (2 ^ w.toNat))).signExtend 64)).markBusy [.g d]) := by
  have plain : s.clearHolds.underKeys [(0, a, { loc := l, glob := false, cpage := false, remote := false })] = s.clearHolds :=
    s.clearHolds.underKeys_local _ (by simp)
  have checked := s.check_local (acc := .load) (al := 2 ^ w.toNat) (fwd := false) h m
  have reads : s.clearHolds.blocked (0, a, { loc := l, glob := false, cpage := false, remote := false }) = false := by
    have mark : s.clearHolds.isPoisoned l = false := good
    simp [State.blocked, mark]
  have done := State.loadG_completes s (d := d) (n := nn) checked rfl (by rw [plain]; exact reads) fwd
  rw [plain] at done
  exact done

/-- Settles O19. -/
theorem loadsComplete : Obligations.LoadsComplete := by
  unfold Obligations.LoadsComplete
  constructor
  · intro s d a w n o size A sp off i id ctl loads prot align bounded
    have isLoad : exec i s = s.loadG d w n A true := by
      show s.loadG d w n (s.mAddr a (widthBytes w) o) true = _
      rw [s.mAddr_eq]
      rfl
    have protOf {e : Nat} (h : s.space s.self.site .any A size = .error e) : prot e := fun can =>
      isLoad.trans (State.loadG_error h can true)
    have boundedOf {limit l : Nat} (h : s.space s.self.site .any A size =
        if off + size > limit then .error 2 else .ok (some l)) : bounded limit l := by
      refine ⟨fun inside m good => ?_, fun inside m can => ?_, fun beyond => ?_⟩
      · rw [if_neg (by omega)] at h
        exact isLoad.trans (State.loadG_local h m good true)
      · rw [if_neg (by omega)] at h
        exact isLoad.trans (State.loadG_misaligned h m can true)
      · rw [if_pos beyond] at h
        exact protOf h
    have free : SpaceRule.any ≠ .globalOnly := by decide
    have any : SpaceRule.any ≠ .barrier := by decide
    refine ⟨fun low high => protOf (State.space_reserved low high), fun sp => ⟨fun inside => ?_, fun wide => ?_⟩,
      fun sp => ⟨fun inside => ?_, fun wide => ?_⟩, fun sp => ⟨fun inside => ?_, fun wide => ?_⟩,
      fun sp inside => ?_, fun sp wide => ?_, fun sp wide => protOf (State.space_global_wide sp wide)⟩
    · apply boundedOf
      rw [State.space_tcm sp free, if_neg (by have := Nat.div_eq_of_lt inside; omega)]
      rfl
    · apply protOf
      rw [State.space_tcm sp free, if_pos (by change 2 ^ 16 ≤ A.toNat % 2 ^ 60 at wide; omega)]
    · apply boundedOf
      rw [State.space_scratchpad sp free, if_neg (by have := Nat.div_eq_of_lt inside; omega)]
      have both : (A.toNat % 2 ^ 60 + size > 2 ^ 21 ∨ A.toNat % 2 ^ 60 + size > s.self.site.splim) ↔
          off + size > min (2 ^ 21) ctl.splim.toNat := by
        show _ ↔ min (2 ^ 21) s.self.site.splim < A.toNat % 2 ^ 60 + size
        omega
      simp only [both]
      rfl
    · apply protOf
      rw [State.space_scratchpad sp free, if_pos (by change 2 ^ 21 ≤ A.toNat % 2 ^ 60 at wide; omega)]
    · apply boundedOf
      rw [State.space_window sp free any, if_neg (by have := Nat.div_eq_of_lt inside; omega)]
      have both : (A.toNat % 2 ^ 60 + size > 2 ^ 26 ∨ A.toNat % 2 ^ 60 + size > s.self.site.swlim) ↔
          off + size > min (2 ^ 26) ctl.swlim.toNat := by
        show _ ↔ min (2 ^ 26) s.self.site.swlim < A.toNat % 2 ^ 60 + size
        omega
      simp only [both]
      rfl
    · apply protOf
      rw [State.space_window sp free any, if_pos (by change 2 ^ 26 ≤ A.toNat % 2 ^ 60 at wide; omega)]
    · intro held
      have here := State.space_me (s := s) (x := s.self.site) (rule := .any) (n := size) sp free any
      rw [if_neg (by have := Nat.div_eq_of_lt inside; omega)] at here
      change _ = if off % 2 ^ 15 + size > 2 ^ 15 then _ else if held.isSome then _ else _ at here
      refine ⟨fun beyond => protOf ?_, fun within => ⟨fun none => protOf ?_, fun some => ?_⟩⟩
      · rw [here, if_pos (by omega)]
      · rw [here, if_neg (by omega), if_neg (by simp [none])]
      · rw [if_neg (by omega), if_pos some] at here
        exact ⟨fun m good => isLoad.trans (State.loadG_local here m good true),
          fun m can => isLoad.trans (State.loadG_misaligned here m can true)⟩
    · apply protOf
      rw [State.space_me sp free any, if_pos (by change 2 ^ 15 ≤ A.toNat % 2 ^ 60 % 2 ^ 54 at wide; omega)]
  · intro s t₀ d a b w n o scope p i A form checked t near reads x
    obtain ⟨rfl, rfl⟩ | ⟨rfl, rfl⟩ | ⟨rfl, rfl⟩ := form
    · have addr : s.mAddr a (widthBytes w) o = s.getG a + BitVec.ofInt 64 (o.toInt * 2 ^ w.toNat) := by
        rw [s.mAddr_eq]
        simp [widthBytes]
      show s.loadG d w n (s.mAddr a (widthBytes w) o) true = _
      rw [addr]
      exact s.loadG_completes checked near reads true
    · exact s.loadG_completes checked near reads true
    · exact s.loadG_completes checked near reads _
end Sys2Proof.Machine
end

