-- ==== Sys2Proof/Proofs/FullEmpty.lean ====
section
/-! SUPPORT. Full/empty forms (O23). -/
namespace Sys2Proof.Machine
variable {s : State} {x : Site} {rule : SpaceRule} {a : Word} {n : Nat}

/-! ## Accesses to local storage alone (R58, R146) -/

theorem State.space_local_ne_none (h : rule = .localOnly ∨ rule = .barrier) : s.space x rule a n ≠ .ok none := by
  unfold State.space
  dsimp only
  repeat' split
  all_goals simp_all

theorem State.space_localOnly_global (sp : a.toNat / 2 ^ 60 = 0) : s.space x .localOnly a n = .error 1 := by
  unfold State.space
  rw [if_pos sp, if_pos (.inr (.inl rfl))]

/-- Checks of an access to local storage that pass change nothing but what the access waits for. -/
theorem State.check_localOnly {acc : Acc} {al : Nat} {p : Place} {t : State}
    (h : s.check x .localOnly acc n al [(0, a)] = (.ok [(0, a, p)], t)) : t = s.clearHolds ∧ p.glob = false := by
  cases lies : s.space x .localOnly a n with
  | error e => simp [s.check_error lies] at h
  | ok o =>
    cases o with
    | none => exact absurd lies (State.space_local_ne_none (.inl rfl))
    | some l =>
      by_cases m : a.toNat % al = 0
      · rw [s.check_local lies m] at h
        simp only [Prod.mk.injEq, Checked.ok.injEq, List.cons.injEq, and_true, true_and] at h
        obtain ⟨rfl, rfl⟩ := h
        exact ⟨rfl, rfl⟩
      · simp [s.check_misaligned lies m] at h

/-! ## Full/empty forms (O23) -/

theorem State.feAt_passes {p : Place} {t : State} (checked : s.check s.self.site .localOnly .load 8 8 [(0, a)] = (.ok [(0, a, p)], t))
    (good : t.isPoisoned p.loc = false) (f : Nat → State → State) : s.feAt a f = f p.loc t := by
  obtain ⟨-, near⟩ := State.check_localOnly checked
  have plain : t.underKeys [(0, a, p)] = t := t.underKeys_local _ (by simpa using near)
  unfold State.feAt
  rw [checked]
  simp [State.afterCheck, plain, good]

theorem State.feAt_error {e : Nat} (h : s.space s.self.site .localOnly a 8 = .error e) (can : s.canTrap) (f : Nat → State → State) :
    s.feAt a f = s.trapped s.self.pc (protTrap a e) := by
  unfold State.feAt
  rw [s.check_error h, ← s.clearHolds_trap can]
  rfl

theorem State.feAt_misaligned {o : Option Nat} (h : s.space s.self.site .localOnly a 8 = .ok o) (m : a.toNat % 8 ≠ 0)
    (can : s.canTrap) (f : Nat → State → State) : s.feAt a f = s.trapped s.self.pc (alignTrap a) := by
  unfold State.feAt
  rw [s.check_misaligned h m, ← s.clearHolds_trap can]
  rfl

theorem State.feAddr_eq (a : BitVec 6) (o : BitVec 11) : s.feAddr a o = s.getG a + BitVec.ofInt 64 (o.toInt * 8) := s.mAddr_eq a 8 o

/-- A strand that waits for a word in the state that it enters is woken. -/
theorem State.setFull_wakes {u : Strand} {l : Nat} {full : Bool} (other : u ∈ s.others)
    (waits : u.parkedFor .fe = true ∨ u.parkedFor .qrecv = true) (here : u.park.loc = l) (wants : u.park.wantFull = full) :
    u.wake ∈ (s.setFull l full).others := by
  refine List.mem_map.mpr ⟨u, other, ?_⟩
  have both : (u.parkedFor .fe || u.parkedFor .qrecv) = true := by
    rw [Bool.or_eq_true]
    exact waits
  simp [both, here, wants]

/-- Each full/empty form acts at the word of its address, once its checks pass. -/
theorem exec_fullEmpty {s : State} {i : Instr} {d a : BitVec 6} {o : BitVec 11} {b : Word}
    (which : (i = .ldfe d a o ∨ i = .ldff d a o ∨ i = .stef d a o ∨ i = .stff d a o) ∧ b = s.feAddr a o ∨
      (i = .feget d a ∨ i = .fesetEmpty a ∨ i = .fesetFull a) ∧ b = s.getG a) :
    ∃ f : Nat → State → State, exec i s = .next (s.feAt b f) := by
  obtain ⟨rfl | rfl | rfl | rfl, rfl⟩ | ⟨rfl | rfl | rfl, rfl⟩ := which
  all_goals exact ⟨_, rfl⟩

/-- Settles O23. -/
theorem fullEmptyForms : Obligations.FullEmptyForms := by
  unfold Obligations.FullEmptyForms
  intro s t d a o p A done got parked l x ok
  have isA : s.feAddr a o = A := s.feAddr_eq a o
  refine ⟨fun ⟨checked, good⟩ => ?_, fun ⟨checked, good⟩ => ?_,
    fun full => ⟨rfl, fun once q => t.setBit_isFull once l q full,
      fun u other waits here wants => State.setFull_wakes other waits here wants⟩, fun i B can which => ?_⟩
  · have word (f : Nat → State → State) : s.feAt (s.feAddr a o) f = f l t := isA ▸ State.feAt_passes checked good f
    have load (keep : Bool) : s.feLoad d (s.feAddr a o) keep =
        .next (if t.isFull l then (((if keep then t else t.setFull l false).setG d x).markBusy [.g d]).adv
          else t.parkFor .fe A l true) := by
      unfold State.feLoad
      rw [word, isA]
    refine ⟨fun full => ⟨?_, ?_, ?_⟩, fun empty => ⟨?_, ?_, ?_⟩, ?_⟩
    · show s.feLoad d (s.feAddr a o) false = _
      rw [load, if_pos full, State.setG_markBusy_adv]
      rfl
    · show s.feLoad d (s.feAddr a o) true = _
      rw [load, if_pos full, State.setG_markBusy_adv]
      rfl
    · show Host.Outcome.next (s.feAt (s.feAddr a o) _) = _
      rw [word, if_pos full, isA]
      rfl
    · show s.feLoad d (s.feAddr a o) false = _
      rw [load, if_neg (by simp [empty])]
      rfl
    · show s.feLoad d (s.feAddr a o) true = _
      rw [load, if_neg (by simp [empty])]
      rfl
    · show Host.Outcome.next (s.feAt (s.feAddr a o) _) = _
      rw [word, if_neg (by simp [empty])]
      rfl
    · show Host.Outcome.next (s.feAt (s.feAddr a o) _) = _
      rw [word]
      rfl
  · have word (f : Nat → State → State) : s.feAt (s.getG a) f = f l t := State.feAt_passes checked good f
    refine ⟨?_, ?_, ?_⟩
    · show Host.Outcome.next (s.feAt (s.getG a) _) = _
      rw [word, State.setG_markBusy_adv]
      cases t.isFull l <;> rfl
    · show Host.Outcome.next (s.feAt (s.getG a) _) = _
      rw [word]
      rfl
    · show Host.Outcome.next (s.feAt (s.getG a) _) = _
      rw [word]
      rfl
  · rw [← isA] at which
    obtain ⟨f, form⟩ := exec_fullEmpty which
    exact ⟨fun global => form.trans (congrArg _ (State.feAt_error (State.space_localOnly_global global) can f)),
      fun lies m => form.trans (congrArg _ (State.feAt_misaligned lies m can f))⟩
end Sys2Proof.Machine
end

