-- ==== Sys2Proof/Proofs/StreamRegisters.lean ====
section
/-! SUPPORT. Stream registers (O29). -/
namespace Sys2Proof.Machine
variable {s : State} {q : BitVec 2} {r : Ring} {a b d : BitVec 6} {v : BitVec 4} {n : Nat} {i : Instr}
  {put0 : Msg → State → State} {putN : List Nat → State → State} {mark : BusyMark}

/-! ## Registers and rings of a strand -/

theorem Strand.ring_setRing (t : Strand) (q : BitVec 2) (h : q ≠ 0#2) (r : Option Ring) : (t.setRing q.toNat r).ring q.toNat = r := by
  have number : q = 1#2 ∨ q = 2#2 ∨ q = 3#2 := by
    have : ∀ q : BitVec 2, q ≠ 0#2 → q = 1#2 ∨ q = 2#2 ∨ q = 3#2 := by decide
    exact this q h
  obtain rfl | rfl | rfl := number <;> rfl

theorem Strand.getV_setV (t : Strand) (d r : BitVec 4) (x : Vector Lane 16) :
    (t.setV d x).getV r = if r = d then x else t.getV r := by
  unfold Strand.getV Strand.setV
  by_cases same : r = d
  · subst same
    rw [if_pos rfl]
    exact Vector.getElem_set_self r.isLt
  · have other : d.toNat ≠ r.toNat := fun e => same (BitVec.eq_of_toNat_eq e.symm)
    rw [if_neg same]
    exact Vector.getElem_set_ne d.isLt r.isLt other

/-- Lane `j` of a vector register written lane by lane. -/
theorem State.setV16_lane (s : State) (d : BitVec 4) (f : Nat → Lane) {j : Nat} (h : j < 16) :
    ((s.setV16 d f).self.getV d)[j]! = f j := by
  show ((s.self.setV d _).getV d)[j]! = f j
  rw [Strand.getV_setV, if_pos rfl, getElem!_pos _ j h]
  simp

theorem State.setV16_m (s : State) (d : BitVec 4) (f : Nat → Lane) : (s.setV16 d f).m = s.m := rfl
theorem State.setV16_pc (s : State) (d : BitVec 4) (f : Nat → Lane) : (s.setV16 d f).self.pc = s.self.pc := rfl
theorem State.setV16_q (s : State) (d : BitVec 4) (f : Nat → Lane) : (s.setV16 d f).self.q = s.self.q := rfl

/-! ## Ring words emptied (R163) -/

theorem State.setFull_empties (s : State) (l w : Nat) (h : w = l ∨ s.isFull w = false) : (s.setFull l false).isFull w = false := by
  have empty (l' : Nat) : s.isFull l' = false ↔ l' ∈ s.m.empties := by simp [State.isFull]
  have after : (s.setFull l false).isFull w = false ↔ w ∈ (s.setBit l false).m.empties := by
    simp [State.isFull, State.setFull, State.wakeWord]
  rw [empty] at h
  rw [after]
  show w ∈ (if s.m.empties.contains l then s.m.empties else l :: s.m.empties)
  split
  · next already =>
    obtain rfl | held := h
    · simpa using already
    · exact held
  · exact List.mem_cons.mpr h

/-- Words made EMPTY: memory keeps its bytes, and of the seat no more than its park changes. -/
theorem State.emptied_words (ws : List Nat) (s : State) :
    let u := ws.foldl (fun s w => s.setFull w false) s
    u.m.mem = s.m.mem ∧ OnlyPark s u ∧ ∀ w, w ∈ ws ∨ s.isFull w = false → u.isFull w = false := by
  induction ws generalizing s with
  | nil => exact ⟨rfl, .of_self rfl, fun w h => h.resolve_left List.not_mem_nil⟩
  | cons x ws ih =>
    obtain ⟨mem, seat, empty⟩ := ih (s.setFull x false)
    refine ⟨mem, (s.setFull_park x false).trans seat, fun w h => empty w ?_⟩
    rw [List.mem_cons, or_assoc] at h
    obtain here | later | before := h
    · exact .inr (s.setFull_empties x w (.inl here))
    · exact .inl later
    · exact .inr (s.setFull_empties x w (.inr before))

theorem State.takeRing_does (s : State) (q : Nat) (r : Ring) (n : Nat) :
    (s.takeRing q r n).m.mem = s.m.mem ∧
    (∃ p, (s.takeRing q r n).self =
      ({ s.self with park := p } : Strand).setRing q (some { r with head := (r.head + n) % 2 ^ r.n })) ∧
    ∀ j, j < n → (s.takeRing q r n).isFull (r.wordAt j) = false := by
  obtain ⟨mem, ⟨p, seat⟩, empty⟩ := State.emptied_words ((List.range n).map r.wordAt) s
  rw [List.foldl_map] at mem seat empty
  refine ⟨mem, ⟨p, congrArg (Strand.setRing · q _) seat⟩, fun j h => empty _ (.inl ?_)⟩
  exact List.mem_map_of_mem (List.mem_range.mpr h)

/-! ## RECV (R163) -/

theorem State.recv_unbound (hq : q ≠ 0#2) (h : s.self.ring q.toNat = none) :
    s.recv q b n i put0 putN mark = .next (s.trap (illRun (w64 q.toNat) (insWord i))) := by
  simp [State.recv, hq, h]

theorem State.recv_faults {x : TrapRec} (hq : q ≠ 0#2) (h : s.self.ring q.toNat = some r)
    (bad : (List.range n).findSome? (s.ringFault r) = some x) : s.recv q b n i put0 putN mark = .next (s.trap x) := by
  simp [State.recv, hq, h, bad]

/-- The first EMPTY word among those that RECV takes: the strand parks there. -/
theorem State.recv_waits {k : Nat} (hq : q ≠ 0#2) (h : s.self.ring q.toNat = some r)
    (sound : ∀ j, j < n → s.ringFault r j = none) (hk : k < n) (empty : s.isFull (r.wordAt k) = false)
    (full : ∀ j, j < k → s.isFull (r.wordAt j) = true) :
    s.recv q b n i put0 putN mark = .next (s.parkFor .qrecv (w64 q.toNat) (r.wordAt k) true) := by
  have none : (List.range n).findSome? (s.ringFault r) = none :=
    List.findSome?_eq_none_iff.mpr fun j hj => sound j (List.mem_range.mp hj)
  have first : (List.range n).find? (fun j => !(s.isFull (r.wordAt j))) = some k :=
    List.find?_range_eq_some.mpr ⟨by simp [empty], List.mem_range.mpr hk, fun j hj => by simp [full j hj]⟩
  simp [State.recv, hq, h, none, first]

theorem State.recv_takes (hq : q ≠ 0#2) (h : s.self.ring q.toNat = some r)
    (ready : ∀ j, j < n → s.ringFault r j = none ∧ s.isFull (r.wordAt j) = true) : s.recv q b n i put0 putN mark =
      .next (((putN ((List.range n).map (fun j => s.rd (r.wordAt j) 8)) (s.takeRing q.toNat r n)).setG b 0#64).markBusy
        [mark, .g b]).adv := by
  have none : (List.range n).findSome? (s.ringFault r) = none :=
    List.findSome?_eq_none_iff.mpr fun j hj => (ready j (List.mem_range.mp hj)).1
  have all : (List.range n).find? (fun j => !(s.isFull (r.wordAt j))) = Option.none :=
    List.find?_eq_none.mpr fun j hj => by simp [(ready j (List.mem_range.mp hj)).2]
  simp [State.recv, hq, h, none, all]

/-- The trap of an unbound register names the register (log entry 19). -/
theorem State.trap_unbound (can : s.canTrap) (q : BitVec 2) (i : Instr) : s.trap (illRun (w64 q.toNat) (insWord i)) =
    s.trapped s.self.pc { cause := 1, arg := 1, info0 := q.zeroExtend 64, info1 := w64 (insWord i).toNat } := by
  rw [s.trap_eq can]
  congr 2
  exact BitVec.ofNat_toNat 64 q

/-- What RECV leaves once it has written its result, which changes neither memory nor pc nor the queues. -/
theorem State.ring_taken {w : State} (hq : q ≠ 0#2) (l : List BusyMark) (b : BitVec 6)
    (mem : w.m = (s.takeRing q.toNat r n).m)
    (pc : w.self.pc = (s.takeRing q.toNat r n).self.pc) (queues : w.self.q = (s.takeRing q.toNat r n).self.q) :
    let u := ((w.setG b 0#64).markBusy l).adv
    u.self.pc = s.self.pc + 4#64 ∧ SameBytes s u ∧ u.getG b = 0#64 ∧ (∀ j, j < n → u.isFull (r.wordAt j) = false) ∧
      u.self.ring q.toNat = some { r with head := (r.head + n) % 2 ^ r.n } := by
  obtain ⟨bytes, ⟨p, seat⟩, empty⟩ := s.takeRing_does q.toNat r n
  refine ⟨?_, fun a => ?_, ?_, fun j h => ?_, ?_⟩
  · show (w.self.setG b 0#64).pc + 4#64 = _
    rw [Strand.setG_pc, pc, seat]
    rfl
  · show memGet w.m.mem a = memGet s.m.mem a
    rw [mem, bytes]
  · show (w.setG b 0#64).getG b = 0#64
    rw [State.getG_setG]
    by_cases zero : b = 0#6
    · subst zero
      rfl
    · rw [if_pos ⟨rfl, zero⟩]
  · show (!w.m.empties.contains (r.wordAt j)) = false
    rw [mem]
    exact empty j h
  · have rings (t t' : Strand) (h : t.q = t'.q) (k : Nat) : t.ring k = t'.ring k := by simp only [Strand.ring, h]
    have same : (((w.setG b 0#64).markBusy l).adv).self.q = (s.takeRing q.toNat r n).self.q :=
      (Strand.setG_q w.self b 0#64).trans queues
    rw [rings _ _ same, seat, Strand.ring_setRing _ _ hq]

theorem exec_recvG (d b : BitVec 6) : exec (.recvG d q b) s = s.recv q b 1 (.recvG d q b)
    (fun m t => t.setG d (m.payload.truncate 64)) (fun vs t => t.setG d (w64 (vs.headD 0))) (.g d) := by
  show execRecvG d q b s = _
  rw [execRecvG]

theorem exec_recvV (v : BitVec 4) (b : BitVec 6) : exec (.recvV v q b) s = s.recv q b 8 (.recvV v q b)
    (fun m t => t.setV16 v (fun i => unpackLane m.payload i))
    (fun vs t => t.setV16 v (fun i => BitVec.ofNat 32 (vs.getD (i / 2) 0 / 2 ^ (32 * (i % 2))))) (.v v) := by
  show execRecvV v q b s = _
  rw [execRecvV]

/-- A ring lies in TCM or scratchpad (R61). -/
theorem State.space_barrier_elsewhere {x : Site} {w : Word} (tcm : w.toNat / 2 ^ 60 ≠ 0xC) (sp : w.toNat / 2 ^ 60 ≠ 0xD) :
    s.space x .barrier w n = .error 1 := by
  unfold State.space
  by_cases global : w.toNat / 2 ^ 60 = 0
  · rw [if_pos global, if_pos (.inr (.inr rfl))]
  · rw [if_neg global]
    by_cases reserved : w.toNat / 2 ^ 60 < 0xC
    · rw [if_pos (.inl reserved)]
    · rw [if_neg (not_or.mpr ⟨reserved, by decide⟩), if_neg tcm, if_neg sp, if_pos rfl]

/-- Settles O29. -/
theorem streamRegisters : Obligations.StreamRegisters := by
  unfold Obligations.StreamRegisters
  intro s q d a b v n l r base size hq
  have ringSet (t : Strand) (x : Option Ring) : (t.setRing q.toNat x).ring q.toNat = x := t.ring_setRing q hq x
  have parkedAs (k : Nat) : (Host.Outcome.next (s.parkFor .qrecv (w64 q.toNat) (r.wordAt k) true) : Out) = .next { s with
      self := { s.self with
        st := .parked, ctl := { s.self.ctl with parkCode := 3#4 }, waits := s.parkWaits
        park := { reason := .qrecv, operand := q.zeroExtend 64, since := s.cycle, loc := r.wordAt k } } } := by
    rw [show w64 q.toNat = q.zeroExtend 64 from BitVec.ofNat_toNat 64 q]
    rfl
  have binds : execQbind q a n s = match s.space s.self.site .barrier base size with
      | .error r => if r ≠ 1 ∧ base.toNat % size ≠ 0 then .next (s.trap (alignTrap base)) else .next (s.trap (protTrap base r))
      | .ok none => .next (s.trap (protTrap base 1))
      | .ok (some l) => if base.toNat % size ≠ 0 then .next (s.trap (alignTrap base))
        else .next { s.releaseRing q.toNat with self := s.self.setRing q.toNat (some
          { base := base, loc := l, n := n.toNat, head := 0, tail := 0 }) }.adv := rfl
  refine ⟨fun lies aligned => ?_, fun lies bad can => ?_, fun e lies can => ⟨fun prot => ?_, fun other bad => ?_⟩,
    fun notTcm notSp => ?_, ⟨_, rfl, rfl, rfl, rfl, ringSet _ _⟩,
    fun bound => ⟨?_, fun x bad can => ?_, fun sound full => ?_, fun k hk empty full => ⟨fun first sound => ?_, fun sound => ?_⟩,
      fun ready => ?_⟩,
    fun unbound can => ⟨?_, ?_, ?_⟩⟩
  · rw [lies] at binds
    exact ⟨_, binds.trans (if_neg (not_not.mpr aligned)), rfl, rfl, rfl, ringSet _ _⟩
  · refine binds.trans ?_
    rw [lies, ← s.trap_eq can]
    exact if_pos bad
  · refine binds.trans ?_
    rw [lies]
    refine (if_neg fun h => ?_).trans (congrArg _ (s.trap_eq can _))
    exact prot.elim h.1 h.2
  · refine binds.trans ?_
    rw [lies]
    exact (if_pos ⟨other, bad⟩).trans (congrArg _ (s.trap_eq can _))
  · exact State.space_barrier_elsewhere notTcm notSp
  · show execQpoll d q s = _
    unfold execQpoll
    simp only [hq, bound, if_false, State.setG_markBusy_adv, w64, b2n]
    show _ = Host.Outcome.next ((s.wrote d (if s.isFull (r.wordAt 0) then 1#64 else 0#64)).markBusy [.g d])
    cases s.isFull (r.wordAt 0) <;> rfl
  · rw [exec_recvG, State.recv_faults hq bound (show (List.range 1).findSome? (s.ringFault r) = some x by simp [bad]),
      s.trap_eq can]
  · have only (j : Nat) (h : j < 1) : s.ringFault r j = none ∧ s.isFull (r.wordAt j) = true := by
      obtain rfl : j = 0 := by omega
      exact ⟨sound, full⟩
    obtain ⟨pc, bytes, sender, empty, ring⟩ := State.ring_taken (s := s) (r := r) (n := 1)
      (w := (s.takeRing q.toNat r 1).setG d (w64 (s.rd (r.wordAt 0) 8))) hq [.g d, .g b] b rfl
      (Strand.setG_pc _ d _) (Strand.setG_q _ d _)
    refine ⟨_, (exec_recvG d b).trans (State.recv_takes hq bound only), pc, bytes, fun hd hdb => ?_, sender, empty 0 (by decide), ring⟩
    show (((s.takeRing q.toNat r 1).setG d (w64 (s.rd (r.wordAt 0) 8))).setG b 0#64).getG d = _
    rw [State.getG_setG, if_neg fun h => hdb h.1, State.getG_setG, if_pos ⟨rfl, hd⟩]
    rfl
  · subst first
    have sound (j : Nat) (h : j < 1) : s.ringFault r j = none := by
      obtain rfl : j = 0 := by omega
      exact sound
    rw [exec_recvG, State.recv_waits hq bound sound (by decide) empty full]
    exact parkedAs 0
  · rw [exec_recvV, State.recv_waits hq bound sound hk empty full]
    exact parkedAs k
  · have full (j : Nat) (h : j < 8) : s.ringFault r j = none ∧ s.isFull (r.wordAt j) = true := ready j h
    have taken : exec (.recvV v q b) s = _ := (exec_recvV v b).trans (State.recv_takes hq bound full)
    generalize hw : State.setV16 (s.takeRing q.toNat r 8) v _ = w at taken
    obtain ⟨pc, bytes, -, empty, ring⟩ := State.ring_taken (s := s) (r := r) (n := 8) (w := w) hq [.v v, .g b] b
      (hw ▸ State.setV16_m _ _ _) (hw ▸ State.setV16_pc _ _ _) (hw ▸ State.setV16_q _ _ _)
    refine ⟨_, taken, pc, bytes, fun j h => ?_, empty, ring⟩
    show (((w.self.setG b 0#64).getV v)[j]!) = _
    have lanes : (w.self.setG b 0#64).getV v = w.self.getV v := by rw [Strand.getV, Strand.setG_v, ← Strand.getV]
    rw [lanes, ← hw, State.setV16_lane _ _ _ h]
    have word : ((List.range 8).map (fun j => s.rd (r.wordAt j) 8)).getD (j / 2) 0 = s.rd (r.wordAt (j / 2)) 8 := by
      have : j / 2 < 8 := by omega
      simp [List.getD, this]
    rw [word]
    rfl
  · show execQpoll d q s = _
    unfold execQpoll
    simp only [hq, unbound, if_false]
    exact congrArg _ (s.trap_unbound can _ _)
  · rw [exec_recvG, State.recv_unbound hq unbound, s.trap_unbound can]
  · rw [exec_recvV, State.recv_unbound hq unbound, s.trap_unbound can]

end Sys2Proof.Machine
end

