-- ==== Sys2Proof/Proofs/Messages.lean ====
section
/-! SUPPORT. A state that refutes O28. -/
namespace Sys2Proof.Machine

/-! ## A message for nobody while the seat's strand has retired -/

/-- A strand of a launch, parked by its SEND to a SID that nobody holds. -/
def sendsToNobody : Strand :=
  { id := { uid := 1, ctx := .launch 0 0 }, st := .parked, park := { reason := .qsend }
    waits := { sending := some (1#16, { sender := 0#16, wide := false, payload := 0#512 }) } }

/-- A strand that has retired, and in a state still has the seat. -/
def hasExited : Strand := { st := .retired }

/-- The seat has been left by EXIT, and a message is on its way. -/
def exitedBeforeDelivery : State := { State.reset with self := hasExited, others := [sendsToNobody] }

/-- The sender takes the seat, and the retired strand is no longer among the strands. -/
theorem exitedBeforeDelivery_strands {u : State} (h : exec (.messageDelivery 1) exitedBeforeDelivery = .next u) :
    u.all.map (·.id.uid) = [1] := by
  have run : Host.Outcome.next u = (execMessageDelivery 1 exitedBeforeDelivery : Out) := h.symm
  injection run with e
  rw [e]
  rfl

/-- Refutes O28: with the seat's strand retired (EXIT leaves it there until another takes the seat), a message for nobody is
dropped, and `State.seat` keeps no retired strand, so that not every strand but the sender stands unchanged in `State.all`. -/
theorem not_messages : ¬ Obligations.Messages := by
  unfold Obligations.Messages
  intro h
  obtain ⟨-, -, -, -, -, delivery⟩ := h exitedBeforeDelivery 0#6 0#6 0#6 0#4 { sender := 0#16, wide := false, payload := 0#512 }
    [] 1 sendsToNobody 1#16 0 0
  obtain ⟨-, -, dropped⟩ := delivery rfl rfl rfl rfl (by decide) (by decide)
  obtain ⟨u, run, -, -, -, -, kept, -⟩ := dropped (.inl rfl)
  have still : hasExited ∈ u.all := kept hasExited List.mem_cons_self (by decide)
  have uids : 0 ∈ u.all.map (·.id.uid) := List.mem_map_of_mem (f := (·.id.uid)) still
  rw [exitedBeforeDelivery_strands run] at uids
  exact absurd uids (by decide)

end Sys2Proof.Machine
end

