-- ==== Sys2Proof/Proofs/Circuits.lean ====
section
/-! SUPPORT. A state that refutes O47. -/
namespace Sys2Proof.Machine

/-! ## A circuit's token at a receive port that may begin no round -/

/-- An MP in LDS mode without inputs, its output at port 0 and its first range in use with binding 3. -/
def receiveFrame : BitVec 256 := BitVec.ofNat 256 (5 + 2 ^ 30 + 7 * 2 ^ 45)

/-- Circuit 5 of module 9, seen from its receive end. -/
def receiveBinding : Word := w64 (5 + 9 * 2 ^ 15 + 2 ^ 63)

/-- The receive port of an open circuit. -/
def receivePort : Elem := { row := 0, col := 0, mp := { isOpen := true } }

/-- Its region, which a boundary save drains (R398). -/
def drainingRegion : Region :=
  { rid := 1, die := 0, cluster := 0, frond := 0, row0 := 0, shape := .quarter, holder := .stream 0 0 0
    image := { served := false, shape := .quarter, nplanes := 1, args := 0, res := 0
               frames := [{ addr := 0, aclass := 0, bits := receiveFrame }], edges := [], kind := .broad, indep := false, replay := 0#64 }
    site := {}, arcs := [], elems := [receivePort], loaded := 1, phase := .draining, lastMove := 0, commits := 0, flags := 0#5
    marks := [], binds := [(0, [(3, receiveBinding)])], faults := [], lastInj := 0, psn := [], pflags := [], argNet := [] }

def drains : State := { State.reset with work := { State.reset.work with regions := [drainingRegion] } }

def arriving : Token := { kind := 0, payload := 0#512, par := false, tag := 0 }

/-- Nothing goes out when the token comes: the port begins no round while the save is due. -/
theorem drains_outbox {t : State}
    (h : exec (.circuitTokenArrival 1 0 0 arriving.kind arriving.par arriving.payload) drains = .next t) : t.host.outbox = [] := by
  have run : Host.Outcome.next t = (execCircuitTokenArrival 1 0 0 0 false 0#512 drains : Out) := h.symm
  have steps : (execCircuitTokenArrival 1 0 0 0 false 0#512 drains : Out) = .next
      ((drains.mapPort 1 0 (fun m => m.queue 0 arriving)).emitCircuit 1 0 64) := rfl
  rw [steps] at run
  injection run with e
  rw [e]
  rfl

theorem drains_linkFree (line : Option Nat) : drains.linkFree 0 0 line = true := by
  have budget : drains.admits 0 0 3 = true := rfl
  have none : drains.host.outstanding = [] := rfl
  have queue : drains.host.linkQueue = [] := rfl
  cases line <;> simp [State.linkFree, State.lineHeld, budget, none, queue]

/-- Refutes O47: in a region that a boundary save drains, a receive port begins no round (R398), so that the next token of an open
circuit, which comes with its output free, stays in the re-sequencing queue: it is not emitted and no credit goes back. -/
theorem not_linksAndCircuits : ¬ Obligations.LinksAndCircuits := by
  unfold Obligations.LinksAndCircuits
  rintro ⟨-, circuits⟩
  obtain ⟨-, arrives, -⟩ := circuits drains drainingRegion receivePort receiveFrame receiveBinding 0 arriving
    rfl rfl rfl rfl
  obtain ⟨-, emits⟩ := arrives (by decide) (by decide) rfl rfl
  obtain ⟨t, run, -, sent, -⟩ := emits rfl rfl (by decide) rfl rfl rfl rfl (by decide) (by decide) (drains_linkFree _)
  rw [drains_outbox run] at sent
  exact absurd sent (by simp)

end Sys2Proof.Machine
end

