-- ==== Sys2Proof/Proofs/RangeWrites.lean ====
section
/-! SUPPORT. Writes of a global range whose cells are all VALUE (R292). -/
namespace Sys2Proof.Machine
variable {s : State}

/-! ## Writes of a global range whose cells are all VALUE (R292) -/

theorem memWrite_append (m : List Host.Cell) (a : Nat) (xs ys : List Byte) :
    memWrite m a (xs ++ ys) = memWrite (memWrite m a xs) (a + xs.length) ys := by
  induction xs generalizing m a with
  | nil => rfl
  | cons x xs ih =>
    rw [List.cons_append, memWrite, memWrite, ih, List.length_cons, Nat.add_right_comm, Nat.add_assoc]

theorem State.wrBytes_append (s : State) (a : Nat) (xs ys : List Byte) :
    s.wrBytes a (xs ++ ys) = (s.wrBytes a xs).wrBytes (a + xs.length) ys :=
  congrArg (fun mem => ({ s with m := { s.m with mem := mem } } : State)) (memWrite_append s.m.mem a xs ys)

/-- The unit of a byte of a range is among the units of the range. -/
theorem mem_unitsOf {l n u a : Nat} (hu : 0 < u) (low : l ≤ a) (high : a < l + n) : a / u * u ∈ unitsOf l n u := by
  have below : l / u ≤ a / u := Nat.div_le_div_right low
  have near : a / u < l / u + (n / u + 2) := by
    rw [Nat.div_lt_iff_lt_mul hu]
    have hl := Nat.lt_div_mul_add hu (a := l)
    have hn := Nat.lt_div_mul_add hu (a := n)
    calc a < l + n := high
      _ < (l / u * u + u) + (n / u * u + u) := by omega
      _ = (l / u + (n / u + 2)) * u := by ring
  have le : a / u * u ≤ a := Nat.div_mul_le_self a u
  refine List.mem_filterMap.mpr ⟨a / u - l / u, List.mem_range.mpr (by omega), ?_⟩
  have here : l / u * u + (a / u - l / u) * u = a / u * u := by rw [← Nat.add_mul, Nat.add_sub_cancel' below]
  simp only [here]
  exact if_pos (by omega)

theorem State.tag_unit (s : State) (a : Nat) : s.tag (a / 32 * 32) = s.tag a := by
  unfold State.tag
  rw [Nat.mul_div_cancel _ (by decide)]

/-- Cells that are all VALUE are written as plain bytes. -/
theorem State.writeCells_values (n : Nat) {s : State} {pa : Nat} {bs : List Byte} (enough : bs.length + pa % 32 ≤ 32 * n)
    (values : ∀ a, pa ≤ a → a < pa + bs.length → s.tag a = .value) : s.writeCells n pa bs = s.wrBytes pa bs := by
  induction n generalizing s pa bs with
  | zero =>
    obtain rfl : bs = [] := List.length_eq_zero_iff.mp (by omega)
    rfl
  | succ n ih =>
    rw [State.writeCells]
    by_cases none : bs = []
    · subst none
      rfl
    · have some : 0 < bs.length := List.length_pos_iff.mpr none
      have first : s.writeGlobal pa (bs.take (32 - pa % 32)) = s.wrBytes pa (bs.take (32 - pa % 32)) := by
        rw [State.writeGlobal, values pa (Nat.le_refl _) (by omega)]
      rw [if_neg (by simpa using none)]
      simp only
      rw [first, ih]
      · by_cases short : bs.length ≤ 32 - pa % 32
        · rw [List.drop_of_length_le short, List.take_of_length_le short]
          rfl
        · have cut : (bs.take (32 - pa % 32)).length = 32 - pa % 32 := by simp; omega
          conv_rhs => rw [← List.take_append_drop (32 - pa % 32) bs, State.wrBytes_append, cut]
      · rw [List.length_drop]
        omega
      · intro a low high
        rw [List.length_drop] at high
        exact values a (by omega) (by omega)

/-- What a write of a global range leaves, where every cell is VALUE. -/
theorem State.writeRange_values {pa : Nat} {bs : List Byte} (ok : s.memOk)
    (values : ∀ g ∈ unitsOf pa bs.length 32, s.tag g = .value) :
    (s.writeRange pa bs).rdBytes pa bs.length = bs ∧ SameBytesBut pa bs.length s (s.writeRange pa bs) := by
  have plain : s.writeCells (bs.length / 32 + 2) pa bs = s.wrBytes pa bs :=
    State.writeCells_values _ (by omega) fun a low high =>
      s.tag_unit a ▸ values _ (mem_unitsOf (by decide) low high)
  have bytes (a : Nat) : (s.writeRange pa bs).byteAt a = (s.wrBytes pa bs).byteAt a := by
    rw [State.writeRange, plain]
    rfl
  refine ⟨?_, fun a h => (bytes a).trans (s.sameBytesBut_wrBytes ok pa bs a h)⟩
  rw [State.writeRange, plain]
  exact State.rdBytes_wrBytes ok pa bs

end Sys2Proof.Machine
end

