-- ==== Sys2Proof/Proofs/HostPort.lean ====
section
/-! SUPPORT. The host port (O49). -/
namespace Sys2Proof.Machine
variable {s : State} {fn : Nat}

/-! ## Vectors of MSI-X (R368) -/

theorem State.signal_unmasked {v : Nat} {e : BitVec 128} (entry : (s.fn fn).msix[v]? = some e) (unmasked : e.getLsbD 96 = false) :
    s.signal fn v = s.send (.msix fn (e.truncate 64) (e.extractLsb' 64 32)) := by
  rw [State.signal, entry]
  exact if_neg (by rw [unmasked]; exact Bool.false_ne_true)

/-- A bit cleared. -/
theorem getLsbD_clear (x : BitVec 64) {i : Nat} (h : i < 64) : (x &&& ~~~(1#64 <<< i)).getLsbD i = false := by
  simp [h]

/-- A write of an MSI-X entry where the function is not LOCKED or beyond. -/
theorem State.writeMsix_open {idx : Nat} {v : BitVec 128} {u : State} (alive : s.dead fn = false)
    (isOpen : fn = 0 ∨ (s.part fn).tstate = .unlocked)
    (hu : s.setFn fn { s.fn fn with msix := (s.fn fn).msix.setIfInBounds idx v } = u) : s.writeMsix fn idx v =
      if !(v.getLsbD 96) && (s.fn fn).pba.getLsbD idx then
        (u.setFn fn { u.fn fn with pba := (s.fn fn).pba &&& ~~~(1#64 <<< idx) }).signal fn idx
      else u := by
  subst hu
  rw [State.dead, Bool.or_eq_false_iff, beq_eq_false_iff_ne] at alive
  have locked : ¬(fn ≠ 0 ∧ (s.part fn).tstate ≠ .unlocked) := fun h => isOpen.elim h.1 h.2
  rw [State.writeMsix, if_neg (by simp [alive.1, alive.2]), if_neg locked]

theorem State.writeMsix_quiet {idx : Nat} {v : BitVec 128} (alive : s.dead fn = false)
    (isOpen : fn = 0 ∨ (s.part fn).tstate = .unlocked) (quiet : v.getLsbD 96 = true ∨ (s.fn fn).pba.getLsbD idx = false) :
    s.writeMsix fn idx v = s.setFn fn { s.fn fn with msix := (s.fn fn).msix.setIfInBounds idx v } := by
  rw [State.writeMsix_open alive isOpen rfl]
  refine if_neg ?_
  obtain masked | none := quiet
  · rw [masked]
    exact Bool.false_ne_true
  · rw [none, Bool.and_false]
    exact Bool.false_ne_true

theorem State.writeMsix_sends {idx : Nat} {v : BitVec 128} (hfn : fn < 64) (hidx : idx < 64) (alive : s.dead fn = false)
    (isOpen : fn = 0 ∨ (s.part fn).tstate = .unlocked) (unmasked : v.getLsbD 96 = false)
    (pending : (s.fn fn).pba.getLsbD idx = true) :
    (s.writeMsix fn idx v).m = s.m ∧ ((s.writeMsix fn idx v).fn fn).pba.getLsbD idx = false ∧
      (s.writeMsix fn idx v).host.outbox = s.host.outbox ++ [.msix fn (v.truncate 64) (v.extractLsb' 64 32)] := by
  obtain ⟨u, hu⟩ : ∃ u, s.setFn fn { s.fn fn with msix := (s.fn fn).msix.setIfInBounds idx v } = u := ⟨_, rfl⟩
  obtain ⟨w, hw⟩ : ∃ w, u.setFn fn { u.fn fn with pba := (s.fn fn).pba &&& ~~~(1#64 <<< idx) } = w := ⟨_, rfl⟩
  have uFn : u.fn fn = { s.fn fn with msix := (s.fn fn).msix.setIfInBounds idx v } := by
    rw [← hu, s.fn_setFn fn fn _ hfn, if_pos rfl]
  have wFn : w.fn fn = { u.fn fn with pba := (s.fn fn).pba &&& ~~~(1#64 <<< idx) } := by
    rw [← hw, u.fn_setFn fn fn _ hfn, if_pos rfl]
  have entry : (w.fn fn).msix[idx]? = some v := by
    rw [wFn, uFn]
    exact Vector.getElem?_setIfInBounds_self_of_lt hidx
  rw [State.writeMsix_open alive isOpen hu, if_pos (by rw [unmasked, pending]; rfl), hw, State.signal_unmasked entry unmasked]
  refine ⟨?_, ?_, ?_⟩
  · rw [← hw, ← hu]
    rfl
  · show (w.fn fn).pba.getLsbD idx = false
    rw [wFn]
    exact getLsbD_clear _ hidx
  · rw [← hw, ← hu]
    rfl

/-! ## The event queue (R372) -/

theorem execEventQueueAppend_appends {r : Report} {rest : List Report} (hfn : fn < 64) (waits : (s.fn fn).reports = r :: rest)
    (room : (s.fn fn).eqTail + 1#8 ≠ (s.fn fn).eqHead) : ∃ t, execEventQueueAppend fn s = .next t ∧ t.m = s.m ∧
      (t.fn fn).reports = rest ∧ (t.fn fn).eqTail = (s.fn fn).eqTail + 1#8 ∧
      (t.fn fn).events[(s.fn fn).eqTail.toNat]? = some r := by
  have runs : execEventQueueAppend fn s = .next ((s.setFn fn { s.fn fn with
      reports := rest, eqTail := (s.fn fn).eqTail + 1#8
      events := (s.fn fn).events.setIfInBounds (s.fn fn).eqTail.toNat r }).signal fn 0) := by
    rw [execEventQueueAppend, waits]
    exact if_neg room
  generalize hu : s.setFn fn _ = u at runs
  have uFn : u.fn fn = _ := hu ▸ (s.fn_setFn fn fn _ hfn).trans (if_pos rfl)
  obtain ⟨p, tFn⟩ := u.fn_signal hfn 0
  refine ⟨_, runs, (u.signal_m fn 0).trans (hu ▸ rfl), ?_⟩
  rw [tFn, uFn]
  exact ⟨rfl, rfl, Vector.getElem?_setIfInBounds_self_of_lt (s.fn fn).eqTail.isLt⟩

/-! ## A partition in ERROR (R369) -/

theorem State.toError_lost (h : fn < 64) :
    ((s.toError fn).part fn).tstate = .error ∧ ∀ l ∈ (s.toError fn).work.launches, l.part ≠ fn := by
  constructor
  · rw [State.toError]
    exact congrArg Partition.tstate ((State.part_setPart _ fn fn _ h).trans (if_pos rfl))
  · intro l held
    have kept := (List.mem_filter.mp (show l ∈ List.filter (fun l => l.part != fn) _ from held)).2
    simpa using kept

/-! ## Reads of a BAR (R436) -/

theorem Acted.imp {o : Outside} {P Q : State → Prop} (h : Acted o s P) (weaker : ∀ t, P t → Q t) : Acted o s Q := by
  intro rest due
  obtain ⟨t, steps, agenda, holds⟩ := h rest due
  exact ⟨t, steps, agenda, weaker t holds⟩

/-- A host read that only answers. -/
theorem acted_barRead {off n st : Nat} {bs : List Byte} (hfn : fn < 64) (hn : n ≤ 4096)
    (answers : ∀ a, ({ s with agenda := a } : State).barRead fn off n = ({ s with agenda := a } : State).send (.completion fn bs st)) :
    Acted (.barRead fn off n) s
      (fun t => t.fn fn = s.fn fn ∧ t.m = s.m ∧ t.host.outbox = s.host.outbox ++ [.completion fn bs st]) := by
  intro rest due
  have real : (Outside.barRead fn off n).real = true := by simp [Outside.real, hfn, hn]
  refine ⟨({ s with agenda := rest } : State).send (.completion fn bs st), ?_, rfl, rfl, rfl, rfl⟩
  unfold step
  rw [due]
  dsimp only
  rw [if_pos real]
  exact congrArg _ (answers rest)

theorem State.barByte_agenda (a : List Activity) (off : Nat) : ({ s with agenda := a } : State).barByte fn off = s.barByte fn off := by
  have same : ({ s with agenda := a } : State).fn fn = s.fn fn := rfl
  simp only [State.barByte, State.barWord, same]

/-- A read that does not pop a status record. -/
theorem acted_plainRead {off n : Nat} (hfn : fn < 64) (hn : n ≤ 4096) (alive : s.dead fn = false) (plain : ¬(off = 0x40 ∧ n = 16)) :
    Acted (.barRead fn off n) s (fun t => t.fn fn = s.fn fn ∧ t.m = s.m ∧
      t.host.outbox = s.host.outbox ++ [.completion fn ((List.range n).map (fun i => s.barByte fn (off + i))) 0]) := by
  have shows (t : State) (alive : t.dead fn = false) :
      t.barRead fn off n = t.send (.completion fn ((List.range n).map (fun i => t.barByte fn (off + i))) 0) := by
    have there : t.absent fn = false := (Bool.or_eq_false_iff.mp alive).2
    rw [State.barRead, there, alive, if_neg Bool.false_ne_true, if_neg Bool.false_ne_true, if_neg plain, State.reply]
  refine acted_barRead hfn hn fun a => (shows { s with agenda := a } alive).trans ?_
  simp only [State.barByte_agenda]

/-- The bytes of an aligned word of a BAR. -/
theorem State.barBytes (s : State) (fn : Nat) {off : Nat} (aligned : off % 8 = 0) :
    (List.range 8).map (fun i => s.barByte fn (off + i)) = leBytes 8 (s.barWord fn off).toNat := by
  apply List.ext_getElem (by simp)
  intro i hi _
  have i8 : i < 8 := by simpa using hi
  have word : (off + i) / 8 * 8 = off := by omega
  have byte : (off + i) % 8 = i := by omega
  simp [State.barByte, word, byte, i8]

/-- What software reads at an aligned offset of a BAR: the map of R436, zero elsewhere (log entry 132). -/
theorem State.barWord_toNat (s : State) (fn : Nat) {off : Nat} (aligned : off % 8 = 0) : (s.barWord fn off).toNat =
    if off = 0x80 then (s.fn fn).eqHead.toNat else if off = 0x88 then (s.fn fn).eqTail.toNat
    else if off = 0x200 then (if (s.fn fn).done then 1 else 0) + 2 ^ 8 * (s.fn fn).code.toNat
    else if 0x208 ≤ off ∧ off < 0x300 then ((s.fn fn).response[(off - 0x208) / 8]?.getD 0#64).toNat
    else if 0x1000 ≤ off ∧ off < 0x1400 then
      ((s.fn fn).msix[(off - 0x1000) / 16]?.getD 0#128).toNat / 2 ^ (8 * (off % 16)) % 2 ^ 64
    else if off = 0x1800 then (s.fn fn).pba.toNat
    else if 0x2000 ≤ off ∧ off < 0x4000 then (match (s.fn fn).events[(off - 0x2000) / 32]? with
      | some r => ([r.word0, r.pc, r.info, r.time].getD (off % 32 / 8) 0#64).toNat
      | none => 0)
    else 0 := by
  unfold State.barWord
  dsimp only
  simp only [apply_ite BitVec.toNat]
  refine ite_congr rfl (fun _ => ?_) fun _ => ite_congr rfl (fun _ => ?_) fun _ => ite_congr rfl (fun _ => ?_) fun _ =>
    ite_congr rfl (fun _ => rfl) fun _ => ite_congr rfl (fun _ => ?_) fun _ => ite_congr rfl (fun _ => rfl) fun _ =>
    ite_congr rfl (fun _ => ?_) fun _ => rfl
  · exact BitVec.toNat_setWidth_of_le (by decide)
  · exact BitVec.toNat_setWidth_of_le (by decide)
  · have code := (s.fn fn).code.isLt
    cases (s.fn fn).done <;> simp [b2n] <;> omega
  · have half : off % 16 = 0 ∨ off % 16 = 8 := by omega
    obtain low | high := half
    · simp [low]
    · rw [if_neg (by omega), BitVec.extractLsb'_toNat, Nat.shiftRight_eq_div_pow, high]
  · cases (s.fn fn).events[(off - 8192) / 32]? <;> rfl

/-- The status register shows nothing to a read of another size. -/
theorem State.barByte_status (s : State) (fn : Nat) {i : Nat} (h : i < 16) : s.barByte fn (0x40 + i) = 0#8 := by
  have zero (off : Nat) (h : off = 0x40 ∨ off = 0x48) : s.barWord fn off = 0#64 := by
    obtain rfl | rfl := h <;> rfl
  have bytes : ∀ j, j < 8 → (leBytes 8 (0#64).toNat).getD j 0#8 = 0#8 := by decide
  rw [State.barByte, zero _ (by omega), bytes _ (by omega)]

/-! ## Host DMA of one page (R65, R367) -/

theorem execHostDmaRead_reads {trusted : Bool} {addr len : Nat} {p : Nat × Nat × Nat} (parts : dmaParts fn 3 addr len = [p])
    (allowed : s.dmaAllowed fn trusted [p] = true) (admits : s.dmaAdmits fn [p] = true) :
    let c := (s.charge fn (paDie p.1) 2 p.2.2).useKeys fn p.2.1 p.1 p.2.2
    (∀ g ∈ unitsOf p.1 p.2.2 64, c.isPoisoned g = false) → ∃ t, execHostDmaRead fn trusted addr len s = .next t ∧ t.m = c.m ∧
      t.host.outbox = c.host.outbox ++ [.completion fn (c.rdBytes p.1 p.2.2) 0] := by
  intro c sound
  have good : (unitsOf p.1 p.2.2 64).any c.isPoisoned = false := by simpa using sound
  refine ⟨c.send (.completion fn (c.rdBytes p.1 p.2.2) 0), ?_, rfl, rfl⟩
  rw [execHostDmaRead, parts, allowed, admits]
  simp only [State.dmaCharge, List.foldl_cons, List.foldl_nil, List.any_cons, List.any_nil, List.flatMap_cons, List.flatMap_nil,
    List.append_nil, Bool.or_false]
  rw [show (unitsOf p.1 p.2.2 64).any ((s.charge fn (paDie p.1) 2 p.2.2).useKeys fn p.2.1 p.1 p.2.2).isPoisoned = false from good]
  rfl

theorem execHostDmaWrite_writes {trusted : Bool} {addr : Nat} {data : List Byte} {p : Nat × Nat × Nat}
    (parts : dmaParts fn 3 addr data.length = [p]) (allowed : s.dmaAllowed fn trusted [p] = true)
    (admits : s.dmaAdmits fn [p] = true) (whole : p.2.2 = data.length) :
    let c := (s.charge fn (paDie p.1) 2 p.2.2).useKeys fn p.2.1 p.1 p.2.2
    c.memOk → (∀ g ∈ unitsOf p.1 p.2.2 32, c.tag g = .value) →
      ∃ t, execHostDmaWrite fn trusted addr data s = .next t ∧ t.rdBytes p.1 data.length = data ∧ SameBytesBut p.1 data.length c t := by
  intro c ok values
  rw [whole] at values
  refine ⟨c.writeRange p.1 data, ?_, State.writeRange_values ok values⟩
  rw [execHostDmaWrite, parts, allowed, admits]
  simp only [State.dmaCharge, List.foldl_cons, List.foldl_nil]
  rw [List.take_of_length_le (Nat.le_of_eq whole.symm)]
  rfl

/-- Settles O49. -/
theorem hostPort : Obligations.HostPort := by
  unfold Obligations.HostPort
  intro s fn value v hfn x
  refine ⟨fun alive => ⟨?_, fun done => ?_, fun i hi => ?_, fun off n bs aligned n8 shown => ?_, fun n hn n16 => ?_,
      fun idx hidx isOpen => ⟨fun quiet => ?_, fun unmasked pending => ?_⟩⟩,
    fun off n hn => ⟨fun absent => ?_, fun there error => ?_⟩,
    fun idx vf there active => ⟨?_, ?_, ?_⟩, ⟨_, rfl, rfl⟩, ⟨_, rfl, rfl⟩, fun r rest waits room => ?_,
    fun trusted addr len data p => ⟨fun refused => ?_, fun size refused => ?_, fun parts allowed admits => ⟨fun sound => ?_,
      fun size whole ok values => ?_⟩⟩⟩
  · exact ⟨_, if_neg (by simp [alive]), rfl⟩
  · refine ⟨_, ?_, rfl⟩
    show execRegisterWrite fn 0x100 value s = _
    rw [execRegisterWrite, if_neg (by simp [alive]), if_neg (by decide), if_pos rfl, if_pos done]
  · refine ⟨_, ?_, rfl⟩
    show execRegisterWrite fn (0x108 + 8 * i) value s = _
    rw [execRegisterWrite, if_neg (by simp [alive]), if_neg (by omega), if_neg (by omega), if_pos (by omega)]
    have number : (0x108 + 8 * i - 0x108) / 8 = i := by omega
    rw [number]
  · subst n8
    have shows : bs = leBytes 8 (s.barWord fn off).toNat := by
      rw [s.barWord_toNat fn aligned]
      exact shown
    rw [shows, ← s.barBytes fn aligned]
    exact acted_plainRead hfn (by decide) alive (by omega)
  · refine (acted_plainRead hfn hn alive fun h => n16 h.2).imp fun t done => ?_
    obtain ⟨same, mem, out⟩ := done
    refine ⟨same, mem, _, out, by simp, fun i hi h16 => ?_⟩
    rw [List.getElem?_map, List.getElem?_range hi]
    exact congrArg some (s.barByte_status fn h16)
  · exact ⟨_, rfl, State.writeMsix_quiet alive isOpen quiet⟩
  · exact ⟨_, rfl, State.writeMsix_sends hfn hidx alive isOpen unmasked pending⟩
  · refine (acted_barRead hfn hn fun a => ?_).imp fun t ⟨same, _, out⟩ => ⟨same, out⟩
    exact if_pos absent
  · refine (acted_barRead hfn hn fun a => ?_).imp fun t ⟨same, _, out⟩ => ⟨same, out⟩
    have there' : ({ s with agenda := a } : State).absent fn = false := there
    have dead : ({ s with agenda := a } : State).dead fn = true := Bool.or_eq_true_iff.mpr (.inl (beq_iff_eq.mpr error))
    simp [State.barRead, there', dead, State.reply]
  · refine ⟨_, rfl, ?_⟩
    have alive : ¬((s.part fn).tstate = .error ∨ s.absent fn = true) := by
      rw [there]
      obtain locked | run := active
      · simp [locked]
      · simp [run]
    have inForce : (s.part fn).tstate ≠ .unlocked := by
      obtain locked | run := active
      · simp [locked]
      · simp [run]
    rw [State.writeMsix, if_neg alive, if_pos ⟨vf, inForce⟩]
    exact State.toError_lost hfn
  · refine ⟨_, rfl, ?_⟩
    rw [State.disturb, if_pos active]
    exact State.toError_lost hfn
  · have lossRuns : execIdeStreamLoss fn s = .next ((s.setFn fn { s.fn fn with ide := false }).disturb fn) :=
      congrArg _ (if_neg vf)
    refine ⟨_, lossRuns, ?_⟩
    rw [State.disturb, State.part_setFn, if_pos active]
    exact State.toError_lost hfn
  · exact execEventQueueAppend_appends hfn waits room
  · refine ⟨_, ?_, rfl⟩
    show execHostDmaRead fn trusted addr len s = _
    rw [execHostDmaRead, refused]
    rfl
  · refine ⟨_, ?_, rfl⟩
    show execHostDmaWrite fn trusted addr data s = _
    rw [execHostDmaWrite, size, refused]
    rfl
  · exact execHostDmaRead_reads parts allowed admits sound
  · subst size
    exact execHostDmaWrite_writes parts allowed admits whole ok values
end Sys2Proof.Machine
end

