-- ==== Sys2Proof/Proofs/FloatValues.lean ====
section
/-! SUPPORT. Exact values of floating-point patterns, by their fields (R69, R70, R75). -/
namespace Sys2Proof.Machine

/-! ## Exact values of floating-point values -/

/-- The exact value of a finite value; a NaN and an infinity have none, and 0 stands for it. -/
def FVal.rat : FVal → ℚ
  | .fin s m e => if s then -(m * 2 ^ e) else m * 2 ^ e
  | _ => 0

theorem natCast_mul_zpow {m : Nat} {e e0 : Int} (le : e0 ≤ e) :
    ((m * 2 ^ (e - e0).toNat : Nat) : ℚ) * 2 ^ e0 = m * 2 ^ e := by
  have parts : e = ((e - e0).toNat : Int) + e0 := by omega
  rw [congrArg (fun k : Int => (m : ℚ) * 2 ^ k) parts, zpow_add₀ two_ne_zero, zpow_natCast]
  push_cast
  ring

/-- A numerator brought to a smaller exponent has the same value. -/
theorem scaled_rat {s : Bool} {m : Nat} {e e0 : Int} (le : e0 ≤ e) :
    (scaled s m e e0 : ℚ) * 2 ^ e0 = (FVal.fin s m e).rat := by
  have value := natCast_mul_zpow (m := m) le
  push_cast at value
  cases s <;> simp [scaled, FVal.rat, ← value]

/-- The order of finite values is that of their exact values (R88). -/
theorem FVal.lt_fin {s t : Bool} {m n : Nat} {e f : Int} :
    (FVal.fin s m e).lt (.fin t n f) = true ↔ (FVal.fin s m e).rat < (FVal.fin t n f).rat := by
  rw [← scaled_rat (min_le_left e f), ← scaled_rat (min_le_right e f), mul_lt_mul_iff_left₀ (by positivity), Int.cast_lt]
  exact decide_eq_true_iff

/-- The value that a numerator with its sign stands for. -/
theorem FVal.signed_rat (z : Int) (e : Int) : (FVal.fin (decide (z < 0)) z.natAbs e).rat = z * 2 ^ e := by
  obtain lt | ge := lt_or_ge z 0
  · simp [FVal.rat, lt, abs_of_neg]
  · simp [FVal.rat, ge.not_gt, abs_of_nonneg ge]

@[simp] theorem FVal.negate_rat (x : FVal) : x.negate.rat = -x.rat := by
  cases x with
  | fin s m e => cases s <;> simp [FVal.negate, FVal.rat]
  | _ => simp [FVal.negate, FVal.rat]

@[simp] theorem FVal.negate_isNan (x : FVal) : x.negate.isNan = x.isNan := by cases x <;> rfl

theorem FVal.mul_fin_rat (s t : Bool) (m n : Nat) (e f : Int) :
    (FVal.fin (s != t) (m * n) (e + f)).rat = (FVal.fin s m e).rat * (FVal.fin t n f).rat := by
  cases s <;> cases t <;> simp [FVal.rat, zpow_add₀] <;> ring

/-! ## Patterns of one format: their magnitudes and values (R69, R70) -/

/-- The significand of a magnitude pattern, its exponent and fraction fields taken as one number. -/
def significand (fb a : Nat) : Nat := if a < 2 ^ fb then a else 2 ^ fb + a % 2 ^ fb

/-- The exponent field that counts for a magnitude pattern: that of a subnormal value is 1. -/
def binade (fb a : Nat) : Nat := max (a / 2 ^ fb) 1

/-- The magnitude of a pattern in units of its format's smallest value. -/
def magUnits (fb a : Nat) : Nat := significand fb a * 2 ^ (binade fb a - 1)

theorem binade_pos (fb a : Nat) : 1 ≤ binade fb a := le_max_right _ _

/-- A pattern is its binade's first pattern and the significand above it. -/
theorem pattern_eq (fb a : Nat) : (binade fb a - 1) * 2 ^ fb + significand fb a = a := by
  unfold significand binade
  split
  · next sub => rw [Nat.div_eq_of_lt sub]; simp
  · next normal =>
    have pos := Nat.div_pos (Nat.le_of_not_lt normal) (by positivity)
    obtain ⟨k, hk⟩ : ∃ k, a / 2 ^ fb = k + 1 := ⟨_, (Nat.succ_pred_eq_of_pos pos).symm⟩
    have whole := Nat.div_add_mod' a (2 ^ fb)
    rw [hk] at whole ⊢
    rw [max_eq_left (by omega), Nat.add_sub_cancel]
    linarith

theorem significand_lt (fb a : Nat) : significand fb a < 2 * 2 ^ fb := by
  unfold significand
  have := Nat.mod_lt a (show 0 < 2 ^ fb by positivity)
  split <;> omega

theorem significand_ge {fb a : Nat} (h : 2 ^ fb ≤ a) : 2 ^ fb ≤ significand fb a := by
  rw [significand, if_neg (by omega)]
  omega

theorem magUnits_lt_succ (fb a : Nat) : magUnits fb a < magUnits fb (a + 1) := by
  have here := pattern_eq fb a
  have next := pattern_eq fb (a + 1)
  have le : binade fb a ≤ binade fb (a + 1) := max_le_max (Nat.div_le_div_right (Nat.le_succ a)) le_rfl
  obtain ⟨k, hk⟩ := Nat.exists_eq_add_of_le le
  have p1 := binade_pos fb a
  have same : binade fb (a + 1) - 1 = binade fb a - 1 + k := by omega
  rw [same] at next
  rw [magUnits, magUnits, same, pow_add]
  obtain zero | pos := Nat.eq_zero_or_pos k
  · subst zero
    rw [Nat.add_zero] at next
    have : significand fb a < significand fb (a + 1) := by omega
    simpa using this
  · have big : 2 ^ fb ≤ a + 1 := by
      by_contra small
      have : (a + 1) / 2 ^ fb = 0 := Nat.div_eq_of_lt (by omega)
      have : binade fb (a + 1) = 1 := by rw [binade, this]; rfl
      omega
    have ge := significand_ge big
    have lt := significand_lt fb a
    calc significand fb a * 2 ^ (binade fb a - 1) < 2 * 2 ^ fb * 2 ^ (binade fb a - 1) := by gcongr
      _ ≤ significand fb (a + 1) * (2 ^ (binade fb a - 1) * 2 ^ k) := by
        have : 2 ^ 1 ≤ 2 ^ k := Nat.pow_le_pow_right (by omega) pos
        calc 2 * 2 ^ fb * 2 ^ (binade fb a - 1) = 2 ^ fb * (2 ^ (binade fb a - 1) * 2 ^ 1) := by ring
          _ ≤ _ := by gcongr

theorem magUnits_strictMono (fb : Nat) : StrictMono (magUnits fb) := strictMono_nat_of_lt_succ (magUnits_lt_succ fb)

@[simp] theorem magUnits_zero (fb : Nat) : magUnits fb 0 = 0 := by simp [magUnits, significand]

theorem significand_pos {fb a : Nat} (h : 0 < a) : 0 < significand fb a := by
  unfold significand
  split <;> omega

/-- The exponent of a value's leading bit depends on the value alone. -/
theorem log2_add_exp_of_eq {m n : Nat} {e f : Int} (hm : m ≠ 0) (hn : n ≠ 0) (h : (m : ℚ) * 2 ^ e = n * 2 ^ f) :
    (Nat.log2 m : Int) + e = Nat.log2 n + f := by
  have lead {m : Nat} {e : Int} (hm : m ≠ 0) : Int.log 2 ((m : ℚ) * 2 ^ e) = Nat.log2 m + e := by
    have pos : (0 : ℚ) < m * 2 ^ e := by positivity
    have low : (2 : ℚ) ^ Nat.log2 m ≤ m := by exact_mod_cast Nat.log2_self_le hm
    have high : (m : ℚ) < 2 ^ (Nat.log2 m + 1) := by exact_mod_cast Nat.lt_log2_self
    refine le_antisymm (Int.lt_add_one_iff.mp ((Int.lt_zpow_iff_log_lt one_lt_two pos).mp ?_))
      ((Int.zpow_le_iff_le_log one_lt_two pos).mp ?_)
    · rw [add_right_comm, zpow_add₀ (by norm_num)]
      exact mul_lt_mul_of_pos_right (by exact_mod_cast high) (by positivity)
    · rw [zpow_add₀ (by norm_num)]
      exact mul_le_mul_of_nonneg_right (by exact_mod_cast low) (by positivity)
  rw [← lead hm, ← lead hn, h]

theorem roundAt_exact {mode m M : Nat} {neg : Bool} {e q : Int} (h : (m : ℚ) * 2 ^ e = M * 2 ^ q) :
    roundAt mode neg m e q = (M, false) := by
  unfold roundAt
  split
  · next le =>
    have := natCast_mul_zpow (m := m) le
    rw [h] at this
    have same := mul_right_cancel₀ (by positivity) this
    rw [Nat.cast_inj.mp same]
  · next lt =>
    have := natCast_mul_zpow (m := M) (e := q) (e0 := e) (by omega)
    rw [← h] at this
    have same : m = M * 2 ^ (q - e).toNat := (Nat.cast_inj.mp (mul_right_cancel₀ (by positivity) this)).symm
    subst same
    have pos : 0 < 2 ^ (q - e).toNat := by positivity
    simp [Nat.mul_div_cancel _ pos, roundsUp, b2n]

theorem log2_significand {fb a : Nat} (h : 0 < a) :
    (2 ^ fb ≤ a → Nat.log2 (significand fb a) = fb) ∧ (a < 2 ^ fb → Nat.log2 (significand fb a) < fb) := by
  have pos := (significand_pos (fb := fb) h).ne'
  refine ⟨fun normal => ?_, fun sub => ?_⟩
  · rw [Nat.log2_eq_iff pos]
    exact ⟨significand_ge normal, by rw [pow_succ']; exact significand_lt fb a⟩
  · rw [Nat.log2_lt pos, significand, if_pos sub]
    exact sub

/-- The exponent of the format's smallest value. -/
def Fmt.minExp (F : Fmt) : Int := 1 - F.bias - F.fb

theorem Fmt.significand_value (F : Fmt) (a : Nat) :
    (significand F.fb a : ℚ) * 2 ^ ((binade F.fb a : Int) - F.bias - F.fb) = magUnits F.fb a * 2 ^ F.minExp := by
  have := binade_pos F.fb a
  have units : ((binade F.fb a : Int) - F.bias - F.fb - F.minExp).toNat = binade F.fb a - 1 := by
    rw [Fmt.minExp]
    omega
  rw [magUnits, ← natCast_mul_zpow (m := significand F.fb a) (e0 := F.minExp) (by rw [Fmt.minExp]; omega), units]

/-- The exponent by which R75 rounds a value that the format holds. -/
theorem leading_exponent {fb a : Nat} (pos : 0 < a) (bias : Int) :
    max ((Nat.log2 (significand fb a) : Int) + (binade fb a - bias - fb)) (1 - bias) = binade fb a - bias := by
  obtain ⟨normal, subnormal⟩ := log2_significand (fb := fb) pos
  have := binade_pos fb a
  obtain lt | ge := Nat.lt_or_ge a (2 ^ fb)
  · have := subnormal lt
    have : binade fb a = 1 := by rw [binade, Nat.div_eq_of_lt lt]; rfl
    omega
  · have := normal ge
    omega

/-- A magnitude that the format holds is its own rounding in every mode, and raises no flag (R75). -/
theorem Fmt.round_exact (F : Fmt) (mode : Nat) (neg : Bool) {m a : Nat} {e : Int} (pos : 0 < a) (fin : a < F.top * 2 ^ F.fb)
    (h : (m : ℚ) * 2 ^ e = magUnits F.fb a * 2 ^ F.minExp) : F.round mode neg m e = (F.pack neg a, 0#5) := by
  have sig := significand_pos (fb := F.fb) pos
  have value := h.trans (F.significand_value a).symm
  have m0 : m ≠ 0 := by
    rintro rfl
    have : (0 : ℚ) < significand F.fb a * 2 ^ ((binade F.fb a : Int) - F.bias - F.fb) := by positivity
    simp [← value] at this
  have lead : max ((Nat.log2 m : Int) + e) (1 - F.bias) = binade F.fb a - F.bias := by
    rw [log2_add_exp_of_eq m0 sig.ne' value, leading_exponent pos]
  have body : ((binade F.fb a : Int) - F.bias - F.fb + F.fb + F.bias - 1).toNat * 2 ^ F.fb + significand F.fb a = a := by
    rw [show ((binade F.fb a : Int) - F.bias - F.fb + F.fb + F.bias - 1).toNat = binade F.fb a - 1 by omega, pattern_eq]
  simp only [Fmt.round, if_neg m0, lead, roundAt_exact value, body, if_neg (Nat.not_le.mpr fin), Bool.false_eq_true, if_false]

/-- What a pattern with those fields unpacks to (R70). -/
theorem Fmt.unpack_pack (F : Fmt) (neg : Bool) {a : Nat} (h : a < 2 ^ (F.eb + F.fb)) : F.unpack (F.pack neg a) =
    if a / 2 ^ F.fb = F.top then (if a % 2 ^ F.fb = 0 then .inf neg else .nan !(natBit (a % 2 ^ F.fb) (F.fb - 1)))
    else .fin neg (significand F.fb a) (binade F.fb a - F.bias - F.fb) := by
  have fields : F.pack neg a / 2 ^ F.low = b2n neg * 2 ^ (F.eb + F.fb) + a := Nat.mul_div_cancel _ (by positivity)
  have frac : (b2n neg * 2 ^ (F.eb + F.fb) + a) % 2 ^ F.fb = a % 2 ^ F.fb := by
    rw [pow_add, ← Nat.mul_assoc, Nat.mul_add_mod']
  have expo : (b2n neg * 2 ^ (F.eb + F.fb) + a) / 2 ^ F.fb % 2 ^ F.eb = a / 2 ^ F.fb := by
    have small : a / 2 ^ F.fb < 2 ^ F.eb := Nat.div_lt_of_lt_mul (by rwa [← pow_add, Nat.add_comm])
    rw [pow_add, ← Nat.mul_assoc, Nat.add_comm, Nat.add_mul_div_right _ _ (by positivity), Nat.add_mul_mod_self_right,
      Nat.mod_eq_of_lt small]
  have sign : natBit (b2n neg * 2 ^ (F.eb + F.fb) + a) (F.eb + F.fb) = neg := by
    rw [natBit, Nat.testBit_eq_decide_div_mod_eq, Nat.add_comm, Nat.add_mul_div_right _ _ (by positivity),
      Nat.div_eq_of_lt h]
    cases neg <;> rfl
  simp only [Fmt.unpack, fields, frac, expo, sign]
  split
  · rfl
  · split
    · next zero =>
      have sub : a < 2 ^ F.fb := (Nat.div_eq_zero_iff_lt (by positivity)).mp zero
      rw [significand, if_pos sub, binade, zero, Nat.mod_eq_of_lt sub]
      rfl
    · next pos =>
      have normal : ¬ a < 2 ^ F.fb := fun sub => pos (Nat.div_eq_of_lt sub)
      rw [significand, if_neg normal, binade, max_eq_left (by omega)]

/-! ## Scalar operands by precision (R69, R70) -/

theorem precision_cases (p : BitVec 1) : p = 0#1 ∨ p = 1#1 := by
  revert p
  decide

theorem fpat_lt (p : BitVec 1) (x : Word) : Spec.fpat p x < 2 ^ Spec.fbits p := Nat.mod_lt _ (by positivity)

theorem fmag_lt (p : BitVec 1) (x : Word) : Spec.fmag p x < 2 ^ (Spec.fbits p - 1) := Nat.mod_lt _ (by positivity)

theorem fpat_eq_pack (p : BitVec 1) (x : Word) : Spec.fpat p x = (precFmt p).pack (Spec.fsign p x) (Spec.fmag p x) := by
  have lt := fpat_lt p x
  obtain rfl | rfl := precision_cases p <;>
    simp [Fmt.pack, precFmt, f32, f64, Spec.fsign, Spec.fmag, Spec.fbits, b2n] at lt ⊢ <;> split <;> omega

/-- The classes of magnitude patterns by their fields (R69): the all-ones exponent, and with it the fraction. -/
theorem magnitude_class (p : BitVec 1) {a : Nat} (lt : a < 2 ^ (Spec.fbits p - 1)) :
    (Spec.finf p < a ↔ a / 2 ^ (precFmt p).fb = (precFmt p).top ∧ a % 2 ^ (precFmt p).fb ≠ 0) ∧
    (a = Spec.finf p ↔ a / 2 ^ (precFmt p).fb = (precFmt p).top ∧ a % 2 ^ (precFmt p).fb = 0) ∧
    (Spec.finf p < a → (natBit (a % 2 ^ (precFmt p).fb) ((precFmt p).fb - 1) = false ↔
      a < Spec.finf p + 2 ^ (Spec.fracBits p - 1))) := by
  obtain rfl | rfl := precision_cases p <;>
    simp [precFmt, f32, f64, Fmt.top, Spec.finf, Spec.fbits, Spec.fracBits, natBit,
      Nat.testBit_eq_decide_div_mod_eq] at lt ⊢ <;> omega

/-- What a pattern unpacks to, by its class. -/
theorem unpack_fpat (p : BitVec 1) (x : Word) : (precFmt p).unpack (Spec.fpat p x) =
    if Spec.fnan p x then .nan (Spec.fsnan p x) else if Spec.fmag p x = Spec.finf p then .inf (Spec.fsign p x)
    else .fin (Spec.fsign p x) (significand (precFmt p).fb (Spec.fmag p x))
      (binade (precFmt p).fb (Spec.fmag p x) - (precFmt p).bias - (precFmt p).fb) := by
  have lt := fmag_lt p x
  have width : Spec.fbits p - 1 = (precFmt p).eb + (precFmt p).fb := by obtain rfl | rfl := precision_cases p <;> rfl
  obtain ⟨nan, inf, quiet⟩ := magnitude_class p lt
  rw [fpat_eq_pack, Fmt.unpack_pack _ _ (width ▸ lt)]
  by_cases isNan : Spec.finf p < Spec.fmag p x
  · rw [if_pos (nan.mp isNan).1, if_neg (nan.mp isNan).2, if_pos (by simpa [Spec.fnan] using isNan)]
    refine congrArg _ (Bool.eq_iff_iff.mpr ?_)
    rw [Bool.not_eq_true', quiet isNan]
    simp [Spec.fsnan, Spec.fnan, isNan]
  · rw [if_neg (c := Spec.fnan p x = true) (by simp [Spec.fnan, isNan])]
    by_cases isInf : Spec.fmag p x = Spec.finf p
    · rw [if_pos (inf.mp isInf).1, if_pos (inf.mp isInf).2, if_pos isInf]
    · rw [if_neg isInf, if_neg (fun top => (Nat.eq_zero_or_pos _).elim (fun z => isInf (inf.mpr ⟨top, z⟩))
        (fun pos => isNan (nan.mpr ⟨top, pos.ne'⟩)))]

theorem fvalue_eq (p : BitVec 1) (x : Word) : Spec.fvalue p x =
    if Spec.fsign p x then -(magUnits (precFmt p).fb (Spec.fmag p x) * 2 ^ (precFmt p).minExp : ℚ)
    else magUnits (precFmt p).fb (Spec.fmag p x) * 2 ^ (precFmt p).minExp := by
  have frac : Spec.fracBits p = (precFmt p).fb := by obtain rfl | rfl := precision_cases p <;> rfl
  have bias : (if p = 0#1 then 127 else 1023) = (precFmt p).bias := by obtain rfl | rfl := precision_cases p <;> rfl
  rw [← Fmt.significand_value, Spec.fvalue, frac, bias]
  obtain sub | normal := Nat.lt_or_ge (Spec.fmag p x) (2 ^ (precFmt p).fb)
  · simp [significand, binade, Nat.div_eq_of_lt sub, Nat.mod_eq_of_lt sub, sub]
  · have pos : 0 < Spec.fmag p x / 2 ^ (precFmt p).fb := Nat.div_pos normal (by positivity)
    simp [significand, binade, pos.ne', Nat.not_lt.mpr normal, max_eq_left (show 1 ≤ _ from pos)]

/-- A finite pattern unpacks to a finite value, which is its own. -/
theorem unpack_finite {p : BitVec 1} {x : Word} (h : Spec.ffinite p x) :
    ∃ m e, (precFmt p).unpack (Spec.fpat p x) = .fin (Spec.fsign p x) m e ∧
      (FVal.fin (Spec.fsign p x) m e).rat = Spec.fvalue p x := by
  have unpacked := unpack_fpat p x
  rw [if_neg (by simpa [Spec.fnan] using h.le), if_neg h.ne] at unpacked
  exact ⟨_, _, unpacked, by rw [FVal.rat, Fmt.significand_value, fvalue_eq]⟩

end Sys2Proof.Machine
end

