-- ==== Sys2Proof/Proofs/FloatOrder.lean ====
section
/-! SUPPORT. The order of scalar operands: FMIN, FMAX and FCMP (O8). -/
namespace Sys2Proof.Machine

/-! ## Operands by their fields -/

/-- The value of a scalar operand, by the spec's fields. -/
theorem State.fval_eq (s : State) (p : BitVec 1) (r : BitVec 6) :
    s.fval p r = (precFmt p).unpack (Spec.fpat p (s.getG r)) := rfl

@[simp] theorem isNan_unpack (p : BitVec 1) (x : Word) : ((precFmt p).unpack (Spec.fpat p x)).isNan = Spec.fnan p x := by
  rw [unpack_fpat]
  split
  · next nan => exact nan.symm
  · next num =>
    rw [Bool.eq_false_iff.mpr num]
    split <;> rfl

theorem neg_unpack {p : BitVec 1} {x : Word} (num : Spec.fnan p x = false) :
    ((precFmt p).unpack (Spec.fpat p x)).neg = Spec.fsign p x := by
  rw [unpack_fpat, if_neg (by simp [num])]
  split <;> rfl

theorem signalling_unpack (p : BitVec 1) (x : Word) :
    (FVal.nan true == (precFmt p).unpack (Spec.fpat p x)) = Spec.fsnan p x := by
  rw [unpack_fpat]
  split
  · next nan => cases Spec.fsnan p x <;> rfl
  · next num =>
    rw [Spec.fsnan, Bool.eq_false_iff.mpr num, Bool.false_and]
    split <;> rfl

/-- NV is raised exactly by a signalling NaN operand (R72). -/
theorem snanFlag_unpack (p : BitVec 1) (x y : Word) :
    snanFlag [(precFmt p).unpack (Spec.fpat p x), (precFmt p).unpack (Spec.fpat p y)] =
      if Spec.fsnan p x || Spec.fsnan p y then Spec.nv else 0#5 := by
  simp only [snanFlag, List.contains_cons, signalling_unpack, List.contains_nil, Bool.or_false]
  rfl

theorem State.putF_eq (s : State) (d : BitVec 6) (r : FRes) : s.putF d r = .next (s.wroteF d (w64 r.1) r.2) := by
  rw [State.wroteF_eq, ← State.setG_adv]
  rfl

theorem w64_nan (p : BitVec 1) : w64 (precFmt p).nan = Spec.canonicalNan p := by
  obtain rfl | rfl := precision_cases p <;> rfl

/-! ## The order of values (R88) -/

theorem fvalue_lt_iff (p : BitVec 1) (x y : Word) : Spec.fvalue p x < Spec.fvalue p y ↔ Spec.fkey p x < Spec.fkey p y := by
  have mono := magUnits_strictMono (precFmt p).fb
  have zero (a : Nat) : magUnits (precFmt p).fb a = 0 ↔ a = 0 := by
    rw [← mono.injective.eq_iff (a := a), magUnits_zero]
  have units (x : Word) : Spec.fvalue p x = ((if Spec.fsign p x then -(magUnits (precFmt p).fb (Spec.fmag p x) : Int)
      else magUnits (precFmt p).fb (Spec.fmag p x) : Int) : ℚ) * 2 ^ (precFmt p).minExp := by
    rw [fvalue_eq]
    split <;> push_cast <;> ring
  rw [units, units, mul_lt_mul_iff_left₀ (by positivity), Int.cast_lt, Spec.fkey, Spec.fkey]
  have lt := mono.lt_iff_lt (a := Spec.fmag p x) (b := Spec.fmag p y)
  have gt := mono.lt_iff_lt (a := Spec.fmag p y) (b := Spec.fmag p x)
  have zx := zero (Spec.fmag p x)
  have zy := zero (Spec.fmag p y)
  split_ifs <;> omega

/-- The order of operands that are not NaN is that of their keys. -/
theorem lt_unpack {p : BitVec 1} {x y : Word} (hx : Spec.fnan p x = false) (hy : Spec.fnan p y = false) :
    ((precFmt p).unpack (Spec.fpat p x)).lt ((precFmt p).unpack (Spec.fpat p y)) =
      decide (Spec.fkey p x < Spec.fkey p y) := by
  have le {z : Word} (num : Spec.fnan p z = false) : Spec.fmag p z ≤ Spec.finf p := by simpa [Spec.fnan] using num
  have infinite {z : Word} (num : Spec.fnan p z = false) (inf : Spec.fmag p z = Spec.finf p) :
      (precFmt p).unpack (Spec.fpat p z) = .inf (Spec.fsign p z) := by
    rw [unpack_fpat, if_neg (by simp [num]), if_pos inf]
  have pos : 0 < Spec.finf p := by obtain rfl | rfl := precision_cases p <;> decide
  obtain ix | fx := (le hx).eq_or_lt <;> obtain iy | fy := (le hy).eq_or_lt
  · rw [infinite hx ix, infinite hy iy, Spec.fkey, Spec.fkey, ix, iy]
    cases Spec.fsign p x <;> cases Spec.fsign p y <;> simp [FVal.lt]; omega
  · obtain ⟨m, e, uy, -⟩ := unpack_finite fy
    rw [infinite hx ix, uy, Spec.fkey, Spec.fkey, ix]
    cases Spec.fsign p x <;> cases Spec.fsign p y <;> simp [FVal.lt] <;> omega
  · obtain ⟨m, e, ux, -⟩ := unpack_finite fx
    rw [infinite hy iy, ux, Spec.fkey, Spec.fkey, iy]
    cases Spec.fsign p x <;> cases Spec.fsign p y <;> simp [FVal.lt] <;> omega
  · obtain ⟨m, e, ux, vx⟩ := unpack_finite fx
    obtain ⟨n, f, uy, vy⟩ := unpack_finite fy
    rw [ux, uy, Bool.eq_iff_iff, FVal.lt_fin, vx, vy, fvalue_lt_iff, decide_eq_true_iff]

theorem fpat_of_fkeyZ {p : BitVec 1} {x y : Word} (h : Spec.fkeyZ p x = Spec.fkeyZ p y) : Spec.fpat p x = Spec.fpat p y := by
  rw [fpat_eq_pack, fpat_eq_pack]
  unfold Spec.fkeyZ at h
  cases sx : Spec.fsign p x <;> cases sy : Spec.fsign p y <;> simp only [sx, sy, Bool.false_eq_true, if_true, if_false] at h
  · rw [Int.ofNat_inj.mp h]
  · omega
  · omega
  · rw [show Spec.fmag p x = Spec.fmag p y by omega]

/-- The order of R88, which puts -0 below +0. -/
theorem less_iff_fkeyZ (p : BitVec 1) (x y : Word) :
    (Spec.fkey p x < Spec.fkey p y ∨ ¬ Spec.fkey p y < Spec.fkey p x ∧ Spec.fsign p x = true ∧ Spec.fsign p y = false) ↔
      Spec.fkeyZ p x < Spec.fkeyZ p y := by
  unfold Spec.fkey Spec.fkeyZ
  cases Spec.fsign p x <;> cases Spec.fsign p y <;> simp; omega

theorem keep_eq (p : BitVec 1) (a : Nat) : a / 2 ^ (precFmt p).low * 2 ^ (precFmt p).low = a := by
  obtain rfl | rfl := precision_cases p <;> simp [precFmt, f32, f64]

/-- FMIN and FMAX by the keys of R88. -/
theorem minMax_eq (p : BitVec 1) (isMax : Bool) (x y : Word) :
    (precFmt p).minMax isMax (Spec.fpat p x) (Spec.fpat p y) =
      (if Spec.fnan p x && Spec.fnan p y then (precFmt p).nan else if Spec.fnan p x then Spec.fpat p y
       else if Spec.fnan p y then Spec.fpat p x
       else if (if isMax then Spec.fkeyZ p y < Spec.fkeyZ p x else Spec.fkeyZ p x < Spec.fkeyZ p y) then Spec.fpat p x
       else Spec.fpat p y, if Spec.fsnan p x || Spec.fsnan p y then Spec.nv else 0#5) := by
  simp only [Fmt.minMax, isNan_unpack, snanFlag_unpack, keep_eq]
  cases hx : Spec.fnan p x
  case true => cases Spec.fnan p y <;> simp
  cases hy : Spec.fnan p y
  case true => simp
  have less : (decide (Spec.fkey p x < Spec.fkey p y) ||
      !decide (Spec.fkey p y < Spec.fkey p x) && Spec.fsign p x && !Spec.fsign p y) =
      decide (Spec.fkeyZ p x < Spec.fkeyZ p y) := by
    rw [Bool.eq_iff_iff, decide_eq_true_iff, ← less_iff_fkeyZ]
    simp [and_assoc]
  rw [lt_unpack hx hy, lt_unpack hy hx, neg_unpack hx, neg_unpack hy, less]
  cases isMax
  · simp
  · have tie : ¬ Spec.fkeyZ p x < Spec.fkeyZ p y → ¬ Spec.fkeyZ p y < Spec.fkeyZ p x → Spec.fpat p x = Spec.fpat p y :=
      fun ge le => fpat_of_fkeyZ (by omega)
    by_cases lt : Spec.fkeyZ p x < Spec.fkeyZ p y <;> by_cases gt : Spec.fkeyZ p y < Spec.fkeyZ p x
    · omega
    · simp [lt, gt]
    · simp [lt, gt]
    · simp [lt, gt, tie lt gt]

/-- FMIN and FMAX write what the order picks. -/
theorem exec_minMax (s : State) (d : BitVec 6) (p : BitVec 1) (isMax : Bool) (x y : Word) :
    s.putF d ((precFmt p).minMax isMax (Spec.fpat p x) (Spec.fpat p y)) = .next (s.wroteF d
      (if Spec.fnan p x && Spec.fnan p y then Spec.canonicalNan p else if Spec.fnan p x then w64 (Spec.fpat p y)
       else if Spec.fnan p y then w64 (Spec.fpat p x)
       else if (if isMax then Spec.fkeyZ p y < Spec.fkeyZ p x else Spec.fkeyZ p x < Spec.fkeyZ p y) then w64 (Spec.fpat p x)
       else w64 (Spec.fpat p y)) (if Spec.fsnan p x || Spec.fsnan p y then Spec.nv else 0#5)) := by
  rw [State.putF_eq, minMax_eq]
  simp only [apply_ite w64, w64_nan]

/-! ## FCMP (R131) -/

/-- The six conditions of FCMP by the keys of the operands. -/
theorem fcmpVal_eq (c : Nat) (p : BitVec 1) (x y : Word) :
    let un := Spec.fnan p x || Spec.fnan p y
    let quiet : BitVec 5 := if Spec.fsnan p x || Spec.fsnan p y then Spec.nv else 0#5
    let loud : BitVec 5 := if un then Spec.nv else 0#5
    fcmpVal c ((precFmt p).unpack (Spec.fpat p x)) ((precFmt p).unpack (Spec.fpat p y)) =
      if c = 0 then (!un && decide (Spec.fkey p x = Spec.fkey p y), quiet)
      else if c = 1 then (un || decide (Spec.fkey p x ≠ Spec.fkey p y), quiet)
      else if c = 2 then (!un && decide (Spec.fkey p x < Spec.fkey p y), loud)
      else if c = 3 then (!un && decide (Spec.fkey p y ≤ Spec.fkey p x), loud)
      else if c = 4 then (!un && decide (Spec.fkey p x ≤ Spec.fkey p y), loud)
      else (un, quiet) := by
  simp only [fcmpVal, isNan_unpack, snanFlag_unpack, show flagNV = Spec.nv from rfl]
  cases hx : Spec.fnan p x
  case true => simp
  cases hy : Spec.fnan p y
  case true => simp
  have eq : (!decide (Spec.fkey p x < Spec.fkey p y) && !decide (Spec.fkey p y < Spec.fkey p x)) =
      decide (Spec.fkey p x = Spec.fkey p y) := by
    rw [Bool.eq_iff_iff]
    simp
    omega
  simp only [lt_unpack hx hy, lt_unpack hy hx, Bool.or_false, Bool.not_false, Bool.true_and, Bool.false_or, eq]
  simp only [← decide_not, Int.not_lt, ne_eq]

/-- Settles O8. -/
theorem floatOrder : Obligations.FloatOrder := by
  unfold Obligations.FloatOrder
  intro s d a b p c x y un quiet loud low pick
  refine ⟨exec_minMax s d p false x y, exec_minMax s d p true x y, ?_⟩
  have run : exec (.fcmp d a b c p) s =
      .next (s.wroteF d (w64 (b2n (fcmpVal c.toNat ((precFmt p).unpack (Spec.fpat p x)) ((precFmt p).unpack (Spec.fpat p y))).1))
        (fcmpVal c.toNat ((precFmt p).unpack (Spec.fpat p x)) ((precFmt p).unpack (Spec.fpat p y))).2) := s.putF_eq d _
  have word (h : Bool) : w64 (b2n h) = if h then 1#64 else 0#64 := by cases h <;> rfl
  rw [fcmpVal_eq, word] at run
  refine ⟨?_, ?_, ?_, ?_, ?_, ?_⟩ <;> rintro rfl <;> exact run

end Sys2Proof.Machine
end

