-- ==== Sys2Proof/Proofs/FloatResults.lean ====
section
/-! SUPPORT. NaN results and exact results of scalar arithmetic (O7). -/
namespace Sys2Proof.Machine

/-! ## NaN results (R72) -/

/-- A result is the canonical NaN, or has the fields of a number or an infinity. -/
def Fmt.Canonical (F : Fmt) (n : Nat) : Prop := n = F.nan ∨ ∃ neg a, a ≤ F.top * 2 ^ F.fb ∧ n = F.pack neg a

theorem Fmt.canonical_nan (F : Fmt) : F.Canonical F.nan := .inl rfl
theorem Fmt.canonical_inf (F : Fmt) (neg : Bool) : F.Canonical (F.inf neg) := .inr ⟨neg, _, le_rfl, rfl⟩
theorem Fmt.canonical_zero (F : Fmt) (neg : Bool) : F.Canonical (F.zero neg) := .inr ⟨neg, 0, Nat.zero_le _, rfl⟩

theorem Fmt.canonical_round (F : Fmt) (mode : Nat) (neg : Bool) (m : Nat) (e : Int) : F.Canonical (F.round mode neg m e).1 := by
  simp only [Fmt.round]
  split
  · exact F.canonical_zero neg
  · split
    · simp only [Fmt.overflow]
      split
      · exact F.canonical_inf neg
      · exact .inr ⟨neg, _, Nat.sub_le _ _, rfl⟩
    · next fits => exact .inr ⟨neg, _, (Nat.lt_of_not_le fits).le, rfl⟩

theorem Fmt.canonical_addVals (F : Fmt) (mode : Nat) (x y : FVal) : F.Canonical (F.addVals mode x y).1 := by
  unfold Fmt.addVals
  split
  · split
    · exact F.canonical_inf _
    · exact F.canonical_nan
  · exact F.canonical_inf _
  · exact F.canonical_inf _
  · simp only
    split
    · exact F.canonical_zero _
    · exact F.canonical_round ..
  · exact F.canonical_nan

/-- The NaN rule of R72 for an operation on two operands: its results are canonical, and a NaN operand gives the NaN. -/
structure Fmt.NanRule (F : Fmt) (op : FVal → FVal → FRes) : Prop where
  canonical : ∀ x y, F.Canonical (op x y).1
  of_nan : ∀ x y, (x.isNan || y.isNan) = true → op x y = (F.nan, snanFlag [x, y])

theorem Fmt.add_nanRule (F : Fmt) (mode : Nat) : F.NanRule (F.add mode) where
  canonical x y := by
    unfold Fmt.add
    split
    · exact F.canonical_nan
    · exact F.canonical_addVals mode x y
  of_nan x y nan := if_pos nan

theorem snanFlag_negate (x y : FVal) : snanFlag [x, y.negate] = snanFlag [x, y] := by
  cases y <;> simp [snanFlag, FVal.negate]

theorem Fmt.sub_nanRule (F : Fmt) (mode : Nat) : F.NanRule (F.sub mode) where
  canonical x y := (F.add_nanRule mode).canonical x y.negate
  of_nan x y nan := by
    rw [Fmt.sub, (F.add_nanRule mode).of_nan x y.negate (by rwa [FVal.negate_isNan]), snanFlag_negate]

theorem Fmt.canonical_ofVal (F : Fmt) (mode : Nat) (x : FVal) : F.Canonical (F.ofVal mode x).1 := by
  cases x with
  | nan => exact F.canonical_nan
  | inf s => exact F.canonical_inf s
  | fin s m e => exact F.canonical_round mode s m e

theorem Fmt.mul_nanRule (F : Fmt) (mode : Nat) : F.NanRule (F.mul mode) where
  canonical x y := by
    unfold Fmt.mul
    split
    · exact F.canonical_nan
    · split
      · exact F.canonical_ofVal ..
      · exact F.canonical_nan
  of_nan x y nan := if_pos nan

theorem Fmt.div_nanRule (F : Fmt) (mode : Nat) : F.NanRule (F.div mode) where
  canonical x y := by
    unfold Fmt.div
    split
    · exact F.canonical_nan
    · exact F.canonical_nan
    · exact F.canonical_nan
    · exact F.canonical_inf _
    · exact F.canonical_zero _
    · split
      · split
        · exact F.canonical_nan
        · exact F.canonical_inf _
      · exact F.canonical_round ..
  of_nan x y nan := by
    cases x with
    | nan => rfl
    | inf | fin =>
      cases y with
      | nan => rfl
      | inf | fin => cases nan

theorem w64_canonical {p : BitVec 1} {n : Nat} (h : (precFmt p).Canonical n) : (w64 n).toNat < 2 ^ Spec.fbits p ∧
    (Spec.fnan p (w64 n) = true → w64 n = Spec.canonicalNan p) := by
  obtain rfl | ⟨neg, a, le, rfl⟩ := h
  · rw [w64_nan]
    exact ⟨by obtain rfl | rfl := precision_cases p <;> decide, fun _ => rfl⟩
  · obtain rfl | rfl := precision_cases p <;> cases neg <;>
      simp [precFmt, f32, f64, Fmt.pack, Fmt.top, b2n, Spec.fbits, Spec.fnan, Spec.fmag, Spec.fpat, Spec.finf] at le ⊢ <;> omega

/-- A two-operand form of R130 whose operation keeps the NaN rule completes by it. -/
theorem State.fop2_nanRule (s : State) (d a b : BitVec 6) (p : BitVec 1) {op : Fmt → FVal → FVal → FRes}
    (rule : (precFmt p).NanRule (op (precFmt p))) :
    ∃ x f, s.fop2 d a b p op = .next (s.wroteF d x f) ∧ x.toNat < 2 ^ Spec.fbits p ∧
      (Spec.fnan p x = true → x = Spec.canonicalNan p) ∧
      (Spec.fnan p (s.getG a) = true ∨ Spec.fnan p (s.getG b) = true → x = Spec.canonicalNan p ∧
        f = if Spec.fsnan p (s.getG a) || Spec.fsnan p (s.getG b) then Spec.nv else 0#5) := by
  obtain ⟨bound, nan⟩ := w64_canonical (rule.canonical (s.fval p a) (s.fval p b))
  refine ⟨_, _, s.putF_eq d _, bound, nan, fun operand => ?_⟩
  rw [rule.of_nan _ _ (by simpa [State.fval_eq] using operand), w64_nan, State.fval_eq, State.fval_eq, snanFlag_unpack]
  exact ⟨rfl, rfl⟩

/-! ## Exact results (R75) -/

/-- A value that a pattern holds is rounded to that pattern in every mode, without a flag. -/
theorem round_of_rat {p : BitVec 1} {z : Word} {neg : Bool} {m : Nat} {e : Int} (mode : Nat) (fin : Spec.ffinite p z)
    (nonzero : Spec.fvalue p z ≠ 0) (value : (FVal.fin neg m e).rat = Spec.fvalue p z) :
    (precFmt p).round mode neg m e = (Spec.fpat p z, 0#5) := by
  have units : (0 : ℚ) ≤ magUnits (precFmt p).fb (Spec.fmag p z) * 2 ^ (precFmt p).minExp := by positivity
  have size : (0 : ℚ) ≤ m * 2 ^ e := by positivity
  have pos : 0 < Spec.fmag p z := by
    refine Nat.pos_of_ne_zero fun zero => nonzero ?_
    simp [fvalue_eq, zero]
  have inf : Spec.finf p = (precFmt p).top * 2 ^ (precFmt p).fb := by obtain rfl | rfl := precision_cases p <;> rfl
  rw [fvalue_eq] at value nonzero
  have same : neg = Spec.fsign p z ∧ (m : ℚ) * 2 ^ e = magUnits (precFmt p).fb (Spec.fmag p z) * 2 ^ (precFmt p).minExp := by
    cases neg <;> cases sz : Spec.fsign p z <;> simp only [FVal.rat, sz, Bool.false_eq_true, if_true, if_false] at value nonzero
    · exact ⟨rfl, value⟩
    · exact absurd (by linarith) nonzero
    · exact absurd (by linarith) nonzero
    · exact ⟨rfl, neg_injective value⟩
  obtain ⟨rfl, same⟩ := same
  rw [Fmt.round_exact _ mode _ pos (inf ▸ fin) same, fpat_eq_pack]

theorem add_exact {p : BitVec 1} {z : Word} {s t : Bool} {m n : Nat} {e f : Int} (mode : Nat) (fin : Spec.ffinite p z)
    (nonzero : Spec.fvalue p z ≠ 0) (sum : Spec.fvalue p z = (FVal.fin s m e).rat + (FVal.fin t n f).rat) :
    (precFmt p).add mode (.fin s m e) (.fin t n f) = (Spec.fpat p z, 0#5) := by
  have value : Spec.fvalue p z = (scaled s m e (min e f) + scaled t n f (min e f) : Int) * 2 ^ min e f := by
    rw [sum, ← scaled_rat (min_le_left e f), ← scaled_rat (min_le_right e f)]
    push_cast
    ring
  show (precFmt p).addVals mode (.fin s m e) (.fin t n f) = _
  simp only [Fmt.addVals]
  generalize scaled s m e (min e f) + scaled t n f (min e f) = k at value ⊢
  have k0 : k ≠ 0 := by
    rintro rfl
    exact nonzero (by simp [value])
  rw [if_neg k0]
  exact round_of_rat mode fin nonzero ((FVal.signed_rat ..).trans value.symm)

theorem mul_exact {p : BitVec 1} {z : Word} {s t : Bool} {m n : Nat} {e f : Int} (mode : Nat) (fin : Spec.ffinite p z)
    (nonzero : Spec.fvalue p z ≠ 0) (product : Spec.fvalue p z = (FVal.fin s m e).rat * (FVal.fin t n f).rat) :
    (precFmt p).mul mode (.fin s m e) (.fin t n f) = (Spec.fpat p z, 0#5) :=
  round_of_rat mode fin nonzero ((FVal.mul_fin_rat s t m n e f).trans product.symm)

/-- Settles O7. -/
theorem floatResults : Obligations.FloatResults := by
  unfold Obligations.FloatResults
  refine ⟨fun s d a b r p i _ form => ?_, ?_⟩
  · obtain rfl | rfl | rfl | rfl := form
    · exact s.fop2_nanRule d a b p (op := fun F => F.add (s.mode r)) (Fmt.add_nanRule _ _)
    · exact s.fop2_nanRule d a b p (op := fun F => F.sub (s.mode r)) (Fmt.sub_nanRule _ _)
    · exact s.fop2_nanRule d a b p (op := fun F => F.mul (s.mode r)) (Fmt.mul_nanRule _ _)
    · exact s.fop2_nanRule d a b p (op := fun F => F.div (s.mode r)) (Fmt.div_nanRule _ _)
  · intro s d a b r p z _ width fa fb fz nonzero x y
    obtain ⟨m, e, ua, va⟩ := unpack_finite fa
    obtain ⟨n, f, ub, vb⟩ := unpack_finite fb
    have writes {op : Fmt → FVal → FVal → FRes} (result : op (precFmt p) (s.fval p a) (s.fval p b) = (Spec.fpat p z, 0#5)) :
        s.fop2 d a b p op = .next (s.wroteF d z 0#5) := by
      rw [State.fop2, result, State.putF_eq, Spec.fpat, Nat.mod_eq_of_lt width, w64, BitVec.ofNat_toNat, BitVec.setWidth_eq]
    rw [State.fval_eq, State.fval_eq, ua, ub] at writes
    refine ⟨fun sum => writes (op := fun F => F.add (s.mode r)) ?_, fun difference => writes (op := fun F => F.sub (s.mode r)) ?_,
      fun product => writes (op := fun F => F.mul (s.mode r)) ?_⟩
    · exact add_exact _ fz nonzero (by rw [va, vb, sum])
    · refine add_exact _ fz nonzero ?_
      rw [show FVal.fin (!Spec.fsign p (s.getG b)) n f = (FVal.fin (Spec.fsign p (s.getG b)) n f).negate from rfl,
        FVal.negate_rat, va, vb, difference, sub_eq_add_neg]
    · exact mul_exact _ fz nonzero (by rw [va, vb, product])

end Sys2Proof.Machine
end

