-- ==== Sys2Proof/Proofs/Conversions.lean ====
section
/-! SUPPORT. Conversions between integers, and from NaN and infinity (O10). -/
namespace Sys2Proof.Machine

/-! ## Conversions (R86, R87, R104) -/

/-- The integer that a source of `w` bits holds: its low bits, unsigned or in two's complement. -/
theorem intSource_eq {w : Nat} (hw : 0 < w) (u : Bool) (x : Word) :
    intSource w u x.toNat = if u then ((x.setWidth w).toNat : Int) else (x.setWidth w).toInt := by
  obtain ⟨k, rfl⟩ := Nat.exists_eq_add_of_lt hw
  have double : 2 ^ (0 + k + 1) = 2 * 2 ^ (0 + k + 1 - 1) := by rw [Nat.add_sub_cancel, pow_succ']
  cases u
  · have half : 2 ^ (0 + k + 1 - 1) ≤ x.toNat % 2 ^ (0 + k + 1) ↔ ¬ 2 * (x.toNat % 2 ^ (0 + k + 1)) < 2 ^ (0 + k + 1) := by
      omega
    simp only [intSource, BitVec.toInt_eq_toNat_cond, BitVec.toNat_setWidth, half, Bool.not_false, Bool.true_and,
      decide_not, Bool.not_eq_true', decide_eq_false_iff_not, Bool.false_eq_true, if_false]
    rw [ite_not]
  · simp [intSource]

theorem minOf_le_maxOf (w : Nat) (u : Bool) : minOf w u ≤ maxOf w u := by
  have : 0 < 2 ^ (w - 1) := by positivity
  have : 0 < 2 ^ w := by positivity
  unfold minOf maxOf
  cases u <;> simp only [Bool.false_eq_true, if_true, if_false] <;> omega

/-- Clamping as a choice between the bounds and the value (R68). -/
theorem clamp_eq (w : Nat) (u : Bool) (v : Int) :
    clamp w u v = if v < minOf w u then minOf w u else if maxOf w u < v then maxOf w u else v := by
  have := minOf_le_maxOf w u
  rw [clamp]
  split_ifs <;> omega

theorem ite_intUnsigned {α : Type} (c : Nat) (x y : α) : (if intUnsigned c then x else y) = if c < 4 then y else x := by
  simp only [intUnsigned, decide_eq_true_eq, ← Nat.not_lt, ite_not]

theorem intBits_pos (c : Nat) : 0 < intBits c := by
  unfold intBits
  positivity

theorem extInt_zero (w : Nat) (u : Bool) : extInt w u 0 = 0#64 := by
  cases u <;> simp [extInt, wrapInt, BitVec.signExtend_eq_setWidth_of_msb_false]

/-- The scalar formats among the codes of FCVT. -/
theorem floatFmt_scalar (p : BitVec 1) : floatFmt (if p = 0#1 then 9#4 else 8#4).toNat = precFmt p := by
  obtain rfl | rfl := precision_cases p <;> rfl

theorem floatFmt_scalar_pattern (p : BitVec 1) (x : Word) :
    x.toNat % 2 ^ (floatFmt (if p = 0#1 then 9#4 else 8#4).toNat).width = Spec.fpat p x := by
  obtain rfl | rfl := precision_cases p <;> rfl

/-- FCVT writes what it has converted, and merges its flags. -/
theorem exec_fcvt {s : State} {d a : BitVec 6} {r : BitVec 3} {src dst : BitVec 4} {u : BitVec 1} {x : Word} {f : BitVec 5}
    (h : fcvtVal (s.mode r) (u == 1#1) src.toNat dst.toNat (s.getG a).toNat = (x, f)) :
    exec (.fcvt d a src r u dst) s = .next (s.wroteF d x f) := by
  rw [State.wroteF_eq, ← State.setG_adv]
  exact congrArg (fun c : Word × BitVec 5 => Host.Outcome.next ((s.setG d c.1).mergeFlags c.2).adv) h

/-- From a scalar float to an integer, by the class of the operand. -/
theorem fcvtVal_toInt {p : BitVec 1} {mode dst : Nat} {sat : Bool} (x : Word) (int : dst < 8) :
    fcvtVal mode sat (if p = 0#1 then 9#4 else 8#4).toNat dst x.toNat =
      let r := floatToInt mode (minOf (intBits dst) (intUnsigned dst)) (maxOf (intBits dst) (intUnsigned dst))
        ((precFmt p).unpack (Spec.fpat p x))
      (extInt (intBits dst) (intUnsigned dst) r.1, r.2) := by
  have float : ¬ (if p = 0#1 then 9#4 else 8#4).toNat < 8 := by obtain rfl | rfl := precision_cases p <;> decide
  rw [fcvtVal, if_neg float, if_pos int, floatFmt_scalar_pattern, floatFmt_scalar]

/-- Settles O10. -/
theorem conversions : Obligations.Conversions := by
  unfold Obligations.Conversions
  intro s d a r src dst u _ int w n lo hi out
  have least : minOf n (intUnsigned dst.toNat) = lo := by simp [minOf, ite_intUnsigned, lo]
  have greatest : maxOf n (intUnsigned dst.toNat) = hi := by simp [maxOf, ite_intUnsigned, hi]
  have extended (v : Int) : extInt n (intUnsigned dst.toNat) v = out v := ite_intUnsigned ..
  refine ⟨?_, fun p code => ?_⟩
  · intro hsrc y v
    refine exec_fcvt ?_
    have source : intSource (intBits src.toNat) (intUnsigned src.toNat) (s.getG a).toNat = v := by
      rw [intSource_eq (intBits_pos _), ite_intUnsigned]
      rfl
    rw [fcvtVal, if_pos hsrc, if_pos int, source, show intBits dst.toNat = n from rfl, clamp_eq, least, greatest, extended]
    simp
  · subst code
    refine ⟨fun nan => exec_fcvt ?_, fun inf => exec_fcvt ?_⟩
    · rw [fcvtVal_toInt _ int, unpack_fpat, if_pos nan]
      exact congrArg (·, flagNV) (extInt_zero ..)
    · have num : ¬ Spec.fnan p (s.getG a) = true := by simp [Spec.fnan, inf]
      rw [fcvtVal_toInt _ int, unpack_fpat, if_neg num, if_pos inf, show intBits dst.toNat = n from rfl, least, greatest]
      exact congrArg (·, flagNV) (extended _)

end Sys2Proof.Machine
end

