-- ==== Sys2Proof/Proofs/TableLanes.lean ====
section
/-! SUPPORT. Lane-wise forms and K8 codes on lanes (O15). -/
namespace Sys2Proof.Machine

variable {s : State}

/-! ## Lanes of a register (R32, R94) -/

@[simp] theorem laneBlock_toList_getD (xs : List Lane) (i j : Nat) (h : j < 16) :
    (laneBlock xs i).toList.getD j 0#32 = xs.getD (i + j) 0#32 := by
  simp [laneBlock, List.getD_eq_getElem?_getD, h]

theorem lane_append {xs ys : List Lane} {n : Nat} (h : xs.length = n) (i : Nat) :
    lane (xs ++ ys) i = if i < n then lane xs i else lane ys (i - n) := by
  unfold lane
  split
  · next lt => exact List.getD_append _ _ _ _ (h ▸ lt)
  · next ge => rw [List.getD_append_right _ _ _ _ (by omega), h]

/-- A gang has its follower, whose lanes are 16 to 31. -/
theorem State.lanes_gang {u : Strand} (lead : s.self.ctl.glead = true) (h : s.follower = some u) (r : BitVec 4) :
    s.lanes r = (s.self.getV r).toList ++ (u.getV r).toList := by
  rw [State.lanes, if_pos lead, h]

theorem State.lanes_alone (lead : s.self.ctl.glead = false) (r : BitVec 4) : s.lanes r = (s.self.getV r).toList := by
  rw [State.lanes, if_neg (by simp [lead]), List.append_nil]

/-- Changes of other strands that keep their states, places and modes keep who follows. -/
theorem State.follower_map {t : State} {g : Strand → Strand} (st : t.self.st = s.self.st) (id : t.self.id = s.self.id)
    (lead : t.self.ctl.glead = s.self.ctl.glead) (others : t.others = s.others.map g)
    (keeps : ∀ x, (g x).st = x.st ∧ (g x).id = x.id ∧ (g x).ctl = x.ctl) : t.follower = s.follower.map g := by
  unfold State.follower
  simp only [lead, st, id, others, List.find?_map]
  split
  · split
    · refine congrArg (Option.map g) (congrArg (List.find? · _) (funext fun x => ?_))
      obtain ⟨hst, hid, hctl⟩ := keeps x
      simp [Strand.savedPair, Function.comp, st, id, lead, hst, hid, hctl]
    · refine congrArg (Option.map g) (congrArg (List.find? · _) (funext fun x => ?_))
      obtain ⟨hst, hid, -⟩ := keeps x
      simp [Strand.inSlot, Strand.resident, Function.comp, hst, hid]
  · rfl

/-! ## Writing the lanes of a register -/

theorem State.setLanes_alone (lead : s.self.ctl.glead = false) (d : BitVec 4) (xs : List Lane) :
    s.setLanes d xs = { s with self := s.self.setV d (laneBlock xs 0) } :=
  if_neg (by simp [Strand.setV, lead])

theorem State.setLanes_gang {u : Strand} (lead : s.self.ctl.glead = true) (h : s.follower = some u) (d : BitVec 4)
    (xs : List Lane) : s.setLanes d xs = { s with
      self := s.self.setV d (laneBlock xs 0)
      others := s.others.map (fun x => if x.id.uid = u.id.uid then x.setV d (laneBlock xs 16) else x) } := by
  have same : ({ s with self := s.self.setV d (laneBlock xs 0) } : State).follower = some u := h
  rw [State.setLanes, if_pos (show (s.self.setV d _).ctl.glead = true from lead), State.mapFollower, same]

/-- The lanes of a register after a write to one. -/
theorem State.lanes_setLanes (ok : s.gangOk) (d r : BitVec 4) (xs : List Lane) : (s.setLanes d xs).lanes r =
    if r = d then (laneBlock xs 0).toList ++ (if s.self.ctl.glead then (laneBlock xs 16).toList else []) else s.lanes r := by
  cases lead : s.self.ctl.glead
  · rw [s.lanes_alone lead, State.setLanes_alone lead, State.lanes_alone (by exact lead), Strand.getV_setV]
    split <;> simp
  · obtain ⟨u, hu⟩ := Option.isSome_iff_exists.mp (ok lead)
    have follows : (s.setLanes d xs).follower = some (u.setV d (laneBlock xs 16)) := by
      rw [State.setLanes_gang lead hu]
      refine Eq.trans (b := s.follower.map fun x => if x.id.uid = u.id.uid then x.setV d (laneBlock xs 16) else x) ?_ ?_
      · refine State.follower_map rfl rfl rfl rfl fun x => ?_
        split <;> exact ⟨rfl, rfl, rfl⟩
      · rw [hu, Option.map_some, if_pos rfl]
    have leads : (s.setLanes d xs).self.ctl.glead = true := by rw [State.setLanes_gang lead hu]; exact lead
    rw [State.lanes_gang leads follows, State.lanes_gang lead hu, State.setLanes_gang lead hu]
    simp only [Strand.getV_setV]
    split <;> rfl

theorem State.lane_lanes_setLanes (ok : s.gangOk) (d : BitVec 4) (xs : List Lane) {i : Nat} (h : i < s.laneCount) :
    lane ((s.setLanes d xs).lanes d) i = xs.getD i 0#32 := by
  rw [State.lanes_setLanes ok, if_pos rfl, lane_append (n := 16) (Vector.length_toList ..)]
  unfold State.laneCount at h
  unfold lane
  split
  · next lt => rw [laneBlock_toList_getD _ _ _ lt, Nat.zero_add]
  · next ge =>
    split at h
    · next lead => rw [if_pos lead, laneBlock_toList_getD _ _ _ (by omega), Nat.add_sub_cancel' (by omega)]
    · omega

/-- A write to a vector register, with flags: only that register, FFLAGS and the pc have changed. -/
theorem State.vecOnly_setLanes (ok : s.gangOk) (d : BitVec 4) (f : BitVec 5) (xs : List Lane) :
    VecOnly d f s ((s.mergeFlags f).setLanes d xs).adv := by
  have ok' : (s.mergeFlags f).gangOk := ok
  refine ⟨?_, fun r ne => ?_, ?_, fun lead => ?_⟩
  · cases lead : s.self.ctl.glead
    · rw [State.setLanes_alone (s := s.mergeFlags f) lead]
      rfl
    · obtain ⟨u, hu⟩ := Option.isSome_iff_exists.mp (ok lead)
      rw [State.setLanes_gang (s := s.mergeFlags f) lead hu]
      rfl
  · exact (State.lanes_setLanes ok' d r xs).trans (if_neg ne)
  · cases lead : s.self.ctl.glead
    · rw [State.setLanes_alone (s := s.mergeFlags f) lead]
      rfl
    · obtain ⟨u, hu⟩ := Option.isSome_iff_exists.mp (ok lead)
      rw [State.setLanes_gang (s := s.mergeFlags f) lead hu]
      refine (List.map_map ..).trans (List.map_congr_left fun x _ => ?_)
      simp only [Function.comp]
      split <;> rfl
  · rw [State.setLanes_alone (s := s.mergeFlags f) lead]
    rfl

/-! ## Lane-wise forms (R134, R77) -/

theorem getLsbD_foldl_or {α : Type} (of : α → BitVec 5) (l : List α) (acc : BitVec 5) (j : Nat) :
    (l.foldl (fun acc i => acc ||| of i) acc).getLsbD j = true ↔
      acc.getLsbD j = true ∨ ∃ i ∈ l, (of i).getLsbD j = true := by
  induction l generalizing acc with
  | nil => simp
  | cons x l ih => simp [ih, or_assoc]

/-- The flags of the active lanes, joined (R77). -/
theorem State.laneFlags (s : State) (k : BitVec 3) (of : Nat → BitVec 5) :
    LaneFlags s k ((s.active k).foldl (fun acc i => acc ||| of i) 0#5) of := by
  intro j
  rw [getLsbD_foldl_or]
  simp [State.active, and_assoc]

/-- What a lane-wise form of R134 does to its lanes, its flags and all else. -/
theorem State.lanewise_spec (ok : s.gangOk) (d : BitVec 4) (k : BitVec 3) (f : Nat → Lane × BitVec 5) :
    ∃ fl, VecOnly d fl s (s.lanewise d k f).adv ∧ LaneFlags s k fl (fun j => (f j).2) ∧
      ∀ j, j < s.laneCount →
        lane ((s.lanewise d k f).adv.lanes d) j = if (s.mask k).getLsbD j then (f j).1 else lane (s.lanes d) j := by
  refine ⟨_, State.vecOnly_setLanes ok d _ _, s.laneFlags k _, fun j hj => ?_⟩
  refine (State.lane_lanes_setLanes (s := s.mergeFlags _) ok d _ hj).trans ?_
  simp [hj]

theorem lanewise_of_exec {i : Instr} {d : BitVec 4} {k : BitVec 3} {f : Nat → Lane × BitVec 5} (ok : s.gangOk)
    (run : exec i s = .next (s.lanewise d k f).adv) : Lanewise i d k s f := by
  obtain ⟨fl, only, flags, lanes⟩ := State.lanewise_spec ok d k f
  exact ⟨_, fl, run, only, flags, lanes⟩

/-! ## K8 codes on lanes (R140) -/

/-- The bytes of a lane with byte `j` replaced. -/
theorem withByte_extract (x : Lane) (b : Nat) {j n : Nat} (hj : j < 4) (hn : n < 4) :
    (withByte x j b).extractLsb' (8 * n) 8 = if n = j then BitVec.ofNat 8 b else x.extractLsb' (8 * n) 8 := by
  have ones (i : Nat) : (0xFF#32).getLsbD i = decide (i < 8) := Nat.testBit_two_pow_sub_one 8 i
  refine BitVec.eq_of_getLsbD_eq fun i hi => ?_
  have low : (b % 256).testBit i = b.testBit i := by rw [show 256 = 2 ^ 8 from rfl, Nat.testBit_mod_two_pow]; simp [hi]
  rw [BitVec.getLsbD_extractLsb', withByte]
  simp only [BitVec.getLsbD_or, BitVec.getLsbD_and, BitVec.getLsbD_not, BitVec.getLsbD_shiftLeft, ones, BitVec.getLsbD_ofNat]
  by_cases same : n = j
  · subst same
    simp [show 8 * n + i < 32 by omega, show i < 32 by omega, hi, low, BitVec.getElem_eq_testBit_toNat]
  · obtain before | behind := Nat.lt_or_gt_of_ne same
    · simp [show 8 * n + i < 32 by omega, show 8 * n + i < 8 * j by omega, hi, same]
    · have high : (b % 256).testBit (8 * n + i - 8 * j) = false :=
        Nat.testBit_lt_two_pow ((Nat.mod_lt b (by omega)).trans_le
          (Nat.pow_le_pow_right (show 0 < 2 by omega) (show 8 ≤ 8 * n + i - 8 * j by omega)))
      simp [show 8 * n + i < 32 by omega, show ¬ 8 * n + i < 8 * j by omega, hi, same, high,
        show 8 ≤ 8 * n + i - 8 * j by omega]

/-! ## The core's table (R78, R141) -/

theorem State.core_site (s : State) (die cluster core : Nat) :
    (s.core die cluster core).die = die ∧ (s.core die cluster core).cluster = cluster ∧
      (s.core die cluster core).core = core := by
  unfold State.core
  cases found : s.cores.find? _ with
  | none => exact ⟨rfl, rfl, rfl⟩
  | some c =>
    have := List.find?_some found
    simpa [and_assoc] using this

theorem State.core_setCore (s : State) (c : Core) : (s.setCore c).core c.die c.cluster c.core = c := by
  simp [State.core, State.setCore]

theorem tableAt_some (v : Table) {i : Nat} (h : i < 256) : tableAt (some v) i = v[i] := by
  simp [tableAt, Vector.getD, h]

theorem tableAt_tableSet (t : Option Table) (c : Nat) (x : BitVec 32) {i : Nat} (h : i < 256) :
    tableAt (tableSet t c x) i = if i = c then x else tableAt t i := by
  rw [tableSet, tableAt_some _ h, Vector.getElem_ofFn]

theorem tableAt_loadTable (n : Nat) {i : Nat} (h : i < 256) : tableAt (loadTable n) i = predefined n i := by
  unfold loadTable
  split
  · next zero => rw [zero, tableAt]
  · rw [tableAt_some _ h, Vector.getElem_ofFn]

/-- The seat's core with another table. -/
theorem State.setCore_table (s : State) (t : Option Table) :
    (s.setCore { s.myCore with table := t }).core s.self.id.die s.self.id.cluster s.self.id.core = { s.myCore with table := t } := by
  obtain ⟨die, cluster, core⟩ := s.core_site s.self.id.die s.self.id.cluster s.self.id.core
  have written := s.core_setCore { s.myCore with table := t }
  simp only [State.myCore, die, cluster, core] at written ⊢
  exact written

theorem State.top_eq (s : State) : s.top = s.self.ctl.tblnan.toNat / 256 := by
  have := s.self.ctl.tblnan.isLt
  simp only [State.top, bits, natBits]
  omega

theorem State.ncode_eq (s : State) : s.ncode = s.self.ctl.tblnan.toNat % 256 := by simp [State.ncode, bits, natBits]

/-! ## TBLW (R141) -/

theorem execTblw_entry {a b : BitVec 6} (one : (s.getG a).getLsbD 8 = false) :
    let entry := BitVec.ofNat 32 (bits (s.getG b) 31 13 * 2 ^ 13)
    execTblw a b s = .next (s.setCore { s.myCore with
      table := tableSet s.myCore.table (bits (s.getG a) 7 0) entry }).adv :=
  if_pos (by rw [one]; rfl)

theorem execTblw_whole {a b : BitVec 6} (whole : (s.getG a).getLsbD 8 = true) (defined : (s.getG b).toNat % 4 < 3) :
    execTblw a b s = .next (s.setCore { s.myCore with table := loadTable ((s.getG b).toNat % 4) }).adv := by
  simp [execTblw, whole, bits_low, defined]

theorem execTblw_refused {a b : BitVec 6} (whole : (s.getG a).getLsbD 8 = true) (three : (s.getG b).toNat % 4 = 3) :
    execTblw a b s = .next (s.trap (illRun (s.getG b) (insWord (.tblw a b)))) := by
  simp [execTblw, whole, bits_low, three]

/-- Settles O15. -/
theorem tableCodes : Obligations.TableCodes := by
  unfold Obligations.TableCodes
  intro s d g h e a j k ok core top ncode code x y
  have low : bits x 7 0 = x.toNat % 256 := by simp [bits, natBits]
  refine ⟨lanewise_of_exec ok ?_, ?_, ?_, fun one => ?_, fun whole defined => ?_, fun whole three can => ?_⟩
  · show execVdec e a j k s = _
    simp only [execVdec, s.top_eq]
    rfl
  · obtain ⟨fl, only, -, lanes⟩ := State.lanewise_spec ok e k (fun i =>
      let r := k8Encode s.myCore.table s.top s.ncode f32 (lane (s.lanes a) i).toNat
      (withByte (lane (s.lanes e) i) j.toNat r.1, r.2))
    refine ⟨_, fl, rfl, only, fun i hi n hn => ?_⟩
    rw [lanes i hi]
    by_cases on : (s.mask k).getLsbD i = true
    · rw [if_pos on, s.top_eq, s.ncode_eq]
      refine (withByte_extract _ _ j.isLt hn).trans ?_
      simp only [on, true_and]
      rfl
    · rw [if_neg on, if_neg (fun both => on both.1)]
  · show execTblr d g s = _
    rw [execTblr, State.put, State.setG_adv, show s.getG g = x from rfl, low]
    rfl
  · refine ⟨_, execTblw_entry one, rfl, fun i hi => ?_⟩
    show tableAt ((s.setCore _).core _ _ _).table i = _
    rw [s.setCore_table, tableAt_tableSet _ _ _ hi, low]
    rfl
  · refine ⟨_, execTblw_whole whole defined, rfl, fun i hi => ?_⟩
    show tableAt ((s.setCore _).core _ _ _).table i = _
    rw [s.setCore_table, tableAt_loadTable _ hi]
  · exact (execTblw_refused whole three).trans (congrArg _ (s.trap_eq can _))

end Sys2Proof.Machine
end

