-- ==== Sys2Proof/Proofs/EncodeNearest.lean ====
section
/-! SUPPORT. The K8 code of a finite operand is a nearest one (O16). -/
namespace Sys2Proof.Machine

/-! ## Entries of a table as exact values (R69, R71) -/

theorem significand_shift (a k b : Nat) : significand (a + b) (2 ^ b * k) = 2 ^ b * significand a k := by
  have lt : 2 ^ b * k < 2 ^ (a + b) ↔ k < 2 ^ a := by
    rw [Nat.add_comm, pow_add, Nat.mul_lt_mul_left (by positivity)]
  unfold significand
  simp only [lt]
  split
  · rfl
  · rw [Nat.add_comm a b, pow_add, Nat.mul_mod_mul_left, Nat.mul_add]

theorem binade_shift (a k b : Nat) : binade (a + b) (2 ^ b * k) = binade a k := by
  rw [binade, Nat.add_comm, pow_add, Nat.mul_div_mul_left _ _ (by positivity), binade]

/-- A W19 entry names the value that its pattern has as F32. -/
theorem unpack_w19 {x : BitVec 32} (low : x.toNat % 2 ^ 13 = 0) (fin : Spec.ffinite 0#1 (x.zeroExtend 64))
    (pos : Spec.fsign 0#1 (x.zeroExtend 64) = false) :
    ∃ m e, w19.unpack x.toNat = .fin false m e ∧ (FVal.fin false m e).rat = Spec.fvalue 0#1 (x.zeroExtend 64) := by
  obtain ⟨k, hk⟩ := Nat.dvd_of_mod_eq_zero low
  have word : (x.zeroExtend 64).toNat = 2 ^ 13 * k := by
    rw [← hk]
    exact BitVec.toNat_setWidth_of_le (by omega)
  have mag : Spec.fmag 0#1 (x.zeroExtend 64) = 2 ^ 13 * k := by
    simp [Spec.fsign, Spec.fpat, Spec.fbits, word] at pos
    simp [Spec.fmag, Spec.fpat, Spec.fbits, word]
    omega
  have small : k < 255 * 2 ^ 10 := by
    simp [Spec.ffinite, mag, Spec.finf] at fin
    omega
  refine ⟨significand 10 k, binade 10 k - w19.bias - 10, ?_, ?_⟩
  · rw [show x.toNat = w19.pack false k by rw [hk, Fmt.pack]; simp [w19, b2n, Nat.mul_comm],
      Fmt.unpack_pack _ _ (small.trans (by decide)), if_neg]
    · rfl
    · simp only [w19, Fmt.top]
      omega
  · have value := Fmt.significand_value (precFmt 0#1) (2 ^ 13 * k)
    rw [show (precFmt 0#1).fb = 10 + 13 from rfl, significand_shift, binade_shift] at value
    rw [fvalue_eq, pos, mag, if_neg (by simp), show (precFmt 0#1).fb = 10 + 13 from rfl, ← value, FVal.rat, if_neg (by simp)]
    have exponent : (binade 10 k : Int) - w19.bias - 10 = 13 + (binade 10 k - (precFmt 0#1).bias - (10 + 13 : Nat)) := by
      rw [show (precFmt 0#1).bias = w19.bias from rfl]
      push_cast
      ring
    rw [exponent, zpow_add₀ two_ne_zero, Nat.cast_mul, Nat.cast_pow, Nat.cast_ofNat]
    generalize (2 : ℚ) ^ ((binade 10 k : Int) - (precFmt 0#1).bias - (10 + 13 : Nat)) = scale
    norm_num
    ring

/-! ## Comparisons and differences of finite values -/

theorem FVal.le_fin {s t : Bool} {m n : Nat} {e f : Int} :
    (FVal.fin s m e).le (.fin t n f) = true ↔ (FVal.fin s m e).rat ≤ (FVal.fin t n f).rat := by
  rw [← not_lt, ← FVal.lt_fin]
  simp [FVal.le, FVal.isNan]

theorem FVal.same_fin {s t : Bool} {m n : Nat} {e f : Int} :
    (FVal.fin s m e).same (.fin t n f) = true ↔ (FVal.fin s m e).rat = (FVal.fin t n f).rat := by
  have antisymm := le_antisymm_iff (a := (FVal.fin s m e).rat) (b := (FVal.fin t n f).rat)
  rw [antisymm, ← not_lt, ← not_lt, ← FVal.lt_fin, ← FVal.lt_fin]
  simp [FVal.same, FVal.isNan, and_comm]

theorem FVal.minus_fin (s t : Bool) (m n : Nat) (e f : Int) :
    ∃ u k g, (FVal.fin s m e).minus (.fin t n f) = .fin u k g ∧
      (FVal.fin u k g).rat = (FVal.fin s m e).rat - (FVal.fin t n f).rat := by
  refine ⟨_, _, _, rfl, ?_⟩
  rw [FVal.signed_rat, ← scaled_rat (min_le_left e f), ← scaled_rat (min_le_right e f)]
  push_cast
  ring

theorem FVal.abs_rat (s : Bool) (m : Nat) (e : Int) : (FVal.fin false m e).rat = |(FVal.fin s m e).rat| := by
  have : (0 : ℚ) ≤ m * 2 ^ e := by positivity
  cases s <;> simp [FVal.rat, abs_of_nonneg this]

/-! ## The search of R80 -/

/-- The condition under which the search of R80 goes up to a code. -/
def atMost (t : Nat → FVal) (top : Nat) (a : FVal) (i : Nat) : Bool := decide (i ≤ top) && (t i).le a

/-- Halving finds the last code that is at most the operand, where every code before one that is at most it is so too. -/
theorem k8Search_spec {t : Nat → FVal} {top : Nat} {a : FVal}
    (below : ∀ i j, i ≤ j → atMost t top a j = true → atMost t top a i = true) (k lo : Nat) :
    (k8Search t top a k lo = lo ∨ atMost t top a (k8Search t top a k lo) = true) ∧
      ∀ i, k8Search t top a k lo < i → i < lo + 2 ^ k → atMost t top a i = false := by
  induction k generalizing lo with
  | zero => exact ⟨.inl rfl, fun i gt lt => absurd lt (by simp only [k8Search] at gt; omega)⟩
  | succ k ih =>
    have step : k8Search t top a (k + 1) lo =
      k8Search t top a k (if atMost t top a (lo + 2 ^ k) then lo + 2 ^ k else lo) := rfl
    rw [step, pow_succ]
    split
    · next up =>
      obtain ⟨found, last⟩ := ih (lo + 2 ^ k)
      exact ⟨.inr (found.elim (fun e => by rwa [e]) id), fun i gt lt => last i gt (by omega)⟩
    · next down =>
      obtain ⟨found, last⟩ := ih lo
      refine ⟨found, fun i gt lt => ?_⟩
      obtain lower | upper := Nat.lt_or_ge i (lo + 2 ^ k)
      · exact last i gt lower
      · exact Bool.eq_false_iff.mpr fun good => down (below _ i upper good)

/-! ## The nearest entry -/

/-- Of increasing values, the last that is at most `a` or the next one, whichever lies nearer, lies nearest to `a`. -/
theorem nearest_of_bracket {value : Nat → ℚ} {top lo : Nat} {a : ℚ}
    (mono : ∀ i j, i < j → j ≤ top → value i < value j) (inTable : lo ≤ top) (down : lo = 0 ∨ value lo ≤ a)
    (up : ∀ i, lo < i → i ≤ top → a < value i) :
    (lo < top → value (lo + 1) - a ≤ a - value lo → ∀ i, i ≤ top → |value (lo + 1) - a| ≤ |value i - a|) ∧
    ((lo < top → a - value lo ≤ value (lo + 1) - a) → ∀ i, i ≤ top → |value lo - a| ≤ |value i - a|) := by
  have mono' (i j : Nat) (le : i ≤ j) (hj : j ≤ top) : value i ≤ value j := by
    obtain rfl | lt := le.eq_or_lt
    · exact le_rfl
    · exact (mono i j lt hj).le
  refine ⟨fun more near i hi => ?_, fun near i hi => ?_⟩
  · have above := up (lo + 1) (by omega) more
    rw [abs_of_pos (by linarith), le_abs]
    obtain le | gt := Nat.lt_or_ge lo i
    · exact .inl (by linarith [mono' (lo + 1) i le hi])
    · exact .inr (by linarith [mono' i lo gt inTable])
  · obtain lt | eq | gt := Nat.lt_trichotomy i lo
    · have at_ : value lo ≤ a := down.resolve_left (by omega)
      rw [abs_of_nonpos (by linarith), le_abs]
      exact .inr (by linarith [mono i lo lt inTable])
    · rw [eq]
    · have above := up (lo + 1) (by omega) (by omega)
      have next := mono' (lo + 1) i gt hi
      rw [le_abs, abs_le]
      exact .inl ⟨by linarith [near (by omega)], by linarith [mono lo i gt hi]⟩

/-! ## Encode (R80) -/

/-- The last step of R80: whether the code after `lo` lies nearer, or as near and `lo` is odd. -/
def takesNext (t : Nat → FVal) (top : Nat) (a : FVal) (lo : Nat) : Bool :=
  decide (lo < top) && (((t (lo + 1)).minus a).lt (a.minus (t lo)) || (((t (lo + 1)).minus a).same (a.minus (t lo)) && lo % 2 == 1))

/-- The code of a finite operand: the search, then the choice between two neighbours, and the sign. -/
theorem k8Encode_fin {tab : Option Table} {top ncode x : Nat} {F : Fmt} {s : Bool} {m : Nat} {e : Int}
    (h : F.unpack x = .fin s m e) :
    let t (i : Nat) : FVal := w19.unpack (tableAt tab i).toNat
    let lo := k8Search t top (.fin false m e) 7 0
    (k8Encode tab top ncode F x).1 = b2n s * 128 + if takesNext t top (.fin false m e) lo then lo + 1 else lo := by
  simp only [k8Encode, h]
  rfl

section
variable {t : Nat → FVal} {value : Nat → ℚ} {top m : Nat} {e : Int}

/-- The entries up to TOP are finite and have these values. -/
def Entries (t : Nat → FVal) (top : Nat) (value : Nat → ℚ) : Prop :=
  ∀ i, i ≤ top → ∃ m e, t i = .fin false m e ∧ (FVal.fin false m e).rat = value i

/-- On finite entries the choice goes by the distances. -/
theorem takesNext_iff {lo : Nat} (entries : Entries t top value) (inTable : lo ≤ top) :
    takesNext t top (.fin false m e) lo = true ↔ lo < top ∧
      (value (lo + 1) - (FVal.fin false m e).rat < (FVal.fin false m e).rat - value lo ∨
        value (lo + 1) - (FVal.fin false m e).rat = (FVal.fin false m e).rat - value lo ∧ lo % 2 = 1) := by
  rw [takesNext, Bool.and_eq_true, decide_eq_true_iff]
  refine and_congr_right fun more => ?_
  obtain ⟨m0, e0, here, v0⟩ := entries lo inTable
  obtain ⟨m1, e1, next, v1⟩ := entries (lo + 1) more
  obtain ⟨_, _, _, up, vup⟩ := FVal.minus_fin false false m1 m e1 e
  obtain ⟨_, _, _, dn, vdn⟩ := FVal.minus_fin false false m m0 e e0
  rw [here, next, up, dn, Bool.or_eq_true, Bool.and_eq_true, FVal.lt_fin, FVal.same_fin, vup, vdn, v0, v1, beq_iff_eq]

theorem atMost_iff (entries : Entries t top value) (i : Nat) :
    atMost t top (.fin false m e) i = true ↔ i ≤ top ∧ value i ≤ (FVal.fin false m e).rat := by
  rw [atMost, Bool.and_eq_true, decide_eq_true_iff]
  refine and_congr_right fun hi => ?_
  obtain ⟨n, f, ti, vi⟩ := entries i hi
  rw [ti, FVal.le_fin, vi]

/-- The search of R80 in an increasing table ends at the last entry that is at most the operand, or at code 0. -/
theorem k8Search_bracket (entries : Entries t top value) (mono : ∀ i j, i < j → j ≤ top → value i < value j)
    (bound : top ≤ 127) {lo : Nat} (h : k8Search t top (.fin false m e) 7 0 = lo) :
    lo ≤ top ∧ (lo = 0 ∨ value lo ≤ (FVal.fin false m e).rat) ∧
      ∀ i, lo < i → i ≤ top → (FVal.fin false m e).rat < value i := by
  have below (i j : Nat) (le : i ≤ j) (hj : atMost t top (.fin false m e) j = true) :
      atMost t top (.fin false m e) i = true := by
    obtain rfl | lt := le.eq_or_lt
    · exact hj
    · rw [atMost_iff entries] at hj ⊢
      exact ⟨le.trans hj.1, (mono i j lt hj.1).le.trans hj.2⟩
  obtain ⟨found, last⟩ := k8Search_spec below 7 0
  rw [h, atMost_iff entries] at found
  rw [h] at last
  refine ⟨found.elim (fun zero => zero ▸ Nat.zero_le _) And.left, found.imp_right And.right, fun i gt hi => ?_⟩
  have more := last i gt (by omega)
  rw [Bool.eq_false_iff, Ne, atMost_iff entries, not_and, not_le] at more
  exact more hi

/-- The code that encode gives lies nearest to the operand's magnitude. -/
theorem k8Encode_nearest (entries : Entries t top value) (mono : ∀ i j, i < j → j ≤ top → value i < value j)
    (bound : top ≤ 127) {lo c : Nat} (h : k8Search t top (.fin false m e) 7 0 = lo)
    (hc : c = if takesNext t top (.fin false m e) lo then lo + 1 else lo) :
    c ≤ top ∧ ∀ i, i ≤ top → |value c - (FVal.fin false m e).rat| ≤ |value i - (FVal.fin false m e).rat| := by
  obtain ⟨inTable, down, up⟩ := k8Search_bracket entries mono bound h
  obtain ⟨higher, lower⟩ := nearest_of_bracket mono inTable down up
  have choice := takesNext_iff (m := m) (e := e) entries inTable
  subst hc
  split
  · next taken =>
    obtain ⟨more, near⟩ := choice.mp taken
    exact ⟨more, higher more (near.elim le_of_lt fun tie => tie.1.le)⟩
  · next kept =>
    refine ⟨inTable, lower fun more => not_lt.mp fun near => kept (choice.mpr ⟨more, .inl near⟩)⟩

end

/-- Settles O16. -/
theorem encodeIsNearest : Obligations.EncodeIsNearest := by
  unfold Obligations.EncodeIsNearest
  intro tab top ncode x value htop hx fin named mono
  have pattern : Spec.fpat 0#1 (w64 x) = x := by
    simp only [Spec.fpat, Spec.fbits, if_true, BitVec.toNat_ofNat]
    omega
  obtain ⟨m, e, unpacked, rat⟩ := unpack_finite fin
  rw [pattern] at unpacked
  have size : (FVal.fin false m e).rat = |Spec.fvalue 0#1 (w64 x)| := (FVal.abs_rat ..).trans (congrArg _ rat)
  have entries : Entries (fun i => w19.unpack (tableAt tab i).toNat) top value := by
    intro i hi
    obtain ⟨low, finite, pos, v⟩ := named i hi
    exact v ▸ unpack_w19 low finite pos
  obtain ⟨inTable, nearest⟩ := k8Encode_nearest (m := m) (e := e) entries mono htop rfl rfl
  rw [size] at nearest
  refine ⟨_, ?_, inTable, nearest⟩
  refine (k8Encode_fin (F := f32) unpacked).trans ?_
  rw [Nat.add_comm]
  cases Spec.fsign 0#1 (w64 x) <;> rfl

end Sys2Proof.Machine
end

