-- ==== Sys2Proof/Proofs/ElementSteps.lean ====
section
/-! SUPPORT. A step of an element on its region (R196 to R203). -/
namespace Sys2Proof.Machine

/-! ## Regions and elements replaced -/

theorem find?_map_keeps {α : Type} {p : α → Bool} {g : α → α} (keeps : ∀ a, p (g a) = p a) (l : List α) :
    (l.map g).find? p = (l.find? p).map g := by
  rw [List.find?_map]
  exact congrArg (fun p => (l.find? p).map g) (funext keeps)

theorem State.region?_setRegion (s : State) (u : Region) (q : Nat) :
    (s.setRegion u).region? q = if q = u.rid then (s.region? q).map fun _ => u else s.region? q := by
  refine (find?_map_keeps (fun a => ?_) s.work.regions).trans ?_
  · split
    · next same => rw [same]
    · rfl
  · unfold State.region?
    cases found : s.work.regions.find? _ with
    | none => simp
    | some a =>
      have here : a.rid = q := by simpa using List.find?_some found
      simp only [Option.map_some, here]
      split <;> rfl

theorem Region.elem?_setElem (r : Region) (x : Elem) (a b : Nat) :
    (r.setElem x).elem? a b = if a = x.row ∧ b = x.col then (r.elem? a b).map fun _ => x else r.elem? a b := by
  refine (find?_map_keeps (fun e => ?_) r.elems).trans ?_
  · split
    · next same => rw [same.1, same.2]
    · rfl
  · unfold Region.elem?
    cases found : r.elems.find? _ with
    | none => simp
    | some e =>
      have here : e.row = a ∧ e.col = b := by simpa using List.find?_some found
      simp only [Option.map_some, here]
      split <;> rfl

/-! ## Tokens placed in order (R198, R202) -/

/-- The arcs after tokens have been placed on them. -/
def Region.emitted (r : Region) (e : Elem) (put : List Emit) : Region :=
  { r with arcs := r.arcs.map (fun a => { a with
      queue := a.queue ++ (put.filter (fun m => a.leaves e.plane e.row e.col m.mask)).map (fun m => m.tok) }) }

theorem Region.emitted_nil (r : Region) (e : Elem) : r.emitted e [] = r := by
  simp [Region.emitted]

theorem Region.emitted_placeTok (r : Region) (e : Elem) (m : Emit) (put : List Emit) :
    (r.placeTok e m).emitted e put = r.emitted e (m :: put) := by
  simp only [Region.emitted, Region.placeTok, List.map_map]
  refine congrArg (fun l => ({ r with arcs := l } : Region)) (List.map_congr_left fun a _ => ?_)
  simp only [Function.comp]
  by_cases h : a.leaves e.plane e.row e.col m.mask = true
  · have h' (q : List Token) : ({ a with queue := q } : Arc).leaves e.plane e.row e.col = a.leaves e.plane e.row e.col := rfl
    simp [h, h']
  · simp [h]

/-- What is placed is a front part of the list, and its first token where its outputs accept it. -/
theorem Region.placeAll_spec (r : Region) (e : Elem) (used : Nat) (put : List Emit) : ∃ n,
    r.placeAll e used put = (r.emitted e (put.take n), put.drop n) ∧
      (used = 0 → ∀ m ∈ put.head?, r.accepts e m.mask = true → 0 < n) := by
  induction put generalizing r used with
  | nil => exact ⟨0, by simp [Region.placeAll, Region.emitted_nil], by simp⟩
  | cons m put ih =>
    rw [Region.placeAll]
    split
    · obtain ⟨n, placed, -⟩ := ih (r.placeTok e m) (used ||| m.mask)
      exact ⟨n + 1, by rw [placed, Region.emitted_placeTok, List.take_succ_cons, List.drop_succ_cons], fun _ _ _ _ => n.succ_pos⟩
    · next blocked =>
      refine ⟨0, by simp [Region.emitted_nil], fun unused x first accepts => absurd ⟨?_, ?_⟩ blocked⟩
      · rw [unused, Nat.and_zero]
      · cases first
        exact accepts

/-! ## A firing of a streamed element -/

/-- Tokens of the classes of their arcs are no class fault (R199, R201). -/
theorem Region.classFault_none {r : Region} {e : Elem} (classed : r.classed e) (ports : List Nat) :
    r.classFault e ports = none := by
  rw [Region.classFault, List.findSome?_eq_none_iff]
  intro p _
  split
  · rfl
  · next t head =>
    rw [if_neg]
    simp only [List.any_eq_true, Bool.and_eq_true, bne_iff_ne, ne_eq, not_exists, not_and, not_not]
    intro a mem ends
    exact classed p t a head mem ends

theorem Region.takeToks_elems (r : Region) (e : Elem) (take : List Nat) :
    (take.foldl (fun r p => r.takeTok e p) r).elems = r.elems :=
  foldl_keeps (f := fun r p => r.takeTok e p) (g := Region.elems) (fun _ _ => rfl) take r

theorem Region.takeToks_rid (r : Region) (e : Elem) (take : List Nat) :
    (take.foldl (fun r p => r.takeTok e p) r).rid = r.rid :=
  foldl_keeps (f := fun r p => r.takeTok e p) (g := Region.rid) (fun _ _ => rfl) take r

theorem Region.addFlags_fields (r : Region) (tag : Nat) (f : BitVec 5) :
    (r.addFlags tag f).arcs = r.arcs ∧ (r.addFlags tag f).elems = r.elems ∧ (r.addFlags tag f).rid = r.rid := by
  unfold Region.addFlags
  split
  · exact ⟨rfl, rfl, rfl⟩
  · split <;> exact ⟨rfl, rfl, rfl⟩

section
variable {s : State} {r : Region} {e e' : Elem} {f : BitVec 256} {take : List Nat} {put : List Emit} {flags : BitVec 5}

/-- The region that a step without effect on memory leaves. -/
theorem State.perform_acts (classed : r.classed e) : ∃ u n,
    s.perform r e f 0 (.acts e' take put flags id) = s.setRegion u ∧ u.rid = r.rid ∧ Moved r u e take (put.take n) ∧
      u.elems = (r.setElem { e' with todo := put.drop n }).elems ∧
      (∀ m ∈ put.head?, (take.foldl (fun r p => r.takeTok e p) r).accepts e m.mask = true → 0 < n) := by
  obtain ⟨n, placed, first⟩ := (take.foldl (fun r p => r.takeTok e p) r).placeAll_spec e 0 put
  simp only [State.perform, Region.classFault_none classed, placed, id]
  refine ⟨_, n, rfl, ?_, ?_, ?_, first rfl⟩
  · split <;> simp only [Region.mark, Region.addFlags_fields] <;> exact r.takeToks_rid e take
  · split <;> simp only [Moved, Region.mark, Region.addFlags_fields] <;> rfl
  · split <;> simp only [Region.mark, Region.addFlags_fields, Region.setElem, Region.emitted, r.takeToks_elems e take]

/-- What a step without effect on memory does to the machine. -/
theorem State.perform_moves (stands : s.stands r e f) (row : e'.row = e.row) (col : e'.col = e.col) :
    let t := s.perform r e f 0 (.acts e' take put flags id)
    ElementMoved s t r e e' take put ∧ t = { s with work := { s.work with regions := t.work.regions } } := by
  obtain ⟨region, elem, -, -, -, -, classed⟩ := stands
  obtain ⟨u, n, run, rid, moved, elems, first⟩ := State.perform_acts (s := s) (e' := e') (take := take) (put := put)
    (flags := flags) (f := f) classed
  have sites (a b : Nat) : u.elem? a b = (r.setElem { e' with todo := put.drop n }).elem? a b := by
    rw [Region.elem?, elems, Region.elem?]
  rw [run]
  refine ⟨⟨u, n, ?_, moved, ?_, first, fun a b other => ?_, fun q other => ?_⟩, rfl⟩
  · rw [State.region?_setRegion, rid, if_pos rfl, region]
    rfl
  · rw [sites, Region.elem?_setElem, if_pos ⟨row.symm, col.symm⟩, elem]
    rfl
  · rw [sites, Region.elem?_setElem, if_neg (by simpa [row, col, ← not_and_or] using other)]
  · rw [State.region?_setRegion, rid, if_neg other]

/-- A try of an element that may begin a firing is performed. -/
theorem State.element_fires {fits : BitVec 256 → Bool} {g : Region → Elem → BitVec 256 → Did} (may : s.mayFire r e f)
    (kind : fits f = true) : s.element r.rid e.row e.col fits g = .next (s.perform r e f 0 (g r e f)) := by
  obtain ⟨⟨region, elem, frame, free, idle, streamed, -⟩, going, room⟩ := may
  simp [State.element, region, elem, frame, kind, streamed, idle, free, going, room]

end

end Sys2Proof.Machine
end

