-- ==== Sys2Proof/Proofs/MatrixElements.lean ====
section
/-! SUPPORT. Matrix elements by mode (O41). -/
namespace Sys2Proof.Machine

variable {s : State} {r : Region} {e : Elem} {f : BitVec 256}

/-! ## Heads at the inputs of an XE (R283, R288) -/

theorem filterMap_of_mapM {α β : Type} {g : α → Option β} {l : List α} {ys : List β} (h : l.mapM g = some ys) :
    l.filterMap g = ys := by
  induction l generalizing ys with
  | nil => simpa using h
  | cons x l ih =>
    simp only [List.mapM_cons, Option.bind_eq_bind, Option.bind_eq_some_iff, Option.pure_def, Option.some.injEq] at h
    obtain ⟨y, hy, zs, hz, rfl⟩ := h
    rw [List.filterMap_cons_some hy, ih hz]

/-- Where every selected input has a head, those that stand there are these. -/
theorem xeThere_of_heads {hs : List (Nat × Token)} (h : xeHeads r e f = some hs) : xeThere r e f = hs :=
  filterMap_of_mapM h

/-- Heads that are data or NIL. -/
def DataOrNil (hs : List (Nat × Token)) : Prop := ∀ h ∈ hs, h.2.kind = 0 ∨ h.2.kind = 3

theorem DataOrNil.not_bound {hs : List (Nat × Token)} (data : DataOrNil hs) : hs.any (fun h => h.2.isBound) = false := by
  rw [List.any_eq_false]
  intro h mem
  obtain kind | kind := data h mem <;> simp [Token.isBound, kind]

/-- They stop no firing (R288). -/
theorem DataOrNil.xeStop {hs : List (Nat × Token)} (data : DataOrNil hs) : xeStop f hs = none := by
  have kinds : kindFault (fun k => k == 0 || k == 3 || k == 5 || k == 15) (hs.map fun h => (xePort f h.1, h.2)) = none := by
    have absent : (hs.map fun h => (xePort f h.1, h.2)).find?
        (fun h => !(h.2.kind == 0 || h.2.kind == 3 || h.2.kind == 5 || h.2.kind == 15)) = none := by
      rw [List.find?_eq_none]
      intro h mem
      obtain ⟨x, hx, rfl⟩ := List.mem_map.mp mem
      obtain kind | kind := data x hx <;> simp [kind]
    rw [kindFault, absent]
  have unbound : hs.find? (fun h => h.2.isBound) = none := by
    rw [List.find?_eq_none]
    exact List.any_eq_false.mp data.not_bound
  rw [Machine.xeStop, kinds, unbound]

/-- Where the inputs named have data heads, none of them is wanting. -/
theorem xeNeed_none {hs : List (Nat × Token)} {is : List Nat} (data : ∀ h ∈ hs, h.1 ∈ is → h.2.kind = 0) :
    xeNeed f hs is = none := by
  have absent : hs.find? (fun h => is.contains h.1 && h.2.kind != 0) = none := by
    rw [List.find?_eq_none]
    intro h mem
    simpa using data h mem
  rw [xeNeed, absent]

theorem mmnSecond_none {hs : List (Nat × Token)} (data : ∀ h ∈ hs, h.1 = 3 ∨ h.1 = 4 → h.2.kind = 0) :
    mmnSecond f hs = none := by
  have absent : hs.find? (fun h => (h.1 == 3 || h.1 == 4) && h.2.kind != 0) = none := by
    rw [List.find?_eq_none]
    intro h mem
    simpa using data h mem
  rw [mmnSecond, absent]

theorem xeNow_none {hs : List (Nat × Token)} (heads : xeHeads r e f = some hs) (data : DataOrNil hs)
    (second : e.xe.half = true → ∀ h ∈ hs, h.1 = 3 ∨ h.1 = 4 → h.2.kind = 0) : xeNow r e f = none := by
  rw [xeNow, xeThere_of_heads heads]
  split
  · next half => exact mmnSecond_none (second half)
  · exact data.xeStop

/-- The element is an XE of the mode that may begin a firing, and no droop freeze or issue fraction withholds it. -/
structure XeReady (s : State) (r : Region) (e : Elem) (f : BitVec 256) (mode : Nat) : Prop where
  may : s.mayFire r e f
  col : e.col = 14
  row : e.row / 2 * 2 = e.row
  free : s.pipeHeld r.die r.cluster = false
  kind : bits f 3 0 = 3
  mode : xeMode f = mode

/-- A firing of such an XE is a step of its element. -/
theorem XeReady.steps {mode : Nat} (ready : XeReady s r e f mode) {i : Instr} {g : Region → Elem → BitVec 256 → Did} {e' : Elem}
    {take : List Nat} {put : List Emit} (run : exec i s = s.xeFires r.rid (e.row / 2 * 2) (isXe mode) g)
    (did : ∃ flags, g r e f = .acts e' take put flags id) (row' : e'.row = e.row) (col' : e'.col = e.col) :
    Steps i s r e e' take put := by
  obtain ⟨may, col, row, free, kind, hmode⟩ := ready
  obtain ⟨flags, did⟩ := did
  have fires := State.element_fires (g := g) (fits := isXe mode) may (by simp [isXe, kind, hmode])
  have moved := State.perform_moves (take := take) (put := put) (flags := flags) may.1 row' col'
  rw [← did] at moved
  refine ⟨_, run.trans ?_, moved⟩
  obtain ⟨⟨region, -⟩, -⟩ := may
  rw [State.xeFires, row, region]
  simp only [free, Bool.false_and, Bool.false_eq_true, if_false, ← col]
  exact fires

/-! ## BLD and DRN (R287) -/

/-- The XE after a token of a tile has gone into its buffer (R287). -/
def bldState (e : Elem) (f : BitVec 256) (x : BitVec 512) : XEState :=
  { (if xeBsel f then { e.xe with b1 := e.xe.b1.setIfInBounds e.xe.pos x }
      else { e.xe with b0 := e.xe.b0.setIfInBounds e.xe.pos x } : XEState) with
    pos := (e.xe.pos + 1) % tileTokens (xeAfmt f) }

theorem xeB_bldState (e : Elem) (f : BitVec 256) (x : BitVec 512) {j : Nat} (h : j < 32) :
    (xeB { e with xe := bldState e f x } f)[j]! = if j = e.xe.pos then x else (xeB e f)[j]! := by
  have buffer : xeB { e with xe := bldState e f x } f = (xeB e f).setIfInBounds e.xe.pos x := by
    unfold xeB bldState
    cases xeBsel f <;> rfl
  rw [buffer, getElem!_pos _ j h, getElem!_pos _ j h, Vector.getElem_setIfInBounds]
  simp only [eq_comm]

/-- A BLD takes its token into the next place of its buffer, zeros for a NIL. -/
theorem XeReady.bld_steps (ready : XeReady s r e f 2) {a : Token} (heads : xeHeads r e f = some [(4, a)])
    (data : a.kind = 0 ∨ a.kind = 3) : Steps (.xeBldFire r.rid e.row) s r e
      { e with xe := bldState e f (if a.kind = 3 then 0#512 else a.payload) } [xePort f 4] [] := by
  have here : DataOrNil [(4, a)] := by simpa [DataOrNil] using data
  refine ready.steps rfl ?_ rfl rfl
  simp only [xeThere_of_heads heads, here.xeStop, heads, here.not_bound]
  simp only [Bool.false_eq_true, if_false, List.any_cons, List.any_nil, Bool.or_false, beq_iff_eq, List.map_cons, List.map_nil]
  exact ⟨_, rfl⟩

section
variable (ready : XeReady s r e f 3) (begins : r.mayBegin e = true)
include ready begins

theorem XeReady.drn_steps (more : e.xe.pos < tileTokens (xeAfmt f)) (inBuffer : e.xe.pos < 32) :
    Steps (.xeDrnFire r.rid e.row) s r e { e with xe := { e.xe with pos := e.xe.pos + 1 } } []
      (xeEmit f 0 (e.tok 0 ((xeB e f)[e.xe.pos]!).toNat)) := by
  have token : (xeB e f).getD e.xe.pos 0#512 = (xeB e f)[e.xe.pos]! := by simp [Vector.getD, inBuffer]
  refine ready.steps rfl ?_ rfl rfl
  simp only [begins, Bool.not_true, Bool.false_eq_true, and_false, if_false, if_pos more, token]
  exact ⟨_, rfl⟩

theorem XeReady.drn_ends (ended : tileTokens (xeAfmt f) ≤ e.xe.pos) :
    Steps (.xeDrnFire r.rid e.row) s r e (e.endRound true) [] (e.eor (16 * xeRowout f) true) := by
  refine ready.steps rfl ?_ rfl rfl
  simp only [begins, Bool.not_true, Bool.false_eq_true, and_false, if_false, if_neg ended.not_gt]
  exact ⟨_, rfl⟩

end

/-! ## MMB and MMN (R285, R286) -/

section
variable {hs : List (Nat × Token)} (heads : xeHeads r e f = some hs)
include heads

/-- An MMB places the C rows of its A rows. -/
theorem XeReady.mmb_steps (ready : XeReady s r e f 0) (data : ∀ h ∈ hs, h.2.kind = 0) :
    let two := xeAfmt f = 2 ∨ xeAfmt f = 3
    let pay (i : Nat) : BitVec 512 := (xePay hs i).getD 0#512
    let c0 := (mmbRow e f (fun k => rowField (pay 0) (aBits (xeAfmt f)) k) (xePay hs 3)).1
    let c1 := if two then (mmbRow e f (fun k => rowField (pay 0) (aBits (xeAfmt f)) (32 + k)) (xePay hs 1)).1 else c0
    Steps (.xeMmbFire r.rid e.row) s r e e (hs.map (fun h => xePort f h.1))
      (xeEmit f 0 (e.tok 0 c0.toNat) ++ xeEmit f 1 (e.tok 0 c1.toNat)) := by
  have data' : DataOrNil hs := fun h mem => .inl (data h mem)
  have noNil : hs.any (fun h => h.1 == 0 && h.2.kind == 3) = false := by
    rw [List.any_eq_false]
    intro h mem
    simp [data h mem]
  refine ready.steps rfl ?_ rfl rfl
  simp only [xeThere_of_heads heads, data'.xeStop, heads, data'.not_bound, noNil, xeNeed_none (fun h mem _ => data h mem)]
  simp only [Bool.false_eq_true, if_false, Bool.or_eq_true, beq_iff_eq, apply_ite Prod.fst]
  exact ⟨_, rfl⟩

/-- An MMB places a NIL row as NIL. -/
theorem XeReady.mmb_nil (ready : XeReady s r e f 0) (data : DataOrNil hs) (nil : ∃ h ∈ hs, h.1 = 0 ∧ h.2.kind = 3) :
    Steps (.xeMmbFire r.rid e.row) s r e e (hs.map (fun h => xePort f h.1)) (xeEmit f 0 (e.tok 3) ++ xeEmit f 1 (e.tok 3)) := by
  have someNil : hs.any (fun h => h.1 == 0 && h.2.kind == 3) = true := by
    obtain ⟨h, mem, lane, kind⟩ := nil
    exact List.any_eq_true.mpr ⟨h, mem, by simp [lane, kind]⟩
  refine ready.steps rfl ?_ rfl rfl
  simp only [xeThere_of_heads heads, data.xeStop, heads, data.not_bound, someNil]
  exact ⟨_, rfl⟩

/-- An MMN places the columns of its lanes, with CFMT F32 in two steps. -/
theorem XeReady.mmn_steps (ready : XeReady s r e f 1) (data : DataOrNil hs) (needs : ∀ h ∈ hs, h.1 ∈ mmnNeeds hs → h.2.kind = 0)
    (second : e.xe.half = true → ∀ h ∈ hs, h.1 = 3 ∨ h.1 = 4 → h.2.kind = 0) :
    let wide : Bool := xeCfmt f == 0
    let lo : Nat := if e.xe.half then 16 else 0
    let n : Nat := if wide then 16 else 32
    let first : Bool := wide && !e.xe.half
    let flags : BitVec 5 := (mmnLane e f hs 0 lo n).2 ||| (mmnLane e f hs 1 lo n).2 ||| e.xe.halfFlags
    Steps (.xeMmnFire r.rid e.row) s r e { e with xe := { e.xe with half := first, halfFlags := if first then flags else 0#5 } }
      ((hs.filter (fun h => !first || h.1 == 3 || h.1 == 4)).map (fun h => xePort f h.1))
      ((mmnLane e f hs 0 lo n).1 ++ (mmnLane e f hs 1 lo n).1) := by
  refine ready.steps rfl ?_ rfl rfl
  simp only [xeNow_none heads data second, heads, data.not_bound, xeNeed_none needs]
  generalize (xeCfmt f == 0) = wide
  cases wide <;> cases e.xe.half <;> exact ⟨_, rfl⟩

end

/-- Settles O41. -/
theorem matrixElements : Obligations.MatrixElements := by
  unfold Obligations.MatrixElements
  intro s r e f a may col row kind free par north south
  have ready {mode : Nat} (hmode : xeMode f = mode) : XeReady s r e f mode := ⟨may, col, row, free, kind, hmode⟩
  refine ⟨fun mode heads data => ?_, fun mode begins => ⟨(ready mode).drn_steps begins, (ready mode).drn_ends begins⟩,
    fun hs mode heads => XeReady.mmb_steps heads (ready mode), fun hs mode heads => XeReady.mmb_nil heads (ready mode),
    fun hs mode heads => XeReady.mmn_steps heads (ready mode)⟩
  obtain ⟨t, run, moved, rest⟩ := (ready mode).bld_steps heads data
  exact ⟨t, run, by rw [rest], by rw [rest], _, moved, rfl, fun j hj => xeB_bldState _ _ _ hj⟩

end Sys2Proof.Machine
end

