-- ==== Sys2Proof/Proofs/WordFields.lean ====
section
/-! PROOF. Fields of an instruction word (R98): an appended word holds each of its fields, and so each part of a field. -/
namespace Sys2Proof

variable {k n m s : Nat} {x : BitVec n} {y : BitVec m}

/-- Bits `s` upward of `w` hold `v`. -/
def HasField (w : BitVec k) (s : Nat) (v : BitVec n) : Prop := w.extractLsb' s n = v

theorem hasField_append {w : BitVec k} : HasField w s (x ++ y) ↔ HasField w (s + m) x ∧ HasField w s y := by
  simp only [HasField]
  rw [← BitVec.extractLsb'_append_extractLsb'_eq_extractLsb' rfl]
  refine ⟨fun h => ⟨?_, ?_⟩, fun ⟨hx, hy⟩ => by rw [hx, hy]⟩
  · simpa only [BitVec.extractLsb'_append_eq_left] using congrArg (BitVec.extractLsb' m n) h
  · simpa only [BitVec.extractLsb'_append_eq_right] using congrArg (BitVec.extractLsb' 0 m) h

theorem append_eq_iff {w : BitVec (n + m)} : x ++ y = w ↔ HasField w m x ∧ HasField w 0 y := by
  have whole : HasField w 0 (x ++ y) ↔ x ++ y = w := by rw [HasField, BitVec.extractLsb'_eq_self, eq_comm]
  rw [← whole, hasField_append, Nat.zero_add]

/-- A field that a word holds holds its own parts there. -/
theorem hasField_iff_parts {w : BitVec k} {v : BitVec n} : HasField w s v ↔
    ∀ t l, s ≤ t → t + l ≤ s + n → w.extractLsb' t l = v.extractLsb' (t - s) l := by
  refine ⟨?_, fun h => ?_⟩
  · rintro rfl t l low high
    apply BitVec.eq_of_getLsbD_eq
    intro i hi
    simp only [BitVec.getLsbD_extractLsb', hi, show t - s + i < n by omega, decide_true, Bool.true_and]
    congr 1
    omega
  · rw [HasField, h s n le_rfl le_rfl, Nat.sub_self, BitVec.extractLsb'_eq_self]

/-- A field read in two parts. -/
theorem toNat_extractLsb'_split {w : BitVec k} {t l : Nat} (n m : Nat) (hl : n + m = l) (ht : s + m = t) :
    (w.extractLsb' s l).toNat = (w.extractLsb' t n).toNat * 2 ^ m + (w.extractLsb' s m).toNat := by
  subst hl ht
  rw [← BitVec.extractLsb'_append_extractLsb'_eq_extractLsb' rfl, BitVec.toNat_append, ← Nat.shiftLeft_eq,
    Nat.shiftLeft_add_eq_or_of_lt (BitVec.isLt _)]

end Sys2Proof
end

