-- ==== Sys2Proof/Proofs/EncodeOfDecode.lean ====
section
/-! PROOF. What decodes is a strand instruction whose words are the ones decoded (R97 to R112). -/
namespace Sys2Proof

/-! ## The answers of the decoder -/

/-- Whatever instruction the decoder answers is a strand's, and these are its words. -/
def Reencodes (ws : List (BitVec 32)) (d : Except DecodeError Instr) : Prop :=
  ∀ i, d = .ok i → i.isStrand = true ∧ encode i = ws

section
variable {ws : List (BitVec 32)} {e : DecodeError}

theorem reencodes_error : Reencodes ws (.error e) := fun _ answer => nomatch answer

theorem reencodes_ok {i : Instr} : Reencodes ws (.ok i) ↔ i.isStrand = true ∧ encode i = ws := by
  simp only [Reencodes, Except.ok.injEq, forall_eq']

theorem reencodes_need {w : BitVec 32} {n lo : Nat} {v : BitVec n} {d : Except DecodeError Instr} :
    Reencodes ws (need w lo v e d) ↔ ((w.extractLsb' lo n).toNat = v.toNat → Reencodes ws d) := by
  rw [BitVec.toNat_inj, need]
  split <;> simp only [*, reencodes_error, forall_const, false_implies]

end

/-- What decodes is well formed, and is what the fields say. -/
theorem decode_eq_ok {w w2 : BitVec 32} {i : Instr} :
    decode w w2 = .ok i ↔ decodeFields w w2 = .ok i ∧ i.wellFormed = true := by
  unfold decode
  cases decodeFields w w2 with
  | error e => simp
  | ok j =>
    by_cases wf : j.wellFormed = true
    · simp only [wf, if_true, Except.ok.injEq, iff_self_and]
      rintro rfl
      exact wf
    · simp only [wf, Bool.false_eq_true, if_false, reduceCtorEq, Except.ok.injEq, false_iff, not_and]
      rintro rfl
      exact wf

/-! ## One word or two -/

/-- The words of an instruction at `w`: with the word after it for an L-format pair (R97). -/
def wordsAt (w w2 : BitVec 32) : List (BitVec 32) := if isPair w then [w, w2] else [w]

theorem wordsAt_of_opcode {w w2 : BitVec 32} {op : Nat} (h : (w.extractLsb' 26 6).toNat = op) :
    wordsAt w w2 = if op = 14 then [w, w2] else [w] := by
  have pair : isPair w = true ↔ op = 14 := by rw [isPair, beq_iff_eq, ← BitVec.toNat_inj, h]; rfl
  simp only [wordsAt, pair]

/-! ## Every row of the opcode map -/

/-- The fields that the decoder reads in two parts and the encoder writes as one, or the other way round. -/
theorem fields_in_parts (w : BitVec 32) :
    (w.extractLsb' 0 8).toNat = (w.extractLsb' 6 2).toNat * 64 + (w.extractLsb' 0 6).toNat ∧
    (w.extractLsb' 0 8).toNat = (w.extractLsb' 5 3).toNat * 32 + (w.extractLsb' 0 5).toNat ∧
    (w.extractLsb' 0 8).toNat = (w.extractLsb' 4 4).toNat * 16 + (w.extractLsb' 0 4).toNat ∧
    (w.extractLsb' 2 6).toNat = (w.extractLsb' 6 2).toNat * 16 + (w.extractLsb' 2 4).toNat ∧
    (w.extractLsb' 0 5).toNat = (w.extractLsb' 3 2).toNat * 8 + (w.extractLsb' 0 3).toNat ∧
    (w.extractLsb' 3 5).toNat = (w.extractLsb' 6 2).toNat * 8 + (w.extractLsb' 3 3).toNat ∧
    (w.extractLsb' 2 3).toNat = (w.extractLsb' 3 2).toNat * 2 + (w.extractLsb' 2 1).toNat ∧
    (w.extractLsb' 11 3).toNat = (w.extractLsb' 12 2).toNat * 2 + (w.extractLsb' 11 1).toNat :=
  ⟨toNat_extractLsb'_split 2 6 rfl rfl, toNat_extractLsb'_split 3 5 rfl rfl, toNat_extractLsb'_split 4 4 rfl rfl,
    toNat_extractLsb'_split 2 4 rfl rfl, toNat_extractLsb'_split 2 3 rfl rfl, toNat_extractLsb'_split 2 3 rfl rfl,
    toNat_extractLsb'_split 2 1 rfl rfl, toNat_extractLsb'_split 2 1 rfl rfl⟩

/-- Each row of the decoder reads and checks every field that the encoder writes. -/
theorem reencodes_decodeFields (w w2 : BitVec 32) : Reencodes (wordsAt w w2) (decodeFields w w2) := by
  unfold decodeFields
  split
  case h_46 => exact reencodes_error
  -- the rows of an opcode, by its function fields
  all_goals
    rename_i op
    rw [wordsAt_of_opcode op]
    simp only [Nat.reduceEqDiff, if_false, if_true, decodeOp01, decodeOp02, decodeOp03, decodeOp04, decodeOp05,
      decodeOp06, decodeOp07, decodeOp08, decodeOp09, decodeOp0A, decodeOp0B, decodeOp0C, decodeOp0D, decodeOp0E,
      decodeOp0F, decodeOp10, decodeOp11, decodeOp12, decodeOp13, decodeOp14, decodeOp15, decodeOp16, decodeOp17,
      decodeOp18, decodeOp19, decodeOp1A, decodeOp1B, decodeOp1C, decodeOp1D, decodeOp1E, decodeOp1F, decodeOp20,
      decodeOp21, decodeOp22, decodeOp23, decodeOp24, decodeOp25, decodeOp26, decodeOp27, decodeOp28, decodeOp29,
      decodeOp2A, decodeOp2B, decodeOp2C, decodeOp2D]
    repeat' split
  all_goals simp only [reencodes_need, reencodes_ok, reencodes_error, BitVec.reduceToNat]
  -- the word of a row is its fields one after another
  all_goals
    intros
    refine ⟨rfl, List.cons_eq_cons.mpr ⟨?_, rfl⟩⟩
    rw [append_eq_iff]
    simp only [↓hasField_append, HasField, Nat.reduceAdd, ← BitVec.toNat_inj, BitVec.reduceToNat, true_and, and_true, *]
  -- left are the constants that the decoder reads in two parts
  all_goals
    have := fields_in_parts w
    omega

/-- Settles O54: each row of the decoder reencodes to the word that it reads. -/
theorem encodeOfDecode : Obligations.EncodeOfDecode := by
  unfold Obligations.EncodeOfDecode
  intro w w2 i dec
  obtain ⟨fields, wellFormed⟩ := decode_eq_ok.mp dec
  obtain ⟨strand, words⟩ := reencodes_decodeFields w w2 i fields
  exact ⟨strand, wellFormed, words⟩

end Sys2Proof
end

