-- ==== Sys2Proof/Proofs/DecodeOfEncode.lean ====
section
/-! PROOF. The bytes of a strand instruction decode to it (R97 to R112). -/
namespace Sys2Proof
open Machine (insWord)

/-! ## Every row of the opcode map

The word of a row holds its fields one after another, so each field that the decoder reads is one of them or a part of one.
The rows are taken in four runs, in the order of the opcode table. -/

theorem need_of_eq {w : BitVec 32} {n lo : Nat} {v : BitVec n} {e : DecodeError} {d : Except DecodeError Instr}
    (h : w.extractLsb' lo n = v) : need w lo v e d = d := if_pos h

/-- The words of the instruction, with any word after a single one, read as the instruction. -/
def Decodes (i : Instr) : Prop := ∀ w2, decodeFields (insWord i) ((encode i).getD 1 w2) = .ok i

theorem decodes_iff {i : Instr} : Decodes i ↔ ∀ w2 w, insWord i = w → decodeFields w ((encode i).getD 1 w2) = .ok i := by
  simp only [Decodes, forall_eq']

/-- The instruction stands in rows `lo` to `hi - 1` of the opcode table. -/
def Instr.inRows (lo hi : Nat) (i : Instr) : Bool := decide (lo ≤ i.ctorIdx) && decide (i.ctorIdx < hi)

theorem inRows_iff {lo hi : Nat} {i : Instr} : i.inRows lo hi = true ↔ lo ≤ i.ctorIdx ∧ i.ctorIdx < hi := by
  simp only [Instr.inRows, Bool.and_eq_true, decide_eq_true_eq]

/-- Integers, constants, control transfers and scalar floats, opcodes 0x01 to 0x14. -/
theorem decodes_scalar {i : Instr} (row : i.inRows 0 81 = true) : Decodes i := by
  refine decodes_iff.mpr fun w2 w word => ?_
  cases i
  all_goals try contradiction
  all_goals
    have fields := append_eq_iff.mp word
    simp only [↓hasField_append, hasField_iff_parts, Nat.reduceAdd] at fields
    simp only [decodeFields, decodeOp01, decodeOp02, decodeOp03, decodeOp04, decodeOp05, decodeOp06, decodeOp07,
      decodeOp08, decodeOp09, decodeOp0A, decodeOp0B, decodeOp0C, decodeOp0D, decodeOp0E, decodeOp0F, decodeOp10,
      decodeOp11, decodeOp12, decodeOp13, decodeOp14, need_of_eq, fields, Nat.reduceLeDiff, Nat.reduceSub,
      Nat.reduceAdd, BitVec.reduceExtractLsb', BitVec.reduceToNat, BitVec.extractLsb'_eq_self]
  -- LIMM and LIMM.n: the second word is the immediate
  all_goals rfl

/-- The comparisons of lanes, whose condition is the low part of the function field (R106). -/
theorem decodes_compare (d : BitVec 3) (a b : BitVec 4) (k c : BitVec 3) :
    Decodes (.vcmp d a b k c) ∧ Decodes (.vcmpS d a b k c) := by
  constructor
  all_goals
    refine decodes_iff.mpr fun w2 w word => ?_
    have fields := append_eq_iff.mp word
    simp only [↓hasField_append, hasField_iff_parts, Nat.reduceAdd] at fields
    have function := toNat_extractLsb'_split (w := w) (s := 0) (t := 3) (l := 5) 2 3 rfl rfl
    simp only [fields, Nat.reduceLeDiff, Nat.reduceAdd, Nat.reduceSub, Nat.reduceMul, Nat.reducePow, BitVec.reduceToNat,
      BitVec.extractLsb'_eq_self] at function
    have bound := c.isLt
    interval_cases c.toNat
    all_goals
      simp only [decodeFields, decodeOp15, decodeOp16, function, need_of_eq, fields, Nat.reduceLeDiff, Nat.reduceSub,
        Nat.reduceAdd, BitVec.reduceToNat, BitVec.extractLsb'_eq_self]

/-- Vectors and masks, opcodes 0x15 to 0x18. -/
theorem decodes_vector {i : Instr} (row : i.inRows 81 142 = true) : Decodes i := by
  refine decodes_iff.mpr fun w2 w word => ?_
  cases i
  all_goals try contradiction
  case vcmp d a b k c => exact (decodes_iff.mp (decodes_compare d a b k c).1) w2 w word
  case vcmpS d a b k c => exact (decodes_iff.mp (decodes_compare d a b k c).2) w2 w word
  all_goals
    have fields := append_eq_iff.mp word
    simp only [↓hasField_append, hasField_iff_parts, Nat.reduceAdd] at fields
    simp only [decodeFields, decodeOp15, decodeOp16, decodeOp17, decodeOp18, need_of_eq, fields, Nat.reduceLeDiff,
      Nat.reduceSub, Nat.reduceAdd, BitVec.reduceExtractLsb', BitVec.reduceToNat, BitVec.extractLsb'_eq_self]

/-- Memory, opcodes 0x19 to 0x23. -/
theorem decodes_memory {i : Instr} (row : i.inRows 142 176 = true) : Decodes i := by
  refine decodes_iff.mpr fun w2 w word => ?_
  cases i
  all_goals try contradiction
  all_goals
    have fields := append_eq_iff.mp word
    simp only [↓hasField_append, hasField_iff_parts, Nat.reduceAdd] at fields
    simp only [decodeFields, decodeOp19, decodeOp1A, decodeOp1B, decodeOp1C, decodeOp1D, decodeOp1E, decodeOp1F,
      decodeOp20, decodeOp21, decodeOp22, decodeOp23, need_of_eq, fields, Nat.reduceLeDiff, Nat.reduceSub,
      Nat.reduceAdd, BitVec.reduceExtractLsb', BitVec.reduceToNat, BitVec.extractLsb'_eq_self]

/-- Messages, copies, fronds, strands, cells and the system, opcodes 0x24 to 0x2D. -/
theorem decodes_system {i : Instr} (row : i.inRows 176 215 = true) : Decodes i := by
  refine decodes_iff.mpr fun w2 w word => ?_
  cases i
  all_goals try contradiction
  all_goals
    have fields := append_eq_iff.mp word
    simp only [↓hasField_append, hasField_iff_parts, Nat.reduceAdd] at fields
    simp only [decodeFields, decodeOp24, decodeOp25, decodeOp26, decodeOp27, decodeOp28, decodeOp29, decodeOp2A,
      decodeOp2B, decodeOp2C, decodeOp2D, need_of_eq, fields, Nat.reduceLeDiff, Nat.reduceSub, Nat.reduceAdd,
      BitVec.reduceExtractLsb', BitVec.reduceToNat, BitVec.extractLsb'_eq_self]

theorem ctorIdx_lt_of_isStrand {i : Instr} (strand : i.isStrand = true) : i.ctorIdx < 215 := by
  cases i
  all_goals try contradiction
  all_goals exact of_decide_eq_true rfl

theorem decodes_of_isStrand {i : Instr} (strand : i.isStrand = true) : Decodes i := by
  have last := ctorIdx_lt_of_isStrand strand
  rcases lt_or_ge i.ctorIdx 81 with scalar | fromVector
  · exact decodes_scalar (inRows_iff.mpr ⟨Nat.zero_le _, scalar⟩)
  rcases lt_or_ge i.ctorIdx 142 with vector | fromMemory
  · exact decodes_vector (inRows_iff.mpr ⟨fromVector, vector⟩)
  rcases lt_or_ge i.ctorIdx 176 with memory | system
  · exact decodes_memory (inRows_iff.mpr ⟨fromMemory, memory⟩)
  · exact decodes_system (inRows_iff.mpr ⟨system, last⟩)

/-! ## Words from bytes (R5, R97) -/

theorem bytesWord_wordBytes (w : BitVec 32) (rest : List Byte) : bytesWord ((wordBytes w ++ rest).take 4) = w := by
  refine append_eq_iff.mpr ?_
  simp only [↓hasField_append, HasField, Nat.reduceAdd, and_self]

theorem decodeBytes_wordBytes (w : BitVec 32) (rest : List Byte) :
    decodeBytes (wordBytes w ++ rest) = decode w (bytesWord (rest.take 4)) := by
  have second : (wordBytes w ++ rest).drop 4 = rest := rfl
  rw [decodeBytes, bytesWord_wordBytes, second]

/-- The bytes of one word or two decode as the words do, with the bytes behind a single word in the second place. -/
theorem decodeBytes_words {w : BitVec 32} {ws : List (BitVec 32)} {rest : List Byte}
    (h : ws = wordsAt w (ws.getD 1 (bytesWord (rest.take 4)))) :
    decodeBytes (ws.flatMap wordBytes ++ rest) = decode w (ws.getD 1 (bytesWord (rest.take 4))) := by
  unfold wordsAt at h
  split at h
  case isTrue =>
    generalize ws.getD 1 _ = w2 at h ⊢
    rw [h, List.flatMap_cons, List.append_assoc, decodeBytes_wordBytes, List.flatMap_singleton, bytesWord_wordBytes]
  case isFalse =>
    rw [h, List.flatMap_singleton, decodeBytes_wordBytes]
    rfl

theorem length_wordsAt (w w2 : BitVec 32) : (wordsAt w w2).length = if isPair w then 2 else 1 := by
  unfold wordsAt
  split <;> rfl

/-- Settles O53. -/
theorem decodeOfEncode : Obligations.DecodeOfEncode := by
  unfold Obligations.DecodeOfEncode
  intro i rest strand wellFormed
  have fields := decodes_of_isStrand strand (bytesWord (rest.take 4))
  obtain ⟨-, words⟩ := reencodes_decodeFields _ _ i fields
  refine ⟨(congrArg List.length words).trans (length_wordsAt _ _), ?_⟩
  rw [decodeBytes_words words]
  exact decode_eq_ok.mpr ⟨fields, wellFormed⟩

/-! ## Words of the spec -/

/-- The word has 2 in bits 7..5, which name the mask register of a vector instruction (R98). -/
theorem decode_vadd_under_k2 : decode 0x54108340#32 0#32 = .ok (.vadd 1#4 2#4 3#4 2#3) := by decide

/-- Refutes O55: in V format (R98, R106) the word that it gives for VADD under k0 names k2. -/
theorem not_decodedWords : ¬ Obligations.DecodedWords := by
  unfold Obligations.DecodedWords
  rintro ⟨-, -, -, -, vadd, -⟩
  rw [decode_vadd_under_k2] at vadd
  exact absurd vadd (by decide)

end Sys2Proof
end

