-- ==== Sys2Proof/Proofs/ControlRegisters.lean ====
section
/-! PROOF. CTLR and CTLW by register and mode (R37, R74, R95, R96). -/
namespace Sys2Proof.Machine

/-! ## CTLR (R95, R96) -/

section
variable {s : State}

theorem State.ctlRead_stat : s.ctlRead 0x000 =
    w64 ((if s.self.ctl.sMode then 1 else 0) + (if s.self.ctl.itr then 4 else 0) + (if s.self.ctl.pmode then 8 else 0)
      + (if s.self.ctl.ganged then 16 else 0) + (if s.self.ctl.glead then 32 else 0) + (if s.self.ctl.split then 64 else 0)
      + 256 * s.self.ctl.parkCode.toNat) := by
  simp [State.ctlRead, Ctl.stat, b2n]

theorem State.ctlRead_sid : s.ctlRead 0x001 = match s.self.id.sid with
    | some x => x.zeroExtend 64
    | none => 0#64 := by
  simp only [State.ctlRead, Strand.sidNat]
  cases s.self.id.sid with
  | none => rfl
  | some x => exact BitVec.eq_of_toNat_eq (by simp)

/-- A listed register that the mode may read is read. -/
theorem exec_ctlr_reads {d : BitVec 6} {i : BitVec 12} (listed : ctlListed i.toNat = true)
    (allowed : i.toNat < 0x100 ∨ s.self.ctl.sMode = true) : exec (.ctlr d i) s = .next (s.wrote d (s.ctlRead i.toNat)) := by
  have readable : ¬ (0x100 ≤ i.toNat ∧ (!s.self.ctl.sMode) = true) := by
    rintro ⟨high, user⟩
    rcases allowed with low | mode
    · omega
    · simp [mode] at user
  rw [← s.setG_adv]
  show execCtlr d i s = _
  simp only [execCtlr, listed, Bool.not_true, Bool.false_eq_true, if_false, if_neg readable]
  rfl

theorem exec_ctlr_priv {d : BitVec 6} {i : BitVec 12} (user : s.self.ctl.sMode = false) (can : s.canTrap)
    (low : 0x100 ≤ i.toNat) (high : i.toNat ≤ 0x10D) :
    exec (.ctlr d i) s = .next (s.trapped s.self.pc (privTrap (insWord (.ctlr d i)) i.toNat)) := by
  have listed : ctlListed i.toNat = true := by simp [ctlListed, low, high]
  rw [← s.trap_eq can]
  show execCtlr d i s = _
  simp [execCtlr, listed, low, user]

end

/-! ## CTLW (R37, R74, R95, R96) -/

section
variable {s : State} {a : BitVec 6} {i : BitVec 12}

/-- What CTLW does, by what the write of the register comes to. -/
theorem exec_ctlw : exec (.ctlw a i) s = match s.self.ctl.write i.toNat (s.getG a) with
    | .ill => .next (s.trap (illDecode (insWord (.ctlw a i)) 0#32))
    | .priv => .next (s.trap (privTrap (insWord (.ctlw a i)) i.toNat))
    | .illValue => .next (s.trap (illRun (s.getG a) (insWord (.ctlw a i))))
    | .ok c => .next (s.setCtl c).adv := rfl

theorem exec_ctlw_sets {c : Ctl} (h : s.self.ctl.write i.toNat (s.getG a) = .ok c) : exec (.ctlw a i) s =
    .next { s with self := { s.self with pc := s.self.pc + 4#64, ctl := c } } := by
  rw [exec_ctlw, h]
  rfl

theorem exec_ctlw_ill (h : s.self.ctl.write i.toNat (s.getG a) = .ill) (can : s.canTrap) : exec (.ctlw a i) s =
    .next (s.trapped s.self.pc { cause := 1, info0 := w64 (insWord (.ctlw a i)).toNat }) := by
  rw [exec_ctlw, h, ← s.trap_eq can]
  rfl

theorem exec_ctlw_priv (h : s.self.ctl.write i.toNat (s.getG a) = .priv) (can : s.canTrap) : exec (.ctlw a i) s =
    .next (s.trapped s.self.pc (privTrap (insWord (.ctlw a i)) i.toNat)) := by
  rw [exec_ctlw, h, ← s.trap_eq can]

theorem exec_ctlw_illValue (h : s.self.ctl.write i.toNat (s.getG a) = .illValue) (can : s.canTrap) : exec (.ctlw a i) s =
    .next (s.trapped s.self.pc (illRun (s.getG a) (insWord (.ctlw a i)))) := by
  rw [exec_ctlw, h, ← s.trap_eq can]

end

section
variable {c : Ctl} {x : Word} {n : Nat}

theorem Ctl.write_readOnly (h : n = 1 ∨ n = 2 ∨ n = 3 ∨ n = 8) : c.write n x = .ill := by
  rcases h with rfl | rfl | rfl | rfl <;> simp [Ctl.write]

theorem Ctl.write_launchRegister (mode : c.sMode = true) (low : 0x107 ≤ n) (high : n ≤ 0x10D) : c.write n x = .ill := by
  interval_cases n <;> simp [Ctl.write, mode]

theorem Ctl.write_user (user : c.sMode = false) (h : n = 7 ∨ (0x100 ≤ n ∧ n ≤ 0x10D)) : c.write n x = .priv := by
  rcases h with rfl | ⟨low, high⟩
  · simp [Ctl.write, user]
  · interval_cases n <;> simp [Ctl.write, user]

theorem bits_low3 (x : Word) : bits x 2 0 = x.toNat % 8 := by simp [bits, natBits]

/-- TVEC keeps bits 1..0 zero. -/
theorem w64_bits_aligned (x : Word) : w64 (bits x 63 2 * 4) = x &&& ~~~3#64 := by
  have shifts : w64 (bits x 63 2 * 4) = x >>> 2 <<< 2 := by
    apply BitVec.eq_of_toNat_eq
    simp only [bits, natBits, Nat.reducePow, Nat.reduceAdd, Nat.reduceSub, BitVec.toNat_ofNat, BitVec.toNat_shiftLeft,
      BitVec.toNat_ushiftRight, Nat.shiftRight_eq_div_pow, Nat.shiftLeft_eq]
    omega
  rw [shifts, BitVec.shiftLeft_ushiftRight]
  rfl

/-- Clearing bit 6 of a number that has it clear but for a summand of 64 leaves the number. -/
theorem clear_bit6 {n : Nat} (h : n / 64 % 2 = 0) (b : Bool) : w64 (n + 64 * b2n b) &&& ~~~0x40#64 = w64 n := by
  have clear : w64 n &&& 0x40#64 = 0#64 := by
    have bit : (w64 n).getLsbD 6 = false := by
      simp only [BitVec.getLsbD, BitVec.toNat_ofNat, Nat.reducePow, Nat.testBit_eq_decide_div_mod_eq,
        decide_eq_false_iff_not, Nat.mod_two_not_eq_one]
      omega
    rw [show 0x40#64 = BitVec.twoPow 64 6 from rfl, BitVec.and_twoPow, bit]
    rfl
  have keep : w64 n &&& ~~~0x40#64 = w64 n := by
    calc w64 n &&& ~~~0x40#64 = w64 n &&& 0x40#64 ||| w64 n &&& ~~~0x40#64 := by rw [clear, BitVec.zero_or]
      _ = w64 n := by rw [← BitVec.and_or_distrib_left, BitVec.or_not_self, BitVec.and_allOnes]
  cases b with
  | false => exact keep
  | true =>
    have sum : w64 (n + 64) = w64 n ||| 0x40#64 := by
      rw [w64, BitVec.ofNat_add, BitVec.add_eq_or_of_and_eq_zero _ _ clear]
    show w64 (n + 64) &&& _ = _
    rw [sum, BitVec.and_or_distrib_right, keep, BitVec.and_not_self]
    exact BitVec.or_zero

theorem b2n_le (b : Bool) : b2n b ≤ 1 := by cases b <;> decide

/-- STAT without SPLIT is STAT with bit 6 cleared (R37). -/
theorem Ctl.stat_clear_split (c : Ctl) : c.stat &&& ~~~0x40#64 = c.statRest := by
  have order : b2n c.sMode + 4 * b2n c.itr + 8 * b2n c.pmode + 16 * b2n c.ganged + 32 * b2n c.glead + 64 * b2n c.split
      + 256 * c.parkCode.toNat = b2n c.sMode + 4 * b2n c.itr + 8 * b2n c.pmode + 16 * b2n c.ganged + 32 * b2n c.glead
      + 256 * c.parkCode.toNat + 64 * b2n c.split := Nat.add_right_comm ..
  have := b2n_le c.sMode
  have := b2n_le c.itr
  have := b2n_le c.pmode
  have := b2n_le c.ganged
  have := b2n_le c.glead
  rw [Ctl.stat, order, clear_bit6 (by omega), Ctl.statRest, Ctl.stat]
  rfl

end

section
variable {c : Ctl} {x : Word}

theorem Ctl.write_frm : c.write 0x004 x = if 5 ≤ x.toNat % 8 then .illValue else .ok { c with frm := x.setWidth 3 } := by
  rw [← bits_low3]
  rfl

theorem Ctl.write_stat_system (mode : c.sMode = true) : c.write 0x000 x = if 2 ≤ x.toNat % 4 then .illValue else
    .ok { c with sMode := x.getLsbD 0, itr := x.getLsbD 2, pmode := x.getLsbD 3, split := c.split && !(x.getLsbD 6) } := by
  rw [← bits_low]
  exact if_pos mode

theorem Ctl.write_stat_user (user : c.sMode = false) : c.write 0x000 x = if x &&& ~~~0x40#64 = c.stat &&& ~~~0x40#64 then
    .ok { c with split := c.split && !(x.getLsbD 6) } else .priv := by
  rw [Ctl.stat_clear_split]
  exact if_neg (Bool.eq_false_iff.mp user)

end

/-- Settles O26. -/
theorem controlRegisters : Obligations.ControlRegisters := by
  unfold Obligations.ControlRegisters
  refine ⟨fun s d i => ?_, fun s a i => ?_⟩
  · intro c id reads
    have any {i : BitVec 12} (listed : ctlListed i.toNat = true) (low : i.toNat < 0x100) : reads i (s.ctlRead i.toNat) :=
      exec_ctlr_reads listed (.inl low)
    refine ⟨?_, ?_, any rfl (by decide), any rfl (by decide), any rfl (by decide), any rfl (by decide),
      any rfl (by decide), any rfl (by decide), any rfl (by decide), fun mode => ?_, exec_ctlr_priv⟩
    · rw [← State.ctlRead_stat]
      exact any rfl (by decide)
    · exact (any (i := 0x001#12) rfl (by decide)).trans (congrArg (fun x => Host.Outcome.next (s.wrote d x)) State.ctlRead_sid)
    · have system {i : BitVec 12} (listed : ctlListed i.toNat = true) : reads i (s.ctlRead i.toNat) :=
        exec_ctlr_reads listed (.inr mode)
      exact ⟨system rfl, system rfl, system rfl, system rfl, system rfl, system rfl, system rfl, system rfl, system rfl,
        system rfl, system rfl, system rfl, system rfl, system rfl⟩
  · intro x c sets raises word
    refine ⟨fun legal => exec_ctlw_sets (Ctl.write_frm.trans (if_neg (Nat.not_lt.mpr legal))),
      fun reserved => exec_ctlw_illValue (Ctl.write_frm.trans (if_pos reserved)), exec_ctlw_sets rfl, exec_ctlw_sets rfl,
      fun readOnly => exec_ctlw_ill (Ctl.write_readOnly ?_), fun mode => ?_, fun user => ?_⟩
    · rcases readOnly with rfl | rfl | rfl | rfl <;> decide
    · have opens {i : BitVec 12} {c' : Ctl} (h : c.write i.toNat x = if c.sMode then .ok c' else .priv) : sets i c' :=
        exec_ctlw_sets (h.trans (if_pos mode))
      refine ⟨opens rfl, ?_, opens rfl, opens rfl, opens rfl, opens rfl, opens rfl, opens rfl,
        fun legal => exec_ctlw_sets ((Ctl.write_stat_system mode).trans (if_neg (Nat.not_lt.mpr legal))),
        fun reserved => exec_ctlw_illValue ((Ctl.write_stat_system mode).trans (if_pos reserved)),
        fun low high => exec_ctlw_ill (Ctl.write_launchRegister mode low high)⟩
      rw [← w64_bits_aligned]
      exact opens rfl
    · exact ⟨fun only => exec_ctlw_sets ((Ctl.write_stat_user user).trans (if_pos only)),
        fun more => exec_ctlw_priv ((Ctl.write_stat_user user).trans (if_neg more)),
        fun h => exec_ctlw_priv (Ctl.write_user user (h.imp_left (congrArg BitVec.toNat)))⟩

end Sys2Proof.Machine
end

