-- ==== Sys2Proof/Proofs/IntegerArithmetic.lean ====
section
/-! PROOF. Integer arithmetic of opcode 0x01 (O1) and the immediate forms (O3). -/
namespace Sys2Proof.Machine

variable {s : State} {d a b : BitVec 6} {m : BitVec 2} {w : BitVec 1} {u : Bool}

/-! ## Operands and results (R102, R124) -/

theorem State.put_eq (s : State) (d : BitVec 6) (x : Word) : s.put d x = .next (s.wrote d x) :=
  congrArg Host.Outcome.next (s.setG_adv d x)

theorem modWidth_eq (m : BitVec 2) : modWidth m = Spec.width (m.getLsbD 0) := rfl

theorem wMod_getLsbD_zero (w : BitVec 1) : (wMod w).getLsbD 0 = w.getLsbD 0 := by simp

theorem wMod_getLsbD_one (w : BitVec 1) : (wMod w).getLsbD 1 = false := by simp

theorem opVal_eq (m : BitVec 2) (u : Bool) (x : Word) : opVal m u x = Spec.val (m.getLsbD 0) u x := by
  have pos : 0 < modWidth m := by rw [modWidth]; split <;> decide
  refine (intSource_eq pos u x).trans ?_
  unfold modWidth Spec.val
  cases m.getLsbD 0 <;> cases u <;> simp

/-- The end of R124, with the clamping of R68. -/
theorem fitted_eq (m : BitVec 2) (u : Bool) (r : Int) : fitted m u r = Spec.fit (m.getLsbD 0) (m.getLsbD 1) u r := by
  unfold fitted Spec.fit
  simp only [clamp_eq, modWidth]
  cases m.getLsbD 0 <;> cases u <;> rfl

/-- A form of R124 on two values. -/
theorem State.arith_eq (s : State) (d a b : BitVec 6) (m : BitVec 2) (u : Bool) (op : Int → Int → Int) :
    s.arith d a b m u op = .next (s.wrote d (Spec.fit (m.getLsbD 0) (m.getLsbD 1) u
      (op (Spec.val (m.getLsbD 0) u (s.getG a)) (Spec.val (m.getLsbD 0) u (s.getG b))))) := by
  rw [State.arith, State.put_eq, fitted_eq, opVal_eq, opVal_eq]

/-- A form whose one modifier is .w, with its exact result. -/
theorem State.arith_wMod {op : Int → Int → Int} {r : Int}
    (value : op (Spec.val (w.getLsbD 0) u (s.getG a)) (Spec.val (w.getLsbD 0) u (s.getG b)) = r) :
    s.arith d a b (wMod w) u op = .next (s.wrote d (Spec.fit (w.getLsbD 0) false u r)) := by
  rw [State.arith_eq, wMod_getLsbD_zero, wMod_getLsbD_one, value]

theorem val_unsigned_nonneg (w32 : Bool) (x : Word) : 0 ≤ Spec.val w32 true x := by
  cases w32 <;> exact Int.natCast_nonneg _

/-! ## Quotients and remainders (R124) -/

theorem modWidth_wMod (w : BitVec 1) : modWidth (wMod w) = Spec.width (w.getLsbD 0) := by
  rw [modWidth_eq, wMod_getLsbD_zero]

theorem fdiv_width (w : BitVec 1) (x : Int) :
    x.fdiv ((2 ^ modWidth (wMod w) : Nat) : Int) = x / 2 ^ Spec.width (w.getLsbD 0) := by
  rw [Int.fdiv_eq_ediv_of_nonneg _ (by positivity), modWidth_wMod, Nat.cast_pow, Nat.cast_ofNat]

theorem divOp_signed (w : BitVec 1) (x y : Int) : divOp (modWidth (wMod w)) false x y =
    if y = 0 then 2 ^ Spec.width (w.getLsbD 0) - 1
    else if x = -(2 ^ (Spec.width (w.getLsbD 0) - 1)) ∧ y = -1 then x else x.tdiv y := by
  simp [divOp, minOf, modWidth_wMod, Nat.cast_sub Nat.one_le_two_pow]

theorem divOp_unsigned (w : BitVec 1) {x y : Int} (nonneg : 0 ≤ x) : divOp (modWidth (wMod w)) true x y =
    if y = 0 then 2 ^ Spec.width (w.getLsbD 0) - 1 else x / y := by
  simp [divOp, modWidth_wMod, Nat.cast_sub Nat.one_le_two_pow, Int.tdiv_eq_ediv_of_nonneg nonneg]

theorem remOp_signed (w : BitVec 1) (x y : Int) : remOp (modWidth (wMod w)) false x y =
    if y = 0 then x else if x = -(2 ^ (Spec.width (w.getLsbD 0) - 1)) ∧ y = -1 then 0 else x.tmod y := by
  simp [remOp, minOf, modWidth_wMod, Int.tmod_def]

theorem remOp_unsigned (w : BitVec 1) {x y : Int} (nonneg : 0 ≤ x) : remOp (modWidth (wMod w)) true x y =
    if y = 0 then x else x % y := by
  simp [remOp, Int.tdiv_eq_ediv_of_nonneg nonneg, Int.emod_def]

theorem State.shadd_eq (s : State) (d a b : BitVec 6) (w : BitVec 1) (k : Nat) : s.shadd d a b w k =
    .next (s.wrote d (Spec.fit (w.getLsbD 0) false false (Spec.val (w.getLsbD 0) false (s.getG a) * (2 ^ k : Nat) +
      Spec.val (w.getLsbD 0) false (s.getG b)))) :=
  State.arith_wMod rfl

/-- Settles O1: each form is one exact operation on two values (`State.arith_eq`). -/
theorem integerArithmetic : Obligations.IntegerArithmetic := by
  unfold Obligations.IntegerArithmetic
  intro s d a b m w p sat q x y top least
  have nonneg : 0 ≤ x q true := val_unsigned_nonneg q _
  refine ⟨?add, ?addN, ?sub, ?subN, ?mul, ?mulN, ?mulh, ?mulhN, ?div, ?divN, ?rem, ?remN, ?min, ?minN, ?max, ?maxN,
    ?shadd1, ?shadd2, ?shadd3, ?shadd4⟩
  case add | addN | sub | subN | mul | mulN => exact s.arith_eq d a b m _ _
  case mulh => exact (State.arith_wMod (fdiv_width w _) : execMulh d a b w s = _)
  case mulhN => exact (State.arith_wMod (fdiv_width w _) : execMulhN d a b w s = _)
  case div => exact State.arith_wMod (divOp_signed w _ _)
  case divN => exact State.arith_wMod (divOp_unsigned w nonneg)
  case rem => exact State.arith_wMod (remOp_signed w _ _)
  case remN => exact State.arith_wMod (remOp_unsigned w nonneg)
  case min | minN => exact State.arith_wMod (min_def _ _)
  case max | maxN => exact State.arith_wMod (max_def' _ _)
  case shadd1 => exact s.shadd_eq d a b w 1
  case shadd2 => exact s.shadd_eq d a b w 2
  case shadd3 => exact s.shadd_eq d a b w 3
  case shadd4 => exact s.shadd_eq d a b w 4

/-! ## Immediate forms (R99, R125) -/

theorem simm_eq_ofInt {n : Nat} (i : BitVec n) : simm i = BitVec.ofInt 64 i.toInt := rfl

/-- Settles O3. -/
theorem immediateForms : Obligations.ImmediateForms := by
  unfold Obligations.ImmediateForms
  intro s d a j x i
  refine ⟨(s.put_eq d _).trans ?add, (s.put_eq d _).trans ?mul, (s.put_eq d _).trans ?addW, s.put_eq d _, s.put_eq d _,
    s.put_eq d _⟩
  case add => rw [BitVec.ofInt_add, BitVec.ofInt_toInt, ← simm_eq_ofInt]
  case mul => rw [BitVec.ofInt_mul, BitVec.ofInt_toInt, ← simm_eq_ofInt]
  case addW =>
    exact congrArg (fun r : BitVec 32 => Host.Outcome.next (s.wrote d (r.signExtend 64)))
      (BitVec.setWidth_add _ _ (by decide))

end Sys2Proof.Machine
end

