-- ==== Sys2Proof/Proofs/IntegerBits.lean ====
section
/-! PROOF. Logic, shifts, counts and comparisons of opcode 0x01 (O2). -/
namespace Sys2Proof.Machine

variable {s : State} {d a b : BitVec 6} {m : BitVec 2} {w : BitVec 1}

/-! ## Shifts and rotates (R124) -/

/-- The count in a register: its low 5 bits in a .w form, else its low 6. -/
theorem State.shCount_eq (s : State) (b : BitVec 6) (m : BitVec 2) :
    s.shCount b m = if m.getLsbD 0 then (s.getG b).toNat % 32 else (s.getG b).toNat % 64 := by
  rw [State.shCount, modWidth]
  split <;> rfl

theorem lowBits_eq_val (m : BitVec 2) (x : Word) : (lowBits m x : Int) = Spec.val (m.getLsbD 0) true x := by
  rw [← opVal_eq, opVal, lowBits]
  rfl

theorem State.shlBy_eq (s : State) (d a : BitVec 6) (m : BitVec 2) (n : Nat) : s.shlBy d a m n =
    .next (s.wrote d (Spec.fit (m.getLsbD 0) (m.getLsbD 1) false (Spec.val (m.getLsbD 0) false (s.getG a) * 2 ^ n))) := by
  rw [State.shlBy, State.put_eq, fitted_eq, opVal_eq, Nat.cast_pow, Nat.cast_ofNat]

theorem State.shrBy_eq (s : State) (d a : BitVec 6) (w : BitVec 1) (n : Nat) : s.shrBy d a (wMod w) n =
    .next (s.wrote d (Spec.fit (w.getLsbD 0) false false (Spec.val (w.getLsbD 0) true (s.getG a) / 2 ^ n))) := by
  rw [State.shrBy, State.put_eq, fitted_eq, Int.natCast_ediv, lowBits_eq_val, Nat.cast_pow, Nat.cast_ofNat,
    wMod_getLsbD_zero, wMod_getLsbD_one]

theorem State.shaBy_eq (s : State) (d a : BitVec 6) (w : BitVec 1) (n : Nat) : s.shaBy d a (wMod w) n =
    .next (s.wrote d (Spec.fit (w.getLsbD 0) false false (Spec.val (w.getLsbD 0) false (s.getG a) / 2 ^ n))) := by
  rw [State.shaBy, State.put_eq, fitted_eq, opVal_eq, Int.fdiv_eq_ediv_of_nonneg _ (by positivity), Nat.cast_pow,
    Nat.cast_ofNat, wMod_getLsbD_zero, wMod_getLsbD_one]

/-- A rotation is the sum of the two parts that it moves. -/
theorem ofNat_rotateRight {n k : Nat} (x : BitVec n) (lt : k < n) :
    BitVec.ofNat n (x.toNat / 2 ^ k + x.toNat * 2 ^ (n - k)) = x.rotateRight k := by
  have right : BitVec.ofNat n (x.toNat / 2 ^ k) = x >>> k := by
    apply BitVec.eq_of_toNat_eq
    rw [BitVec.toNat_ofNat, BitVec.toNat_ushiftRight, Nat.shiftRight_eq_div_pow,
      Nat.mod_eq_of_lt ((Nat.div_le_self ..).trans_lt x.isLt)]
  have left : BitVec.ofNat n (x.toNat * 2 ^ (n - k)) = x <<< (n - k) := by
    apply BitVec.eq_of_toNat_eq
    rw [BitVec.toNat_ofNat, BitVec.toNat_shiftLeft, Nat.shiftLeft_eq]
  have apart : x >>> k &&& x <<< (n - k) = 0#n := by
    refine BitVec.eq_of_getLsbD_eq fun i lt => ?_
    by_cases low : i < n - k
    · simp [low]
    · simp [BitVec.getLsbD_of_ge x (k + i) (by omega)]
  rw [BitVec.ofNat_add, right, left, BitVec.add_eq_or_of_and_eq_zero _ _ apart, BitVec.rotateRight_def, Nat.mod_eq_of_lt lt]

theorem State.rorBy_eq (s : State) (d a : BitVec 6) (w : BitVec 1) {n : Nat} (lt : n < Spec.width (w.getLsbD 0)) :
    s.rorBy d a (wMod w) n = .next (s.wrote d (if w.getLsbD 0 then
      (((s.getG a).setWidth 32 : BitVec 32).rotateRight n).signExtend 64 else (s.getG a).rotateRight n)) := by
  simp only [State.rorBy, State.put_eq, fitted_eq, lowBits, modWidth_wMod, wMod_getLsbD_zero, wMod_getLsbD_one]
  cases wide : w.getLsbD 0 <;> rw [wide] at lt
  · rw [if_neg (by decide), ← ofNat_rotateRight (s.getG a) lt]
    have whole : (s.getG a).toNat % 2 ^ Spec.width false = (s.getG a).toNat := Nat.mod_eq_of_lt (s.getG a).isLt
    rw [whole]
    exact congrArg (fun x => Host.Outcome.next (s.wrote d x)) (BitVec.ofInt_natCast ..)
  · rw [if_pos rfl, ← ofNat_rotateRight ((s.getG a).setWidth 32) lt, BitVec.toNat_setWidth]
    exact congrArg (fun x : BitVec 32 => Host.Outcome.next (s.wrote d (x.signExtend 64))) (BitVec.ofInt_natCast ..)

/-! ## Results of the forms of one operand (R124) -/

/-- A number below 2^31 is its own result. -/
theorem fit_of_small (w32 : Bool) {n : Nat} (small : n < 2 ^ 31) : Spec.fit w32 false false (n : Int) = w64 n := by
  cases w32
  · exact BitVec.ofInt_natCast ..
  · have top : (BitVec.ofNat 32 n).msb = false := by
      rw [BitVec.msb_eq_false_iff_two_mul_lt, BitVec.toNat_ofNat, Nat.mod_eq_of_lt (by omega)]
      omega
    show (BitVec.ofInt 32 n).signExtend 64 = w64 n
    rw [BitVec.ofInt_natCast, BitVec.signExtend_eq_setWidth_of_msb_false top]
    apply BitVec.eq_of_toNat_eq
    simp only [BitVec.toNat_setWidth, BitVec.toNat_ofNat]
    omega

/-- The bits of a result below its width are those of the number. -/
theorem getLsbD_fit {w32 : Bool} {i : Nat} (n : Nat) (lt : i < Spec.width w32) :
    (Spec.fit w32 false false (n : Int)).getLsbD i = n.testBit i := by
  cases w32 <;> simp only [Spec.width, Bool.false_eq_true, if_true, if_false] at lt
  · show (BitVec.ofInt 64 n).getLsbD i = _
    rw [BitVec.ofInt_natCast, BitVec.getLsbD_ofNat, decide_eq_true lt, Bool.true_and]
  · show ((BitVec.ofInt 32 n).signExtend 64).getLsbD i = _
    rw [BitVec.ofInt_natCast, BitVec.getLsbD_signExtend, if_pos lt, BitVec.getLsbD_ofNat, decide_eq_true lt,
      decide_eq_true (by omega), Bool.true_and, Bool.true_and]

/-- A .w result is sign-extended. -/
theorem fit_w_extends (r : Int) : Spec.fit true false false r = ((Spec.fit true false false r).setWidth 32).signExtend 64 := by
  show (BitVec.ofInt 32 r).signExtend 64 = (((BitVec.ofInt 32 r).signExtend 64).setWidth 32).signExtend 64
  have low : ((BitVec.ofInt 32 r).signExtend 64).setWidth 32 = BitVec.ofInt 32 r := by
    refine BitVec.eq_of_getLsbD_eq fun i lt => ?_
    rw [BitVec.getLsbD_setWidth, BitVec.getLsbD_signExtend, if_pos lt, decide_eq_true lt, decide_eq_true (by omega),
      Bool.true_and, Bool.true_and]
  rw [low]

theorem State.unary_eq (s : State) (d a : BitVec 6) (w : BitVec 1) (op : Nat → Nat → Nat) : s.unary d a (wMod w) op =
    .next (s.wrote d (Spec.fit (w.getLsbD 0) false false
      (op (Spec.width (w.getLsbD 0)) ((s.getG a).toNat % 2 ^ Spec.width (w.getLsbD 0)) : Nat))) := by
  rw [State.unary, State.put_eq, fitted_eq, lowBits, modWidth_wMod, wMod_getLsbD_zero, wMod_getLsbD_one]

/-- A bit below the width of the operand's low bits is the operand's. -/
theorem testBit_low {n i : Nat} (x : Word) (lt : i < n) : (x.toNat % 2 ^ n).testBit i = x.getLsbD i := by
  rw [Nat.testBit_mod_two_pow, decide_eq_true lt, Bool.true_and, BitVec.testBit_toNat]

/-! ## Counts -/

theorem clzN_spec (n x : Nat) : clzN n x ≤ n ∧ (∀ i, n - clzN n x ≤ i → i < n → x.testBit i = false) ∧
    (clzN n x < n → x.testBit (n - 1 - clzN n x) = true) := by
  induction n with
  | zero => simp [clzN]
  | succ n ih =>
    obtain ⟨le, zeros, one⟩ := ih
    rw [clzN]
    split
    · next top => exact ⟨Nat.zero_le _, fun i ge lt => absurd lt (by omega), fun _ => by simpa using top⟩
    · next top =>
      refine ⟨by omega, fun i ge lt => ?_, fun lt => ?_⟩
      · obtain below | rfl := Nat.lt_succ_iff_lt_or_eq.mp lt
        · exact zeros i (by omega) below
        · simpa using top
      · rw [show n + 1 - 1 - (1 + clzN n x) = n - 1 - clzN n x by omega]
        exact one (by omega)

theorem ctzN_spec (n x : Nat) : ctzN n x ≤ n ∧ (∀ i, i < ctzN n x → x.testBit i = false) ∧
    (ctzN n x < n → x.testBit (ctzN n x) = true) := by
  induction n generalizing x with
  | zero => simp [ctzN]
  | succ n ih =>
    obtain ⟨le, zeros, one⟩ := ih (x / 2)
    rw [ctzN]
    split
    · next low => exact ⟨Nat.zero_le _, fun i lt => absurd lt (Nat.not_lt_zero _), fun _ => low⟩
    · next low =>
      refine ⟨by omega, fun i lt => ?_, fun lt => ?_⟩
      · cases i with
        | zero => simpa using low
        | succ i => rw [Nat.testBit_succ]; exact zeros i (by omega)
      · rw [Nat.add_comm, Nat.testBit_succ]
        exact one (by omega)

theorem popN_eq (n x : Nat) : popN n x = ((List.range n).filter (fun i => x.testBit i)).length := by
  induction n generalizing x with
  | zero => rfl
  | succ n ih =>
    rw [popN, ih, List.range_succ_eq_map, List.filter_cons, List.filter_map, b2n]
    simp only [Function.comp_def, Nat.testBit_succ]
    split <;> simp [Nat.add_comm]

/-! ## Reversals -/

theorem revN_lt (n x : Nat) : revN n x < 2 ^ n := by
  induction n generalizing x with
  | zero => exact Nat.one_pos
  | succ n ih =>
    have := ih (x / 2)
    have : b2n (x.testBit 0) ≤ 1 := by rw [b2n]; split <;> omega
    rw [revN, pow_succ]
    nlinarith

theorem testBit_revN {n i : Nat} (x : Nat) (lt : i < n) : (revN n x).testBit i = x.testBit (n - 1 - i) := by
  induction n generalizing x with
  | zero => exact absurd lt (Nat.not_lt_zero _)
  | succ n ih =>
    have bound := revN_lt n (x / 2)
    rw [revN, Nat.mul_comm, Nat.testBit_two_pow_mul_add _ bound]
    split
    · next below => rw [ih _ below, ← Nat.testBit_succ]; congr 1; omega
    · next top =>
      obtain rfl : i = n := by omega
      cases bit : x.testBit 0 <;> simp [b2n, bit]

theorem swapN_lt (n x : Nat) : swapN n x < 256 ^ n := by
  induction n generalizing x with
  | zero => exact Nat.one_pos
  | succ n ih =>
    have := ih (x / 256)
    have : x % 256 ≤ 255 := Nat.le_of_lt_succ (Nat.mod_lt _ (by decide))
    rw [swapN, pow_succ]
    nlinarith

/-- Bit `k` of byte `i` of the reversed bytes is that bit of byte `n - 1 - i`. -/
theorem testBit_swapN {n i k : Nat} (x : Nat) (lt : i < n) (bit : k < 8) :
    (swapN n x).testBit (8 * i + k) = x.testBit (8 * (n - 1 - i) + k) := by
  induction n generalizing x with
  | zero => exact absurd lt (Nat.not_lt_zero _)
  | succ n ih =>
    have bytes : 256 ^ n = 2 ^ (8 * n) := pow_mul 2 8 n ▸ rfl
    have bound : swapN n (x / 256) < 2 ^ (8 * n) := bytes ▸ swapN_lt n (x / 256)
    rw [swapN, bytes, Nat.mul_comm, Nat.testBit_two_pow_mul_add _ bound]
    split
    · next below =>
      rw [ih _ (by omega), show 256 = 2 ^ 8 from rfl, Nat.testBit_div_two_pow]
      congr 1
      omega
    · next top =>
      obtain rfl : i = n := by omega
      rw [show 256 = 2 ^ 8 from rfl, Nat.testBit_mod_two_pow]
      simp [bit]

/-! ## Comparisons (R112, R129) -/

/-- A condition on W bits. -/
def condW (w32 : Bool) (c : BitVec 3) (x y : Word) : Bool :=
  if w32 then cond c (x.setWidth 32) (y.setWidth 32) else cond c x y

/-- EQ, LT and LTN compare the values of the operands; NE, GE and GEN are their negations. -/
theorem condW_val (w32 : Bool) (x y : Word) :
    condW w32 0#3 x y = decide (Spec.val w32 true x = Spec.val w32 true y) ∧
    condW w32 1#3 x y = !decide (Spec.val w32 true x = Spec.val w32 true y) ∧
    condW w32 2#3 x y = decide (Spec.val w32 false x < Spec.val w32 false y) ∧
    condW w32 3#3 x y = !decide (Spec.val w32 false x < Spec.val w32 false y) ∧
    condW w32 4#3 x y = decide (Spec.val w32 true x < Spec.val w32 true y) ∧
    condW w32 5#3 x y = !decide (Spec.val w32 true x < Spec.val w32 true y) := by
  cases w32 <;>
    simp only [condW, cond, Spec.val, Bool.false_eq_true, if_true, if_false, BitVec.reduceEq, BitVec.slt_eq_decide,
      BitVec.ult_eq_decide, Nat.cast_inj, Nat.cast_lt, BitVec.toNat_inj, bne, beq_eq_decide, true_and, and_true] <;>
    exact ⟨rfl, rfl⟩

/-- CMP.cond writes 1 where the condition holds on W bits. -/
theorem State.cmpOp_eq {s : State} {d a b : BitVec 6} {w : BitVec 1} {c : BitVec 3} {h : Bool}
    (val : condW (w.getLsbD 0) c (s.getG a) (s.getG b) = h) :
    s.cmpOp d a b w c = .next (s.wrote d (if h then 1#64 else 0#64)) := by
  have bit : w = 1#1 ↔ w.getLsbD 0 = true := by obtain rfl | rfl := precision_cases w <;> decide
  have word (h : Bool) : w64 (b2n h) = if h then 1#64 else 0#64 := by cases h <;> rfl
  rw [State.cmpOp, State.put_eq, word, ← val]
  simp only [bit]
  rfl

/-! ## The statement -/

theorem width_cases (w32 : Bool) : Spec.width w32 = 32 ∨ Spec.width w32 = 64 := by cases w32 <;> simp [Spec.width]

/-- A count of bits is its own result. -/
theorem fit_of_count (w32 : Bool) {n : Nat} (le : n ≤ Spec.width w32) : Spec.fit w32 false false (n : Int) = w64 n :=
  fit_of_small w32 (by have := width_cases w32; omega)

/-- CLZ and CTZ. -/
theorem State.clz_eq (s : State) (d a : BitVec 6) (w : BitVec 1) :
    let W := Spec.width (w.getLsbD 0)
    ∃ n, exec (.clz d a w) s = .next (s.wrote d (w64 n)) ∧ n ≤ W ∧
      (∀ i, W - n ≤ i → i < W → (s.getG a).getLsbD i = false) ∧ (n < W → (s.getG a).getLsbD (W - 1 - n) = true) := by
  intro W
  obtain ⟨le, zeros, one⟩ := clzN_spec W ((s.getG a).toNat % 2 ^ W)
  refine ⟨_, (s.unary_eq d a w clzN).trans (by rw [fit_of_count _ le]), le, fun i ge lt => ?_, fun lt => ?_⟩
  · rw [← testBit_low _ lt]
    exact zeros i ge lt
  · rw [← testBit_low (n := W) _ (by omega)]
    exact one lt

theorem State.ctz_eq (s : State) (d a : BitVec 6) (w : BitVec 1) :
    let W := Spec.width (w.getLsbD 0)
    ∃ n, exec (.ctz d a w) s = .next (s.wrote d (w64 n)) ∧ n ≤ W ∧
      (∀ i, i < n → (s.getG a).getLsbD i = false) ∧ (n < W → (s.getG a).getLsbD n = true) := by
  intro W
  obtain ⟨le, zeros, one⟩ := ctzN_spec W ((s.getG a).toNat % 2 ^ W)
  refine ⟨_, (s.unary_eq d a w ctzN).trans (by rw [fit_of_count _ le]), le, fun i lt => ?_, fun lt => ?_⟩
  · rw [← testBit_low (n := W) _ (by omega)]
    exact zeros i lt
  · rw [← testBit_low _ lt]
    exact one lt

theorem State.popc_eq (s : State) (d a : BitVec 6) (w : BitVec 1) : exec (.popc d a w) s = .next (s.wrote d
    (w64 ((List.range (Spec.width (w.getLsbD 0))).filter (fun i => (s.getG a).getLsbD i)).length)) := by
  have bound := List.length_filter_le (fun i => (s.getG a).getLsbD i) (List.range (Spec.width (w.getLsbD 0)))
  rw [List.length_range] at bound
  refine (s.unary_eq d a w popN).trans ?_
  rw [popN_eq, List.filter_congr (q := fun i => (s.getG a).getLsbD i)
    (fun i mem => testBit_low _ (List.mem_range.mp mem)), fit_of_count _ bound]

/-- BREV and BSWP: their results are sign-extended, and hold the bits of the reversed number. -/
theorem State.reversed_eq (s : State) (d a : BitVec 6) (w : BitVec 1) (op : Nat → Nat → Nat) :
    let W := Spec.width (w.getLsbD 0)
    ∃ r, s.unary d a (wMod w) op = .next (s.wrote d r) ∧
      (∀ i, i < W → r.getLsbD i = (op W ((s.getG a).toNat % 2 ^ W)).testBit i) ∧
      (w.getLsbD 0 = true → r = (r.setWidth 32).signExtend 64) := by
  refine ⟨_, s.unary_eq d a w op, fun i lt => getLsbD_fit _ lt, fun wide => ?_⟩
  rw [wide]
  exact fit_w_extends _

theorem State.brev_eq (s : State) (d a : BitVec 6) (w : BitVec 1) :
    let W := Spec.width (w.getLsbD 0)
    ∃ r, exec (.brev d a w) s = .next (s.wrote d r) ∧ (∀ i, i < W → r.getLsbD i = (s.getG a).getLsbD (W - 1 - i)) ∧
      (w.getLsbD 0 = true → r = (r.setWidth 32).signExtend 64) := by
  obtain ⟨r, run, bits, extended⟩ := s.reversed_eq d a w revN
  refine ⟨r, run, fun i lt => ?_, extended⟩
  rw [bits i lt, testBit_revN _ lt, testBit_low _ (by omega)]

theorem State.bswp_eq (s : State) (d a : BitVec 6) (w : BitVec 1) :
    let W := Spec.width (w.getLsbD 0)
    ∃ r, exec (.bswp d a w) s = .next (s.wrote d r) ∧
      (∀ i, i < W / 8 → r.extractLsb' (8 * i) 8 = (s.getG a).extractLsb' (W - 8 - 8 * i) 8) ∧
      (w.getLsbD 0 = true → r = (r.setWidth 32).signExtend 64) := by
  intro W
  obtain ⟨r, run, bits, extended⟩ := s.reversed_eq d a w (fun w x => swapN (w / 8) x)
  refine ⟨r, run, fun i lt => BitVec.eq_of_getLsbD_eq fun k bit => ?_, extended⟩
  rw [BitVec.getLsbD_extractLsb', BitVec.getLsbD_extractLsb', decide_eq_true bit, bits _ (by omega),
    testBit_swapN _ lt bit, testBit_low _ (by omega)]
  congr 2
  have := width_cases (w.getLsbD 0)
  omega

/-- Settles O2: the forms on values by `State.shlBy_eq` and its like, those on bits by what the model's recursions compute. -/
theorem integerLogicShiftsAndCounts : Obligations.IntegerLogicShiftsAndCounts := by
  unfold Obligations.IntegerLogicShiftsAndCounts
  refine ⟨?_, ?_⟩
  · intro s d a b n m w x y q cnt shr sha ror
    have count (m : BitVec 2) : s.shCount b m = cnt (m.getLsbD 0) := s.shCount_eq b m
    have countW : s.shCount b (wMod w) = cnt q := by rw [count, wMod_getLsbD_zero]
    have inside : cnt q < Spec.width q := by
      show (if q then y.toNat % 32 else y.toNat % 64) < if q then 32 else 64
      split <;> omega
    refine ⟨s.put_eq d _, s.put_eq d _, s.put_eq d _, s.put_eq d _, ?sel, ?shl, ?shr, ?sha, ?ror, s.shlBy_eq d a m _,
      s.shrBy_eq d a w _, s.shaBy_eq d a w _, fun short => ?rorImm⟩
    case sel => exact (s.put_eq d _).trans (by rw [ite_not])
    case shl => exact (s.shlBy_eq d a m _).trans (by rw [count])
    case shr => exact (s.shrBy_eq d a w _).trans (by rw [countW])
    case sha => exact (s.shaBy_eq d a w _).trans (by rw [countW])
    case ror =>
      show s.rorBy d a (wMod w) (s.shCount b (wMod w)) = _
      rw [countW]
      exact s.rorBy_eq d a w inside
    case rorImm =>
      refine s.rorBy_eq d a w ?_
      show n.toNat < if q then 32 else 64
      split
      · next wide => exact short wide
      · exact n.isLt
  · intro s d a b w q W x
    refine ⟨s.clz_eq d a w, s.ctz_eq d a w, s.popc_eq d a w, s.brev_eq d a w, s.bswp_eq d a w, ?_⟩
    intro sx sy ux uy
    obtain ⟨eq, ne, lt, ge, ltn, gen⟩ := condW_val q x (s.getG b)
    refine ⟨(State.cmpOp_eq eq).trans ?_, (State.cmpOp_eq ne).trans ?_, (State.cmpOp_eq lt).trans ?_,
      (State.cmpOp_eq ge).trans ?_, (State.cmpOp_eq ltn).trans ?_, (State.cmpOp_eq gen).trans ?_⟩ <;>
      simp only [Bool.not_eq_true', decide_eq_true_eq, decide_eq_false_iff_not, ite_not] <;> rfl

end Sys2Proof.Machine
end

