-- ==== Sys2Proof/Proofs/FieldsConstantsControl.lean ====
section
/-! PROOF. Bit fields, HMIX and constants (O4), and control transfers (O5). -/
namespace Sys2Proof.Machine

/-! ## Bit fields (R126) -/

theorem fieldAt_ofNat (x : Word) (l p : BitVec 6) :
    BitVec.ofNat (l.toNat + 1) (fieldAt x l p) = x.extractLsb' p.toNat (l.toNat + 1) := by
  apply BitVec.eq_of_toNat_eq
  rw [BitVec.toNat_ofNat, BitVec.extractLsb'_toNat, Nat.shiftRight_eq_div_pow, fieldAt, Nat.mod_mod]

theorem w64_fieldAt (x : Word) (l p : BitVec 6) :
    w64 (fieldAt x l p) = (x.extractLsb' p.toNat (l.toNat + 1)).zeroExtend 64 := by
  apply BitVec.eq_of_toNat_eq
  rw [BitVec.toNat_setWidth, BitVec.extractLsb'_toNat, BitVec.toNat_ofNat, Nat.shiftRight_eq_div_pow, fieldAt]

theorem getLsbD_fieldMask (l p : BitVec 6) {i : Nat} (lt : i < 64) :
    (fieldMask l p).getLsbD i = decide (p.toNat ≤ i ∧ i < p.toNat + (l.toNat + 1)) := by
  rw [fieldMask, BitVec.getLsbD_ofNat, decide_eq_true lt, Bool.true_and, Nat.testBit_mul_two_pow,
    Nat.testBit_two_pow_sub_one, ← Bool.decide_and]
  exact decide_eq_decide.mpr (and_congr_right fun le => by omega)

/-- The field inserted into another word. -/
def inserted (x y : Word) (l p : BitVec 6) : Word := (y &&& ~~~(fieldMask l p)) ||| ((x <<< p.toNat) &&& fieldMask l p)

theorem getLsbD_inserted (x y : Word) (l p : BitVec 6) {i : Nat} (lt : i < 64) : (inserted x y l p).getLsbD i =
    if p.toNat ≤ i ∧ i < p.toNat + (l.toNat + 1) then x.getLsbD (i - p.toNat) else y.getLsbD i := by
  simp only [inserted, BitVec.getLsbD_or, BitVec.getLsbD_and, BitVec.getLsbD_not, BitVec.getLsbD_shiftLeft,
    getLsbD_fieldMask l p lt, decide_eq_true lt, Bool.true_and]
  split
  · next inside => simp [inside, Nat.not_lt.mpr inside.1]
  · next outside => simp [outside]

/-! ## HMIX and constants (R101, R127, R128) -/

theorem hmix_eq (x c : Word) (n : Nat) : hmix x c n = BitVec.ofNat 64 ((x.toNat ^^^ x.toNat / 2 ^ n) * c.toNat) := by
  apply BitVec.eq_of_toNat_eq
  rw [hmix, BitVec.toNat_mul, BitVec.toNat_xor, BitVec.toNat_ushiftRight, Nat.shiftRight_eq_div_pow, BitVec.toNat_ofNat]

/-- A register written by an instruction that sets the pc itself. -/
theorem State.setG_setPc (s : State) (r : BitVec 6) (x pc : Word) : (s.setG r x).setPc pc = (s.wrote r x).wentTo pc := by
  rw [← State.setG_adv]
  rfl

theorem State.setG_adv8 (s : State) (r : BitVec 6) (x : Word) :
    (s.setG r x).adv8 = (s.wrote r x).wentTo (s.self.pc + 8#64) := by
  rw [State.adv8, State.setG_setPc, State.setG_self, Strand.setG_pc]

/-- Settles O4: each result is one word, whose bits are known. -/
theorem bitFieldsMixAndConstants : Obligations.BitFieldsMixAndConstants := by
  unfold Obligations.BitFieldsMixAndConstants
  refine ⟨?_, ?_⟩
  · intro s d a l p _ n f
    refine ⟨(s.put_eq d _).trans ?_, (s.put_eq d _).trans ?_, inserted (s.getG a) (s.getG d) l p, s.put_eq d _,
      fun i lt => getLsbD_inserted _ _ l p lt⟩
    · rw [fieldAt_ofNat]
    · rw [w64_fieldAt]
  · intro s d a b n j c x
    refine ⟨(s.put_eq d _).trans ?hmix, s.put_eq d _, ⟨_, s.put_eq d _, ?low, ?high⟩, s.put_eq d _,
      congrArg Host.Outcome.next (s.setG_adv8 d _), (congrArg Host.Outcome.next (s.setG_adv8 d _)).trans ?limmN⟩
    case hmix => rw [hmix_eq]
    case low => exact BitVec.setWidth_append_eq_right
    case high => exact BitVec.extractLsb'_append_eq_left
    case limmN => rw [BitVec.zeroExtend, BitVec.ofNat_toNat]

/-! ## Control transfers (R99, R129) -/

theorem State.relTarget_eq {n : Nat} (s : State) (o : BitVec n) :
    s.relTarget o = s.self.pc + BitVec.ofInt 64 (o.toInt * 4) := by
  rw [State.relTarget, simm_eq_ofInt, BitVec.ofInt_mul]
  rfl

theorem cond_iff_holds {c : BitVec 3} (named : c.toNat < 6) (x y : Word) : cond c x y = true ↔ Spec.holds c x y := by
  have code : c = 0#3 ∨ c = 1#3 ∨ c = 2#3 ∨ c = 3#3 ∨ c = 4#3 ∨ c = 5#3 := by
    revert c
    decide
  obtain rfl | rfl | rfl | rfl | rfl | rfl := code <;> simp [cond, Spec.holds, BitVec.slt_eq_decide, BitVec.ult_eq_decide]

/-- Settles O5: targets by `State.relTarget_eq`, conditions by `cond_iff_holds`, register targets by `State.jumpTo_cases`. -/
theorem controlTransfers : Obligations.ControlTransfers := by
  unfold Obligations.ControlTransfers
  intro s c a b o j A t linked
  have link (pc : Word) : (s.setG 63#6 (A + 4#64)).setPc pc = linked.wentTo pc := s.setG_setPc _ _ _
  refine ⟨fun named => ⟨fun taken => ?_, fun untaken => ?_⟩, ?_, ?_, fun aligned => ⟨?_, ?_⟩, fun odd can => ⟨?_, ?_⟩⟩
  · show execBCond c a b o s = _
    rw [execBCond, if_pos ((cond_iff_holds named _ _).mpr taken), State.relTarget_eq]
    rfl
  · show execBCond c a b o s = _
    rw [execBCond, if_neg (fun h => untaken ((cond_iff_holds named _ _).mp h))]
    rfl
  · show execJmp j s = _
    rw [execJmp, State.relTarget_eq]
    rfl
  · show execCall j s = _
    rw [execCall, State.relTarget_eq, link]
  · exact congrArg Host.Outcome.next ((s.jumpTo_cases t _).1 aligned)
  · exact congrArg Host.Outcome.next (((s.jumpTo_cases t _).1 aligned).trans (link t))
  · exact congrArg Host.Outcome.next (((s.jumpTo_cases t _).2 odd).trans (s.trap_eq can _))
  · exact congrArg Host.Outcome.next (((s.jumpTo_cases t _).2 odd).trans (s.trap_eq can _))

end Sys2Proof.Machine
end

