-- ==== Sys2Proof/Proofs/ScalarFloat.lean ====
section
/-! PROOF. Scalar floating point: completion (O6), classes and signs (O9). -/
namespace Sys2Proof.Machine

/-! ## Completion (R74, R130, R133) -/

/-- Settles O6: each operand is the value of its low bits (`State.fval_eq`), and the result goes out with its flags. -/
theorem scalarFloatCompletes : Obligations.ScalarFloatCompletes := by
  unfold Obligations.ScalarFloatCompletes
  intro s d a b r p src dst u _ F mode v wrote
  exact ⟨s.putF_eq d _, s.putF_eq d _, s.putF_eq d _, s.putF_eq d _, s.putF_eq d _, s.putF_eq d _, s.putF_eq d _,
    s.putF_eq d _, s.putF_eq d _, s.putF_eq d _, exec_fcvt rfl⟩

/-! ## Classes (R132) -/

theorem significand_eq_zero {fb a : Nat} : significand fb a = 0 ↔ a = 0 := by
  unfold significand
  have : 0 < 2 ^ fb := by positivity
  split <;> omega

theorem significand_lt_iff {fb a : Nat} : significand fb a < 2 ^ fb ↔ a < 2 ^ fb := by
  unfold significand
  split <;> omega

theorem classMask_eq (p : BitVec 1) (x : Word) : (precFmt p).classMask (Spec.fpat p x) = 2 ^ Spec.fclass p x := by
  have frac : Spec.fracBits p = (precFmt p).fb := by obtain rfl | rfl := precision_cases p <;> rfl
  rw [Fmt.classMask, unpack_fpat, Spec.fclass, frac]
  cases nan : Spec.fnan p x with
  | true => cases Spec.fsnan p x <;> rfl
  | false =>
    have quiet : Spec.fsnan p x = false := by rw [Spec.fsnan, nan, Bool.false_and]
    by_cases inf : Spec.fmag p x = Spec.finf p
    · simp only [quiet, inf, Bool.false_eq_true, if_false, if_true]
      split <;> rfl
    · simp only [quiet, inf, significand_eq_zero, significand_lt_iff, Bool.false_eq_true, if_false,
        apply_ite (2 ^ · : Nat → Nat)]

/-! ## Signs (R132) -/

theorem signOf_eq (p : BitVec 1) (x : Word) : signOf p (Spec.fpat p x) = Spec.fsign p x := by
  have lt := fpat_lt p x
  rw [signOf, Nat.testBit_eq_decide_div_mod_eq, Spec.fsign]
  obtain rfl | rfl := precision_cases p <;> simp [precBits, Spec.fbits] at lt ⊢ <;> omega

theorem withSign_eq (p : BitVec 1) (x : Word) (neg : Bool) :
    withSign p (Spec.fpat p x) neg = w64 (Spec.fmag p x + if neg then 2 ^ (Spec.fbits p - 1) else 0) := by
  cases neg
  · rw [withSign, b2n, if_neg (by decide), if_neg (by decide), Nat.zero_mul]
    rfl
  · rw [withSign, b2n, if_pos rfl, if_pos rfl, Nat.one_mul]
    rfl

/-! ## The words of FCLS, FMIN and FMAX (R98) -/

/-- The first word of a pair or of a single word is the word itself. -/
theorem head_of_decode {v v2 : BitVec 32} {i : Instr} (dec : decode v v2 = .ok i) : (encode i).head? = some v := by
  obtain ⟨-, -, words⟩ := encodeOfDecode v v2 i dec
  rw [words]
  split <;> rfl

theorem reserved_of_decode {v v2 : BitVec 32} {i : Instr} {d a b : BitVec 6} {p : BitVec 1} (dec : decode v v2 = .ok i)
    (form : i = .fcls d a p ∨ i = .fmin d a b p ∨ i = .fmax d a b p) : v.extractLsb' 5 3 = 0#3 := by
  have head := head_of_decode dec
  obtain rfl | rfl | rfl := form
  all_goals
    have fields := append_eq_iff.mp (Option.some.inj head)
    simp only [hasField_append] at fields
    exact fields.1.1.2

/-- Settles O9: classes and signs by the fields of the operand, the words by what a decoded word reencodes to. -/
theorem classAndSign : Obligations.ClassAndSign := by
  unfold Obligations.ClassAndSign
  intro s d a b p x sign signed
  refine ⟨(s.put_eq d _).trans ?_, s.put_eq d _, (s.put_eq d _).trans ?_, (s.put_eq d _).trans ?_, (s.put_eq d _).trans ?_,
    fun v v2 i => reserved_of_decode⟩
  · exact congrArg (fun n => Host.Outcome.next (s.wrote d (w64 n))) (classMask_eq p x)
  · exact congrArg (fun r => Host.Outcome.next (s.wrote d r)) ((withSign_eq p x _).trans (by rw [← signOf_eq]; rfl))
  · exact congrArg (fun r => Host.Outcome.next (s.wrote d r)) (withSign_eq p x false)
  · exact congrArg (fun r => Host.Outcome.next (s.wrote d r)) ((withSign_eq p x _).trans (by rw [← signOf_eq]; rfl))

end Sys2Proof.Machine
end

