-- ==== Sys2Proof/Proofs/VectorLanes.lean ====
section
/-! PROOF. Lane-wise forms on integers (O11) and on F32 (O12), and writes of mask registers. -/
namespace Sys2Proof.Machine

variable {s : State}

/-! ## Mask registers (R32, R94) -/

theorem Strand.setK_of_ne (t : Strand) {d : BitVec 3} (x : BitVec 16) (ne : d ≠ 0#3) :
    t.setK d x = { t with k := t.k.set d.toNat x d.isLt } := if_neg ne

theorem Strand.getK_setK (t : Strand) {d : BitVec 3} (r : BitVec 3) (x : BitVec 16) (ne : d ≠ 0#3) :
    (t.setK d x).getK r = if r = d then x else t.getK r := by
  rw [Strand.setK_of_ne _ _ ne]
  unfold Strand.getK
  by_cases same : r = d
  · subst same
    rw [if_pos rfl, if_neg ne]
    exact Vector.getElem_set_self r.isLt
  · have other : d.toNat ≠ r.toNat := fun e => same (BitVec.eq_of_toNat_eq e.symm)
    rw [if_neg same]
    refine congrArg (if r = 0#3 then 0xFFFF#16 else ·) ?_
    exact Vector.getElem_set_ne d.isLt r.isLt other

theorem State.mask_gang {u : Strand} (lead : s.self.ctl.glead = true) (h : s.follower = some u) (r : BitVec 3) :
    s.mask r = (s.self.getK r).zeroExtend 32 ||| ((u.getK r).zeroExtend 32 <<< 16) := by
  rw [State.mask, if_pos lead, h]

theorem State.mask_alone (lead : s.self.ctl.glead = false) (r : BitVec 3) : s.mask r = (s.self.getK r).zeroExtend 32 :=
  if_neg (by simp [lead])

theorem State.setMask_alone {d : BitVec 3} (ne : d ≠ 0#3) (lead : s.self.ctl.glead = false) (x : BitVec 32) :
    s.setMask d x = { s with self := s.self.setK d (x.extractLsb' 0 16) } :=
  if_neg (by simp [Strand.setK_of_ne _ _ ne, lead])

theorem State.setMask_gang {u : Strand} {d : BitVec 3} (ne : d ≠ 0#3) (lead : s.self.ctl.glead = true)
    (h : s.follower = some u) (x : BitVec 32) : s.setMask d x = { s with
      self := s.self.setK d (x.extractLsb' 0 16)
      others := s.others.map (fun t => if t.id.uid = u.id.uid then t.setK d (x.extractLsb' 16 16) else t) } := by
  have same : ({ s with self := s.self.setK d (x.extractLsb' 0 16) } : State).follower = some u := by
    rw [Strand.setK_of_ne _ _ ne]
    exact h
  rw [State.setMask, if_pos (by rw [Strand.setK_of_ne _ _ ne]; exact lead), State.mapFollower, same]

/-- The bits of a mask register after a write to one. -/
theorem State.mask_setMask (ok : s.gangOk) {d : BitVec 3} (ne : d ≠ 0#3) (r : BitVec 3) (x : BitVec 32) :
    (s.setMask d x).mask r = if r = d then (x.extractLsb' 0 16).zeroExtend 32 |||
      (if s.self.ctl.glead then (x.extractLsb' 16 16).zeroExtend 32 <<< 16 else 0#32) else s.mask r := by
  cases lead : s.self.ctl.glead
  · have alone : ({ s with self := s.self.setK d (x.extractLsb' 0 16) } : State).self.ctl.glead = false := by
      rw [Strand.setK_of_ne _ _ ne]
      exact lead
    rw [s.mask_alone lead, State.setMask_alone ne lead, State.mask_alone alone, Strand.getK_setK _ _ _ ne]
    split <;> simp
  · obtain ⟨u, hu⟩ := Option.isSome_iff_exists.mp (ok lead)
    have follows : (s.setMask d x).follower = some (u.setK d (x.extractLsb' 16 16)) := by
      rw [State.setMask_gang ne lead hu]
      simp only [Strand.setK_of_ne _ _ ne]
      refine Eq.trans (b := s.follower.map fun t =>
        if t.id.uid = u.id.uid then { t with k := t.k.set d.toNat (x.extractLsb' 16 16) d.isLt } else t) ?_ ?_
      · refine State.follower_map rfl rfl rfl rfl fun t => ?_
        split <;> exact ⟨rfl, rfl, rfl⟩
      · rw [hu, Option.map_some, if_pos rfl]
    have leads : (s.setMask d x).self.ctl.glead = true := by
      rw [State.setMask_gang ne lead hu, Strand.setK_of_ne _ _ ne]
      exact lead
    rw [State.mask_gang leads follows, State.mask_gang lead hu, State.setMask_gang ne lead hu]
    simp only [Strand.getK_setK _ _ _ ne]
    split <;> rfl

theorem State.getLsbD_mask_setMask (ok : s.gangOk) {d : BitVec 3} (ne : d ≠ 0#3) (x : BitVec 32) {j : Nat}
    (h : j < s.laneCount) : ((s.setMask d x).mask d).getLsbD j = x.getLsbD j := by
  rw [State.mask_setMask ok ne, if_pos rfl]
  unfold State.laneCount at h
  cases lead : s.self.ctl.glead <;> simp only [lead, Bool.false_eq_true, if_false, if_true] at h ⊢
  · simp [h, show j < 32 by omega]
  · obtain low | high := Nat.lt_or_ge j 16
    · simp [low, h]
    · simp [h, high.not_gt, show j - 16 < 16 by omega, Nat.add_sub_cancel' high]

/-- A write to a mask register, with flags: only that register, FFLAGS and the pc have changed. -/
theorem State.maskOnly_setMask (ok : s.gangOk) {d : BitVec 3} (ne : d ≠ 0#3) (f : BitVec 5) (x : BitVec 32) :
    MaskOnly d f s ((s.mergeFlags f).setMask d x).adv := by
  have ok' : (s.mergeFlags f).gangOk := ok
  have frame : ((s.mergeFlags f).setMask d x).adv = { s with
      self := { s.self with
        k := s.self.k.set d.toNat (x.extractLsb' 0 16) d.isLt, pc := s.self.pc + 4#64
        ctl := { s.self.ctl with fflags := s.self.ctl.fflags ||| f } }
      others := ((s.mergeFlags f).setMask d x).others } := by
    cases lead : s.self.ctl.glead
    · rw [State.setMask_alone (s := s.mergeFlags f) ne lead, Strand.setK_of_ne _ _ ne]
      rfl
    · obtain ⟨u, hu⟩ := Option.isSome_iff_exists.mp (ok lead)
      rw [State.setMask_gang (s := s.mergeFlags f) ne lead hu, Strand.setK_of_ne _ _ ne]
      rfl
  refine ⟨by rw [frame], fun r other => ?_, ?_, fun lead => ?_⟩
  · exact (State.mask_setMask ok' ne r x).trans (if_neg other)
  · cases lead : s.self.ctl.glead
    · rw [State.setMask_alone (s := s.mergeFlags f) ne lead]
      rfl
    · obtain ⟨u, hu⟩ := Option.isSome_iff_exists.mp (ok lead)
      rw [State.setMask_gang (s := s.mergeFlags f) ne lead hu]
      refine (List.map_map ..).trans (List.map_congr_left fun t _ => ?_)
      simp only [Function.comp, Strand.setK_of_ne _ _ ne]
      split <;> rfl
  · rw [State.setMask_alone (s := s.mergeFlags f) ne lead]
    rfl

/-! ## Lane-wise comparisons (R135, R136) -/

theorem getLsbD_foldl_twoPow (p : Nat → Bool) (l : List Nat) (acc : BitVec 32) {j : Nat} (lt : j < 32) :
    (l.foldl (fun acc i => if p i then acc ||| BitVec.twoPow 32 i else acc) acc).getLsbD j =
      (acc.getLsbD j || (decide (j ∈ l) && p j)) := by
  induction l generalizing acc with
  | nil => simp
  | cons x l ih =>
    rw [List.foldl_cons, ih]
    by_cases same : j = x
    · subst same
      cases p j <;> simp [lt]
    · have : x ≠ j := Ne.symm same
      cases h : p x <;> simp [same, this]

theorem State.laneCount_le (s : State) : s.laneCount ≤ 32 := by
  unfold State.laneCount
  split <;> decide

theorem laneCompare_of_exec {i : Instr} {d : BitVec 3} {k : BitVec 3} {f g : Nat → Bool × BitVec 5} (ok : s.gangOk)
    (ne : d ≠ 0#3) (run : exec i s = .next (s.lanecmp d k g).adv) (same : ∀ j, g j = f j) : LaneCompare i d k s f := by
  obtain rfl : g = f := funext same
  refine ⟨_, _, run, State.maskOnly_setMask ok ne _ _, s.laneFlags k _, fun j lt => ?_⟩
  refine (State.getLsbD_mask_setMask (s := s.mergeFlags _) ok ne _ lt).trans ?_
  rw [getLsbD_foldl_twoPow _ _ _ (lt.trans_le s.laneCount_le)]
  simp [State.active, lt]

/-! ## Integer lanes (R135) -/

theorem State.mergeFlags_zero (s : State) : s.mergeFlags 0#5 = s := by
  rw [State.mergeFlags, BitVec.or_zero]
  rfl

/-- A write to a vector register without flags. -/
theorem State.vecOnly_setLanes_quiet (ok : s.gangOk) (d : BitVec 4) (xs : List Lane) :
    VecOnly d 0#5 s (s.setLanes d xs).adv := by
  have := State.vecOnly_setLanes ok d 0#5 xs
  rwa [s.mergeFlags_zero] at this

theorem lanewise_of_vop2 {i : Instr} {d a b : BitVec 4} {k : BitVec 3} {f g : Lane → Lane → Lane} (ok : s.gangOk)
    (same : ∀ x y, g x y = f x y) (run : exec i s = s.vop2 d a b k g) :
    Lanewise i d k s (fun j => (f (lane (s.lanes a) j) (lane (s.lanes b) j), 0#5)) := by
  obtain rfl : g = f := funext fun x => funext (same x)
  exact lanewise_of_exec ok run

/-- A choice between two lanes does not turn on whether they are equal. -/
theorem ite_slt {x y p q : Lane} (tie : x = y → p = q) :
    (if x.slt y then p else q) = if x.toInt ≤ y.toInt then p else q := by
  simp only [BitVec.slt_eq_decide, decide_eq_true_eq]
  obtain lt | eq | gt := lt_trichotomy x.toInt y.toInt
  · rw [if_pos lt, if_pos lt.le]
  · rw [tie (BitVec.eq_of_toInt_eq eq), ite_self, ite_self]
  · rw [if_neg gt.not_gt, if_neg gt.not_ge]

theorem ite_ult {x y p q : Lane} (tie : x = y → p = q) :
    (if x.ult y then p else q) = if x.toNat ≤ y.toNat then p else q := by
  simp only [BitVec.ult_eq_decide, decide_eq_true_eq]
  obtain lt | eq | gt := lt_trichotomy x.toNat y.toNat
  · rw [if_pos lt, if_pos lt.le]
  · rw [tie (BitVec.eq_of_toNat_eq eq), ite_self, ite_self]
  · rw [if_neg gt.not_gt, if_neg gt.not_ge]

/-- Clamping forms by the bounds of 32-bit lanes (R68). -/
theorem satLane_signed (op : Int → Int → Int) (x y : Lane) : satLane false op x y =
    BitVec.ofInt 32 (if op x.toInt y.toInt < -2147483648 then -2147483648
      else if 2147483647 < op x.toInt y.toInt then 2147483647 else op x.toInt y.toInt) := by
  simp [satLane, clamp_eq, minOf, maxOf, wrapInt]

theorem satLane_unsigned (op : Int → Int → Int) (x y : Lane) : satLane true op x y =
    BitVec.ofInt 32 (if op x.toNat y.toNat < 0 then 0
      else if 4294967295 < op x.toNat y.toNat then 4294967295 else op x.toNat y.toNat) := by
  simp [satLane, clamp_eq, minOf, maxOf, wrapInt]

theorem sshiftRight_eq_ofInt (x : Lane) (n : Nat) : x.sshiftRight n = BitVec.ofInt 32 (x.toInt / 2 ^ n) := by
  rw [BitVec.sshiftRight, Int.shiftRight_eq_div_pow]
  rfl

/-- GE and GEN as the reversed order. -/
theorem not_slt (x y : Lane) : (!x.slt y) = decide (y.toInt ≤ x.toInt) := by
  rw [BitVec.slt_eq_decide, ← decide_not]
  exact decide_eq_decide.mpr not_lt

theorem not_ult (x y : Lane) : (!x.ult y) = decide (y.toNat ≤ x.toNat) := by
  rw [BitVec.ult_eq_decide, ← decide_not]
  exact decide_eq_decide.mpr not_lt

theorem exec_vsel (ok : s.gangOk) (d a b : BitVec 4) (k : BitVec 3) : ∃ t, exec (.vsel d a b k) s = .next t ∧
    VecOnly d 0#5 s t ∧ ∀ j, j < s.laneCount →
      lane (t.lanes d) j = if (s.mask k).getLsbD j then lane (s.lanes a) j else lane (s.lanes b) j := by
  refine ⟨_, rfl, State.vecOnly_setLanes_quiet ok d _, fun j lt => ?_⟩
  refine (State.lane_lanes_setLanes ok d _ lt).trans ?_
  simp [lt]

/-- Settles O11: each form is a function of two lanes, which `lanewise_of_vop2` takes to the lanes of the register. -/
theorem vectorIntegerLanes : Obligations.VectorIntegerLanes := by
  unfold Obligations.VectorIntegerLanes
  intro s d a b k e c ok x y is sat satN
  have form {i : Instr} {f g : Lane → Lane → Lane} (same : ∀ x y, g x y = f x y) (run : exec i s = s.vop2 d a b k g) :
      is i f := lanewise_of_vop2 ok same run
  have plain {i : Instr} {f : Lane → Lane → Lane} (run : exec i s = s.vop2 d a b k f) : is i f := form (fun _ _ => rfl) run
  have compare {g h : Lane → Lane → Bool} (same : ∀ x y, g x y = h x y)
      (run : exec (.vcmp e a b k c) s = .next (s.lanecmp e k (fun i => (g (x i) (y i), 0#5))).adv) (ne : e ≠ 0#3) :
      LaneCompare (.vcmp e a b k c) e k s (fun j => (h (x j) (y j), 0#5)) :=
    laneCompare_of_exec ok ne run (fun j => by rw [same])
  refine ⟨?add, ?sub, ?mul, ?min, ?minN, ?max, ?maxN, ?and, ?or, ?xor, ?shl, ?shr, ?sha, ?addSat, ?addNSat, ?subSat, ?subNSat,
    exec_vsel ok d a b k, fun ne => ?compare⟩
  case add | sub | mul | and | or | xor => exact plain rfl
  case shl => exact plain (f := fun x y => x <<< (y.toNat % 32)) rfl
  case shr => exact plain (f := fun x y => x >>> (y.toNat % 32)) rfl
  case min => exact form (g := fun x y => if x.slt y then x else y) (fun _ _ => ite_slt id) rfl
  case minN => exact form (g := fun x y => if x.ult y then x else y) (fun _ _ => ite_ult id) rfl
  case max => exact form (g := fun x y => if x.slt y then y else x) (fun _ _ => ite_slt Eq.symm) rfl
  case maxN => exact form (g := fun x y => if x.ult y then y else x) (fun _ _ => ite_ult Eq.symm) rfl
  case sha => exact form (g := fun x y => x.sshiftRight (y.toNat % 32)) (fun x _ => sshiftRight_eq_ofInt x _) rfl
  case addSat => exact form (g := satLane false (· + ·)) (satLane_signed _) rfl
  case addNSat => exact form (g := satLane true (· + ·)) (satLane_unsigned _) rfl
  case subSat => exact form (g := satLane false (· - ·)) (satLane_signed _) rfl
  case subNSat => exact form (g := satLane true (· - ·)) (satLane_unsigned _) rfl
  refine ⟨?_, ?_, ?_, ?_, ?_, ?_⟩ <;> rintro rfl
  · exact compare (fun _ _ => rfl) rfl ne
  · exact compare (fun _ _ => rfl) rfl ne
  · exact compare (g := BitVec.slt) (fun _ _ => BitVec.slt_eq_decide) rfl ne
  · exact compare not_slt rfl ne
  · exact compare (g := BitVec.ult) (fun _ _ => BitVec.ult_eq_decide) rfl ne
  · exact compare not_ult rfl ne

/-! ## F32 lanes (R136) -/

/-- Settles O12: each form is a function of a lane number with its flags (`lanewise_of_exec`). -/
theorem vectorFloatLanes : Obligations.VectorFloatLanes := by
  unfold Obligations.VectorFloatLanes
  intro s d a b k e c ok m x y z v is
  have form {i : Instr} {f : Nat → FRes} (run : exec i s = .next (s.lanewise d k (fun j => toLane (f j))).adv) : is i f :=
    lanewise_of_exec ok run
  exact ⟨form rfl, form rfl, form rfl, form rfl, form rfl, form rfl, form rfl, form rfl, form rfl, form rfl, form rfl,
    fun ne => laneCompare_of_exec ok ne rfl (fun _ => rfl)⟩

end Sys2Proof.Machine
end

