-- ==== Sys2Proof/Proofs/LaneMovement.lean ====
section
/-! PROOF. Lane movement, lane conversion and mask forms (O14). -/
namespace Sys2Proof.Machine

variable {s t : State}

/-! ## Lanes and bits by number -/

theorem State.length_lanes (s : State) (r : BitVec 4) : (s.lanes r).length = s.laneCount := by
  unfold State.lanes State.laneCount
  split
  · split <;> simp
  · simp

theorem State.laneCount_pos (s : State) : 0 < s.laneCount := by
  unfold State.laneCount
  split <;> decide

/-- A mask register has no bits above the lanes. -/
theorem State.getLsbD_mask_of_ge (s : State) (k : BitVec 3) {i : Nat} (ge : s.laneCount ≤ i) : (s.mask k).getLsbD i = false := by
  unfold State.laneCount at ge
  cases lead : s.self.ctl.glead <;> simp only [lead, Bool.false_eq_true, if_false, if_true] at ge
  · rw [s.mask_alone lead, BitVec.getLsbD_setWidth, BitVec.getLsbD_of_ge _ _ ge, Bool.and_false]
  · exact BitVec.getLsbD_of_ge _ _ ge

/-- Numbers beyond a bound add nothing where none of them is chosen. -/
theorem filter_range_of_le {p : Nat → Bool} {n N : Nat} (le : n ≤ N) (none : ∀ i, n ≤ i → i < N → p i = false) :
    (List.range N).filter p = (List.range n).filter p := by
  obtain ⟨m, rfl⟩ := Nat.exists_eq_add_of_le le
  have empty : ((List.range m).map (n + ·)).filter p = [] := by
    simpa using fun i lt => none (n + i) (by omega) (by omega)
  rw [List.range_add, List.filter_append, empty, List.append_nil]

/-- How many active lanes lie below a lane, by the mask alone. -/
theorem State.rank_eq (s : State) (k : BitVec 3) (i : Nat) :
    s.rank k i = ((List.range i).filter (fun j => (s.mask k).getLsbD j)).length := by
  rw [State.rank, State.active, List.filter_filter, ← filter_range_of_le (N := max s.laneCount i) (le_max_left _ _),
    filter_range_of_le (n := i) (le_max_right _ _)]
  · refine congrArg List.length (List.filter_congr fun j mem => ?_)
    rw [decide_eq_true (List.mem_range.mp mem), Bool.true_and]
  · intro j ge _
    rw [decide_eq_false (by omega), Bool.false_and]
  · intro j ge _
    rw [s.getLsbD_mask_of_ge k ge, Bool.and_false]

/-- A chosen number stands in the list of the chosen ones behind those below it. -/
theorem getElem?_filter_range (p : Nat → Bool) {j n : Nat} (lt : j < n) (chosen : p j = true) :
    ((List.range n).filter p)[((List.range j).filter p).length]? = some j := by
  obtain ⟨m, rfl⟩ := Nat.exists_eq_add_of_lt lt
  rw [Nat.add_assoc, List.range_add, List.filter_append, List.getElem?_append_right le_rfl, Nat.sub_self,
    List.range_succ_eq_map, List.map_cons, List.filter_cons, if_pos (by simpa using chosen)]
  simp

/-! ## Vector writes keep masks and gangs (R32) -/

/-- A strand without its vector registers. -/
def Strand.clearV (t : Strand) : Strand := { t with v := default }

theorem State.follower_clearV {t : State} : ({ t with others := t.others.map Strand.clearV } : State).follower =
    t.follower.map Strand.clearV := State.follower_map rfl rfl rfl rfl (fun _ => ⟨rfl, rfl, rfl⟩)

namespace VecOnly
variable {d : BitVec 4} {f : BitVec 5}

theorem glead (h : VecOnly d f s t) : t.self.ctl.glead = s.self.ctl.glead := by
  obtain ⟨frame, -⟩ := h
  rw [frame]

theorem follower (h : VecOnly d f s t) : t.follower.map Strand.clearV = s.follower.map Strand.clearV := by
  have ⟨frame, _, others, _⟩ := h
  have st : t.self.st = s.self.st := by rw [frame]
  have id : t.self.id = s.self.id := by rw [frame]
  rw [← State.follower_clearV, ← State.follower_clearV]
  have same := State.follower_map (s := { s with others := s.others.map Strand.clearV })
    (t := { t with others := t.others.map Strand.clearV }) (g := fun x => x) st id h.glead
    (others.trans (List.map_id' _).symm) (fun _ => ⟨rfl, rfl, rfl⟩)
  rwa [Option.map_id'] at same

theorem gangOk (h : VecOnly d f s t) (ok : s.gangOk) : t.gangOk := by
  intro lead
  have := congrArg Option.isSome h.follower
  rw [Option.isSome_map, Option.isSome_map] at this
  rw [this]
  exact ok (h.glead ▸ lead)

theorem laneCount (h : VecOnly d f s t) : t.laneCount = s.laneCount := by rw [State.laneCount, h.glead, State.laneCount]

theorem mask (h : VecOnly d f s t) (k : BitVec 3) : t.mask k = s.mask k := by
  have low : t.self.getK k = s.self.getK k := by
    obtain ⟨frame, -⟩ := h
    rw [frame]
    rfl
  have high : t.follower.map (·.getK k) = s.follower.map (·.getK k) := by
    have := congrArg (Option.map (·.getK k)) h.follower
    rwa [Option.map_map, Option.map_map] at this
  unfold State.mask
  rw [h.glead, low]
  cases ft : t.follower <;> cases fs : s.follower <;> simp [ft, fs] at high ⊢
  rw [high]

end VecOnly

/-! ## Lane movement (R138) -/

theorem exec_vins (ok : s.gangOk) (d : BitVec 4) (g h : BitVec 6) : ∃ t, exec (.vins d g h) s = .next t ∧
    VecOnly d 0#5 s t ∧ ∀ j, j < s.laneCount →
      lane (t.lanes d) j = if j = (s.getG h).toNat % s.laneCount then (s.getG g).setWidth 32 else lane (s.lanes d) j := by
  refine ⟨_, rfl, State.vecOnly_setLanes_quiet ok d _, fun j lt => ?_⟩
  refine (State.lane_lanes_setLanes ok d _ lt).trans ?_
  rw [List.getD_eq_getElem?_getD, List.getElem?_set, s.length_lanes, State.laneIdx, if_pos (Nat.mod_lt _ s.laneCount_pos)]
  by_cases same : j = (s.getG h).toNat % s.laneCount
  · rw [if_pos same.symm, if_pos same]
    rfl
  · rw [if_neg (Ne.symm same), if_neg same, lane, List.getD_eq_getElem?_getD]

/-- VCMPR packs the active lanes. -/
theorem exec_vcmpr (ok : s.gangOk) (d a : BitVec 4) (k : BitVec 3) : ∃ t, exec (.vcmpr d a k) s = .next t ∧
    VecOnly d 0#5 s t ∧ ∀ j, j < s.laneCount →
      lane (t.lanes d) j = ((s.active k)[j]?.map (lane (s.lanes a))).getD 0#32 := by
  refine ⟨_, rfl, State.vecOnly_setLanes_quiet ok d _, fun j lt => ?_⟩
  refine (State.lane_lanes_setLanes ok d _ lt).trans ?_
  rw [List.getD_eq_getElem?_getD, List.getElem?_map]

theorem lanewise_vexpd (ok : s.gangOk) (d a : BitVec 4) (k : BitVec 3) : Lanewise (.vexpd d a k) d k s (fun j =>
    (lane (s.lanes a) ((List.range j).filter (fun i => (s.mask k).getLsbD i)).length, 0#5)) := by
  refine lanewise_of_exec ok ?_
  simp only [← s.rank_eq]
  rfl

/-- VEXPD undoes VCMPR on the active lanes. -/
theorem exec_vcmpr_vexpd (ok : s.gangOk) (e a : BitVec 4) (k : BitVec 3) :
    ∃ t t', exec (.vcmpr e a k) s = .next t ∧ exec (.vexpd e e k) t = .next t' ∧
      ∀ j, j < s.laneCount → (s.mask k).getLsbD j = true → lane (t'.lanes e) j = lane (s.lanes a) j := by
  obtain ⟨t, packs, only, packed⟩ := exec_vcmpr ok e a k
  obtain ⟨t', _, expands, -, -, expanded⟩ := lanewise_vexpd (only.gangOk ok) e e k
  refine ⟨t, t', packs, expands, fun j lt on => ?_⟩
  have place := getElem?_filter_range (fun i => (s.mask k).getLsbD i) lt on
  have below := (List.length_filter_le (fun i => (s.mask k).getLsbD i) (List.range j)).trans_eq List.length_range
  rw [expanded j (only.laneCount ▸ lt), only.mask, if_pos on]
  refine (packed _ (by omega)).trans ?_
  rw [State.active, place]
  rfl

/-! ## Mask forms (R142) -/

theorem exec_kop {i : Instr} {e : BitVec 3} {x : BitVec 32} {f : Nat → Bool} (ok : s.gangOk) (ne : e ≠ 0#3)
    (run : exec i s = .next (s.setMask e x).adv) (bits : ∀ j, j < 32 → x.getLsbD j = f j) :
    ∃ t, exec i s = .next t ∧ MaskOnly e 0#5 s t ∧ ∀ j, j < s.laneCount → (t.mask e).getLsbD j = f j := by
  have only := State.maskOnly_setMask ok ne 0#5 x
  rw [s.mergeFlags_zero] at only
  exact ⟨_, run, only, fun j lt =>
    (State.getLsbD_mask_setMask ok ne x lt).trans (bits j (lt.trans_le s.laneCount_le))⟩

theorem State.popMask_mask (s : State) (k : BitVec 3) :
    popMask (s.mask k) = ((List.range s.laneCount).filter (fun j => (s.mask k).getLsbD j)).length :=
  congrArg List.length (filter_range_of_le s.laneCount_le fun _ ge _ => s.getLsbD_mask_of_ge k ge)

/-- Settles O14. An index is below the number of lanes, and no mask has a bit above them. -/
theorem laneMovementAndMasks : Obligations.LaneMovementAndMasks := by
  unfold Obligations.LaneMovementAndMasks
  refine ⟨?_, fun s e a k ok => exec_vcmpr_vexpd ok e a k, ?_⟩
  · intro s d e a b k src dst g h u r ok L x at'
    refine ⟨lanewise_of_exec ok rfl, lanewise_of_exec ok rfl, s.put_eq d _, exec_vins ok e g h, ?_, lanewise_vexpd ok e a k,
      lanewise_of_exec ok rfl⟩
    obtain ⟨t, run, only, lanes⟩ := exec_vcmpr ok e a k
    refine ⟨t, run, only, fun j lt => (lanes j lt).trans ?_⟩
    split
    · next below => rw [State.active, List.getElem?_eq_getElem below]; rfl
    · next beyond => rw [State.active, List.getElem?_eq_none (Nat.le_of_not_lt beyond)]; rfl
  · intro s d e a b g ok ne is x y
    refine ⟨exec_kop ok ne rfl ?_, exec_kop ok ne rfl ?_, exec_kop ok ne rfl ?_, exec_kop ok ne rfl ?_,
      exec_kop ok ne rfl ?_, s.put_eq d _, (s.put_eq d _).trans (by rw [s.popMask_mask])⟩ <;> intro j lt
    · exact BitVec.getLsbD_and
    · exact BitVec.getLsbD_or
    · exact BitVec.getLsbD_xor
    · simp [lt, x, y]
    · simp [lt]

end Sys2Proof.Machine
end

