-- ==== Sys2Proof/Proofs/Reductions.lean ====
section
/-! PROOF. Reductions, dot products and scans over the active lanes (O13). -/
namespace Sys2Proof.Machine

variable {s : State}

/-! ## Sums of integers (R137) -/

theorem foldl_add_filter (p : Nat → Bool) (f : Nat → Int) (l : List Nat) (acc : Int) :
    (l.filter p).foldl (fun acc j => acc + f j) acc = acc + (l.map (fun j => if p j then f j else 0)).sum := by
  induction l generalizing acc with
  | nil => simp
  | cons x l ih => cases h : p x <;> simp [h, ih, Int.add_assoc]

theorem State.sum_active (s : State) (k : BitVec 3) (f : Nat → Int) : (s.active k).foldl (fun acc j => acc + f j) 0 =
    ((List.range s.laneCount).map (fun j => if (s.mask k).getLsbD j then f j else 0)).sum :=
  (foldl_add_filter _ f _ 0).trans (Int.zero_add _)

theorem State.mem_active {s : State} {k : BitVec 3} {j : Nat} :
    j ∈ s.active k ↔ j < s.laneCount ∧ (s.mask k).getLsbD j = true := by
  rw [State.active, List.mem_filter, List.mem_range]

/-! ## Extremes of integers (R137) -/

/-- A running maximum bounds every entry and its start, and is one of them. -/
theorem foldl_max_spec {α : Type} [LinearOrder α] (l : List α) (b : α) :
    b ≤ l.foldl max b ∧ (∀ x ∈ l, x ≤ l.foldl max b) ∧ (l.foldl max b = b ∨ l.foldl max b ∈ l) := by
  induction l generalizing b with
  | nil => simp
  | cons x l ih =>
    obtain ⟨start, entries, attained⟩ := ih (max b x)
    simp only [List.foldl_cons, List.mem_cons, forall_eq_or_imp]
    refine ⟨(le_max_left b x).trans start, ⟨(le_max_right b x).trans start, entries⟩, ?_⟩
    obtain eq | mem := attained
    · obtain h | h := max_choice b x
      · exact .inl (eq.trans h)
      · exact .inr (.inl (eq.trans h))
    · exact .inr (.inr mem)

/-- The extreme over the active lanes in an order in which no lane lies below the start: attained by an active lane, or the
start when none is active. -/
theorem extreme_active {α : Type} [LinearOrder α] {x : Nat → α} {b : α} (bound : ∀ j, b ≤ x j) (l : List Nat) :
    (∀ j ∈ l, x j ≤ (l.map x).foldl max b) ∧
      ((∃ j ∈ l, x j = (l.map x).foldl max b) ∨ (∀ j, j ∉ l) ∧ (l.map x).foldl max b = b) := by
  obtain ⟨-, entries, attained⟩ := foldl_max_spec (l.map x) b
  have above : ∀ j ∈ l, x j ≤ (l.map x).foldl max b := fun j mem => entries _ (List.mem_map_of_mem mem)
  refine ⟨above, ?_⟩
  obtain start | mem := attained
  · cases l with
    | nil => exact .inr ⟨fun _ => List.not_mem_nil, start⟩
    | cons j l => exact .inl ⟨j, List.mem_cons_self, le_antisymm (above j List.mem_cons_self) (start.trans_le (bound j))⟩
  · obtain ⟨j, active, eq⟩ := List.mem_map.mp mem
    exact .inl ⟨j, active, eq⟩

theorem exec_vredMax (s : State) (d : BitVec 6) (a : BitVec 4) (k : BitVec 3) :
    let on (j : Nat) : Prop := j < s.laneCount ∧ (s.mask k).getLsbD j = true
    let x (j : Nat) : Int := (lane (s.lanes a) j).toInt
    ∃ m : Int, exec (.vredMax d a k) s = .next (s.wrote d (BitVec.ofInt 64 m)) ∧ (∀ j, on j → x j ≤ m) ∧
      ((∃ j, on j ∧ x j = m) ∨ ((∀ j, ¬ on j) ∧ m = -2147483648)) := by
  intro on x
  have extreme := extreme_active (x := x) (fun j => BitVec.le_toInt (lane (s.lanes a) j)) (s.active k)
  simp only [State.mem_active] at extreme
  exact ⟨_, s.put_eq d _, extreme⟩

theorem exec_vredMin (s : State) (d : BitVec 6) (a : BitVec 4) (k : BitVec 3) :
    let on (j : Nat) : Prop := j < s.laneCount ∧ (s.mask k).getLsbD j = true
    let x (j : Nat) : Int := (lane (s.lanes a) j).toInt
    ∃ m : Int, exec (.vredMin d a k) s = .next (s.wrote d (BitVec.ofInt 64 m)) ∧ (∀ j, on j → m ≤ x j) ∧
      ((∃ j, on j ∧ x j = m) ∨ ((∀ j, ¬ on j) ∧ m = 2147483647)) := by
  intro on x
  have upper (j : Nat) : x j ≤ 2147483647 := BitVec.toInt_le
  have extreme := extreme_active (α := Intᵒᵈ) (x := x) upper (s.active k)
  simp only [State.mem_active] at extreme
  exact ⟨_, s.put_eq d _, extreme⟩

/-! ## Scans (R137) -/

theorem State.lanes_eq_map (s : State) (r : BitVec 4) : s.lanes r = (List.range' 0 s.laneCount).map (lane (s.lanes r)) := by
  refine List.ext_getElem (by simp [s.length_lanes]) fun i h _ => ?_
  simp [lane, List.getD_eq_getElem?_getD, h]

/-- A scan from lane `i` by the accumulators before its lanes. -/
theorem scanFrom_eq {on : Nat → Bool} {f : Lane → Lane → Lane × BitVec 5} {x acc : Nat → Lane}
    (step : ∀ j, acc (j + 1) = if on j then (f (acc j) (x j)).1 else acc j) (old : Nat → Lane) (n i : Nat) :
    scanFrom on f ((List.range' i n).map x) ((List.range' i n).map old) i (acc i) =
      ((List.range' i n).map (fun j => if on j then acc (j + 1) else old j),
        ((List.range' i n).filter on).foldr (fun j flags => (f (acc j) (x j)).2 ||| flags) 0#5) := by
  induction n generalizing i with
  | zero => rfl
  | succ n ih =>
    have next := step i
    rw [List.range'_succ, List.map_cons, List.map_cons, scanFrom, List.map_cons, List.filter_cons]
    cases h : on i <;> simp only [h, Bool.false_eq_true, if_false, if_true] at next ⊢
    · rw [← next, ih]
    · rw [← next, ih]
      rfl

/-- A scan is the lane-wise form of its accumulators. -/
theorem State.scan_eq {d a : BitVec 4} {k : BitVec 3} {zero : Lane} {f : Lane → Lane → Lane × BitVec 5} {acc : Nat → Lane}
    (start : acc 0 = zero)
    (step : ∀ j, acc (j + 1) = if (s.mask k).getLsbD j then (f (acc j) (lane (s.lanes a) j)).1 else acc j) :
    s.scan d a k zero f =
      .next (s.lanewise d k (fun j => (acc (j + 1), (f (acc j) (lane (s.lanes a) j)).2))).adv := by
  have flags (l : List Nat) (h : Nat → BitVec 5) :
      l.foldr (fun j flags => h j ||| flags) 0#5 = l.foldl (fun flags j => flags ||| h j) 0#5 := by
    rw [← List.foldr_map (f := h) (g := (· ||| ·)), ← List.foldl_map (f := h) (g := (· ||| ·)), List.foldl_eq_foldr]
  have scanned := scanFrom_eq (on := fun i => (s.mask k).getLsbD i) step (lane (s.lanes d)) s.laneCount 0
  rw [← s.lanes_eq_map a, ← s.lanes_eq_map d, start, flags, ← List.range_eq_range'] at scanned
  rw [State.scan, scanned]
  rfl

/-! ## Trees (R90, R91) -/

/-- The flags of the first `n` nodes of a level. -/
def joined : Nat → (Nat → BitVec 5) → BitVec 5
  | 0, _ => 0#5
  | n + 1, g => g 0 ||| joined n (fun i => g (i + 1))

theorem joined_zero (n : Nat) : joined n (fun _ => 0#5) = 0#5 := by
  induction n with
  | zero => rfl
  | succ n ih => rw [joined, ih, BitVec.or_self]

/-- The flags of the nodes of a level and of those below them, taken pair by pair. -/
theorem joined_pairs (n : Nat) (g h : Nat → BitVec 5) :
    joined (2 * n) g ||| joined n h = joined n (fun i => g (2 * i) ||| g (2 * i + 1) ||| h i) := by
  induction n generalizing g h with
  | zero => exact BitVec.or_self
  | succ n ih =>
    have rest := ih (fun i => g (i + 1 + 1)) (fun i => h (i + 1))
    rw [show 2 * (n + 1) = 2 * n + 1 + 1 from rfl, joined, joined, joined, joined]
    simp only [Nat.mul_add, Nat.mul_one, Nat.mul_zero, Nat.zero_add]
    rw [← rest]
    ac_rfl

theorem map_range_add_two {α : Type} (n : Nat) (v : Nat → α) :
    (List.range (2 * (n + 1))).map v = v 0 :: v 1 :: (List.range (2 * n)).map (fun i => v (i + 1 + 1)) := by
  rw [show 2 * (n + 1) = 2 * n + 1 + 1 from rfl, List.range_succ_eq_map, List.range_succ_eq_map]
  simp

/-- One level of the tree, node by node. -/
theorem treeLevel_eq (f : FVal → FVal → FRes) (n : Nat) (v : Nat → FVal) : treeLevel f ((List.range (2 * n)).map v) =
    ((List.range n).map (fun i => f32.unpack (f (v (2 * i)) (v (2 * i + 1))).1),
      joined n (fun i => (f (v (2 * i)) (v (2 * i + 1))).2)) := by
  induction n generalizing v with
  | zero => rfl
  | succ n ih =>
    rw [map_range_add_two, treeLevel, ih, List.range_succ_eq_map, List.map_cons, List.map_map]
    rfl

/-- From the `2 ^ k` nodes of level `l` the model's tree goes on to the root of R90, and gathers the flags above that level. -/
theorem treeFold_eq (f : FVal → FVal → FRes) (leaf : Nat → FVal) {k n : Nat} (bound : k ≤ n) (l : Nat) :
    let r := treeFold f n ((List.range (2 ^ k)).map (fun i => (Spec.tree f leaf l i).1))
    r.1 = (Spec.tree f leaf (l + k) 0).1 ∧
      joined (2 ^ k) (fun i => (Spec.tree f leaf l i).2) ||| r.2 = (Spec.tree f leaf (l + k) 0).2 := by
  induction k generalizing n l with
  | zero =>
    have root : treeFold f n [(Spec.tree f leaf l 0).1] = ((Spec.tree f leaf l 0).1, 0#5) := by cases n <;> rfl
    intro r
    rw [show r = _ from root]
    exact ⟨rfl, by simp [joined]⟩
  | succ k ih =>
    obtain ⟨n, rfl⟩ := Nat.exists_eq_add_of_lt (show 0 < n by omega)
    obtain ⟨value, flags⟩ := ih (n := 0 + n) (by omega) (l + 1)
    have many : ¬ 2 * 2 ^ k ≤ 1 := by
      have := Nat.one_le_two_pow (n := k)
      omega
    simp only [pow_succ', treeFold, List.length_map, List.length_range, if_neg many, treeLevel_eq]
    rw [← BitVec.or_assoc, joined_pairs]
    rw [show l + (k + 1) = l + 1 + k by omega]
    exact ⟨value, flags⟩

/-- The model's tree over the lanes is that of R90, with all its flags. -/
theorem treeFold_range (f : FVal → FVal → FRes) (leaf : Nat → FVal) {k n : Nat} (bound : k ≤ n) :
    treeFold f n ((List.range (2 ^ k)).map leaf) = Spec.tree f leaf k 0 := by
  obtain ⟨value, flags⟩ := treeFold_eq f leaf bound 0
  simp only [Spec.tree, joined_zero, BitVec.zero_or, Nat.zero_add] at value flags
  exact Prod.ext value flags

/-- A tree whose leaves are all one value that combines to itself without a flag. -/
theorem tree_const {f : FVal → FVal → FRes} {v : FVal} {n : Nat} (once : f v v = (n, 0#5))
    (again : f (f32.unpack n) (f32.unpack n) = (n, 0#5)) (l i : Nat) :
    Spec.tree f (fun _ => v) (l + 1) i = (f32.unpack n, 0#5) := by
  induction l generalizing i with
  | zero => simp [Spec.tree, once]
  | succ l ih =>
    rw [Spec.tree, ih, ih]
    simp [again]

/-! ## F32 reductions (R137) -/

theorem Fmt.lt_of_canonical {n : Nat} (h : f32.Canonical n) : n < 2 ^ 32 := by
  obtain rfl | ⟨neg, a, le, rfl⟩ := h
  · decide
  · cases neg <;> simp [Fmt.pack, Fmt.top, f32, b2n] at le ⊢ <;> omega

/-- The levels of the tree: 4 over 16 lanes, 5 over 32. -/
def State.levels (s : State) : Nat := if s.self.ctl.glead then 5 else 4

theorem State.laneCount_eq_two_pow (s : State) : s.laneCount = 2 ^ s.levels := by
  unfold State.laneCount State.levels
  split <;> rfl

/-- A reduction by the tree of R90, completed. -/
theorem State.putF_tree (s : State) (d : BitVec 6) (f : FVal → FVal → FRes) (leaf : Nat → FVal) (fl : BitVec 5) :
    let t := Spec.tree f leaf s.levels 0
    s.putF d (treeRes (treeFold f 8 ((List.range s.laneCount).map leaf)) fl) =
      .next (s.wroteF d (w64 (f32.ofVal 0 t.1).1) (t.2 ||| fl)) ∧ (f32.ofVal 0 t.1).1 < 2 ^ 32 := by
  have bound : s.levels ≤ 8 := by
    unfold State.levels
    split <;> decide
  rw [s.laneCount_eq_two_pow, treeFold_range f leaf bound, State.putF_eq]
  exact ⟨rfl, Fmt.lt_of_canonical (Fmt.canonical_ofVal ..)⟩

theorem State.mask_empty {s : State} {k : BitVec 3} (empty : ∀ j, j < s.laneCount → (s.mask k).getLsbD j = false) (j : Nat) :
    (s.mask k).getLsbD j = false := by
  obtain lt | ge := Nat.lt_or_ge j s.laneCount
  · exact empty j lt
  · exact s.getLsbD_mask_of_ge k ge

/-- A reduction of identities alone gives their pattern and raises nothing. -/
theorem State.putF_tree_const {s : State} {d : BitVec 6} {f : FVal → FVal → FRes} {v : FVal} {n : Nat}
    (once : f v v = (n, 0#5)) (again : f (f32.unpack n) (f32.unpack n) = (n, 0#5))
    (pattern : (f32.ofVal 0 (f32.unpack n)).1 = n) :
    s.putF d (treeRes (treeFold f 8 ((List.range s.laneCount).map fun _ => v)) 0#5) = .next (s.wroteF d (w64 n) 0#5) := by
  obtain ⟨l, levels⟩ : ∃ l, s.levels = l + 1 := by
    unfold State.levels
    split
    · exact ⟨4, rfl⟩
    · exact ⟨3, rfl⟩
  obtain ⟨run, -⟩ := s.putF_tree d f (fun _ => v) 0#5
  rw [levels, tree_const once again] at run
  rw [run, pattern, BitVec.or_self]

/-- A sum of negative zeros is -0 in every mode (R75). -/
theorem add_negZero (mode : Nat) (e e' : Int) : f32.add mode (.fin true 0 e) (.fin true 0 e') = (0x80000000, 0#5) := by
  have cancels : scaled true 0 e (min e e') + scaled true 0 e' (min e e') = 0 := by simp [scaled]
  have zero : f32.zero true = 0x80000000 := by decide
  simp only [Fmt.add, FVal.isNan, Fmt.addVals, cancels, zero, Bool.or_self, Bool.false_eq_true, if_false, if_true]

theorem foldl_leafFlags (on : Nat → Bool) (product : Nat → FVal × BitVec 5) (l : List Nat) (acc : BitVec 5) :
    (l.map (fun j => if on j then product j else (.fin true 0 0, 0#5))).foldl (fun acc p => acc ||| p.2) acc =
      l.foldl (fun f j => if on j then f ||| (product j).2 else f) acc := by
  rw [List.foldl_map]
  refine congrFun (congrFun (congrArg _ (funext fun f => funext fun j => ?_)) _) _
  cases on j <;> simp

/-- VDOT.s: the products of the active lanes are its leaves. -/
theorem execVdotS_eq (s : State) (d : BitVec 6) (a b : BitVec 4) (k : BitVec 3) :
    let on (j : Nat) : Bool := (s.mask k).getLsbD j
    let product (j : Nat) : FVal × BitVec 5 :=
      leafProduct (f32.unpack (lane (s.lanes a) j).toNat) (f32.unpack (lane (s.lanes b) j).toNat)
    exec (.vdotS d a b k) s = s.putF d (treeRes
      (treeFold (f32.add s.frm) 8 ((List.range s.laneCount).map (fun j => if on j then (product j).1 else .fin true 0 0)))
      ((List.range s.laneCount).foldl (fun f j => if on j then f ||| (product j).2 else f) 0#5)) := by
  intro on product
  show execVdotS d a b k s = _
  rw [← foldl_leafFlags on product]
  have leaves : (fun j => if on j then (product j).1 else .fin true 0 0) =
      fun j => (if on j then product j else (.fin true 0 0, 0#5)).1 := by
    funext j
    cases on j <;> rfl
  rw [leaves, execVdotS, List.map_map]
  rfl

/-- Settles O13: sums and extremes over the active lanes, trees by `treeFold_range`, scans by `State.scan_eq`. -/
theorem reductions : Obligations.Reductions := by
  unfold Obligations.Reductions
  refine ⟨?_, ?_⟩
  · intro s d e a b k ok on x y total
    refine ⟨(s.put_eq d _).trans ?sum, (s.put_eq d _).trans ?dot, exec_vredMax s d a k, exec_vredMin s d a k, ?scan⟩
    case sum =>
      rw [State.activeInts, List.foldl_map, s.sum_active]
      rfl
    case dot =>
      rw [s.sum_active]
      rfl
    case scan =>
      refine lanewise_of_exec ok ?_
      show s.scan e a k 0#32 (fun x y => (x + y, 0#5)) = _
      refine State.scan_eq (acc := fun j => BitVec.ofInt 32 (total j x)) rfl fun j => ?_
      simp only [total, List.range_succ, List.map_append, List.sum_append, List.map_cons, List.map_nil, List.sum_singleton,
        BitVec.ofInt_add]
      split
      · rw [BitVec.ofInt_toInt]
      · exact BitVec.add_zero _
  · intro s d e a b k ok m on x y levels masked product productFlags result empty
    have identities (none : empty) (v : FVal) (f : Nat → FVal) : (fun j => if on j then f j else v) = fun _ => v :=
      funext fun j => if_neg (by simp [on, State.mask_empty none])
    refine ⟨s.putF_tree d _ _ _, s.putF_tree d _ _ _, s.putF_tree d _ _ _, ?dot,
      fun none => ⟨?sumNone, ?maxNone, ?minNone, ?dotNone⟩, ?scan⟩
    case dot =>
      obtain ⟨run, bound⟩ := s.putF_tree d (f32.add m) (masked (.fin true 0 0) (fun j => (product j).1)) productFlags
      exact ⟨(execVdotS_eq s d a b k).trans run, bound⟩
    case sumNone =>
      show execVredSumS d a k s = _
      rw [execVredSumS, State.leaves, identities none]
      exact State.putF_tree_const (add_negZero ..) (add_negZero ..) rfl
    case maxNone =>
      show execVredMaxS d a k s = _
      rw [execVredMaxS, State.leaves, identities none]
      exact State.putF_tree_const rfl rfl rfl
    case minNone =>
      show execVredMinS d a k s = _
      rw [execVredMinS, State.leaves, identities none]
      exact State.putF_tree_const rfl rfl rfl
    case dotNone =>
      have quiet : (List.range s.laneCount).foldl (fun f j => if on j then f ||| (product j).2 else f) 0#5 = 0#5 := by
        simp [on, State.mask_empty none]
      rw [execVdotS_eq, identities none, quiet]
      exact State.putF_tree_const (add_negZero ..) (add_negZero ..) rfl
    case scan =>
      refine lanewise_of_exec ok ?_
      show s.scan e a k 0x80000000#32 (fun x y => toLane (f32.add s.frm (fLane x) (fLane y))) = _
      exact State.scan_eq (acc := Spec.runningSum m on x) rfl fun j => rfl

end Sys2Proof.Machine
end

