-- ==== Sys2Proof/Proofs/AccessChecks.lean ====
section
/-! PROOF. What the checks of an access change, and where they let it go (O18); traps by instruction (O24). -/
namespace Sys2Proof.Machine

variable {s t : State} {x : Site}

/-! ## What each part of the checks changes (R14, R146) -/

/-- A state with other TLB entries. -/
def State.withTlb (s : State) (l : List TlbEntry) : State := { s with m := { s.m with tlb := l } }

theorem State.tlbFill_only (e : TlbEntry) (hs : List TlbHolder) : ∃ l, s.tlbFill e hs = s.withTlb l := ⟨_, rfl⟩

theorem State.translate_only (hs : List TlbHolder) (va : Nat) : ∃ l, (s.translate x hs va).2 = s.withTlb l := by
  unfold State.translate
  split
  · dsimp only
    split
    · exact ⟨s.m.tlb, rfl⟩
    · exact ⟨_, rfl⟩
  · split
    · exact ⟨s.m.tlb, rfl⟩
    · exact ⟨s.m.tlb, rfl⟩
    · exact ⟨_, rfl⟩

theorem State.places_only (acc : Acc) (ls : List (Nat × Word × Option Nat)) :
    ∃ l, (s.places x acc ls).2 = s.withTlb l := by
  induction ls generalizing s with
  | nil => exact ⟨s.m.tlb, rfl⟩
  | cons q ls ih =>
    obtain ⟨i, a, o⟩ := q
    obtain ⟨k, seen⟩ := s.translate_only (x := x) x.tlbs a.toNat
    unfold State.places
    cases o with
    | some l =>
      have ih := ih (s := s)
      dsimp only
      split
      · next rest =>
        rw [rest] at ih
        exact ih
      · exact ih
    | none =>
      dsimp only
      generalize s.translate x x.tlbs a.toNat = tr at seen ⊢
      obtain ⟨found, s'⟩ := tr
      obtain rfl : s' = s.withTlb k := seen
      obtain ⟨l, later⟩ := ih (s := s.withTlb k)
      cases found with
      | absent => exact ⟨k, rfl⟩
      | bad => exact ⟨k, rfl⟩
      | hit e =>
        dsimp only
        split
        · exact ⟨k, rfl⟩
        · split
          · next rest =>
            rw [rest] at later
            exact ⟨l, later⟩
          · exact ⟨l, later⟩

/-- The accesses of a list of places charged to the DRAM budgets of their home slices (R393). -/
def State.chargeSlices (s : State) (x : Site) (n : Nat) (ps : List (Nat × Word × Place)) : State :=
  ps.foldl (fun s q => s.charge x.part (paDie q.2.2.loc) 2 n) s

theorem State.enterSlices_cases (n : Nat) (fwd : Bool) (ps : List (Nat × Word × Place)) :
    (∃ here, s.enterSlices x n fwd ps = (.ok ps, s.chargeSlices x n here)) ∨
      ∃ hs, s.enterSlices x n fwd ps = (.wait, s.holdFor hs) := by
  unfold State.enterSlices
  dsimp only
  split
  · exact .inl ⟨_, rfl⟩
  · exact .inr ⟨_, rfl⟩

/-- Checks that pass: places were found for the lanes, and the accesses entered their home slices. -/
theorem State.check_ok {rule : SpaceRule} {acc : Acc} {n al : Nat} {ls : List (Nat × Word)} {fwd : Bool}
    {ps : List (Nat × Word × Place)} (h : s.check x rule acc n al ls fwd = (.ok ps, t)) :
    ∃ os v here, s.clearHolds.spaces x rule n ls = .ok os ∧ s.clearHolds.places x acc os = (.ok ps, v) ∧
      t = v.chargeSlices x n here := by
  unfold State.check at h
  dsimp only at h
  split at h
  · simp at h
  · next os lies =>
    split at h
    · simp at h
    · split at h
      · next qs v placed =>
        obtain ⟨here, e⟩ | ⟨hs, e⟩ := v.enterSlices_cases (x := x) n fwd qs
        · rw [e, Prod.mk.injEq, Checked.ok.injEq] at h
          obtain ⟨rfl, rfl⟩ := h
          exact ⟨os, v, here, lies, placed, rfl⟩
        · simp [e] at h
      · next stopped => exact absurd h (stopped _ _)

/-- Checks change TLBs and what the access waits for, and those that pass charge the DRAM budgets. -/
theorem State.check_cases (rule : SpaceRule) (acc : Acc) (n al : Nat) (ls : List (Nat × Word)) (fwd : Bool) :
    (∃ ps l here, s.check x rule acc n al ls fwd = (.ok ps, (s.clearHolds.withTlb l).chargeSlices x n here)) ∨
      ∃ c l hs, (∀ ps, c ≠ .ok ps) ∧ s.check x rule acc n al ls fwd = (c, (s.holdFor hs).withTlb l) := by
  generalize result : s.check x rule acc n al ls fwd = r
  obtain ⟨c, t⟩ := r
  cases c with
  | ok ps =>
    obtain ⟨os, v, here, -, placed, rfl⟩ := State.check_ok result
    obtain ⟨l, only⟩ := s.clearHolds.places_only (x := x) acc os
    rw [placed] at only
    obtain rfl : v = s.clearHolds.withTlb l := only
    exact .inl ⟨ps, l, here, rfl⟩
  | _ =>
    refine .inr ?_
    unfold State.check at result
    dsimp only at result
    split at result
    · exact ⟨_, s.m.tlb, [], by simp, Prod.ext rfl (Prod.mk.inj result).2.symm⟩
    · next os lies =>
      split at result
      · exact ⟨_, s.m.tlb, [], by simp, Prod.ext rfl (Prod.mk.inj result).2.symm⟩
      · obtain ⟨l, only⟩ := s.clearHolds.places_only (x := x) acc os
        split at result
        · next qs v placed =>
          rw [placed] at only
          obtain rfl : v = s.clearHolds.withTlb l := only
          obtain ⟨here, e⟩ | ⟨hs, e⟩ := (s.clearHolds.withTlb l).enterSlices_cases (x := x) n fwd qs
          · simp [e] at result
          · rw [e] at result
            exact ⟨_, l, hs, by simp, Prod.ext rfl (Prod.mk.inj result).2.symm⟩
        · rw [result] at only
          exact ⟨_, l, [], by simp, Prod.ext rfl only⟩

/-! ## Charges without a budget (R393) -/

/-- A state with other partitions. -/
def State.withParts (s : State) (ps : Vector Partition 64) : State := { s with host := { s.host with parts := ps } }

theorem State.setPart_only (p : Nat) (y : Partition) : ∃ ps, s.setPart p y = s.withParts ps := ⟨_, rfl⟩

/-- A partition of the module keeps its budgets, and a number beyond the table names none that has any. -/
theorem State.budget_setPart (p : Nat) (y : Partition) (keeps : y.budget = (s.part p).budget) :
    ((s.setPart p y).part p).budget = (s.part p).budget := by
  by_cases inside : p < 64
  · rw [s.part_setPart p p y inside, if_pos rfl, keeps]
  · simp [State.part, State.setPart, inside]

theorem State.charge_unlimited {p which : Nat} (free : (s.part p).budget[which]?.getD none = none) (die n : Nat) :
    (∃ ps, s.charge p die which n = s.withParts ps) ∧ ((s.charge p die which n).part p).budget = (s.part p).budget := by
  unfold State.charge
  simp only [free]
  exact ⟨State.setPart_only .., State.budget_setPart p _ rfl⟩

theorem State.chargeSlices_unlimited (n : Nat) (here : List (Nat × Word × Place))
    (free : (s.part x.part).budget[2]?.getD none = none) : ∃ ps, s.chargeSlices x n here = s.withParts ps := by
  induction here generalizing s with
  | nil => exact ⟨s.host.parts, rfl⟩
  | cons q here ih =>
    obtain ⟨⟨ps, first⟩, keeps⟩ := State.charge_unlimited free (paDie q.2.2.loc) n
    obtain ⟨qs, rest⟩ := ih (s := s.charge x.part (paDie q.2.2.loc) 2 n) (by rw [keeps, free])
    exact ⟨qs, rest.trans (by rw [first]; rfl)⟩

/-- Settles O18: TLBs and holds change, and by checks that pass what the partition has used. -/
theorem accessChecksTouchNoData : Obligations.AccessChecksTouchNoData := by
  unfold Obligations.AccessChecksTouchNoData
  intro s x rule acc n align ls t waits
  obtain ⟨ps, l, here, e⟩ | ⟨c, l, hs, stops, e⟩ := s.check_cases (x := x) rule acc n align ls false
  · refine ⟨fun stopped is => absurd ?_ (stopped ps), fun noBudget is => ?_⟩
    · rw [← is, e]
    · have free : ((s.clearHolds.withTlb l).part x.part).budget[2]?.getD none = none := by
        show (s.part x.part).budget[2]?.getD none = none
        rw [noBudget]
        rfl
      obtain ⟨qs, charged⟩ := State.chargeSlices_unlimited n here free
      rw [← is, e, charged]
      rfl
  · refine ⟨fun _ is => ?_, fun _ is => ?_⟩
    · rw [← is, e]
      rfl
    · rw [← is, e]
      rfl

/-! ## TRAP and BRK (R190) -/

/-- Settles O24. -/
theorem trapInstructions : Obligations.TrapInstructions := by
  unfold Obligations.TrapInstructions
  intro s c can
  have taken (r : TrapRec) : s.enterTrap (s.self.pc + 4#64) r = s.trapped (s.self.pc + 4#64) r := s.enterTrap_eq can _ r
  have trap : exec (.trap c) s = .next (s.trapped (s.self.pc + 4#64) { cause := 16, info0 := w64 c.toNat }) :=
    congrArg _ (taken _)
  obtain ⟨pc, tpc, -, sMode, itr, pmode, g, v, k, m⟩ :=
    s.trapped_frame (s.self.pc + 4#64) { cause := 16, info0 := w64 c.toNat }
  have code : w64 c.toNat = c.zeroExtend 64 := BitVec.eq_of_toNat_eq (by simp [w64])
  exact ⟨trap, congrArg _ (taken _), _, trap, pc, tpc, code, pmode, sMode, itr, g, v, k, m⟩

end Sys2Proof.Machine
end

