-- ==== Sys2Proof/Proofs/StoresAtomics.lean ====
section
/-! PROOF. Scalar stores (O20) and atomics (O22) at places of this module. -/
namespace Sys2Proof.Machine

variable {s t : State} {x : Site}

/-! ## Places of one lane -/

/-- A place found for a lane: its lane and address, and, where it is a location of local storage, no cell page. -/
def PlacedAt (o : Nat × Word × Option Nat) (q : Nat × Word × Place) : Prop :=
  q.1 = o.1 ∧ q.2.1 = o.2.1 ∧ (q.2.2.glob = false → q.2.2.cpage = false)

theorem State.places_placed {acc : Acc} {os : List (Nat × Word × Option Nat)} {ps : List (Nat × Word × Place)}
    (h : s.places x acc os = (.ok ps, t)) : List.Forall₂ PlacedAt os ps := by
  induction os generalizing s ps t with
  | nil =>
    obtain rfl : [] = ps := Checked.ok.inj (Prod.mk.inj h).1
    exact .nil
  | cons o os ih =>
    obtain ⟨i, a, l⟩ := o
    unfold State.places at h
    cases l with
    | some l =>
      dsimp only at h
      split at h
      · next rest =>
        obtain rfl := Checked.ok.inj (Prod.mk.inj h).1
        exact .cons ⟨rfl, rfl, fun _ => rfl⟩ (ih rest)
      · next stopped => exact absurd h (stopped _ _)
    | none =>
      dsimp only at h
      split at h
      · simp at h
      · simp at h
      · split at h
        · simp at h
        · split at h
          · next rest =>
            obtain rfl := Checked.ok.inj (Prod.mk.inj h).1
            exact .cons ⟨rfl, rfl, fun global => by simp at global⟩ (ih rest)
          · next stopped => exact absurd h (stopped _ _)

theorem State.check_local_noCells {rule : SpaceRule} {acc : Acc} {n al : Nat} {ls : List (Nat × Word)} {fwd : Bool}
    {ps : List (Nat × Word × Place)} (h : s.check x rule acc n al ls fwd = (.ok ps, t)) :
    ∀ q ∈ ps, q.2.2.glob = false → q.2.2.cpage = false := by
  obtain ⟨_, _, _, _, placed, _⟩ := State.check_ok h
  intro q hq
  obtain ⟨i, lt, rfl⟩ := List.getElem_of_mem hq
  exact ((State.places_placed placed).get (by rw [(State.places_placed placed).length_eq]; exact lt) lt).2.2

/-! ## Bytes of this module under a store (R148, R153) -/

/-- A store at a place that holds no cell but a VALUE one writes its bytes and no more, and wakes the waiters of words of
local storage. -/
theorem State.storeAt_plain {p : Place} (bs : List Byte) (good : s.isPoisoned p.loc = false)
    (value : p.glob = true → s.tag p.loc = .value) :
    s.storeAt p bs = if p.glob then s.wrBytes p.loc bs else (s.wrBytes p.loc bs).wakeOthers p.loc bs.length := by
  unfold State.storeAt
  split
  · next glob => simp [State.writeGlobal, value glob]
  · simp [good]

/-- A store at a suspended or poisoned cell replaces it: its tag becomes VALUE, its bytes zero. -/
theorem State.writeGlobal_replaces {pa : Nat} (bs : List Byte) (h : s.tag pa = .chrysalis ∨ s.tag pa = .poison) :
    s.writeGlobal pa bs = ((s.setTag pa .value).wr (pa / 32 * 32) 32 0).wrBytes pa bs := by
  unfold State.writeGlobal
  obtain h | h := h <;> simp [h]

theorem State.tag_wrBytes (l : Nat) (bs : List Byte) (pa : Nat) : (s.wrBytes l bs).tag pa = s.tag pa := rfl

/-- The bytes of a number written at a location. -/
theorem State.byteAt_wr_word (ok : s.memOk) (l n : Nat) (y : Word) {j : Nat} (h : j < n) :
    (s.wrBytes l (leBytes n y.toNat)).byteAt (l + j) = y.extractLsb' (8 * j) 8 := by
  refine (s.byteAt_wr ok l n y.toNat (l + j)).trans ?_
  rw [if_pos (by omega), Nat.add_sub_cancel_left]
  apply BitVec.eq_of_toNat_eq
  rw [BitVec.toNat_ofNat, BitVec.extractLsb'_toNat, Nat.shiftRight_eq_div_pow, pow_mul]
  rfl

/-! ## Stores that pass their checks (O20) -/

section
variable {r : BitVec 6} {w : BitVec 2} {op : Nat} {a : Word} {p : Place} {t₀ : State}
  (checked : s.check s.self.site .any .store (2 ^ w.toNat) (2 ^ w.toNat) [(0, a)] = (.ok [(0, a, p)], t₀))
  (near : p.remote = false) (good : (t₀.underKeys [(0, a, p)]).isPoisoned p.loc = false)
include checked near good

/-- A store of one lane whose place holds no ECLOSING cell is performed there. -/
theorem State.storeG_passes (free : p.cpage = true → (t₀.underKeys [(0, a, p)]).tag p.loc ≠ .eclosing) :
    s.storeG op r w a = .next (((t₀.underKeys [(0, a, p)]).dropAnswers.storeAt p
      (leBytes (2 ^ w.toNat) (s.getG r).toNat)).adv) := by
  unfold State.storeG State.store
  rw [show widthBytes w = 2 ^ w.toNat from rfl, checked]
  generalize hu : t₀.underKeys [(0, a, p)] = u at good free
  have stops : u.storeStop (2 ^ w.toNat) (0, a, p) = none := by
    cases cell : p.cpage
    · simp [State.storeStop, near, good, cell]
    · simp [State.storeStop, near, good, cell, free cell]
  simp [State.afterCheck, hu, State.toProbe, State.farLane, near, stops, State.storeAll, State.storeLane]

/-- A store of one lane at an ECLOSING cell raises CELLBUSY. -/
theorem State.storeG_busy (cell : p.cpage = true) (busy : (t₀.underKeys [(0, a, p)]).tag p.loc = .eclosing) :
    s.storeG op r w a = .next ((t₀.underKeys [(0, a, p)]).trap (cellBusy (cellVa a) 2)) := by
  unfold State.storeG State.store
  rw [show widthBytes w = 2 ^ w.toNat from rfl, checked]
  generalize hu : t₀.underKeys [(0, a, p)] = u at good busy
  have stops : u.storeStop (2 ^ w.toNat) (0, a, p) = some (cellBusy (cellVa a) 2) := by
    simp [State.storeStop, near, good, cell, busy, Tag.code]
  simp [State.afterCheck, hu, State.toProbe, State.farLane, near, stops]

end

/-- Each scalar store form is a store of one lane, once a release at DOMAIN scope is held no more. -/
theorem exec_scalarStore {r a b : BitVec 6} {w : BitVec 2} {o : BitVec 11} {scope : BitVec 3} {i : Instr} {A : Word}
    (form : i = .st r a w o ∧ A = s.getG a + BitVec.ofInt 64 (o.toInt * (2 ^ w.toNat : Nat)) ∨
      i = .stx r a b w ∧ A = s.getG a + s.getG b ∨
      i = .stRel r a scope w ∧ A = s.getG a ∧ (scope = 5#3 → s.holdOver s.self.site s.releaseHold = true)) :
    ∃ op, exec i s = s.storeG op r w A := by
  obtain ⟨rfl, rfl⟩ | ⟨rfl, rfl⟩ | ⟨rfl, rfl, after⟩ := form
  · exact ⟨1, congrArg (s.storeG 1 r w) (s.mAddr_eq a _ o)⟩
  · exact ⟨1, rfl⟩
  · refine ⟨if scope = 5#3 then 13 else 1, ?_⟩
    show s.releasing scope (fun s => s.storeG (if scope = 5#3 then 13 else 1) r w (s.getG a)) = _
    rw [State.releasing, if_neg]
    rintro ⟨domain, held⟩
    rw [after domain] at held
    cases held

/-- Settles O20. -/
theorem storesComplete : Obligations.StoresComplete := by
  unfold Obligations.StoresComplete
  intro s t₀ r a b w o scope p i A n t stored
  refine ⟨fun held => if_pos ⟨rfl, held⟩, fun form checked ok near good => ?_⟩
  obtain ⟨op, meaning⟩ := exec_scalarStore form
  refine ⟨fun value => ?_, fun glob cell aligned => ?_⟩
  · have free : p.cpage = true → t.tag p.loc ≠ .eclosing := fun cell => by
      cases glob : p.glob
      · rw [State.check_local_noCells checked _ (List.mem_singleton.mpr rfl) glob] at cell
        cases cell
      · rw [value glob]
        decide
    have bytes : (leBytes n (s.getG r).toNat).length = n := leBytes_length ..
    have wrote : SameBytesBut p.loc n t (t.wrBytes p.loc (leBytes n (s.getG r).toNat)) := t.sameBytesBut_wr ok p.loc n _
    refine ⟨_, meaning.trans (State.storeG_passes checked near good free), ?_⟩
    rw [State.storeAt_plain _ good value, bytes]
    cases glob : p.glob
    · exact ⟨fun j lt => t.byteAt_wr_word ok p.loc n (s.getG r) lt, wrote, rfl⟩
    · exact ⟨fun j lt => t.byteAt_wr_word ok p.loc n (s.getG r) lt, wrote, rfl⟩
  · intro c
    refine ⟨fun replaced => ?_, fun busy can => ?_⟩
    · have free : p.cpage = true → t.tag p.loc ≠ .eclosing := fun _ => by
        obtain h | h := replaced
        · rw [h]; decide
        · rw [h]; decide
      have zeroed : ((t.setTag p.loc .value).wr c 32 0).memOk := (t.memOk_setTag ok p.loc .value).wr
      have width : n = 1 ∨ n = 2 ∨ n = 4 ∨ n = 8 := by
        have := w.isLt
        show 2 ^ w.toNat = 1 ∨ 2 ^ w.toNat = 2 ∨ 2 ^ w.toNat = 4 ∨ 2 ^ w.toNat = 8
        interval_cases w.toNat <;> simp
      have within : p.loc + n ≤ c + 32 := by
        show p.loc + n ≤ p.loc / 32 * 32 + 32
        obtain h | h | h | h := width <;> rw [h] at aligned ⊢ <;> omega
      have low : c ≤ p.loc := Nat.div_mul_le_self ..
      refine ⟨_, meaning.trans (State.storeG_passes checked near good free), ?_⟩
      rw [State.storeAt, if_pos glob, State.writeGlobal_replaces _ replaced]
      have apart (q : Nat) (h : q < p.loc ∨ p.loc + n ≤ q) :
          (((t.setTag p.loc .value).wr c 32 0).wrBytes p.loc (leBytes n (s.getG r).toNat)).byteAt q =
            ((t.setTag p.loc .value).wr c 32 0).byteAt q := State.sameBytesBut_wr zeroed p.loc n _ q h
      refine ⟨fun j lt => State.byteAt_wr_word zeroed p.loc n (s.getG r) lt, fun q h => ?_, ?_, fun q h1 h2 h3 => ?_,
        by simp, by simp, by simp [State.setTag]⟩
      · refine (apart q (by omega)).trans ?_
        exact State.sameBytesBut_wr (t.memOk_setTag ok p.loc .value) c 32 0 q h
      · exact (t.tag_setTag p.loc p.loc .value).trans (if_pos rfl)
      · refine (apart q h3).trans ?_
        rw [State.byteAt_wr (t.memOk_setTag ok p.loc .value), if_pos ⟨h1, h2⟩]
        simp
    · have run := State.storeG_busy (op := op) (r := r) checked near good cell busy
      rw [State.trap_eq _ (show (t₀.underKeys [(0, A, p)]).canTrap from can)] at run
      obtain ⟨pc, -, tcause, -, -, -, -, -, -, m⟩ := (t₀.underKeys [(0, A, p)]).trapped_frame
        (t₀.underKeys [(0, A, p)]).self.pc (cellBusy (cellVa A) 2)
      exact ⟨_, meaning.trans run, fun q => congrArg (fun m : MemSide => memGet m.mem q) m, pc, tcause, rfl⟩

/-! ## Atomics that pass their checks (R154, R155) -/

/-- A release at DOMAIN scope is held while stores before it are unacknowledged. -/
theorem State.atomic_held {op : Nat} {d a b : BitVec 6} {c : BitVec 3} {w : BitVec 1} (domain : c = 5#3)
    (held : s.holdOver s.self.site s.releaseHold = false) : s.atomic op d a b c w = .next (s.holdFor [s.releaseHold]) :=
  if_pos ⟨domain, held⟩

/-- The end of an atomic is its register and flags written, which await their result. -/
theorem State.atomicDone_eq (d : BitVec 6) (op n old : Nat) (fl : BitVec 5) :
    s.atomicDone d op n old fl = (s.wroteF d (atomicOld op n old) fl).markBusy [.g d, .flags] := by
  unfold State.atomicDone State.wroteF State.wrote State.setG Strand.setG State.mergeFlags State.setCtl State.markBusy State.adv
    State.setPc
  split <;> rfl

/-- The state after the write of a strand's store of `bs` at a place of this module, as the statements say it. -/
def State.stored (t : State) (p : Place) (bs : List Byte) : State :=
  { t with m := { t.m with mem := memWrite t.m.mem p.loc bs }
           others := if p.glob then t.others else t.others.map ((t.wrBytes p.loc bs).wokenBy p.loc bs.length) }

theorem State.storeAt_stored {p : Place} (bs : List Byte) (good : t.isPoisoned p.loc = false)
    (value : p.glob = true → t.tag p.loc = .value) : t.storeAt p bs = t.stored p bs := by
  rw [State.storeAt_plain bs good value, State.stored]
  split <;> rfl

/-- A read whose places lie on this module and are all readable meets no cell and asks no module. -/
theorem State.readGate_passes {n : Nat} {ps : List (Nat × Word × Place)} (near : ∀ q ∈ ps, q.2.2.remote = false)
    (reads : ∀ q ∈ ps, t.blocked q = false) (f : State → State) : t.readGate n ps f = f t := by
  have due (q : Nat × Word × Place) (h : q ∈ ps) : t.farLane q = false := by simp [State.farLane, near q h]
  have asks : t.toProbe false n ps = none := by
    unfold State.toProbe
    dsimp only
    split
    · rfl
    · simp
    · exact List.find?_eq_none.mpr fun q h => by simp [due q h]
  have free : ps.find? t.blocked = none := List.find?_eq_none.mpr fun q h => by simp [reads q h]
  simp only [State.readGate, asks, free]

/-- An atomic whose checks pass at a readable place of this module. -/
theorem State.atomic_passes {op : Nat} {d a b : BitVec 6} {c : BitVec 3} {w : BitVec 1} {p : Place} {n : Nat} {t₀ : State}
    (width : (if w = 0#1 then 4 else 8) = n) (after : c = 5#3 → s.holdOver s.self.site s.releaseHold = true)
    (checked : s.check s.self.site .any .atomic n n [(0, s.getG a)] = (.ok [(0, s.getG a, p)], t₀))
    (near : p.remote = false) (reads : (t₀.underKeys [(0, s.getG a, p)]).blocked (0, s.getG a, p) = false)
    (value : p.glob = true → (t₀.underKeys [(0, s.getG a, p)]).tag p.loc = .value) :
    let t := t₀.underKeys [(0, s.getG a, p)]
    let r := atomicNew op n (t.rd p.loc n) ((s.getG b).toNat % 256 ^ n) ((s.getG d).toNat % 256 ^ n)
    s.atomic op d a b c w = .next (((t.stored p (leBytes n r.1)).wroteF d (atomicOld op n (t.rd p.loc n)) r.2).markBusy
      [.g d, .flags]) := by
  intro t r
  have good : t.isPoisoned p.loc = false := by
    simp only [State.blocked, near, Bool.false_eq_true, if_false, Bool.or_eq_false_iff] at reads
    exact reads.1
  have passes : ¬ (c = 5#3 ∧ s.holdOver s.self.site s.releaseHold = false) := by
    rintro ⟨domain, held⟩
    rw [after domain] at held
    cases held
  unfold State.atomic
  dsimp only
  rw [width, State.releasing, if_neg passes, checked]
  refine congrArg _ ?_
  dsimp only [State.afterCheck]
  rw [State.readGate_passes (by simpa using near) (by simpa using reads), State.atomicAt, if_neg (by simp [near])]
  dsimp only
  rw [State.storeAt_stored _ good value, State.atomicDone_eq]

/-- The operations of the atomics on words of `W` bits (R154). -/
theorem atomicNew_bits {W n : Nat} (hW : W = 8 * n) (pos : 0 < n) (old x e : BitVec W) :
    let new (op : Nat) := atomicNew op n old.toNat x.toNat e.toNat
    new 0 = ((old + x).toNat, 0#5) ∧ new 1 = ((old &&& x).toNat, 0#5) ∧ new 2 = ((old ||| x).toNat, 0#5) ∧
    new 3 = ((old ^^^ x).toNat, 0#5) ∧ new 4 = ((if x.toInt < old.toInt then x else old).toNat, 0#5) ∧
    new 5 = ((if old.toInt < x.toInt then x else old).toNat, 0#5) ∧
    new 6 = ((if x.toNat < old.toNat then x else old).toNat, 0#5) ∧
    new 7 = ((if old.toNat < x.toNat then x else old).toNat, 0#5) ∧ new 8 = (x.toNat, 0#5) ∧
    new 10 = ((if old = e then x else old).toNat, 0#5) := by
  intro new
  have size : 256 ^ n = 2 ^ W := by rw [hW, pow_mul]; rfl
  have signed (v : BitVec W) : (if 2 ^ (8 * n - 1) ≤ v.toNat then (v.toNat : Int) - (256 ^ n : Nat) else v.toNat) = v.toInt := by
    have half : 2 * 2 ^ (8 * n - 1) = 2 ^ W := by rw [hW, ← pow_succ', Nat.sub_add_cancel (by omega)]
    rw [BitVec.toInt_eq_toNat_cond, size]
    split
    · rw [if_neg (by omega)]
    · rw [if_pos (by omega)]
  refine ⟨?_, ?_, ?_, ?_, ?_, ?_, ?_, ?_, rfl, ?_⟩
  · exact congrArg (·, 0#5) (by rw [size, BitVec.toNat_add])
  · exact congrArg (·, 0#5) (BitVec.toNat_and ..).symm
  · exact congrArg (·, 0#5) (BitVec.toNat_or ..).symm
  · exact congrArg (·, 0#5) (BitVec.toNat_xor ..).symm
  · refine congrArg (·, 0#5) ?_
    beta_reduce
    rw [signed x, signed old, apply_ite BitVec.toNat]
  · refine congrArg (·, 0#5) ?_
    beta_reduce
    rw [signed x, signed old, apply_ite BitVec.toNat]
  · refine congrArg (·, 0#5) ?_
    rw [apply_ite BitVec.toNat, Nat.min_def]
    split_ifs <;> omega
  · refine congrArg (·, 0#5) ?_
    rw [apply_ite BitVec.toNat, Nat.max_def]
    split_ifs <;> omega
  · refine congrArg (·, 0#5) ?_
    simp only [apply_ite BitVec.toNat, ← BitVec.toNat_inj]

/-- What g[d] receives, for the words of R155. -/
theorem atomicOld_bits {W n : Nat} (hW : W = 8 * n) (width : n = 4 ∨ n = 8) (op : Nat) (old : BitVec W) :
    atomicOld op n old.toNat = if op == 6 || op == 7 || op == 9 then old.zeroExtend 64 else old.signExtend 64 := by
  unfold atomicOld loadExt
  obtain rfl | rfl := width
  · subst hW
    split
    · exact BitVec.eq_of_toNat_eq (by simp [w64])
    · simp
  · subst hW
    simp [w64]

/-- The width of an atomic in bytes and bits. -/
theorem atomic_width (w : BitVec 1) :
    let W := if w = 0#1 then 32 else 64
    (if w = 0#1 then 4 else 8) = W / 8 ∧ W = 8 * (W / 8) ∧ (W / 8 = 4 ∨ W / 8 = 8) ∧
      (if W / 8 = 4 then f32 else f64) = if w = 0#1 then f32 else f64 := by
  by_cases h : w = 0#1
  · simp [h]
  · simp [h]

/-- Settles O22: each form is one operation on the word and the register, by `State.atomic_passes`. -/
theorem atomicsComplete : Obligations.AtomicsComplete := by
  unfold Obligations.AtomicsComplete
  intro s t₀ d a b c w p W A t held
  refine ⟨fun domain before => ?_, fun after checked ok near reads value => ?_⟩
  · have waits (op : Nat) : s.atomic op d a b c w = .next (s.holdFor [s.releaseHold]) := State.atomic_held domain before
    exact ⟨waits 0, waits 1, waits 2, waits 3, waits 4, waits 5, waits 6, waits 7, waits 8, waits 9, waits 10⟩
  · intro old x e sext zext is F sum
    obtain ⟨width, hW, form, format⟩ : (if w = 0#1 then 4 else 8) = W / 8 ∧ W = 8 * (W / 8) ∧ (W / 8 = 4 ∨ W / 8 = 8) ∧
      (if W / 8 = 4 then f32 else f64) = F := atomic_width w
    clear_value W
    have size : 256 ^ (W / 8) = 2 ^ W := by
      conv_rhs => rw [hW, pow_mul]
      rfl
    have low (r : BitVec 6) : (s.getG r).toNat % 256 ^ (W / 8) = ((s.getG r).setWidth W).toNat := by
      rw [size, BitVec.toNat_setWidth]
    have was : t.rd p.loc (W / 8) = old.toNat := by
      rw [BitVec.toNat_ofNat, Nat.mod_eq_of_lt]
      exact size ▸ t.rd_lt p.loc (W / 8)
    have run (i : Instr) (op : Nat) (new : BitVec W) (got : Word) (f : BitVec 5) (meaning : exec i s = s.atomic op d a b c w)
        (gives : atomicNew op (W / 8) old.toNat x.toNat e.toNat = (new.toNat, f) ∨
          ∃ m, atomicNew op (W / 8) old.toNat x.toNat e.toNat = (m, f) ∧ new = BitVec.ofNat W m)
        (gets : atomicOld op (W / 8) old.toNat = got) : is i new got f := by
      obtain ⟨m, gives, isNew⟩ : ∃ m, atomicNew op (W / 8) old.toNat x.toNat e.toNat = (m, f) ∧ new = BitVec.ofNat W m := by
        obtain gives | gives := gives
        · exact ⟨_, gives, by simp⟩
        · exact gives
      have done := State.atomic_passes (op := op) (b := b) (d := d) width after checked near reads value
      dsimp only at done
      rw [show (t₀.underKeys [(0, s.getG a, p)]).rd p.loc (W / 8) = old.toNat from was, low b, low d, gives, gets] at done
      refine ⟨t.stored p (leBytes (W / 8) m), meaning.trans done, ?_, ?_, t.sameBytesBut_wr ok p.loc (W / 8) m⟩
      · rw [State.stored, leBytes_length]
        rfl
      · refine (t.rd_wr ok p.loc (W / 8) m).trans ?_
        rw [isNew, size, BitVec.toNat_ofNat]
    obtain ⟨add, and, or, xor, min, max, minn, maxn, swp, cas⟩ := atomicNew_bits hW (by omega) old x e
    have got (op : Nat) := atomicOld_bits hW form op old
    refine ⟨run _ 0 _ _ _ rfl (.inl add) (got 0), run _ 1 _ _ _ rfl (.inl and) (got 1), run _ 2 _ _ _ rfl (.inl or) (got 2),
      run _ 3 _ _ _ rfl (.inl xor) (got 3), run _ 4 _ _ _ rfl (.inl min) (got 4), run _ 5 _ _ _ rfl (.inl max) (got 5),
      run _ 6 _ _ _ rfl (.inl minn) (got 6), run _ 7 _ _ _ rfl (.inl maxn) (got 7), run _ 8 _ _ _ rfl (.inl swp) (got 8),
      run _ 9 _ _ _ rfl (.inr ⟨sum.1, ?_, rfl⟩) (got 9), run _ 10 _ _ _ rfl (.inl cas) (got 10)⟩
    show (if W / 8 = 4 then f32 else f64).add 0 _ _ = _
    rw [format]

end Sys2Proof.Machine
end

