-- ==== Sys2Proof/Proofs/VectorMemory.lean ====
section
/-! PROOF. Vector loads and stores at places of this module (O21). -/
namespace Sys2Proof.Machine

variable {s t : State} {x : Site}

/-! ## Strands whose parks alone have changed (R393, R453) -/

/-- From `s` to `t` every strand has changed in its park at most. -/
def ParksOnly (s t : State) : Prop :=
  ∃ g : Strand → Strand, (∀ y, ∃ p, g y = { y with park := p }) ∧ t.self = g s.self ∧ t.others = s.others.map g

namespace ParksOnly

theorem refl (s : State) : ParksOnly s s := ⟨id, fun y => ⟨y.park, rfl⟩, rfl, (List.map_id _).symm⟩

theorem of_eq (self : t.self = s.self) (others : t.others = s.others) : ParksOnly s t :=
  ⟨id, fun y => ⟨y.park, rfl⟩, self, others.trans (List.map_id _).symm⟩

theorem trans {u : State} (a : ParksOnly s t) (b : ParksOnly t u) : ParksOnly s u := by
  obtain ⟨g, hg, self, others⟩ := a
  obtain ⟨h, hh, self', others'⟩ := b
  refine ⟨h ∘ g, fun y => ?_, by rw [self', self]; rfl, by rw [others', others, List.map_map]⟩
  obtain ⟨p, hp⟩ := hg y
  obtain ⟨q, hq⟩ := hh (g y)
  exact ⟨q, hq.trans (by rw [hp])⟩

theorem foldl {α : Type} {f : State → α → State} (h : ∀ s a, ParksOnly s (f s a)) (l : List α) (s : State) :
    ParksOnly s (l.foldl f s) := by
  induction l generalizing s with
  | nil => exact refl s
  | cons a l ih => exact (h s a).trans (ih (f s a))

theorem mapStrands (s : State) {g : Strand → Strand} (h : ∀ y, g y = y ∨ g y = y.wake) : ParksOnly s (s.mapStrands g) := by
  refine ⟨g, fun y => ?_, rfl, rfl⟩
  obtain h | h := h y
  · exact ⟨y.park, h⟩
  · exact ⟨_, h⟩

theorem wokenBy (s : State) (l n : Nat) (y : Strand) : s.wokenBy l n y = y ∨ s.wokenBy l n y = y.wake := by
  unfold State.wokenBy
  split
  · exact .inr rfl
  · exact .inl rfl

theorem writeNotify (s : State) (l source die value : Nat) : ParksOnly s (s.writeNotify l source die value) := by
  have bars (l : Nat) (bs : List Byte) : ParksOnly s (s.wrWake l bs) :=
    mapStrands (s.wrBytes l bs) (wokenBy _ l bs.length)
  have word (u : State) : ParksOnly u (u.setFull l true) := by
    refine mapStrands (u.setBit l true) fun y => ?_
    split
    · exact .inr rfl
    · exact .inl rfl
  exact (bars _ _).trans (word _)

theorem signal (s : State) (f v : Nat) : ParksOnly s (s.signal f v) := by
  refine of_eq (s.signal_self f v) ?_
  simp only [State.signal]
  split
  · rfl
  · split <;> rfl

theorem raise (s : State) (part : Nat) (b : Subscription) (value : Nat) : ParksOnly s (s.raise part b value) := by
  unfold State.raise
  extract_lets u
  have told : ParksOnly s u := by
    simp only [u]
    split
    · exact writeNotify ..
    · exact refl s
  split
  · exact told
  · exact told.trans (signal ..)

theorem charge (s : State) (part die which n : Nat) : ParksOnly s (s.charge part die which n) := by
  unfold State.charge
  dsimp only
  split
  · exact of_eq rfl rfl
  · split
    · exact (of_eq (t := s.setPart part _) rfl rfl).trans (foldl (fun s b => raise s part b 0) _ _)
    · exact of_eq rfl rfl

/-! Such changes keep the lanes. -/

theorem ctl (h : ParksOnly s t) : t.self.ctl = s.self.ctl := by
  obtain ⟨g, hg, self, -⟩ := h
  obtain ⟨p, hp⟩ := hg s.self
  rw [self, hp]

theorem follower (h : ParksOnly s t) : ∃ g : Strand → Strand, (∀ y, ∃ p, g y = { y with park := p }) ∧
    t.self = g s.self ∧ t.follower = s.follower.map g := by
  obtain ⟨g, hg, self, others⟩ := h
  obtain ⟨p, hp⟩ := hg s.self
  refine ⟨g, hg, self, State.follower_map ?_ ?_ ?_ others fun y => ?_⟩
  · rw [self, hp]
  · rw [self, hp]
  · rw [self, hp]
  · obtain ⟨q, hq⟩ := hg y
    rw [hq]
    exact ⟨rfl, rfl, rfl⟩

theorem gangOk (h : ParksOnly s t) (ok : s.gangOk) : t.gangOk := by
  intro lead
  obtain ⟨g, -, -, follows⟩ := h.follower
  rw [h.ctl] at lead
  rw [follows, Option.isSome_map]
  exact ok lead

theorem lanes (h : ParksOnly s t) (r : BitVec 4) : t.lanes r = s.lanes r := by
  obtain ⟨g, hg, self, follows⟩ := h.follower
  have same (y : Strand) : (g y).getV r = y.getV r := by
    obtain ⟨p, hp⟩ := hg y
    rw [hp]
    rfl
  unfold State.lanes
  rw [h.ctl, self, same, follows]
  cases s.follower with
  | none => rfl
  | some y => simp only [Option.map_some, same]

end ParksOnly

theorem State.check_parks {rule : SpaceRule} {acc : Acc} {n al : Nat} {ls : List (Nat × Word)} {fwd : Bool}
    {ps : List (Nat × Word × Place)} (h : s.check x rule acc n al ls fwd = (.ok ps, t)) : ParksOnly s.clearHolds t := by
  obtain ⟨qs, l, here, e⟩ | ⟨c, l, hs, stops, e⟩ := s.check_cases (x := x) rule acc n al ls fwd
  · obtain rfl : _ = t := (Prod.mk.inj (e.symm.trans h)).2
    refine (ParksOnly.of_eq (t := s.clearHolds.withTlb l) rfl rfl).trans ?_
    exact ParksOnly.foldl (fun s q => ParksOnly.charge s x.part _ 2 n) here _
  · exact absurd (Prod.mk.inj (e.symm.trans h)).1 (stops ps)

/-- Checks that pass, and what follows them, keep the lanes of the seat. -/
theorem State.check_lanes {rule : SpaceRule} {acc : Acc} {n al : Nat} {ls : List (Nat × Word)} {fwd : Bool}
    {ps : List (Nat × Word × Place)} (h : s.check x rule acc n al ls fwd = (.ok ps, t)) :
    (∀ r, (t.underKeys ps).dropAnswers.lanes r = s.lanes r) ∧ (t.underKeys ps).dropAnswers.laneCount = s.laneCount ∧
      (s.gangOk → (t.underKeys ps).dropAnswers.gangOk) := by
  have parks := State.check_parks h
  obtain ⟨m, e⟩ := t.underKeys_only ps
  rw [e]
  refine ⟨fun r => (parks.lanes r).trans rfl, ?_, fun ok => parks.gangOk ok⟩
  show (if t.self.ctl.glead then 32 else 16) = if s.self.ctl.glead then 32 else 16
  rw [parks.ctl]
  rfl

/-! ## The lanes of checks that pass -/

theorem State.spaces_lanes {rule : SpaceRule} {n : Nat} {ls : List (Nat × Word)} {os : List (Nat × Word × Option Nat)}
    (h : s.spaces x rule n ls = .ok os) : os.map (·.1) = ls.map (·.1) := by
  induction ls generalizing os with
  | nil =>
    obtain rfl : [] = os := Except.ok.inj h
    rfl
  | cons q ls ih =>
    obtain ⟨i, a⟩ := q
    unfold State.spaces at h
    split at h
    · cases h
    · split at h
      · cases h
      · next rest =>
        obtain rfl := Except.ok.inj h
        simp [ih rest]

theorem PlacedAt.lanes {os : List (Nat × Word × Option Nat)} {ps : List (Nat × Word × Place)}
    (h : List.Forall₂ PlacedAt os ps) : ps.map (·.1) = os.map (·.1) := by
  induction h with
  | nil => rfl
  | cons here _ ih => rw [List.map_cons, List.map_cons, ih, here.1]

theorem State.check_lanesOf {rule : SpaceRule} {acc : Acc} {n al : Nat} {ls : List (Nat × Word)} {fwd : Bool}
    {ps : List (Nat × Word × Place)} (h : s.check x rule acc n al ls fwd = (.ok ps, t)) : ps.map (·.1) = ls.map (·.1) := by
  obtain ⟨os, v, here, lies, placed, -⟩ := State.check_ok h
  exact (PlacedAt.lanes (State.places_placed placed)).trans (State.spaces_lanes lies)

/-! ## Vector loads -/

/-- Positions of a list set to values: each to the one that its position names, once. -/
theorem getD_foldl_set {β : Type} (pos : β → Nat) (val : β → Lane) (ps : List β) (l : List Lane) :
    (∀ j, j ∉ ps.map pos → (ps.foldl (fun l q => l.set (pos q) (val q)) l).getD j 0#32 = l.getD j 0#32) ∧
    ((ps.map pos).Nodup → ∀ q ∈ ps, pos q < l.length →
      (ps.foldl (fun l q => l.set (pos q) (val q)) l).getD (pos q) 0#32 = val q) := by
  induction ps generalizing l with
  | nil => simp
  | cons p ps ih =>
    obtain ⟨other, same⟩ := ih (l.set (pos p) (val p))
    refine ⟨fun j h => ?_, fun once q hq lt => ?_⟩
    · rw [List.map_cons, List.mem_cons, not_or] at h
      rw [List.foldl_cons, other j h.2]
      simp [List.getD_eq_getElem?_getD, List.getElem?_set_ne (Ne.symm h.1)]
    · rw [List.map_cons, List.nodup_cons] at once
      rw [List.foldl_cons]
      obtain rfl | hq := List.mem_cons.mp hq
      · rw [other _ once.1]
        simp [List.getD_eq_getElem?_getD, lt]
      · exact same once.2 q hq (by rwa [List.length_set])

/-- A load whose places lie on this module and are readable reads each of them. -/
theorem State.load_passes {n : Nat} {ps : List (Nat × Word × Place)} (near : ∀ q ∈ ps, q.2.2.remote = false)
    (reads : ∀ q ∈ ps, t.blocked q = false) (fwd : Bool) (f : List Nat → State → State) :
    t.readGate n ps (fun s => s.readAll fwd n ps f) = f (ps.map (fun q => t.rd q.2.2.loc n)) t.dropAnswers := by
  have asks : ps.find? (fun q => q.2.2.remote && (t.remoteHas fwd q.2.2.loc n).isNone) = none :=
    List.find?_eq_none.mpr fun q h => by simp [near q h]
  have values : ps.map (t.valueAt fwd n) = ps.map (fun q => t.rd q.2.2.loc n) :=
    List.map_congr_left fun q h => by simp [State.valueAt, near q h]
  rw [State.readGate_passes near reads, State.readAll, asks, ← values]

theorem elemExt_width {w : BitVec 2} (narrow : 2 ^ w.toNat ≤ 4) (n : BitVec 1) (y : Nat) :
    elemExt (2 ^ w.toNat) (n == 1#1) y =
      if n = 1#1 then BitVec.ofNat 32 y else (BitVec.ofNat (8 * 2 ^ w.toNat) y).signExtend 32 := by
  have cut (m : Nat) (le : m ≤ 32) : ((BitVec.ofNat m y).signExtend 64).truncate 32 = (BitVec.ofNat m y).signExtend 32 := by
    apply BitVec.eq_of_getLsbD_eq
    intro i hi
    simp [BitVec.getElem_signExtend, hi, show i < 64 by omega]
  rw [elemExt, loadExt_width]
  split
  · exact BitVec.eq_of_toNat_eq (by simp)
  · exact cut _ (by omega)

/-- The seat's access addresses of a vector form: an address for each active lane. -/
theorem laneAddrs_filter {on : Nat → Bool} {A f : Nat → Word} (n : Nat) (same : ∀ j, A j = f j) :
    laneAddrs ((List.range n).filter on) f = ((List.range n).filter on).map (fun j => (j, A j)) :=
  List.map_congr_left fun j _ => by rw [same]

theorem State.vload_passes {d : BitVec 4} {w : BitVec 2} {n : BitVec 1} {ls : List (Nat × Word)}
    {ps : List (Nat × Word × Place)} {t₀ : State} (ok : s.gangOk) (narrow : 2 ^ w.toNat ≤ 4) {on : Nat → Bool}
    (lanes : ls.map (·.1) = (List.range s.laneCount).filter on)
    (checked : s.check s.self.site .any .load (2 ^ w.toNat) (2 ^ w.toNat) ls = (.ok ps, t₀)) :
    let t := (t₀.underKeys ps).dropAnswers
    (∀ q, q ∈ ps → q.2.2.remote = false ∧ t.blocked q = false) →
    ∃ u, s.vload d (2 ^ w.toNat) (2 ^ w.toNat) (n == 1#1) ls = .next (u.markBusy [.v d]) ∧ VecOnly d 0#5 t u ∧
      ps.map (·.1) = (List.range s.laneCount).filter on ∧
      (∀ q, q ∈ ps → lane (u.lanes d) q.1 = (if n = 1#1 then BitVec.ofNat 32 (t.rd q.2.2.loc (2 ^ w.toNat))
        else (BitVec.ofNat (8 * 2 ^ w.toNat) (t.rd q.2.2.loc (2 ^ w.toNat))).signExtend 32)) ∧
      (∀ j, j < s.laneCount → on j = false → lane (u.lanes d) j = lane (s.lanes d) j) := by
  intro t passes
  obtain ⟨sameLanes, sameCount, gang⟩ := State.check_lanes checked
  have named : ps.map (·.1) = (List.range s.laneCount).filter on := (State.check_lanesOf checked).trans lanes
  let val (q : Nat × Word × Place) : Lane := elemExt (2 ^ w.toNat) (n == 1#1) (t.rd q.2.2.loc (2 ^ w.toNat))
  let xs := ps.foldl (fun l q => l.set q.1 (val q)) (t.lanes d)
  have near (q : Nat × Word × Place) (h : q ∈ ps) : q.2.2.remote = false := (passes q h).1
  have reads (q : Nat × Word × Place) (h : q ∈ ps) : (t₀.underKeys ps).blocked q = false := by
    have same : t.blocked q = (t₀.underKeys ps).blocked q := by
      unfold State.blocked
      dsimp only
      rw [if_neg (by simp [near q h]), if_neg (by simp [near q h])]
      rfl
    exact same ▸ (passes q h).2
  have run : s.vload d (2 ^ w.toNat) (2 ^ w.toNat) (n == 1#1) ls = .next ((t.setLanes d xs).adv.markBusy [.v d]) := by
    unfold State.vload
    rw [s.check_fwd checked true]
    refine congrArg _ ?_
    dsimp only [State.afterCheck]
    rw [State.load_passes near reads, List.zip_map', List.foldl_map]
    rfl
  obtain ⟨other, same⟩ := getD_foldl_set (·.1) val ps (t.lanes d)
  have at' (j : Nat) (lt : j < s.laneCount) : lane ((t.setLanes d xs).adv.lanes d) j = xs.getD j 0#32 :=
    State.lane_lanes_setLanes (gang ok) d xs (by rw [sameCount]; exact lt)
  refine ⟨_, run, State.vecOnly_setLanes_quiet (gang ok) d xs, named, fun q h => ?_, fun j lt off => ?_⟩
  · have lt : q.1 < s.laneCount := by
      have : q.1 ∈ (List.range s.laneCount).filter on := named ▸ List.mem_map_of_mem h
      exact List.mem_range.mp (List.mem_filter.mp this).1
    rw [at' _ lt, ← elemExt_width narrow]
    exact same (named ▸ List.nodup_range.filter _) q h (by rw [t.length_lanes, sameCount]; exact lt)
  · rw [at' _ lt]
    refine (other j ?_).trans (by rw [sameLanes d, lane])
    rw [named]
    simp [off]

/-! ## Vector stores -/

/-- A strand that is as it was, or that waited for a barrier word and is woken. -/
def Woken (a b : Strand) : Prop := b = a ∨ a.parkedFor .bwait = true ∧ b = a.wake

theorem Woken.trans {a b c : Strand} (h : Woken a b) (h' : Woken b c) : Woken a c := by
  obtain rfl | ⟨waits, rfl⟩ := h
  · exact h'
  · obtain rfl | ⟨-, rfl⟩ := h'
    · exact .inr ⟨waits, rfl⟩
    · exact .inr ⟨waits, rfl⟩

theorem Woken.wokenBy (s : State) (l n : Nat) (y : Strand) : Woken y (s.wokenBy l n y) := by
  unfold State.wokenBy
  split
  · next h =>
    simp only [Bool.and_eq_true] at h
    exact .inr ⟨h.1.1.1, rfl⟩
  · exact .inl rfl

theorem Woken.trans_all {a b c : List Strand} (h : List.Forall₂ Woken a b) (h' : List.Forall₂ Woken b c) :
    List.Forall₂ Woken a c := by
  induction h generalizing c with
  | nil => exact h'
  | cons here _ ih =>
    cases h' with
    | cons here' rest => exact .cons (here.trans here') (ih rest)

/-- From `s` to `t` bytes have changed, and waiters for barrier words among the other strands may have woken. -/
def OnlyStored (s t : State) : Prop :=
  t = { s with m := { s.m with mem := t.m.mem }, others := t.others } ∧ List.Forall₂ Woken s.others t.others

theorem OnlyStored.refl (s : State) : OnlyStored s s := ⟨rfl, List.forall₂_same.mpr fun _ _ => .inl rfl⟩

theorem OnlyStored.trans {u : State} (a : OnlyStored s t) (b : OnlyStored t u) : OnlyStored s u := by
  obtain ⟨ea, wa⟩ := a
  obtain ⟨eb, wb⟩ := b
  refine ⟨?_, Woken.trans_all wa wb⟩
  rw [eb, ea]

/-- The store of a list of lanes, lowest first, `bs` giving the bytes of each. -/
def State.storeLanes (s : State) (bs : Nat × Word × Place → List Byte) (ps : List (Nat × Word × Place)) : State :=
  ps.foldl (fun s q => s.storeAt q.2.2 (bs q)) s

theorem State.storeLanes_cons (bs : Nat × Word × Place → List Byte) (q : Nat × Word × Place) (ps : List (Nat × Word × Place)) :
    t.storeLanes bs (q :: ps) = (t.storeAt q.2.2 (bs q)).storeLanes bs ps := rfl

theorem State.stored_only (p : Place) (bs : List Byte) : OnlyStored t (t.stored p bs) := by
  refine ⟨rfl, ?_⟩
  show List.Forall₂ Woken t.others (if p.glob then t.others else t.others.map ((t.wrBytes p.loc bs).wokenBy p.loc bs.length))
  split
  · exact List.forall₂_same.mpr fun _ _ => .inl rfl
  · exact List.forall₂_map_right_iff.mpr (List.forall₂_same.mpr fun y _ => Woken.wokenBy _ _ _ y)

theorem State.storeLanes_only {bs : Nat × Word × Place → List Byte} {ps : List (Nat × Word × Place)}
    (plain : ∀ q ∈ ps, t.isPoisoned q.2.2.loc = false ∧ (q.2.2.glob = true → t.tag q.2.2.loc = .value)) :
    OnlyStored t (t.storeLanes bs ps) := by
  induction ps generalizing t with
  | nil => exact .refl t
  | cons q ps ih =>
    obtain ⟨good, value⟩ := plain q (List.mem_cons_self ..)
    have rest := ih (t := t.stored q.2.2 (bs q)) fun p h => plain p (List.mem_cons_of_mem _ h)
    rw [← t.storeAt_stored (bs q) good value] at rest
    exact (t.storeAt_stored (bs q) good value ▸ t.stored_only q.2.2 (bs q)).trans rest

/-- A place's range of `n` bytes holds a location. -/
def coversLoc (n c : Nat) (q : Nat × Word × Place) : Bool := decide (q.2.2.loc ≤ c) && decide (c < q.2.2.loc + n)

/-- Each byte is that of the last lane that writes it. -/
theorem State.storeLanes_byteAt {n : Nat} {v : Nat × Word × Place → Nat} {ps : List (Nat × Word × Place)} (ok : t.memOk)
    (plain : ∀ q ∈ ps, t.isPoisoned q.2.2.loc = false ∧ (q.2.2.glob = true → t.tag q.2.2.loc = .value)) (c : Nat) :
    (t.storeLanes (fun q => leBytes n (v q)) ps).byteAt c = match (ps.filter (coversLoc n c)).getLast? with
      | some q => BitVec.ofNat 8 (v q / 256 ^ (c - q.2.2.loc))
      | none => t.byteAt c := by
  induction ps generalizing t with
  | nil => rfl
  | cons q ps ih =>
    obtain ⟨good, value⟩ := plain q (List.mem_cons_self ..)
    have wrote : (t.stored q.2.2 (leBytes n (v q))).byteAt c =
        if q.2.2.loc ≤ c ∧ c < q.2.2.loc + n then BitVec.ofNat 8 (v q / 256 ^ (c - q.2.2.loc)) else t.byteAt c :=
      t.byteAt_wr ok q.2.2.loc n (v q) c
    have ok' : (t.stored q.2.2 (leBytes n (v q))).memOk := t.memOk_wr ok q.2.2.loc n (v q)
    rw [State.storeLanes_cons, t.storeAt_stored _ good value, ih ok' fun p h => plain p (List.mem_cons_of_mem _ h), wrote, List.filter_cons]
    by_cases hit : q.2.2.loc ≤ c ∧ c < q.2.2.loc + n
    · rw [if_pos hit, if_pos (by simp [coversLoc, hit]), List.getLast?_cons]
      cases (ps.filter (coversLoc n c)).getLast? <;> rfl
    · rw [if_neg hit, if_neg (by simpa [coversLoc] using hit)]

/-- Lanes that all go to this module are stored in order. -/
theorem State.storeAll_passes {op : Nat} {ps : List (Nat × Word × Place)} (bs : Nat × Word × Place → List Byte)
    (near : ∀ q ∈ ps, q.2.2.remote = false) : t.storeAll op ps (ps.map bs) = (t.dropAnswers.storeLanes bs ps).adv := by
  have lane (u : State) (q : Nat × Word × Place) (h : q ∈ ps) : u.storeLane op q (bs q) = u.storeAt q.2.2 (bs q) := by
    simp [State.storeLane, near q h]
  have fold (u : State) : (ps.zip (ps.map bs)).foldl (fun s x => s.storeLane op x.1 x.2) u = u.storeLanes bs ps := by
    rw [State.storeLanes, show ps.zip (ps.map bs) = ps.map (fun q => (q, bs q)) by
      simpa using List.zip_map' (f := id) (g := bs) (l := ps), List.foldl_map]
    exact List.foldl_ext _ _ _ fun u q h => lane u q h
  have kept (zs : List ((Nat × Word × Place) × List Byte)) (h : ∀ z ∈ zs, z.1.2.2.remote = false) : lastLanes zs = zs := by
    induction zs with
    | nil => rfl
    | cons z zs ih =>
      rw [lastLanes, if_neg (by simp [h z (List.mem_cons_self ..)]), ih fun y hy => h y (List.mem_cons_of_mem _ hy)]
  unfold State.storeAll
  split
  · next q b e =>
    obtain rfl : bs q = b := by simpa using e
    simp [near q (List.mem_cons_self ..), lane _ q (List.mem_cons_self ..), State.storeLanes]
  · next ps _ _ _ =>
    have none : (ps.any fun q => q.2.2.remote) = false := List.any_eq_false.mpr fun q h => by simp [near q h]
    dsimp only
    rw [none, kept _ fun z h => near z.1 (List.of_mem_zip h).1, fold]
    rfl

theorem State.vstore_passes {r : BitVec 4} {e : Nat} {ls : List (Nat × Word)} {ps : List (Nat × Word × Place)} {t₀ : State}
    (checked : s.check s.self.site .any .store e e ls = (.ok ps, t₀)) :
    let t := (t₀.underKeys ps).dropAnswers
    (∀ q, q ∈ ps → q.2.2.remote = false ∧ t.isPoisoned q.2.2.loc = false ∧ (q.2.2.glob = true → t.tag q.2.2.loc = .value)) →
    s.vstore r e ls = .next (t.storeLanes (fun q => leBytes e (lane (s.lanes r) q.1).toNat) ps).adv := by
  intro t plain
  let u := t₀.underKeys ps
  have near (q : Nat × Word × Place) (h : q ∈ ps) : q.2.2.remote = false := (plain q h).1
  have asks : u.toProbe true e ps = none := by
    have due (q : Nat × Word × Place) (h : q ∈ ps) : u.farLane q = false := by simp [State.farLane, near q h]
    unfold State.toProbe
    dsimp only
    split
    · rfl
    · simp [due _ (List.mem_singleton.mpr rfl)]
    · exact List.find?_eq_none.mpr fun q h => by simp [due q h]
  have stops : ps.findSome? (u.storeStop e) = none := by
    refine List.findSome?_eq_none_iff.mpr fun q h => ?_
    obtain ⟨-, good, value⟩ := plain q h
    have good : u.isPoisoned q.2.2.loc = false := good
    have free : (q.2.2.cpage && u.tag q.2.2.loc == .eclosing) = false := by
      cases glob : q.2.2.glob
      · rw [State.check_local_noCells checked q h glob, Bool.false_and]
      · rw [show u.tag q.2.2.loc = .value from value glob]
        simp
    simp only [State.storeStop, near q h, good, free, Bool.false_and, Bool.false_eq_true, if_false]
  have data : ls.map (fun p => leBytes e (lane (s.lanes r) p.1).toNat) = ps.map (fun q => leBytes e (lane (s.lanes r) q.1).toNat) := by
    have named := congrArg (List.map fun j => leBytes e (lane (s.lanes r) j).toNat) (State.check_lanesOf checked)
    simpa only [List.map_map, Function.comp_def] using named.symm
  unfold State.vstore State.store
  rw [checked, data]
  refine congrArg _ ?_
  dsimp only [State.afterCheck]
  rw [show t₀.underKeys ps = u from rfl, asks, stops]
  exact State.storeAll_passes _ near

theorem contigAddrs_eq {a : BitVec 6} {w : BitVec 2} {o : BitVec 11} {A : Nat → Word} {on : Nat → Bool}
    (addr : ∀ j, A j = s.getG a + BitVec.ofInt 64 (o.toInt * (16 * (2 ^ w.toNat : Nat))) + w64 (j * 2 ^ w.toNat))
    (all : ∀ j, on j = true) : s.contigAddrs a w o = ((List.range s.laneCount).filter on).map (fun j => (j, A j)) := by
  rw [List.filter_eq_self.mpr fun j _ => all j]
  refine List.map_congr_left fun j _ => ?_
  rw [addr, s.mAddr_eq]
  simp [elemBytes]

/-- Settles O21. -/
theorem vectorMemoryCompletes : Obligations.VectorMemoryCompletes := by
  unfold Obligations.VectorMemoryCompletes
  constructor
  · intro s t₀ d a b iv k n w o i A on ps e gang narrow form checked t passes
    have addrs : exec i s = s.vload d e e (n == 1#1) (((List.range s.laneCount).filter on).map (fun j => (j, A j))) := by
      obtain ⟨rfl, addr, all⟩ | ⟨rfl, addr, rfl⟩ | ⟨rfl, addr, rfl⟩ := form
      · exact congrArg (s.vload d e e (n == 1#1)) (contigAddrs_eq addr all)
      · exact congrArg (s.vload d e e (n == 1#1)) (laneAddrs_filter s.laneCount addr)
      · exact congrArg (s.vload d e e (n == 1#1)) (laneAddrs_filter s.laneCount addr)
    rw [addrs]
    exact State.vload_passes gang narrow (by simp [Function.comp_def]) checked passes
  · intro s t₀ r a b iv k w o i A on ps e form checked t ok plain
    have addrs : exec i s = s.vstore r e (((List.range s.laneCount).filter on).map (fun j => (j, A j))) := by
      obtain ⟨rfl, addr, all⟩ | ⟨rfl, addr, rfl⟩ | ⟨rfl, addr, rfl⟩ := form
      · exact congrArg (s.vstore r e) (contigAddrs_eq addr all)
      · exact congrArg (s.vstore r e) (laneAddrs_filter s.laneCount addr)
      · exact congrArg (s.vstore r e) (laneAddrs_filter s.laneCount addr)
    have plain' (q : Nat × Word × Place) (h : q ∈ ps) := (plain q h).2
    obtain ⟨only, woken⟩ := State.storeLanes_only (bs := fun q => leBytes e (lane (s.lanes r) q.1).toNat) plain'
    refine ⟨_, addrs.trans (State.vstore_passes checked plain), ?_, ?_, woken.length_eq.symm, fun y hy => ?_, fun c => ?_⟩
    · exact (State.check_lanesOf checked).trans (by simp [Function.comp_def])
    · rw [only]
      rfl
    · exact (List.forall₂_iff_zip.mp woken).2 hy
    · exact State.storeLanes_byteAt ok plain' c

end Sys2Proof.Machine
end

