-- ==== Sys2Proof/Proofs/TlbEvents.lean ====
section
/-! PROOF. TLBI, its completion, and walks (O27). -/
namespace Sys2Proof.Machine

variable {s t : State} {x : Site}

/-! ## TLB entries that enter and leave (R406, R410) -/

/-- An entry that enters its TLB drives out no pinned one and none of another TLB. -/
theorem tlbInsert_spec (l : List TlbEntry) (e : TlbEntry) : e ∈ tlbInsert l e ∧ (∀ y ∈ tlbInsert l e, y = e ∨ y ∈ l) ∧
    ∀ y ∈ l, y.pin.isSome = true ∨ e.holder ≠ y.holder → y ∈ tlbInsert l e := by
  unfold tlbInsert
  dsimp only
  split
  · exact ⟨List.mem_cons_self .., fun y h => List.mem_cons.mp h, fun y h _ => List.mem_cons_of_mem _ h⟩
  · next old last =>
    have oldest := List.mem_of_getLast? last
    simp only [List.mem_filter, beq_iff_eq] at oldest
    obtain ⟨⟨-, mine⟩, unpinned⟩ := oldest
    refine ⟨List.mem_cons_self .., fun y h => ?_, fun y h keeps => List.mem_cons_of_mem _ ?_⟩
    · obtain h | h := List.mem_cons.mp h
      · exact .inl h
      · split at h
        · exact .inr h
        · exact .inr (List.mem_of_mem_erase h)
    · split
      · exact h
      · have other : y ≠ old := by
          rintro rfl
          obtain pinned | apart := keeps
          · simp [unpinned] at pinned
          · exact apart mine.symm
        exact (List.mem_erase_of_ne other).mpr h

/-- From `s` to `t` TLBs alone have changed: `new` has come in, and pinned entries and those of other TLBs stay. -/
def Filled (new : List TlbEntry) (s t : State) : Prop :=
  t = { s with m := { s.m with tlb := t.m.tlb } } ∧ (∀ e ∈ new, e ∈ t.m.tlb) ∧ (∀ y ∈ t.m.tlb, y ∈ new ∨ y ∈ s.m.tlb) ∧
    ∀ y ∈ s.m.tlb, y.pin.isSome = true ∨ (∀ e ∈ new, e.holder ≠ y.holder) → y ∈ t.m.tlb

theorem Filled.none (s : State) : Filled [] s s := ⟨rfl, by simp, fun y h => .inr h, fun y h _ => h⟩

theorem State.tlbFill_one (e : TlbEntry) (h : TlbHolder) : Filled [{ e with holder := h }] s (s.tlbFill e [h]) := by
  obtain ⟨inside, came, keeps⟩ := tlbInsert_spec s.m.tlb { e with holder := h }
  refine ⟨rfl, List.forall_mem_singleton.mpr inside, fun y hy => ?_, fun y hy stays => keeps y hy ?_⟩
  · simpa using came y hy
  · exact stays.imp_right fun apart => apart _ (List.mem_singleton.mpr rfl)

theorem State.tlbFill_two (e : TlbEntry) {h k : TlbHolder} (ne : k ≠ h) :
    Filled [{ e with holder := h }, { e with holder := k }] s (s.tlbFill e [h, k]) := by
  obtain ⟨inside, came, keeps⟩ := tlbInsert_spec s.m.tlb { e with holder := h }
  obtain ⟨inside', came', keeps'⟩ := tlbInsert_spec (tlbInsert s.m.tlb { e with holder := h }) { e with holder := k }
  refine ⟨rfl, ?_, fun y hy => ?_, fun y hy stays => ?_⟩
  · have first := keeps' _ inside (.inr ne)
    simpa using ⟨first, inside'⟩
  · obtain rfl | hy := came' y hy
    · simp
    · obtain rfl | hy := came y hy
      · simp
      · exact .inr hy
  · refine keeps' y (keeps y hy (stays.imp_right fun apart => apart _ (by simp))) (stays.imp_right fun apart => apart _ (by simp))

/-! ## Translation (R406, R407) -/

/-- The entry of a TLB that translates the address for the site. -/
def TlbEntry.hits (y : TlbEntry) (x : Site) (va : Nat) (h : TlbHolder) : Bool :=
  y.holder == h && !y.stale && y.covers x.part x.asid va

section
variable {h k : TlbHolder} {va : Nat}

theorem State.translate_first (found : ∃ y ∈ s.m.tlb, y.hits x va h = true) : Filled [] s (s.translate x [h, k] va).2 := by
  obtain ⟨y, inside, hit⟩ := found
  cases first : s.m.tlb.find? (fun e => e.hits x va h) with
  | none => exact absurd hit (by simpa using List.find?_eq_none.mp first y inside)
  | some e =>
    have holder : e.holder = h := by
      have := List.find?_some first
      simp only [TlbEntry.hits, Bool.and_eq_true, beq_iff_eq] at this
      exact this.1.1
    unfold TlbEntry.hits at first
    simp only [State.translate, List.findSome?_cons, first, List.head?_cons, holder, beq_self_eq_true, if_true]
    exact .none s

variable (missed : ∀ y ∈ s.m.tlb, y.hits x va h = false)
include missed

theorem State.translate_second (ne : k ≠ h) {e : TlbEntry} (found : s.m.tlb.find? (fun e => e.hits x va k) = some e) :
    Filled [{ e with pin := none, holder := h }] s (s.translate x [h, k] va).2 := by
  have first : s.m.tlb.find? (fun e => e.hits x va h) = none := List.find?_eq_none.mpr fun y hy => by simp [missed y hy]
  have holder : e.holder = k := by
    have := List.find?_some found
    simp only [TlbEntry.hits, Bool.and_eq_true, beq_iff_eq] at this
    exact this.1.1
  unfold TlbEntry.hits at first found
  have other : (some h == some e.holder) = false := by
    rw [holder]
    simpa using ne.symm
  simp only [State.translate, List.findSome?_cons, first, found, List.head?_cons, other, Bool.false_eq_true, if_false]
  exact State.tlbFill_one _ h

theorem State.translate_walks (missed' : ∀ y ∈ s.m.tlb, y.hits x va k = false) :
    (∀ e, s.walk x va = .found e → (s.translate x [h, k] va).2 = s.tlbFill e [h, k]) ∧
    (s.walk x va = .absent ∨ s.walk x va = .malformed → (s.translate x [h, k] va).2 = s) := by
  have first : s.m.tlb.find? (fun e => e.hits x va h) = none := List.find?_eq_none.mpr fun y hy => by simp [missed y hy]
  have second : s.m.tlb.find? (fun e => e.hits x va k) = none := List.find?_eq_none.mpr fun y hy => by simp [missed' y hy]
  unfold TlbEntry.hits at first second
  simp only [State.translate, List.findSome?_cons, first, second, List.findSome?_nil]
  refine ⟨fun e found => ?_, fun fails => ?_⟩
  · rw [found]
  · obtain fails | fails := fails <;> rw [fails]

end

/-! ## The end of a TLBI (R193, R408, R410) -/

theorem State.mem_tlbDrop {p : TlbEntry → Bool} {e : TlbEntry} : e ∈ (s.tlbDrop p).m.tlb ↔
    (e ∈ s.m.tlb ∧ p e = false) ∨ ∃ y ∈ s.m.tlb, p y = true ∧ y.pin.isSome = true ∧ e = { y with stale := true } := by
  simp only [State.tlbDrop, List.mem_filterMap]
  constructor
  · rintro ⟨y, inside, is⟩
    split at is
    · next drops =>
      split at is
      · next pinned => exact .inr ⟨y, inside, drops, pinned, (Option.some.inj is).symm⟩
      · cases is
    · next keeps =>
      obtain rfl := Option.some.inj is
      exact .inl ⟨inside, by simpa using keeps⟩
  · rintro (⟨inside, keeps⟩ | ⟨y, inside, drops, pinned, rfl⟩)
    · exact ⟨e, inside, by simp [keeps]⟩
    · exact ⟨y, inside, by simp [drops, pinned]⟩

/-- No entry of its scope that a TLBI names stays, but pinned ones, which are stale. -/
theorem State.tlbDrop_stale {t : Strand} {scope form : Nat} {y : Word} {e : TlbEntry}
    (inside : e ∈ (s.tlbDrop (t.drops scope form y)).m.tlb) (within : e.holder.inScope t.id scope = true)
    (named : e.named t.id.part t.ctl.asid.toNat form y = true) : e.pin.isSome = true ∧ e.stale = true := by
  obtain ⟨-, keeps⟩ | ⟨y, -, -, pinned, rfl⟩ := State.mem_tlbDrop.mp inside
  · simp [Strand.drops, within, named] at keeps
  · exact ⟨pinned, rfl⟩

/-! ## Settled -/

/-- TLBI in S mode is issued, but for an ASID outside the partition; in U mode each form raises PRIV. -/
theorem tlbi_issues (s : State) (a : BitVec 6) (c : BitVec 3) (i : Instr) :
    let p := s.part s.self.id.part
    let inside : Prop := p.asidBase ≤ (s.getG a).toNat % 512 ∧ (s.getG a).toNat % 512 < p.asidBase + p.asidCnt
    (s.self.ctl.sMode = true → exec (.tlbiPage a c) s = .next (s.tlbi c.toNat 0 (s.getG a)) ∧
      exec (.tlbiPart c) s = .next (s.tlbi c.toNat 2 0#64) ∧
      (inside → exec (.tlbiAsid a c) s = .next (s.tlbi c.toNat 1 (s.getG a))) ∧
      (¬ inside → s.canTrap → exec (.tlbiAsid a c) s = .next (s.trapped s.self.pc (protTrap (s.getG a) 7)))) ∧
    (s.self.ctl.sMode = false → s.canTrap → i = .tlbiPage a c ∨ i = .tlbiAsid a c ∨ i = .tlbiPart c →
      exec i s = .next (s.trapped s.self.pc (privTrap (insWord i)))) := by
  intro p inside
  have low : bits (s.getG a) 8 0 = (s.getG a).toNat % 512 := by simp [bits, natBits]
  refine ⟨fun super => ⟨?_, ?_, fun within => ?_, fun beyond can => ?_⟩, fun user can form => ?_⟩
  · exact congrArg _ ((s.privileged_cases _ _).1 super)
  · exact congrArg _ ((s.privileged_cases _ _).1 super)
  · refine congrArg _ (((s.privileged_cases _ _).1 super).trans ?_)
    dsimp only
    rw [low, if_pos within]
  · refine congrArg _ (((s.privileged_cases _ _).1 super).trans ?_)
    dsimp only
    rw [low, if_neg beyond, s.trap_eq can]
  · obtain rfl | rfl | rfl := form
    all_goals exact congrArg _ (((s.privileged_cases _ _).2 user).trans (s.trap_eq can _))

theorem execWalkComplete_eq {uid : Nat} {t : Strand} (h : s.strand? uid = some t) (stays : t.resident = true) (va : Word) :
    exec (.walkComplete uid va) s = .next (s.translate t.site t.site.tlbs va.toNat).2 := by
  show execWalkComplete uid va s = _
  rw [execWalkComplete, h]
  exact if_pos stays

/-- Settles O27. -/
theorem tlbInvalidationAndEvents : Obligations.TlbInvalidationAndEvents := by
  unfold Obligations.TlbInvalidationAndEvents
  refine ⟨fun s a c i => tlbi_issues s a c i, fun s uid t scope form y va h => ⟨fun issued ended => ?_, fun stays => ?_⟩⟩
  · obtain ⟨-, -, named⟩ := s.strand?_some h
    have run : exec (.tlbiComplete uid) s = .next ((s.tlbDrop (t.drops scope form y)).mapStrand uid
        (fun t => { t with waits := { t.waits with tlbi := none } })) := by
      show execTlbiComplete uid s = _
      rw [execTlbiComplete, h]
      dsimp only
      rw [issued]
      exact if_neg (by simp [ended])
    refine ⟨_, run, fun e inside within isNamed => State.tlbDrop_stale inside within isNamed, fun e inside beyond => ?_, rfl,
      ?_⟩
    · exact State.mem_tlbDrop.mpr (.inl ⟨inside, by simp [Strand.drops, beyond]⟩)
    · have found : (s.tlbDrop (t.drops scope form y)).strand? uid = some t := h
      subst named
      exact ⟨_, State.strand?_mapStrand found (fun _ => rfl) fun _ => rfl, rfl, rfl, rfl, rfl, rfl⟩
  · intro hit l1 l2 filled
    have apart : l2 ≠ l1 := by simp [l1, l2]
    have does {new : List TlbEntry} (f : Filled new s (s.translate t.site [l1, l2] va.toNat).2) : filled new :=
      ⟨_, execWalkComplete_eq h stays va, f⟩
    refine ⟨?_, fun found => does (State.translate_first found), fun missed => ⟨fun e found => ?_, fun missed' => ?_⟩⟩
    · obtain ⟨l, only⟩ := s.translate_only (x := t.site) t.site.tlbs va.toNat
      exact ⟨_, execWalkComplete_eq h stays va, by rw [only]; rfl⟩
    · exact does (State.translate_second missed apart found)
    · obtain ⟨fills, keeps⟩ := State.translate_walks (s := s) (x := t.site) (va := va.toNat) missed missed'
      refine ⟨fun e found => does ?_, fun fails => does ?_⟩
      · rw [fills e found]
        exact State.tlbFill_two e apart
      · rw [keeps fails]
        exact .none s

end Sys2Proof.Machine
end

