-- ==== Sys2Proof/Proofs/CellForms.lean ====
section
/-! PROOF. Cell instructions at a cell of this module (O33). -/
namespace Sys2Proof.Machine

variable {s t : State}

/-! ## Words of a cell (R60, R290) -/

/-- A word of bytes that have been written. -/
theorem State.rd_wrBytes_part (ok : s.memOk) (l : Nat) (bs : List Byte) {k n : Nat} (h : k + n ≤ bs.length) :
    (s.wrBytes l bs).rd (l + k) n = leNat ((bs.drop k).take n) := by
  refine congrArg leNat (List.ext_getElem (by simp; omega) fun i h1 h2 => ?_)
  have lt : i < n := by simpa using h1
  simp only [State.wrBytes_m, memBytes_eq, List.getElem_map, List.getElem_range, memGet_memWrite bs ok]
  rw [if_pos (by omega), show l + k + i - l = k + i by omega]
  simp [List.getD_eq_getElem?_getD, show k + i < bs.length by omega]

/-- Words in memory order. -/
def cellBytes (ws : List Word) : List Byte := ws.flatMap (fun w => leBytes 8 w.toNat)

theorem length_cellBytes (ws : List Word) : (cellBytes ws).length = 8 * ws.length := by
  induction ws with
  | nil => rfl
  | cons w ws ih =>
    rw [cellBytes, List.flatMap_cons, List.length_append, leBytes_length, ← cellBytes, ih, List.length_cons]
    omega

theorem cellBytes_part (ws : List Word) {j : Nat} (h : j < ws.length) :
    ((cellBytes ws).drop (8 * j)).take 8 = leBytes 8 (ws.getD j 0#64).toNat := by
  induction ws generalizing j with
  | nil => simp at h
  | cons w ws ih =>
    rw [cellBytes, List.flatMap_cons, ← cellBytes]
    cases j with
    | zero => simp
    | succ j =>
      have skip : (leBytes 8 w.toNat ++ cellBytes ws).drop (8 * (j + 1)) = (cellBytes ws).drop (8 * j) := by
        rw [show 8 * (j + 1) = (leBytes 8 w.toNat).length + 8 * j by rw [leBytes_length]; omega, List.drop_length_add_append]
      rw [skip, ih (by simpa using h)]
      simp

/-- A cell filled with words, the rest of it zero (R188, R299). -/
theorem State.filled_words (ok : s.memOk) (c : Nat) {ws : List Word} (fits : ws.length ≤ 4) :
    let u := (s.wr c 32 0).wrBytes c (cellBytes ws)
    (∀ j, j < 4 → u.rd (c + 8 * j) 8 = (ws.getD j 0#64).toNat) ∧ SameBytesBut c 32 s u := by
  intro u
  have zeroed := s.memOk_wr ok c 32 0
  have length := length_cellBytes ws
  refine ⟨fun j lt => ?_, fun a apart => ?_⟩
  · obtain inside | beyond := Nat.lt_or_ge j ws.length
    · rw [State.rd_wrBytes_part zeroed c _ (by omega), cellBytes_part ws inside, leNat_leBytes]
      exact Nat.mod_eq_of_lt (ws.getD j 0#64).isLt
    · have untouched : u.rd (c + 8 * j) 8 = (s.wr c 32 0).rd (c + 8 * j) 8 :=
        congrArg leNat (State.rdBytes_wrBytes_apart zeroed c (cellBytes ws) (.inr (by omega)))
      have zero : (leBytes 32 0).drop (8 * j) = leBytes (32 - 8 * j) 0 := by
        have : ∀ j : Fin 4, (leBytes 32 0).drop (8 * j.val) = leBytes (32 - 8 * j.val) 0 := by decide
        exact this ⟨j, lt⟩
      have zero' : (leBytes (32 - 8 * j) 0).take 8 = leBytes 8 0 := by
        have : ∀ j : Fin 4, (leBytes (32 - 8 * j.val) 0).take 8 = leBytes 8 0 := by decide
        exact this ⟨j, lt⟩
      rw [untouched, State.wr, State.rd_wrBytes_part ok c _ (by rw [leBytes_length]; omega), zero, zero', leNat_leBytes,
        List.getD_eq_getElem?_getD, List.getElem?_eq_none beyond]
      rfl
  · refine (State.sameBytesBut_wrBytes zeroed c (cellBytes ws) a (by omega)).trans ?_
    exact State.sameBytesBut_wr ok c 32 0 a apart

/-- A word of a number that has been written. -/
theorem State.rd_wr_part (ok : s.memOk) (l n y : Nat) {k : Nat} (h : k + 8 ≤ n) :
    (s.wr l n y).rd (l + k) 8 = y / 256 ^ k % 256 ^ 8 := by
  have part : ((leBytes n y).drop k).take 8 = leBytes 8 (y / 256 ^ k) := by
    refine List.ext_getElem (by simp; omega) fun i h1 h2 => ?_
    have lt : i < 8 := by simpa using h2
    have left := leBytes_getD n y (k + i) (by omega)
    have right := leBytes_getD 8 (y / 256 ^ k) i lt
    rw [Nat.div_div_eq_div_mul, ← pow_add] at right
    rw [List.getD_eq_getElem _ _ (by rw [leBytes_length]; omega)] at left right
    rw [List.getElem_take, List.getElem_drop, left, right]
  rw [State.wr, State.rd_wrBytes_part ok l _ (by rw [leBytes_length]; exact h), part, leNat_leBytes]

/-! ## What an eclosion's end and a charge leave (R307, R393) -/

@[simp] theorem State.wakeWaiter_m (part pa : Nat) (w : Waiter) : (s.wakeWaiter part pa w).m = s.m := by
  cases w with
  | strand uid => rfl
  | mp rid row key => rfl
  | remote m rq =>
    obtain ⟨h, e⟩ := s.sendLink_only part (paDie pa) (some pa) (.wake m rq)
    show (s.sendLink part (paDie pa) (some pa) (.wake m rq)).m = s.m
    rw [e]

@[simp] theorem State.endEclosion_m (e : Eclosion) : (s.endEclosion e).m = s.m :=
  foldl_keeps (g := State.m) (fun _ w => State.wakeWaiter_m _ _ w) e.waiters _

namespace ParksOnly

theorem wakeWaiter (s : State) (part pa : Nat) (w : Waiter) : ParksOnly s (s.wakeWaiter part pa w) := by
  cases w with
  | strand uid =>
    refine mapStrands s fun y => ?_
    split
    · dsimp only
      split
      · exact .inr rfl
      · exact .inl rfl
    · exact .inl rfl
  | mp rid row key => exact of_eq rfl rfl
  | remote m rq =>
    obtain ⟨h, e⟩ := s.sendLink_only part (paDie pa) (some pa) (.wake m rq)
    show ParksOnly s (s.sendLink part (paDie pa) (some pa) (.wake m rq))
    rw [e]
    exact of_eq rfl rfl

theorem endEclosion (s : State) (e : Eclosion) : ParksOnly s (s.endEclosion e) :=
  (of_eq (t := { s with cells := { s.cells with eclosions := s.cells.eclosions.filter (fun x => x.eid != e.eid) } })
    rfl rfl).trans (foldl (fun s w => wakeWaiter s e.site.part e.cell w) e.waiters _)

/-- The seat is the same but for its park. -/
theorem unparked (h : ParksOnly s t) : { t.self with park := s.self.park } = s.self := by
  obtain ⟨g, hg, self, -⟩ := h
  obtain ⟨p, hp⟩ := hg s.self
  rw [self, hp]

theorem pc (h : ParksOnly s t) : t.self.pc = s.self.pc := by
  have same := congrArg Strand.pc h.unparked
  exact same
theorem site (h : ParksOnly s t) : t.self.site = s.self.site := by
  have same := congrArg Strand.site h.unparked
  exact same
theorem id (h : ParksOnly s t) : t.self.id = s.self.id := by
  have same := congrArg Strand.id h.unparked
  exact same

end ParksOnly

/-- A charge writes bytes and full/empty bits of notify words, and no other part of memory. -/
theorem State.charge_memory (part die which n : Nat) :
    ∃ l e, (s.charge part die which n).m = { s.m with mem := l, empties := e } := by
  have signalled (u : State) (f v : Nat) : (u.signal f v).m = u.m := by
    simp only [State.signal]
    split
    · rfl
    · split <;> rfl
  have raised (u : State) (b : Subscription) : ∃ l e, (u.raise part b 0).m = { u.m with mem := l, empties := e } := by
    unfold State.raise
    extract_lets w
    obtain ⟨l, e, told⟩ : ∃ l e, w.m = { u.m with mem := l, empties := e } := by
      simp only [w]
      split
      · exact ⟨_, _, rfl⟩
      · exact ⟨_, _, rfl⟩
    split
    · exact ⟨l, e, told⟩
    · exact ⟨l, e, (signalled w _ _).trans told⟩
  have all (bs : List Subscription) (u : State) :
      ∃ l e, (bs.foldl (fun s b => s.raise part b 0) u).m = { u.m with mem := l, empties := e } := by
    induction bs generalizing u with
    | nil => exact ⟨_, _, rfl⟩
    | cons b bs ih =>
      obtain ⟨l, e, first⟩ := raised u b
      obtain ⟨l', e', rest⟩ := ih (u.raise part b 0)
      exact ⟨l', e', rest.trans (by rw [first])⟩
  unfold State.charge
  dsimp only
  split
  · exact ⟨_, _, rfl⟩
  · split
    · exact all _ _
    · exact ⟨_, _, rfl⟩

theorem State.charge_tag (part die which n pa : Nat) : (s.charge part die which n).tag pa = s.tag pa := by
  obtain ⟨l, e, m⟩ := s.charge_memory part die which n
  rw [State.tag, m]
  rfl

/-- The tag that the eclosion step leaves a cell (R295). -/
theorem State.eclose_tag {x : Site} {pa : Nat} (cell : pa % 32 = 0) (was : s.tag pa = .chrysalis) (va : Word) :
    (s.eclose x false pa va none).2.tag pa =
      (if s.entryInvalid x false (w64 (s.rd pa 8)) (w64 (s.rd (pa + 16) 8)) then .poison
       else if s.sliceFull pa && decide (s.overflowCap x.part ≤ s.overflowUsed x.part) then .chrysalis else .eclosing) ∧
    ParksOnly s (s.eclose x false pa va none).2 := by
  have here : pa / 32 * 32 = pa := by omega
  have tagged (u : State) (y : Tag) : (u.setTag pa y).tag pa = y := (u.tag_setTag pa pa y).trans (if_pos rfl)
  unfold State.eclose
  simp only [here, Nat.mul_zero, Nat.add_zero, Nat.reduceMul]
  split
  · exact ⟨tagged _ _, .of_eq rfl rfl⟩
  · by_cases full : s.sliceFull pa = true ∧ s.overflowCap x.part ≤ s.overflowUsed x.part
    · rw [if_pos full, if_pos (by simpa using full)]
      exact ⟨was, .refl s⟩
    · rw [if_neg full, if_neg (by simpa using full), State.charge_tag]
      exact ⟨tagged _ _, (ParksOnly.of_eq rfl rfl).trans (ParksOnly.charge _ _ _ _ _)⟩

/-! ## Cell instructions whose checks pass (R186 to R189) -/

/-- The words of the record that CSUS writes: word 2 with the issuer's SID as CREATOR and its reserved bits zero (R186, R290). -/
theorem State.csusRecord_words (s : State) (b : BitVec 6) :
    let r := (s.csusRecord b).toNat
    w64 (r % 2 ^ 64) = s.getG b ∧ w64 (r / 2 ^ 64 % 2 ^ 64) = s.getG (b + 1#6) ∧
    w64 (r / 2 ^ 128 % 2 ^ 64) =
      (s.getG (b + 2#6) &&& 0xFFFFFFFF000003FF#64) ||| w64 (2 ^ 16 * s.self.sidNat) ∧
    w64 (r / 2 ^ 192 % 2 ^ 64) = s.getG (b + 3#6) := by
  have reg (i : Nat) : s.getGn (b.toNat + i) = s.getG (b + BitVec.ofNat 6 i) := by
    rw [State.getGn, BitVec.ofNat_add, BitVec.ofNat_toNat, BitVec.setWidth_eq]
  have sid : s.self.sidNat < 2 ^ 16 := by
    unfold Strand.sidNat
    split
    · exact BitVec.isLt _
    · decide
  have fields (w : Word) (c : Nat) (lt : c < 2 ^ 16) : w64 (bits w 9 0 + 2 ^ 16 * c + 2 ^ 32 * bits w 63 32) =
      (w &&& 0xFFFFFFFF000003FF#64) ||| w64 (2 ^ 16 * c) := by
    have low : bits w 9 0 = w.toNat % 2 ^ 10 := by simp [bits, natBits]
    have high : bits w 63 32 = w.toNat / 2 ^ 32 := by
      have := w.isLt
      simp only [bits, natBits]
      omega
    have mask : ∀ i : Fin 64, (0xFFFFFFFF000003FF#64).getLsbD i = (decide (i.val < 10) || decide (32 ≤ i.val)) := by decide
    have joined : bits w 9 0 + 2 ^ 16 * c + 2 ^ 32 * bits w 63 32 =
        2 ^ 32 * (w.toNat / 2 ^ 32) ||| (2 ^ 16 * c ||| w.toNat % 2 ^ 10) := by
      rw [low, high, ← Nat.two_pow_add_eq_or_of_lt (by omega : w.toNat % 2 ^ 10 < 2 ^ 16),
        ← Nat.two_pow_add_eq_or_of_lt (by omega)]
      omega
    refine BitVec.eq_of_getLsbD_eq fun i hi => ?_
    rw [BitVec.getLsbD_or, BitVec.getLsbD_and, mask ⟨i, hi⟩, w64, joined, BitVec.getLsbD_ofNat, Nat.testBit_or, Nat.testBit_or,
      Nat.testBit_two_pow_mul, Nat.testBit_div_two_pow, Nat.testBit_mod_two_pow, w64, BitVec.getLsbD_ofNat]
    simp only [hi, decide_true, Bool.true_and, BitVec.testBit_toNat]
    by_cases top : 32 ≤ i
    · simp [top, show ¬ i < 10 by omega]
    · by_cases bottom : i < 10
      · simp [top, bottom, Bool.or_comm]
      · simp [top, bottom]
  have w0 := (s.getG b).isLt
  have w1 := (s.getGn (b.toNat + 1)).isLt
  have w3 := (s.getGn (b.toNat + 3)).isLt
  have w2 : bits (s.getGn (b.toNat + 2)) 9 0 + 2 ^ 16 * s.self.sidNat + 2 ^ 32 * bits (s.getGn (b.toNat + 2)) 63 32 < 2 ^ 64 := by
    simp only [bits, natBits]
    omega
  rw [← reg 1, ← fields _ _ sid, ← reg 2, ← reg 3]
  unfold State.csusRecord
  dsimp only
  generalize bits (s.getGn (b.toNat + 2)) 9 0 + 2 ^ 16 * s.self.sidNat + 2 ^ 32 * bits (s.getGn (b.toNat + 2)) 63 32 = y at w2 ⊢
  generalize s.getG b = x0 at w0 ⊢
  generalize s.getGn (b.toNat + 1) = x1 at w1 ⊢
  generalize s.getGn (b.toNat + 3) = x3 at w3 ⊢
  have fits : x0.toNat + 2 ^ 64 * x1.toNat + 2 ^ 128 * y + 2 ^ 192 * x3.toNat < 2 ^ 256 := by omega
  have whole (k : Nat) (h : 256 ≤ k) := Nat.mod_eq_of_lt (fits.trans_le (Nat.pow_le_pow_right (n := 2) (by decide) h))
  rw [BitVec.toNat_ofNat, whole 512 (by decide)]
  refine ⟨BitVec.eq_of_toNat_eq ?_, BitVec.eq_of_toNat_eq ?_, BitVec.eq_of_toNat_eq ?_, BitVec.eq_of_toNat_eq ?_⟩
  all_goals
    simp only [w64, BitVec.toNat_ofNat]
    omega

section
variable {va : Word} {acc : Acc} {p : Place} {t₀ : State}
  (checked : s.check s.self.site .globalOnly acc 32 32 [(0, va)] = (.ok [(0, va, p)], t₀))
  (near : p.remote = false) (good : (t₀.underKeys [(0, va, p)]).isPoisoned p.loc = false)
include checked near good

theorem State.cellAt_passes (op : Nat) (data : BitVec 512) (far f : Nat → State → State) :
    s.cellAt va acc op data far f = .next (f p.loc (t₀.underKeys [(0, va, p)])) := by
  unfold State.cellAt
  rw [checked]
  simp [State.afterCheck, near, good]

omit near good in
/-- The seat after the checks of a cell instruction: its name and site are as they were. -/
theorem State.cellAt_seat : (t₀.underKeys [(0, va, p)]).self.id = s.self.id ∧
    (t₀.underKeys [(0, va, p)]).self.site = s.self.site := by
  have parks := State.check_parks checked
  rw [State.underKeys_self]
  exact ⟨parks.id, parks.site⟩

end

section
variable {va : Word} {p : Place} {t₀ : State} {e : Eclosion}
  (checked : s.check s.self.site .globalOnly .cellRead 32 32 [(0, va)] = (.ok [(0, va, p)], t₀))
  (near : p.remote = false) (good : (t₀.underKeys [(0, va, p)]).isPoisoned p.loc = false)
include checked near good

/-- The evaluator's instruction is performed at its ECLOSING cell (R188). -/
theorem State.byEvaluator_passes (f : Nat → Eclosion → State → State)
    (tag : (t₀.underKeys [(0, va, p)]).tag p.loc = .eclosing) (entry : (t₀.underKeys [(0, va, p)]).eclosionOf p.loc = some e)
    (mine : e.evaluator = .strand s.self.id.uid) :
    s.byEvaluator va f = .next (f p.loc e (t₀.underKeys [(0, va, p)])).adv := by
  have seat := congrArg StrandId.uid (State.cellAt_seat checked).1
  unfold State.byEvaluator
  rw [State.cellAt_passes checked near good]
  generalize t₀.underKeys [(0, va, p)] = t at tag entry seat ⊢
  rw [← seat] at mine
  simp [tag, entry, mine]

/-- At a cell that is not ECLOSING, or of another evaluator, it raises CELLBUSY (R188). -/
theorem State.byEvaluator_busy (f : Nat → Eclosion → State → State)
    (other : (t₀.underKeys [(0, va, p)]).tag p.loc ≠ .eclosing ∨
      (t₀.underKeys [(0, va, p)]).eclosionOf p.loc = some e ∧ e.evaluator ≠ .strand s.self.id.uid) :
    s.byEvaluator va f = .next ((t₀.underKeys [(0, va, p)]).trap
      (cellBusy va ((t₀.underKeys [(0, va, p)]).tag p.loc).code)) := by
  have seat := congrArg StrandId.uid (State.cellAt_seat checked).1
  unfold State.byEvaluator
  rw [State.cellAt_passes checked near good]
  generalize t₀.underKeys [(0, va, p)] = t at other seat ⊢
  obtain tag | ⟨entry, theirs⟩ := other
  · simp [tag]
  · rw [← seat] at theirs
    by_cases tag : t.tag p.loc = .eclosing
    · simp [tag, entry, theirs]
    · simp [tag]

end

theorem State.endEclosion_tag (e : Eclosion) (pa : Nat) : (s.endEclosion e).tag pa = s.tag pa := by
  rw [State.tag, s.endEclosion_m]
  rfl

/-- The registers that CFIL reads, as words (R188). -/
theorem State.getGn_add (s : State) (b : BitVec 6) (i : Nat) : s.getGn (b.toNat + i) = s.getG (b + BitVec.ofNat 6 i) := by
  rw [State.getGn, BitVec.ofNat_add, BitVec.ofNat_toNat, BitVec.setWidth_eq]

theorem State.setTag_same (s : State) (pa : Nat) (y : Tag) : (s.setTag pa y).tag pa = y :=
  (s.tag_setTag pa pa y).trans (if_pos rfl)

theorem State.sameBytesBut_setTag {l n : Nat} (h : SameBytesBut l n s t) (pa : Nat) (y : Tag) :
    SameBytesBut l n s (t.setTag pa y) := h

theorem State.rd_setTag (s : State) (pa : Nat) (y : Tag) (l n : Nat) : (s.setTag pa y).rd l n = s.rd l n := rfl

/-- The tag of a cell after it is set and an eclosion ends. -/
theorem State.endEclosion_setTag (e : Eclosion) (pa : Nat) (y : Tag) : ((s.setTag pa y).endEclosion e).tag pa = y := by
  rw [State.endEclosion_tag, State.setTag_same]

/-- A record in memory, word by word (R60, R290). -/
theorem State.record_written (ok : t.memOk) (pa r : Nat) (y : Tag) :
    let u := (t.wr pa 32 r).setTag pa y
    SameBytesBut pa 32 t u ∧ u.self = t.self ∧
    ∀ k, k + 8 ≤ 32 → u.rd (pa + k) 8 = r / 2 ^ (8 * k) % 2 ^ 64 := by
  refine ⟨State.sameBytesBut_setTag (t.sameBytesBut_wr ok pa 32 r) pa y, by rw [State.setTag_self, State.wr_self], fun k h => ?_⟩
  have part := t.rd_wr_part ok pa 32 r h
  rw [show (256 : Nat) ^ k = 2 ^ (8 * k) from (pow_mul 2 8 k).symm] at part
  exact (State.rd_setTag _ pa _ _ _).trans part

section
variable {a : BitVec 6} {p : Place} {t₀ : State} (near : p.remote = false)
  (good : (t₀.underKeys [(0, s.getG a, p)]).isPoisoned p.loc = false)
include near good

/-- CSUS at a cell of this module (R186). -/
theorem State.csus_passes {b : BitVec 6}
    (checked : s.check s.self.site .globalOnly .csus 32 32 [(0, s.getG a)] = (.ok [(0, s.getG a, p)], t₀)) :
    exec (.csus a b) s = .next (let t := t₀.underKeys [(0, s.getG a, p)]
      if t.tag p.loc = .eclosing then t.trap (cellBusy (s.getG a) 2)
      else ((t.wr p.loc 32 (s.csusRecord b).toNat).setTag p.loc .chrysalis).adv) := by
  show execCsus a b s = _
  unfold execCsus
  dsimp only
  exact State.cellAt_passes checked near good 14 _ _ _

variable (checked : s.check s.self.site .globalOnly .cellRead 32 32 [(0, s.getG a)] = (.ok [(0, s.getG a, p)], t₀))
include checked

/-- CTAG at a cell of this module (R189). -/
theorem State.ctag_passes {d : BitVec 6} : exec (.ctag d a) s =
    .next (let t := t₀.underKeys [(0, s.getG a, p)]; (t.wrote d (w64 (t.tag p.loc).code)).markBusy [.g d]) := by
  show execCtag d a s = _
  unfold execCtag
  dsimp only
  rw [State.cellAt_passes checked near good, State.setG_markBusy_adv]

/-- CFRC at a cell of this module (R187). -/
theorem State.cfrc_passes : exec (.cfrc a) s = .next (let t := t₀.underKeys [(0, s.getG a, p)]
    if t.tag p.loc = .chrysalis then
      (if t.cellHeld p.loc then t else (t.eclose t.self.site false p.loc (s.getG a) none).2.adv) else t.adv) := by
  show execCfrc a s = _
  unfold execCfrc
  dsimp only
  exact State.cellAt_passes checked near good 15 _ _ _

end

/-- The instructions of a cell's evaluator: what each makes of the cell before its eclosion ends (R188). -/
theorem exec_byEvaluator (s : State) (n a b : BitVec 6) :
    exec (.ccan a) s = s.byEvaluator (s.getG a) (fun pa e s => (s.setTag pa .chrysalis).endEclosion e) ∧
    exec (.ccanP a) s = s.byEvaluator (s.getG a) (fun pa e s => (s.setTag pa .poison).endEclosion e) ∧
    (b.toNat + n.toNat ≤ 64 → exec (.cfil n a b) s = s.byEvaluator (s.getG a) (fun pa e u =>
      (((u.wr pa 32 0).wrBytes pa (cellBytes ((List.range n.toNat).map (fun i => s.getGn (b.toNat + i))))).setTag pa .value).endEclosion e)) := by
  refine ⟨rfl, rfl, fun fits => ?_⟩
  have words : ((List.range n.toNat).map (fun i => leBytes 8 (s.getGn (b.toNat + i)).toNat)).flatten =
      cellBytes ((List.range n.toNat).map (fun i => s.getGn (b.toNat + i))) := by
    rw [cellBytes, List.flatMap_map, List.flatMap]
  show execCfil n a b s = _
  unfold execCfil
  dsimp only
  rw [if_neg (by omega), words]

/-- Bytes stay when an eclosion ends. -/
theorem State.byteAt_endEclosion (s : State) (e : Eclosion) (a : Nat) : (s.endEclosion e).byteAt a = s.byteAt a := by
  rw [State.byteAt, s.endEclosion_m]
  rfl

theorem State.rd_endEclosion (s : State) (e : Eclosion) (l n : Nat) : (s.endEclosion e).rd l n = s.rd l n := by
  rw [State.rd, s.endEclosion_m]
  rfl

/-- A cell that is filled with words while its eclosion ends (R188). -/
theorem State.filled_ends (ok : s.memOk) (c : Nat) (e : Eclosion) {ws : List Word} (fits : ws.length ≤ 4) :
    let u := (((s.wr c 32 0).wrBytes c (cellBytes ws)).setTag c .value).endEclosion e
    u.tag c = .value ∧ SameBytesBut c 32 s u ∧ u.self.pc = s.self.pc ∧
    ∀ j, j < 4 → u.rd (c + 8 * j) 8 = (ws.getD j 0#64).toNat := by
  obtain ⟨filled, apart⟩ := s.filled_words ok c fits
  have apart := State.sameBytesBut_setTag apart c .value
  have seat : ((s.wr c 32 0).wrBytes c (cellBytes ws)).self = s.self := by rw [State.wrBytes_self, State.wr_self]
  generalize (s.wr c 32 0).wrBytes c (cellBytes ws) = v at filled apart seat
  intro u
  refine ⟨State.endEclosion_setTag e c _, fun a h => (State.byteAt_endEclosion _ e a).trans (apart a h), ?_, fun j lt => ?_⟩
  · rw [(ParksOnly.endEclosion _ e).pc, State.setTag_self, seat]
  · rw [State.rd_endEclosion, State.rd_setTag, filled j lt]

/-- Settles O33: the checks and the place bring each instruction to its cell, and what it does there is said by lemmas
on the record, the eclosion step and the end of an eclosion. -/
theorem cellInstructions : Obligations.CellInstructions := by
  unfold Obligations.CellInstructions
  intro s t₀ d a b n p e va ok t pa done busy cell memOk near good
  have raises {i : Instr} {code : Nat} (run : exec i s = .next (t.trap (cellBusy va code))) : busy i code := fun can => by
    rw [run, t.trap_eq can]
    rfl
  have code (y : Tag) : (match y with | .value => 0 | .chrysalis => 1 | .eclosing => 2 | .poison => 3) = y.code := by
    cases y <;> rfl
  refine ⟨fun checked fits => ?_, fun checked => ?_, fun beyond can => ?_⟩
  · have run := State.csus_passes (b := b) near good checked
    refine ⟨fun tag => ?_, fun tag => raises (run.trans (congrArg _ (if_pos tag)))⟩
    obtain ⟨apart, seat, word⟩ := t.record_written memOk pa (s.csusRecord b).toNat .chrysalis
    obtain ⟨w0, w1, w2, w3⟩ := s.csusRecord_words b
    have first := word 0 (by decide)
    rw [Nat.add_zero, Nat.mul_zero, pow_zero, Nat.div_one] at first
    exact ⟨_, run.trans (congrArg _ (if_neg tag)), State.setTag_same _ pa _, apart, (congrArg w64 first).trans w0,
      (congrArg w64 (word 8 (by decide))).trans w1, (congrArg w64 (word 16 (by decide))).trans w2,
      (congrArg w64 (word 24 (by decide))).trans w3, seat⟩
  · obtain ⟨id, site⟩ := State.cellAt_seat checked
    have sitePart : s.self.site.part = s.self.id.part := rfl
    have force := State.cfrc_passes near good checked
    obtain ⟨can, canP, fil⟩ := exec_byEvaluator s n a b
    refine ⟨?_, fun tag => force.trans (congrArg _ (if_neg tag)), fun tag held => ?_, fun tag held => ?_,
      fun tag entry mine => ?_, fun i form => ?_⟩
    · rw [State.ctag_passes near good checked]
      exact congrArg (fun x => Host.Outcome.next ((t.wrote d (w64 x)).markBusy [.g d])) (code (t.tag pa)).symm
    · exact force.trans (congrArg _ ((if_pos tag).trans (if_pos held)))
    · obtain ⟨now, parks⟩ := State.eclose_tag (x := t.self.site) cell tag va
      refine ⟨(t.eclose t.self.site false pa va none).2, force.trans (congrArg _ ((if_pos tag).trans (if_neg (Bool.eq_false_iff.mp held)))),
        parks.unparked, ?_⟩
      rw [now, site, sitePart]
    · have runs := fun f => State.byEvaluator_passes checked near good f tag entry mine
      refine ⟨⟨_, can.trans (runs _), ?_⟩, ⟨_, canP.trans (runs _), ?_⟩, fun low high fits => ⟨_, (fil fits).trans (runs _), ?_⟩⟩
      · exact ⟨State.endEclosion_setTag e pa _, State.byteAt_endEclosion _ e, (ParksOnly.endEclosion _ e).pc⟩
      · exact ⟨State.endEclosion_setTag e pa _, State.byteAt_endEclosion _ e, (ParksOnly.endEclosion _ e).pc⟩
      · obtain ⟨tagged, apart, pc, filled⟩ := t.filled_ends memOk pa e
          (ws := (List.range n.toNat).map (fun i => s.getGn (b.toNat + i))) (by simpa using high)
        refine ⟨tagged, apart, pc, fun j lt => (congrArg w64 (filled j lt)).trans ?_⟩
        rw [w64, BitVec.ofNat_toNat, BitVec.setWidth_eq, List.getD_eq_getElem?_getD]
        split
        next h => simp [h, State.getGn_add]
        next h => simp [h]
    · have evaluator : ∃ f, exec i s = s.byEvaluator va f := by
        obtain rfl | rfl | ⟨rfl, fits⟩ := form
        · exact ⟨_, can⟩
        · exact ⟨_, canP⟩
        · exact ⟨_, fil fits⟩
      obtain ⟨f, run⟩ := evaluator
      refine ⟨fun tag => ?_, fun tag entry theirs => ?_⟩
      · have ends := raises (run.trans (State.byEvaluator_busy checked near good f (e := e) (.inl tag)))
        rw [← code] at ends
        exact ends
      · refine raises (run.trans ((State.byEvaluator_busy checked near good f (.inr ⟨entry, theirs⟩)).trans ?_))
        rw [show (t₀.underKeys [(0, va, p)]).tag p.loc = .eclosing from tag]
        rfl
  · show execCfil n a b s = _
    unfold execCfil
    dsimp only
    rw [if_pos beyond, s.trap_eq can]
    rfl

end Sys2Proof.Machine
end

