-- ==== Sys2Proof/Proofs/ServeForms.lean ====
section
/-! PROOF. SERVE (O34). -/
namespace Sys2Proof.Machine

variable {s : State}

/-- The waiting list and the decisions are all that a configuration's entry into the list changes (R388). -/
theorem State.enterWaiting_only (s : State) (p : Packet) : ∃ w d f,
    s.enterWaiting p = { s with work := { s.work with waitings := w, decisions := d }, fresh := f } := by
  unfold State.enterWaiting
  split
  · exact ⟨_, _, _, rfl⟩
  · dsimp only
    split <;> exact ⟨_, _, _, rfl⟩

theorem State.addPacket_only (s : State) (p : Packet) : ∃ w d f, s.addPacket p =
    { s with work := { s.work with packets := s.work.packets ++ [p], waitings := w, decisions := d }, fresh := f } := by
  obtain ⟨w, d, f, h⟩ := State.enterWaiting_only
    { s with work := { s.work with packets := s.work.packets ++ [p] }, fresh := s.fresh + 1 } p
  exact ⟨w, d, f, h⟩

section
variable {d a : BitVec 6} {h : BitVec 4} {n : BitVec 8} {l : Launch} {v : Server} {im : Image}
  (mine : s.launchOf s.self.id.ctx = some l)
include mine

/-- An unbound handle, a wrong count or results past g63 (R171; log entry 63). -/
theorem State.serve_ill (bad : l.kernel.servers.getD h.toNat none = none ∨
      (l.kernel.servers.getD h.toNat none = some v ∧ (n.toNat ≠ v.args ∨ 64 < d.toNat + v.res))) :
    exec (.serve d a h n) s = .next (s.trap (illRun (w64 h.toNat) (insWord (.serve d a h n)))) := by
  show execServe d a h n s = _
  obtain unbound | ⟨bound, wrong⟩ := bad
  · simp only [execServe, mine, unbound]
  · have counted : n.toNat ≠ v.args ∨ 63 < d.toNat + v.res - 1 := wrong.imp_right (by omega)
    simp only [execServe, mine, bound, if_pos counted]

variable (bound : l.kernel.servers.getD h.toNat none = some v) (args : n.toNat = v.args) (fits : d.toNat + v.res ≤ 64)
  (image : s.frondOf l v.frond = some im)
include bound args fits image

/-- A sound SERVE: QOVF where its cluster has no region of the shape reserved, else a packet and the park (R171). -/
theorem State.serve_sound : exec (.serve d a h n) s = .next (
    if l.reserved s.self.id.cluster im.shape = 0 ∨ l.die ≠ s.self.id.die then s.trap (qovfTrap im.shape.code 3)
    else (s.addPacket
      { pid := s.fresh, die := s.self.id.die, cluster := s.self.id.cluster, caller := .strand s.self.id.uid
        tag := s.self.id.core * 8 + s.self.id.slot, handle := h.toNat, cfg := l.cfgOf v.frond
        launch := some (l.die, l.lid), site := s.self.site
        args := (List.range n.toNat).map (fun i => s.getGn (a.toNat + i)), since := s.cycle
        dst := d.toNat, res := v.res, region := none, result := none, poison := none }).parkFor .serve
        (w64 (h.toNat + 2 ^ 8 * (s.self.id.core * 8 + s.self.id.slot)))) := by
  have counted : ¬ (n.toNat ≠ v.args ∨ 63 < d.toNat + v.res - 1) := by omega
  show execServe d a h n s = _
  simp only [execServe, mine, bound, image, if_neg counted]
  split <;> rfl

end

/-- Settles O34. -/
theorem serving : Obligations.Serving := by
  unfold Obligations.Serving
  intro s d a h n l v im me mine
  refine ⟨fun bound args fits image region die => ?_, fun bad can => ?_, fun bound args fits image none can => ?_⟩
  · have run := State.serve_sound (a := a) mine bound args fits image
    rw [if_neg (not_or.mpr ⟨region, not_not.mpr die⟩)] at run
    obtain ⟨w, d, f, added⟩ := State.addPacket_only s
      { pid := s.fresh, die := s.self.id.die, cluster := s.self.id.cluster, caller := .strand s.self.id.uid
        tag := s.self.id.core * 8 + s.self.id.slot, handle := h.toNat, cfg := l.cfgOf v.frond
        launch := some (l.die, l.lid), site := s.self.site
        args := (List.range n.toNat).map (fun i => s.getGn (a.toNat + i)), since := s.cycle
        dst := d.toNat, res := v.res, region := none, result := none, poison := none }
    rw [added] at run
    exact ⟨_, _, run, rfl, rfl, rfl, rfl, rfl, rfl, rfl, rfl, rfl, rfl, rfl, rfl, rfl, rfl⟩
  · rw [State.serve_ill mine bad, s.trap_eq can, w64, BitVec.ofNat_toNat]
    rfl
  · rw [State.serve_sound mine bound args fits image, if_pos none, s.trap_eq can]
    rfl

end Sys2Proof.Machine
end

