-- ==== Sys2Proof/Proofs/CopyForms.lean ====
section
/-! PROOF. CPY, CPY2, BWAIT, bursts and ring words (O30). -/
namespace Sys2Proof.Machine

variable {s t : State}

/-! ## Issuing a copy (R167, R168) -/

/-- A choice from a list by comparison is its first value or one of the list. -/
theorem foldl_choice {α : Type} (p : α → α → Prop) [∀ b k, Decidable (p b k)] {q : α → Prop} {b : α} (first : q b) {ks : List α}
    (all : ∀ k ∈ ks, q k) : q (ks.foldl (fun b k => if p b k then k else b) b) := by
  induction ks generalizing b with
  | nil => exact first
  | cons k ks ih =>
    obtain ⟨hk, rest⟩ := List.forall_mem_cons.mp all
    refine ih ?_ rest
    dsimp only
    split
    · exact hk
    · exact first

theorem State.engineFor_lt (s : State) (die : Nat) : s.engineFor die < 8 :=
  foldl_choice (fun b k => (s.work.copies.filter (fun c => c.site.die == die && c.engine == k && !c.bounced)).length <
    (s.work.copies.filter (fun c => c.site.die == die && c.engine == b && !c.bounced)).length) (q := (· < 8)) (by decide) (by simp)

section
variable {i : Instr} {is2 : Bool} {dst src ss ds : Word} {len rows : Nat} {x : BitVec 6}

theorem State.issueCopy_stays (full : 16 ≤ (s.copySlots s.self.id.uid).length) (ill : Option Word) :
    s.issueCopy i ill is2 dst src len rows ss ds x = .next s := by
  unfold State.issueCopy
  rw [if_pos full]

variable (free : ¬ 16 ≤ (s.copySlots s.self.id.uid).length)
include free

theorem State.issueCopy_ill (v : Word) :
    s.issueCopy i (some v) is2 dst src len rows ss ds x = .next (s.trap (illRun v (insWord i))) := by
  unfold State.issueCopy
  rw [if_neg free]

variable {bar : Option (Word × Nat)} (sound : s.barrierAt x = .ok bar)
include sound

theorem State.issueCopy_empty (empty : len = 0 ∨ rows = 0) :
    s.issueCopy i none is2 dst src len rows ss ds x = .next s.adv := by
  unfold State.issueCopy
  rw [if_neg free]
  simp only [sound]
  rw [if_pos empty]

variable (len0 : len ≠ 0) (rows0 : rows ≠ 0) (source : s.rangeFault src ss len rows = none)
include len0 rows0 source

/-- A copy to a ring that no longer lies within the bounds (R46, R167). -/
theorem State.issueCopy_ringFault {r : Nat × Nat × Nat × Bool × Nat} {e : Nat} (ring : s.ringFor dst = some r)
    (outside : s.space s.self.site .barrier dst (8 * 2 ^ r.2.2.1) = .error e) :
    s.issueCopy i none is2 dst src len rows ss ds x = .next (s.trap (protTrap dst e)) := by
  obtain ⟨q, loc, n, rest⟩ := r
  unfold State.issueCopy
  rw [if_neg free]
  simp only [sound]
  rw [if_neg (not_or.mpr ⟨len0, rows0⟩)]
  simp only [source, ring, outside]

/-- A copy of the operands joins those in progress (R167, R168). -/
theorem State.issueCopy_joins (plain : s.ringFor dst = none → s.rangeFault dst ds len rows = none)
    (rings : ∀ r, s.ringFor dst = some r → ∃ l, s.space s.self.site .barrier dst (8 * 2 ^ r.2.2.1) = .ok l) :
    s.issueCopy i none is2 dst src len rows ss ds x = .next { s with
      work := { s.work with copies := s.work.copies ++
        [({ cid := s.fresh, uid := s.self.id.uid, engine := s.engineFor s.self.id.die, site := s.self.site, is2 := is2
            src := src, dst := dst, rowLen := len, off := 0, rows := rows, sstride := ss, dstride := ds, bar := bar
            ring := s.ringFor dst } : Copy)] }
      fresh := s.fresh + 1 }.adv := by
  unfold State.issueCopy
  rw [if_neg free]
  simp only [sound]
  rw [if_neg (not_or.mpr ⟨len0, rows0⟩)]
  cases ring : s.ringFor dst with
  | none => simp only [source, plain ring]
  | some r =>
    obtain ⟨l, within⟩ := rings r ring
    obtain ⟨q, loc, n, rest⟩ := r
    simp only [source, within]

end

/-! ## BWAIT (R170) -/

/-- The checks of a barrier word find it in local storage, and no page is read under a key. -/
theorem State.check_barrier {x : Site} {acc : Acc} {n al : Nat} {a : Word} {p : Place}
    (h : s.check x .barrier acc n al [(0, a)] = (.ok [(0, a, p)], t)) :
    t = s.clearHolds ∧ t.underKeys [(0, a, p)] = t := by
  cases lies : s.space x .barrier a n with
  | error e => simp [s.check_error lies] at h
  | ok o =>
    cases o with
    | none => exact absurd lies (State.space_local_ne_none (.inr rfl))
    | some l =>
      by_cases m : a.toNat % al = 0
      · rw [s.check_local lies m] at h
        simp only [Prod.mk.injEq, Checked.ok.injEq, List.cons.injEq, and_true, true_and] at h
        obtain ⟨rfl, rfl⟩ := h
        exact ⟨rfl, State.underKeys_local _ _ (by simp)⟩
      · simp [s.check_misaligned lies m] at h

theorem State.bwait_passes {a : BitVec 6} {p : Place}
    (checked : s.check s.self.site .barrier .load 8 8 [(0, s.getG a)] = (.ok [(0, s.getG a, p)], t))
    (good : t.isPoisoned p.loc = false) :
    exec (.bwait a) s = .next (if t.barrierDone p.loc then t.adv else t.parkFor .bwait (s.getG a) p.loc) := by
  show execBwait a s = _
  unfold execBwait
  rw [checked]
  obtain ⟨held, same⟩ := State.check_barrier checked
  have operand : t.getG a = s.getG a := by rw [held]; rfl
  simp [State.afterCheck, same, good, operand]

/-! ## Bytes that a copy writes, and its barrier (R56, R63) -/

theorem State.copyLocal_mem (s : State) (l : Nat) (bs : List Byte) : (s.copyLocal l bs).m.mem = memWrite s.m.mem l bs :=
  foldl_keeps (f := fun u w => State.setFull u w true) (g := fun u : State => u.m.mem) (fun _ _ => rfl) _ _

theorem State.copyLocal_host (s : State) (l : Nat) (bs : List Byte) : (s.copyLocal l bs).host = s.host :=
  foldl_keeps (f := fun u w => State.setFull u w true) (g := State.host) (fun _ _ => rfl) _ _

theorem State.copyLocal_work (s : State) (l : Nat) (bs : List Byte) : (s.copyLocal l bs).work = s.work :=
  foldl_keeps (f := fun u w => State.setFull u w true) (g := State.work) (fun _ _ => rfl) _ _

theorem ParksOnly.wrWake (s : State) (l : Nat) (bs : List Byte) : ParksOnly s (s.wrWake l bs) :=
  mapStrands (s.wrBytes l bs) (wokenBy _ l bs.length)

theorem ParksOnly.setFull (s : State) (l : Nat) (full : Bool) : ParksOnly s (s.setFull l full) := by
  refine mapStrands (s.setBit l full) fun y => ?_
  split
  · exact .inr rfl
  · exact .inl rfl

theorem ParksOnly.copyLocal (s : State) (l : Nat) (bs : List Byte) : ParksOnly s (s.copyLocal l bs) :=
  ((wrWake s l bs).trans (of_eq rfl rfl)).trans (foldl (fun u w => setFull u w true) _ _)

theorem ParksOnly.subtract (s : State) (bar : Option (Word × Nat)) (n : Nat) : ParksOnly s (s.subtract bar n) := by
  unfold State.subtract
  split
  · exact refl s
  · exact wrWake s _ _

/-- An aligned word that a copy has written whole is FULL (R56). -/
theorem State.copyLocal_full (nodup : s.m.empties.Nodup) {l : Nat} (aligned : l % 8 = 0) {bs : List Byte}
    (word : bs.length = 8) : (s.copyLocal l bs).isFull l = true := by
  have units : unitsOf l 8 8 = [l] := by
    have here : l / 8 * 8 = l := by omega
    simp [unitsOf, here, List.range_succ]
  have bit := State.setBit_isFull (s := (s.wrWake l bs).clearPoison l bs.length) nodup l l true
  rw [if_pos rfl] at bit
  unfold State.copyLocal
  dsimp only
  rw [word, units] at *
  rw [List.filter_cons_of_pos (by simp), List.filter_nil]
  exact bit

/-- The charge of a copy whose partition has no COPY budget, then its end or its next position (R168, R393). -/
theorem State.delivered_eq {c : Copy} (free : (s.part c.site.part).budget[4]?.getD none = none) (n : Nat) :
    ∃ ps, s.delivered c n = if (c.advance n).rows = 0 then ((s.subtract c.bar n).withParts ps).endCopy c
      else ((s.subtract c.bar n).withParts ps).setCopy (c.advance n) := by
  have unlimited : ((s.subtract c.bar n).part c.site.part).budget[4]?.getD none = none := by
    rw [← free]
    unfold State.subtract
    split <;> rfl
  obtain ⟨⟨ps, charged⟩, -⟩ := State.charge_unlimited unlimited c.site.die n
  exact ⟨ps, by unfold State.delivered; rw [charged]⟩

theorem State.delivered_m {c : Copy} (free : (s.part c.site.part).budget[4]?.getD none = none) (n : Nat) :
    (s.delivered c n).m = (s.subtract c.bar n).m := by
  obtain ⟨ps, e⟩ := State.delivered_eq free n
  rw [e]
  unfold State.endCopy
  split
  · dsimp only
    split <;> rfl
  · rfl

theorem Copy.advance_cid (c : Copy) (n : Nat) : (c.advance n).cid = c.cid := by
  unfold Copy.advance
  dsimp only
  split <;> rfl

/-- The copy has ended, or stands at its next position (R168). -/
theorem State.delivered_copies {c : Copy} (free : (s.part c.site.part).budget[4]?.getD none = none) (n : Nat)
    (here : ∃ y ∈ s.work.copies, y.cid = c.cid) :
    if (c.advance n).rows = 0 then ∀ x ∈ (s.delivered c n).work.copies, x.cid ≠ c.cid
    else c.advance n ∈ (s.delivered c n).work.copies := by
  obtain ⟨ps, e⟩ := State.delivered_eq free n
  rw [e]
  split
  · intro x hx
    have kept : x ∈ ((s.subtract c.bar n).withParts ps).work.copies.filter (fun x => x.cid != c.cid) := by
      unfold State.endCopy at hx
      dsimp only at hx
      split at hx <;> exact hx
    simpa using (List.mem_filter.mp kept).2
  · obtain ⟨y, hy, same⟩ := here
    have work : ((s.subtract c.bar n).withParts ps).work.copies = s.work.copies := by
      unfold State.subtract
      split <;> rfl
    show _ ∈ ((s.subtract c.bar n).withParts ps).work.copies.map _
    rw [work]
    exact List.mem_map.mpr ⟨y, hy, if_pos (by rw [same, c.advance_cid])⟩

section
variable {v : State} {l : Nat} {bs : List Byte} (ok : s.memOk) (wrote : v.m.mem = memWrite s.m.mem l bs) {c : Copy}
  (free : (v.part c.site.part).budget[4]?.getD none = none) (n : Nat)
include ok wrote free

/-- Bytes written for a copy without a barrier. -/
theorem State.delivered_plain (plain : c.bar = none) :
    (v.delivered c n).rdBytes l bs.length = bs ∧ SameBytesBut l bs.length s (v.delivered c n) := by
  have mem : (v.delivered c n).m.mem = (s.wrBytes l bs).m.mem := by
    rw [State.delivered_m free, plain]
    exact wrote
  exact ⟨(congrArg (fun m => memBytes m l bs.length) mem).trans (State.rdBytes_wrBytes ok l bs),
    fun a apart => (congrArg (fun m => memGet m a) mem).trans (State.sameBytesBut_wrBytes ok l bs a apart)⟩

/-- Bytes written for a copy are counted off its barrier (R63). -/
theorem State.delivered_barrier {a : Word} {b : Nat} (bar : c.bar = some (a, b)) (apart : b + 8 ≤ l ∨ l + bs.length ≤ b) :
    (v.delivered c n).rdBytes l bs.length = bs ∧
    (v.delivered c n).rd b 8 = (BitVec.ofNat 64 (s.rd b 8) - w64 n).toNat := by
  have before : v.rd b 8 = s.rd b 8 :=
    (congrArg (fun m => memNat m b 8) wrote).trans (congrArg leNat (State.rdBytes_wrBytes_apart ok l bs apart))
  have mem : (v.delivered c n).m.mem =
      ((s.wrBytes l bs).wr b 8 (BitVec.ofNat 64 (s.rd b 8) - w64 n).toNat).m.mem := by
    rw [State.delivered_m free, bar, ← before]
    exact congrArg (fun m => memWrite m b (leBytes 8 (BitVec.ofNat 64 (v.rd b 8) - w64 n).toNat)) wrote
  have ok' := State.memOk_wrBytes ok l bs
  refine ⟨(congrArg (fun m => memBytes m l bs.length) mem).trans ?_, (congrArg (fun m => memNat m b 8) mem).trans ?_⟩
  · exact (State.rdBytes_wrBytes_apart ok' b _ (by rw [leBytes_length]; omega)).trans (State.rdBytes_wrBytes ok l bs)
  · exact (State.rd_wr ok' b 8 _).trans (Nat.mod_eq_of_lt (BitVec.isLt _))

end

/-! ## Strands and their rings under a copy (R165) -/

/-- From `s` to `t` every live strand keeps its rings. -/
def RingsKept (s t : State) : Prop :=
  ∀ uid x, s.strand? uid = some x → ∃ y, t.strand? uid = some y ∧ ∀ q, y.ring q = x.ring q

namespace RingsKept

theorem trans {u : State} (a : RingsKept s t) (b : RingsKept t u) : RingsKept s u := by
  intro uid x hx
  obtain ⟨y, hy, same⟩ := a uid x hx
  obtain ⟨z, hz, same'⟩ := b uid y hy
  exact ⟨z, hz, fun q => (same' q).trans (same q)⟩

theorem of_eq (self : t.self = s.self) (others : t.others = s.others) : RingsKept s t := by
  intro uid x hx
  refine ⟨x, ?_, fun _ => rfl⟩
  rwa [State.strand?, State.all, self, others]

theorem of_map {g : Strand → Strand} (self : t.self = g s.self) (others : t.others = s.others.map g)
    (live : ∀ y, (g y).live = y.live) (named : ∀ y, (g y).id.uid = y.id.uid) (rings : ∀ y q, (g y).ring q = y.ring q) :
    RingsKept s t := by
  intro uid x hx
  have all : t.all = s.all.map g := by rw [State.all, self, others]; rfl
  have same : (fun y : Strand => y.live && y.id.uid == uid) ∘ g = fun y => y.live && y.id.uid == uid := by
    funext y
    rw [Function.comp_apply, live, named]
  exact ⟨g x, by rw [State.strand?, all, List.find?_map, same]; exact congrArg (Option.map g) hx, rings x⟩

theorem of_parks (h : ParksOnly s t) : RingsKept s t := by
  obtain ⟨g, hg, self, others⟩ := h
  have keeps {α : Type} (f : Strand → α) (parkless : ∀ y p, f { y with park := p } = f y) (y : Strand) : f (g y) = f y := by
    obtain ⟨p, e⟩ := hg y
    rw [e, parkless]
  exact of_map self others (keeps Strand.live fun _ _ => rfl) (keeps (fun y => y.id.uid) fun _ _ => rfl)
    (fun y q => keeps (fun y => y.ring q) (fun _ _ => rfl) y)

theorem endCopy (s : State) (c : Copy) : RingsKept s (s.endCopy c) := by
  unfold State.endCopy
  dsimp only
  split
  · exact of_eq rfl rfl
  · exact (of_eq (t := { s with work := { s.work with copies := s.work.copies.filter (fun x => x.cid != c.cid) } })
      rfl rfl).trans (of_map rfl rfl (fun y => by split <;> rfl) (fun y => by split <;> rfl) (fun y q => by split <;> rfl))

theorem delivered {c : Copy} (free : (s.part c.site.part).budget[4]?.getD none = none) (n : Nat) :
    RingsKept s (s.delivered c n) := by
  obtain ⟨ps, e⟩ := State.delivered_eq free n
  have counted : RingsKept s ((s.subtract c.bar n).withParts ps) :=
    (of_parks (ParksOnly.subtract s c.bar n)).trans (of_eq rfl rfl)
  rw [e]
  split
  · exact counted.trans (endCopy _ c)
  · exact counted.trans (of_eq rfl rfl)

end RingsKept

theorem RingsKept.sideOf (s : State) (x : Site) (k : Nat) (a : Word) (n : Nat) (acc : Acc) :
    RingsKept s (s.sideOf x k a n acc).2 := by
  obtain ⟨l, translated⟩ := s.translate_only (x := x) [.engine x.die k] a.toNat
  have filled : RingsKept s (s.translate x [.engine x.die k] a.toNat).2 := by rw [translated]; exact .of_eq rfl rfl
  unfold State.sideOf
  split
  · exact .of_eq rfl rfl
  · split
    · next e u hit =>
      rw [hit] at filled
      dsimp only
      split
      · split
        · exact filled
        · exact filled.trans (.of_eq (u.useKeys_self _ _ _ _) (u.useKeys_others _ _ _ _))
      · exact filled
    · next u _ other =>
      rw [other] at filled
      exact filled

/-- A source that has been read: TLBs, keys of lines and charges are all that has changed, and parks of strands that a
charge wakes. -/
theorem State.readSrc_rings {c : Copy} {a : Word} {n : Nat} {bs : List Byte} (h : s.readSrc c a n = (.bytes bs, t)) :
    RingsKept s t := by
  have side := RingsKept.sideOf s c.site c.engine a n .load
  unfold State.readSrc at h
  split at h
  · simp at h
  · next l glob cpage remote u found =>
    rw [found] at side
    split at h
    · split at h
      · obtain ⟨-, rfl⟩ := Prod.mk.inj h
        exact side
      · split at h <;> simp at h
    · split at h
      · simp at h
      · split at h
        · simp at h
        · obtain ⟨-, rfl⟩ := Prod.mk.inj h
          split
          · exact side.trans (.of_parks (.charge _ _ _ _ _))
          · exact side

/-! ## Bursts and ring words -/

theorem State.copy?_some {cid : Nat} {c : Copy} (h : s.copy? cid = some c) : c ∈ s.work.copies ∧ c.cid = cid := by
  have found := List.find?_some h
  rw [Bool.and_eq_true, Bool.and_eq_true, Bool.and_eq_true, beq_iff_eq] at found
  exact ⟨List.mem_of_find?_eq_some h, found.1.1.1⟩

/-- A burst that has been read is written whole at a local destination (R168). -/
theorem State.copyBurst_local {cid : Nat} {c : Copy} {bs : List Byte} {s' : State} (found : s.copy? cid = some c)
    (admits : s.admits c.site.part c.site.die 4 = true) (plain : c.ring = none) (sent : c.sent = 0) (bytes : c.bytes = [])
    (read : s.readBurst c (c.src + w64 c.off) c.burst = (.bytes bs, s')) (near : (c.dst + w64 c.off).toNat / 2 ^ 60 ≠ 0)
    (goes : s'.dstStop (c.site.localLoc (c.dst + w64 c.off)) bs.length false = none) :
    exec (.copyBurst cid) s = .next
      ((s'.copyLocal (c.site.localLoc (c.dst + w64 c.off)) bs).delivered c bs.length) := by
  have side : s'.sideOf c.site c.engine (c.dst + w64 c.off) bs.length .store =
      (.at (c.site.localLoc (c.dst + w64 c.off)) false false false, s') := by
    unfold State.sideOf
    rw [if_pos near]
  have written : s'.writeBurst? c bs = some ((s'.copyLocal (c.site.localLoc (c.dst + w64 c.off)) bs).delivered c bs.length) := by
    unfold State.writeBurst?
    simp only [side, goes]
    simp
  show execCopyBurst cid s = _
  unfold execCopyBurst State.writeBurst
  simp [found, plain, sent, bytes, admits, read, written]

/-- A source whose next byte may not be read bounces the copy (R169). -/
theorem State.copyBurst_stop {cid : Nat} {c : Copy} {s' : State} (found : s.copy? cid = some c)
    (admits : s.admits c.site.part c.site.die 4 = true) (plain : c.ring = none) (sent : c.sent = 0) (bytes : c.bytes = [])
    (stop : s.readSrc c (c.src + w64 c.off) c.burst = (.stop (c.src + w64 c.off), s')) :
    exec (.copyBurst cid) s = .next (s'.bounce c false (c.src + w64 c.off)) := by
  have read : s.readBurst c (c.src + w64 c.off) c.burst = (.stop (c.src + w64 c.off), s') := by
    unfold State.readBurst
    rw [stop]
    simp
  show execCopyBurst cid s = _
  unfold execCopyBurst
  simp [found, plain, sent, bytes, admits, read]

/-- The next word of a ring copy is written when its word need not be waited for and its bytes lie on one page (R165,
R166). -/
theorem State.copyRingWordWrite_puts {cid : Nat} {c : Copy} {bs : List Byte} {s' : State} {q loc n tail0 : Nat} {waits : Bool}
    (found : s.copy? cid = some c) (admits : s.admits c.site.part c.site.die 4 = true)
    (ring : c.ring = some (q, loc, n, waits, tail0)) (bytes : c.bytes = [])
    (page : min 8 (c.rowLen - c.off) ≤ pageRest (c.src + w64 c.off)) (goes : s.ringWaits c = false)
    (read : s.readSrc c (c.src + w64 c.off) (min 8 (c.rowLen - c.off)) = (.bytes bs, s')) :
    exec (.copyRingWordWrite cid) s = .next (s'.putRing c q loc n waits (s.tailOf c q waits tail0) bs) := by
  have whole : min (min 8 (c.rowLen - c.off)) (pageRest (c.src + w64 c.off)) = min 8 (c.rowLen - c.off) := by omega
  show execCopyRingWordWrite cid s = _
  unfold execCopyRingWordWrite
  simp only [found, ring, goes, admits, bytes, whole, List.isEmpty_nil, if_true, read]
  simp

/-- The word of a ring copy: eight bytes, FULL, counted off the barrier (R56, R63, R165). -/
theorem State.ringWord_delivered (ok : s.memOk) (nodup : s.m.empties.Nodup) {l : Nat} (aligned : l % 8 = 0) {bs : List Byte}
    (short : bs.length ≤ 8) {c : Copy} {v : State} (m : v.m = (s.copyLocal l (bs ++ List.replicate (8 - bs.length) 0#8)).m)
    (free : (v.part c.site.part).budget[4]?.getD none = none)
    (apart : ∀ a b, c.bar = some (a, b) → b + 8 ≤ l ∨ l + 8 ≤ b) :
    let t := v.delivered c bs.length
    t.rdBytes l 8 = bs ++ List.replicate (8 - bs.length) 0#8 ∧ t.isFull l = true ∧ (c.bar = none → SameBytesBut l 8 s t) ∧
    ∀ a b, c.bar = some (a, b) → t.rd b 8 = (BitVec.ofNat 64 (s.rd b 8) - w64 bs.length).toNat := by
  intro t
  have word : (bs ++ List.replicate (8 - bs.length) 0#8).length = 8 := by simp; omega
  generalize bs ++ List.replicate (8 - bs.length) 0#8 = ws at m word
  have wrote : v.m.mem = memWrite s.m.mem l ws := by rw [m, State.copyLocal_mem]
  have bit : t.isFull l = v.isFull l := by
    have empties : t.m.empties = v.m.empties := by
      rw [State.delivered_m free]
      unfold State.subtract
      split <;> rfl
    rw [State.isFull, empties]
    rfl
  have full : v.isFull l = true := by
    rw [State.isFull, m]
    exact State.copyLocal_full nodup aligned word
  have length {u : State} (h : u.rdBytes l ws.length = ws) : u.rdBytes l 8 = ws := by rwa [word] at h
  cases bar : c.bar with
  | none =>
    obtain ⟨read, same⟩ := State.delivered_plain ok wrote free bs.length bar
    rw [word] at same
    exact ⟨length read, bit.trans full, fun _ => same, by simp⟩
  | some ab =>
    obtain ⟨a, b⟩ := ab
    obtain ⟨read, counted⟩ := State.delivered_barrier ok wrote free bs.length bar (word ▸ apart a b bar)
    refine ⟨length read, bit.trans full, by simp, fun a' b' e => ?_⟩
    obtain ⟨rfl, rfl⟩ := Prod.mk.inj (Option.some.inj e)
    exact counted

/-- A bounce is pending at the copy's strand (R169). -/
theorem State.bounce_pending {c : Copy} {x : Strand} (mine : s.strand? c.uid = some x) (dstSide : Bool) (fault : Word) :
    (s.bounce c dstSide fault).m = s.m ∧ (s.bounce c dstSide fault).strand? c.uid =
      some { x with waits := { x.waits with deferred := x.waits.deferred ++ [c.record fault (s.nextDst c)] } } := by
  unfold State.bounce
  simp only [mine]
  refine ⟨rfl, State.strand?_mapStrand (s := s.setCopy _) ?_ (fun _ => rfl) (fun _ => rfl)⟩
  exact mine

theorem Copy.record_cause (c : Copy) (fault dst : Word) : bits (c.record fault dst).tcause 7 0 = 17 :=
  TrapRec.tcause_cause (show 17 < 2 ^ 8 by decide)

theorem Copy.advance_ring (c : Copy) (r : Option (Nat × Nat × Nat × Bool × Nat)) (n : Nat) :
    ({ c with ring := r } : Copy).advance n = { c.advance n with ring := r } := by
  unfold Copy.advance
  dsimp only
  split <;> rfl

theorem State.tailOf_bound {c : Copy} {q : Nat} {x : Strand} {r : Ring} (mine : s.strand? c.uid = some x)
    (bound : x.ring q = some r) (tail0 : Nat) : s.tailOf c q true tail0 = r.tail := by
  simp [State.tailOf, mine, bound]

theorem Strand.ring_setRing_bound {x : Strand} {q : Nat} {r : Ring} (bound : x.ring q = some r) (y : Option Ring) :
    (x.setRing q y).ring q = y := by
  unfold Strand.ring at bound
  unfold Strand.ring Strand.setRing
  by_cases one : q = 1
  · simp [one]
  · by_cases two : q = 2
    · simp [two]
    · by_cases three : q = 3
      · simp [three]
      · simp [one, two, three] at bound

/-- The tail of a stream's ring, where it is bound, set. -/
def Strand.tailTo (q next : Nat) (t : Strand) : Strand := match t.ring q with
  | some r => t.setRing q (some { r with tail := next })
  | none => t

/-- The tail of a bound ring advances with its word (R165). -/
theorem State.ringTail_advances {uid q next : Nat} {x : Strand} {r : Ring} (mine : s.strand? uid = some x)
    (bound : x.ring q = some r) : ∃ y, (s.mapStrand uid (Strand.tailTo q next)).strand? uid = some y ∧
      y.ring q = some { r with tail := next } := by
  refine ⟨_, State.strand?_mapStrand mine (fun y => ?_) (fun y => ?_), ?_⟩
  · unfold Strand.tailTo
    split <;> rfl
  · unfold Strand.tailTo
    split <;> rfl
  · simp only [Strand.tailTo, bound]
    exact Strand.ring_setRing_bound bound _

/-- A ring word padded with zeros (R165). -/
def ringWord (bs : List Byte) : List Byte := bs ++ List.replicate (8 - bs.length) 0#8

theorem State.putRing_bound (s : State) (c : Copy) (q loc n tail : Nat) (bs : List Byte) : s.putRing c q loc n true tail bs =
    ((s.copyLocal (loc + 8 * tail) (ringWord bs)).mapStrand c.uid (Strand.tailTo q ((tail + 1) % 2 ^ n))).delivered c bs.length :=
  rfl

theorem State.putRing_free (s : State) (c : Copy) (q loc n tail : Nat) (bs : List Byte) : s.putRing c q loc n false tail bs =
    (s.copyLocal (loc + 8 * tail) (ringWord bs)).delivered
      { c with ring := some (q, loc, n, false, (tail + 1) % 2 ^ n) } bs.length := rfl

/-- Settles O30: each form of the issue, of a burst and of a ring word is a lemma above. -/
theorem copiesAndBarriers : Obligations.CopiesAndBarriers := by
  unfold Obligations.CopiesAndBarriers
  refine ⟨?_, ?_⟩
  · intro s t d a b x bar p len rows free next issued reaches
    have slots : free → ¬ 16 ≤ (s.copySlots s.self.id.uid).length := Nat.not_le.mpr
    have reg (i : Nat) : s.getGn (b.toNat + i) = s.getG (b + BitVec.ofNat 6 i) := s.getGn_add b i
    have cpy2 : exec (.cpy2 d a b x) s = s.issueCopy (.cpy2 d a b x) (if 2 ^ 32 ≤ len then some (s.getG b)
        else if 2 ^ 32 ≤ rows then some (s.getG (b + 1#6)) else none) true (s.getG d) (s.getG a) len rows
        (s.getG (b + 2#6)) (s.getG (b + 3#6)) x := by
      show execCpy2 d a b x s = _
      unfold execCpy2
      dsimp only
      rw [reg 1, reg 2, reg 3]
    have cpy : exec (.cpy d a b x) s = s.issueCopy (.cpy d a b x) (if 2 ^ 40 ≤ len then some (s.getG b) else none) false
        (s.getG d) (s.getG a) len 1 0#64 0#64 x := rfl
    refine ⟨fun room sound => ⟨fun fits some source reach => ?_, fun none => ?_, fun _ fits fits' => ⟨fun some some' source reach => ?_,
      fun none => ?_⟩, fun fits some source can r e ring outside => ?_⟩, fun room can => ⟨fun long => ?_, fun _ long => ?_⟩,
      fun full => ⟨?_, ?_⟩, fun checked good => ?_⟩
    · rw [cpy, if_neg (Nat.not_le.mpr fits)]
      exact ⟨_, State.issueCopy_joins (slots room) sound some (by decide) source reach.1 reach.2, _, rfl, rfl,
        s.engineFor_lt _, rfl, rfl, rfl, rfl, rfl, rfl, rfl, rfl, rfl, rfl, rfl⟩
    · rw [cpy, if_neg (by omega)]
      exact State.issueCopy_empty (slots room) sound (.inl none)
    · rw [cpy2, if_neg (Nat.not_le.mpr fits), if_neg (Nat.not_le.mpr fits')]
      exact ⟨_, State.issueCopy_joins (slots room) sound some some' source reach.1 reach.2, _, rfl, rfl,
        s.engineFor_lt _, rfl, rfl, rfl, rfl, rfl, rfl, rfl, rfl, rfl, rfl, rfl⟩
    · rw [cpy2, if_neg (Nat.not_le.mpr fits), if_neg (Nat.not_le.mpr fits')]
      exact State.issueCopy_empty (slots room) sound none
    · rw [cpy, if_neg (Nat.not_le.mpr fits), State.issueCopy_ringFault (slots room) sound some (by decide) source ring outside,
        s.trap_eq can]
      rfl
    · rw [cpy, if_pos long, State.issueCopy_ill (slots room), s.trap_eq can]
      rfl
    · have named : (if 2 ^ 32 ≤ len then some (s.getG b) else if 2 ^ 32 ≤ rows then some (s.getG (b + 1#6)) else none) =
          some (if 2 ^ 32 ≤ len then s.getG b else s.getG (b + 1#6)) := by
        split
        · rfl
        next short => rw [if_pos (long.resolve_left short)]
      rw [cpy2, named, State.issueCopy_ill (slots room), s.trap_eq can]
      rfl
    · exact cpy.trans (State.issueCopy_stays (Nat.not_lt.mp full) _)
    · exact cpy2.trans (State.issueCopy_stays (Nat.not_lt.mp full) _)
    · rw [State.bwait_passes checked good]
      refine ⟨fun done => congrArg _ (if_pos (decide_eq_true done)), fun left => congrArg _ (if_neg ?_)⟩
      exact fun done => absurd (of_decide_eq_true done) (not_le.mpr left)
  · intro s s' cid c bs found admits ok free src dst l moved
    obtain ⟨mem, rfl⟩ := State.copy?_some found
    have here {v : State} (copies : v.work.copies = s.work.copies) : ∃ y ∈ v.work.copies, y.cid = c.cid :=
      ⟨c, copies ▸ mem, rfl⟩
    have unlimited {v : State} (host : v.host = s'.host) : (v.part c.site.part).budget[4]?.getD none = none := by
      rw [State.part, host]
      exact free
    refine ⟨fun plain sent bytes read near goes same => ?_, fun q loc n waits tail0 ring bytes page short aligned nodup same read => ?_,
      fun t plain sent bytes stop mine => ?_⟩
    · have run := State.copyBurst_local found admits plain sent bytes read near goes
      have moves : moved ((s'.copyLocal l bs).delivered c bs.length) :=
        State.delivered_copies (unlimited (s'.copyLocal_host l bs)) bs.length (here (by rw [State.copyLocal_work, same]))
      refine ⟨fun none => ⟨_, run, ?_⟩, fun a b bar apart => ⟨_, run, ?_⟩⟩
      · obtain ⟨whole, others⟩ := State.delivered_plain ok (s'.copyLocal_mem l bs) (unlimited (s'.copyLocal_host l bs)) bs.length none
        exact ⟨whole, others, moves⟩
      · obtain ⟨whole, counted⟩ := State.delivered_barrier ok (s'.copyLocal_mem l bs) (unlimited (s'.copyLocal_host l bs))
          bs.length bar apart
        exact ⟨whole, moves, counted⟩
    · intro w apart wrote
      have word (tail : Nat) (clear : apart tail) {v : State} {c' : Copy} (m : v.m =
          (s'.copyLocal (w tail) (ringWord bs)).m) (host : v.host = s'.host)
          (site : c'.site = c.site) (bar : c'.bar = c.bar) : wrote tail (v.delivered c' bs.length) := by
        have goes := State.ringWord_delivered ok nodup (l := w tail) (by simp only [w]; omega) short (c := c') m
          (by rw [site]; exact unlimited host) (by rw [bar]; exact clear)
        rwa [bar] at goes
      refine ⟨fun free clear => ?_, fun x r waiting mine wants => ⟨fun full => ?_, fun empty clear => ?_⟩⟩
      · subst free
        have run := State.copyRingWordWrite_puts found admits ring bytes page (by simp [State.ringWaits, ring]) read
        rw [State.putRing_free] at run
        refine ⟨_, run, word tail0 clear rfl (State.copyLocal_host ..) rfl rfl, ?_⟩
        have moves := State.delivered_copies (s := s'.copyLocal (w tail0) (ringWord bs))
          (c := { c with ring := some (q, loc, n, false, (tail0 + 1) % 2 ^ n) }) (unlimited (State.copyLocal_host ..)) bs.length
          (here (by rw [State.copyLocal_work, same]))
        rw [Copy.advance_ring] at moves
        exact moves
      · subst waiting
        have held : s.ringWaits c = true := by
          simp only [State.ringWaits, ring, State.tailOf_bound mine wants, Bool.true_and]
          exact full
        show execCopyRingWordWrite c.cid s = _
        simp [execCopyRingWordWrite, found, ring, held]
      · subst waiting
        have goes : s.ringWaits c = false := by
          simp only [State.ringWaits, ring, State.tailOf_bound mine wants, Bool.true_and]
          exact empty
        have run := State.copyRingWordWrite_puts found admits ring bytes page goes read
        rw [State.tailOf_bound mine wants, State.putRing_bound] at run
        obtain ⟨y, mine', rings⟩ := ((State.readSrc_rings read).trans (.of_parks (.copyLocal s' (w r.tail) (ringWord bs)))) _ _ mine
        obtain ⟨z, mine'', bound⟩ := State.ringTail_advances (next := (r.tail + 1) % 2 ^ n) mine' ((rings q).trans wants)
        have host := State.copyLocal_host s' (w r.tail) (ringWord bs)
        have copies : (s'.copyLocal (w r.tail) (ringWord bs)).work.copies = s.work.copies := by rw [State.copyLocal_work, same]
        generalize hv : (s'.copyLocal (w r.tail) (ringWord bs)).mapStrand c.uid (Strand.tailTo q ((r.tail + 1) % 2 ^ n)) = v at mine''
        have host' : v.host = s'.host := by rw [← hv]; exact host
        have m : v.m = (s'.copyLocal (w r.tail) (ringWord bs)).m := by rw [← hv]; rfl
        have copies' : v.work.copies = s.work.copies := by rw [← hv]; exact copies
        obtain ⟨u, named, rings'⟩ := RingsKept.delivered (unlimited host') bs.length _ _ mine''
        refine ⟨v.delivered c bs.length, hv ▸ run, word r.tail clear m host' rfl rfl,
          State.delivered_copies (unlimited host') bs.length (here copies'), u, named, (rings' q).trans bound⟩
    · have run := State.copyBurst_stop found admits plain sent bytes stop
      obtain ⟨m, pending⟩ := State.bounce_pending mine false (c.src + w64 c.off)
      exact ⟨_, run, m, _, _, pending, rfl, rfl, c.record_cause _ _, rfl, rfl⟩

end Sys2Proof.Machine
end

