-- ==== Sys2Proof/Proofs/ResidencyForms.lean ====
section
/-! SUPPORT. A state that refutes O35. -/
namespace Sys2Proof.Machine

/-! ## FRWAIT while the seat holds no live strand -/

/-- A residency that has been loaded and not started, in entry 0 of cluster 0. -/
def loadedResidency : Residency :=
  { die := 0, cluster := 0, entry := 0, gen := 0, owner := 0, orphan := false, part := 0, launch := (0, 0), cfg := 0
    shape := .quarter, prio := 0, migr := 0, state := .loaded, site := {}, binds := [], pends := [], frbar := false
    barAt := none, waiting := none, region := none, planes := 0, flags := 0#5, save := .noSave, saved := none, areas := []
    image := { served := false, shape := .quarter, nplanes := 1, args := 0, res := 0, frames := [], edges := [], kind := .broad
               indep := false, replay := 0#64 }
    consts := [], argPend := [], record := [] }

/-- A strand that has retired, with the fault trap of that residency pending. -/
def retiredOwner : Strand :=
  { st := .retired
    waits := { deferred := [{ isCopy := false, who := 0, tcause := 0#64, tinfo0 := 0#64, tinfo1 := 0#64, tinfo2 := 0#64
                              tinfo3 := 0#64 }] } }

/-- The seat still holds the strand that has retired. -/
def waitsRetired : State :=
  { State.reset with self := retiredOwner, work := { State.reset.work with residencies := [loadedResidency] } }

/-- `State.mapStrand` changes live strands only, so that the fault trap stays. -/
theorem waitsRetired_deferred {t : State} (h : exec (.frwait 0#6) waitsRetired = .next t) :
    t.self.waits.deferred.length = 1 := by
  have run : Host.Outcome.next t = (execFrwait 0#6 waitsRetired : Out) := h.symm
  injection run with e
  rw [e]
  rfl

/-- Refutes O35: FRWAIT frees the residency and takes its fault trap from its owner among the live strands, and the clause on
FRWAIT does not ask that the seat's strand be one: a retired strand in the seat keeps the trap. -/
theorem not_residencies : ¬ Obligations.Residencies := by
  unfold Obligations.Residencies
  rintro ⟨-, commands⟩
  obtain ⟨owned, -⟩ := commands waitsRetired 0#6 0#6 0#6 loadedResidency (.frwait 0#6)
  obtain ⟨-, -, -, -, -, -, -, -, -, -, -, -, -, -, frees⟩ := owned rfl
  obtain ⟨u, run, -, seat, -⟩ := frees (.inl rfl)
  have kept := waitsRetired_deferred run
  have taken : u.self.waits.deferred.length = 0 := by rw [seat]; rfl
  exact absurd (taken.symm.trans kept) (by decide)

end Sys2Proof.Machine
end

