-- ==== Sys2Proof/Proofs/WindowOverrules.lean ====
section
/-! SUPPORT. A state that refutes O44. -/
namespace Sys2Proof.Machine

/-! ## A window whose store overrules the cell on which its port waits -/

/-- The store of the window, at a cell of the cache line at address 0. -/
def overrulingStore : BufStore :=
  { addr := 0#64, loc := 0, glob := true, remote := false, bytes := [0#8], tag := 0 }

/-- A memory port at the end of a round, with the store in its window and a load that waits on the same cell. -/
def waitingPort : Elem :=
  { row := 0, col := 0, mp := { win0 := [overrulingStore], rounds := 1
                                spill := [{ op := 0, addr := 0#64, data := 0#512, tag := 0, par := false, onCell := some 0 }] } }

/-- The region of the port, which runs. -/
def overrulingRegion : Region := { drainingRegion with elems := [waitingPort], phase := .running }

/-- The eclosion of the cell, on which the port's load waits (R302). -/
def awaitedEclosion : Eclosion :=
  { eid := 0, cell := 0, va := 0#64, site := {}, word0 := 0#64, word1 := 0#64, word2 := 0#64, word3 := 0#64
    evaluator := .pending, waiters := [.mp 1 0 0], overflow := false, released := false, remote := false }

def overrules : State :=
  { State.reset with
    m := { State.reset.m with tags := [(0, .eclosing)] }
    work := { State.reset.work with regions := [overrulingRegion] }
    cells := { State.reset.cells with eclosions := [awaitedEclosion] } }

/-- The load waits on its cell no longer once the window is performed. -/
theorem overrules_wakes {t : State} (h : exec (.windowCommit 1) overrules = .next t) :
    (t.region? 1).map (fun u => u.elems.map (fun x => x.mp.spill.map (·.onCell))) = some [[none]] := by
  have run : Host.Outcome.next t = (execWindowCommit 1 overrules : Out) := h.symm
  injection run with e
  rw [e]
  rfl

/-- Refutes O44: a window's store overrules the ECLOSING cell that it meets (R293), which wakes the cell's waiters (R307), and when
the port's own load is one of them, the ports change by more than their windows. -/
theorem not_regionEvents : ¬ Obligations.RegionEvents := by
  unfold Obligations.RegionEvents
  intro h
  obtain ⟨-, -, -, commits, -⟩ := h overrules overrulingRegion waitingPort loadedResidency rfl
  have ports : overrulingRegion.windowPorts = [waitingPort] := rfl
  obtain ⟨t, run, -, -, u, found, -, -, elems⟩ := commits overrulingStore rfl (by decide) (by decide) rfl
    (by rw [ports]; exact List.nodup_singleton _) (by rw [ports]; exact List.mem_singleton_self _)
    (by
      rw [ports]
      intro x hx
      obtain rfl := List.mem_singleton.mp hx
      exact ⟨rfl, by decide, fun ne => absurd rfl ne⟩)
    rfl rfl rfl State.reset_memOk
  have wakes := overrules_wakes run
  have id : overrulingRegion.rid = 1 := rfl
  rw [id] at found
  rw [found, Option.map_some, elems] at wakes
  exact absurd wakes (by decide)

end Sys2Proof.Machine
end

