-- ==== Sys2Proof/Proofs/FullTable.lean ====
section
/-! SUPPORT. A state that refutes O43. -/
namespace Sys2Proof.Machine

/-! ## A decision while a configuration waits outside the table of 32 (R388) -/

/-- A served image without elements, of a quarter shape. -/
def emptyServed : Image :=
  { served := true, shape := .quarter, nplanes := 1, args := 0, res := 0, frames := [], edges := [], kind := .broad
    indep := false, replay := 0#64 }

/-- A graph of 33 such configurations, ids 0 to 32. -/
def servedGraph : Graph :=
  { part := 0, slot := 0, gen := 0, loaded := true, key := 0#256, window := 0#64, wlen := 0
    images := List.replicate 33 emptyServed, kernels := [] }

/-- A launch of it with one quarter region reserved in cluster 0. -/
def servedLaunch : Launch :=
  { die := 0, lid := 0, part := 0, tag := 0, vec := 0, graph := 0
    kernel := { entry := 0#64, roots := 1, max := 1, onDie := false, cluster := 0, q0 := 0, cells := 0, whole := 0, half := 0
                quarter := 1, servers := [] }
    asid := 0, ptb := 0#64, tvec := 0#64, drops := 0, lost := 0 }

/-- Configuration `i` waits, in the table if it is one of the first 32. -/
def servedWaits (i : Nat) : Waiting :=
  { die := 0, cluster := 0, cfg := i, part := 0, launch := some (0, 0), order := i, age := 0, inTable := decide (i < 32) }

/-- All 33 wait, and one decision is to be taken. -/
def fullTable : State :=
  { State.reset with
    work := { State.reset.work with graphs := [servedGraph], launches := [servedLaunch], decisions := [(0, 0)]
                                    waitings := (List.range 33).map servedWaits }
    plant := { State.reset.plant with bring := .full, dies := Vector.replicate 8 { spores := [(0, 0)] } } }

/-- The decision of the cluster is an occasion for another one. -/
theorem fullTable_decisions {t : State} (h : exec (.frondDecision 0 0) fullTable = .next t) :
    t.work.decisions = [(0, 0)] := by
  have run : Host.Outcome.next t = (execFrondDecision 0 0 fullTable : Out) := h.symm
  injection run with e
  rw [e]
  rfl

/-- Refutes O43: the configuration that is placed leaves the table, the oldest that waits outside the table enters it, and that is
an occasion for a decision (R388), so that the decisions are not those of before less the one that was taken. -/
theorem not_placingHolders : ¬ Obligations.PlacingHolders := by
  unfold Obligations.PlacingHolders
  intro h
  obtain ⟨decides, -⟩ := h fullTable 0 0 (0, 0) loadedResidency (by intro r hr; exact absurd hr List.not_mem_nil)
  obtain ⟨-, places⟩ := decides (servedWaits 0) emptyServed (0, 0) (by decide) rfl rfl rfl rfl
  obtain ⟨t, run, decisions, -⟩ := places rfl rfl
  rw [fullTable_decisions run] at decisions
  exact absurd decisions (by decide)

end Sys2Proof.Machine
end

