-- ==== Sys2Proof/Proofs/ServedForms.lean ====
section
/-! PROOF. Served packets and the evaluation of cells (O42). -/
namespace Sys2Proof.Machine

variable {s t : State}

/-! ## Packets (R171, R209) -/

theorem State.packet?_setPacket (s : State) (p : Packet) (pid : Nat) : (s.setPacket p).packet? pid =
    if pid = p.pid then (s.packet? pid).map (fun _ => p) else s.packet? pid := by
  refine (find?_map_keeps (fun x => ?_) s.work.packets).trans ?_
  · split
    · next same => rw [same]
    · rfl
  · unfold State.packet?
    cases found : s.work.packets.find? _ with
    | none => simp
    | some x =>
      have named := List.find?_some found
      rw [beq_iff_eq] at named
      rw [Option.map_some, named]
      split <;> rfl

theorem State.packet?_pid {pid : Nat} {p : Packet} (h : s.packet? pid = some p) : p.pid = pid := by
  have named := List.find?_some h
  rwa [beq_iff_eq] at named

/-- A packet of those that the machine has is found under its number. -/
theorem State.packet?_isSome {p : Packet} (h : p ∈ s.work.packets) : ∃ q, s.packet? p.pid = some q :=
  Option.isSome_iff_exists.mp (List.find?_isSome.mpr ⟨p, h, beq_self_eq_true _⟩)

theorem State.packet?_set {p : Packet} (q : Packet) (h : p ∈ s.work.packets) (same : q.pid = p.pid) :
    (s.setPacket q).packet? p.pid = some q := by
  obtain ⟨x, found⟩ := State.packet?_isSome h
  rw [State.packet?_setPacket, if_pos same.symm, found, Option.map_some]

theorem State.packet?_dropPacket (s : State) (pid : Nat) : (s.dropPacket pid).packet? pid = none :=
  List.find?_eq_none.mpr fun x hx => by
    have other := (List.mem_filter.mp hx).2
    simpa using other

/-! ## Injection (R209, R210, R347) -/

/-- An argument enters the arc. -/
def Region.argEnters (r : Region) (a : Arc) (j : Nat) : Bool := match portElem r 0 j with
  | some x => a.leaves x.plane x.row x.col (2 ^ (j % 4))
  | none => false

/-- The token of an argument. -/
def argToken (tag : Nat) (q : Word × Nat) : Token := { kind := 0, payload := q.1.zeroExtend 512, par := false, tag := tag }

/-- One argument placed at its port. -/
def Region.placeArg (tag : Nat) (r : Region) (q : Word × Nat) : Region := match portElem r 0 q.2 with
  | some e => r.placeTok e { mask := 2 ^ (q.2 % 4), tok := argToken tag q }
  | none => r

/-- An arc with the arguments that enter it behind its tokens. -/
def Region.arcWith (r : Region) (tag : Nat) (qs : List (Word × Nat)) (a : Arc) : Arc :=
  { a with queue := a.queue ++ (qs.filter (fun q => r.argEnters a q.2)).map (argToken tag) }

theorem Region.arcWith_nil (r : Region) (tag : Nat) : r.arcWith tag [] = id := by
  funext a
  simp [Region.arcWith]

theorem Region.placeArg_eq (r : Region) (tag : Nat) (q : Word × Nat) :
    r.placeArg tag q = { r with arcs := r.arcs.map (r.arcWith tag [q]) } := by
  have arcs : (r.placeArg tag q).arcs = r.arcs.map (r.arcWith tag [q]) := by
    unfold Region.placeArg
    cases port : portElem r 0 q.2 with
    | none =>
      refine (List.map_id _).symm.trans (List.map_congr_left fun a _ => ?_)
      simp [Region.arcWith, Region.argEnters, port]
    | some e =>
      refine List.map_congr_left fun a _ => ?_
      cases enters : a.leaves e.plane e.row e.col (2 ^ (q.2 % 4)) <;>
        simp [Region.arcWith, Region.argEnters, port, enters]
  rw [← arcs]
  unfold Region.placeArg
  split <;> rfl

/-- Arguments placed one after another enter the arcs behind what is there (R209). -/
theorem Region.placeArgs_eq (r : Region) (tag : Nat) (qs : List (Word × Nat)) :
    qs.foldl (Region.placeArg tag) r = { r with arcs := r.arcs.map (r.arcWith tag qs) } := by
  induction qs generalizing r with
  | nil => rw [List.foldl_nil, Region.arcWith_nil, List.map_id]
  | cons q qs ih =>
    rw [List.foldl_cons, ih, Region.placeArg_eq]
    have arcs : (r.arcs.map (r.arcWith tag [q])).map (r.arcWith tag qs) = r.arcs.map (r.arcWith tag (q :: qs)) := by
      rw [List.map_map]
      refine List.map_congr_left fun a _ => ?_
      have same (j : Nat) : r.argEnters (r.arcWith tag [q] a) j = r.argEnters a j := rfl
      show ({ r.arcWith tag [q] a with queue := _ } : Arc) = { a with queue := _ }
      simp only [same]
      cases enters : r.argEnters a q.2 <;> simp [Region.arcWith, enters]
    rw [← arcs]
    rfl

/-- The region `x` takes the packet: what an earlier packet of its tag has left goes, and the caller is told (log entry 135). -/
def State.takesPacket (s : State) (p : Packet) (u : Nat) (x : Region) : State :=
  ((s.setRegion { x with
      psn := x.psn.filter (fun q => q.1 != p.tag), pflags := x.pflags.filter (fun q => q.1 != p.tag)
      lastInj := s.cycle, lastMove := s.cycle }).setPacket { p with region := some x.rid }).mapStrand u
    (fun t => { t with park := { t.park with injected := true } })

/-- SERVE_INJECT where every argument has room (R210, R347; log entry 135). -/
theorem State.serveInject_places {pid u : Nat} {p : Packet} {r : Region} (found : s.packet? pid = some p)
    (region : s.resident p = some r) (waits : p.waits = true) (runs : r.phase = .running) (first : s.firstWaiting p = true)
    (later : p.since < s.cycle) (caller : p.caller = .strand u)
    (room : ∀ j, j < p.args.length → ∃ x, portElem r 0 j = some x ∧ r.accepts x (2 ^ (j % 4)) = true) :
    exec (.serveInject pid) s = .next (s.takesPacket p u { r with arcs := r.arcs.map (r.arcWith p.tag p.args.zipIdx) }) := by
  have rooms : (List.range p.args.length).all (fun j => match portElem r 0 j with
      | some e => r.accepts e (2 ^ (j % 4))
      | none => false) = true := by
    refine List.all_eq_true.mpr fun j hj => ?_
    obtain ⟨x, port, fits⟩ := room j (List.mem_range.mp hj)
    rw [port]
    exact fits
  have placed := Region.placeArgs_eq r p.tag p.args.zipIdx
  show execServeInject pid s = _
  unfold execServeInject
  simp only [found, region]
  refine (if_neg fun stays => ?_).trans ?_
  · simp only [waits, runs, first, Bool.or_eq_true, Bool.not_true, Bool.false_eq_true, bne_self_eq_false, decide_eq_true_eq,
      Nat.not_le.mpr later, false_or, Bool.not_eq_true'] at stays
    exact absurd (rooms.symm.trans stays) (by decide)
  · simp only [caller]
    generalize fold : List.foldl _ r p.args.zipIdx = x
    have all : x = { r with arcs := r.arcs.map (r.arcWith p.tag p.args.zipIdx) } := fold.symm.trans placed
    rw [all, State.takesPacket, caller]

/-! ## What a released store leaves of the packets (R212, R293, R307, R393) -/

theorem State.raise_work (s : State) (part : Nat) (b : Subscription) (v : Nat) : (s.raise part b v).work = s.work := by
  have told : (match s.notifyLoc part b.die b.cluster b.notify with
      | some l => s.writeNotify l b.source b.die v
      | none => s).work = s.work := by
    split <;> rfl
  unfold State.raise
  dsimp only
  split
  · exact told
  · exact (State.signal_work _ _ _).trans told

theorem State.charge_work (s : State) (part die which n : Nat) : (s.charge part die which n).work = s.work := by
  unfold State.charge
  dsimp only
  split
  · rfl
  · split
    · exact foldl_keeps (g := State.work) (fun u b => u.raise_work part b 0) _ _
    · rfl

theorem State.ask_work (s : State) (op width pa : Nat) (va : Word) (data : BitVec 512) (expected : Word) (uid part die : Nat)
    (w : Option Waiter) (cid : Option Nat) (agent : Nat) (cpage : Bool) (lane : Nat) :
    (s.ask op width pa va data expected uid part die w cid agent cpage lane).work = s.work := by
  unfold State.ask
  extract_lets o h s1 s2
  have sent : s2.work = s.work := by
    obtain ⟨y, e⟩ := s1.sendLink_only part die (some pa) (.request o.rq op width pa va data expected agent cpage)
    rw [show s2 = { s1 with host := y } from e]
  exact (State.charge_work _ _ _ _ _).trans sent

theorem State.wakeWaiter_packets (s : State) (part pa : Nat) (w : Waiter) :
    (s.wakeWaiter part pa w).work.packets = s.work.packets ∧ (s.wakeWaiter part pa w).cells = s.cells := by
  cases w with
  | strand uid => exact ⟨rfl, rfl⟩
  | mp rid row key => exact ⟨rfl, rfl⟩
  | remote m rq =>
    obtain ⟨h, e⟩ := s.sendLink_only part (paDie pa) (some pa) (.wake m rq)
    show (s.sendLink part (paDie pa) (some pa) (.wake m rq)).work.packets = _ ∧ (s.sendLink part (paDie pa) (some pa) (.wake m rq)).cells = _
    rw [e]
    exact ⟨rfl, rfl⟩

theorem State.endEclosion_packets (s : State) (e : Eclosion) : (s.endEclosion e).work.packets = s.work.packets :=
  foldl_keeps (f := State.wakeWaiter e.site.part e.cell) (g := fun u : State => u.work.packets)
    (fun u w => (u.wakeWaiter_packets _ _ w).1) e.waiters _

theorem State.endEclosion_cells (s : State) (e : Eclosion) : (s.endEclosion e).cells =
    { s.cells with eclosions := s.cells.eclosions.filter (fun x => x.eid != e.eid) } :=
  foldl_keeps (f := State.wakeWaiter e.site.part e.cell) (g := State.cells)
    (fun u w => (u.wakeWaiter_packets _ _ w).2) e.waiters _

theorem State.writeGlobal_packets (s : State) (pa : Nat) (bs : List Byte) :
    (s.writeGlobal pa bs).work.packets = s.work.packets := by
  unfold State.writeGlobal
  split
  · rfl
  · simp only [State.wrBytes_work, State.wr_work, State.setTag_work]
    split
    · exact State.endEclosion_packets s _
    · rfl
  · simp only [State.wrBytes_work, State.wr_work, State.setTag_work]

theorem State.writeCells_packets (n : Nat) (s : State) (pa : Nat) (bs : List Byte) :
    (s.writeCells n pa bs).work.packets = s.work.packets := by
  induction n generalizing s pa bs with
  | zero => rfl
  | succ n ih =>
    unfold State.writeCells
    split
    · rfl
    · exact (ih _ _ _).trans (State.writeGlobal_packets _ _ _)

theorem State.commitStore_packets (s : State) (r : Region) (b : BufStore) :
    (s.commitStore r b).work.packets = s.work.packets := by
  unfold State.commitStore
  split
  · rw [State.ask_work]
  · split
    · exact (State.writeCells_packets _ _ _ _).trans (by rw [State.useKey_work])
    · rfl

theorem State.releaseTag_packets (s : State) (r : Region) (tag : Nat) : (s.releaseTag r tag).work.packets = s.work.packets :=
  foldl_keeps (f := fun s b => State.commitStore s r b) (g := fun u : State => u.work.packets)
    (fun u b => u.commitStore_packets r b) _ _

/-! ## The exit (R209 to R212) -/

/-- The region when the results of a tag have left its exit. -/
def Region.afterExit (r : Region) (tag now : Nat) : Region :=
  { ((List.range r.image.res).foldl (fun r i => r.takeTok (r.exitElem i) (i % 4)) r).dropTag tag with lastMove := now }

/-- The flags that leave with the results of a tag. -/
def Region.exitFlags (r : Region) (tag : Nat) : BitVec 5 := match r.pflags.find? (fun q => q.1 == tag) with
  | some q => q.2
  | none => 0#5

section
variable {r : Region} {hs : List Token} (region : s.region? r.rid = some r) (served : r.served = true) (some' : hs ≠ [])
  (ended : r.underWay ((hs.map (fun h => h.tag)).headD 0) = false)
  (heads : (List.range r.image.res).mapM (m := Option) r.resultHead = some hs)
include region served some' ended heads

/-- Heads of different tags (R210). -/
theorem State.servedExit_lost (differ : ∃ h ∈ hs, h.tag ≠ (hs.map (fun h => h.tag)).headD 0) :
    exec (.servedExit r.rid) s = .next (s.lostStep r) := by
  have any : hs.any (fun t => t.tag != (hs.map (fun h => h.tag)).headD 0) = true := by
    obtain ⟨h, mem, ne⟩ := differ
    exact List.any_eq_true.mpr ⟨h, mem, by simpa using ne⟩
  have filled : hs.isEmpty = false := by simpa using some'
  show execServedExit r.rid s = _
  simp only [execServedExit, region, heads, served, filled, ended, Bool.not_true, Bool.or_self, Bool.false_eq_true, if_false, any,
    if_true]

variable {tag : Nat} {p : Packet} (one : ∀ h ∈ hs, h.tag = tag)
  (packet : s.work.packets.find? (fun p => p.region == some r.rid && p.tag == tag && p.result.isNone && p.poison.isNone) = some p)
include one packet

/-- The results of one tag leave the exit: poisoned, or with the tag's stores when these may be released (R211, R212). -/
theorem State.servedExit_one :
    (∀ x, s.exitPoison r tag hs = some x → exec (.servedExit r.rid) s =
      .next (((s.setRegion (r.afterExit tag s.cycle)).setPacket { p with poison := some x }).packetLeft r)) ∧
    (s.exitPoison r tag hs = none → (r.tagStores tag).all (s.releases r) = true → exec (.servedExit r.rid) s =
      .next ((((s.setRegion (r.afterExit tag s.cycle)).releaseTag r tag).leaveExit p
        (hs.map (fun h => h.payload.truncate 64)) (r.exitFlags tag) s.fresh).packetLeft r)) := by
  obtain ⟨h, hs', rfl⟩ := List.exists_cons_of_ne_nil some'
  obtain rfl : h.tag = tag := one h List.mem_cons_self
  have alike : (h :: hs').any (fun t => t.tag != h.tag) = false := by
    rw [Bool.eq_false_iff]
    intro differ
    obtain ⟨y, mem, ne⟩ := List.any_eq_true.mp differ
    rw [one y mem, bne_self_eq_false] at ne
    exact Bool.false_ne_true ne
  rw [List.map_cons, List.headD_cons] at ended
  refine ⟨fun x bad => ?_, fun good release => ?_⟩
  · show execServedExit r.rid s = _
    simp only [execServedExit, region, heads, served, ended, List.map_cons, List.headD_cons, List.isEmpty_cons, Bool.not_true,
      Bool.or_self, Bool.false_eq_true, if_false, alike, packet, bad]
    rfl
  · show execServedExit r.rid s = _
    simp only [execServedExit, region, heads, served, ended, List.map_cons, List.headD_cons, List.isEmpty_cons, Bool.not_true,
      Bool.or_self, Bool.false_eq_true, if_false, alike, packet, good, release]
    rfl

end

/-! ## Results at the caller (R171, R172) -/

theorem State.setGs_only (s : State) (n : Nat) (ws : List Word) :
    ∃ g, s.setGs n ws = { s with self := { s.self with g := g } } := by
  induction ws generalizing s n with
  | nil => exact ⟨s.self.g, rfl⟩
  | cons x xs ih =>
    obtain ⟨g, rest⟩ := ih (s.setG (BitVec.ofNat 6 n) x) (n + 1)
    refine ⟨g, rest.trans ?_⟩
    unfold State.setG Strand.setG
    split <;> rfl

/-- Results in consecutive registers; g0 stays zero (R93, R171). -/
theorem State.getGn_setGs (s : State) {n : Nat} {ws : List Word} (fits : n + ws.length ≤ 64) {i : Nat} (lt : i < 64) :
    (s.setGs n ws).getGn i = if n ≤ i ∧ i < n + ws.length ∧ i ≠ 0 then ws.getD (i - n) 0#64 else s.getGn i := by
  induction ws generalizing s n with
  | nil => rw [if_neg (by simp; omega)]; rfl
  | cons x xs ih =>
    rw [List.length_cons] at fits
    have reg : BitVec.ofNat 6 i = BitVec.ofNat 6 n ↔ i = n := by
      rw [← BitVec.toNat_inj, BitVec.toNat_ofNat, BitVec.toNat_ofNat, Nat.mod_eq_of_lt lt, Nat.mod_eq_of_lt (by omega)]
    have zero : BitVec.ofNat 6 n = 0#6 ↔ n = 0 := by
      rw [← BitVec.toNat_inj, BitVec.toNat_ofNat, Nat.mod_eq_of_lt (by omega)]
      rfl
    have set : (s.setG (BitVec.ofNat 6 n) x).getGn i = if i = n ∧ n ≠ 0 then x else s.getGn i := by
      simp only [State.getGn, State.getG_setG, reg, ne_eq, zero]
    rw [State.setGs, ih _ (by omega), set, List.length_cons]
    by_cases here : i = n
    · subst here
      by_cases first : i = 0 <;> simp [first]
    · by_cases inside : n ≤ i ∧ i < n + (xs.length + 1) ∧ i ≠ 0
      · rw [if_pos (by omega), if_pos inside, show i - n = (i - (n + 1)) + 1 by omega, List.getD_cons_succ]
      · rw [if_neg (by omega), if_neg (by omega), if_neg inside]

section
variable {pid : Nat} {p : Packet} (found : s.packet? pid = some p) (left : s.heldAtExit p = false)
  (caller : p.caller = .strand s.self.id.uid) (seat : s.strand? s.self.id.uid = some s.self)
  (serves : s.self.parkedFor .serve = true)
include found left caller seat serves

/-- The caller takes the results and the flags and goes on (R171). -/
theorem State.serveResult_delivers {ws : List Word} {fl : BitVec 5} (result : p.result = some (ws, fl)) :
    exec (.serveResultArrival pid) s = .next (((((s.dropPacket pid).setGs p.dst ws).mergeFlags fl).unpark).adv) := by
  obtain ⟨-, live, -⟩ := s.strand?_some seat
  show execServeResultArrival pid s = _
  simp only [execServeResultArrival, found, left, caller, result, Bool.false_eq_true, if_false]
  rw [State.onStrand_some (s := s.dropPacket pid) seat serves, State.seat_self (s.dropPacket pid) (uid := s.self.id.uid) live rfl]

/-- A poisoned packet traps at its caller (R172). -/
theorem State.serveResult_traps {x : BitVec 64} (none : p.result = none) (poison : p.poison = some x) :
    exec (.serveResultArrival pid) s = .next ((s.dropPacket pid).trap (p.servep x)) := by
  obtain ⟨-, live, -⟩ := s.strand?_some seat
  show execServeResultArrival pid s = _
  simp only [execServeResultArrival, found, left, caller, none, poison, Bool.false_eq_true, if_false]
  rw [State.onStrand_some (s := s.dropPacket pid) seat serves, State.seat_self (s.dropPacket pid) (uid := s.self.id.uid) live rfl]

end

theorem State.endGang_work (s : State) : s.endGang.work = s.work := by
  unfold State.endGang State.mapFollower
  split
  · dsimp only
    split <;> rfl
  · rfl

/-! ## Requests for evaluators (R297 to R299) -/

/-- A request is released before another: the higher PRIO, then the earlier. -/
abbrev Eclosion.before (x b : Eclosion) : Prop := b.prio < x.prio ∨ (b.prio = x.prio ∧ x.eid < b.eid)

/-- The one before all others is chosen. -/
theorem foldl_first {e : Eclosion} (l : List Eclosion) (b : Eclosion) (mem : e ∈ b :: l)
    (others : ∀ x ∈ b :: l, x ≠ e → e.before x) :
    l.foldl (fun b x => if b.prio < x.prio ∨ (b.prio = x.prio ∧ x.eid < b.eid) then x else b) b = e := by
  have not_before {x : Eclosion} (h : e.before x) : ¬ x.before e := by
    unfold Eclosion.before at *
    omega
  induction l generalizing b with
  | nil => exact (List.mem_singleton.mp mem).symm
  | cons x l ih =>
    obtain ⟨first, second, rest⟩ : (b ≠ e → e.before b) ∧ (x ≠ e → e.before x) ∧ ∀ y ∈ l, y ≠ e → e.before y := by
      simpa using others
    have chosen : (if x.before b then x else b) = e ∨ ((if x.before b then x else b) ≠ e ∧ e ∈ l) := by
      by_cases hb : b = e
      · subst hb
        by_cases hx : x = b
        · simp [hx]
        · exact .inl (if_neg (not_before (second hx)))
      · by_cases hx : x = e
        · subst hx
          exact .inl (if_pos (first hb))
        · refine .inr ⟨?_, by simpa [Ne.symm hb, Ne.symm hx] using mem⟩
          split
          · exact hx
          · exact hb
    have either : (if x.before b then x else b) ≠ e → e.before (if x.before b then x else b) := by
      split
      · exact second
      · exact first
    rw [List.foldl_cons]
    refine ih _ ?_ fun y hy ne => ?_
    · exact chosen.elim (fun h => h ▸ List.mem_cons_self) fun h => List.mem_cons_of_mem _ h.2
    · obtain rfl | hy := List.mem_cons.mp hy
      · exact either ne
      · exact rest y hy ne

/-- The entry that an evaluation packet leaves of its eclosion (R299). -/
def Eclosion.asPacket (die cluster idx : Nat) (e : Eclosion) : Eclosion :=
  { e with evaluator := .packet die cluster idx, released := true, queuedAt := none }

/-- An evaluation packet joins those of its cluster and takes an entry of the cell-packet table (R299). -/
theorem State.evalPacket_spec (s : State) (e : Eclosion) (d c i : Nat) :
    (∃ q, (s.evalPacket e d c i).work.packets = s.work.packets ++ [q] ∧ q.caller = .cell i ∧ q.args = [e.va, e.word1, e.word3] ∧
      q.cfg = bits e.word0 63 1 ∧ q.site.part = e.site.part ∧ q.die = d ∧ q.cluster = c) ∧
    (s.evalPacket e d c i).cells.cellPkts = s.cells.cellPkts ++ [(d, c, i, e.eid)] ∧
    (s.evalPacket e d c i).cells.eclosions =
      s.cells.eclosions.map (fun x => if x.eid = e.eid then x.asPacket d c i else x) := by
  unfold State.evalPacket
  extract_lets cfg res p h u on
  obtain ⟨w, dec, f, added⟩ := u.addPacket_only p
  rw [added]
  exact ⟨⟨p, rfl, rfl, rfl, rfl, rfl, rfl, rfl⟩, rfl, rfl⟩

section
variable {die part : Nat}

theorem State.evalRelease_next {e : Eclosion} {d c i : Nat}
    (next : (s.cells.eclosions.filter (fun e => paDie e.cell == die && e.site.part == part)).findSome?
      (fun x => (s.nextPacket x).map (fun q => (x, q))) = some (e, d, c, i)) :
    exec (.evalRequestRelease die part) s = .next (s.evalPacket e d c i) := by
  show execEvalRequestRelease die part s = _
  simp only [execEvalRequestRelease, next]

theorem State.evalRelease_first {e : Eclosion}
    (next : (s.cells.eclosions.filter (fun e => paDie e.cell == die && e.site.part == part)).findSome?
      (fun x => (s.nextPacket x).map (fun q => (x, q))) = none)
    (mem : e ∈ s.cells.eclosions.filter (fun e => paDie e.cell == die && e.site.part == part)) (may : s.releasable e = true)
    (admits : s.evalAdmits die part = true)
    (first : ∀ x ∈ s.cells.eclosions.filter (fun e => paDie e.cell == die && e.site.part == part),
      s.releasable x = true → x ≠ e → e.before x) :
    exec (.evalRequestRelease die part) s = .next (s.release e) := by
  show execEvalRequestRelease die part s = _
  unfold execEvalRequestRelease
  generalize s.cells.eclosions.filter (fun e => paDie e.cell == die && e.site.part == part) = mine at next mem first ⊢
  have mem' : e ∈ mine.filter s.releasable := List.mem_filter.mpr ⟨mem, may⟩
  have first' : ∀ x ∈ mine.filter s.releasable, x ≠ e → e.before x := fun x hx =>
    first x (List.mem_filter.mp hx).1 (List.mem_filter.mp hx).2
  simp only [next]
  cases queue : mine.filter s.releasable with
  | nil => rw [queue] at mem'; exact absurd mem' List.not_mem_nil
  | cons b l =>
    rw [queue] at mem' first'
    simp only [admits, Bool.not_true, Bool.false_eq_true, if_false, foldl_first l b mem' first']

end

/-- A request that waits for an entry is alone in its order (R297, R299). -/
theorem State.release_packet {e : Eclosion} {d c : Nat} (packet : e.word0.getLsbD 0 = true) (place : s.evalPlace e = (d, c))
    (alone : ∀ x ∈ s.cells.eclosions, x.queuedAt = none) :
    let e' : Eclosion := { e with released := true, queuedAt := some (d, c, s.fresh) }
    let u : State := { s.mapEclosion e.eid (fun _ => e') with fresh := s.fresh + 1 }
    (∀ i, s.freeCellPkt d c = some i → s.release e = u.evalPacket e' d c i) ∧ (s.freeCellPkt d c = none → s.release e = u) := by
  intro e' u
  have next : u.nextPacket e' = (s.freeCellPkt d c).map (fun i => (d, c, i)) := by
    unfold State.nextPacket
    refine if_neg ?_
    rw [Bool.not_eq_true, Bool.eq_false_iff]
    intro earlier
    obtain ⟨x, hx, before⟩ := List.any_eq_true.mp earlier
    obtain ⟨y, hy, rfl⟩ := List.mem_map.mp hx
    split at before
    · simp [e'] at before
    · rw [alone y hy] at before
      cases before
  refine ⟨fun i free => ?_, fun free => ?_⟩
  all_goals
    rw [free] at next
    unfold State.release
    simp only [packet, place, Bool.not_true, Bool.false_eq_true, if_false]
    split
  · next found =>
    obtain ⟨rfl, rfl, rfl⟩ : _ ∧ _ ∧ _ := by simpa using found.symm.trans next
    rfl
  · next found => cases found.symm.trans next
  · next found => cases found.symm.trans next
  · rfl

/-- An entry of the changed number, among entries of which that one has been changed. -/
theorem map_named {l : List Eclosion} {n : Nat} (f : Eclosion → Eclosion) {P : Eclosion → Prop} (changed : ∀ x, P (f x))
    {x : Eclosion} (h : x ∈ l.map (fun x => if x.eid = n then f x else x)) (same : x.eid = n) : P x := by
  obtain ⟨y, -, rfl⟩ := List.mem_map.mp h
  split
  · exact changed y
  next other => exact absurd (by rwa [if_neg other] at same) other

/-- The evaluator strand of a request that names no packet (R298; log entry 109). -/
theorem State.release_strand {e : Eclosion} (strand : e.word0.getLsbD 0 = false) :
    (s.release e).m = s.m ∧ (∀ x ∈ (s.release e).cells.eclosions, x.eid = e.eid → x.released = true) ∧
    ∃ y, (s.release e).others = s.others ++ [y] ∧ y.st = .queued ∧ y.id.ctx = .evaluator ∧ y.id.part = e.site.part ∧
      y.pc = e.word0 &&& ~~~3#64 ∧ y.g = regsFrom [e.va, e.word1, e.word3, e.word2] := by
  have run : s.release e = s.evalStrand e (s.evalPlace e).1 (s.evalPlace e).2 := by
    unfold State.release
    simp only [strand, Bool.not_false, if_true]
  rw [run]
  exact ⟨rfl, fun x hx => map_named _ (P := fun x => x.released = true) (fun _ => rfl) hx, _, rfl, rfl, rfl, rfl, entry_eq_and _, rfl⟩

theorem State.freeRegion_work (s : State) (rid : Nat) :
    (s.freeRegion rid).work.regions = s.work.regions.filter (fun r => r.rid != rid) ∧
    (s.freeRegion rid).work.packets = s.work.packets := by
  unfold State.freeRegion
  dsimp only
  split <;> exact ⟨rfl, rfl⟩

theorem State.enterWaitings_keep (l : List Packet) (s : State) : (l.foldl State.enterWaiting s).m = s.m ∧
    (l.foldl State.enterWaiting s).work.regions = s.work.regions ∧
    (l.foldl State.enterWaiting s).work.packets = s.work.packets := by
  refine ⟨foldl_keeps (g := State.m) (fun v p => ?_) l s, foldl_keeps (g := fun v : State => v.work.regions) (fun v p => ?_) l s,
    foldl_keeps (g := fun v : State => v.work.packets) (fun v p => ?_) l s⟩
  all_goals
    obtain ⟨w, d, f, h⟩ := v.enterWaiting_only p
    rw [h]

/-- Heads of different tags leave every injected packet poisoned, and the region is gone (R210). -/
theorem State.lostStep_spec (s : State) (r : Region) :
    SameBytes s (s.lostStep r) ∧ (s.lostStep r).region? r.rid = none ∧ (s.lostStep r).work.packets = s.work.packets.map (fun q =>
      if q.region = some r.rid ∧ q.result.isNone ∧ q.poison.isNone then
        { q with poison := some (BitVec.ofNat 64 (r.siteId (r.shape.rows - 1) 0 % 4096 + 2 ^ 12 * 4)) } else q) := by
  unfold State.lostStep
  extract_lets site fix h u v
  obtain ⟨m, regions, packets⟩ := State.enterWaitings_keep (v.work.packets.filter Packet.waits) v
  obtain ⟨_, _, _, freed, mem, -⟩ := State.freeRegion_only (s := u) r.rid
  obtain ⟨rest, same⟩ := State.freeRegion_work u r.rid
  refine ⟨fun a => ?_, ?_, packets.trans same⟩
  · have bytes : v.m.mem = s.m.mem := by rw [show v = _ from freed]; exact mem
    rw [State.byteAt, m, bytes]
    rfl
  · refine List.find?_eq_none.mpr fun x hx => ?_
    rw [regions, show v.work.regions = _ from rest] at hx
    simpa using (List.mem_filter.mp hx).2

/-- The results of a packet fill its cell, and the eclosion ends (R299). -/
theorem State.evalPacket_fills {pid : Nat} {p : Packet} {e : Eclosion} {i : Nat} {ws : List Word} {fl : BitVec 5}
    (found : s.packet? pid = some p) (left : s.heldAtExit p = false) (caller : p.caller = .cell i)
    (result : p.result = some (ws, fl)) (fits : ws.length ≤ 4) (ok : s.memOk)
    (entry : s.cells.cellPkts.find? (fun q => q.1 == p.die && q.2.1 == p.cluster && q.2.2.1 == i) =
      some (p.die, p.cluster, i, e.eid))
    (eclosion : s.cells.eclosions.find? (fun x => x.eid == e.eid) = some e) :
    ∃ u, exec (.evalPacketResult pid) s = .next u ∧ u.tag e.cell = .value ∧
      u.cells.eclosions = s.cells.eclosions.filter (fun x => x.eid != e.eid) ∧
      u.work.packets = s.work.packets.filter (fun x => x.pid != pid) ∧
      (∀ j, j < 4 → u.rd (e.cell + 8 * j) 8 = (ws.getD j 0#64).toNat) ∧ SameBytesBut e.cell 32 s u := by
  have run : exec (.evalPacketResult pid) s = .next ((s.dropPacket pid).fillCell p.die p.cluster i ws) := by
    show execEvalPacketResult pid s = _
    simp only [execEvalPacketResult, found, left, caller, result, Bool.false_eq_true, if_false]
  have entry' : (s.dropPacket pid).cells.cellPkts.find? (fun q => q.1 == p.die && q.2.1 == p.cluster && q.2.2.1 == i) =
      some (p.die, p.cluster, i, e.eid) := entry
  have eclosion' : (s.dropPacket pid).cells.eclosions.find? (fun x => x.eid == e.eid) = some e := eclosion
  unfold State.fillCell at run
  simp only [entry', eclosion'] at run
  refine ⟨_, run, ?_⟩
  generalize hd : (s.dropPacket pid).cells.cellPkts.filter (fun q => !(q.1 == p.die && q.2.1 == p.cluster && q.2.2.1 == i)) = pkts
  have m : ({ s.dropPacket pid with cells := { (s.dropPacket pid).cells with cellPkts := pkts } } : State).m = s.m := rfl
  obtain ⟨tag, apart, -, words⟩ := State.filled_ends
    (s := { s.dropPacket pid with cells := { (s.dropPacket pid).cells with cellPkts := pkts } }) ok e.cell e fits
  refine ⟨tag, ?_, ?_, words, apart⟩
  · exact congrArg CellSide.eclosions (State.endEclosion_cells _ e)
  · exact State.endEclosion_packets _ e

theorem State.packetLeft_keeps (s : State) (r : Region) : (s.packetLeft r).m = s.m ∧ (s.packetLeft r).host = s.host ∧
    ∀ pid, (s.packetLeft r).packet? pid = s.packet? pid := by
  unfold State.packetLeft
  split <;> exact ⟨rfl, rfl, fun _ => rfl⟩

/-- Settles O42: entering, the exit, the delivery, the release of an evaluation and the filling of its cell are a lemma each. -/
theorem servedPackets : Obligations.ServedPackets := by
  unfold Obligations.ServedPackets
  intro s pid p r e ws fl gone
  refine ⟨fun u found region waits runs first later caller room => ?_, fun hs tag region served some' ended heads => ⟨fun differ => ?_,
    fun one packet => ⟨fun good release => ?_, fun x psn => ?_⟩⟩, fun found left caller seat serves => ⟨fun result fits => ?_,
    fun x none poison can => ?_⟩, fun die part => ?_, fun i found left caller result fits cell ok entry eclosion => ?_⟩
  · obtain rfl := State.packet?_pid found
    intro enters token
    have run := State.serveInject_places found region waits runs first later caller room
    refine ⟨_, run, rfl, ?_, fun y mine => State.strand?_mapStrand mine (fun _ => rfl) (fun _ => rfl), ?_⟩
    · exact State.packet?_set _ (List.mem_of_find?_eq_some found) rfl
    · have mem : r ∈ s.work.regions := List.mem_of_find?_eq_some region
      obtain ⟨x, there⟩ := Option.isSome_iff_exists.mp (List.find?_isSome (p := fun x : Region => x.rid == r.rid).mpr ⟨r, mem, by simp⟩)
      refine ⟨_, (State.region?_setRegion s _ r.rid).trans ((if_pos rfl).trans (congrArg (Option.map _) there)), ?_, ?_, rfl⟩
      · exact fun q hq => by simpa using (List.mem_filter.mp hq).2
      · exact fun q hq => by simpa using (List.mem_filter.mp hq).2
  · exact ⟨_, State.servedExit_lost region served some' ended heads differ, s.lostStep_spec r⟩
  · have run := (State.servedExit_one region served some' ended heads one packet).2 good release
    have mem : p ∈ ((s.setRegion (r.afterExit tag s.cycle)).releaseTag r tag).work.packets := by
      rw [State.releaseTag_packets]
      exact List.mem_of_find?_eq_some packet
    have sound : p.poison = none := by
      have chosen := List.find?_some packet
      simp only [Bool.and_eq_true, Option.isNone_iff_eq_none] at chosen
      exact chosen.2
    have empty : r.tagStores tag = [] → ((s.setRegion (r.afterExit tag s.cycle)).releaseTag r tag).m = s.m := fun none => by
      rw [State.releaseTag, none]
      rfl
    generalize (s.setRegion (r.afterExit tag s.cycle)).releaseTag r tag = v at run mem empty
    obtain ⟨m, host, packets⟩ := State.packetLeft_keeps (v.leaveExit p (hs.map (fun h => h.payload.truncate 64)) (r.exitFlags tag) s.fresh) r
    refine ⟨_, run, fun none => m.trans (empty none), _, _, (packets _).trans (State.packet?_set _ mem rfl), sound, rfl, rfl, ?_, fun none => ?_⟩
    · rw [host]
      rfl
    · rw [Region.exitFlags, none]
  · have bad : s.exitPoison r tag hs = some x := by
      unfold State.exitPoison
      rw [psn]
    have run := (State.servedExit_one region served some' ended heads one packet).1 x bad
    obtain ⟨m, -, packets⟩ := State.packetLeft_keeps ((s.setRegion (r.afterExit tag s.cycle)).setPacket { p with poison := some x }) r
    exact ⟨_, run, m, (packets _).trans (State.packet?_set _ (List.mem_of_find?_eq_some packet) rfl)⟩
  · have run := State.serveResult_delivers found left caller seat serves result
    obtain ⟨g, set⟩ := State.setGs_only (s.dropPacket pid) p.dst ws
    have reg (i : Nat) (lt : i < 64) := State.getGn_setGs (s.dropPacket pid) fits lt
    have regs (i : Nat) : (((s.dropPacket pid).setGs p.dst ws).mergeFlags fl).unpark.adv.getGn i =
      ((s.dropPacket pid).setGs p.dst ws).getGn i := rfl
    refine ⟨_, run, by rw [set]; exact s.packet?_dropPacket pid, by rw [set]; rfl, rfl, by rw [set]; rfl, by rw [set]; rfl,
      fun i lt ne => ?_, fun i lt out => ?_, by rw [set]; rfl, by rw [set]; rfl⟩
    · rw [regs, reg _ (by omega), if_pos (by omega), Nat.add_sub_cancel_left]
    · rw [regs, reg i lt, if_neg (by omega)]
      rfl
  · have run := State.serveResult_traps found left caller seat serves none poison
    obtain ⟨took, -, -⟩ := State.trap_took (s.dropPacket pid) can (r := p.servep x) (by unfold Packet.servep; dsimp only; split <;> decide)
    have work : ((s.dropPacket pid).trap (p.servep x)).work = (s.dropPacket pid).work := by
      rw [State.trap_eq (s.dropPacket pid) can]
      exact State.endGang_work _
    refine ⟨_, run, ?_, by rw [State.trap_m]; rfl, took⟩
    show List.find? _ ((s.dropPacket pid).trap (p.servep x)).work.packets = _
    rw [work]
    exact s.packet?_dropPacket pid
  · intro mine next packet
    refine ⟨fun d c i first => ?_, fun none mem may admits first => ?_⟩
    · exact ⟨_, State.evalRelease_next first, (s.evalPacket_spec e d c i).1, (s.evalPacket_spec e d c i).2.1⟩
    · intro out
      have run := State.evalRelease_first none mem may admits first
      refine ⟨fun strand => ?_, fun d c isPacket place alone => ?_⟩
      · obtain ⟨m, released, strands⟩ := State.release_strand strand
        exact ⟨_, run, released, m, strands⟩
      · obtain ⟨enters, waits⟩ := State.release_packet isPacket place alone
        refine ⟨fun i free => ?_, fun full => ?_⟩
        · rw [enters i free] at run
          obtain ⟨joins, entry, entries⟩ := State.evalPacket_spec { s.mapEclosion e.eid (fun _ =>
            { e with released := true, queuedAt := some (d, c, s.fresh) }) with fresh := s.fresh + 1 }
            { e with released := true, queuedAt := some (d, c, s.fresh) } d c i
          refine ⟨_, run, fun x hx => ?_, joins, entry⟩
          rw [entries] at hx
          exact map_named (n := e.eid) (Eclosion.asPacket d c i) (P := fun x => x.released = true) (fun _ => rfl) hx
        · rw [waits full] at run
          exact ⟨_, run, fun x hx => map_named (n := e.eid) _ (P := fun x => x.released = true) (fun _ => rfl) hx, rfl,
            fun x hx => map_named (n := e.eid) _ (P := fun x => x.queuedAt = some (d, c, s.fresh)) (fun _ => rfl) hx⟩
  · obtain ⟨u, run, tag, cells, packets, words, apart⟩ := State.evalPacket_fills found left caller result fits ok entry eclosion
    refine ⟨u, run, ?_, tag, fun x hx => ?_, words, apart⟩
    · show List.find? _ u.work.packets = _
      rw [packets]
      exact s.packet?_dropPacket pid
    · rw [cells] at hx
      simpa using (List.mem_filter.mp hx).2

end Sys2Proof.Machine
end
